-- ==== Sys2Proof/Word.lean ====
section
/-!
DEFINITION. The word types of the Zhoette model: bytes, 16-, 32- and 64-bit words (R10: every register is 64 bits
wide, bit 0 is the least significant bit). Unit numbers are bounded naturals (R5, R6, R8, R9).
-/

namespace Sys2Proof

/-- One byte. -/
abbrev Byte := BitVec 8
/-- A 64-bit register word (R10). -/
abbrev Word := BitVec 64

/-- Global cluster number, 0 to 1,999 (R6). -/
abbrev GClu := Fin 2000
/-- Global core number, 0 to 79,999 (R6). -/
abbrev GCore := Fin 80000
/-- Descriptor context of a cluster, 0 to 7 (R146). -/
abbrev CtxNo := Fin 8
/-- Ring number, 0 to 7 (R5). -/
abbrev RingNo := Fin 8
/-- Site port, 0 to 7 (R246). -/
abbrev PortNo := Fin 8
/-- Wavelength channel, 0 to 31 (R305). -/
abbrev ChanNo := Fin 32
/-- Site, 0 to 15 (R280). -/
abbrev SiteNo := Fin 16
/-- Strongman of the device: ring × 4 + instance, 0 to 31 (R15, R186). -/
abbrev StrongNo := Fin 32

end Sys2Proof
end

