-- ==== Sys2Proof/Syntax.lean ====
section
/-!
DEFINITION. The commands of the Zhoette, one constructor for each row of spec/opcode_table.json, in the table's order.
The block has no programme counter: a command is a Romusko command taken from the host, a register write, an operation
of one of the device's engines, a frame or message that arrives, a timer that runs out, or an event on a pin. Everything
the device itself holds is in State; a command's operands are only what comes from outside: which unit acts, what the
host, the board, a peer or a circuit fault contributes (assumption 1).
-/

namespace Sys2Proof

/-- What a scrubber or a memory controller finds in the word it reads (R145, R396). -/
inductive Found where
  | clean | corrected | uncorrectable
  deriving DecidableEq, Repr

/-- What happens on the CXL link (R357, R366, R428): its training begins, it is up at a rate, or its link layer replays. -/
inductive CxlLinkEv where
  | training
  | trained (rate : Fin 3)
  | replays (n : BitVec 32)
  deriving DecidableEq, Repr

/-- What the host writes to the interrupt masks (R363, R368, assumption 74): INT_MASK, bytes of the MSI-X table, and the function mask where it writes
it. -/
structure MaskWrite where
  mask : Word
  table : List (Fin 0x400 × Byte) := []
  fnMask : Option Bool := none
  deriving DecidableEq, Repr

/-- The end of a black-box write or of a transmission to the partner, with the word of the recorder's buffer, if one, that it could not correct
(R396, R434, R436). -/
structure FlushEnd where
  toPartner : Bool
  upset : Option (Fin 0x100000) := none
  deriving DecidableEq, Repr

/-- A supply rail, 0 VIO, 1 VSRAM or 2 VCORE, that leaves its tolerance or is back within it (R471). -/
structure RailEv where
  rail : Fin 3
  back : Bool := false
  deriving DecidableEq, Repr

/-- A residue mismatch that a checker reports: the unit as in CORE_RES_ERR.LAST_UNIT and the ACLK cycle within the
instruction (R103, R104). -/
structure CircuitFault where
  unit : BitVec 8
  cycle : BitVec 32
  deriving DecidableEq, Repr

/-- Errors that strike words of a cluster's memories before a unit's reads meet them, by word (R145, R396, assumption 54): single-bit ones that
the unit's own reads find, ones that no code corrects, single-bit ones that stay until some port reads the word, and words of cores' local
memories, by core, that no code corrects. -/
structure Upset where
  single : List (Fin 0x60000) := []
  double : List (Fin 0x60000) := []
  latent : List (Fin 0x60000) := []
  inCore : List (Fin 40 × Fin 0x1C00) := []
  deriving DecidableEq, Repr

/-- What befalls a vector engine or the special-function unit while it runs a descriptor, beside its data: errors in the words that it
reads, and a mismatch that its residue checkers report (R145, R396). -/
structure UnitEv where
  upset : Upset := {}
  residue : Bool := false
  deriving DecidableEq, Repr

/-- What goes wrong in a pass beside the data: errors in the words that it reads; a circuit fault in it; a block of the rows that entered, by its place in the
pass's stream, that verified during the pass and fails verification when the undo reads it again, with the damage it then shows
(one below its kind of R129); or a circuit fault in the undo (R102). -/
inductive PassFault where
  | upset (u : Upset)
  | residue (f : CircuitFault)
  | undoBlock (kind : Fin 11) (place : Nat)
  | undoResidue (f : CircuitFault)
  deriving DecidableEq, Repr

/-- One DIMM as its SPD describes it (R478). -/
structure Dimm where
  channel : Nat
  slot : Nat
  gib : Nat
  org : Nat
  ranks : Nat
  mts : Nat
  registered : Bool
  ecc : Bool
  deriving DecidableEq, Repr

/-- What the boot ROM and the firmware find at a boot: the entropy source's start-up tests, whether the flash answers,
the DIMM population, and whether the board ties WP_EN high (R337, R477, R479). -/
structure BootEnv where
  entropyOk : Bool
  readOk : Bool
  dimms : List Dimm
  wpEn : Bool
  deriving DecidableEq, Repr

/-- State of one update shard as a peer delivers it: another holder of the slice, or a partner site (R196, R205, R397).
Arrays are little-endian bytes, `rcd` the entry's RECORD and, for RULE 3, its statistics; an empty list means the peer did not
deliver that array. -/
structure PeerShard where
  entry : Nat
  shard : Nat
  step : Word
  master : List Byte
  moment : List Byte
  anchor : List Byte
  omom : List Byte
  resid : List Byte
  rcd : List Byte
  deriving DecidableEq, Repr

/-- READY record and merged record of R188; NORM2 is an LX32 word. -/
structure ReadyRec where
  step : Word
  epoch : BitVec 16
  veto : BitVec 8
  flags : BitVec 8
  devices : BitVec 32
  norm2 : BitVec 640
  gfp : List Word
  wfp : List Word
  deriving DecidableEq, Repr

/-- A record that an all-reduce carries (R276): READY or phase-one READY, RULE 3 partials, completion of a phase. -/
inductive AllredRec where
  | ready (r : ReadyRec)
  | rule3 (entry : Nat) (cols : List (BitVec 640)) (tot : BitVec 640)
  | completion (phase : BitVec 8) (devices : BitVec 32)
  deriving DecidableEq, Repr

/-- What moves an ALLRED entry: its own trigger, a child's record, or the final record from the parent (R276). -/
inductive AllredIn where
  | own
  | child (addr : BitVec 20) (r : AllredRec)
  | final (r : AllredRec)
  deriving DecidableEq, Repr

/-- The four forms a reduction engine accepts (R166). -/
inductive ContribForm where
  | lx16 | lxp | lx32 | fp32
  deriving DecidableEq, Repr

/-- What a permutation's frames bring for one PERMUTE entry: its bytes and, with the masters of a range, the delta runs of an open round that the
sender holds for it, by site and round (R234, R235). -/
structure PermIn where
  bytes : List Byte
  deltas : List (Nat × Word × List Byte) := []
  deriving DecidableEq, Repr

/-- A contribution that reaches a reduction engine: the stream that brought it and the SEQ of its first frame (R257, R259), the fields it
carries and its bytes (R166, R272). -/
structure Contribution where
  src : BitVec 20
  stream : BitVec 16
  seq : Word
  form : ContribForm
  tensor : BitVec 16
  first : BitVec 48
  count : Nat
  epoch : BitVec 16
  data : List Byte
  deriving DecidableEq, Repr

/-- A queue transfer as it arrives (R222). -/
structure QueueXfer where
  queue : BitVec 16
  mb : BitVec 32
  stepTag : BitVec 16
  data : List Byte
  deriving DecidableEq, Repr

/-- A token-dispatch record of R275: a chunk of a token's row, a count record, or a returned row. -/
inductive DispatchIn where
  | chunk (layer : BitVec 16) (src : BitVec 20) (token : BitVec 48) (expert : BitVec 16) (slot : BitVec 32)
      (offset : BitVec 16) (choice : BitVec 8) (data : List Byte)
  | count (layer : BitVec 16) (src : BitVec 20) (expert : BitVec 16) (group : Nat) (n : BitVec 32)
  | returned (layer : BitVec 16) (mb tokenInMb : Nat) (choice : BitVec 8) (data : List Byte)
  deriving DecidableEq, Repr

/-- A frame as it arrives at a Borjan port: its tags, EtherType and the bytes that follow (R286, R287). -/
structure BjnFrame where
  port : Fin 2
  srcMac : BitVec 48
  ctags : Nat
  stag : Bool
  ether : BitVec 16
  bytes : List Byte
  deriving DecidableEq, Repr

/-- A device's round report to its coordinator (R291): newest round closed, highest step released, and the pairs
(site, age) whose delta is complete. -/
structure RoundReport where
  src : BitVec 20
  closed : Word
  released : Word
  complete : List (Nat × Nat)
  deriving DecidableEq, Repr

/-- What reaches FW_COMMIT (R339, R389): its start; its end with what the read-back finds; or, between the two, that the read-back has passed and
so many bits of the floor are blown. -/
inductive CommitIn where
  | start | readBack (ok : Bool) | blown (bits : Nat)
  deriving DecidableEq, Repr

/-- What reaches FW_FETCH (R393): its start, the partner's refusal, or the whole image. -/
inductive FetchIn where
  | start | refusedByPartner | image (bytes : List Byte)
  deriving DecidableEq, Repr

/-- What the Tightrope measures for one 100 µs decision (R451, R452, R454): three averages in watts and the sensors
whose reading changed, in sixteenths of a degree. -/
structure PowerSample where
  avg1ms : BitVec 16
  avg10ms : BitVec 16
  avg1s : BitVec 16
  temps : List (Fin 136 × Int)
  deriving DecidableEq, Repr

/-- A packet on the Midway as its receiving link sees it (R18). -/
structure MidwayPkt where
  stream : BitVec 32
  stepTag : BitVec 16
  seq : BitVec 32
  crcOk : Bool
  deriving DecidableEq, Repr

/-- What reaches the coordinator's role (R423): 20 ms without a beacon, the loss of the mirror partner that holds the
role, or a peer's announcement that it now holds it. -/
inductive CoordIn where
  | silence | partnerLost | announced (addr : BitVec 20)
  deriving DecidableEq, Repr

/-- A partner bank chunk (R435). -/
structure BankChunk where
  src : BitVec 20
  cause : BitVec 8
  flush : Word
  step : Word
  time : Word
  pos : Word
  data : List Byte
  last : Bool
  stopped : Bool
  deriving DecidableEq, Repr

/-- The commands. -/
inductive Instr where
  -- Romusko commands (R378): each runs the taken request that carries the tag.
  | ident (tag : BitVec 32)
  | fwStage (tag : BitVec 32)
  | fwActivate (tag : BitVec 32)
  | fwCommit (tag : BitVec 32) (ev : CommitIn)
  | fwBoot (tag : BitVec 32)
  | fwFetch (tag : BitVec 32) (ev : FetchIn)
  | fwBoard (tag : BitVec 32)
  | attestReport (tag : BitVec 32)
  | attestCert (tag : BitVec 32)
  | keyOwner (tag : BitVec 32)
  | keyLine (tag : BitVec 32)
  | keySnap (tag : BitVec 32)
  | keyClear (tag : BitVec 32)
  | progLoad (tag : BitVec 32)
  | progRun (tag : BitVec 32)
  | progDiscard (tag : BitVec 32)
  | step (tag : BitVec 32)
  | stepReplayBegin (tag : BitVec 32)
  | stepReplayEnd (tag : BitVec 32)
  | layout (tag : BitVec 32)
  | roundMap (tag : BitVec 32)
  | roundChan (tag : BitVec 32)
  | roundJoin (tag : BitVec 32)
  | roundArchive (tag : BitVec 32)
  | roundImport (tag : BitVec 32)
  | mirrorSet (tag : BitVec 32) (peers : List PeerShard)
  | mirrorClear (tag : BitVec 32)
  | mirrorAdmit (tag : BitVec 32)
  | diagRecClear (tag : BitVec 32)
  | diagDump (tag : BitVec 32) (answers : List (Nat × Nat))
  | diagSelftest (tag : BitVec 32) (pass : Bool)
  | calPort (tag : BitVec 32)
  | calMem (tag : BitVec 32)
  | pwrCap (tag : BitVec 32)
  | pwrState (tag : BitVec 32)
  | pwrNap (tag : BitVec 32)
  | timeSet (tag : BitVec 32)
  | timeCal (tag : BitVec 32)
  | snap (tag : BitVec 32)
  | snapRestore (tag : BitVec 32) (peers : Option (List PeerShard))
  -- Host interface (R364 to R376).
  | requestDoorbell (tail : BitVec 8) (entries : List (List Byte)) (hostWrites : List (Nat × Byte))
  | requestTake (hostOk : Bool)
  | completionPost
  | mbxCplHeadWrite (head : BitVec 8)
  | intMaskWrite (w : MaskWrite)
  | cplCoalesceTimeout
  | registerWrite (offset : Nat) (wide : Bool) (value : Word)
  -- Resets, hangs, boot (R110, R337, R388, R391, R401 to R411, R464, R472).
  | coreReset (target : BitVec 17)
  | clusterReset (target : BitVec 17)
  | ringmasterRestart
  | deviceReset
  | hangRecovery (cluster : BitVec 11)
  | suspectShortTimeout
  | suspectLimitTimeout
  | hangVerdict (selftests : List (CtxNo × Bool))
  | jobRewind (value : Word)
  | perstAssert (ns : Nat)
  | powerCycle
  | vioPowerOn
  | boot (env : BootEnv)
  | imageReady
  | startTimeout
  | failedStartAgeOut
  | firmwareWatchdog
  | handover
  | handoverTimeout
  | stepRelease (peers : List PeerShard) (touched : List (Nat × List Nat))
  -- Cluster engines (R72, R89 to R98, R146 to R163, R489).
  | mpass (core : GCore) (fault : Option PassFault)
  | mout (core : GCore)
  | mspill (core : GCore)
  | mresume (core : GCore)
  | mclear (core : GCore)
  | contextSwitch (clu : GClu) (unit : Fin 44)
  | dispatch (clu : GClu) (ctx : CtxNo)
  | wait (clu : GClu) (ctx : CtxNo)
  | signal (clu : GClu) (ctx : CtxNo)
  | checkpoint (clu : GClu) (ctx : CtxNo)
  | loop (clu : GClu) (ctx : CtxNo)
  | endCtx (clu : GClu) (ctx : CtxNo)
  | counterAdd (clu : GClu) (ctr : Fin 32) (add : BitVec 32)
  | qpush (clu : GClu) (ctx : CtxNo)
  | qpop (clu : GClu) (ctx : CtxNo)
  | qgrant (clu : GClu) (ctx : CtxNo)
  | qreturn (clu : GClu) (ctx : CtxNo)
  | queueTransfer (x : QueueXfer)
  | velem (clu : GClu) (eng : Fin 2) (fault : UnitEv)
  | vsum (clu : GClu) (eng : Fin 2) (fault : UnitEv)
  | vgather (clu : GClu) (eng : Fin 2) (fault : UnitEv)
  | vscatter (clu : GClu) (eng : Fin 2) (fault : UnitEv)
  | vsoftmax (clu : GClu) (eng : Fin 2) (fault : UnitEv)
  | vattnBlock (clu : GClu) (eng : Fin 2) (fault : UnitEv)
  | vattnMerge (clu : GClu) (eng : Fin 2) (fault : UnitEv)
  | sfuDescriptor (clu : GClu) (fault : UnitEv)
  | clusterDma (clu : GClu)
  -- Scrubs, sweeps, Midway (R18, R145, R396).
  | patrolScrub (clu : GClu) (found : Found)
  | memoryPatrolScrub (addr : Nat) (found : Found)
  | registerParitySweep (bad : Option Nat)
  | midwayPacket (p : MidwayPkt)
  -- Juggler, reduction engines, Strongman (R166, R177 to R206, R235, R271 to R277).
  | rsend (op : Nat) (mb : Nat)
  | rrecv (op : Nat)
  | reductionContribution (jug : Fin 16) (c : Contribution) (fault : Bool)
  | rhold (op : Nat) (shard : Nat) (values : List (BitVec 32)) (digest : Word)
  | gather (op : Nat) (mb : Nat) (arrived : Option (List Byte))
  | gatherRequest (src : BitVec 20) (tensor : BitVec 16) (first : BitVec 48) (count : BitVec 32)
  | tokenDispatch (op : Nat) (mb : Nat) (scores : List (Nat × List (BitVec 32)))
  | dispatchRecord (r : DispatchIn)
  | permute (op : Nat) (arrived : Option PermIn)
  | permutationStart
  | allred (op : Nat) (ev : AllredIn)
  | shardUpdate (sm : StrongNo) (fault : Bool) (owner : Option PeerShard)
  | phaseTwo (sm : StrongNo) (owner : Option PeerShard)
  | mirrorData (msg : List Byte)
  | mirrorAck (entry : Nat) (shard : Nat) (step : Word) (ok : Bool)
  | mirrorRestream
  | ready
  | mergedReadyRecord (r : ReadyRec)
  | rawRestorage (tensor : BitVec 16)
  | coreSelftest (core : GCore) (pass : Bool)
  | vetoFrame (src : BitVec 20) (kind : BitVec 8) (step : Word)
  | commitQuery (src : BitVec 20) (step : Word)
  | commitQueryAnswer (src : BitVec 20) (r : Option ReadyRec)
  | commitQueryRetry
  | outerClose
  | writeback
  -- Site fabric (R248 to R268).
  | portBringUp (port : PortNo) (trained : Bool) (aligned : Bool) (neighbour : BitVec 20) (echoes : List Nat)
  | identFrame (port : PortNo) (addr : BitVec 20) (echo : BitVec 32)
  | routedFrame (port : PortNo) (bytes : List Byte)
  | streamFrame
  | sack (src : BitVec 20) (stream : BitVec 16) (next : Word)
  | e2eResend (dest : BitVec 20) (stream : BitVec 16)
  | lack (port : PortNo) (lseq : BitVec 16)
  | lnak (port : PortNo) (lseq : BitVec 16)
  | lackTimer (port : PortNo)
  | credit (port : PortNo) (vc : Fin 4) (lane : Fin 2) (n : BitVec 16)
  | creditTimer (port : PortNo)
  | portDown (port : PortNo) (cause : Fin 3)
  | heartbeatSend
  | heartbeat (viaLink : Bool) (src : BitVec 20) (step : Word)
  | partnerLoss
  -- Borjan (R285 to R320).
  | drun (f : BjnFrame)
  | parity (f : BjnFrame)
  | back (f : BjnFrame)
  | backTimer (peer : BitVec 48)
  | borjanResend (peer : BitVec 48) (seq : Word)
  | req (f : BjnFrame)
  | groupCloseShort (peer : BitVec 48)
  | deviceReport (arrived : Option RoundReport)
  | haveFrame (f : BjnFrame)
  | manifestIssue
  | manifest (f : BjnFrame)
  | mack (f : BjnFrame)
  | seal (f : BjnFrame)
  | leadSilence
  | mquery (f : BjnFrame)
  | mreply (f : BjnFrame)
  | memberSilence
  | memberDrop (site : SiteNo)
  | join (f : BjnFrame)
  | joinSponsorSend
  | tt (f : BjnFrame) (chan : ChanNo) (rxTime : Word)
  | ttSend (chan : ChanNo) (txTime : Word)
  | channelLost (chan : ChanNo)
  | drainTimeout (chan : ChanNo)
  | capacityWindow (chan : ChanNo)
  | epochGone (f : BjnFrame)
  | keyGraceExpiry (peer : BitVec 48) (receive : Bool)
  -- Time and coordinator (R309 to R314, R423).
  | timeSecond
  | acquireDone
  | learnEnd (chan : ChanNo)
  | ppsEdge
  | coordBeacon (received : Bool)
  | coordTakeover (ev : CoordIn)
  -- Security (R352 to R354).
  | alarm (code : BitVec 8)
  | entropyFailure
  | entropyRecovered
  -- Calliope (R427 to R436).
  | recordPost (source : BitVec 32)
  | flushed (e : FlushEnd)
  | pendingFlushStart
  | partnerBankReceipt (c : BankChunk)
  -- Power, clocks, thermal (R444 to R462).
  | droopWarning (clu : GClu)
  | dipEnd (clu : GClu)
  | droopHoldEnd (clu : GClu) (ns : Word)
  | resetLevel (clu : Option GClu) (mv : BitVec 16)
  | powerFailWarning
  | pllLockLoss
  | pllLock
  | refClockChange (input : Fin 5) (present : Bool)
  | capDecision (m : PowerSample)
  | thermalTrip (sensor : Fin 136) (temp : Int)
  | thermalHoldEnd
  | admissionRequest (clu : GClu)
  | admission
  | coreIdle (core : GCore)
  | napEntry (clu : GClu)
  | napWakeDone (clu : GClu)
  | dozeWakeDone (ring : Option RingNo)
  | memoryEraseDone (ms : Word)
  | resetEscalation (core : Bool) (target : BitVec 17)
  | fenceFail (deviceFault : Bool) (unit : BitVec 32)
  -- CXL (R356 to R361, R376).
  | cxlReset
  | cxlLinkTrained (ev : CxlLinkEv) (width : BitVec 5) (flit256 : Bool)
  | cxlMemRead (line : Nat) (found : Found)
  | cxlMemWrite (offset : Nat) (data : List Byte)
  | hostWindowTimeout (clu : GClu) (unit : Fin 44) (addr : Nat)
  -- I3C and the remaining timers and pins.
  | i3cSetdasa (addr : BitVec 7)
  | i3cEntdaa (addr : BitVec 7)
  | i3cPrivateWrite (bytes : List Byte)
  | i3cPrivateRead
  | ibiTimeout
  | pfwWithdrawn
  | sackTimer (src : BitVec 20) (stream : BitVec 16)
  | haveTimer
  | snapRestoreTimeout
  | fwFetchTimeout
  | hdmIdleSelfRefresh
  | inBandInterruptAccepted
  | borjanPortLinkChange (port : Fin 2) (up : Bool)
  | cxlLinkDown
  | ringmasterFault
  | railOutOfTolerance (e : RailEv)
  deriving DecidableEq, Repr

end Sys2Proof
end

