-- ==== Sys2Proof/Machine/State.lean ====
section
/-!
DEFINITION. Everything the manual gives the Zhoette to hold, as plain data, and the state right after reset. Registers
that BAR0 shows live in `regs` alone (R486); memories are lists of bytes in one canonical form; queues are lists, oldest
first. `out` collects, in order, what leaves the package (assumption 6). Absent keys of a map stand for the default that
the accessor names.
-/

namespace Sys2Proof.Machine

/-- Bytes in ascending offset. -/
abbrev Bytes := List Byte
/-- A map from natural keys, sorted by key, no key twice. -/
abbrev SMap (α : Type) := List (Nat × α)

/-- A long accumulator (R40, R41): VALUE as an integer in units of 2^-48 (LX16) or 2^-298 (LX32), and the four flags. The
residue of an LX32 is a function of VALUE (R42) and is formed where the accumulator is written. -/
structure Acc where
  val : Int := 0
  nan : Bool := false
  pinf : Bool := false
  ninf : Bool := false
  allneg : Bool := true
  deriving DecidableEq, Repr

/-! ## Romusko (R369 to R376) -/

/-- A request that the device has taken and not completed (R372 to R376). -/
structure Taken where
  tag : BitVec 32
  opcode : Nat
  ordered : Bool
  noirq : Bool
  outAddr : Nat
  payload : Bytes
  started : Bool := false
  silent : Bool := false
  deriving DecidableEq, Repr

/-- A completion that waits for its ring slot (R370, R371). -/
structure Cpl where
  tag : BitVec 32
  opcode : Nat
  status : BitVec 16
  outBytes : BitVec 32
  result : Bytes
  noirq : Bool
  deriving DecidableEq, Repr

/-- The rings of BAR2 and what the Ringmaster holds of them (R365, R371), and the MSI-X function mask (R368). Absent ring entries are zero bytes. -/
structure Mbx where
  req : SMap Bytes := []
  cpl : SMap Bytes := []
  taken : List Taken := []
  wait : List Cpl := []
  unreported : Nat := 0
  fnMask : Bool := false
  deriving DecidableEq, Repr

/-! ## Programmes (R207 to R210, R261, R269, R280) -/

/-- A tensor declaration (R210). -/
structure TensorDecl where
  tensor : Nat
  fmt : Nat
  form : Nat
  stoch : Bool
  batch : Bool
  elems : Nat
  rows : Nat
  cols : Nat
  base : Nat
  index : Nat
  firstRow : Nat
  deriving DecidableEq, Repr

/-- A state-map entry (R169). -/
structure SEntry where
  tensor : Nat
  layer : Nat
  rule : Nat
  cold : Bool
  lzy : Bool
  strongman : Nat
  hp : Nat
  first : Nat
  rowLen : Nat
  count : Nat
  hbm : Nat
  ddr : Nat
  coldBase : Nat
  rowsTotal : Nat
  deriving DecidableEq, Repr

/-- A hyperparameter record, FP32 encodings (R170). -/
structure Hyper where
  beta : BitVec 32
  beta2 : BitVec 32
  eps2 : BitVec 32
  wdMult : BitVec 32
  lrMult : BitVec 32
  blockK : BitVec 32
  absBound : BitVec 32
  avgBeta : BitVec 32
  deriving DecidableEq, Repr

/-- An act-table entry with its clusters (R219). -/
structure ActE where
  variant : Nat
  act : Nat
  role : Nat
  firstLayer : Nat
  layers : Nat
  clusters : List Nat
  deriving DecidableEq, Repr

/-- A context-table entry (R209). -/
structure CtxE where
  variant : Nat
  cluster : Nat
  ctx : Nat
  lx32 : Bool
  inHbm : Bool
  firstSlot : Nat
  slots : Nat
  list : Nat
  save : Nat
  cores : Nat
  deriving DecidableEq, Repr

/-- A descriptor-list section: its variant, the device address it is copied to, and its 64-byte entries as eight words
each (R146, R208). -/
structure ListSec where
  variant : Nat
  addr : Nat
  entries : List (List Word)
  deriving DecidableEq, Repr

/-- A queue-table entry (R221). -/
structure QueueE where
  queue : Nat
  dir : Nat
  slots : Nat
  sender : Nat
  receiver : Nat
  slotBytes : Nat
  recvPos : Nat
  recvCluster : Nat
  base : Nat
  deriving DecidableEq, Repr

/-- An expert-table entry (R226). -/
structure ExpertE where
  layer : Nat
  expert : Nat
  home : Nat
  active : Nat
  cap : Nat
  deriving DecidableEq, Repr

/-- An offload-table entry (R231). -/
structure OffE where
  tensor : Nat
  act : Nat
  dest : Nat
  lead : Nat
  slots : Nat
  base : Nat
  stride : Nat
  deriving DecidableEq, Repr

/-- A Juggler plan entry (R270). -/
structure PlanOp where
  typ : Nat
  perMb : Bool
  incoming : Bool
  stream : Nat
  tensor : Nat
  first : Nat
  arg : Nat
  count : Nat
  loc : Nat
  listN : Nat
  slotBytes : Nat
  peer : Nat
  trigClu : Nat
  trigCtr : Nat
  trigVal : Nat
  sigClu : Nat
  sigCtr : Nat
  sigAdd : Nat
  slots : Nat
  aux : Nat
  deriving DecidableEq, Repr

/-- A Juggler plan (R269). -/
structure Plan where
  kind : Nat := 0
  epoch : Nat := 0
  ops : List PlanOp := []
  area : Bytes := []
  deriving DecidableEq, Repr

/-- A routing table (R261). -/
structure Route where
  addr : Nat := 0xFFFFF
  mirrorPort : Nat := 0xFF
  mask : Nat := 0
  neighbours : List Nat := []
  region : List Nat := []
  lcl : List Nat := []
  deriving DecidableEq, Repr

/-- A round configuration (R280) with its configuration hash. -/
structure RoundCfg where
  h : Nat
  applyMin : Nat
  applyMax : Nat
  stale : Nat
  site : Nat
  root : Nat
  ecK : Nat
  ecM : Nat
  members : Nat
  betaO : BitVec 32
  etaO : BitVec 32
  staleFactor : BitVec 32
  exchMs : Nat
  leadTmo : Nat
  memberTmo : Nat
  coord : Nat
  coordAlt : Nat
  storeBase : Nat
  storeBytes : Nat
  weights : List (BitVec 32)
  hash : Bytes
  deriving DecidableEq, Repr

/-- A user slot of a generation programme (R241 to R243): its cache region and capacity, its scores, the address where its passes find their
tokens, and the contexts that its prompt pass and its decoding passes run, a bit each; the entry's layout is the model's (assumption 41). -/
structure UserSlot where
  kv : Nat := 0
  kvBytes : Nat := 0
  ctxMax : Nat := 0
  scores : Nat := 0
  vocab : Nat := 0
  tokens : Nat := 0
  promptCtx : Nat := 0
  decodeCtx : Nat := 0
  deriving DecidableEq, Repr

/-- One section of an image (R208). -/
structure Section where
  typ : Nat
  variant : Nat
  count : Nat
  addr : Nat
  data : Bytes
  deriving DecidableEq, Repr

/-- A programme as its image declares it (R207). -/
structure Prog where
  gen : Bool
  epoch : Nat
  flags : Nat
  modes : Nat
  kvb : Nat
  seqSplit : Nat
  siteTroupes : Nat
  troupe : Nat
  troupeSize : Nat
  position : Nat
  group : Nat
  acts : Nat
  layers : Nat
  routeGroup : Nat
  stageRows : Nat
  commitRec : Nat
  seqMax : Nat
  balGain : Nat
  hash : Bytes
  sections : List Section
  tensors : List TensorDecl
  smap : List SEntry
  hyper : List Hyper
  actE : List ActE
  ctxE : List CtxE
  lists : List ListSec
  queues : List QueueE
  experts : List ExpertE
  offload : List OffE
  plan : Plan
  route : Route
  round : Option RoundCfg
  users : List UserSlot
  deriving DecidableEq, Repr

/-- An image under staging: its total length and the bytes so far (R380). -/
structure Staging where
  total : Nat
  data : Bytes
  deriving DecidableEq, Repr

/-! ## Steps -/

/-- A step descriptor that is queued or running: the STEP command's tag, its number, its attempt and the descriptor bytes
(R23, R212, R241). -/
structure StepJob where
  tag : BitVec 32
  n : Word
  desc : Bytes
  attempt : Nat := 0
  releaseNs : Word := 0
  holdNs : Word := 0
  deriving DecidableEq, Repr

/-- A user of a running generation batch: tokens produced so far and whether it is finished (R241). -/
structure GenUser where
  produced : Nat := 0
  done : Bool := false
  deriving DecidableEq, Repr

/-- Programmes and steps. -/
structure Job where
  staging : Option Staging := none
  staged : Option Prog := none
  prog : Option Prog := none
  everRun : Bool := false
  variant : Nat := 0
  running : Option StepJob := none
  queue : List StepJob := []
  attempts : SMap Nat := []
  genDone : Nat := 0
  genUsers : List GenUser := []
  genNext : Nat := 0
  runWait : Option (BitVec 32) := none
  noStep : Bool := false
  diverged : Bool := false
  settle : Option Word := none
  deriving DecidableEq, Repr

/-! ## Clusters and cores -/

/-- A front set of the Carousel (R80): the context that loaded it, the MODE and SFMT of the loading pass, its values. -/
structure Front where
  ctx : Nat
  mode : Nat
  sfmt : Nat
  vals : List (BitVec 32)
  deriving DecidableEq, Repr

/-- A matrix core beside its memories (R80, R85, R96, R101, R104, R106, R455): both Carousel sets, the MODE of the last
pass, the last TAG retired, the flags of the per-instruction snapshot, contexts whose slots are void, contexts whose state
lies in their save area. -/
structure Core where
  front : Option Front := none
  back : Option Front := none
  mode : Option Nat := none
  lastTag : BitVec 16 := 0
  snapshot : List (BitVec 4) := []
  void : List Nat := []
  saved : List Nat := []
  live : List Nat := []
  resErrs : Nat := 0
  testDue : Bool := false
  gated : Bool := false
  deriving DecidableEq, Repr

/-- A descriptor that a context has handed to a unit: where it stood, its words, the signal of its DISPATCH when it is
the last of it (R147), and its number in the order of dispatch, which tells the oldest (R401). -/
structure QItem where
  addr : Nat
  words : List Word
  sig : Option (Nat × Nat × Nat) := none
  n : Nat := 0
  deriving DecidableEq, Repr

/-- A descriptor context: position, and the jumps left of the LOOP entries it is inside, by their address (R146, R147). -/
structure Ctx where
  pos : Nat := 0
  loops : SMap Nat := []
  deriving DecidableEq, Repr

/-- The completion record of a unit's last instruction (R49, R89, R134, R157): its context and TAG, the numeric status,
IDX_OOB, the bytes an LXP export wrote, the extra cycles of slow blocks. Its layout is not given (assumption 14). -/
structure Completion where
  ctx : Nat
  tag : Nat
  status : Nat := 0
  oob : Bool := false
  bytes : Nat := 0
  extra : Nat := 0
  deriving DecidableEq, Repr

/-- An access that waits at a napping cluster's router stop (R457): an add to a counter, a queue transfer, or a write. -/
inductive Waiting where
  | count (ctr n : Nat)
  | transfer (x : QueueXfer)
  | write (a : Nat) (b : Bytes)
  deriving DecidableEq, Repr

/-- A cluster's clock, nap and wake state (R444, R449, R456, R458): 0 awake, 1 quiet, 2 waiting for admission, 3 in nap,
4 waking from nap, 5 in nap and waiting for admission, 6 powered off by doze. Unit queues and the contexts they serve are keyed by unit × 8 + context and by unit; `stall` holds, per
tensor, the extra cycles and the stream cycles of the step's wide-shallow passes (R135); `scrub` is the word that the patrol scrubber
reads next (R145), `sent` counts the descriptors dispatched, and `stop` holds what waits for the end of a nap, oldest first (R457). -/
structure Clu where
  ctxs : SMap Ctx := []
  queues : SMap (List QItem) := []
  serving : SMap Nat := []
  counters : SMap Nat := []
  power : Nat := 0
  halved : Bool := false
  dipHold : Bool := false
  stall : SMap (Nat × Nat) := []
  comp : SMap Completion := []
  scrub : Nat := 0
  sent : Nat := 0
  stop : List Waiting := []
  deriving DecidableEq, Repr

/-- An inter-act queue, both ends as far as this device holds them (R222): credits announced, micro-batches returned to
the sender, pushes waiting for acknowledgement (with the descriptor's cluster, unit key and context), and at the receiver
the micro-batch that each slot holds and the one it expects next. -/
structure QState where
  credits : Nat := 0
  returned : List Nat := []
  inFlight : List Nat := []
  acked : List Nat := []
  held : SMap Nat := []
  expect : SMap Nat := []
  deriving DecidableEq, Repr

/-- A suspect of a hang recovery (R401 to R403): its context, its stuck descriptor with the unit that held it (44 is the controller),
the position its replay starts from with the save areas in HBM that it restores first, and its verdict: 0 CLEARED, 1 GUILTY, 2
UNSETTLED. -/
structure Susp where
  ctx : Nat
  desc : Nat
  unit : Nat
  start : Nat
  area : Option Nat := none
  verdict : Option Nat := none
  deriving DecidableEq, Repr

/-- A hang recovery (R401 to R404): the cluster, the suspects, the one under replay, and whether its stuck descriptor has just
retired. -/
structure Hang where
  cluster : Nat := 0
  susp : List Susp := []
  cur : Option Nat := none
  hit : Bool := false
  deriving DecidableEq, Repr

/-! ## Strongman, barrier, mirror, outer state -/

/-- A reduced shard that waits for its Strongman (R166, R273). -/
structure Reduced where
  entry : Nat
  shard : Nat
  vals : List (BitVec 32)
  digest : Word
  owned : Bool
  deriving DecidableEq, Repr

/-- Sums of RULE 3 over one tensor: column sums and the total (R181). -/
structure R3 where
  cols : List Acc
  tot : Acc
  got : Nat
  deriving DecidableEq, Repr

/-- The barrier's state of a device that asks for a merged record (R191). -/
structure Query where
  step : Word
  members : List Nat
  answered : List Nat
  deriving DecidableEq, Repr

/-- Optimiser, barrier and commit (R174 to R192, R197 to R204); `digC` and `digN` hold the gradient digest of each shard for
the committed step and the one running (R193, R194). Pairs are (entry, shard), but for `writeback` and the lists
of `touched`, which hold rows. The journals of R183, R199 and R235 are filled, copied and marked done within one command,
so they are empty between commands and need no field. -/
structure Strg where
  reduced : List Reduced := []
  done : List (Nat × Nat) := []
  mirrored : List (Nat × Nat) := []
  acked : List (Nat × Nat) := []
  sumSq : SMap Acc := []
  rowSq : SMap Acc := []
  r3 : SMap R3 := []
  r3mine : SMap R3 := []
  gfp : SMap Word := []
  wfp : SMap Word := []
  norm2 : Acc := {}
  phaseOne : Bool := false
  parked : List Reduced := []
  p1norm : Option Acc := none
  audited : List Nat := []
  readySent : Bool := false
  sentRec : Option ReadyRec := none
  restream : List (Nat × Nat) := []
  vetoed : List (Nat × Nat) := []
  latest : Option ReadyRec := none
  merged : List ReadyRec := []
  query : Option Query := none
  touched : SMap (List Nat) := []
  writeback : List (Nat × Nat × Nat) := []
  unreadable : List (Nat × Nat) := []
  outerDone : List (Nat × Nat × List (Nat × Bytes)) := []
  closeDue : Option Nat := none
  holdFrom : Option Word := none
  digC : SMap Word := []
  digN : SMap Word := []
  deriving DecidableEq, Repr

/-- The partner mirror and the carried state (R193, R415, R418); `seen` says that a heartbeat has arrived in the period (R267),
`adopt` names the carried shards whose mirror copy already holds the step after the commit, with their digests (R196). -/
structure Mirror where
  region : Nat := 0
  regionBytes : Nat := 0
  map : List SEntry := []
  reserve : Nat := 0
  reserveBytes : Nat := 0
  scratch : Nat := 0
  carryParity : Nat := 0
  adopt : List (Nat × Nat × Word) := []
  seen : Bool := false
  deriving DecidableEq, Repr

/-! ## Juggler, reduction engines, collectives -/

/-- What a reduction engine holds of one RRECV range under one epoch (R165, R167): for each shard whose slots stand in the range's region of
HBM, by its first parameter, the parameters that contributions have merged. -/
structure AccSet where
  op : Nat
  epoch : Nat
  counts : SMap Nat := []
  deriving DecidableEq, Repr

/-- An all-reduce in progress (R276): whether this device's own record is in, what has merged, the children in. -/
structure AllredSt where
  own : Bool := false
  rec_ : Option AllredRec := none
  kids : List Nat := []
  sent : Bool := false
  deriving DecidableEq, Repr

/-- Juggler state (R269 to R277): runs done per (operation, micro-batch), accumulator sets, all-reduces, the origin of
each dispatched row (layer, expert, slot, source, token, choice), the chunks of rows in hand (layer, expert, slot, token, offset), count records
(layer, expert, group, count), choices kept per (layer, micro-batch), rows returned (layer, micro-batch, place), discarded contributions, gather
requests sent, and the runs that lack only the acknowledgement of their frames (R272). -/
structure Jug where
  ran : List (Nat × Nat) := []
  sets : List AccSet := []
  newEpochCommit : Bool := true
  allred : SMap AllredSt := []
  origin : List (Nat × Nat × Nat × Nat × Nat × Nat) := []
  counts : List (Nat × Nat × Nat × Nat) := []
  kept : List (Nat × Nat × Nat) := []
  returned : List (Nat × Nat × Nat) := []
  discarded : Nat := 0
  asked : List (Nat × Nat) := []
  chunks : List (Nat × Nat × Nat × Nat × Nat) := []
  due : List (Nat × Nat) := []
  deriving DecidableEq, Repr

/-- An accepted re-shard (R234 to R236): commit, plan, whether the permutation has started, the phase under way, the PERMUTE
entries done, what has arrived for entries that have not started (R277), and whether the loss of a member has made it a forced one. -/
structure Reshard where
  tag : BitVec 32
  commit : Word
  plan : Plan
  started : Bool := false
  phase : Nat := 0
  done : List Nat := []
  early : List (Nat × Bytes) := []
  forced : Bool := false
  deriving DecidableEq, Repr

/-- An OWNED restore in progress (R205): its command, its step, the shards that wait for their owners. -/
structure Restore where
  tag : BitVec 32
  step : Word
  left : List (Nat × Nat)
  deriving DecidableEq, Repr

/-! ## Site fabric -/

/-- A site port's link layer (R248, R252, R253, R255): the IDENT echoes, the time sent in the last IDENT frame and the neighbour of a bring-up,
the frames that each virtual channel has sent in the round under way, the next LSEQ each way, the replay buffer, whether frames are discarded until the LSEQ asked for, frames accepted since the last
LACK, the LSEQ of the last replay and how often it has been replayed, credits held and credits owed (keyed VC × 2 + lane), frames that
wait (VC, lane, key of the credits they free, bytes), whether the port carries routed traffic. -/
structure SPort where
  echoes : List Nat := []
  stamp : Option Nat := none
  peer : Nat := 0xFFFFF
  used : SMap Nat := []
  txSeq : BitVec 16 := 0
  rxSeq : BitVec 16 := 0
  replay : List (BitVec 16 × Bytes) := []
  waiting : Bool := false
  owed : Nat := 0
  replayed : BitVec 16 := 0
  replays : Nat := 0
  credits : SMap Nat := []
  owes : SMap Nat := []
  queue : List (Nat × Nat × Nat × Bytes) := []
  carries : Bool := false
  deriving DecidableEq, Repr

/-- A sending stream (R257): next SEQ, frames unacknowledged with their SEQ and the plan entry and run they belong to, re-sends without
progress. -/
structure TxStream where
  dest : Nat
  stream : Nat
  next : Word := 0
  held : List (Word × Nat × Nat × Bytes) := []
  resends : Nat := 0
  deriving DecidableEq, Repr

/-- A receiving stream (R257): next SEQ expected, the first SEQ whose frame no engine has taken yet (R259), accepted frames since the last SACK,
whether a SACK is owed. -/
structure RxStream where
  src : Nat
  stream : Nat
  next : Word := 0
  used : Word := 0
  since : Nat := 0
  owes : Bool := false
  deriving DecidableEq, Repr

/-- The site fabric of the device (R246 to R268); `arrived` holds frames delivered to the device, with the site port they came in on, or
port 8 or 9 of this device's own (R260). -/
structure Fabric where
  ports : SMap SPort := []
  tx : List TxStream := []
  rx : List RxStream := []
  arrived : List (Nat × Bytes) := []
  deriving DecidableEq, Repr

/-! ## Borjan -/

/-- A range-map entry (R283). -/
structure RMapE where
  first : Nat
  count : Nat
  site : Nat
  mac0 : Nat
  mac1 : Nat
  deriving DecidableEq, Repr

/-- A line key with its epoch (R346, R347). -/
structure LineKey where
  key : Bytes
  epoch : Nat
  deriving DecidableEq, Repr

/-- A frame that was sealed and is not acknowledged (R303, R304): SEQ, group, channel it left on, when, header and
ciphertext, empty while the frame waits for a key (R320), the plaintext it is rebuilt from under a new epoch (R318), and every channel that
has carried it (R306). -/
structure Sent where
  seq : Word
  typ : Nat
  gidx : Nat
  gk : Nat
  gm : Nat
  chan : Nat
  at_ : Word
  due : Bool := false
  bytes : Bytes
  plain : Bytes
  via : List Nat := []
  deriving DecidableEq, Repr

/-- A received frame kept for its erasure group (R303). -/
structure Kept where
  seq : Word
  typ : Nat
  gidx : Nat
  gk : Nat
  gm : Nat
  plain : Bytes
  deriving DecidableEq, Repr

/-- What the device holds toward one peer device (R287, R303, R304, R315 to R320, R347). -/
structure Peer where
  mac0 : Nat
  mac1 : Nat
  site : Nat
  seq : Word := 0
  cum : Word := 0
  got : List Word := []
  kept : List Kept := []
  sent : List Sent := []
  waiting : List (Nat × Bytes) := []
  owesBack : Bool := false
  tx : Option LineKey := none
  txWait : Bool := false
  txUsed : Nat := 0
  counters : SMap Nat := []
  rx : Option LineKey := none
  prev : Option LineKey := none
  grace : Bool := false
  gone : List Word := []
  deriving DecidableEq, Repr

/-- A wavelength channel (R305 to R308, R310, R311); `cap` is in kb/s. -/
structure Chan where
  port : Nat := 0
  vid : Nat := 0
  pcp : Nat := 0
  site : Nat := 0
  rate : Nat := 0
  good : Nat := 0
  cap : Nat := 0
  frames : Nat := 0
  resent : Nat := 0
  txIdx : Nat := 0
  txPrev : Word := 0
  rxIdx : Nat := 0
  rxTime : Word := 0
  pend : List (Nat × Word) := []
  half : Option (Nat × Word × Word × Word) := none
  best : Option (Int × Int) := none
  deriving DecidableEq, Repr

/-- Bytes of a partner's delta as they arrive (R290): which site, round and peer, the total, the segments in hand, and
whether every run has passed its check. -/
structure RxDelta where
  site : Nat
  round : Word
  mac : Nat
  total : Nat
  data : SMap Byte
  complete : Bool
  deriving DecidableEq, Repr

/-- A round stream of this device (R285): round, peer, bytes. -/
structure OwnStream where
  round : Word
  mac : Nat
  data : Bytes
  deriving DecidableEq, Repr

/-- A manifest (R293). Entries are (site, weight, round of the delta). -/
structure Manifest where
  round : Word
  step : Word
  lead : Nat
  attempt : Nat
  members : Nat
  cfg : Bytes
  entries : List (Nat × BitVec 32 × Word)
  deriving DecidableEq, Repr

/-- A site's combined report at the lead (R291): highest step released, (site, age) pairs complete. -/
structure Have where
  round : Word
  released : Word
  complete : List (Nat × Nat)
  deriving DecidableEq, Repr

/-- The manifest protocol of the open round (R291 to R299). `held` is the manifest for which this device holds its release, `coordHeld` the one
that it holds as its site's coordinator (R282), `attempt` the round's current attempt (R292, R298), `full` the rounds of which the device takes in
no more (R301), `archWait` the applied manifests whose discard waits for the archive (R329); of a join, `joinGot` has the parameter ranges that came
with the manifest of `joinRound`, and `sponsorSent` is the round of the manifest that this sponsor sent last (R302). -/
structure Rounds where
  open_ : Option Word := none
  held : Option Manifest := none
  coordHeld : Option Manifest := none
  attempt : Nat := 0
  sealed_ : Option Manifest := none
  applied : Bool := true
  issued : Option Manifest := none
  accepts : List Nat := []
  querying : Bool := false
  queryAt : Nat := 0
  replies : List (Nat × Option (Manifest × Bool)) := []
  reports : List RoundReport := []
  haves : SMap Have := []
  dropped : Bool := false
  stuck : Bool := false
  newCfg : Bool := false
  store : List OwnStream := []
  rx : List RxDelta := []
  last : Option Manifest := none
  map : List RMapE := []
  nextMap : Option (List RMapE) := none
  layoutMap : Option (List RMapE) := none
  archive : Option (Nat × Nat × Nat) := none
  archWait : List Manifest := []
  full : List Word := []
  peers : List Peer := []
  chans : SMap Chan := []
  joiner : Option Nat := none
  sponsorOf : Option Nat := none
  joinReqs : Nat := 0
  joinGot : List (Nat × Nat) := []
  joinHeld : List (Word × Bytes) := []
  joinRound : Option Word := none
  sponsorSent : Option Word := none
  coord : Bool := false
  coordNow : Nat := 0xFFFFF
  deriving DecidableEq, Repr

/-! ## Replay (R330 to R333) -/

/-- A logged attempt (R331). -/
structure LogStep where
  n : Word
  payload : Bytes
  gfp : Bytes
  wfp : Bytes
  deriving DecidableEq, Repr

/-- Replay mode; `bad` names the steps whose manifest an imported delta did not match (R333). -/
structure Replay where
  on : Bool := false
  first : Word := 0
  last : Word := 0
  cont : Bool := false
  steps : List LogStep := []
  variants : List (Word × Nat) := []
  manifests : List (Manifest × List Bytes) := []
  resets : List (Word × Nat × Nat) := []
  waiting : Bool := false
  bad : List Word := []
  deriving DecidableEq, Repr

/-! ## Firmware, trust, keys -/

/-- Firmware and boot (R336 to R342, R385 to R395, R477): `wp` is the board's WP_EN, `commit` the FW_COMMIT that writes flash, `torn` says that flash
holds an image half written (R390), `uncommitted` that the running image was activated and not committed since (R388);
`activations` counts live activations, which SEC_STATUS shows in 24 bits and the attestation report in 32 (R338, R341). -/
structure Fw where
  up : Bool := false
  side : Bool := false
  staging : Option Staging := none
  verified : Option Bytes := none
  running : Bytes := []
  bootDigest : Bytes := []
  runDigest : Bytes := []
  meas3 : Bytes := []
  meas4 : Bytes := []
  meas5 : Bytes := []
  keySlot : Nat := 3
  starting : Bool := false
  byHandover : Bool := false
  activate : Option (BitVec 32) := none
  due : Bool := false
  atStep : Word := 0
  fetch : Option (BitVec 32) := none
  boots : Nat := 0
  signs : Nat := 0
  cfg : Bytes := []
  wp : Bool := false
  commit : Option (BitVec 32) := none
  torn : Bool := false
  uncommitted : Bool := false
  activations : Nat := 0
  deriving DecidableEq, Repr

/-- Keys of the security complex (R343 to R348). -/
structure Keys where
  owner : Option Bytes := none
  snap : Option Bytes := none
  lastSnap : Option Nat := none
  kem : Option Nat := none
  kemCount : Nat := 0
  identity : Bool := false
  deriving DecidableEq, Repr

/-! ## Calliope -/

/-- A black-box slot's image (R434); `src` is the device's own address when it was written. -/
structure Slot where
  src : Nat := 0xFFFFF
  cause : Nat
  flush : Nat
  step : Word
  time : Word
  firstPos : Nat
  data : Bytes
  good : Bool
  deriving DecidableEq, Repr

/-- A flush under way (R434, R436). -/
structure Flush where
  cause : Nat
  step : Word
  time : Word
  slot : Nat
  firstPos : Nat
  endPos : Nat
  data : Bytes
  partner : Bool
  deriving DecidableEq, Repr

/-- Calliope (R425 to R437). Records are kept whole, oldest first; positions follow from CAL_OLDEST. -/
structure Cal where
  buf : List Bytes := []
  queues : SMap (List Bytes) := []
  lost : List (Nat × Nat × Nat) := []
  seqs : SMap Nat := []
  slot0 : Option Slot := none
  slot1 : Option Slot := none
  flush : Option Flush := none
  pend : Option Nat := none
  pendStep : Word := 0
  sending : List (Nat × Nat) := []
  bank : List BankChunk := []
  overBytes : Nat := 0
  flushes : Nat := 0
  deriving DecidableEq, Repr

/-! ## Time, power, sideband -/

/-- Time discipline beside its registers (R309 to R313): a pending TIME_SET, the nanoseconds still to slew with the ten-thousandths
of the one under way, whether the first estimate has stepped the timebase, the uncertainty and time at which holdover began and
what a path event adds, the channel that LEARN learns with its best exchange (round trip, t2 − t1 − t4 + t3), and each
channel's last one-second minimum round trip. -/
structure TimeS where
  pendingSet : Option Word := none
  slew : Int := 0
  frac : Int := 0
  stepped : Bool := false
  holdU : Nat := 0
  holdNs : Word := 0
  learn : Option Nat := none
  learnBest : Option (Int × Int) := none
  minRtt : SMap Int := []
  added : Nat := 0
  deriving DecidableEq, Repr

/-- Supply, caps, temperatures, reset holds (R444 to R460, R471, R472): the rails out of tolerance, the requests of the capping
controller and of the thermal throttle with the ticks of 100 µs they count, the sensors' readings in sixteenths of a degree, the wake
queue, a PWR_STATE that waits for wakes (tag, rings asked for with 8 for the device, clusters left, its start), whether DDR5 is out of self-refresh in device doze, the VID code,
the reference inputs present, a bit each, and the core resets (`true`) and cluster resets that have not been known to escalate (R408). -/
structure Pwr where
  pfw : Bool := false
  thermHold : Bool := false
  pllHold : Bool := false
  rails : List Nat := []
  capLevel : Nat := 0
  thermLevel : Nat := 0
  capCause : Nat := 0
  throttled : Bool := false
  lowTicks : Nat := 0
  overTicks : Nat := 0
  coolTicks : Nat := 0
  excursion : Bool := false
  temps : SMap Int := []
  hotTicks : Nat := 0
  wakes : List Nat := []
  wakeTag : Option (BitVec 32) := none
  wakeRings : List Nat := []
  wakeLeft : List Nat := []
  wakeNs : Word := 0
  hdmAwake : Bool := false
  vid : Nat := 0x14
  refs : Nat := 7
  resets : List (Bool × Nat) := []
  deriving DecidableEq, Repr

/-- The I3C target (R476); `armed` counts the queued interrupts, the newest ones, that the BMC has not accepted. -/
structure I3c where
  addr : Option (BitVec 7) := none
  offset : Nat := 0
  queue : List (BitVec 8) := []
  armed : Nat := 0
  alert : Bool := false
  latched : Bytes := []
  deriving DecidableEq, Repr

/-! ## What leaves the package -/

/-- Messages of the control channel and of the Midway between engines and devices (R250, R187); their layouts inside a
CTRL payload are not given (assumption 6). -/
inductive Msg where
  | ready (r : ReadyRec)
  | merged (r : ReadyRec)
  | rule3 (entry : Nat) (cols : List Acc) (tot : Acc)
  | completion (phase : Nat) (devices : Nat)
  | veto (kind : BitVec 8) (step : Word)
  | mirrorAck (entry shard : Nat) (step : Word) (ok : Bool)
  | heartbeat (step : Word)
  | query (step : Word)
  | answer (r : Option ReadyRec)
  | report (r : RoundReport)
  | beacon
  | takeover (addr : Nat)
  | credit (queue n : Nat)
  | returnCredit (queue mb : Nat)
  | queueAck (queue mb : Nat)
  | gatherRequest (tensor first count : Nat)
  | flashRequest
  | relay (typ : Nat) (payload : Bytes)
  deriving DecidableEq, Repr

/-- One thing that left the package, in order of leaving (assumption 6). -/
inductive Ev where
  | msix (v : Nat)
  | link (port : Nat) (bytes : Bytes)
  | frame (port : Nat) (bytes : Bytes)
  | message (dest : Nat) (m : Msg)
  | queue (pos cluster : Nat) (x : QueueXfer)
  | counter (cluster ctr add : Nat)
  | contribution (dest : Nat) (c : Contribution)
  | shard (dest : Nat) (tensor first : Nat) (vals : List (BitVec 32)) (digest : Word)
  | gathered (dest : Nat) (tensor first : Nat) (bytes : Bytes)
  | outerShard (dest : Nat) (tensor first : Nat) (w a m : Bytes)
  | rows (dest : Nat) (d : DispatchIn)
  | mirror (dest : Nat) (bytes : Bytes)
  | permuted (dest : Nat) (addr : Nat) (x : PermIn)
  | borjan (port vid pcp : Nat) (mac ether : Nat) (bytes : Bytes)
  | bankChunk (dest : Nat) (c : BankChunk)
  | cxl (line : Nat) (bytes : Bytes) (poison : Bool)
  | i3c (b : BitVec 8)
  | ibi (code : BitVec 8)
  | pin (name : String) (v : Nat)
  | restored (dest : Nat) (x : PeerShard)
  deriving DecidableEq, Repr

/-! ## Reasons and the whole state -/

/-- Reasons a command stops the model. Both are safe: the model stops where nothing that the manual describes can
happen. -/
inductive Fault where
  /-- Raised by REGISTER_WRITE at an offset beyond the 32 MiB of BAR0 (R363): no such register access can reach the
  device. Safe. -/
  | outsideBar0
  /-- Raised by CXL_MEM_READ and CXL_MEM_WRITE beyond the HDM window: the host's decoder sends no such access (R359).
  Safe. -/
  | outsideHdm
  deriving DecidableEq, Repr

/-- Reasons the model has no meaning for a command. -/
inductive Refusal where
  /-- The command's meaning is not modelled yet. Safe. -/
  | notModelled (mnemonic : String)
  deriving DecidableEq, Repr

/-- The state of the Zhoette. -/
structure State where
  pending : List Instr := []
  regs : SMap Word := []
  bar4 : List Host.Cell := []
  mem : List Host.Cell := []
  hostMem : List Host.Cell := []
  flash : List Host.Cell := []
  bad : List Nat := []
  soft : List Nat := []
  ddrBytes : Nat := 0
  dimms : List Dimm := []
  erasing : Bool := false
  eraseDue : Bool := false
  mbx : Mbx := {}
  job : Job := {}
  cores : SMap Core := []
  clus : SMap Clu := []
  qs : SMap QState := []
  hang : Option Hang := none
  strg : Strg := {}
  mirror : Mirror := {}
  jug : Jug := {}
  reshard : Option Reshard := none
  restore : Option Restore := none
  fabric : Fabric := {}
  rounds : Rounds := {}
  replay : Replay := {}
  fw : Fw := {}
  keys : Keys := {}
  cal : Cal := {}
  time : TimeS := {}
  pwr : Pwr := {}
  i3c : I3c := {}
  midSeq : SMap Nat := []
  midRetry : SMap Nat := []
  free : Nat := 0
  out : List Ev := []
  deriving DecidableEq, Repr

/-- The device as it stands when both reset signals release it, before the boot ROM has run: every register at its
default, no programme, no key, memories listing nothing (assumptions 5, 7 and 8). -/
def State.reset : State := {}

end Sys2Proof.Machine
end

