-- ==== Sys2Proof/Machine/Bytes.lean ====
section
/-!
DEFINITION. Byte strings, sorted maps and sparse memories, the two check codes (R60, R249), and bit fields. Everything is
little-endian (R10).
-/

namespace Sys2Proof.Machine

/-! ### Byte strings -/

/-- The little-endian value of a byte string (R10). -/
def leNat : Bytes → Nat
  | [] => 0
  | b :: bs => b.toNat + 256 * leNat bs

/-- n bytes of v, least significant first (R10). -/
def le : Nat → Nat → Bytes
  | 0, _ => []
  | n + 1, v => BitVec.ofNat 8 v :: le n (v / 256)

/-- n zero bytes. -/
def zeros (n : Nat) : Bytes := List.replicate n 0

/-- n bytes from offset o; bytes beyond the end are zero. -/
def slice (o n : Nat) (b : Bytes) : Bytes :=
  let x := (b.drop o).take n
  x ++ zeros (n - x.length)

/-- The little-endian value of the n bytes at offset o. -/
def rd (o n : Nat) (b : Bytes) : Nat := leNat ((b.drop o).take n)

/-- b brought to n bytes: cut, or filled with zeros. -/
def fit (n : Nat) (b : Bytes) : Bytes := slice 0 n b

/-- Zero bytes up to the next multiple of k. -/
def padTo (k : Nat) (b : Bytes) : Bytes := b ++ zeros ((k - b.length % k) % k)

/-- x rounded up to a multiple of k. -/
def roundUp (k x : Nat) : Nat := (x + k - 1) / k * k

/-- Every byte is zero. -/
def allZero (b : Bytes) : Bool := b.all (· == 0)

/-- b cut into pieces of n bytes (n at least 1); fuel is the number of pieces. -/
def chunks (n : Nat) : Nat → Bytes → List Bytes
  | 0, _ => []
  | f + 1, b => if b.isEmpty then [] else b.take n :: chunks n f (b.drop n)

/-- The little-endian elements of n bytes each. -/
def elemsLE (n : Nat) (b : Bytes) : List Nat := (chunks n (b.length / n) b).map leNat

/-- Bytes of 32-bit elements. -/
def le32s (l : List (BitVec 32)) : Bytes := l.flatMap (fun x => le 4 x.toNat)

/-- 32-bit elements of bytes. -/
def words32 (b : Bytes) : List (BitVec 32) := (elemsLE 4 b).map (BitVec.ofNat 32)

/-- Bits hi down to lo of a natural number. -/
def bits (hi lo x : Nat) : Nat := x / 2 ^ lo % 2 ^ (hi + 1 - lo)

/-- Bit i of a natural number. -/
def bit (i x : Nat) : Bool := x / 2 ^ i % 2 == 1

/-- One if true. -/
def b2n (b : Bool) : Nat := if b then 1 else 0

/-! ### Check codes -/

/-- One reflected CRC-32C step over a bit (R60): polynomial 0x1EDC_6F41, reflected 0x82F6_3B78. -/
def crc32cBit (c : Nat) : Nat := if c % 2 = 1 then (c / 2) ^^^ 0x82F63B78 else c / 2

/-- One CRC-32C step over a byte. -/
def crc32cByte (c : Nat) (b : Byte) : Nat :=
  crc32cBit (crc32cBit (crc32cBit (crc32cBit (crc32cBit (crc32cBit (crc32cBit (crc32cBit (c ^^^ b.toNat))))))))

/-- CRC-32C: initial value and final exclusive OR 0xFFFF_FFFF (R60). -/
def crc32c (b : Bytes) : Nat := b.foldl crc32cByte 0xFFFFFFFF ^^^ 0xFFFFFFFF

/-- One CRC-16 step over a bit, most significant first, polynomial 0x1021 (R249). -/
def crc16Bit (c : Nat) : Nat := if c / 32768 % 2 = 1 then (c * 2 % 65536) ^^^ 0x1021 else c * 2 % 65536

/-- One CRC-16 step over a byte. -/
def crc16Byte (c : Nat) (b : Byte) : Nat :=
  crc16Bit (crc16Bit (crc16Bit (crc16Bit (crc16Bit (crc16Bit (crc16Bit (crc16Bit (c ^^^ (b.toNat * 256)))))))))

/-- CRC-16 of the frame header: initial value 0xFFFF, not reflected, no final exclusive OR (R249). -/
def crc16 (b : Bytes) : Nat := b.foldl crc16Byte 0xFFFF

/-! ### Sorted maps -/

namespace SMap

/-- The value at a key. -/
def get? {α : Type} : SMap α → Nat → Option α
  | [], _ => none
  | (k, v) :: m, x => if k = x then some v else get? m x

/-- The value at a key, or a default. -/
def get {α : Type} (m : SMap α) (x : Nat) (d : α) : α := (get? m x).getD d

/-- Put a value at a key, keeping the order. -/
def set {α : Type} : SMap α → Nat → α → SMap α
  | [], x, v => [(x, v)]
  | (k, w) :: m, x, v => if x < k then (x, v) :: (k, w) :: m else if x = k then (x, v) :: m else (k, w) :: set m x v

/-- Remove a key. -/
def erase {α : Type} : SMap α → Nat → SMap α
  | [], _ => []
  | (k, w) :: m, x => if k = x then erase m x else (k, w) :: erase m x

/-- Change the value at a key, starting from a default. -/
def upd {α : Type} (m : SMap α) (x : Nat) (d : α) (f : α → α) : SMap α := set m x (f (get m x d))

end SMap

/-! ### Sparse memories: address and byte, addresses rising, nothing listed that reads the same unlisted -/

/-- The byte at an address, where an unlisted address reads as dflt gives. -/
def cellsRead (dflt : Nat → Byte) : List Host.Cell → Nat → Byte
  | [], a => dflt a
  | (k, v) :: m, a => if k = a then v else cellsRead dflt m a

/-- Write one byte, keeping the canonical form. -/
def cellsPut (dflt : Nat → Byte) : List Host.Cell → Nat → Byte → List Host.Cell
  | [], a, v => if v = dflt a then [] else [(a, v)]
  | (k, w) :: m, a, v =>
    if a < k then (if v = dflt a then (k, w) :: m else (a, v) :: (k, w) :: m)
    else if a = k then (if v = dflt a then m else (a, v) :: m)
    else (k, w) :: cellsPut dflt m a v

/-- Read n bytes from an address. -/
def cellsReadN (dflt : Nat → Byte) (m : List Host.Cell) (a : Nat) : Nat → Bytes
  | 0 => []
  | n + 1 => cellsRead dflt m a :: cellsReadN dflt m (a + 1) n

/-- Write a byte string from an address. -/
def cellsWrite (dflt : Nat → Byte) : List Host.Cell → Nat → Bytes → List Host.Cell
  | m, _, [] => m
  | m, a, b :: bs => cellsWrite dflt (cellsPut dflt m a b) (a + 1) bs

/-- Addresses strictly rising from a bound. -/
def cellsSorted : Nat → List Host.Cell → Bool
  | _, [] => true
  | lo, (k, _) :: m => decide (lo ≤ k) && cellsSorted (k + 1) m

/-- The canonical form of a memory: addresses strictly rising, no entry equal to what an unlisted address reads as. -/
def cellsWf (dflt : Nat → Byte) (m : List Host.Cell) : Bool :=
  cellsSorted 0 m && m.all (fun c => decide (c.2 ≠ dflt c.1))

/-- Drop every listed byte in a range, so that the range reads as its default. -/
def cellsClear (m : List Host.Cell) (a n : Nat) : List Host.Cell := m.filter (fun c => decide (c.1 < a ∨ a + n ≤ c.1))

end Sys2Proof.Machine
end

