-- ==== Sys2Proof/Machine/Crypto.lean ====
section
/-!
DEFINITION. The standards of R335 that the model computes: SHA3-256 (FIPS 202), AES-256 in GCM with a 96-bit nonce and a
128-bit tag (SP 800-38D), and RFC 5649 unwrapping with an AES-256 key. Byte strings keep the standards' order (R335).
-/

namespace Sys2Proof.Machine

/-! ### SHA3-256 -/

/-- 64-bit rotation to the left. -/
def rotl64 (x : BitVec 64) (n : Nat) : BitVec 64 := x.rotateLeft n

/-- Lane i of a Keccak state of 25 lanes, x + 5y in order. -/
def lane (s : List (BitVec 64)) (i : Nat) : BitVec 64 := s.getD i 0

/-- θ: every lane takes the parities of the columns before and after its own. -/
def theta (s : List (BitVec 64)) : List (BitVec 64) :=
  let par := (List.range 5).map (fun x => (List.range 5).foldl (fun (p : BitVec 64) y => p ^^^ lane s (x + 5 * y)) 0)
  s.zipIdx.map (fun a => a.1 ^^^ lane par ((a.2 + 4) % 5) ^^^ rotl64 (lane par ((a.2 + 1) % 5)) 1)

/-- The lane to which π takes lane i. -/
def piLane (i : Nat) : Nat := i / 5 + 5 * ((2 * (i % 5) + 3 * (i / 5)) % 5)

/-- ρ and π together: from lane 1 on, each lane goes to the next lane of π's walk, turned by the next triangular number. Fuel is what is left of the
24 lanes of the walk. -/
def rhoPi (s : List (BitVec 64)) : Nat → Nat → List (BitVec 64) → List (BitVec 64)
  | 0, _, out => out
  | f + 1, i, out => rhoPi s f (piLane i) (out.set (piLane i) (rotl64 (lane s i) ((24 - f) * (25 - f) / 2)))

/-- χ: every lane takes the next lane of its row, inverted, and the one after. -/
def chi (s : List (BitVec 64)) : List (BitVec 64) :=
  s.zipIdx.map (fun a =>
    let row := fun (k : Nat) => lane s (5 * (a.2 / 5) + (a.2 + k) % 5)
    a.1 ^^^ (row 2 &&& ~~~ row 1))

/-- The rounds of ι: bit j of an entry stands for bit 2^j − 1 of the round constant. -/
def iotaBits : List Nat := [1, 26, 94, 112, 31, 33, 121, 85, 14, 12, 53, 38, 63, 79, 93, 83, 82, 72, 22, 102, 121, 88, 33, 116]

/-- The round constant of an entry. -/
def iotaWord (b : Nat) : BitVec 64 := BitVec.ofNat 64 ((List.range 7).foldl (fun (w : Nat) j => w + b / 2 ^ j % 2 * 2 ^ (2 ^ j - 1)) 0)

/-- One round of Keccak-f[1600]. -/
def keccakRound (s : List (BitVec 64)) (b : Nat) : List (BitVec 64) :=
  let t := theta s
  (chi (rhoPi t 24 1 t)).modifyHead (· ^^^ iotaWord b)

/-- Keccak-f[1600]. -/
def keccakF (s : List (BitVec 64)) : List (BitVec 64) := iotaBits.foldl keccakRound s

/-- Absorb one block of a rate in bytes. -/
def absorb (rate : Nat) (s : List (BitVec 64)) (blk : Bytes) : List (BitVec 64) :=
  keccakF ((List.range 25).map (fun i => s.getD i 0 ^^^ (if i < rate / 8 then BitVec.ofNat 64 (rd (8 * i) 8 blk) else 0)))

/-- Padding to a multiple of the rate: the function's suffix, zeros, 0x80 in the last byte of the block. -/
def sha3Pad (rate suffix : Nat) (m : Bytes) : Bytes :=
  let n := rate - m.length % rate
  if n = 1 then m ++ [BitVec.ofNat 8 (suffix + 0x80)] else m ++ [BitVec.ofNat 8 suffix] ++ zeros (n - 2) ++ [0x80]

/-- Squeeze the given number of blocks out of a state. -/
def squeeze (rate : Nat) : Nat → List (BitVec 64) → Bytes
  | 0, _ => []
  | k + 1, s => (s.take (rate / 8)).flatMap (fun w => le 8 w.toNat) ++ (if k = 0 then [] else squeeze rate k (keccakF s))

/-- The first n bytes of a sponge function over Keccak-f[1600] with its rate in bytes and its suffix (FIPS 202). -/
def sponge (rate suffix : Nat) (m : Bytes) (n : Nat) : Bytes :=
  let p := sha3Pad rate suffix m
  let s := (chunks rate (p.length / rate) p).foldl (absorb rate) (List.replicate 25 0)
  (squeeze rate ((n + rate - 1) / rate) s).take n

/-- SHA3-256 (R335). -/
def sha3 (m : Bytes) : Bytes := sponge 136 0x06 m 32

/-! ### AES-256 -/

/-- Multiplication by x in GF(2^8) modulo 0x11B. -/
def xtime (a : Nat) : Nat := if a ≥ 128 then (a * 2 ^^^ 0x11B) % 256 else a * 2

/-- The AES S-box. -/
def sbox : List Nat :=
  [0x63,0x7c,0x77,0x7b,0xf2,0x6b,0x6f,0xc5,0x30,0x01,0x67,0x2b,0xfe,0xd7,0xab,0x76,
   0xca,0x82,0xc9,0x7d,0xfa,0x59,0x47,0xf0,0xad,0xd4,0xa2,0xaf,0x9c,0xa4,0x72,0xc0,
   0xb7,0xfd,0x93,0x26,0x36,0x3f,0xf7,0xcc,0x34,0xa5,0xe5,0xf1,0x71,0xd8,0x31,0x15,
   0x04,0xc7,0x23,0xc3,0x18,0x96,0x05,0x9a,0x07,0x12,0x80,0xe2,0xeb,0x27,0xb2,0x75,
   0x09,0x83,0x2c,0x1a,0x1b,0x6e,0x5a,0xa0,0x52,0x3b,0xd6,0xb3,0x29,0xe3,0x2f,0x84,
   0x53,0xd1,0x00,0xed,0x20,0xfc,0xb1,0x5b,0x6a,0xcb,0xbe,0x39,0x4a,0x4c,0x58,0xcf,
   0xd0,0xef,0xaa,0xfb,0x43,0x4d,0x33,0x85,0x45,0xf9,0x02,0x7f,0x50,0x3c,0x9f,0xa8] ++
  [0x51,0xa3,0x40,0x8f,0x92,0x9d,0x38,0xf5,0xbc,0xb6,0xda,0x21,0x10,0xff,0xf3,0xd2,
   0xcd,0x0c,0x13,0xec,0x5f,0x97,0x44,0x17,0xc4,0xa7,0x7e,0x3d,0x64,0x5d,0x19,0x73,
   0x60,0x81,0x4f,0xdc,0x22,0x2a,0x90,0x88,0x46,0xee,0xb8,0x14,0xde,0x5e,0x0b,0xdb,
   0xe0,0x32,0x3a,0x0a,0x49,0x06,0x24,0x5c,0xc2,0xd3,0xac,0x62,0x91,0x95,0xe4,0x79,
   0xe7,0xc8,0x37,0x6d,0x8d,0xd5,0x4e,0xa9,0x6c,0x56,0xf4,0xea,0x65,0x7a,0xae,0x08,
   0xba,0x78,0x25,0x2e,0x1c,0xa6,0xb4,0xc6,0xe8,0xdd,0x74,0x1f,0x4b,0xbd,0x8b,0x8a,
   0x70,0x3e,0xb5,0x66,0x48,0x03,0xf6,0x0e,0x61,0x35,0x57,0xb9,0x86,0xc1,0x1d,0x9e,
   0xe1,0xf8,0x98,0x11,0x69,0xd9,0x8e,0x94,0x9b,0x1e,0x87,0xe9,0xce,0x55,0x28,0xdf,
   0x8c,0xa1,0x89,0x0d,0xbf,0xe6,0x42,0x68,0x41,0x99,0x2d,0x0f,0xb0,0x54,0xbb,0x16]

/-- S-box lookup. -/
def sub (x : Nat) : Nat := sbox.getD x 0

/-- Byte-wise exclusive OR. -/
def xorL (a b : List Nat) : List Nat := List.zipWith (· ^^^ ·) a b

/-- The next eight words of the AES-256 key schedule from the last eight, with the round constant. -/
def keyStep (w : List (List Nat)) (rcon : Nat) : List (List Nat) :=
  let g := fun i => w.getD i []
  let t := ((g 7).drop 1 ++ (g 7).take 1).map sub
  let w0 := xorL (g 0) (xorL t [rcon, 0, 0, 0])
  let w1 := xorL (g 1) w0
  let w2 := xorL (g 2) w1
  let w3 := xorL (g 3) w2
  let w4 := xorL (g 4) (w3.map sub)
  let w5 := xorL (g 5) w4
  let w6 := xorL (g 6) w5
  let w7 := xorL (g 7) w6
  [w0, w1, w2, w3, w4, w5, w6, w7]

/-- The fifteen round keys of AES-256, 16 bytes each. -/
def aesKeys (key : Bytes) : List (List Nat) :=
  let k := (fit 32 key).map BitVec.toNat
  let w := (List.range 8).map (fun i => (k.drop (4 * i)).take 4)
  let ws := ([1, 2, 4, 8, 16, 32, 64].foldl (fun (acc : List (List Nat) × List (List Nat)) r =>
    let n := keyStep acc.2 r
    (acc.1 ++ n, n)) (w, w)).1
  (List.range 15).map (fun i => ((ws.drop (4 * i)).take 4).flatten)

/-- SubBytes and ShiftRows over the 16 bytes in column order. -/
def subShift (s : List Nat) : List Nat :=
  (List.range 16).map (fun i => sub (s.getD ((i + 4 * (i % 4)) % 16) 0))

/-- MixColumns. -/
def mixCols (s : List Nat) : List Nat :=
  (List.range 16).map (fun i =>
    let c := i / 4 * 4
    let a := fun j => s.getD (c + (i % 4 + j) % 4) 0
    xtime (a 0) ^^^ (xtime (a 1) ^^^ a 1) ^^^ a 2 ^^^ a 3)

/-- AES-256 encryption of one block with the expanded key. -/
def aesEnc (ks : List (List Nat)) (blk : List Nat) : List Nat :=
  let s := xorL blk (ks.getD 0 [])
  let s := ((ks.drop 1).take 13).foldl (fun s k => xorL (mixCols (subShift s)) k) s
  xorL (subShift s) (ks.getD 14 [])

/-- The inverse S-box. -/
def invSbox : List Nat :=
  [0x52,0x09,0x6a,0xd5,0x30,0x36,0xa5,0x38,0xbf,0x40,0xa3,0x9e,0x81,0xf3,0xd7,0xfb,
   0x7c,0xe3,0x39,0x82,0x9b,0x2f,0xff,0x87,0x34,0x8e,0x43,0x44,0xc4,0xde,0xe9,0xcb,
   0x54,0x7b,0x94,0x32,0xa6,0xc2,0x23,0x3d,0xee,0x4c,0x95,0x0b,0x42,0xfa,0xc3,0x4e,
   0x08,0x2e,0xa1,0x66,0x28,0xd9,0x24,0xb2,0x76,0x5b,0xa2,0x49,0x6d,0x8b,0xd1,0x25,
   0x72,0xf8,0xf6,0x64,0x86,0x68,0x98,0x16,0xd4,0xa4,0x5c,0xcc,0x5d,0x65,0xb6,0x92,
   0x6c,0x70,0x48,0x50,0xfd,0xed,0xb9,0xda,0x5e,0x15,0x46,0x57,0xa7,0x8d,0x9d,0x84,
   0x90,0xd8,0xab,0x00,0x8c,0xbc,0xd3,0x0a,0xf7,0xe4,0x58,0x05,0xb8,0xb3,0x45,0x06] ++
  [0xd0,0x2c,0x1e,0x8f,0xca,0x3f,0x0f,0x02,0xc1,0xaf,0xbd,0x03,0x01,0x13,0x8a,0x6b,
   0x3a,0x91,0x11,0x41,0x4f,0x67,0xdc,0xea,0x97,0xf2,0xcf,0xce,0xf0,0xb4,0xe6,0x73,
   0x96,0xac,0x74,0x22,0xe7,0xad,0x35,0x85,0xe2,0xf9,0x37,0xe8,0x1c,0x75,0xdf,0x6e,
   0x47,0xf1,0x1a,0x71,0x1d,0x29,0xc5,0x89,0x6f,0xb7,0x62,0x0e,0xaa,0x18,0xbe,0x1b,
   0xfc,0x56,0x3e,0x4b,0xc6,0xd2,0x79,0x20,0x9a,0xdb,0xc0,0xfe,0x78,0xcd,0x5a,0xf4,
   0x1f,0xdd,0xa8,0x33,0x88,0x07,0xc7,0x31,0xb1,0x12,0x10,0x59,0x27,0x80,0xec,0x5f,
   0x60,0x51,0x7f,0xa9,0x19,0xb5,0x4a,0x0d,0x2d,0xe5,0x7a,0x9f,0x93,0xc9,0x9c,0xef,
   0xa0,0xe0,0x3b,0x4d,0xae,0x2a,0xf5,0xb0,0xc8,0xeb,0xbb,0x3c,0x83,0x53,0x99,0x61,
   0x17,0x2b,0x04,0x7e,0xba,0x77,0xd6,0x26,0xe1,0x69,0x14,0x63,0x55,0x21,0x0c,0x7d]

/-- Inverse S-box lookup. -/
def invSub (x : Nat) : Nat := invSbox.getD x 0

/-- Inverse ShiftRows and SubBytes. -/
def invShiftSub (s : List Nat) : List Nat :=
  (List.range 16).map (fun i => invSub (s.getD ((i + 16 - 4 * (i % 4)) % 16) 0))

/-- The multiples by 9, 11, 13 and 14 of four bytes, added (FIPS 197). -/
def invCol (a b c d : Nat) : Nat :=
  xtime (xtime (xtime (a ^^^ b ^^^ c ^^^ d))) ^^^ xtime (xtime (a ^^^ c)) ^^^ xtime (a ^^^ b) ^^^ b ^^^ c ^^^ d

/-- Inverse MixColumns. -/
def invMix (s : List Nat) : List Nat :=
  (List.range 16).map (fun i =>
    let c := i / 4 * 4
    let a := fun j => s.getD (c + (i % 4 + j) % 4) 0
    invCol (a 0) (a 1) (a 2) (a 3))

/-- AES-256 decryption of one block with the expanded key. -/
def aesDec (ks : List (List Nat)) (blk : List Nat) : List Nat :=
  let s := xorL blk (ks.getD 14 [])
  let s := ((ks.drop 1).take 13).reverse.foldl (fun s k => invMix (xorL (invShiftSub s) k)) s
  xorL (invShiftSub s) (ks.getD 0 [])

/-! ### GCM -/

/-- A 16-byte block as a 128-bit number, first byte most significant. -/
def blk128 (b : List Nat) : Nat := b.foldl (fun a x => a * 256 + x) 0

/-- n bytes of a number, most significant first. -/
def be (n v : Nat) : List Nat := ((le n v).map BitVec.toNat).reverse

/-- Multiplication in GCM's GF(2^128); fuel 128, walking x from its most significant bit. -/
def ghMul : Nat → Nat → Nat → Nat → Nat
  | 0, _, _, z => z
  | f + 1, x, v, z =>
    ghMul f x (if v % 2 = 1 then (v / 2) ^^^ (0xE1 * 2 ^ 120) else v / 2) (if x / 2 ^ f % 2 = 1 then z ^^^ v else z)

/-- GHASH over bytes already padded to blocks. -/
def ghash (h : Nat) (d : Bytes) : Nat :=
  (chunks 16 (d.length / 16) d).foldl (fun y b => ghMul 128 (y ^^^ blk128 (b.map BitVec.toNat)) h 0) 0

/-- The counter-mode stream over a text, from a first counter value. -/
def gctr (ks : List (List Nat)) (iv : List Nat) : Nat → List Bytes → Bytes
  | _, [] => []
  | c, b :: bs =>
    (List.zipWith (fun (x : Byte) k => x ^^^ BitVec.ofNat 8 k) b (aesEnc ks (iv ++ be 4 c))) ++ gctr ks iv (c + 1) bs

/-- The tag of GCM over additional data and ciphertext. -/
def gcmTag (ks : List (List Nat)) (iv : List Nat) (aad ct : Bytes) : Bytes :=
  let h := blk128 (aesEnc ks (List.replicate 16 0))
  let lens := (be 8 (8 * aad.length) ++ be 8 (8 * ct.length)).map (BitVec.ofNat 8)
  let s := ghash h (padTo 16 aad ++ padTo 16 ct ++ lens)
  (xorL (be 16 s) (aesEnc ks (iv ++ be 4 1))).map (BitVec.ofNat 8)

/-- AES-256-GCM sealing: ciphertext followed by the 16-byte tag (R335, R350). -/
def gcmSeal (key iv aad pt : Bytes) : Bytes :=
  let ks := aesKeys key
  let v := iv.map BitVec.toNat
  let ct := gctr ks v 2 (chunks 16 (pt.length / 16 + 1) pt)
  ct ++ gcmTag ks v aad ct

/-- AES-256-GCM opening: the plaintext, or none where the tag does not match. -/
def gcmOpen (key iv aad sealed_ : Bytes) : Option Bytes :=
  if sealed_.length < 16 then none else
  let ks := aesKeys key
  let v := iv.map BitVec.toNat
  let ct := sealed_.take (sealed_.length - 16)
  if gcmTag ks v aad ct = sealed_.drop (sealed_.length - 16) then
    some (gctr ks v 2 (chunks 16 (ct.length / 16 + 1) ct))
  else none

/-! ### RFC 5649 -/

/-- One step of the unwrapping: index t, from the last to the first; A and the registers. -/
def unwrapStep (ks : List (List Nat)) (n : Nat) (st : List Nat × List (List Nat)) (t : Nat) : List Nat × List (List Nat) :=
  let i := (t - 1) % n
  let x := aesDec ks (xorL st.1 (be 8 t) ++ st.2.getD i [])
  (x.take 8, st.2.set i (x.drop 8))

/-- RFC 5649 unwrapping of a 56-byte blob to its 48-byte record under a 32-byte key (R345); none where the integrity
check fails. -/
def unwrap (key blob : Bytes) : Option Bytes :=
  if blob.length ≠ 56 then none else
  let ks := aesKeys key
  let b := blob.map BitVec.toNat
  let r := (List.range 6).map (fun i => (b.drop (8 + 8 * i)).take 8)
  let st := ((List.range 36).map (fun j => 36 - j)).foldl (unwrapStep ks 6) (b.take 8, r)
  if st.1 = [0xA6, 0x59, 0x59, 0xA6, 0, 0, 0, 48] then some (st.2.flatten.map (BitVec.ofNat 8)) else none

end Sys2Proof.Machine
end

