-- ==== Sys2Proof/Machine/Flags.lean ====
section
/-!
DEFINITION. Exact arithmetic: the operand formats (R36, R64), products and long accumulators (R39 to R45), the single
rounding with its numeric status (R47 to R54), the counter generator (R55), and the elementwise operations (R65). The
numeric status is the model's word for flags (R49).
-/

namespace Sys2Proof.Machine

/-! ### Formats -/

/-- A floating-point format: significand bits with the hidden bit, exponent bits (R36, R64). The bias and the largest
exponent are 2^(ebits − 1) − 1. -/
structure Fmt where
  p : Nat
  ebits : Nat
  deriving DecidableEq, Repr

/-- binary16 (R32). -/
def fp16 : Fmt := ⟨11, 5⟩
/-- binary32 (R32). -/
def fp32 : Fmt := ⟨24, 8⟩
/-- BF16, a conversion format only (R35, R64). -/
def bf16 : Fmt := ⟨8, 8⟩

/-- The exponent bias. -/
def Fmt.bias (f : Fmt) : Nat := 2 ^ (f.ebits - 1) - 1
/-- The smallest normal exponent. -/
def Fmt.emin (f : Fmt) : Int := 1 - (f.bias : Int)
/-- Bytes of an element. -/
def Fmt.bytes (f : Fmt) : Nat := (f.p + f.ebits) / 8
/-- The canonical quiet NaN (R36). -/
def Fmt.nanBits (f : Fmt) : Nat := (2 ^ f.ebits - 1) * 2 ^ (f.p - 1) + 2 ^ (f.p - 2)
/-- An infinity with its sign. -/
def Fmt.infBits (f : Fmt) (neg : Bool) : Nat := b2n neg * 2 ^ (f.p + f.ebits - 1) + (2 ^ f.ebits - 1) * 2 ^ (f.p - 1)
/-- A zero with its sign. -/
def Fmt.zeroBits (f : Fmt) (neg : Bool) : Nat := b2n neg * 2 ^ (f.p + f.ebits - 1)

/-- A decoded value: NaN, an infinity, or ±m × 2^e (R36). -/
inductive FVal where
  | nan
  | inf (neg : Bool)
  | fin (neg : Bool) (m : Nat) (e : Int)
  deriving DecidableEq, Repr

/-- Decoding a bit pattern (R36, R64). -/
def decodeF (f : Fmt) (x : Nat) : FVal :=
  let s := bit (f.p + f.ebits - 1) x
  let e := bits (f.p + f.ebits - 2) (f.p - 1) x
  let m := bits (f.p - 2) 0 x
  if e = 2 ^ f.ebits - 1 then (if m = 0 then .inf s else .nan)
  else if e = 0 then .fin s m (f.emin - (f.p - 1 : Nat))
  else .fin s (2 ^ (f.p - 1) + m) ((e : Int) - f.bias - (f.p - 1 : Nat))

/-- The signed significand of a finite value. -/
def FVal.int : FVal → Int
  | .fin s m _ => if s then -(m : Int) else m
  | _ => 0
/-- The exponent of a finite value. -/
def FVal.ex : FVal → Int
  | .fin _ _ e => e
  | _ => 0
/-- Whether a value is a NaN. -/
def FVal.isNan : FVal → Bool
  | .nan => true
  | _ => false
/-- Whether a value is ±0. -/
def FVal.isZero : FVal → Bool
  | .fin _ m _ => m == 0
  | _ => false
/-- Whether a value is finite. -/
def FVal.isFin : FVal → Bool
  | .fin .. => true
  | _ => false
/-- The sign. -/
def FVal.neg : FVal → Bool
  | .nan => false
  | .inf s => s
  | .fin s _ _ => s

/-! ### Exact dyadic numbers: n × 2^e -/

/-- An exact dyadic number. -/
structure Dy where
  n : Int
  e : Int
  deriving DecidableEq, Repr

/-- n × 2^k for k ≥ 0. -/
def shl (n : Int) (k : Nat) : Int := n * (2 ^ k : Nat)
/-- The integer of a dyadic in units of 2^e', for e' at most its exponent. -/
def Dy.at_ (d : Dy) (e' : Int) : Int := shl d.n (d.e - e').toNat
/-- Exact sum. -/
def Dy.add (a b : Dy) : Dy := let e := min a.e b.e; ⟨a.at_ e + b.at_ e, e⟩
/-- Exact negation. -/
def Dy.neg (a : Dy) : Dy := ⟨-a.n, a.e⟩
/-- Exact difference. -/
def Dy.sub (a b : Dy) : Dy := a.add b.neg
/-- Exact product. -/
def Dy.mul (a b : Dy) : Dy := ⟨a.n * b.n, a.e + b.e⟩
/-- Exact comparison a < b. -/
def Dy.lt (a b : Dy) : Bool := let e := min a.e b.e; decide (a.at_ e < b.at_ e)
/-- The dyadic of a finite value; a NaN or an infinity gives 0. -/
def FVal.dy (v : FVal) : Dy := ⟨v.int, v.ex⟩
/-- The dyadic of an FP32 encoding. -/
def dy32 (x : BitVec 32) : Dy := (decodeF fp32 x.toNat).dy
/-- An integer as a dyadic. -/
def Dy.ofInt (n : Int) : Dy := ⟨n, 0⟩

/-! ### Numeric status (R49) -/

/-- OUT_NAN. -/
def stNan : Nat := 1
/-- OUT_INF. -/
def stInf : Nat := 2
/-- OUT_OVF. -/
def stOvf : Nat := 4
/-- OUT_UNF. -/
def stUnf : Nat := 8
/-- OUT_INX. -/
def stInx : Nat := 16

/-- A rounded element: its encoding and its numeric status. -/
structure Rounded where
  x : Nat
  st : Nat
  deriving DecidableEq, Repr

/-! ### Rounding (R54) -/

/-- round_up of R54 over a discarded part rem / d of an ulp. -/
def roundUpBit (mode : Nat) (neg : Bool) (r rem d : Nat) (u32 : BitVec 32) : Bool :=
  if rem = 0 then false
  else match mode with
    | 0 => decide (2 * rem > d) || (decide (2 * rem = d) && r % 2 == 1)
    | 1 => false
    | 2 => !neg
    | 3 => neg
    | _ => decide (rem * 2 ^ 32 / d + u32.toNat ≥ 2 ^ 32)

/-- The end of round_exact: a rounded significand r in units of 2^lsb, before the carry, is encoded, or overflows (R51,
R54). -/
def encodeR (f : Fmt) (neg : Bool) (r : Nat) (lsb : Int) (inexact : Bool) : Rounded :=
  let (r, lsb) := if r = 2 ^ f.p then (r / 2, lsb + 1) else (r, lsb)
  let sgn := b2n neg * 2 ^ (f.p + f.ebits - 1)
  if decide (2 ^ (f.p - 1) ≤ r) && decide (lsb + (f.p - 1 : Nat) > (f.bias : Int)) then
    ⟨f.infBits neg, stOvf + stInx⟩
  else if r < 2 ^ (f.p - 1) then ⟨sgn + r, if inexact then stUnf + stInx else 0⟩
  else ⟨sgn + (lsb + (f.p - 1 : Nat) + f.bias).toNat * 2 ^ (f.p - 1) + (r - 2 ^ (f.p - 1)), if inexact then stInx else 0⟩

/-- The exponent of the leading bit of num / den (both positive). -/
def leadExp (num den : Nat) : Int :=
  let k : Int := (num.log2 : Int) - den.log2
  if (if k ≥ 0 then den * 2 ^ k.toNat ≤ num else den ≤ num * 2 ^ (-k).toNat) then k else k - 1

/-- Rounding of the positive magnitude num / den × 2^q with its sign (R54; a quotient is exact here too, R158, R159). -/
def roundRat (f : Fmt) (mode : Nat) (u32 : BitVec 32) (neg : Bool) (num den : Nat) (q : Int) : Rounded :=
  let e := leadExp num den + q
  let lsb := max e f.emin - (f.p - 1 : Nat)
  let sh := lsb - q
  let n := if sh ≤ 0 then num * 2 ^ (-sh).toNat else num
  let d := if sh ≤ 0 then den else den * 2 ^ sh.toNat
  let r := n / d
  let rem := n % d
  encodeR f neg (r + b2n (roundUpBit mode neg r rem d u32)) lsb (decide (rem ≠ 0))

/-- round_exact of R54: the nonzero exact value n × 2^q. -/
def roundExact (f : Fmt) (mode : Nat) (u32 : BitVec 32) (d : Dy) : Rounded :=
  roundRat f mode u32 (decide (d.n < 0)) d.n.natAbs 1 d.e

/-- f of R180: one rounding to nearest even; an exact zero is +0 (assumption 21). -/
def rne (f : Fmt) (d : Dy) : Nat := if d.n = 0 then 0 else (roundExact f 0 0 d).x
/-- fp32 nearest even of a dyadic (R180). -/
def f32 (d : Dy) : BitVec 32 := BitVec.ofNat 32 (rne fp32 d)
/-- f of R180 over the quotient num / den × 2^q with a signed numerator; den positive. -/
def f32q (num : Int) (den : Nat) (q : Int) : BitVec 32 :=
  if num = 0 then 0 else BitVec.ofNat 32 (roundRat fp32 0 0 (decide (num < 0)) num.natAbs den q).x

/-! ### The counter generator (R55) -/

/-- Rotations of R55. -/
def zcgRot : List Nat := [16, 40, 24, 52, 8, 36]
/-- Round constants of R55. -/
def zcgKc : List (BitVec 64) :=
  [0x71D42A9BC5E83F06, 0x2B8FE6134D70A95C, 0xC93A5E07B1F4682D, 0x5E06B9C2873DF14A, 0xA4F7183E6C29D5B1,
   0x0F6BD4A53E81C797]

/-- One round of zcg on (x, y). -/
def zcgRound (seed : BitVec 64) (s : BitVec 64 × BitVec 64) (rk : Nat × BitVec 64) : BitVec 64 × BitVec 64 :=
  let x := s.1 + seed + rk.2 + s.2
  (x.rotateLeft 32, s.2.rotateLeft rk.1 ^^^ x)

/-- zcg of R55. -/
def zcg (seed step : BitVec 64) (tensor : BitVec 16) (index : BitVec 48) : BitVec 32 :=
  let s := (List.zip zcgRot zcgKc).foldl (zcgRound seed) (step, tensor ++ index)
  (s.1 ^^^ s.2).extractLsb' 32 32

/-! ### Accumulators (R39 to R45) -/

/-- Merging two accumulators (R43). -/
def Acc.merge (a b : Acc) : Acc :=
  ⟨a.val + b.val, a.nan || b.nan, a.pinf || b.pinf, a.ninf || b.ninf, a.allneg && b.allneg⟩

/-- A contribution that only sets a flag (R39). -/
def Acc.flagged (nan pinf ninf : Bool) : Acc := ⟨0, nan, pinf, ninf, false⟩

/-- The contribution of a product, in units of 2^unit (R39). -/
def prodContrib (unit : Int) (a b : FVal) : Acc :=
  match a, b with
  | .nan, _ => .flagged true false false
  | _, .nan => .flagged true false false
  | .inf s, .fin t m _ => if m = 0 then .flagged true false false else .flagged false (s == t) (s != t)
  | .fin s m _, .inf t => if m = 0 then .flagged true false false else .flagged false (s == t) (s != t)
  | .inf s, .inf t => .flagged false (s == t) (s != t)
  | .fin s m e, .fin t n g =>
    let v : Int := shl ((m * n : Nat) : Int) (e + g - unit).toNat
    ⟨if s != t then -v else v, false, false, false, decide (m * n = 0) && (s != t)⟩

/-- One FP32 value as a contribution of an exact sum, in units of 2^-298 (R43, R44). -/
def valContrib (a : FVal) : Acc :=
  match a with
  | .nan => .flagged true false false
  | .inf s => .flagged false (!s) s
  | .fin s m e => ⟨shl (if s then -(m : Int) else m) (e + 298).toNat, false, false, false, decide (m = 0) && s⟩

/-- The exact sum of contributions (R43). -/
def Acc.sum (l : List Acc) : Acc := l.foldl Acc.merge {}

/-- Unit exponent of LX16. -/
def u16 : Int := -48
/-- Unit exponent of LX32. -/
def u32e : Int := -298

/-- Two's-complement wrap of an integer to w bits, read as signed (R45). -/
def wrapInt (w : Nat) (v : Int) : Int :=
  let m : Int := (2 ^ w : Nat)
  let r := v % m
  if r < (2 ^ (w - 1) : Nat) then r else r - m

/-- The four flag bits in the order ALLNEGZ, NINF, PINF, NAN from bit 3 (R40, R41). -/
def Acc.flagBits (a : Acc) : Nat := 8 * b2n a.allneg + 4 * b2n a.ninf + 2 * b2n a.pinf + b2n a.nan

/-- An LX16 accumulator's 16 bytes (R40). -/
def lx16Bytes (a : Acc) : Bytes := le 16 (a.flagBits * 2 ^ 112 + (a.val % (2 ^ 112 : Nat)).toNat)

/-- An LX16 accumulator from 16 bytes (R40). -/
def lx16Of (b : Bytes) : Acc :=
  let x := rd 0 16 b
  ⟨wrapInt 112 (bits 111 0 x), bit 112 x, bit 113 x, bit 114 x, bit 115 x⟩

/-- The residue modulus of LX32 (R42). -/
def lxMod : Nat := 4294967291

/-- The residue of an LX32 VALUE (R42). -/
def lxResidue (v : Int) : Nat := (v % (lxMod : Int)).toNat

/-- An LX32 accumulator's 80 bytes with its residue (R41, R42). -/
def lx32Bytes (a : Acc) : Bytes :=
  let v := wrapInt 592 a.val
  le 80 (lxResidue v * 2 ^ 608 + a.flagBits * 2 ^ 592 + (v % (2 ^ 592 : Nat)).toNat)

/-- An LX32 accumulator from 80 bytes (R41). -/
def lx32Of (b : Bytes) : Acc :=
  let x := rd 0 80 b
  ⟨wrapInt 592 (bits 591 0 x), bit 592 x, bit 593 x, bit 594 x, bit 595 x⟩

/-- Whether the stored residue of an LX32 is right (R42). -/
def lx32Ok (b : Bytes) : Bool := bits 639 608 (rd 0 80 b) == lxResidue (lx32Of b).val

/-- An LX16 value widened into LX32 (R41). -/
def Acc.widen (a : Acc) : Acc := { a with val := shl a.val 250 }

/-! ### The final rounding (R47 to R51) -/

/-- The final rounding of an accumulator over an exact positive quotient num / den × 2^q times its sign; used for sums
(num = |VALUE| × scale) and for quotients of sums (R47, R50, R158, R159). -/
def roundFlags (f : Fmt) (mode : Nat) (u32 : BitVec 32) (a : Acc) (num den : Nat) (q : Int) : Rounded :=
  if a.nan || (a.pinf && a.ninf) then ⟨f.nanBits, stNan⟩
  else if a.pinf then ⟨f.infBits false, stInf⟩
  else if a.ninf then ⟨f.infBits true, stInf⟩
  else if a.val = 0 then ⟨f.zeroBits (a.allneg || decide (mode = 3)), 0⟩
  else roundRat f mode u32 (decide (a.val < 0)) num den q

/-- The final rounding of an accumulator in units of 2^unit with an FP32 scale (R47, R48). -/
def roundAcc (f : Fmt) (mode : Nat) (u32 : BitVec 32) (unit : Int) (scale : BitVec 32) (a : Acc) : Rounded :=
  let s := dy32 scale
  roundFlags f mode u32 a (a.val.natAbs * s.n.natAbs) 1 (unit + s.e)

/-- 1.0 in FP32. -/
def one32 : BitVec 32 := 0x3F800000

/-! ### Conversions and elementwise arithmetic (R64, R65) -/

/-- Round a decoded value into a format (R64): specials first, then R54. -/
def convF (f : Fmt) (mode : Nat) (u32 : BitVec 32) (v : FVal) : Rounded :=
  match v with
  | .nan => ⟨f.nanBits, stNan⟩
  | .inf s => ⟨f.infBits s, stInf⟩
  | .fin s m e => if m = 0 then ⟨f.zeroBits s, 0⟩ else roundRat f mode u32 s m 1 e

/-- An exact sum of two finite values rounded once, with the zero-sign rules of IEEE 754 (R65). -/
def addFin (f : Fmt) (mode : Nat) (u32 : BitVec 32) (s : Bool) (a : Dy) (t : Bool) (b : Dy) : Rounded :=
  let d := a.add b
  if d.n = 0 then ⟨f.zeroBits (if s == t && a.n == 0 then s else decide (mode = 3)), 0⟩ else roundExact f mode u32 d

/-- a + b (R65). -/
def addF (f : Fmt) (mode : Nat) (u32 : BitVec 32) (a b : FVal) : Rounded :=
  match a, b with
  | .nan, _ => ⟨f.nanBits, stNan⟩
  | _, .nan => ⟨f.nanBits, stNan⟩
  | .inf s, .inf t => if s = t then ⟨f.infBits s, stInf⟩ else ⟨f.nanBits, stNan⟩
  | .inf s, _ => ⟨f.infBits s, stInf⟩
  | _, .inf t => ⟨f.infBits t, stInf⟩
  | .fin s _ _, .fin t _ _ => addFin f mode u32 s a.dy t b.dy

/-- The negated value. -/
def FVal.negate : FVal → FVal
  | .nan => .nan
  | .inf s => .inf (!s)
  | .fin s m e => .fin (!s) m e

/-- a × b (R65). -/
def mulF (f : Fmt) (mode : Nat) (u32 : BitVec 32) (a b : FVal) : Rounded :=
  match a, b with
  | .nan, _ => ⟨f.nanBits, stNan⟩
  | _, .nan => ⟨f.nanBits, stNan⟩
  | .inf s, .inf t => ⟨f.infBits (s != t), stInf⟩
  | .inf s, .fin t m _ => if m = 0 then ⟨f.nanBits, stNan⟩ else ⟨f.infBits (s != t), stInf⟩
  | .fin s m _, .inf t => if m = 0 then ⟨f.nanBits, stNan⟩ else ⟨f.infBits (s != t), stInf⟩
  | .fin s m e, .fin t n g =>
    if m * n = 0 then ⟨f.zeroBits (s != t), 0⟩ else roundRat f mode u32 (s != t) (m * n) 1 (e + g)

/-- a × b + c with one rounding (R65). -/
def fmaF (f : Fmt) (mode : Nat) (u32 : BitVec 32) (a b c : FVal) : Rounded :=
  match a, b, c with
  | .nan, _, _ => ⟨f.nanBits, stNan⟩
  | _, .nan, _ => ⟨f.nanBits, stNan⟩
  | _, _, .nan => ⟨f.nanBits, stNan⟩
  | .fin s m e, .fin t n g, c =>
    match c with
    | .fin u _ _ => addFin f mode u32 (s != t) ⟨if s != t then -((m * n : Nat) : Int) else (m * n : Nat), e + g⟩ u c.dy
    | .inf u => ⟨f.infBits u, stInf⟩
    | .nan => ⟨f.nanBits, stNan⟩
  | a, b, c =>
    if a.isZero || b.isZero then ⟨f.nanBits, stNan⟩
    else
      let s := a.neg != b.neg
      match c with
      | .inf u => if u = s then ⟨f.infBits s, stInf⟩ else ⟨f.nanBits, stNan⟩
      | _ => ⟨f.infBits s, stInf⟩

/-- Order of two values that are not NaN: a < b, with −0 < +0 (R65). -/
def ltF (a b : FVal) : Bool :=
  match a, b with
  | .inf true, .inf true => false
  | .inf true, _ => true
  | _, .inf true => false
  | .inf false, _ => false
  | _, .inf false => true
  | a, b => if a.int = 0 && b.int = 0 then a.neg && !b.neg else a.dy.lt b.dy

/-- Minimum (R65). -/
def minF (f : Fmt) (mode : Nat) (u32 : BitVec 32) (a b : FVal) : Rounded :=
  if a.isNan || b.isNan then ⟨f.nanBits, stNan⟩ else convF f mode u32 (if ltF b a then b else a)

/-- Maximum (R65). -/
def maxF (f : Fmt) (mode : Nat) (u32 : BitVec 32) (a b : FVal) : Rounded :=
  if a.isNan || b.isNan then ⟨f.nanBits, stNan⟩ else convF f mode u32 (if ltF a b then b else a)

/-! ### Square roots, exactly rounded to nearest even -/

/-- The integer square root; fuel is the number of result bits, most significant first. -/
def isqrtGo : Nat → Nat → Nat → Nat
  | 0, _, r => r
  | k + 1, n, r => let t := r + 2 ^ k; isqrtGo k n (if t * t ≤ n then t else r)

/-- The integer square root. -/
def isqrt (n : Nat) : Nat := isqrtGo (n.log2 / 2 + 1) n 0

/-- √(num / den × 4^q) rounded to nearest even, num and den positive. -/
def roundSqrt (f : Fmt) (num den : Nat) (q : Int) : Rounded :=
  let e := (leadExp num den).fdiv 2 + q
  let lsb := max e f.emin - (f.p - 1 : Nat)
  let sh := 2 * (lsb - q)
  let n := if sh ≤ 0 then num * 2 ^ (-sh).toNat else num
  let d := if sh ≤ 0 then den else den * 2 ^ sh.toNat
  let r := isqrt (n / d)
  -- compare the root with r + 1/2: 4 n against (2 r + 1)^2 d
  let up := decide ((2 * r + 1) * (2 * r + 1) * d < 4 * n) || (decide ((2 * r + 1) * (2 * r + 1) * d = 4 * n) && r % 2 == 1)
  encodeR f false (r + b2n up) lsb (decide (r * r * d ≠ n))

end Sys2Proof.Machine
end

