-- ==== Sys2Proof/Config.lean ====
section
/-!
DEFINITION. What the manual leaves to a standard, to manufacture or to a firmware image, and the free values. Each is an
opaque constant without a body: nothing in Lean can evaluate it or prove a value of it, so a statement holds for every
choice. (Assumptions 2, 3 and 4.)
-/

namespace Sys2Proof.Config

/-- The 256-bit device-unique secret fused at manufacture (R340). Opaque (assumption 2). -/
opaque deviceSecret : List Byte
/-- The 32 fresh random bytes of the n-th hedged signature (R335). Free value (assumption 2). -/
opaque signRandom : Nat → List Byte
/-- The two certificates in DER as the 16 KiB certificate store holds them (R340). Opaque (assumption 2). -/
opaque certificates : List Byte
/-- The 64 bytes that the entropy source gives the n-th ML-KEM-768 key generation since power-on, the seed and the secret of an
implicit rejection (R343). Free value (assumption 2). -/
opaque kemRandom : Nat → List Byte
/-- The 256 KiB boot ROM's SHA3-256 (R337 step 1). Opaque (assumption 3). -/
opaque bootRomDigest : List Byte
/-- Whether the second firmware image declares the first one's handover format among those it accepts (R386); the
declaration's place in the body is not given. Opaque (assumption 3). -/
opaque handoverAccepted : List Byte → List Byte → Bool
/-- The rounded result of a special function whose exact value the bounded interval evaluation cannot place (R66);
function number, format, input bits. Free value (assumption 4). -/
opaque sfuUndecided : Nat → Nat → Nat → BitVec 32
/-- The TYPE code of a dump record: 0 core, 1 controller, 2 engine, 3 ring, 4 I/O die, 5 SRAM (R405 names the types and gives no
code). Free value (assumption 4). -/
opaque dumpType : Nat → BitVec 8
/-- The value of R197 for an element whose exact sum lies beyond the FP32 range: master, anchor, residual. Free value
(assumption 4). -/
opaque deltaBeyond : BitVec 32 → BitVec 32 → BitVec 32 → BitVec 32
/-- The site address of the device at a position of a troupe: troupe, position. The image names positions, and no table of it gives
their addresses (assumption 6). -/
opaque siteAddr : Nat → Nat → BitVec 20
/-- Bytes the manual leaves unstated, by the n-th use and their number (assumption 4). -/
opaque freeBytes : Nat → Nat → List Byte
/-- A number the manual leaves unstated, drawn by the n-th use (assumption 4). -/
opaque freeValue : Nat → BitVec 64

end Sys2Proof.Config
end

