-- ==== Sys2Proof/Machine/Regs.lean ====
section
/-!
DEFINITION. The registers of BAR0: where each lies (R486), its fields with access, default and retention class (R11, R13
and the register tables of the chapters), and reading and writing fields. `State.regs` lists a register only while it
differs from its default.
-/

namespace Sys2Proof.Machine

/-- Access codes (R11). No register of the device uses RWL. -/
inductive Access where
  | ro | rw | rw1c | wo
  deriving DecidableEq, Repr

/-- Retention classes (R13); `fuse` is for fused values, which every event leaves unchanged (R464). -/
inductive Ret where
  | fuse | pwr | dev | fn | clu | vol
  deriving DecidableEq, Repr

/-- A register field: bits hi to lo, access, default, retention. -/
structure Field where
  hi : Nat
  lo : Nat
  acc : Access
  dflt : Nat
  ret : Ret
  deriving DecidableEq, Repr

/-- The registers by name (R486). -/
inductive RegKind where
  | devId | commitStep | commitState | strgReplay | strgReplayDiv | secStatus | secAlarm | secKey
  | cxlLink | hostBase | hostSize | cxlHdm | bootAttempts | mirStatus | fuseSerial | fuseKh0 (k : Nat) | fuseKh1 (k : Nat)
  | fuseFloor | mbxReq | mbxCpl | mbxStatus | intStatus | intMask | intCoalesce
  | calWrite | calOldest | calCursor | calCtl | calMark | calLost | calBbox | calPbank
  | pwrCtl | pwrCap | pwrStatus | pwrMeas | pwrTherm | clkStatus | fuseVid
  | rstCtl | rstStatus | rstHang | rstHangCtl | rstJob | timeNow | timeStatus | timeCtl | timeAsym
  | siteId | portCtl | portStatus | bjnCtl | bjnPort (q : Nat) | bjnRound | bjnRoundState | chanStatus | ciph
  | coreCount | restoreCtl | cluFence | fuseSpare (k : Nat)
  | coreMap | colMap | coreFence | coreResErr | expStall | blkErr | progress | ctxState | sramEcc | ctxCkpt
  | audit | strgVeto | msixPending
  deriving DecidableEq, Repr

/-! ### Offsets (R486) -/

/-- STRG_COMMIT_STEP. -/
def oCommitStep : Nat := 0x100
/-- STRG_COMMIT_STATE. -/
def oCommitState : Nat := 0x108
/-- STRG_REPLAY. -/
def oReplay : Nat := 0x110
/-- STRG_REPLAY_DIV. -/
def oReplayDiv : Nat := 0x118
/-- SEC_STATUS. -/
def oSecStatus : Nat := 0x200
/-- SEC_ALARM. -/
def oSecAlarm : Nat := 0x208
/-- SEC_KEY_STATE. -/
def oSecKey : Nat := 0x210
/-- CXL_LINK. -/
def oCxlLink : Nat := 0x300
/-- CXL_HOST_BASE. -/
def oHostBase : Nat := 0x308
/-- CXL_HOST_SIZE. -/
def oHostSize : Nat := 0x310
/-- CXL_HDM. -/
def oCxlHdm : Nat := 0x318
/-- BOOT_ATTEMPTS. -/
def oBootAttempts : Nat := 0x320
/-- MIR_STATUS. -/
def oMir : Nat := 0x400
/-- FUSE_SERIAL. -/
def oSerial : Nat := 0x500
/-- SEC_FUSE_KH0_k. -/
def oKh0 (k : Nat) : Nat := 0x600 + 8 * k
/-- SEC_FUSE_KH1_k. -/
def oKh1 (k : Nat) : Nat := 0x620 + 8 * k
/-- SEC_FUSE_FLOOR0 and 1. -/
def oFloor (k : Nat) : Nat := 0x640 + 8 * k
/-- MBX_REQ. -/
def oMbxReq : Nat := 0x100000
/-- MBX_CPL. -/
def oMbxCpl : Nat := 0x100008
/-- MBX_STATUS. -/
def oMbxStatus : Nat := 0x100010
/-- INT_STATUS. -/
def oIntStatus : Nat := 0x100100
/-- INT_MASK. -/
def oIntMask : Nat := 0x100108
/-- INT_COALESCE. -/
def oIntCoalesce : Nat := 0x100110
/-- CAL_WRITE. -/
def oCalWrite : Nat := 0x200000
/-- CAL_OLDEST. -/
def oCalOldest : Nat := 0x200008
/-- CAL_CURSOR. -/
def oCalCursor : Nat := 0x200010
/-- CAL_CTL. -/
def oCalCtl : Nat := 0x200018
/-- CAL_MARK. -/
def oCalMark : Nat := 0x200020
/-- CAL_LOST. -/
def oCalLost : Nat := 0x200028
/-- CAL_BBOX. -/
def oCalBbox : Nat := 0x200030
/-- CAL_PBANK. -/
def oCalPbank : Nat := 0x200038
/-- PWR_CTL. -/
def oPwrCtl : Nat := 0x400000
/-- PWR_CAP. -/
def oPwrCap : Nat := 0x400008
/-- PWR_STATUS. -/
def oPwrStatus : Nat := 0x400010
/-- PWR_MEAS. -/
def oPwrMeas : Nat := 0x400018
/-- PWR_THERM. -/
def oPwrTherm : Nat := 0x400020
/-- CLK_STATUS. -/
def oClk : Nat := 0x400100
/-- FUSE_VID. -/
def oFuseVid : Nat := 0x400200
/-- RST_CTL. -/
def oRstCtl : Nat := 0x408000
/-- RST_STATUS. -/
def oRstStatus : Nat := 0x408008
/-- RST_HANG. -/
def oRstHang : Nat := 0x408010
/-- RST_HANG_CTL. -/
def oRstHangCtl : Nat := 0x408018
/-- RST_JOB. -/
def oRstJob : Nat := 0x408020
/-- TIME_NOW. -/
def oTimeNow : Nat := 0x800000
/-- TIME_STATUS. -/
def oTimeStatus : Nat := 0x800008
/-- TIME_CTL. -/
def oTimeCtl : Nat := 0x800010
/-- TIME_ASYM of a channel. -/
def oAsym (n : Nat) : Nat := 0x800100 + 8 * n
/-- SITE_ID. -/
def oSiteId : Nat := 0xC00000
/-- SITE_PORT_CTL. -/
def oPortCtl (p : Nat) : Nat := 0xC01000 + 0x100 * p
/-- SITE_PORT_STATUS. -/
def oPortStatus (p : Nat) : Nat := 0xC01008 + 0x100 * p
/-- BJN_CTL. -/
def oBjnCtl : Nat := 0xC04000
/-- BJN_PORT_STATUS. -/
def oBjnPort (q : Nat) : Nat := 0xC04010 + 8 * q
/-- BJN_ROUND. -/
def oBjnRound : Nat := 0xC04020
/-- BJN_ROUND_STATE. -/
def oBjnRoundState : Nat := 0xC04028
/-- BJN_CHAN_STATUS. -/
def oChan (n : Nat) : Nat := 0xC04100 + 0x10 * n
/-- CIPH_STATUS. -/
def oCiph (e : Nat) : Nat := 0xC04400 + 0x10 * e
/-- The base of a ring's registers. -/
def oRing (r : Nat) : Nat := 0x1000000 + 0x100000 * r
/-- RING_CORE_COUNT. -/
def oCoreCount (r : Nat) : Nat := oRing r + 0x100
/-- RING_RESTORE_CTL. -/
def oRestore (r : Nat) : Nat := oRing r + 0x110
/-- RING_CLU_FENCEk. -/
def oCluFence (r k : Nat) : Nat := oRing r + 0x120 + 8 * k
/-- The fuse and fence block of a global cluster: FUSE_CORE_MAP; then FUSE_COL_MAP0, 1, CORE_FENCE, CORE_RES_ERR (R108). -/
def oCore (g : Nat) : Nat := oRing (g / 250) + 0x20000 + g % 250 * 0x40
/-- CORE_FENCE of a global cluster. -/
def oCoreFence (g : Nat) : Nat := oCore g + 0x18
/-- CORE_RES_ERR of a global cluster. -/
def oResErr (g : Nat) : Nat := oCore g + 0x20
/-- CLU_EXP_STALL of a global cluster. -/
def oExpStall (g : Nat) : Nat := oRing (g / 250) + 0x40000 + g % 250 * 0x20
/-- CLU_BLK_ERR of a global cluster. -/
def oBlkErr (g : Nat) : Nat := oExpStall g + 8
/-- CLU_PROGRESS of a global cluster. -/
def oProgress (g : Nat) : Nat := oRing (g / 250) + 0x60000 + g % 250 * 0x40
/-- CLU_CTX_STATE of a global cluster. -/
def oCtxState (g : Nat) : Nat := oProgress g + 8
/-- CLU_SRAM_ECC of a global cluster. -/
def oSramEcc (g : Nat) : Nat := oProgress g + 16
/-- CLU_CTX_CKPT of a context. -/
def oCkpt (g k : Nat) : Nat := oRing (g / 250) + 0x80000 + g % 250 * 0x40 + 8 * k
/-- STRG_AUDIT of a Strongman of the device (ring × 4 + instance). -/
def oAudit (m : Nat) : Nat := oRing (m / 4) + 0xA0000 + m % 4 * 0x20
/-- STRG_VETO of a Strongman. -/
def oStrgVeto (m : Nat) : Nat := oAudit m + 8

/-- The pending-bit array of the MSI-X table (R363). It lies in BAR4; the model keeps it with the registers, at an offset past BAR0's 32 MiB. -/
def oPba : Nat := 0x2001000

/-- The register within a ring block, by its offset from the ring's base. -/
def ringKind (o : Nat) : Option RegKind :=
  if o = 0x100 then some .coreCount
  else if o = 0x110 then some .restoreCtl
  else if o ∈ [0x120, 0x128, 0x130, 0x138] then some .cluFence
  else if o = 0x140 then some (.fuseSpare 0)
  else if o = 0x148 then some (.fuseSpare 1)
  else if 0x20000 ≤ o ∧ o < 0x20000 + 250 * 0x40 then
    match o % 0x40 with
    | 0 => some .coreMap
    | 8 => some .colMap
    | 0x10 => some .colMap
    | 0x18 => some .coreFence
    | 0x20 => some .coreResErr
    | _ => none
  else if 0x40000 ≤ o ∧ o < 0x40000 + 250 * 0x20 then
    match o % 0x20 with
    | 0 => some .expStall
    | 8 => some .blkErr
    | _ => none
  else if 0x60000 ≤ o ∧ o < 0x60000 + 250 * 0x40 then
    match o % 0x40 with
    | 0 => some .progress
    | 8 => some .ctxState
    | 16 => some .sramEcc
    | _ => none
  else if 0x80000 ≤ o ∧ o < 0x80000 + 250 * 0x40 then (if o % 8 = 0 then some .ctxCkpt else none)
  else if 0xA0000 ≤ o ∧ o < 0xA0080 then
    match o % 0x20 with
    | 0 => some .audit
    | 8 => some .strgVeto
    | _ => none
  else none

/-- The registers of the I/O dies with fixed offsets. -/
def ioKinds : List (Nat × RegKind) :=
  [(0, .devId), (oCommitStep, .commitStep), (oCommitState, .commitState), (oReplay, .strgReplay),
   (oReplayDiv, .strgReplayDiv), (oSecStatus, .secStatus), (oSecAlarm, .secAlarm), (oSecKey, .secKey),
   (oCxlLink, .cxlLink), (oHostBase, .hostBase), (oHostSize, .hostSize), (oCxlHdm, .cxlHdm),
   (oBootAttempts, .bootAttempts), (oMir, .mirStatus), (oSerial, .fuseSerial),
   (oKh0 0, .fuseKh0 0), (oKh0 1, .fuseKh0 1), (oKh0 2, .fuseKh0 2), (oKh0 3, .fuseKh0 3),
   (oKh1 0, .fuseKh1 0), (oKh1 1, .fuseKh1 1), (oKh1 2, .fuseKh1 2), (oKh1 3, .fuseKh1 3),
   (oFloor 0, .fuseFloor), (oFloor 1, .fuseFloor),
   (oMbxReq, .mbxReq), (oMbxCpl, .mbxCpl), (oMbxStatus, .mbxStatus),
   (oIntStatus, .intStatus), (oIntMask, .intMask), (oIntCoalesce, .intCoalesce)] ++
  [(oCalWrite, .calWrite), (oCalOldest, .calOldest), (oCalCursor, .calCursor), (oCalCtl, .calCtl), (oCalMark, .calMark),
   (oCalLost, .calLost), (oCalBbox, .calBbox), (oCalPbank, .calPbank),
   (oPwrCtl, .pwrCtl), (oPwrCap, .pwrCap), (oPwrStatus, .pwrStatus), (oPwrMeas, .pwrMeas), (oPwrTherm, .pwrTherm),
   (oClk, .clkStatus), (oFuseVid, .fuseVid), (oRstCtl, .rstCtl), (oRstStatus, .rstStatus), (oRstHang, .rstHang),
   (oRstHangCtl, .rstHangCtl), (oRstJob, .rstJob), (oTimeNow, .timeNow), (oTimeStatus, .timeStatus),
   (oTimeCtl, .timeCtl), (oSiteId, .siteId), (oBjnCtl, .bjnCtl), (oBjnPort 0, .bjnPort 0), (oBjnPort 1, .bjnPort 1),
   (oBjnRound, .bjnRound), (oBjnRoundState, .bjnRoundState), (oCiph 0, .ciph), (oCiph 1, .ciph), (oCiph 2, .ciph)]

/-- The register at a BAR0 offset, if one lies there (R486). -/
def regKind (o : Nat) : Option RegKind :=
  if 0x1000000 ≤ o then
    (if o < 0x1800000 then ringKind ((o - 0x1000000) % 0x100000) else if o = oPba then some .msixPending else none)
  else if 0x800100 ≤ o ∧ o < 0x800200 then (if o % 8 = 0 then some .timeAsym else none)
  else if 0xC01000 ≤ o ∧ o < 0xC01800 then
    match o % 0x100 with
    | 0 => some .portCtl
    | 8 => some .portStatus
    | _ => none
  else if 0xC04100 ≤ o ∧ o < 0xC04300 then (if o % 0x10 = 0 then some .chanStatus else none)
  else SMap.get? ioKinds o

/-! ### Fields. Bits that no field covers are reserved: they read 0 and ignore writes (R12). -/

/-- A read-only field with default 0. -/
def fRo (hi lo : Nat) (r : Ret) : Field := ⟨hi, lo, .ro, 0, r⟩
/-- A read-write field. -/
def fRw (hi lo d : Nat) (r : Ret) : Field := ⟨hi, lo, .rw, d, r⟩

/-- SHA3-256 of 1,312 zero bytes, as four little-endian words: the fused KEY_HASH0 the model names (assumption 7). -/
def kh0Words : List Nat :=
  [10992446084799234239, 8846931150756470763, 13097412314385978527, 17869296889980003222]

/-- The fused column map: every core leaves physical column 4 unused (assumption 7). -/
def colMapVal : Nat := (List.range 20).foldl (fun a m => a + 4 * 8 ^ m) 0

/-- The fields of each register, as the register tables of the chapters give them. -/
def regFields : RegKind → List Field
  | .devId => [⟨63, 48, .ro, 0x5A80, .fuse⟩, ⟨47, 40, .ro, 0xB0, .fuse⟩, ⟨39, 32, .ro, 0x48, .fuse⟩]
  | .commitStep => [fRo 63 0 .pwr]
  | .commitState => [fRo 63 48 .pwr, fRo 47 40 .dev, fRo 7 7 .dev, fRo 6 6 .pwr, fRo 5 5 .pwr, fRo 1 0 .pwr]
  | .strgReplay => [fRo 63 62 .dev, fRo 55 48 .dev, fRo 47 32 .dev, fRo 31 0 .dev]
  | .strgReplayDiv => [fRo 63 0 .dev]
  | .secStatus => [fRo 63 56 .pwr, fRo 55 55 .dev, ⟨54, 54, .ro, 0, .fuse⟩, fRo 53 52 .dev, ⟨47, 40, .ro, 1, .pwr⟩,
      ⟨39, 32, .ro, 0, .fuse⟩, fRo 31 24 .dev, fRo 23 0 .dev]
  | .secAlarm => [fRo 63 56 .pwr, fRo 55 48 .pwr, fRo 1 1 .dev, fRo 0 0 .dev]
  | .secKey => [fRo 63 63 .dev, fRo 62 62 .dev, fRo 61 61 .dev, fRo 38 32 .dev, fRo 31 0 .dev]
  | .cxlLink => [fRo 63 62 .fn, fRo 61 60 .fn, fRo 59 55 .fn, fRo 54 54 .fn, fRo 31 0 .vol]
  | .hostBase => [fRw 51 12 0 .dev]
  | .hostSize => [fRw 44 0 0 .dev]
  | .cxlHdm => [fRo 57 48 .dev, fRo 47 0 .dev]
  | .bootAttempts => [fRo 63 56 .pwr, fRo 55 48 .pwr]
  | .mirStatus => [fRo 63 61 .dev, fRo 60 60 .dev, fRo 59 50 .dev, ⟨39, 20, .ro, 0xFFFFF, .dev⟩, fRo 15 12 .vol,
      fRo 11 5 .vol, fRo 4 0 .vol]
  | .fuseSerial => [fRo 63 0 .fuse]
  | .fuseKh0 k => [⟨63, 0, .ro, kh0Words.getD k 0, .fuse⟩]
  | .fuseKh1 _ => [fRo 63 0 .fuse]
  | .fuseFloor => [fRo 63 0 .fuse]
  | .mbxReq => [fRo 15 8 .fn, fRw 7 0 0 .fn]
  | .mbxCpl => [⟨16, 16, .ro, 1, .fn⟩, fRo 15 8 .fn, fRw 7 0 0 .fn]
  | .mbxStatus => [fRo 63 60 .dev, fRo 59 59 .dev, fRo 58 58 .fn, fRo 8 0 .fn]
  | .intStatus => [⟨12, 0, .rw1c, 0, .fn⟩]
  | .intMask => [fRw 12 0 0x1FFF .fn]
  | .intCoalesce => [fRw 25 16 0 .fn, fRw 7 0 1 .fn]
  | .calWrite => [fRo 63 0 .dev]
  | .calOldest => [fRo 63 0 .dev]
  | .calCursor => [fRw 63 0 0 .dev]
  | .calCtl => [fRw 39 16 0x400 .dev, fRw 1 0 0 .dev]
  | .calMark => [fRw 63 0 0 .dev]
  | .calLost => [fRo 63 32 .vol, fRo 31 0 .vol]
  | .calBbox => [fRo 63 62 .pwr, fRo 61 56 .pwr, fRo 39 32 .pwr, fRo 31 0 .pwr]
  | .calPbank => [fRo 63 62 .pwr, fRo 61 56 .pwr, fRo 43 24 .pwr, fRo 13 0 .pwr]
  | .pwrCtl => [fRw 8 8 0 .pwr, fRo 7 0 .dev]
  | .pwrCap => [⟨47, 32, .ro, 0x15E0, .dev⟩, ⟨31, 16, .ro, 0x15E0, .dev⟩, ⟨15, 0, .ro, 0x12C0, .dev⟩]
  | .pwrStatus => [fRo 63 60 .dev, fRo 59 57 .dev, fRo 56 56 .dev, fRo 55 55 .dev, fRo 54 52 .dev, fRo 51 44 .dev,
      fRo 31 16 .vol, fRo 15 0 .vol]
  | .pwrMeas => [fRo 63 48 .vol, fRo 47 32 .vol, fRo 31 16 .vol, fRo 15 0 .vol]
  | .pwrTherm => [fRo 63 48 .vol, fRo 47 40 .vol, fRo 39 32 .pwr, fRo 31 0 .vol]
  | .clkStatus => [fRo 63 63 .dev, fRo 62 62 .dev, fRo 61 58 .dev, fRo 31 0 .pwr]
  | .fuseVid => [⟨39, 0, .ro, 20 + 12 * 2 ^ 8 + 6 * 2 ^ 16, .fuse⟩]
  | .rstCtl => [⟨63, 60, .wo, 0, .dev⟩, ⟨16, 0, .wo, 0, .dev⟩]
  | .rstStatus => [fRo 63 60 .dev, fRo 59 59 .dev, fRo 58 58 .dev, fRo 57 57 .dev, fRo 16 0 .dev]
  | .rstHang => [fRo 63 62 .dev, fRo 55 48 .dev, fRo 47 40 .dev, fRo 39 32 .dev, fRw 10 0 0 .dev]
  | .rstHangCtl => [fRw 63 48 0xFA .dev, fRw 31 16 0x7D0 .dev]
  | .rstJob => [fRo 63 62 .dev, fRo 61 61 .dev, fRo 60 56 .dev, fRw 55 48 0 .dev, fRw 47 0 0 .dev]
  | .timeNow => [fRo 63 0 .dev]
  | .timeStatus => [fRo 63 61 .dev, ⟨60, 55, .ro, 0x3F, .dev⟩, ⟨31, 0, .ro, 0xFFFFFFFF, .dev⟩]
  | .timeCtl => [fRw 63 32 0x4E20 .dev, fRw 31 16 0x64 .dev, fRw 15 0 0x64 .dev]
  | .timeAsym => [fRo 63 62 .dev, fRo 31 0 .dev]
  | .siteId => [fRw 63 48 0x64 .dev, ⟨27, 24, .ro, 0xF, .dev⟩, ⟨19, 0, .ro, 0xFFFFF, .dev⟩]
  | .portCtl => [fRw 25 25 0 .dev, fRw 24 24 1 .dev, fRw 23 16 1 .dev, fRw 15 8 1 .dev, fRw 7 0 2 .dev]
  | .portStatus => [fRo 63 62 .dev, fRo 61 58 .dev, fRo 47 32 .dev, fRo 31 16 .vol, fRo 15 0 .vol]
  | .bjnCtl => [fRw 63 48 0x88B5 .dev, fRw 46 32 0x4000 .dev, fRw 23 16 1 .dev]
  | .bjnPort q => [fRo 63 62 .dev, ⟨47, 0, .ro, q, .fuse⟩]
  | .bjnRound => [fRo 63 0 .dev]
  | .bjnRoundState => [fRo 63 61 .dev, fRo 60 56 .dev, fRo 55 48 .dev, fRo 47 32 .dev, fRo 31 0 .dev]
  | .chanStatus => [fRo 63 61 .dev, fRo 60 57 .dev, fRo 51 32 .dev, fRo 31 0 .dev]
  | .ciph => [fRo 63 62 .dev, fRo 47 32 .vol, fRo 31 16 .vol, fRo 15 0 .vol]
  | .coreCount => [⟨13, 0, .ro, 0x2710, .dev⟩]
  | .restoreCtl => [fRw 8 8 1 .dev, fRw 7 0 0x0A .dev]
  | .cluFence => [fRo 63 0 .dev]
  | .fuseSpare k => [⟨56, 48, .ro, 253 + 4 * k, .fuse⟩, ⟨40, 32, .ro, 252 + 4 * k, .fuse⟩, ⟨24, 16, .ro, 251 + 4 * k, .fuse⟩,
      ⟨8, 0, .ro, 250 + 4 * k, .fuse⟩]
  | .coreMap => [⟨63, 63, .ro, 1, .fuse⟩, ⟨13, 8, .ro, 41, .fuse⟩, ⟨5, 0, .ro, 40, .fuse⟩]
  | .colMap => [⟨59, 0, .ro, colMapVal, .fuse⟩]
  | .coreFence => [fRo 39 0 .dev]
  | .coreResErr => [fRo 47 40 .vol, fRo 39 32 .vol, fRo 31 0 .vol]
  | .expStall => [fRo 63 32 .vol, fRo 31 16 .vol]
  | .blkErr => [fRo 63 56 .vol, fRo 55 40 .vol, fRo 39 32 .vol, fRo 31 0 .vol]
  | .progress => [fRo 63 63 .vol, fRo 55 48 .vol, fRo 47 0 .vol]
  | .ctxState => [fRo 63 0 .clu]
  | .sramEcc => [fRo 63 40 .vol, fRo 39 32 .vol, fRo 31 0 .vol]
  | .ctxCkpt => [fRo 47 0 .clu]
  | .audit => [fRw 39 32 0x40 .dev, fRo 31 0 .dev]
  | .strgVeto => [fRo 63 56 .vol, fRo 55 40 .vol, fRo 31 0 .vol]
  | .msixPending => [fRo 63 0 .fn]

/-! ### Words and fields -/

/-- Replace bits hi to lo of a word. -/
def putBits (hi lo v x : Nat) : Nat := x - bits hi lo x * 2 ^ lo + v % 2 ^ (hi + 1 - lo) * 2 ^ lo

/-- The default of a register: its fields' defaults. -/
def fieldsDefault (fs : List Field) : Nat := fs.foldl (fun a f => putBits f.hi f.lo f.dflt a) 0

/-- The default of the register at an offset; 0 where no register lies. -/
def regDefault (o : Nat) : Word :=
  match regKind o with
  | some k => BitVec.ofNat 64 (fieldsDefault (regFields k))
  | none => 0

/-- The stored value of a register. -/
def regGet (m : SMap Word) (o : Nat) : Word := (SMap.get? m o).getD (regDefault o)

/-- Store a register's value, listing it only while it differs from the default. -/
def regPut (m : SMap Word) (o : Nat) (v : Word) : SMap Word :=
  if v = regDefault o then SMap.erase m o else SMap.set m o v

/-- Bits hi to lo of the register at an offset, as the hardware holds them. -/
def State.rf (s : State) (o hi lo : Nat) : Nat := bits hi lo (regGet s.regs o).toNat

/-- The whole register. -/
def State.rw (s : State) (o : Nat) : Word := regGet s.regs o

/-- Set bits hi to lo of a register from the hardware's side. -/
def State.wf (s : State) (o hi lo v : Nat) : State :=
  { s with regs := regPut s.regs o (BitVec.ofNat 64 (putBits hi lo v (regGet s.regs o).toNat)) }

/-- Set a whole register from the hardware's side. -/
def State.ww (s : State) (o : Nat) (v : Word) : State := { s with regs := regPut s.regs o v }

/-- Add to a saturating field. -/
def State.satAdd (s : State) (o hi lo n : Nat) : State :=
  s.wf o hi lo (min (s.rf o hi lo + n) (2 ^ (hi + 1 - lo) - 1))

/-- A host write of a whole register under the access codes (R11, R12). -/
def hostWrite (fs : List Field) (old new : Nat) : Nat :=
  fs.foldl (fun a f =>
    match f.acc with
    | .rw => putBits f.hi f.lo (bits f.hi f.lo new) a
    | .rw1c => putBits f.hi f.lo (bits f.hi f.lo old &&& (2 ^ (f.hi + 1 - f.lo) - 1 - bits f.hi f.lo new)) a
    | .wo => putBits f.hi f.lo 0 a
    | .ro => a) old

/-- Return the fields of the given classes to their defaults. -/
def fieldsReset (cls : Ret → Bool) (fs : List Field) (x : Nat) : Nat :=
  fs.foldl (fun a f => if cls f.ret then putBits f.hi f.lo f.dflt a else a) x

/-- Return one register's fields of the given classes to their defaults. -/
def resetReg (scope : Nat → Bool) (cls : Ret → Bool) (m : SMap Word) (o : Nat) : SMap Word :=
  match regKind o with
  | none => m
  | some k => if scope o then regPut m o (BitVec.ofNat 64 (fieldsReset cls (regFields k) (regGet m o).toNat)) else m

/-- Return registers to default: those whose offset is in scope, their fields of the given classes (R13, R463). A register that is
not listed stands at its default already. -/
def resetRegs (scope : Nat → Bool) (cls : Ret → Bool) (m : SMap Word) : SMap Word :=
  (m.map (fun (kv : Nat × Word) => kv.1)).foldl (resetReg scope cls) m

/-- Whether an offset lies in the registers of one global cluster. -/
def inCluster (g o : Nat) : Bool :=
  let b := oRing (g / 250)
  let n := g % 250
  (decide (b + 0x20000 + n * 0x40 ≤ o) && decide (o < b + 0x20000 + (n + 1) * 0x40)) ||
  (decide (b + 0x40000 + n * 0x20 ≤ o) && decide (o < b + 0x40000 + (n + 1) * 0x20)) ||
  (decide (b + 0x60000 + n * 0x40 ≤ o) && decide (o < b + 0x60000 + (n + 1) * 0x40)) ||
  (decide (b + 0x80000 + n * 0x40 ≤ o) && decide (o < b + 0x80000 + (n + 1) * 0x40))

/-- Whether an offset lies in a ring's block. -/
def inRing (r o : Nat) : Bool := decide (oRing r ≤ o) && decide (o < oRing (r + 1))

end Sys2Proof.Machine
end

