-- ==== Sys2Proof/Machine/Ops.lean ====
section
/-!
DEFINITION. Operations that many commands share: the device address map with its error-correcting codes (R8, R145, R358,
R361, R396, R484), records and the flushes of Calliope (R425 to R437), interrupts (R367, R368, R412), the Romusko rings
(R369 to R376) and messages that leave the package.
-/

namespace Sys2Proof.Machine

/-- What a command answers. -/
abbrev Out := Host.Outcome State Fault Refusal

/-- Go on with a state. -/
def go (s : State) : Out := .next s

/-! ### Addresses (R8, R484) -/

/-- End of HBM. -/
def hbmEnd : Nat := 0xA000000000
/-- Bytes of one ring's HBM stack. -/
def hbmStack : Nat := 0x1400000000
/-- First DDR5 address. -/
def ddrBase : Nat := 0x10000000000
/-- First address of the host and cold-tier window. -/
def hostWin : Nat := 0x100000000000
/-- First address of cluster SRAM. -/
def cluBase : Nat := 0x200000000000
/-- First address of core local memory. -/
def coreBase : Nat := 0x280000000000
/-- First address of the BAR0 image. -/
def imgBase : Nat := 0x300000000000
/-- Bytes of DDR5 taken by firmware staging and the partner bank (R362, R435). -/
def ddrFixed : Nat := 0x1801000

/-- What lies at a device address. -/
inductive Area where
  | hbm (ring : Nat)
  | ddr (o : Nat)
  | host (x : Nat)
  | clu (g o : Nat)
  | core (g o : Nat)
  | image (o : Nat)
  | none
  deriving DecidableEq, Repr

/-- The area of an address (R8, R142, R484). Windows of clusters 250 to 255 of a ring, and of core-in-ring numbers from
10,000, name no unit and are address errors. -/
def State.area (s : State) (a : Nat) : Area :=
  if a < hbmEnd then .hbm (a / hbmStack)
  else if a < ddrBase then .none
  else if a < hostWin then (if a - ddrBase < s.ddrBytes then .ddr (a - ddrBase) else .none)
  else if a < cluBase then .host (a - hostWin)
  else if a < cluBase + 0x200000000 then
    let x := a - cluBase
    let c := x % 0x40000000 / 0x400000
    if c < 250 ∧ x % 0x400000 < 0x300000 then .clu (x / 0x40000000 * 250 + c) (x % 0x400000) else .none
  else if a < coreBase then .none
  else if a < coreBase + 0x200000000 then
    let x := a - coreBase
    let c := x % 0x40000000 / 0x10000
    if c < 10000 then .core (x / 0x40000000 * 10000 + c) (x % 0x10000) else .none
  else if imgBase ≤ a ∧ a < imgBase + 0x2000000 then .image (a - imgBase)
  else .none

/-- Device address of an offset in a global cluster's SRAM. -/
def cluAddr (g o : Nat) : Nat := cluBase + g / 250 * 0x40000000 + g % 250 * 0x400000 + o
/-- Device address of an offset in a global core's local memory. -/
def coreAddr (c o : Nat) : Nat := coreBase + c / 10000 * 0x40000000 + c % 10000 * 0x10000 + o

/-- What an unlisted byte of device memory reads as: 0, but for the byte that holds ALLNEGZ in a cleared LX16 slot of a
tally store, which reads 0x08 (R110, assumption 5). -/
def memDflt (a : Nat) : Byte :=
  if coreBase ≤ a ∧ a < coreBase + 0x200000000 ∧ 0x8000 ≤ a % 0x10000 ∧ a % 0x10000 < 0xE000 ∧ a % 16 = 14 then 8 else 0

/-- What an unlisted byte of board flash reads as: an erased cell (assumption 5). -/
def flashDflt (_ : Nat) : Byte := 0xFF

/-- What an unlisted byte of host memory reads as (assumption 5). -/
def hostDflt (_ : Nat) : Byte := 0

/-- The reserved 8 KiB at the end of each core's window, which discards writes (R92). -/
def reservedCore (a : Nat) : Bool :=
  decide (coreBase ≤ a) && decide (a < coreBase + 0x200000000) && decide (0xE000 ≤ a % 0x10000)

/-- Two ranges meets. -/
def meets (a n b m : Nat) : Bool := decide (a < b + m) && decide (b < a + n) && decide (0 < n) && decide (0 < m)

/-- Read bytes of device memory as they stand. -/
def State.peek (s : State) (a n : Nat) : Bytes := cellsReadN memDflt s.mem a n

/-- Write one byte of device memory; the reserved bytes of a core window discard it (R92). -/
def memPut (m : List Host.Cell) (a : Nat) (v : Byte) : List Host.Cell :=
  if reservedCore a then m else cellsPut memDflt m a v

/-- Write bytes of device memory. -/
def memWrite : List Host.Cell → Nat → Bytes → List Host.Cell
  | m, _, [] => m
  | m, a, b :: bs => memWrite (memPut m a b) (a + 1) bs

/-- The granule that one error-correcting code covers: an HBM codeword, a DDR5 line, an SRAM word (R145, R361, R396); in the host window, a
line that the host answers with an error (R358). -/
def grain (a : Nat) : Nat := if a < hbmEnd then 32 else if a < cluBase then 64 else 8

/-- Uncorrectable granules that a range touches. -/
def State.badIn (s : State) (a n : Nat) : List Nat := s.bad.filter (fun b => decide (b < a + n) && decide (a < b + grain b))

/-- Write bytes as the memories take them: a granule that the write covers whole is replaced and is good again; a partial
write of an uncorrectable granule is dropped and the granule stays as it is (R145, R361). Answers the first such granule. -/
def State.poke (s : State) (a : Nat) (b : Bytes) : State × Option Nat :=
  let n := b.length
  let hit := s.badIn a n
  let part := hit.filter (fun g => decide (g < a) || decide (a + n < g + grain g))
  let m := memWrite s.mem a b
  let m := part.foldl (fun m g => memWrite m g (s.peek g (grain g))) m
  ({ s with mem := m, bad := s.bad.filter (fun g => decide (g ∉ hit) || decide (g ∈ part))
            soft := s.soft.filter (fun g => decide (g < a) || decide (a + n < g + 8)) }, part.head?)

/-- Write bytes from a unit that cannot meet an uncorrectable granule in part. -/
def State.put (s : State) (a : Nat) (b : Bytes) : State := (s.poke a b).1

/-- What a read of cluster SRAM finds of the single-bit errors that stand there: each is corrected, written back and counted once (R145,
assumption 54). -/
def State.correct (s : State) (a n : Nat) : State :=
  let hit := s.soft.filter (fun b => decide (b < a + n) && decide (a < b + 8))
  hit.foldl (fun t b => match t.area b with
    | .clu g o => (t.satAdd (oSramEcc g) 31 0 1).wf (oSramEcc g) 63 40 o
    | _ => t) { s with soft := s.soft.filter (fun b => !hit.contains b) }

/-- A read of several ranges. -/
def State.correctAll (s : State) (l : List (Nat × Nat)) : State := l.foldl (fun t x => t.correct x.1 x.2) s

/-- The words that writes cover in part, which the banks read first (R145). -/
def mergeReads (l : List (Nat × Bytes)) : List (Nat × Nat) :=
  l.flatMap (fun w => (if w.1 % 8 = 0 then [] else [(w.1 / 8 * 8, 8)]) ++
    (if (w.1 + w.2.length) % 8 = 0 then [] else [((w.1 + w.2.length) / 8 * 8, 8)]))

/-- An access that failed: ENGINE_ERROR KIND, address, DETAIL (R428). -/
structure MemErr where
  kind : Nat
  addr : Nat
  detail : Nat := 0
  deriving DecidableEq, Repr

/-- Host physical address of a host-window offset (R358). -/
def State.hostAddr (s : State) (x : Nat) : Nat := s.rf oHostBase 51 12 * 4096 + x

/-- Read host memory. -/
def State.hostGet (s : State) (a n : Nat) : Bytes := cellsReadN hostDflt s.hostMem a n

/-- Write bytes to flash. -/
def State.flashPut (s : State) (a : Nat) (b : Bytes) : State := { s with flash := cellsWrite flashDflt s.flash a b }

/-- Write host memory. -/
def State.hostPut (s : State) (a : Nat) (b : Bytes) : State := { s with hostMem := cellsWrite hostDflt s.hostMem a b }

/-- Whether an engine may reach every byte of a range, by the map and the areas that R362, R435 and R485 close to
programmes; a range never runs from one area into another. -/
def State.reach (s : State) (a n : Nat) : Bool :=
  match s.area a, s.area (a + n - 1) with
  | .hbm _, .hbm _ => true
  | .ddr o, .ddr _ => decide (ddrFixed ≤ o)
  | .host _, .host y => decide (y < s.rf oHostSize 44 0)
  | .clu g _, .clu h _ => g == h
  | .core _ _, .core _ _ => decide (a / 0x40000000 = (a + n - 1) / 0x40000000)
  | _, _ => false

/-- An engine's read (R164, R358, R396): the bytes, or the error it meets. -/
def State.load (s : State) (a n : Nat) : Except MemErr Bytes :=
  if n = 0 then .ok []
  else if !s.reach a n then .error { kind := 3, addr := a }
  else match s.badIn a n with
    | g :: _ => .error { kind := if a < cluBase then 4 else 2, addr := g, detail := b2n (decide (hostWin ≤ a) && decide (a < cluBase)) }
    | [] => .ok (if hostWin ≤ a ∧ a < cluBase then s.hostGet (s.hostAddr (a - hostWin)) n else s.peek a n)

/-- An engine's write (R164, R358, R361): the state after it, and the error it meets. -/
def State.store (s : State) (a : Nat) (b : Bytes) : State × Option MemErr :=
  if b.isEmpty then (s, none)
  else if !s.reach a b.length then (s, some { kind := 3, addr := a })
  else if hostWin ≤ a ∧ a < cluBase then
    match s.badIn a b.length with
    | g :: _ => (s, some { kind := 4, addr := g, detail := 1 })
    | [] => (s.hostPut (s.hostAddr (a - hostWin)) b, none)
  else match s.poke a b with
    | (t, none) => (t, none)
    | (t, some g) => (t, some { kind := if a < hostWin then 4 else 2, addr := g })

/-- Write pieces in order, up to the first that cannot be written whole. -/
def State.storeAll (s : State) : List (Nat × Bytes) → State × Option MemErr
  | [] => (s, none)
  | x :: l =>
    match s.store x.1 x.2 with
    | (t, none) => t.storeAll l
    | (t, some e) => (t, some e)

/-- Return a range of device memory to what unlisted bytes read as, and its granules to good. -/
def State.clear (s : State) (a n : Nat) : State :=
  { s with mem := cellsClear s.mem a n, bad := s.bad.filter (fun b => decide (b < a ∨ a + n ≤ b))
           soft := s.soft.filter (fun b => decide (b < a ∨ a + n ≤ b)) }

/-- Write zeros over a range outside the tally stores. -/
def State.wipe (s : State) (a n : Nat) : State := s.clear a n

/-! ### The committed step and the programme -/

/-- STRG_COMMIT_STEP.STEP. -/
def State.committed (s : State) : Nat := (s.rw oCommitStep).toNat
/-- STRG_COMMIT_STATE.PHASE. -/
def State.phase (s : State) : Nat := s.rf oCommitState 1 0
/-- The step number that records carry when they concern no other: the step running, the batch count in generation, or the
committed step (R427). -/
def State.stepNow (s : State) : Nat :=
  match s.job.prog with
  | some p => if p.gen then s.job.genDone else ((s.job.running.map (·.n.toNat)).getD s.committed)
  | none => (s.job.running.map (·.n.toNat)).getD s.committed
/-- The timebase. -/
def State.now (s : State) : Nat := (s.rw oTimeNow).toNat
/-- Mirror state MIR_STATUS.STATE: 0 UNPAIRED, 1 SYNCING, 2 PROTECTED, 3 LOST, 4 CARRYING (R414). -/
def State.mirState (s : State) : Nat := s.rf oMir 63 61
/-- The partner's site address. -/
def State.partner (s : State) : Nat := s.rf oMir 39 20
/-- This device's site address. -/
def State.self (s : State) : Nat := s.rf oSiteId 19 0
/-- SITE_PORT_STATUS.STATE is UP. -/
def State.portUp (s : State) (p : Nat) : Bool := s.rf (oPortStatus p) 63 62 == 2
/-- A site port that is UP and not in loopback, where it carries no traffic (R266). -/
def State.linkUp (s : State) (p : Nat) : Bool := s.portUp p && s.rf (oPortCtl p) 25 25 == 0
/-- Whether the mirror link carries traffic. -/
def State.mirrorUp (s : State) : Bool := decide (s.rf oSiteId 27 24 < 8) && s.linkUp (s.rf oSiteId 27 24)
/-- MBX_STATUS.FW_STATE. -/
def State.fwState (s : State) : Nat := s.rf oMbxStatus 63 60
/-- STEP_TAG of a step and its attempt: the step number's bits [11:0] and the attempt count modulo 16 (R258). -/
def stepTag (n attempt : Nat) : Nat := n % 4096 + attempt % 16 * 4096
/-- The device's own current STEP_TAG: that of the step running, or of the next release of the step after the committed one
(R258, assumption 28). -/
def State.tagNow (s : State) : Nat :=
  match s.job.running with
  | some j => stepTag j.n.toNat j.attempt
  | none => if s.job.prog.isNone then 0 else stepTag (s.committed + 1) (SMap.get s.job.attempts (s.committed + 1) 0)

/-- Append what leaves the package. -/
def State.emit (s : State) (e : Ev) : State := { s with out := s.out ++ [e] }
/-- Send a message of the control channel or the Midway. -/
def State.send (s : State) (dest : Nat) (m : Msg) : State := s.emit (.message dest m)
/-- Draw the next free value (assumption 4). -/
def State.draw (s : State) : Word × State := (Config.freeValue s.free, { s with free := s.free + 1 })

/-! ### Interrupts (R367, R368, R412) -/

/-- What an unlisted byte of BAR4 reads as: 0, with the mask bit of every vector set, as CXL.io resets it (R368, assumption 74). -/
def bar4Dflt (o : Nat) : Byte := if o < 0x400 ∧ o % 16 = 12 then 1 else 0

/-- Whether the MSI-X function mask or the vector's own mask holds a vector back (R368). -/
def State.msixMasked (s : State) (v : Nat) : Bool := s.mbx.fnMask || (cellsRead bar4Dflt s.bar4 (16 * v + 12)).getLsbD 0

/-- A vector fires: its message leaves, or its pending bit is set while MSI-X masks it (R363, R368). -/
def State.fire (s : State) (v : Nat) : State := if s.msixMasked v then s.wf oPba v v 1 else s.emit (.msix v)

/-- Set INT_STATUS bit v; the vector fires when the bit rises while unmasked. -/
def State.raise (s : State) (v : Nat) : State :=
  if s.rf oIntStatus v v = 1 then s
  else
    let t := s.wf oIntStatus v v 1
    if s.rf oIntMask v v = 0 then t.fire v else t

/-- Queue an in-band interrupt code, dropping the oldest of 16 (R476). -/
def State.ibi (s : State) (code : Nat) : State :=
  let q := (if s.i3c.queue.length < 16 then s.i3c.queue else s.i3c.queue.drop 1) ++ [BitVec.ofNat 8 code]
  let t := { s with i3c := { s.i3c with queue := q, armed := min 16 (s.i3c.armed + 1) } }
  t.emit (.ibi (BitVec.ofNat 8 code))

/-! ### Records (R425 to R430) -/

/-- A SOURCE value (R426). -/
def srcOf (cls die clu unit : Nat) : Nat := cls * 2 ^ 28 + die * 2 ^ 24 + clu * 2 ^ 16 + unit * 2 ^ 8
/-- SOURCE of a matrix core. -/
def srcCore (c : Nat) : Nat := srcOf 0 (c / 10000) (c / 40 % 250) (c % 40)
/-- SOURCE of a cluster unit: 0 controller, 1 and 2 vector engines, 3 special-function unit, 4 DMA (assumption 9). -/
def srcClu (g unit : Nat) : Nat := srcOf 1 (g / 250) (g % 250) unit
/-- SOURCE of a Strongman of the device. -/
def srcStrg (m : Nat) : Nat := srcOf 2 (m / 4) 0xFF (m % 4)
/-- SOURCE of a reduction engine or Juggler of the device. -/
def srcJug (j : Nat) : Nat := srcOf 3 (j / 2) 0xFF (j % 2)
/-- SOURCE of a ring service stop. -/
def srcRing (r : Nat) : Nat := srcOf 4 r 0xFF 0
/-- SOURCE of the Ringmaster. -/
def srcRm : Nat := srcOf 5 8 0xFF 0
/-- SOURCE of the site router. -/
def srcRouter : Nat := srcOf 6 9 0xFF 0
/-- SOURCE of Borjan port q. -/
def srcBjn (q : Nat) : Nat := srcOf 7 9 0xFF q
/-- SOURCE of the security complex. -/
def srcSec : Nat := srcOf 8 8 0xFF 0
/-- SOURCE of the Tightrope. -/
def srcTight : Nat := srcOf 9 8 0xFF 0
/-- SOURCE of the CXL port. -/
def srcCxl : Nat := srcOf 10 8 0xFF 0
/-- SOURCE of the timing unit. -/
def srcTime : Nat := srcOf 11 9 0xFF 0
/-- SOURCE of Calliope. -/
def srcCal : Nat := srcOf 12 8 0xFF 0

/-- The queue that a source's records wait in (R430): a cluster's, a ring service stop's, or that of the unit of an I/O
die. Strongmen, Jugglers and reduction engines use their ring's service stop (assumption 9). -/
def queueOf (src : Nat) : Nat :=
  let die := bits 27 24 src
  if bits 23 16 src < 250 then die * 256 + bits 23 16 src
  else if die < 8 then 4096 + die
  else 8192 + src / 256

/-- A record with its header (R425). -/
def mkRecord (replay urgent : Bool) (typ src seq step time : Nat) (payload : Bytes) : Bytes :=
  let p := padTo 8 payload
  le 2 ((32 + p.length) / 8 + b2n replay * 512 + b2n urgent * 1024) ++ le 2 typ ++ le 4 src ++ le 8 seq ++ le 8 step ++
    le 8 time ++ p

/-- Bytes of the records of a queue that are not LOST records. -/
def plainBytes (q : List Bytes) : Nat := q.foldl (fun n r => if rd 2 2 r = 2 then n else n + r.length) 0
/-- Bytes of a queue. -/
def allBytes (q : List Bytes) : Nat := q.foldl (fun n r => n + r.length) 0

/-- Whether a suspect of a hang recovery is under replay (R402). -/
def State.inSuspect (s : State) : Bool := match s.hang with | some h => h.cur.isSome | none => false

/-- Whether records are marked REPLAY: during a suspect replay or in replay mode (R425). -/
def State.replayMark (s : State) : Bool :=
  s.replay.on || s.inSuspect

/-- Number a record of a source and put it into its queue, or drop it when the queue is full; a LOST record precedes the
first record accepted after a drop (R427, R430). -/
def State.enqueue (s : State) (urgent : Bool) (src typ step : Nat) (payload : Bytes) : State :=
  let seq := SMap.get s.cal.seqs src 0
  let q := SMap.get s.cal.queues (queueOf src) []
  let len := 32 + (padTo 8 payload).length
  let lost := s.cal.lost.find? (fun (l : Nat × Nat × Nat) => l.1 == src)
  let extra : Nat := if lost.isSome then 56 else 0
  if plainBytes q + len ≤ 4032 ∧ allBytes q + len + extra ≤ 4096 then
    let mk := fun (n t : Nat) (u : Bool) (step : Nat) (p : Bytes) => mkRecord s.replayMark u t src n step s.now p
    let add := match lost with
      | some (_, first, count) =>
        [mk seq 2 false s.stepNow (le 4 src ++ zeros 4 ++ le 8 first ++ le 8 count), mk (seq + 1) typ urgent step payload]
      | none => [mk seq typ urgent step payload]
    { s with cal := { s.cal with
        seqs := SMap.set s.cal.seqs src (seq + add.length)
        queues := SMap.set s.cal.queues (queueOf src) (q ++ add)
        lost := s.cal.lost.filter (fun (l : Nat × Nat × Nat) => l.1 != src) } }
  else
    let t := { s with cal := { s.cal with
        seqs := SMap.set s.cal.seqs src (seq + 1)
        lost := match lost with
          | some (_, first, count) => s.cal.lost.filter (fun (l : Nat × Nat × Nat) => l.1 != src) ++ [(src, first, count + 1)]
          | none => s.cal.lost ++ [(src, seq, 1)] } }
    t.satAdd oCalLost 63 32 1

/-- Post a record that concerns a step. -/
def State.postAt (s : State) (src typ step : Nat) (payload : Bytes) : State := s.enqueue false src typ step payload
/-- Post a record that concerns the step of the moment (R427). -/
def State.post (s : State) (src typ : Nat) (payload : Bytes) : State := s.enqueue false src typ s.stepNow payload

/-! ### The live buffer (R429, R433) -/

/-- Drop whole records from the old end until a record of n bytes fits in 8 MiB; fuel is the number of records held. -/
def makeRoom : Nat → Nat → List Bytes → Nat → Nat → List Bytes × Nat
  | 0, _, buf, oldest, _ => (buf, oldest)
  | f + 1, n, buf, oldest, write =>
    match buf with
    | [] => ([], oldest)
    | r :: rs => if write + n - oldest ≤ 0x800000 then (buf, oldest) else makeRoom f n rs (oldest + r.length) write

/-- Take one record into the buffer, with the conditions of REC that R433 ties to it. -/
def State.absorb (s : State) (r : Bytes) : State :=
  let write := (s.rw oCalWrite).toNat
  let oldest := (s.rw oCalOldest).toNat
  let mark := (s.rw oCalMark).toNat
  let room := makeRoom (s.cal.buf.length + 1) r.length s.cal.buf oldest write
  let write' := write + r.length
  let unread := room.2 - max oldest mark
  let bytes := s.cal.overBytes + unread
  let t := { s with cal := { s.cal with buf := room.1 ++ [r], overBytes := bytes % 1024 } }
  let t := (t.ww oCalWrite (BitVec.ofNat 64 write')).ww oCalOldest (BitVec.ofNat 64 room.2)
  let t := if bytes / 1024 = 0 then t else t.satAdd oCalLost 31 0 (bytes / 1024)
  let thr := s.rf oCalCtl 39 16 * 1024
  let reached := thr ≠ 0 ∧ write - mark < thr ∧ thr ≤ write' - mark
  let crossed := oldest ≤ mark ∧ mark < room.2
  if reached ∨ crossed ∨ rd 2 2 r = 2 then t.raise 11 else t

/-- Take the oldest record of a queue into the buffer. -/
def State.absorbOne (s : State) (key : Nat) : State :=
  match SMap.get s.cal.queues key [] with
  | [] => s
  | r :: rs =>
    let t := s.absorb r
    { t with cal := { t.cal with
        queues := if rs.isEmpty then SMap.erase t.cal.queues key else SMap.set t.cal.queues key rs } }

/-- Take every record of every queue into the buffer (R434). -/
def State.drain (s : State) : State :=
  let t := s.cal.queues.foldl (fun t q => q.2.foldl State.absorb t) s
  { t with cal := { t.cal with queues := [] } }

/-! ### The Romusko rings (R369 to R376) -/

/-- Completions posted and not consumed. -/
def State.unconsumed (s : State) : Nat := (s.rf oMbxCpl 15 8 + 256 - s.rf oMbxCpl 7 0) % 256

/-- Whether the completion ring is full. -/
def State.cplFull (s : State) : Bool := (s.rf oMbxCpl 15 8 + 1) % 256 == s.rf oMbxCpl 7 0

/-- Set or clear MBX_STATUS.CPL_STALL; the vector fires as it is set (R367). -/
def State.stallCheck (s : State) : State :=
  let st := s.cplFull && !s.mbx.wait.isEmpty
  let t := s.wf oMbxStatus 58 58 (b2n st)
  if st && s.rf oMbxStatus 58 58 == 0 then t.raise 1 else t

/-- A completion takes its place behind those that wait; a request that a CXL Reset orphaned posts none (R371, R376). -/
def State.complete (s : State) (t : Taken) (status : Nat) (outBytes : Nat) (result : Bytes) : State :=
  let rest := s.mbx.taken.filter (fun x => x.tag != t.tag)
  let c : Cpl := { tag := t.tag, opcode := t.opcode, status := BitVec.ofNat 16 status, outBytes := BitVec.ofNat 32 outBytes,
                   result := fit 16 result, noirq := t.noirq }
  ({ s with mbx := { s.mbx with taken := rest, wait := if t.silent then s.mbx.wait else s.mbx.wait ++ [c] } }).stallCheck

/-- Complete with a status alone. -/
def State.done (s : State) (t : Taken) (status : Nat) : State := s.complete t status 0 []

/-- Write output to the host, then complete (R375). -/
def State.output (s : State) (t : Taken) (b : Bytes) (result : Bytes) : State :=
  (s.hostPut t.outAddr b).complete t 0 b.length result

/-- A taken request by its tag. -/
def State.taken? (s : State) (tag : BitVec 32) : Option Taken := s.mbx.taken.find? (fun t => t.tag == tag)

/-- Complete the request with a tag, if it is taken. -/
def State.doneTag (s : State) (tag : BitVec 32) (status : Nat) : State :=
  match s.taken? tag with
  | some t => s.done t status
  | none => s

/-- Mark a taken request as started. -/
def State.start (s : State) (tag : BitVec 32) : State :=
  { s with mbx := { s.mbx with taken := s.mbx.taken.map (fun t => if t.tag == tag then { t with started := true } else t) } }

/-- Whether a taken request may start, given those taken before it (R374, R381): the earlier requests of its family have
completed, but that STEP follows STEP; an ORDERED request waits for everything before it, and everything waits for an
ORDERED request before it that has not started; STEP waits for an earlier PROG_RUN. -/
def mayStart (before : List Taken) (t : Taken) : Bool :=
  before.all (fun b =>
    (b.opcode / 256 != t.opcode / 256 || (b.opcode == 0x0601 && t.opcode == 0x0601 && b.started)) &&
    !t.ordered && !(b.ordered && !b.started) && !(t.opcode == 0x0601 && b.opcode == 0x0502))

/-- The opcodes that run in device doze, beside DIAG_DUMP with scope 0 (R459). -/
def dozeOk (op : Nat) (payload : Bytes) : Bool :=
  decide (op / 256 ∈ [1, 2, 3, 4, 12, 13]) || op == 0x0501 || op == 0x0503 || (op == 0x0A02 && rd 0 1 payload == 0)

/-- Whether a memory erase holds a command back: STEP, PROG_RUN, SNAP, SNAP_RESTORE, MIRROR_SET (R462). -/
def State.memErase (s : State) (op : Nat) : Bool := s.erasing && decide (op ∈ [0x0601, 0x0502, 0x0E01, 0x0E02, 0x0901])

/-- Run the body of a Romusko command on the taken request that carries the tag, if it names this opcode, has not started
and may start (R374), outside a handover (R387); in device doze most commands complete with STATE (R459), during a memory erase some with BUSY (R462).
Otherwise nothing happens (assumption 10). -/
def withCmd (s : State) (tag : BitVec 32) (op : Nat) (f : State → Taken → State) : Out :=
  match s.taken? tag with
  | none => go s
  | some t =>
    if t.opcode ≠ op ∨ t.started ∨ !mayStart (s.mbx.taken.takeWhile (fun x => x.tag != tag)) t ∨ s.fwState = 3 then go s
    else if s.rf oPwrStatus 54 52 ≠ 0 ∧ !dozeOk op t.payload then go (s.done t 0x000A)
    else if s.memErase op then go (s.done t 5)
    else go (f (s.start tag) { t with started := true })

/-! ### Registers as the host reads them -/

/-- A register as BAR0 answers it (R364, R408, R457, R458): the stored word with the fields that follow from the rest of
the state; all ones for the CLU_ registers of a fenced cluster and for the block of a ring that dozes. -/
def State.readReg (s : State) (o : Nat) : Word :=
  if 0x1000000 ≤ o ∧ o < 0x1800000 ∧ s.rf oPwrStatus (44 + (o - 0x1000000) / 0x100000) (44 + (o - 0x1000000) / 0x100000) = 1 then
    BitVec.ofNat 64 (2 ^ 64 - 1)
  else if (0x1000000 ≤ o ∧ o < 0x1800000) ∧
      (List.range 250).any (fun n =>
        let r := (o - 0x1000000) / 0x100000
        inCluster (r * 250 + n) o && (s.rf (oCluFence r (n / 64)) (n % 64) (n % 64) == 1) &&
          (match regKind o with
           | some .expStall | some .blkErr | some .progress | some .ctxState | some .sramEcc | some .ctxCkpt => true
           | _ => false)) then BitVec.ofNat 64 (2 ^ 64 - 1)
  else
    match regKind o with
    | none => 0
    | some .mbxStatus => BitVec.ofNat 64 (putBits 8 0 s.mbx.taken.length (s.rw o).toNat)
    | some .pwrStatus => BitVec.ofNat 64 (putBits 15 0 s.pwr.wakes.length (s.rw o).toNat)
    | some .calCtl => if s.rf o 1 0 = 3 then BitVec.ofNat 64 (putBits 1 0 0 (s.rw o).toNat) else s.rw o
    | some .secKey =>
      let k := s.keys
      BitVec.ofNat 64 (b2n k.owner.isSome * 2 ^ 63 + b2n k.kem.isSome * 2 ^ 62 + b2n k.snap.isSome * 2 ^ 61 +
        (s.rounds.peers.filter (fun p => p.tx.isSome || p.rx.isSome)).length * 2 ^ 32 + k.lastSnap.getD 0)
    | _ => s.rw o

/-- CLU_CTX_STATE of a context (R153). -/
def State.ctxState (s : State) (g k : Nat) : Nat := s.rf (oCtxState g) (8 * k + 7) (8 * k)

/-- Set a context's state and the fields of CLU_PROGRESS that follow: ACTIVE counts the contexts that have work; PARKED reads 1 while
every context with work in the step is in a WAIT with PARK set or has ended, which one stopped by an error or a veto has not (R151,
R153). -/
def State.setCtx (s : State) (g k v : Nat) : State :=
  let t := s.wf (oCtxState g) (8 * k + 7) (8 * k) v
  let sts := (List.range 8).map (fun j => t.ctxState g j)
  let act := (List.range 8).foldl (fun a j => a + (if t.ctxState g j ∈ [1, 2, 3] then 2 ^ j else 0)) 0
  let parked := sts.any (fun x => x == 3 || x == 4) && sts.all (fun x => x == 0 || x == 3 || x == 4)
  (t.wf (oProgress g) 55 48 act).wf (oProgress g) 63 63 (b2n parked)

/-- The sign of an integer as −1, 0 or 1. -/
def sgn (x : Int) : Int := if x < 0 then -1 else if x = 0 then 0 else 1

/-- An edge of TCLK without a command: the timebase advances by 10 ns (R21), and while it slews by 10 ppm more or less (R312). -/
def tick (s : State) : State :=
  let d := sgn s.time.slew
  let carry := decide (9999 ≤ s.time.frac)
  let t := { s with time := { s.time with slew := if carry then s.time.slew - d else s.time.slew
                                          frac := if carry ∨ d = 0 then 0 else s.time.frac + 1 } }
  t.ww oTimeNow (s.rw oTimeNow + 10 + BitVec.ofInt 64 (if carry then d else 0))

end Sys2Proof.Machine
end

