-- ==== Sys2Proof/Machine/Operands.lean ====
section
/-!
DEFINITION. The forms in which commands are given: programme images (R207 to R210, R219, R221, R226, R231, R261, R269,
R270, R280), step and generation descriptors (R212, R213, R241), queue, matrix, vector and DMA descriptors (R86 to R91,
R146, R155, R162), and how addresses, formats, scales and seeds are read from them.
-/

namespace Sys2Proof.Machine

/-! ### Programme images -/

/-- The fixed entry size of a section type; 0 where the section carries its own length (R208). -/
def entryBytes (typ : Nat) : Nat :=
  match typ with
  | 1 => 64
  | 2 => 64
  | 3 => 32
  | 4 => 32
  | 5 => 32
  | 6 => 64
  | 7 => 32
  | 8 => 16
  | 9 => 32
  | 11 => 4160
  | 12 => 256
  | 13 => 64
  | _ => 0

/-- Bytes of a plan that starts a byte string: header, entries, list area (R269). -/
def planBytes (b : Bytes) : Nat := 64 + 64 * rd 8 4 b + rd 12 4 b

/-- Length of a section with COUNT entries whose bytes begin the string (R208). -/
def sectionBytes (typ count : Nat) (b : Bytes) : Nat := if typ = 10 then planBytes b else count * entryBytes typ

/-- The sections in directory order, each at the next 64-byte boundary (R208). Fuel is the number of directory entries. -/
def sectionsFrom (img : Bytes) : Nat → Nat → Nat → List Section
  | 0, _, _ => []
  | f + 1, k, off =>
    let e := slice (256 + 16 * k) 16 img
    let n := sectionBytes (rd 0 2 e) (rd 4 4 e) (img.drop off)
    { typ := rd 0 2 e, variant := rd 2 1 e, count := rd 4 4 e, addr := rd 8 8 e, data := slice off n img } ::
      sectionsFrom img f (k + 1) (roundUp 64 (off + n))

/-- The end of the last section. -/
def sectionsEnd (img : Bytes) : Nat → Nat → Nat → Nat
  | 0, _, off => off
  | f + 1, k, off =>
    let e := slice (256 + 16 * k) 16 img
    let stop := off + sectionBytes (rd 0 2 e) (rd 4 4 e) (img.drop off)
    if f = 0 then stop else sectionsEnd img f (k + 1) (roundUp 64 stop)

/-- Entries of n bytes of every section of a type. -/
def entriesOf (ss : List Section) (typ n : Nat) : List (Nat × Bytes) :=
  (ss.filter (fun x => x.typ == typ)).flatMap (fun x => (chunks n x.count x.data).map (fun e => (x.variant, e)))

/-- A tensor declaration (R210). -/
def mkTensor (e : Bytes) : TensorDecl :=
  { tensor := rd 0 2 e, fmt := rd 2 1 e, form := rd 3 1 e, stoch := bit 0 (rd 4 4 e), batch := bit 1 (rd 4 4 e),
    elems := rd 8 6 e, rows := rd 16 6 e, cols := rd 24 4 e, base := rd 32 8 e, index := rd 40 8 e, firstRow := rd 48 6 e }

/-- A state-map entry (R169). -/
def mkState (e : Bytes) : SEntry :=
  let w0 := rd 0 8 e
  { tensor := bits 63 48 w0, layer := bits 47 32 w0, rule := bits 31 24 w0, cold := bit 17 w0, lzy := bit 16 w0,
    strongman := bits 12 8 w0, hp := bits 7 0 w0, first := rd 8 6 e, rowLen := rd 20 4 e, count := rd 16 4 e,
    hbm := rd 24 6 e, ddr := rd 32 6 e, coldBase := rd 40 6 e, rowsTotal := rd 48 6 e }

/-- A hyperparameter record (R170). -/
def mkHyper (e : Bytes) : Hyper :=
  let f := fun o => BitVec.ofNat 32 (rd o 4 e)
  { beta := f 0, beta2 := f 4, eps2 := f 8, wdMult := f 12, lrMult := f 16, blockK := f 20, absBound := f 24, avgBeta := f 28 }

/-- An act-table entry; its cluster list lies elsewhere in the image (R219). -/
def mkAct (img : Bytes) (v : Nat) (e : Bytes) : ActE :=
  { variant := v, act := rd 0 2 e, role := rd 2 1 e, firstLayer := rd 4 2 e, layers := rd 6 2 e,
    clusters := elemsLE 2 (slice (rd 16 8 e) (2 * rd 8 2 e) img) }

/-- A context-table entry (R209). -/
def mkCtx (v : Nat) (e : Bytes) : CtxE :=
  { variant := v, cluster := rd 0 2 e, ctx := rd 2 1 e, lx32 := bit 0 (rd 3 1 e), inHbm := bit 1 (rd 3 1 e),
    firstSlot := rd 4 2 e, slots := rd 6 2 e, list := rd 8 8 e, save := rd 16 8 e, cores := rd 24 5 e }

/-- A 64-byte entry as eight words. -/
def mkWords (e : Bytes) : List Word := (elemsLE 8 (fit 64 e)).map (BitVec.ofNat 64)

/-- A queue-table entry (R221). -/
def mkQueue (e : Bytes) : QueueE :=
  { queue := rd 0 2 e, dir := rd 2 1 e, slots := rd 3 1 e, sender := rd 4 2 e, receiver := rd 6 2 e, slotBytes := rd 8 4 e,
    recvPos := rd 12 2 e, recvCluster := rd 14 2 e, base := rd 16 8 e }

/-- An expert-table entry (R226). -/
def mkExpert (e : Bytes) : ExpertE :=
  { layer := rd 0 2 e, expert := rd 2 2 e, home := rd 4 2 e, active := rd 6 1 e, cap := rd 8 4 e }

/-- An offload-table entry (R231). -/
def mkOff (e : Bytes) : OffE :=
  { tensor := rd 0 2 e, act := rd 2 2 e, dest := rd 4 1 e, lead := rd 5 1 e, slots := rd 6 2 e, base := rd 8 8 e,
    stride := rd 16 8 e }

/-- A plan entry (R270). -/
def mkOp (e : Bytes) : PlanOp :=
  let w := fun k => rd (8 * k) 8 e
  { typ := bits 63 56 (w 0), perMb := bit 48 (w 0), incoming := bit 49 (w 0), stream := bits 47 32 (w 0),
    tensor := bits 31 16 (w 0), first := bits 47 0 (w 1), arg := bits 63 32 (w 2), count := bits 31 0 (w 2),
    loc := bits 47 0 (w 3), listN := bits 63 56 (w 4), slotBytes := bits 55 24 (w 4), peer := bits 19 0 (w 4),
    trigClu := bits 63 48 (w 5), trigCtr := bits 44 40 (w 5), trigVal := bits 31 0 (w 5),
    sigClu := bits 63 48 (w 6), sigCtr := bits 44 40 (w 6), sigAdd := bits 31 0 (w 6),
    slots := bits 63 48 (w 7), aux := bits 47 0 (w 7) }

/-- A Juggler plan (R269). -/
def mkPlan (b : Bytes) : Plan :=
  let n := rd 8 4 b
  { kind := rd 4 1 b, epoch := rd 6 2 b, ops := (chunks 64 n (slice 64 (64 * n) b)).map mkOp,
    area := slice (64 + 64 * n) (rd 12 4 b) b }

/-- A routing table (R261). -/
def mkRoute (b : Bytes) : Route :=
  { addr := rd 0 4 b % 2 ^ 20, mirrorPort := rd 4 1 b, mask := rd 5 1 b,
    neighbours := (elemsLE 4 (slice 8 32 b)).map (· % 2 ^ 20),
    region := elemsLE 2 (slice 64 2048 b), lcl := elemsLE 2 (slice 2112 2048 b) }

/-- The shared fields of a round configuration at their offsets, over which the configuration hash is taken (R280). -/
def roundShared (b : Bytes) : Bytes := slice 0 13 b ++ slice 14 1 b ++ slice 20 12 b ++ slice 72 64 b

/-- A round configuration (R280). -/
def mkRound (b : Bytes) : RoundCfg :=
  let f := fun o => BitVec.ofNat 32 (rd o 4 b)
  { h := rd 0 8 b, applyMin := rd 8 2 b, applyMax := rd 10 2 b, stale := rd 12 1 b, site := rd 13 1 b, root := rd 14 1 b,
    ecK := rd 15 1 b, ecM := rd 16 1 b, members := rd 18 2 b, betaO := f 20, etaO := f 24, staleFactor := f 28,
    exchMs := rd 32 4 b, leadTmo := rd 36 4 b, memberTmo := rd 40 4 b, coord := rd 44 4 b % 2 ^ 20,
    coordAlt := rd 48 4 b % 2 ^ 20, storeBase := rd 56 8 b, storeBytes := rd 64 8 b,
    weights := words32 (slice 72 64 b), hash := sha3 (roundShared b) }

/-- A user slot (assumption 41): cache address, cache bytes, CTX_MAX, vocabulary, score tensor's address, address of a pass's tokens, contexts of
the prompt pass and of a decoding pass. -/
def mkUser (e : Bytes) : UserSlot :=
  { kv := rd 0 8 e, kvBytes := rd 8 8 e, ctxMax := rd 16 4 e, vocab := rd 20 4 e, scores := rd 24 8 e, tokens := rd 32 8 e, promptCtx := rd 40 1 e, decodeCtx := rd 41 1 e }

/-- The programme that an image declares (R207, R208). -/
def mkProg (img : Bytes) : Prog :=
  let n := rd 54 2 img
  let ss := sectionsFrom img n 0 (roundUp 64 (256 + 16 * n))
  { gen := rd 6 1 img == 1, epoch := rd 8 2 img, flags := rd 10 1 img, modes := rd 11 1 img, kvb := rd 12 2 img,
    seqSplit := rd 14 1 img, siteTroupes := rd 16 2 img, troupe := rd 18 2 img, troupeSize := rd 20 2 img,
    position := rd 22 2 img, group := rd 24 4 img, acts := rd 28 2 img, layers := rd 30 2 img, routeGroup := rd 32 4 img,
    stageRows := rd 36 4 img, commitRec := rd 40 8 img, seqMax := rd 48 4 img, balGain := rd 52 2 img,
    hash := slice 64 32 img, sections := ss,
    tensors := (entriesOf ss 1 64).map (fun e => mkTensor e.2), smap := (entriesOf ss 2 64).map (fun e => mkState e.2),
    hyper := (entriesOf ss 3 32).map (fun e => mkHyper e.2), actE := (entriesOf ss 4 32).map (fun e => mkAct img e.1 e.2),
    ctxE := (entriesOf ss 5 32).map (fun e => mkCtx e.1 e.2),
    lists := (ss.filter (fun x => x.typ == 6)).map (fun x =>
      { variant := x.variant, addr := x.addr, entries := (chunks 64 x.count x.data).map mkWords }),
    queues := (entriesOf ss 7 32).map (fun e => mkQueue e.2), experts := (entriesOf ss 8 16).map (fun e => mkExpert e.2),
    offload := (entriesOf ss 9 32).map (fun e => mkOff e.2),
    plan := match ss.find? (fun x => x.typ == 10) with | some x => mkPlan x.data | none => {},
    route := match ss.find? (fun x => x.typ == 11) with | some x => mkRoute x.data | none => {},
    round := (ss.find? (fun x => x.typ == 12)).map (fun x => mkRound x.data),
    users := (entriesOf ss 13 64).map (fun e => mkUser e.2) }

/-- FLAGS.TWO_PHASE. -/
def Prog.twoPhase (p : Prog) : Bool := bit 0 p.flags
/-- FLAGS.SHARDED. -/
def Prog.sharded (p : Prog) : Bool := bit 1 p.flags
/-- FLAGS.VETO_HALT. -/
def Prog.vetoHalt (p : Prog) : Bool := bit 2 p.flags
/-- Exact reduction is allowed. -/
def Prog.exactOk (p : Prog) : Bool := bit 0 p.modes
/-- Rounded reduction is allowed. -/
def Prog.roundedOk (p : Prog) : Bool := bit 1 p.modes
/-- Every cluster that the act table of a variant names. -/
def Prog.clusters (p : Prog) (v : Nat) : List Nat := ((p.actE.filter (fun a => a.variant == v)).flatMap (·.clusters)).eraseDups
/-- Every cluster that any variant names. -/
def Prog.allClusters (p : Prog) : List Nat := (p.actE.flatMap (·.clusters)).eraseDups
/-- The number of a programme's variants. -/
def Prog.variants (p : Prog) : Nat := p.actE.foldl (fun n a => max n (a.variant + 1)) 0
/-- A queue of the table. -/
def Prog.queue? (p : Prog) (q : Nat) : Option QueueE := p.queues.find? (fun e => e.queue == q)
/-- The context entry of a cluster and context in a variant. -/
def Prog.ctx? (p : Prog) (v g k : Nat) : Option CtxE :=
  p.ctxE.find? (fun e => e.variant == v && e.cluster == g && e.ctx == k)
/-- The tensor declared with an identifier. -/
def Prog.tensor? (p : Prog) (t : Nat) : Option TensorDecl := p.tensors.find? (fun e => e.tensor == t)
/-- The list of a plan entry: LIST_N 4-byte addresses in the list area (R271). -/
def Plan.listOf (p : Plan) (o : PlanOp) : List Nat := (elemsLE 4 (slice o.aux (4 * o.listN) p.area)).map (· % 2 ^ 20)

/-! ### State-map areas (R172 to R175) -/

/-- A 64-byte boundary at or above x. -/
def up64 (x : Nat) : Nat := roundUp 64 x
/-- Rows of an entry, when its rows are whole. -/
def SEntry.rows (e : SEntry) : Nat := e.count / max e.rowLen 1
/-- HBM bytes: the working slots, moments, RECORD and statistics (R172). -/
def SEntry.oMom (e : SEntry) (par : Nat) : Nat := 2 * up64 (2 * e.count) + par * up64 (4 * e.count)
/-- Offset of RECORD. -/
def SEntry.oRec (e : SEntry) : Nat := 2 * up64 (2 * e.count) + 2 * up64 (4 * e.count)
/-- Offset of a row-statistics slot. -/
def SEntry.oRow (e : SEntry) (par : Nat) : Nat := e.oRec + 64 + par * up64 (4 * e.rows)
/-- Offset of a column-statistics slot. -/
def SEntry.oCol (e : SEntry) (par : Nat) : Nat := e.oRec + 64 + 2 * up64 (4 * e.rows) + par * up64 (4 * e.rowLen)
/-- Offset of a whole-tensor statistic slot. -/
def SEntry.oTot (e : SEntry) (par : Nat) : Nat := e.oRec + 64 + 2 * up64 (4 * e.rows) + 2 * up64 (4 * e.rowLen) + par * 64
/-- Length of the HBM area. -/
def SEntry.hbmBytes (e : SEntry) : Nat := if e.rule = 3 then e.oTot 1 + 4 else e.oRec + 64
/-- Length of the DDR5 area (R173). -/
def SEntry.ddrBytes (e : SEntry) : Nat := 4 * up64 (4 * e.count) + 4 * e.count
/-- Address of the working-weight slot of a parity. -/
def SEntry.wAddr (e : SEntry) (par : Nat) : Nat := e.hbm + par * up64 (2 * e.count)
/-- Address of the moment slot of a parity. -/
def SEntry.momAddr (e : SEntry) (par : Nat) : Nat := e.hbm + e.oMom par
/-- Address of RECORD. -/
def SEntry.recAddr (e : SEntry) : Nat := e.hbm + e.oRec
/-- Address of the master slot of a parity. -/
def SEntry.masAddr (e : SEntry) (par : Nat) : Nat := e.ddr + par * up64 (4 * e.count)
/-- Address of ANCHOR, OMOM or RESID, k = 0, 1, 2. -/
def SEntry.oneAddr (e : SEntry) (k : Nat) : Nat := e.ddr + (2 + k) * up64 (4 * e.count)
/-- Number of update shards (R174). -/
def SEntry.shards (e : SEntry) : Nat := (e.count + 65535) / 65536
/-- Parameters in a shard. -/
def SEntry.shardLen (e : SEntry) (s : Nat) : Nat := min 65536 (e.count - 65536 * s)
/-- Bytes of the RULE 3 statistics of one parity, in the order of R172; none for other rules. -/
def SEntry.statBytes (e : SEntry) : Nat := if e.rule = 3 then 4 * e.rows + 4 * e.rowLen + 4 else 0

/-- The Strongman of the device that works an entry: ring × 4 + instance (R169). -/
def SEntry.strong (e : SEntry) : Nat := e.strongman

/-! ### Step and generation descriptors (R212, R213, R241) -/

/-- STEP of either descriptor. -/
def dStep (d : Bytes) : Nat := rd 0 8 d
/-- EPOCH. -/
def dEpoch (d : Bytes) : Nat := rd 8 2 d
/-- MODE: 0 exact, 1 rounded. -/
def dMode (d : Bytes) : Nat := rd 10 1 d
/-- MICRO. -/
def dMicro (d : Bytes) : Nat := rd 12 2 d
/-- ENTRIES. -/
def dEntries (d : Bytes) : Nat := rd 18 2 d
/-- LR. -/
def dLr (d : Bytes) : BitVec 32 := BitVec.ofNat 32 (rd 20 4 d)
/-- WD. -/
def dWd (d : Bytes) : BitVec 32 := BitVec.ofNat 32 (rd 24 4 d)
/-- CLIP. -/
def dClip (d : Bytes) : BitVec 32 := BitVec.ofNat 32 (rd 28 4 d)
/-- SEED[i]; 0 beyond SEEDS. -/
def dSeed (d : Bytes) (i : Nat) : Nat := if i < rd 14 1 d then rd (64 + 8 * i) 8 d else 0
/-- SCALE[i]; 1.0 beyond SCALES. -/
def dScale (d : Bytes) (i : Nat) : BitVec 32 := if i < rd 16 2 d then BitVec.ofNat 32 (rd (192 + 4 * i) 4 d) else 0x3F800000
/-- Manifest entry k: FIRST_SEQ, SEQS, SEQ_LEN, ADDR, HASH. -/
def dManifest (d : Bytes) (k : Nat) : Bytes := slice (1216 + 64 * k) 64 d
/-- USERS of a generation descriptor. -/
def gUsers (d : Bytes) : Nat := rd 8 1 d
/-- A user record of a generation descriptor. -/
def gUser (d : Bytes) (u : Nat) : Bytes := slice (64 + 64 * u) 64 d
/-- SCALE[i] of a generation descriptor. -/
def gScale (d : Bytes) (i : Nat) : BitVec 32 :=
  if i < rd 10 2 d then BitVec.ofNat 32 (rd (64 + 64 * gUsers d + 4 * i) 4 d) else 0x3F800000

/-- The total of sequences and of tokens of the manifest's first k entries. -/
def seqsBefore (d : Bytes) (k : Nat) : Nat := (List.range k).foldl (fun n i => n + rd 8 4 (dManifest d i)) 0
/-- Tokens of the manifest's first k entries. -/
def toksBefore (d : Bytes) (k : Nat) : Nat :=
  (List.range k).foldl (fun n i => n + rd 8 4 (dManifest d i) * rd 12 4 (dManifest d i)) 0
/-- The global token index at which sequence q starts (R213). -/
def tokenOfSeq (d : Bytes) (q : Nat) : Nat :=
  (List.range (dEntries d)).foldl (fun n i =>
    let e := dManifest d i
    let f := rd 0 8 e
    if f ≤ q then n + min (rd 8 4 e) (q - f) * rd 12 4 e else n) 0
/-- The first sequence of micro-batch j of a troupe (R214). -/
def mbFirst (d : Bytes) (troupes t j : Nat) : Nat :=
  let n := seqsBefore d (dEntries d)
  let a := t * n / troupes
  let b := (t + 1) * n / troupes
  a + j * (b - a) / dMicro d

/-! ### Fields of descriptor words -/

/-- Word k of a descriptor. -/
def wd (ws : List Word) (k : Nat) : Nat := (ws.getD k 0).toNat
/-- Bits of a descriptor word. -/
def fld (ws : List Word) (k hi lo : Nat) : Nat := bits hi lo (wd ws k)
/-- OPCODE. -/
def dOp (ws : List Word) : Nat := fld ws 0 7 0
/-- TAG. -/
def dTag (ws : List Word) : Nat := fld ws 0 63 48

/-- The unit that an opcode belongs to: 0 matrix core, 1 vector engine, 2 special-function unit, 3 DMA, 4 controller,
5 queue descriptor (R146). -/
def opClass (op : Nat) : Option Nat :=
  if 1 ≤ op ∧ op ≤ 5 then some 0
  else if 0x10 ≤ op ∧ op ≤ 0x15 then some 1
  else if op = 0x20 then some 2
  else if op = 0x30 then some 3
  else if 0x40 ≤ op ∧ op ≤ 0x45 then some 4
  else if 0x48 ≤ op ∧ op ≤ 0x4B then some 5
  else none

/-- The class of a unit number of DISPATCH (R147). -/
def unitClass (u : Nat) : Nat := if u < 40 then 0 else if u < 42 then 1 else if u = 42 then 2 else 3

/-- The scale that a SCALE_SEL names in the running step or batch (R48, R241). -/
def State.scaleSel (s : State) (i : Nat) : BitVec 32 :=
  match s.job.running with
  | some j => (match s.job.prog with
    | some p => if p.gen then gScale j.desc i else dScale j.desc i
    | none => dScale j.desc i)
  | none => 0x3F800000

/-- The seed that a SEED_SEL names (R57); in generation, that of the user being served (R242). -/
def State.seedSel (s : State) (i : Nat) : Nat :=
  match s.job.running with
  | some j => (match s.job.prog with
    | some p => if p.gen then rd 0 8 (gUser j.desc s.job.genNext) else dSeed j.desc i
    | none => dSeed j.desc i)
  | none => 0

/-- The step input of the counter generator (R57): the step number, or the decode-iteration counter of the user being
served (R242). -/
def State.rngStep (s : State) : Nat :=
  match s.job.running with
  | some j => (match s.job.prog with
    | some p => if p.gen then rd 16 4 (gUser j.desc s.job.genNext) + (s.job.genUsers.getD s.job.genNext {}).produced else j.n.toNat
    | none => j.n.toNat)
  | none => 0

end Sys2Proof.Machine
end

