-- ==== Sys2Proof/Machine/Frames.lean ====
section
/-!
DEFINITION. How frames leave on the site fabric: link and routed frames (R249 to R251), routes (R261, R262, R264), credits and the weighted
round robin of an output port (R252, R253), streams (R257), and the control messages of R250.
-/

namespace Sys2Proof.Machine

/-! ### Frames -/

/-- A link frame (R251): HCRC takes the last two of the eight bytes of ARG (assumption 56). -/
def linkFrame (typ arg : Nat) : Bytes :=
  let h := zeros 4 ++ le 1 typ ++ zeros 3 ++ le 6 arg
  h ++ le 2 (crc16 h)

/-- The virtual channel that a TYPE fixes (R250); a frame of no assigned type keeps the one it names. -/
def typeVc (typ named : Nat) : Nat :=
  match typ with | 1 => 0 | 2 => 1 | 3 => 2 | 4 => 3 | 5 => 3 | 6 => 0 | _ => named % 4

/-- A routed frame as its source builds it (R249). -/
def routedFrameOf (typ dest src seq stream tag epoch : Nat) (payload : Bytes) : Bytes :=
  let h := zeros 4 ++ le 1 typ ++ le 1 (typeVc typ 0) ++ le 2 payload.length ++ le 4 dest ++ le 4 src ++ le 8 seq ++ le 2 stream ++ le 2 tag ++ le 2 epoch
  h ++ le 2 (crc16 h) ++ payload ++ le 4 (crc32c (h.drop 4 ++ payload))

/-- The per-hop fields of a frame rewritten, with its HCRC (R249). -/
def rehop (lane hops : Nat) (lseq : BitVec 16) (b : Bytes) : Bytes :=
  let h := le 1 lane ++ le 1 hops ++ le 2 lseq.toNat ++ slice 4 26 b
  h ++ le 2 (crc16 h) ++ b.drop 32

/-- TYPE of a frame. -/
def frType (b : Bytes) : Nat := rd 4 1 b
/-- The virtual channel of a frame. -/
def frVc (b : Bytes) : Nat := typeVc (frType b) (rd 5 1 b)
/-- DEST. -/
def frDest (b : Bytes) : Nat := rd 8 4 b % 2 ^ 20
/-- SRC. -/
def frSrc (b : Bytes) : Nat := rd 12 4 b % 2 ^ 20
/-- SEQ. -/
def frSeq (b : Bytes) : Word := BitVec.ofNat 64 (rd 16 8 b)
/-- STREAM. -/
def frStream (b : Bytes) : Nat := rd 24 2 b
/-- STEP_TAG. -/
def frTag (b : Bytes) : Nat := rd 26 2 b
/-- Credits that a frame needs (R252). -/
def frCredits (b : Bytes) : Nat := (36 + rd 6 2 b + 63) / 64
/-- The port of the router that joins the Midway and carries a frame to or from this device: 8 for an even STREAM, 9 for an odd one (R260). -/
def midPort (b : Bytes) : Nat := 8 + frStream b % 2

/-- Credits of a full buffer, by VC (R252). -/
def fullCredits (vc : Nat) : Nat := match vc with | 0 => 4096 | 1 => 1024 | 2 => 1024 | _ => 256

/-- Post a FRAME record (R428). -/
def State.frameRec (s : State) (event stream dest src seq : Nat) : State :=
  s.post srcRouter 0x0302 (le 1 event ++ zeros 1 ++ le 2 stream ++ le 4 dest ++ le 4 src ++ zeros 4 ++ le 8 seq)

/-- A site port's own state. -/
def State.sport (s : State) (p : Nat) : SPort := SMap.get s.fabric.ports p {}
/-- Put a site port's state. -/
def State.setSport (s : State) (p : Nat) (x : SPort) : State := { s with fabric := { s.fabric with ports := SMap.set s.fabric.ports p x } }
/-- Count a frame discarded at a port; one that no site port concerns is not counted. -/
def State.discardAt (s : State) (p : Nat) : State := if p < 8 then s.satAdd (oPortStatus p) 15 0 1 else s

/-- Ports that came up while a step ran carry routed traffic from the step boundary on, however the step ended (R248). -/
def State.portsCarry (s : State) : State :=
  { s with fabric := { s.fabric with ports := s.fabric.ports.map (fun x => (x.1, { x.2 with carries := x.2.carries || s.portUp x.1 })) } }

/-! ### Routes (R261, R262, R264) -/

/-- The route entry that a table gives for an address (R262). -/
def Route.entry (r : Route) (dest : Nat) : Nat :=
  if dest / 1024 = r.addr / 1024 then r.lcl.getD (dest % 1024) 0 else r.region.getD (dest / 1024 % 1024) 0
/-- VALID of a route entry. -/
def rtValid (e : Nat) : Bool := bit 15 e
/-- PRI of a route entry. -/
def rtPri (e : Nat) : Nat := bits 3 0 e
/-- ALT of a route entry. -/
def rtAlt (e : Nat) : Nat := bits 7 4 e

/-- The route entry of an address in the running programme's table; in Sideshow mode this device's own address is its only route (R393). -/
def State.entryOf (s : State) (dest : Nat) : Nat :=
  match s.job.prog with
  | some p => p.route.entry dest
  | none => if s.fw.side ∧ dest = s.self then 0x8008 else 0xFF

/-- A port that may carry routed traffic now: UP, carrying since a step boundary, not in loopback (R248, R266). -/
def State.usable (s : State) (p : Nat) : Bool := s.linkUp p && (s.sport p).carries

/-- The port on which a frame for an address leaves, with its dateline bit; port 8 is this device (R262, R264). -/
def State.routeOf (s : State) (dest : Nat) : Option (Nat × Bool) :=
  let e := s.entryOf dest
  if !rtValid e then none
  else if rtPri e = 8 then some (8, false)
  else if rtPri e < 8 ∧ s.usable (rtPri e) then some (rtPri e, bit 8 e)
  else if rtAlt e < 8 ∧ s.usable (rtAlt e) then some (rtAlt e, bit 9 e)
  else none

/-! ### Output (R252, R253, R255) -/

/-- The weight of a virtual channel at a port; 0 counts as 1 (R266). -/
def State.vcWeight (s : State) (p vc : Nat) : Nat :=
  max 1 (match vc with | 0 => s.rf (oPortCtl p) 23 16 | 1 => s.rf (oPortCtl p) 15 8 | _ => s.rf (oPortCtl p) 7 0)

/-- Whether a virtual channel has frames left in the round under way. -/
def State.hasTurn (s : State) (p vc : Nat) : Bool := decide (SMap.get (s.sport p).used vc 0 < s.vcWeight p vc)

/-- The order in which a port tries its virtual channels: control first, then those with frames left in the round, then those that begin a
new round (R253, assumption 57). -/
def State.vcOrder (s : State) (p : Nat) : List Nat :=
  3 :: ([0, 1, 2].filter (s.hasTurn p) ++ [0, 1, 2].filter (fun vc => !s.hasTurn p vc))

/-- What a frame of a virtual channel leaves of the round: one more of the channel, or a new round that it begins. -/
def State.turn (s : State) (p vc : Nat) : SMap Nat :=
  let u := (s.sport p).used
  if vc = 3 then u else if s.hasTurn p vc then SMap.upd u vc 0 (· + 1) else [(vc, 1)]

/-- The index of the frame that a port may send next: the first of its VC and lane, with its credits held and room in the replay
buffer. -/
def State.nextFrame (s : State) (p : Nat) : Option Nat :=
  let x := s.sport p
  let room := 2 ^ 20 - x.replay.foldl (fun (n : Nat) r => n + r.2.length) 0
  let ok := fun (i : Nat) (q : Nat × Nat × Nat × Bytes) =>
    !((x.queue.take i).any (fun y => y.1 == q.1 && y.2.1 == q.2.1)) &&
    decide (frCredits q.2.2.2 ≤ SMap.get x.credits (q.1 * 2 + q.2.1) 0) && decide (q.2.2.2.length ≤ room)
  (s.vcOrder p).findSome? (fun vc => (x.queue.zipIdx.find? (fun q => q.1.1 == vc && ok q.2 q.1)).map (·.2))

/-- What a frame leaves as: its hop count rises unless this device built it, and it takes the lane and the next LSEQ (R249, R264). -/
def hopOut (lane key : Nat) (lseq : BitVec 16) (b : Bytes) : Bytes := rehop lane (rd 1 1 b + (if key < 64 then 1 else 0)) lseq b

/-- Credits owed for a frame that has left the buffer of the port it came in on; `key` is that port × 8 + VC × 2 + lane, and a frame of this
device occupies none (R252). -/
def State.oweCredits (s : State) (key n : Nat) : State :=
  if key < 64 then
    let y := s.sport (key / 8)
    s.setSport (key / 8) { y with owes := SMap.upd y.owes (key % 8) 0 (· + n) }
  else s

/-- Send what a port may send; one in loopback sends nothing (R266). Fuel is the number of frames that wait. -/
def State.pumpPort (s : State) (p : Nat) : Nat → State
  | 0 => s
  | f + 1 =>
    if !s.linkUp p then s
    else match s.nextFrame p with
    | none => s
    | some i =>
      let x := s.sport p
      match x.queue[i]? with
      | none => s
      | some (vc, lane, key, b) =>
        let out := hopOut lane key x.txSeq b
        let n := frCredits b
        let t := s.setSport p { x with
          used := s.turn p vc, txSeq := x.txSeq + 1, replay := x.replay ++ [(x.txSeq, out)],
          credits := SMap.upd x.credits (vc * 2 + lane) 0 (· - n), queue := x.queue.eraseIdx i }
        ((t.oweCredits key n).emit (.frame p out)).pumpPort p f

/-- Give a frame to an output port. -/
def State.toPort (s : State) (p lane key : Nat) (b : Bytes) : State :=
  let x := s.sport p
  (s.setSport p { x with queue := x.queue ++ [(frVc b, lane, key, b)] }).pumpPort p (x.queue.length + 1)

/-- Frames of the mirror link: MIRROR frames, the CTRL frames that carry MIRROR_ACK (R267), Calliope's buffer on stream 0xFFFE (R435), and what
FW_FETCH asks and is answered on stream 0xFFFF (R393). -/
def mirrorFrame (b : Bytes) : Bool := frType b == 6 || decide (0xFFFE ≤ frStream b) || (frType b == 5 && rd 32 1 b == 0x20)

/-- The device at the other end of the mirror link: the partner, in Sideshow mode that of the board block (R267, R393). -/
def State.farEnd (s : State) : Nat := if s.fw.side then rd 16 4 s.fw.cfg % 2 ^ 20 else s.partner

/-- Send a frame of this device on its way, through port 8 or 9, or discard, count and record it when it has no route (R260, R262, R264). DESIGN CHOICE:
it is counted at the PRI of its entry, and at port 0 where that is no site port (assumption 58).
Mirror traffic takes the mirror link while that is up, and the routed path otherwise (R267, R268). -/
def State.launch (s : State) (b : Bytes) : State :=
  let key := midPort b * 8
  if mirrorFrame b ∧ frDest b = s.farEnd ∧ s.mirrorUp then s.toPort (s.rf oSiteId 27 24) 0 key b
  else match s.routeOf (frDest b) with
  | some (8, _) => { s with fabric := { s.fabric with arrived := s.fabric.arrived ++ [(midPort b, b)] } }
  | some (p, d) => s.toPort p (b2n d) key b
  | none =>
    let e := rtPri (s.entryOf (frDest b))
    (s.discardAt (if e < 8 then e else 0)).frameRec 1 (frStream b) (frDest b) (frSrc b) (frSeq b).toNat

/-! ### Sending streams (R257) -/

/-- The sending stream toward a device. -/
def State.txOf (s : State) (dest stream : Nat) : TxStream :=
  (s.fabric.tx.find? (fun x => x.dest == dest && x.stream == stream)).getD { dest := dest, stream := stream }
/-- Put a sending stream. -/
def State.setTx (s : State) (x : TxStream) : State :=
  { s with fabric := { s.fabric with tx := s.fabric.tx.filter (fun y => y.dest != x.dest || y.stream != x.stream) ++ [x] } }

/-- Bytes cut into the payloads of consecutive frames, of at most 4,096 bytes each (R249). Fuel is their number. -/
def payloads : Nat → Bytes → List Bytes
  | 0, _ => []
  | f + 1, b => padTo 8 (b.take 4096) :: (if b.length ≤ 4096 then [] else payloads f (b.drop 4096))

/-- Frames that bytes take (R249). -/
def frameCount (b : Bytes) : Nat := max 1 ((b.length + 4095) / 4096)

/-- The frames of a stream that carry bytes, from a SEQ on. -/
def State.framesOf (s : State) (typ dest stream epoch : Nat) (seq : Word) (b : Bytes) : List (Word × Bytes) :=
  (payloads (frameCount b) b).zipIdx.map (fun x =>
    let n := seq + BitVec.ofNat 64 x.2
    (n, routedFrameOf typ dest s.self n.toNat stream s.tagNow epoch x.1))

/-- Send bytes on a stream as consecutive frames, which are kept until they are acknowledged, with the plan entry and run they belong to
(R257, R272). -/
def State.streamOut (s : State) (typ dest stream epoch op run : Nat) (b : Bytes) : State :=
  (s.framesOf typ dest stream epoch (s.txOf dest stream).next b).foldl (fun t f =>
    let x := t.txOf dest stream
    (t.setTx { x with next := x.next + 1, held := x.held ++ [(f.1, op, run, f.2)] }).launch f.2) s

/-- Whether a plan entry's run still has frames that no SACK covers. -/
def State.unackedOp (s : State) (op : Nat) (run : Option Nat) : Bool :=
  s.fabric.tx.any (fun x => x.held.any (fun h => h.2.1 == op && (match run with | some r => h.2.2.1 == r | none => true)))

/-- The number under which frames that belong to no plan entry are held. -/
def noOp : Nat := 2 ^ 33

/-- What a port still has to send of an attempt goes, and what it took of buffers is owed (R258). Copies in the replay buffer stay until a
LACK covers them (R255). -/
def State.dropQueued (s : State) (tag p : Nat) : State :=
  let x := s.sport p
  let mine := fun (q : Nat × Nat × Nat × Bytes) => frTag q.2.2.2 == tag && frType q.2.2.2 != 4
  (x.queue.filter mine).foldl (fun t q => t.oweCredits q.2.2.1 (frCredits q.2.2.2)) (s.setSport p { x with queue := x.queue.filter (fun q => !mine q) })

/-- A job rewind: every frame held for the abandoned attempt goes, and every stream is at SEQ 0 (R258). -/
def State.rewindFrames (s : State) : State :=
  let t := (List.range 8).foldl (fun t p => t.dropQueued s.tagNow p) s
  { t with fabric := { t.fabric with tx := [], rx := [], arrived := [] } }

/-! ### Addresses and control messages (R187, R222, R250) -/

/-- The address that stands for every other member of the barrier group (assumption 6). -/
def toGroup : Nat := 0xFFFFF

/-- The site address of the device at a position of this device's troupe (R217, assumption 6). -/
def Prog.atPosition (p : Prog) (pos : Nat) : Nat := if pos = p.position then p.route.addr else (Config.siteAddr p.troupe pos).toNat

/-- The site addresses of the other members of the barrier group (R191, assumption 6). -/
def Prog.groupAddrs (p : Prog) : List Nat :=
  if p.group ≤ 1 then []
  else (List.range p.siteTroupes).flatMap (fun t => ((List.range p.troupeSize).filter (fun k => t != p.troupe || k != p.position)).map
    (fun k => (Config.siteAddr t k).toNat))

/-- The device that holds a queue's sending act: the receiver of the queue that the same two acts have in the other direction (R221, R223,
assumption 6); without one, this device. -/
def Prog.senderAddr (p : Prog) (q : QueueE) : Nat :=
  match p.queues.find? (fun x => x.sender == q.receiver && x.receiver == q.sender && x.dir != q.dir) with
  | some x => p.atPosition x.recvPos
  | none => p.route.addr

/-- LX32 words of a record as bytes. -/
def wordsBytes (l : List (BitVec 640)) : Bytes := l.flatMap (fun w => le 80 w.toNat)
/-- Bytes of 64-bit words. -/
def le64s (l : List Word) : Bytes := l.flatMap (fun w => le 8 w.toNat)

/-- The bytes of a READY record and of the commit record (R188). -/
def recBytes (r : ReadyRec) : Bytes :=
  le 8 r.step.toNat ++ le 2 r.epoch.toNat ++ le 1 r.veto.toNat ++ le 1 r.flags.toNat ++ le 4 r.devices.toNat ++ le 80 r.norm2.toNat ++
    le64s r.gfp ++ le64s r.wfp

/-- The bytes of a record of an all-reduce: R188's for READY; the sums T_j in order and U of RULE 3, and the phase and the number of devices
of a completion, in an order of the model's (assumption 6). -/
def allredBytes : AllredRec → Bytes
  | .ready r => recBytes r
  | .rule3 _ c x => wordsBytes c ++ le 80 x.toNat
  | .completion k n => le 4 k.toNat ++ le 4 n.toNat

/-- The payload of a CTRL frame: a kind, an argument byte, a queue or shard, a number, the step number (R258), and what follows; the layout is
the model's (assumption 6). -/
def ctrlBytes (kind arg q n step : Nat) (rest : Bytes) : Bytes := le 1 kind ++ le 1 arg ++ le 2 q ++ le 4 n ++ le 8 step ++ rest

/-- The payload of a message that R250 lists for CTRL frames; other messages have none. `n` is the step number. -/
def Msg.ctrl (n : Nat) : Msg → Option Bytes
  | .credit q k => some (ctrlBytes 0x10 0 q k n [])
  | .returnCredit q m => some (ctrlBytes 0x11 0 q m n [])
  | .queueAck q m => some (ctrlBytes 0x12 0 q m n [])
  | .mirrorAck e k st ok => some (ctrlBytes 0x20 (b2n ok) 0 k st.toNat (le 8 e))
  | .heartbeat st => some (ctrlBytes 0x21 0 0 0 st.toNat [])
  | .veto k st => some (ctrlBytes 0x22 k.toNat 0 0 st.toNat [])
  | .ready r => some (ctrlBytes 0x30 0 0 0 r.step.toNat (recBytes r))
  | .merged r => some (ctrlBytes 0x31 0 0 0 r.step.toNat (recBytes r))
  | .rule3 .. | .completion .. | .query .. | .answer .. | .report .. | .beacon | .takeover .. | .gatherRequest .. | .flashRequest | .relay .. => none

/-- The stream of the CTRL frames that no plan entry sends, toward any device (assumption 6). -/
def ctrlStream : Nat := 0xFFFC

/-- Layout epoch of the running programme. -/
def State.epochNow (s : State) : Nat := match s.job.prog with | some p => p.epoch | none => 0

/-- Send a message to a device: as CTRL frames of a stream where R250 lists it. -/
def State.tell (s : State) (dest : Nat) (m : Msg) : State :=
  let t := s.send dest m
  match m.ctrl s.stepNow with
  | some b => t.streamOut 5 dest ctrlStream s.epochNow noOp 0 b
  | none => t

/-- Send a message to every other member of the barrier group. -/
def State.tellGroup (s : State) (m : Msg) : State :=
  let t := s.send toGroup m
  match m.ctrl s.stepNow, s.job.prog with
  | some b, some p => p.groupAddrs.foldl (fun t a => t.streamOut 5 a ctrlStream p.epoch noOp 0 b) t
  | _, _ => t

end Sys2Proof.Machine
end

