-- ==== Sys2Proof/Machine/Blocks.lean ====
section
/-!
DEFINITION. Stored forms of numbers: lossless blocks and their index tables (R112 to R123, R129), delta blocks and delta
runs (R136 to R141), LXP blocks (R60 to R63).
-/

namespace Sys2Proof.Machine

/-! ### Bit streams, least significant bit first (R115) -/

/-- n bits of v, least significant first. -/
def toBits : Nat → Nat → List Bool
  | 0, _ => []
  | n + 1, v => (v % 2 == 1) :: toBits n (v / 2)

/-- The value of a bit list. -/
def ofBits : List Bool → Nat
  | [] => 0
  | b :: bs => b2n b + 2 * ofBits bs

/-- Bytes of a bit stream; the last byte's unused bits are 0. Fuel is the number of bytes. -/
def packGo : Nat → List Bool → Bytes
  | 0, _ => []
  | f + 1, l => if l.isEmpty then [] else BitVec.ofNat 8 (ofBits (l.take 8)) :: packGo f (l.drop 8)

/-- Bytes of a bit stream. -/
def packBits (l : List Bool) : Bytes := packGo (l.length / 8 + 1) l

/-- Bits of bytes. -/
def unpackBits (b : Bytes) : List Bool := b.flatMap (fun x => toBits 8 x.toNat)

/-! ### Lossless blocks -/

/-- Bytes of an element of a block format: 0 FP16, 1 FP32. -/
def elemBytes (fmt : Nat) : Nat := if fmt = 0 then 2 else 4
/-- Width of the biased exponent. -/
def expBits (fmt : Nat) : Nat := if fmt = 0 then 5 else 8
/-- Width of the fraction. -/
def fracBits (fmt : Nat) : Nat := if fmt = 0 then 10 else 23
/-- The number format of a block format. -/
def fmtOf (fmt : Nat) : Fmt := if fmt = 0 then fp16 else fp32
/-- The raw size of a block (R113). -/
def rawSize (fmt n : Nat) : Nat := 8 + roundUp 8 (elemBytes fmt * n)
/-- The biased exponent of an element. -/
def expOf (fmt x : Nat) : Nat := x / 2 ^ fracBits fmt % 2 ^ expBits fmt
/-- The sign and fraction field of an element (R116). -/
def fieldOf (fmt x : Nat) : Nat := x / 2 ^ (fracBits fmt + expBits fmt) % 2 * 2 ^ fracBits fmt + x % 2 ^ fracBits fmt
/-- The element with an exponent and a field (R116). -/
def joinElem (fmt e f : Nat) : Nat := f / 2 ^ fracBits fmt * 2 ^ (fracBits fmt + expBits fmt) + e * 2 ^ fracBits fmt + f % 2 ^ fracBits fmt

/-- A block's CHECK: CRC-32C over bytes 0 to 3 and 8 to the end (R112). -/
def blockCheck (head body : Bytes) : Nat := crc32c (head ++ body)

/-- A block from its header fields and body. -/
def mkBlock (fmt count raw : Nat) (body : Bytes) : Bytes :=
  let head := le 2 (count + fmt * 512 + raw * 1024) ++ le 2 (8 + body.length)
  head ++ le 4 (blockCheck head body) ++ body

/-- A raw block (R113). -/
def rawBlock (fmt : Nat) (xs : List Nat) : Bytes := mkBlock fmt xs.length 1 (padTo 8 (xs.flatMap (le (elemBytes fmt))))

/-- Count of a value in a list. -/
def countOf (l : List Nat) (e : Nat) : Nat := l.countP (· == e)

/-- The distinct exponents by descending count, ties by ascending value (R118). -/
def expOrder (es : List Nat) : List Nat :=
  (es.eraseDups).insertionSort (fun a b => countOf es b < countOf es a ∨ (countOf es a = countOf es b ∧ a ≤ b))

/-- The code of an exponent (R115). -/
def codeOf (fmt : Nat) (table : List Nat) (e : Nat) : List Bool :=
  let i := table.findIdx (· == e)
  if i < table.length then List.replicate i true ++ [false]
  else List.replicate table.length true ++ toBits (expBits fmt) e

/-- Bits of the exponent stream under a table. -/
def streamLen (fmt : Nat) (table es : List Nat) : Nat := es.foldl (fun n e => n + (codeOf fmt table e).length) 0

/-- The best table (R118): the first T of the order that makes 8 × T + EBITS smallest, the smaller T on a tie. -/
def bestTable (fmt : Nat) (es : List Nat) : List Nat :=
  let order := expOrder es
  (List.range (min 7 order.length + 1)).foldl (fun best t =>
    let c := order.take t
    if 8 * t + streamLen fmt c es < 8 * best.length + streamLen fmt best es then c else best) []

/-- A coded block under a table (R114). -/
def codedBlock (fmt : Nat) (table xs : List Nat) : Bytes :=
  let es := xs.map (expOf fmt)
  let codes := es.flatMap (codeOf fmt table)
  let fields := xs.flatMap (fun x => toBits (fracBits fmt + 1) (fieldOf fmt x))
  let body := [BitVec.ofNat 8 table.length, 0] ++ le 2 codes.length ++ table.flatMap (le 1) ++ packBits codes ++ packBits fields
  mkBlock fmt xs.length 0 (padTo 8 body)

/-- The block the compressor stores (R118, R119). -/
def compress (fmt : Nat) (xs : List Nat) : Bytes :=
  let c := codedBlock fmt (bestTable fmt (xs.map (expOf fmt))) xs
  if 16 * c.length < 15 * rawSize fmt xs.length then c else rawBlock fmt xs

/-- COUNT, FMT, RAW and LENGTH of a header. -/
def blkCount (b : Bytes) : Nat := rd 0 2 b % 512
/-- FMT of a header. -/
def blkFmt (b : Bytes) : Nat := bits 9 9 (rd 0 2 b)
/-- RAW of a header. -/
def blkRaw (b : Bytes) : Bool := bit 10 (rd 0 2 b)
/-- LENGTH of a header. -/
def blkLen (b : Bytes) : Nat := rd 2 2 b

/-- Ones at the start of a bit list, at most n. -/
def leadOnes : Nat → List Bool → Nat
  | 0, _ => 0
  | n + 1, l => match l with
    | true :: l => 1 + leadOnes n l
    | _ => 0

/-- Decode n exponent codes (R115): the exponents, the bits used, whether an escape carries a tabled exponent; none when
the bits run out. -/
def decodeCodes (fmt : Nat) (table : List Nat) : Nat → List Bool → Option (List Nat × Nat × Bool)
  | 0, _ => some ([], 0, false)
  | n + 1, l =>
    let k := leadOnes table.length l
    if k < table.length then
      if l.length < k + 1 then none
      else (decodeCodes fmt table n (l.drop (k + 1))).map (fun r => (table.getD k 0 :: r.1, r.2.1 + k + 1, r.2.2))
    else
      let w := k + expBits fmt
      if l.length < w then none
      else
        let e := ofBits ((l.drop k).take (expBits fmt))
        (decodeCodes fmt table n (l.drop w)).map (fun r => (e :: r.1, r.2.1 + w, r.2.2 || table.contains e))

/-- The fields of n elements. Fuel is n. -/
def decodeFields (fmt : Nat) : Nat → List Bool → List Nat
  | 0, _ => []
  | n + 1, l => ofBits (l.take (fracBits fmt + 1)) :: decodeFields fmt n (l.drop (fracBits fmt + 1))

/-- Read a lossless block, given LENGTH bytes of it: its elements, or the kind of its damage in the order of R129. -/
def decodeBlock (fmt : Nat) (b : Bytes) : Except Nat (List Nat) :=
  let len := blkLen b
  let n := blkCount b
  let b := fit (max len 8) b
  if rd 4 4 b ≠ blockCheck (b.take 4) (b.drop 8) then .error 1
  else if rd 0 2 b / 2048 ≠ 0 ∨ len % 8 ≠ 0 ∨ len < 16 ∨ 1032 < len ∨ n = 0 ∨ 256 < n then .error 2
  else if blkFmt b ≠ fmt then .error 3
  else if (blkRaw b ∧ len ≠ rawSize fmt n) ∨ (!blkRaw b ∧ rawSize fmt n < len) then .error 4
  else if blkRaw b then
    if allZero (b.drop (8 + elemBytes fmt * n)) then .ok (elemsLE (elemBytes fmt) (slice 8 (elemBytes fmt * n) b)) else .error 6
  else
    let t := rd 8 1 b % 8
    let ebits := rd 10 2 b
    let table := (slice 12 t b).map BitVec.toNat
    let fb := ((fracBits fmt + 1) * n + 7) / 8
    let f0 := 12 + t + (ebits + 7) / 8
    match decodeCodes fmt table n (unpackBits (b.drop (12 + t))) with
    | none => .error 5
    | some (es, used, tabled) =>
      if len < f0 + fb ∨ len < 12 + t + (used + 7) / 8 + fb then .error 5
      else
        let estream := unpackBits (slice (12 + t) ((ebits + 7) / 8) b)
        let fstream := unpackBits (slice f0 fb b)
        let clean := (estream.drop ebits).all (!·) && (fstream.drop ((fracBits fmt + 1) * n)).all (!·) && allZero (b.drop (f0 + fb))
        if roundUp 8 (f0 + fb) ≠ len ∨ !clean then .error 6
        else if rd 8 1 b / 8 ≠ 0 ∨ rd 9 1 b ≠ 0 ∨ table.eraseDups.length ≠ t ∨ table.any (fun e => decide (2 ^ expBits fmt ≤ e)) ∨
            tabled ∨ used ≠ ebits then .error 7
        else .ok (List.zipWith (joinElem fmt) es (decodeFields fmt n fstream))

/-- Whether an expander delivers the block at the reduced rate (R125). -/
def slowBlock (b : Bytes) : Bool :=
  !blkRaw b && decide ((if blkFmt b = 0 then 3 else 8) * blkCount b < rd 10 2 b)

/-- Blocks of a tensor's elements: 256 in each, the last one shorter. Fuel is the number of blocks. -/
def blocksOf (fmt : Nat) : Nat → List Nat → List Bytes
  | 0, _ => []
  | f + 1, xs => if xs.isEmpty then [] else compress fmt (xs.take 256) :: blocksOf fmt f (xs.drop 256)

/-- An index table (R121): the offsets of the blocks, then the total length. -/
def indexTable (bs : List Bytes) : Bytes :=
  let go := bs.foldl (fun (a : Bytes × Nat) b => (a.1 ++ le 4 a.2, a.2 + b.length)) ([], 0)
  go.1 ++ le 4 go.2

/-! ### Delta blocks (R136 to R139) -/

/-- An FP32 value as an integer in units of 2^-149; finite values only. -/
def int149 (x : BitVec 32) : Int := (decodeF fp32 x.toNat).dy.at_ (-149)
/-- An FP16 value as an integer in units of 2^-24. -/
def int24 (x : Nat) : Int := (decodeF fp16 x).dy.at_ (-24)

/-- The integer nearest to a quotient, ties to even. -/
def rneDiv (a : Int) (b : Nat) : Int :=
  let q := a / (b : Int)
  let r := a - q * b
  if 2 * r < b then q else if (b : Int) < 2 * r then q + 1 else if q % 2 = 0 then q else q + 1

/-- One element of a quantised block. -/
structure DeltaOut where
  bytes : Bytes
  resid : List (BitVec 32)
  dec : List (BitVec 32)
  sat : Bool
  deriving DecidableEq, Repr

/-- The 4-bit values of a block, packed two to a byte. Fuel is 16. -/
def packNibbles (n : List Int) : Bytes :=
  (List.range 16).map (fun j => BitVec.ofNat 8 (((n.getD (2 * j) 0) % 16).toNat + 16 * ((n.getD (2 * j + 1) 0) % 16).toNat))

/-- Quantise the values of one block (R138), at most 32 of them. -/
def encodeDelta (x : List (BitVec 32)) : DeltaOut :=
  let xi := x.map int149
  if xi.all (· == 0) then { bytes := le 2 0, resid := x, dec := x.map (fun _ => 0), sat := false }
  else
    let mags := xi.map Int.natAbs
    let g : Nat → Nat := fun i => mags.getD i 0
    let a := (List.range x.length).insertionSort (fun i j => g j < g i ∨ (g i = g j ∧ i ≤ j))
    let m : Nat → Nat := fun k => match a[k]? with | some i => g i | none => 0
    let nout := if 4 * m 2 < m 1 then 2 else if 4 * m 1 < m 0 then 1 else 0
    let outs := (a.take nout).insertionSort (· ≤ ·)
    let mx := (List.range x.length).foldl (fun w i => if outs.contains i then w else max w (g i)) 0
    let s : Nat := if mx = 0 then 0 else
      let r := (roundRat fp16 2 0 false mx 7 (-149)).x
      if 0x7BFF < r then 0x7BFF else r
    let sU := (int24 s).toNat * 2 ^ 125
    let one := fun (i : Nat) (v : Int) (w : BitVec 32) =>
      if outs.contains i then
        let h := rne fp16 ⟨v, -149⟩
        let h := if h % 32768 = 31744 then h - 1 else h
        let d := int24 h * (2 ^ 125 : Nat)
        ((0 : Int), h, d, if d = 0 then w else f32 ⟨v - d, -149⟩, decide ((65504 : Int) * (2 ^ 149 : Nat) < v.natAbs))
      else if 0 < s then
        let n := max (-7) (min 7 (rneDiv v sU))
        let d := n * (sU : Int)
        (n, 0, d, if d = 0 then w else f32 ⟨v - d, -149⟩, false)
      else (0, 0, 0, w, false)
    let es := ((List.range x.length).zip (xi.zip x)).map (fun p => one p.1 p.2.1 p.2.2)
    let ns := es.map (·.1)
    let head := (nout + 1) * 2 ^ 14 + outs.getD 0 0 * 2 ^ 9 + outs.getD 1 0 * 2 ^ 4
    { bytes := le 2 head ++ le 2 s ++ packNibbles ns ++ outs.flatMap (fun i => le 2 (es.getD i (0, 0, 0, 0, false)).2.1)
      resid := es.map (fun e => e.2.2.2.1)
      dec := es.map (fun e => if e.2.1 = 0x8000 then 0x80000000 else f32 ⟨e.2.2.1, -149⟩)
      sat := es.any (fun e => e.2.2.2.2) || decide (7 * 65504 * 2 ^ 149 < mx) }

/-- The signed value of a 4-bit field. -/
def nibble (v : Nat) : Int := if v < 8 then v else (v : Int) - 16

/-- An FP16 value other than an infinity or a NaN, widened exactly to FP32; −0 keeps its sign (R137). -/
def widenF16 (h : Nat) : BitVec 32 := if h = 0x8000 then 0x80000000 else f32 ⟨int24 h, -24⟩

/-- Decode one delta block with a number of elements (R137, R141): FP32 values and bytes used; none when damaged. DESIGN CHOICE: an unused OUT0
or OUT1 that is not 0 and a head of KIND 0 other than 0x0000, which R136 gives as 0, count as damage too (assumption 69). -/
def decodeDelta (count : Nat) (b : Bytes) : Option (List (BitVec 32) × Nat) :=
  if b.length < 2 then none
  else
    let head := rd 0 2 b
    let kind := head / 16384
    let o0 := bits 13 9 head
    let o1 := bits 8 4 head
    if head % 16 ≠ 0 then none
    else if kind = 0 then (if head = 0 then some (List.replicate count 0, 2) else none)
    else
      let len := 20 + 2 * (kind - 1)
      if b.length < len then none
      else
        let s := rd 2 2 b
        let ns := (List.range 32).map (fun i => nibble (rd (4 + i / 2) 1 b / (if i % 2 = 0 then 1 else 16) % 16))
        let outs := if kind = 1 then [] else if kind = 2 then [o0] else [o0, o1]
        let ov := fun k => rd (20 + 2 * k) 2 b
        if 0x7C00 ≤ s ∨ (s = 0 ∧ ns.any (· != 0)) ∨ (kind = 1 ∧ s = 0) ∨ ns.any (· == -8) ∨ (kind = 3 ∧ o1 ≤ o0) ∨
            (kind = 1 ∧ (o0 ≠ 0 ∨ o1 ≠ 0)) ∨ (kind = 2 ∧ o1 ≠ 0) ∨ outs.any (fun i => decide (ns.getD i 0 ≠ 0 ∨ count ≤ i)) ∨
            (List.range outs.length).any (fun k => decide (31744 ≤ ov k % 32768)) ∨ (ns.drop count).any (· != 0) then none
        else
          let val := fun i =>
            match outs.findIdx? (· == i) with
            | some k => widenF16 (ov k)
            | none => f32 ⟨ns.getD i 0 * int24 s, -24⟩
          some ((List.range count).map val, len)

/-- Decode the blocks of n elements. Fuel is the number of blocks. -/
def decodeDeltas : Nat → Nat → Bytes → Option (List (BitVec 32) × Nat)
  | 0, n, _ => if n = 0 then some ([], 0) else none
  | f + 1, n, b =>
    if n = 0 then some ([], 0)
    else match decodeDelta (min 32 n) b with
    | none => none
    | some (v, u) => (decodeDeltas f (n - 32) (b.drop u)).map (fun r => (v ++ r.1, u + r.2))

/-- A delta run (R140). -/
def deltaRun (first elems : Nat) (blocks : Bytes) : Bytes :=
  let h := le 6 first ++ zeros 2 ++ le 4 elems ++ le 4 blocks.length ++ blocks
  padTo 8 (h ++ le 4 (crc32c h))

/-- Length of the run that starts a byte string. -/
def runLen (b : Bytes) : Nat := roundUp 8 (20 + rd 12 4 b)

/-- Read a run (R141): first index and values; none when damaged. DESIGN CHOICE: padding that is not zero, which R140 gives as 0, counts as damage
too (assumption 69). -/
def readRun (b : Bytes) : Option (Nat × List (BitVec 32)) :=
  let n := rd 8 4 b
  let k := rd 12 4 b
  if b.length < runLen b ∨ rd 6 2 b ≠ 0 ∨ n = 0 ∨ 16777216 < n ∨ rd (16 + k) 4 b ≠ crc32c (b.take (16 + k)) ∨
      !allZero (slice (20 + k) (runLen b - (20 + k)) b) then none
  else match decodeDeltas ((n + 31) / 32) n (slice 16 k b) with
    | some (v, u) => if u = k then some (rd 0 6 b, v) else none
    | none => none

/-- Every run of a byte string, with whether all are good. Fuel bounds the number of runs. -/
def readRuns : Nat → Bytes → Option (List (Nat × List (BitVec 32)))
  | 0, b => if b.isEmpty then some [] else none
  | f + 1, b =>
    if b.isEmpty then some []
    else match readRun b with
    | none => none
    | some r => (readRuns f (b.drop (runLen b))).map (r :: ·)

/-! ### LXP blocks (R60 to R63) -/

/-- Least number of bytes, at most 14, from which sign extension restores a value. Fuel counts the tries. -/
def lxpLen (v : Int) : Nat → Nat → Nat
  | 0, l => l
  | f + 1, l => if -(2 ^ (8 * l - 1) : Nat) ≤ v ∧ v < (2 ^ (8 * l - 1) : Nat) then l else lxpLen v f (l + 1)

/-- One element record (R61, R62). -/
def lxpElem (a : Acc) : Bytes :=
  let l := lxpLen a.val 13 1
  le 1 (a.flagBits * 16 + l) ++ le l (a.val % (2 ^ (8 * l) : Nat)).toNat

/-- An LXP block (R60). -/
def lxpBlock (tensor first epoch : Nat) (as : List Acc) : Bytes :=
  let e := as.flatMap lxpElem
  let h := le 2 as.length ++ le 2 e.length ++ le 6 first ++ le 2 tensor ++ le 2 epoch ++ zeros 2 ++ e
  padTo 8 (h ++ le 4 (crc32c h))

/-- Read element records (R61): none on a bad tag or a record that runs out. Fuel is the count. -/
def lxpElems : Nat → Bytes → Option (List Acc)
  | 0, b => if b.isEmpty then some [] else none
  | n + 1, b =>
    match b with
    | [] => none
    | tag :: r =>
      let l := tag.toNat % 16
      let f := tag.toNat / 16
      if l = 0 ∨ l = 15 ∨ r.length < l then none
      else
        let u := leNat (r.take l)
        let v : Int := if 2 ^ (8 * l - 1) ≤ u then (u : Int) - (2 ^ (8 * l) : Nat) else u
        if bit 3 f ∧ (v ≠ 0 ∨ f ≠ 8) then none
        else (lxpElems n (r.drop l)).map ({ val := v, nan := bit 0 f, pinf := bit 1 f, ninf := bit 2 f, allneg := bit 3 f } :: ·)

/-- Read an LXP block (R63) that should carry a tensor and start at an index: its accumulators and its length. -/
def readLxp (tensor first : Nat) (b : Bytes) : Option (List Acc × Nat) :=
  let n := rd 0 2 b
  let k := rd 2 2 b
  let len := roundUp 8 (20 + k)
  if n = 0 ∨ 256 < n ∨ b.length < len ∨ rd 14 2 b ≠ 0 ∨ rd 10 2 b ≠ tensor ∨ rd 4 6 b ≠ first ∨
      rd (16 + k) 4 b ≠ crc32c (b.take (16 + k)) ∨ !allZero (slice (20 + k) (len - (20 + k)) b) then none
  else (lxpElems n (slice 16 k b)).map (fun a => (a, len))

/-- Read consecutive LXP blocks that cover n elements. Fuel bounds their number. -/
def readLxps (tensor : Nat) : Nat → Nat → Nat → Bytes → Option (List Acc)
  | 0, _, n, _ => if n = 0 then some [] else none
  | f + 1, first, n, b =>
    if n = 0 then (if b.isEmpty then some [] else none)
    else match readLxp tensor first b with
    | none => none
    | some (a, len) => if n < a.length then none else (readLxps tensor f (first + a.length) (n - a.length) (b.drop len)).map (a ++ ·)

end Sys2Proof.Machine
end

