-- ==== Sys2Proof/Machine/Flushes.lean ====
section
/-!
DEFINITION. Calliope's flushes: the black-box slots, the buffer that goes to the partner, triggers and URGENT records (R434 to R437).
-/

namespace Sys2Proof.Machine

/-- The newest whole records of at most n bytes, given newest first; fuel is their number. -/
def newest : Nat → List Bytes → List Bytes
  | _, [] => []
  | n, r :: rs => if r.length ≤ n then newest (n - r.length) rs ++ [r] else []

/-- The slot that holds the newer valid image (R434). -/
def newerSlot (c : Cal) : Option Nat :=
  match c.slot0, c.slot1 with
  | some a, some b =>
    if a.good ∧ b.good then some (if a.flush < b.flush then 1 else 0)
    else if a.good then some 0
    else if b.good then some 1
    else none
  | some a, none => if a.good then some 0 else none
  | none, some b => if b.good then some 1 else none
  | none, none => none

/-- A slot's image. -/
def slotOf (c : Cal) (k : Nat) : Option Slot := if k = 0 then c.slot0 else c.slot1

/-- CAL_BBOX from the newer valid slot (R437). -/
def State.loadBbox (s : State) : State :=
  match (newerSlot s.cal).bind (slotOf s.cal) with
  | some sl =>
    (((s.wf oCalBbox 63 62 1).wf oCalBbox 61 56 sl.cause).wf oCalBbox 39 32 (sl.data.length / 1024)).wf oCalBbox 31 0 sl.flush
  | none => s.ww oCalBbox 0

/-- Chunks of whole records of at most 64 KiB, oldest first; the accumulator is the chunk being filled with its position. -/
def bankChunks : List Bytes → Nat → Nat → Bytes → List (Nat × Bytes)
  | [], start, _, cur => if cur.isEmpty then [] else [(start, cur)]
  | r :: rs, start, pos, cur =>
    if cur.length + r.length ≤ 65536 then bankChunks rs start (pos + r.length) (cur ++ r)
    else (start, cur) :: bankChunks rs pos (pos + r.length) r

/-- The stream that the buffer goes to the partner on (R435). -/
def bankStream : Nat := 0xFFFE

/-- A chunk as the payload of its DATA frames: what it says of its flush, then its records; the layout is the model's (assumption 6). -/
def chunkBytes (c : BankChunk) : Bytes :=
  le 4 c.src.toNat ++ le 1 c.cause.toNat ++ le 1 (b2n c.last) ++ zeros 2 ++ le 8 c.flush.toNat ++ le 8 c.step.toNat ++ le 8 c.time.toNat ++
    le 8 c.pos.toNat ++ c.data

/-- A chunk of the buffer for the partner. -/
def State.bankChunkOf (s : State) (cause pos : Nat) (step : Word) (data : Bytes) (last : Bool) : BankChunk :=
  { src := BitVec.ofNat 20 s.self, cause := BitVec.ofNat 8 cause, flush := BitVec.ofNat 64 s.cal.flushes, step := step,
    time := s.rw oTimeNow, pos := BitVec.ofNat 64 pos, data := data, last := last, stopped := false }

/-- Send the whole buffer to the partner in DATA frames, newest chunk first (R435). -/
def State.sendBank (s : State) (cause : Nat) (step : Word) : State :=
  let old := (s.rw oCalOldest).toNat
  let cs := (bankChunks s.cal.buf old old []).reverse
  let n := cs.length
  (cs.zipIdx).foldl (fun t c =>
    let k := s.bankChunkOf cause c.1.1 step c.1.2 (decide (c.2 + 1 = n))
    (t.emit (.bankChunk s.partner k)).streamOut 1 s.partner bankStream s.epochNow noOp 0 (chunkBytes k))
    { s with cal := { s.cal with sending := s.cal.sending ++ [(cause, (s.rw oCalWrite).toNat - old)] } }

/-- Start a flush (R434, R435): every record posted so far is taken in, the newest go into the slot that does not hold the
newer valid image, and a paired device with its mirror link up sends its buffer to the partner; `step` is the committed step at the trigger. -/
def State.startFlush (s : State) (cause : Nat) (step : Word) : State :=
  let s := s.drain
  let sel := newest 65536 s.cal.buf.reverse
  let n := allBytes sel
  let write := (s.rw oCalWrite).toNat
  let slot := match newerSlot s.cal with | some k => 1 - k | none => 0
  let pair := s.mirState == 1 || s.mirState == 2 || s.mirState == 4
  let f : Flush := { cause := cause, step := step, time := s.rw oTimeNow, slot := slot, firstPos := write - n,
                     endPos := write, data := sel.flatten, partner := pair && s.mirrorUp }
  let t := { s with cal := { s.cal with flush := some f } }
  let t := t.wf oCalBbox 63 62 2
  if f.partner then t.sendBank cause step else t

/-- A trigger (R434, R436): it starts a flush, or sets the one pending flush, with the committed step of the moment; a power-fail or reset-level
trigger takes over the cause of a pending one. -/
def State.trigger (s : State) (cause : Nat) : State :=
  match s.cal.flush, s.cal.pend with
  | none, none => s.startFlush cause (s.rw oCommitStep)
  | some _, none => { s with cal := { s.cal with pend := some cause, pendStep := s.rw oCommitStep } }
  | _, some _ => if cause = 6 ∨ cause = 7 then { s with cal := { s.cal with pend := some cause } } else s

/-- Post the URGENT record that reports an event and trigger the flush (R434). -/
def State.urgent (s : State) (cause src typ : Nat) (payload : Bytes) : State :=
  (s.enqueue true src typ s.stepNow payload).trigger cause

/-- The black-box write of the running flush ends: the slot holds its image, REC is set and FLUSHED posted (R433, R436). -/
def State.endFlush (s : State) : State :=
  match s.cal.flush with
  | none => s
  | some f =>
    let n := s.cal.flushes + 1
    let img : Slot := { src := s.self, cause := f.cause, flush := n, step := f.step, time := f.time, firstPos := f.firstPos,
                        data := f.data, good := true }
    let c := { s.cal with flush := none, flushes := n }
    let c := if f.slot = 0 then { c with slot0 := some img } else { c with slot1 := some img }
    let t := ({ s with cal := c }).loadBbox
    let t := t.post srcCal 4 (le 1 f.slot ++ le 1 f.cause ++ zeros 2 ++ le 4 f.data.length ++ le 8 f.endPos)
    t.raise 11

/-- The partner transmission that started first ends (R436). -/
def State.endSend (s : State) : State :=
  match s.cal.sending with
  | [] => s
  | (cause, n) :: rest =>
    let t := { s with cal := { s.cal with sending := rest } }
    t.post srcCal 4 (le 1 2 ++ le 1 cause ++ zeros 2 ++ le 4 n ++ le 8 (s.rw oCalWrite).toNat)

/-- The pending flush starts once no flush runs (R436). -/
def State.startPending (s : State) : State :=
  match s.cal.flush, s.cal.pend with
  | none, some c => ({ s with cal := { s.cal with pend := none } }).startFlush c s.cal.pendStep
  | _, _ => s

/-- Every partner transmission ends; fuel is their number. -/
def State.endSends : Nat → State → State
  | 0, s => s
  | n + 1, s => State.endSends n s.endSend

/-- Flush to the end: a running flush, a pending one, and the partner transmissions. A device reset is held until then
(R434, R436). -/
def State.flushOut (s : State) : State :=
  let t := (s.endFlush.startPending).endFlush
  State.endSends t.cal.sending.length t

end Sys2Proof.Machine
end

