-- ==== Sys2Proof/Machine/Homes.lean ====
section
/-!
DEFINITION. Where the training state of a device lies: the mirror region (R193), and the entries that the device holds, its own and those it
carries, with the addresses of their arrays (R172, R173, R418, R419).
-/

namespace Sys2Proof.Machine

/-! ### The mirror region (R193) -/

/-- Bytes of one entry in the mirror region: PMAS, PMOM, RECORD and the RULE 3 statistics, each from a 64-byte boundary
(R193). -/
def SEntry.mirBytes (e : SEntry) : Nat :=
  2 * up64 (4 * e.count) + 64 + if e.rule = 3 then up64 (4 * e.rows) + up64 (4 * e.rowLen) + 64 else 0
/-- Offset of an entry of the partner's map in the mirror region. -/
def mirOff (m : List SEntry) (i : Nat) : Nat := (m.take i).foldl (fun n e => n + e.mirBytes) 0
/-- Address of a shard's tag: the tag table follows the entries (assumption 19). -/
def Mirror.tagAddr (m : Mirror) (i k : Nat) : Nat :=
  m.region + mirOff m.map m.map.length + 32 * ((m.map.take i).foldl (fun n e => n + e.shards) 0 + k)
/-- Bytes of the mirror region with its tag table. -/
def Mirror.needs (m : List SEntry) : Nat := mirOff m m.length + 32 * m.foldl (fun n e => n + e.shards) 0

/-! ### The arrays of an entry -/

/-- The addresses of element 0 of an entry's arrays in one parity (R172, R173; for a carried entry R418, assumption 30). -/
structure Home where
  e : SEntry
  w : Nat
  mom : Nat
  mas : Nat
  rcd : Nat
  row : Nat
  col : Nat
  tot : Nat
  anchor : Nat
  omom : Nat
  resid : Nat
  deriving DecidableEq, Repr

/-- The device carries its lost partner's role. -/
def State.carrying (s : State) : Bool := s.mirState == 4

/-- The entries that the device holds: its own state map, then what it carries (R419). -/
def State.held (s : State) (p : Prog) : List SEntry := p.smap ++ (if s.carrying then s.mirror.map else [])

/-- Bytes of a carried entry in the reserve: master, moment, anchor, outer momentum, residual, RECORD, statistics
(assumption 30). -/
def SEntry.reserveBytes (e : SEntry) : Nat := 20 * e.count + 64 + e.statBytes
/-- Offset of a carried entry in the reserve. -/
def reserveOff (m : List SEntry) (j : Nat) : Nat := (m.take j).foldl (fun n e => n + e.reserveBytes) 0
/-- Offset of a carried entry in the scratch. -/
def scratchOff (m : List SEntry) (j : Nat) : Nat := (m.take j).foldl (fun n e => n + 2 * e.count) 0

/-- The mirror region's arrays of a partner entry (R193). -/
def Mirror.homeIn (m : Mirror) (j : Nat) (e : SEntry) : Home :=
  let b := m.region + mirOff m.map j
  let r := b + 2 * up64 (4 * e.count)
  let x := m.reserve + reserveOff m.map j
  { e := e, w := m.scratch + scratchOff m.map j, mom := b + up64 (4 * e.count), mas := b, rcd := r, row := r + 64,
    col := r + 64 + up64 (4 * e.rows), tot := r + 64 + up64 (4 * e.rows) + up64 (4 * e.rowLen),
    anchor := x + 8 * e.count, omom := x + 12 * e.count, resid := x + 16 * e.count }

/-- The reserve's arrays of a carried entry (R418, assumption 30). -/
def Mirror.homeOut (m : Mirror) (j : Nat) (e : SEntry) : Home :=
  let x := m.reserve + reserveOff m.map j
  let r := x + 20 * e.count
  { e := e, w := m.scratch + scratchOff m.map j, mom := x + 4 * e.count, mas := x, rcd := r, row := r + 64,
    col := r + 64 + 4 * e.rows, tot := r + 64 + 4 * e.rows + 4 * e.rowLen,
    anchor := x + 8 * e.count, omom := x + 12 * e.count, resid := x + 16 * e.count }

/-- An own entry's arrays (R172, R173). -/
def SEntry.home (e : SEntry) (par : Nat) : Home :=
  { e := e, w := e.wAddr par, mom := e.momAddr par, mas := e.masAddr par, rcd := e.recAddr, row := e.hbm + e.oRow par,
    col := e.hbm + e.oCol par, tot := e.hbm + e.oTot par, anchor := e.oneAddr 0, omom := e.oneAddr 1, resid := e.oneAddr 2 }

/-- The arrays of a held entry for a step number's parity (R175, R418). -/
def State.home (s : State) (p : Prog) (i step : Nat) : Option Home :=
  match p.smap[i]? with
  | some e => some (e.home (step % 2))
  | none =>
    if !s.carrying then none
    else (s.mirror.map[i - p.smap.length]?).map (fun e =>
      if step % 2 = s.mirror.carryParity then s.mirror.homeIn (i - p.smap.length) e
      else s.mirror.homeOut (i - p.smap.length) e)

/-- The source of a held entry's Strongman. -/
def SEntry.src (e : SEntry) : Nat := srcStrg e.strong

/-- What RECORD and the RULE 3 statistics of an entry write, from their bytes (R172, R194). -/
def Home.recordWrites (h : Home) (b : Bytes) : List (Nat × Bytes) :=
  (h.rcd, fit 64 b) ::
    (if h.e.rule = 3 ∧ 64 < b.length then
      [(h.row, slice 64 (4 * h.e.rows) b), (h.col, slice (64 + 4 * h.e.rows) (4 * h.e.rowLen) b),
       (h.tot, slice (64 + 4 * h.e.rows + 4 * h.e.rowLen) 4 b)]
    else [])

/-- The shard of a home's arrays that holds an address; RECORD and statistics count as shard 0 (assumption 20). -/
def Home.shardAt (h : Home) (a : Nat) : Option Nat :=
  let hit := fun (base w : Nat) => if base ≤ a ∧ a < base + w * h.e.count then some ((a - base) / w / 65536) else none
  let own := if h.rcd ≤ a ∧ a < (if h.e.rule = 3 then h.tot + 4 else h.rcd + 64) then some 0 else none
  [hit h.w 2, hit h.mom 4, hit h.mas 4, hit h.anchor 4, hit h.omom 4, hit h.resid 4, own].findSome? id

/-- The carried shard whose committed slot or single-copy array holds an address: mirror region, reserve and SCRATCH of the carried entries are held
ranges (R397, R419). -/
def State.carriedAt (s : State) (p : Prog) (a : Nat) : Option (Nat × Nat) :=
  if s.carrying then
    (s.mirror.map.zipIdx).findSome? (fun x =>
      ((s.home p (p.smap.length + x.2) s.committed).bind (fun h => h.shardAt a)).map (fun k => (p.smap.length + x.2, k)))
  else none

end Sys2Proof.Machine
end

