-- ==== Sys2Proof/Machine/Recovery.lean ====
section
/-!
DEFINITION. How a step ends without a commit, and how units leave service: error records, vetoes (R190), abandoned steps
and rewinds (R411), core and cluster resets (R110, R408), fencing (R106, R408).
-/

namespace Sys2Proof.Machine

/-- The 16-byte POWER payload (R466). -/
def powerRec (event level cause unit value : Nat) : Bytes :=
  le 1 event ++ le 1 level ++ le 1 cause ++ zeros 1 ++ le 4 unit ++ le 8 value

/-- Post a POWER record; events 1, 3, 5 and 8 raise POWER (R466). -/
def State.power (s : State) (event unit value : Nat) : State :=
  let t := s.post srcTight 0x0701 (powerRec event (s.rf oPwrStatus 63 60) (s.rf oPwrStatus 59 57) unit value)
  if event = 1 ∨ event = 3 ∨ event = 5 ∨ event = 8 then t.raise 9 else t

/-- Post a LINK record (R428); a fault or a loss is a link error record and raises FAULT (R367). -/
def State.linkRec (s : State) (src kind port event cause detail : Nat) : State :=
  let t := s.post src 0x0301 (le 1 kind ++ le 1 port ++ le 1 event ++ le 1 cause ++ zeros 4 ++ le 8 detail)
  if event = 1 ∨ event = 3 then t.raise 7 else t

/-- Post a HOST record (R428). -/
def State.hostRec (s : State) (src event off value : Nat) : State :=
  s.post src 0x0802 (le 1 event ++ zeros 3 ++ le 4 off ++ le 8 value)

/-- Post a PAIR record (R428) and raise PAIR. -/
def State.pairRec (s : State) (event : Nat) : State :=
  (s.post srcRm 0x0501 (le 1 event ++ le 1 s.mirState ++ zeros 2 ++ le 4 s.partner ++ le 8 s.committed)).raise 6

/-- Post a DECISION record (R328). -/
def State.decision (s : State) (step kind : Nat) (content : Bytes) : State :=
  s.postAt srcRm 0x0204 step (le 1 kind ++ zeros 7 ++ content)

/-- Post a ROUND record (R428); a seal, DROPPED, STORE_FULL, ROUND_STUCK and ARCHIVE_FULL raise ROUND (R367). -/
def State.roundRec (s : State) (round event value : Nat) : State :=
  let t := s.post srcRm 0x0206 (le 8 round ++ le 1 event ++ zeros 7 ++ le 8 value)
  if event = 2 ∨ (4 ≤ event ∧ event ≤ 7) then t.raise 5 else t

/-- Post a FIRMWARE record (R428). -/
def State.fwRec (s : State) (event reason : Nat) : State :=
  s.post srcRm 0x0801 (le 1 event ++ le 1 reason ++ zeros 2 ++ le 4 (s.rf oSecStatus 31 24) ++ le 8 s.committed)

/-- Post a KEY record (R428); REKEY_DUE and KEY_LIMIT raise ROUND (R367). -/
def State.keyRec (s : State) (event dir epoch site peer frames : Nat) : State :=
  let t := s.post srcSec 0x0207 (le 1 event ++ le 1 dir ++ le 1 epoch ++ le 1 site ++ le 4 peer ++ le 8 frames)
  if event = 3 ∨ event = 4 then t.raise 5 else t

/-! ### The work of a step -/

/-- The clusters that the running variant names. -/
def State.stepClusters (s : State) : List Nat :=
  match s.job.prog with
  | some p => p.clusters s.job.variant
  | none => []

/-- A cluster's own state. -/
def State.clu (s : State) (g : Nat) : Clu := SMap.get s.clus g {}
/-- Put a cluster's state. -/
def State.setClu (s : State) (g : Nat) (c : Clu) : State := { s with clus := SMap.set s.clus g c }
/-- A core's own state. -/
def State.core (s : State) (c : Nat) : Core := SMap.get s.cores c {}
/-- Put a core's state. -/
def State.setCore (s : State) (c : Nat) (x : Core) : State := { s with cores := SMap.set s.cores c x }

/-- Stop every context of a cluster that has work: it reads 6, its queued descriptors are gone (R150, R153). -/
def State.stopCluster (s : State) (g : Nat) : State :=
  let c := s.clu g
  let t := s.setClu g { c with queues := [], serving := [] }
  (List.range 8).foldl (fun t k => if t.ctxState g k ∈ [1, 2, 3] then t.setCtx g k 6 else t) t

/-- Stop every context of the step. -/
def State.stopStep (s : State) : State := s.stepClusters.foldl State.stopCluster s

/-- What the Strongmen hold of an attempt goes. In two-phase mode, once the phase-one record has passed, a rewind keeps the parked gradients, the
norm, the shards done with their acknowledgements, and a complete journal buffer (R184, R411); `keepPhase` says so. -/
def Strg.dropped (g : Strg) (keepPhase : Bool) : Strg :=
  let base : Strg := {
    restream := g.restream, vetoed := g.vetoed, merged := g.merged, query := g.query, writeback := g.writeback, unreadable := g.unreadable, closeDue := g.closeDue, digC := g.digC }
  let kept : Strg := { base with
    sumSq := g.sumSq, rowSq := g.rowSq, r3 := g.r3, r3mine := g.r3mine, gfp := g.gfp, wfp := g.wfp, norm2 := g.norm2,
    phaseOne := true, latest := g.latest, parked := g.parked, p1norm := g.p1norm, done := g.done, outerDone := g.outerDone,
    mirrored := g.mirrored.filter (fun x => g.acked.contains x), acked := g.acked, touched := g.touched, digN := g.digN }
  if keepPhase && g.phaseOne then kept else base

/-- What the Strongmen, the Juggler, the engines and the queues hold of an attempt goes (R184, R190, R411). -/
def State.dropAttempt (s : State) (keepPhase : Bool) : State :=
  { s with strg := s.strg.dropped keepPhase, jug := { newEpochCommit := s.jug.newEpochCommit, discarded := s.jug.discarded }, qs := [] }

/-- GFP and WFP as lists over the programme's layers. -/
def fpList (l : Nat) (m : SMap Word) : List Word := (List.range l).map (fun i => SMap.get m i 0)
/-- An LX32 accumulator as an 80-byte slot. -/
def accBytes (a : Acc) : Bytes := lx32Bytes a

/-- Complete the STEP command of a running or queued step (R190, R241, R411). -/
def State.doneSteps (s : State) (js : List StepJob) (status : Nat) : State :=
  js.foldl (fun t j => t.doneTag j.tag status) s

/-- A REPLAY record (R428); a divergence, REPLAY_WAIT and the end of replay mode raise REPLAY (R367). -/
def State.replayRec (s : State) (event kinds : Nat) (gfp wfp : Bytes) : State :=
  let t := s.post srcRm 0x0205 (le 1 event ++ le 1 kinds ++ zeros 6 ++ fit 32 gfp ++ fit 32 wfp)
  if event = 2 then t else t.raise 4

/-- A divergence: its record and COUNT; the first one sets DIV_KIND, DIV_LAYER and STRG_REPLAY_DIV; STOP ends the queued steps and
reads as stopped (R333, R334). `kinds` has bit k − 1 for kind k. -/
def State.diverge (s : State) (step kinds : Nat) (gfp wfp : Bytes) : State :=
  let t := (s.replayRec 1 kinds gfp wfp).satAdd oReplay 31 0 1
  let kind := ((List.range 8).find? (fun k => bit k kinds)).getD 0 + 1
  let layer := if kind = 3 ∨ kind = 4 then ((List.range 256).find? (fun l => bit l (leNat gfp) || bit l (leNat wfp))).getD 0 else 0
  let t := if s.job.diverged then t
    else ((t.wf oReplay 55 48 kind).wf oReplay 47 32 layer).ww oReplayDiv (BitVec.ofNat 64 step)
  let t := { t with job := { t.job with diverged := true } }
  if s.replay.cont then t
  else
    let u := (t.doneSteps t.job.queue 0x0208).wf oReplay 63 62 2
    { u with job := { u.job with queue := [] } }

/-- Logged vetoes that follow from the data (R331): NONFINITE, ABS_BOUND, BLOCK_NORM, COLD_ROW, STAGE_FULL. -/
def dataVeto (kind : Nat) : Bool := decide (1 ≤ kind) && decide (kind ≤ 5)

/-- The logged counterpart of an attempt: the same step and DESC_HASH; among several, one that no fault vetoed (R331). -/
def State.counterpart (s : State) (n : Nat) (hash : Bytes) : Option LogStep :=
  let l := s.replay.steps.filter (fun x => x.n.toNat == n && slice 32 32 x.payload == hash)
  (l.find? (fun x => rd 1 1 x.payload == 0 || dataVeto (rd 2 1 x.payload))).orElse (fun _ => l.head?)

/-- The map of layers whose 8-byte values differ. -/
def layerMap (l : Nat) (a b : Bytes) : Bytes :=
  le 32 ((List.range l).foldl (fun (m : Nat) i => if slice (8 * i) 8 a = slice (8 * i) 8 b then m else m + 2 ^ i) 0)

/-- Replay mode compares a new step record and its fingerprints with the logged counterpart (R333). A veto by a fault of the replaying
installation is not compared (R331), and the fingerprints of attempts of which either was vetoed are not (R327). -/
def State.replayCheck (s : State) (n l : Nat) (body gfp wfp : Bytes) : State :=
  let kind := rd 2 1 body
  if !s.replay.on ∨ (rd 1 1 body = 1 ∧ !dataVeto kind) then s
  else
  let imp := 64 * b2n (s.replay.bad.contains (BitVec.ofNat 64 n))
  match s.counterpart n (slice 32 32 body) with
  | none => s.diverge n (1 + imp) [] []
  | some x =>
    let out := b2n (slice 1 2 x.payload != slice 1 2 body)
    let vet := rd 1 1 body == 1 || rd 1 1 x.payload == 1
    let skip := rd 3 1 body == 1 && slice 64 32 body != slice 64 32 x.payload
    let g := if vet || skip then [] else layerMap l gfp x.gfp
    let w := if vet || skip then [] else layerMap l wfp x.wfp
    let d := fun (o k : Nat) => b2n (slice o k x.payload != slice o k body)
    let kinds := 2 * out + 4 * b2n (!allZero g) + 8 * b2n (!allZero w) + (if skip then 0 else 16 * d 96 80) + 32 * d 176 32 + imp
    let t := if skip then s.replayRec 2 0 [] [] else s
    if kinds = 0 then t else t.diverge n kinds g w

/-- The time that the Strongmen of an attempt have held, with a hold that is under way (R192, R326). -/
def State.heldNs (s : State) (j : StepJob) : Word :=
  match s.strg.holdFrom with
  | some t => j.holdNs + (s.rw oTimeNow - t)
  | none => j.holdNs

/-- The step record and the two fingerprint records of an attempt that ends in a commit or a veto (R326, R327), which replay mode
compares (R333). -/
def State.stepRecords (s : State) (p : Prog) (j : StepJob) (vetoKind : Nat) (norm : Bytes) (gfp wfp : List Word)
    (delta : Bytes) : State :=
  let body := le 1 j.attempt ++ le 1 (if vetoKind = 0 then 0 else 1) ++ le 1 vetoKind ++ le 1 (dMode j.desc) ++ le 2 p.epoch ++
    le 1 1 ++ le 1 s.job.variant ++ le 2 p.layers ++ le 2 (b2n s.replay.on + 2 * b2n p.twoPhase) ++ zeros 4 ++
    le 8 (s.heldNs j).toNat ++ le 8 j.releaseNs.toNat ++ sha3 j.desc ++ fit 32 p.hash ++ fit 80 norm ++ fit 32 delta
  let fp := fun (k : Nat) (l : List Word) => le 1 k ++ zeros 3 ++ le 2 0 ++ le 2 l.length ++ le64s l
  let t := s.postAt srcRm 0x0201 j.n.toNat body
  let t := (t.postAt srcRm 0x0202 j.n.toNat (fp 0 gfp)).postAt srcRm 0x0202 j.n.toNat (fp 1 wfp)
  t.replayCheck j.n.toNat p.layers body (le64s gfp) (le64s wfp)

/-- A veto (R190). `kind` is what the frame and the records carry, `last` what STRG_COMMIT_STATE.LAST_VETO takes, `src` the
detecting device; the fingerprint records carry the totals as merged at the veto (R327). From PHASE 2 on nothing stops the flip (R189); without a running step, or in an abandoned one, there is
nothing to veto. The policy comes from the programme; under skip, what the attempt had mirrored is streamed again, and a protected pair is
synchronising until that is done (R195, R414). -/
def State.vetoWith (s : State) (kind last : Nat) (src tensor param : Nat) (gfp wfp : List Word) : State :=
  match s.job.running, s.job.prog with
  | some j, some p =>
    if s.phase = 2 ∨ s.rf oRstJob 61 61 = 1 then s
    else
      let again := if p.vetoHalt ∨ ¬(s.mirState = 1 ∨ s.mirState = 2) then [] else s.strg.mirrored
      let t := s.stopStep
      let t := if src = s.self then t.tellGroup (.veto (BitVec.ofNat 8 kind) j.n) else t
      let t := (t.wf oCommitState 47 40 last).wf oCommitState 1 0 0
      let t := t.postAt srcRm 0x0203 j.n.toNat (le 1 kind ++ zeros 1 ++ le 2 tensor ++ le 4 src ++ le 8 param)
      let t := t.stepRecords p j kind (accBytes {}) gfp wfp []
      let t := t.decision j.n.toNat 3 (le 8 j.n.toNat ++ le 1 kind ++ le 1 (b2n p.vetoHalt))
      let t := (t.raise 3).doneSteps (j :: s.job.queue) 0x0205
      let t := t.dropAttempt false
      let t := if again ≠ [] ∧ t.mirState = 2 then ((t.wf oCommitState 7 7 0).wf oMir 63 61 1).pairRec 3 else t
      ({ t with
        job := { t.job with running := none, queue := [] }
        strg := { t.strg with restream := t.strg.restream ++ again.filter (fun x => !t.strg.restream.contains x)
                              vetoed := t.strg.vetoed ++ again.filter (fun x => !t.strg.vetoed.contains x) } }).portsCarry
  | _, _ => s

/-- A veto with the totals as merged so far: those of the attempt's latest merged record, and before any has merged this device's own
(R190, R327). -/
def State.vetoFrom (s : State) (kind last : Nat) (src tensor param : Nat) : State :=
  match s.job.prog, s.strg.latest with
  | some p, some r => s.vetoWith kind last src tensor param (r.gfp.take p.layers) (r.wfp.take p.layers)
  | some p, none => s.vetoWith kind last src tensor param (fpList p.layers s.strg.gfp) (fpList p.layers s.strg.wfp)
  | none, _ => s

/-- A veto that this device detects (R190). In a suspect replay errors veto nothing (R402). -/
def State.veto (s : State) (kind tensor param : Nat) : State :=
  if s.inSuspect then s else s.vetoFrom kind kind s.self tensor param

/-- Post an ENGINE_ERROR record (R428) and veto the step with ENGINE; context, SRAM and memory errors raise FAULT
(R367). -/
def State.engineError (s : State) (src kind ctx port tag addr detail : Nat) : State :=
  let t := s.post src 0x0103 (le 1 kind ++ le 1 ctx ++ le 1 port ++ zeros 1 ++ le 2 tag ++ le 2 s.tagNow ++ le 8 addr ++
    le 8 detail)
  let t := if kind = 1 ∨ kind = 2 ∨ kind = 4 then t.raise 7 else t
  t.veto 7 0 0

/-! ### Memory that no longer reads (R397) -/

/-- The shard of an entry whose committed slot or single-copy array holds an address; RECORD and statistics count as shard 0
(assumption 20). -/
def SEntry.shardAt (e : SEntry) (par a : Nat) : Option Nat :=
  let hit := fun (base w : Nat) => if base ≤ a ∧ a < base + w * e.count then some ((a - base) / w / 65536) else none
  let own := if e.recAddr ≤ a ∧ a < e.hbm + e.hbmBytes then some 0 else none
  [hit (e.wAddr par) 2, hit (e.momAddr par) 4, hit (e.masAddr par) 4, hit (e.oneAddr 0) 4, hit (e.oneAddr 1) 4,
   hit (e.oneAddr 2) 4, own].findSome? id

/-- The shard of the mirror region that holds an address (R397). -/
def Mirror.shardAt (m : Mirror) (a : Nat) : Option (Nat × Nat) :=
  (m.map.zipIdx).findSome? (fun x =>
    let b := m.region + mirOff m.map x.2
    if a < b ∨ b + x.1.mirBytes ≤ a then none
    else
      let o := (a - b) % up64 (4 * x.1.count)
      some (x.2, if a < b + 2 * up64 (4 * x.1.count) then min (o / 4 / 65536) (x.1.shards - 1) else x.1.shards - 1))

/-- An uncorrectable word of HBM or DDR5: a shard that holds it in a committed slot or single-copy array becomes unreadable,
and a mirrored shard loses its VALID byte and is asked for again; MIRROR_VALID reads 0 and a protected pair is synchronising
(R397, R414). What a device in CARRYING carries is held like its own ranges (R419). -/
def State.markUnreadable (s : State) (a : Nat) : State :=
  let m := s.mirror
  match (if m.regionBytes = 0 ∨ s.carrying then none else m.shardAt a) with
  | some (i, k) =>
    let t := (s.put (m.tagAddr i k + 18) [0]).wf oCommitState 7 7 0
    let t := if s.mirState = 2 then (t.wf oMir 63 61 1).pairRec 3 else t
    if s.mirState = 1 ∨ s.mirState = 2 then
      t.tell s.partner (.mirrorAck i k (BitVec.ofNat 64 (leNat (s.peek (m.tagAddr i k) 8))) false)
    else t
  | none =>
    match s.job.prog with
    | none => s
    | some p =>
      match ((p.smap.zipIdx).findSome? (fun x => (x.1.shardAt (s.committed % 2) a).map (fun k => (x.2, k)))).orElse (fun _ => s.carriedAt p a) with
      | some x => if s.strg.unreadable.contains x then s else { s with strg := { s.strg with unreadable := s.strg.unreadable ++ [x] } }
      | none => s

/-- A memory access that failed: its record and the veto. An SRAM error also counts in CLU_SRAM_ECC (R145); an HBM or
DDR5 error marks the shard it lies in (R397); an error answer of the host is told once (R358). -/
def State.memError (s : State) (src ctx port tag : Nat) (e : MemErr) : State :=
  let s := if e.kind = 2 then
      (match s.area e.addr with
        | .clu g o => (s.satAdd (oSramEcc g) 39 32 1).wf (oSramEcc g) 63 40 o
        | _ => s)
    else if e.kind = 4 ∧ e.detail = 0 then s.markUnreadable e.addr
    else if e.kind = 4 then { s with bad := s.bad.filter (· != e.addr) }
    else s
  let addr := match s.area e.addr with | .clu _ o => if e.kind = 2 then o else e.addr | _ => e.addr
  s.engineError src e.kind ctx port tag addr e.detail

/-- What a device engine writes beside a descriptor's results: a partial write to an uncorrectable codeword is not applied, and the engine reports the
memory error (R361, R396). -/
def State.putBy (s : State) (src a : Nat) (b : Bytes) : State :=
  match s.store a b with
  | (t, none) => t
  | (t, some e) => t.memError src 0xFF 0xFF 0 e

/-- The cluster SRAM port that the record of a failed access of a cluster's unit names: the unit's own for its cluster's SRAM, the Midway
stop for the SRAM of another cluster, and none for what does not go through one (R143, R428, assumption 15). -/
def State.sramPort (s : State) (g port a : Nat) : Nat :=
  match s.area a with
  | .clu x _ => if x = g then port else 47
  | _ => 0xFF

/-- Post a BLOCK_ERROR record (R428) and raise FAULT. -/
def State.blockRec (s : State) (src kind tensor tag block addr : Nat) : State :=
  (s.post src 0x0101 (le 1 kind ++ zeros 1 ++ le 2 tensor ++ le 2 tag ++ le 2 s.tagNow ++ le 4 block ++ zeros 4 ++ le 8 addr)).raise 7

/-- Post a BLOCK_ERROR record (R428), raise FAULT and veto with ENGINE. -/
def State.blockError (s : State) (src kind tensor tag block addr : Nat) : State :=
  (s.blockRec src kind tensor tag block addr).veto 7 tensor 0

/-- A block error in a cluster: CLU_BLK_ERR and the record (R130, R134). -/
def State.cluBlockRec (s : State) (src g kind tensor tag block addr : Nat) : State :=
  let t := ((s.wf (oBlkErr g) 63 56 kind).wf (oBlkErr g) 55 40 tensor).wf (oBlkErr g) 31 0 block
  (t.satAdd (oBlkErr g) 39 32 1).blockRec src kind tensor tag block addr

/-- Post a RESIDUE_ERROR record (R428), raise FAULT and veto with ENGINE. -/
def State.residueError (s : State) (src core unit tag cycle : Nat) : State :=
  let t := s.post src 0x0102 (le 4 core ++ le 1 unit ++ zeros 1 ++ le 2 tag ++ le 2 s.tagNow ++ zeros 2 ++ le 4 cycle)
  (t.raise 7).veto 7 0 0

/-! ### Abandoning a step (R411) -/

/-- REWIND_NEEDED: the record with its flush, RST_JOB.NEEDED and CAUSE, the interrupt and the code (R411, R412, R434). -/
def State.needRewind (s : State) (cause : Nat) : State :=
  let t := (s.wf oRstJob 61 61 1).wf oRstJob 60 56 cause
  let a := match s.job.running with | some j => j.attempt | none => 0
  let t := t.urgent 1 srcRm 0x0502 (le 1 1 ++ le 1 cause ++ le 1 a ++ zeros 5 ++ le 8 t.stepNow)
  (t.raise 7).ibi 1

/-- The device abandons its running step: its contexts stop and it waits for the rewind. A flip under way goes on (R189);
a device that waits already is left as it is. -/
def State.abandon (s : State) (cause : Nat) : State :=
  match s.job.running with
  | none => s
  | some _ =>
    if s.rf oRstJob 61 61 = 1 ∨ s.phase = 2 then s
    else s.stopStep.needRewind cause

/-! ### Resets of cores and clusters (R110, R408, R464) -/

/-- Whether the running step uses a core. -/
def State.usesCore (s : State) (c : Nat) : Bool :=
  match s.job.running, s.job.prog with
  | some _, some p => p.ctxE.any (fun e => e.variant == s.job.variant && e.cluster == c / 40 && bit (c % 40) e.cores)
  | _, _ => false

/-- Whether the running step uses a cluster. -/
def State.usesCluster (s : State) (g : Nat) : Bool :=
  match s.job.running with
  | some _ => s.stepClusters.contains g
  | none => false

/-- A core returns to its cleared state: tally store, operand buffer, both Carousel sets, snapshot, issue queue; the
instruction in progress is discarded without a completion (R110, R464). Its count of residue errors stays. -/
def State.clearCore (s : State) (c : Nat) : State :=
  let x := s.core c
  let u := c % 40
  let k := s.clu (c / 40)
  let t := s.clear (coreAddr c 0) 0x10000
  let t := t.setCore c { resErrs := x.resErrs, testDue := x.testDue }
  t.setClu (c / 40) { k with queues := k.queues.filter (fun q => decide (q.1 / 8 ≠ u)), serving := SMap.erase k.serving u }

/-- RST_STATUS of a core or cluster reset, which has not escalated yet and may (R408, R424). -/
def State.resetStatus (s : State) (core : Bool) (n : Nat) : State :=
  let t := ((s.wf oRstStatus 63 60 (if core then 1 else 2)).wf oRstStatus 16 0 n).wf oRstStatus 59 59 0
  { t with pwr := { t.pwr with resets := t.pwr.resets.filter (· != (core, n)) ++ [(core, n)] } }

/-- A core reset: the core is cleared, and a running step that it touches is abandoned (R110, R408). -/
def State.resetCore (s : State) (c : Nat) : State :=
  let t := (s.clearCore c).resetStatus true c
  if s.usesCore c then t.abandon 3 else t

/-- A cluster loses everything that a cluster reset clears: its cores, its SRAM, its CLU and VOL registers, its counters,
context positions and queues (R110, R464). -/
def State.clearCluster (s : State) (g : Nat) : State :=
  let t := (List.range 40).foldl (fun t i => t.clearCore (g * 40 + i)) s
  let t := t.clear (cluAddr g 0) 0x400000
  let c := t.clu g
  let t := t.setClu g { power := c.power, halved := c.halved, dipHold := c.dipHold }
  { t with regs := resetRegs (inCluster g) (fun r => r == .clu || r == .vol) t.regs }

/-- A cluster reset; a running step that it touches is abandoned (R408). -/
def State.resetCluster (s : State) (g : Nat) : State :=
  let s := if s.usesCluster g then s.abandon 3 else s
  (s.clearCluster g).resetStatus false g

/-! ### Fencing (R106, R408, R412, R434) -/

/-- Whether a cluster is fenced. -/
def State.cluFenced (s : State) (g : Nat) : Bool := s.rf (oCluFence (g / 250) (g % 250 / 64)) (g % 250 % 64) (g % 250 % 64) == 1
/-- Whether a core is fenced. -/
def State.coreFenced (s : State) (c : Nat) : Bool := s.rf (oCoreFence (c / 40)) (c % 40) (c % 40) == 1

/-- Post a FENCE record with its flush, the interrupt and the code (R412, R434). -/
def State.fenceRec (s : State) (event unit code : Nat) : State :=
  ((s.urgent 2 srcRm 0x0503 (le 1 event ++ zeros 3 ++ le 4 unit ++ zeros 8)).raise 7).ibi code

/-- Fence a core: its bit in CORE_FENCE, one core fewer in service, the record (R106). -/
def State.fenceCore (s : State) (c : Nat) : State :=
  if s.coreFenced c then s
  else
    let r := c / 10000
    let t := s.wf (oCoreFence (c / 40)) (c % 40) (c % 40) 1
    let t := t.wf (oCoreCount r) 13 0 (t.rf (oCoreCount r) 13 0 - 1)
    t.fenceRec 1 c 3

/-- PWR_STATE 0 completes once its rings are awake and their clusters admitted; doze exit is recorded for each (R460, R466). -/
def State.wakeCheck (s : State) : State :=
  let p := s.pwr
  match p.wakeTag with
  | none => s
  | some tag =>
    if p.wakeLeft ≠ [] ∨ p.wakeRings.any (fun r => if r = 8 then s.rf oPwrStatus 54 52 ≠ 0 else s.rf oPwrStatus (44 + r) (44 + r) = 1) then s
    else
      let us := (s.now - p.wakeNs.toNat) / 1000
      let t := { s with pwr := { p with wakeTag := none, wakeRings := [] } }
      (p.wakeRings.foldl (fun t r => t.power 10 (if r = 8 then 0xFFFFFFFF else r) us) t).doneTag tag 0

/-- Fence a cluster: its power goes off, its bit in RING_CLU_FENCE and every bit of its CORE_FENCE are set, its cores
leave service, a running step that names it is abandoned, and no wake waits for it any more (R408, R460). Cores fenced before are not counted twice
(assumption 12). -/
def State.fenceCluster (s : State) (g : Nat) : State :=
  if s.cluFenced g then s
  else
    let r := g / 250
    let before := ((List.range 40).filter (fun i => s.coreFenced (g * 40 + i))).length
    let s := if s.usesCluster g then s.abandon 3 else s
    let t := s.clearCluster g
    let t := t.wf (oCluFence r (g % 250 / 64)) (g % 250 % 64) (g % 250 % 64) 1
    let t := t.wf (oCoreFence g) 39 0 (2 ^ 40 - 1)
    let t := t.wf (oCoreCount r) 13 0 (t.rf (oCoreCount r) 13 0 - (40 - before))
    let t := { t with pwr := { t.pwr with wakes := t.pwr.wakes.filter (· != g), wakeLeft := t.pwr.wakeLeft.filter (· != g) } }
    (t.fenceRec 2 g 3).wakeCheck

/-- Whether a programme names a fenced unit: a cluster of its act tables, or a core of its context tables (R106, R408). -/
def State.namesFenced (s : State) (p : Prog) : Bool :=
  p.allClusters.any s.cluFenced ||
  p.ctxE.any (fun e => (List.range 40).any (fun i => bit i e.cores && s.coreFenced (e.cluster * 40 + i)))

/-! ### Counters (R148) -/

/-- Whether a cluster is in nap, waits to wake or wakes: what is addressed to it waits at its router stop (R456, R457). -/
def State.napped (s : State) (g : Nat) : Bool := decide (3 ≤ (s.clu g).power) && decide ((s.clu g).power ≤ 5)

/-- An access waits at a cluster's router stop (R457). -/
def State.holdAt (s : State) (g : Nat) (x : Waiting) : State := s.setClu g { s.clu g with stop := (s.clu g).stop ++ [x] }

/-- An add that arrives at an event counter: it saturates, and an add that would pass the maximum posts a
counter-overflow record (R148). At a napping cluster it waits (R457). -/
def State.addCounter (s : State) (g ctr n : Nat) : State :=
  if s.napped g then s.holdAt g (.count ctr n)
  else
  let c := s.clu g
  let v := SMap.get c.counters ctr 0 + n
  let t := s.setClu g { c with counters := SMap.set c.counters ctr (min v 0xFFFFFFFF) }
  if v ≤ 0xFFFFFFFF then t
  else
    t.post (srcClu g 0) 0x0103 (le 1 5 ++ le 1 0xFF ++ le 1 0xFF ++ zeros 1 ++ le 2 0 ++ le 2 t.tagNow ++ le 8 ctr ++ le 8 0)

/-- An add to a counter of this or another cluster: at once in the same cluster, over the Midway to another, where it
arrives as COUNTER_ADD. In a suspect replay, adds to other clusters are dropped (R147, R148, R402). -/
def State.signalTo (s : State) (own g ctr n : Nat) : State :=
  if g = own ∨ g = 0xFFFF then s.addCounter own ctr n
  else if s.inSuspect then s
  else s.emit (.counter g ctr n)

/-- An entry of the plan signals: SIG_ADD is added to its counter (R270). -/
def State.planSignal (s : State) (o : PlanOp) : State :=
  if o.sigClu = 0xFFFF then s else s.addCounter o.sigClu o.sigCtr o.sigAdd

end Sys2Proof.Machine
end

