-- ==== Sys2Proof/Machine/Sfu.lean ====
section
/-!
DEFINITION. The special functions of R66 and R67: the exact result rounded once, to nearest with ties to even. Reciprocal
and reciprocal square root are rounded exactly. The transcendental functions are enclosed in an interval of exact numbers
at rising precision until both ends round alike; no finite input has been found that needs more, and one that did would
take the free value Config.sfuUndecided (assumption 4).
-/

namespace Sys2Proof.Machine

/-- The function numbers of R161. -/
inductive SfuFn where
  | exp | log | recip | rsqrt | tanh | erf
  deriving DecidableEq, Repr

/-- FUNC of R161. -/
def sfuFn : Nat → SfuFn
  | 0 => .exp
  | 1 => .log
  | 2 => .recip
  | 3 => .rsqrt
  | 4 => .tanh
  | _ => .erf

/-- The number of a function. -/
def SfuFn.num : SfuFn → Nat
  | .exp => 0
  | .log => 1
  | .recip => 2
  | .rsqrt => 3
  | .tanh => 4
  | .erf => 5

/-! ### Fixed-point series at precision P: integers in units of 2^-P -/

/-- Σ z^(2k+1) / (2k+1) scaled, from term t = z^(2k+1) and step z² (atanh series). -/
def atanhGo (P : Nat) (z2 : Int) : Nat → Nat → Int → Int → Int
  | 0, _, _, s => s
  | f + 1, k, t, s => atanhGo P z2 f (k + 2) (t * z2 / (2 ^ P : Nat)) (s + t / k)

/-- atanh(z) for z in units of 2^-P, |z| at most 1/3. -/
def atanhFx (P : Nat) (z : Int) : Int := atanhGo P (z * z / (2 ^ P : Nat)) (P / 3 + 4) 1 z 0

/-- ln 2 = 2 atanh(1/3). -/
def ln2Fx (P : Nat) : Int := 2 * atanhFx P ((2 ^ P : Nat) / 3)

/-- The Taylor series of the exponential. -/
def expGo (P : Nat) (x : Int) : Nat → Nat → Int → Int → Int
  | 0, _, _, s => s
  | f + 1, k, t, s => expGo P x f (k + 1) (t * x / ((k : Int) * (2 ^ P : Nat))) (s + t)

/-- exp(x) for x in units of 2^-P, |x| at most 1. -/
def expFx (P : Nat) (x : Int) : Int := expGo P x (P / 2 + 8) 1 (2 ^ P : Nat) 0

/-- Σ (−1)^k y^k / (k! (2k+1)) for the error function. -/
def erfGo (P : Nat) (y : Int) : Nat → Nat → Int → Int → Int
  | 0, _, _, s => s
  | f + 1, k, t, s => erfGo P y f (k + 1) (-(t * y) / (((k : Int) + 1) * (2 ^ P : Nat))) (s + t / (2 * k + 1))

/-- Σ (−1)^k / ((2k+1) m^(2k+1)): arctan(1/m). -/
def atanGo (P m : Nat) : Nat → Nat → Int → Int → Int
  | 0, _, _, s => s
  | f + 1, k, t, s => atanGo P m f (k + 2) (-t / ((m * m : Nat) : Int)) (s + t / k)

/-- π by Machin's formula. -/
def piFx (P : Nat) : Int :=
  16 * atanGo P 5 (P / 4 + 4) 1 (((2 ^ P : Nat) / 5 : Nat) : Int) 0
    - 4 * atanGo P 239 (P / 15 + 4) 1 (((2 ^ P : Nat) / 239 : Nat) : Int) 0

/-! ### Enclosures -/

/-- A positive enclosure lo × 2^e to hi × 2^e of the magnitude of a result. -/
structure Encl where
  lo : Nat
  hi : Nat
  e : Int
  deriving DecidableEq, Repr

/-- An enclosure around a fixed-point value with a margin of 2^24 units. -/
def enclAround (v : Int) (e : Int) : Encl := ⟨(v - 2 ^ 24).toNat, (v + 2 ^ 24).toNat, e⟩

/-- A dyadic in units of 2^-P, rounded down. -/
def toFx (P : Nat) (d : Dy) : Int :=
  let k := d.e + P
  if k ≥ 0 then shl d.n k.toNat else d.n / ((2 ^ (-k).toNat : Nat) : Int)

/-- exp(x): x = k ln 2 + r. -/
def exclExp (P : Nat) (d : Dy) : Encl :=
  let x := toFx P d
  let l := ln2Fx P
  let k := (2 * x + l) / (2 * l)
  enclAround (expFx P (x - k * l)) (k - P)

/-- |log(x)| for x > 0, x ≠ 1: x = m × 2^k with m in [1, 2). -/
def exclLog (P : Nat) (d : Dy) : Encl :=
  let b : Nat := d.n.natAbs.log2
  let k : Int := d.e + b
  let m := toFx P ⟨d.n, -(b : Int)⟩
  let one : Int := (2 ^ P : Nat)
  let lg := 2 * atanhFx P ((m - one) * one / (m + one)) + k * ln2Fx P
  enclAround lg.natAbs (-P)

/-- |tanh(x)|. Near 0 between x − x³/2 and x − x³/4; beyond 24 between 1 − 2^-40 and 1 − 2^-200; else by the
exponential. -/
def exclTanh (P : Nat) (d : Dy) : Encl :=
  let a : Dy := ⟨d.n.natAbs, d.e⟩
  if a.lt ⟨1, -13⟩ then
    let c := a.mul (a.mul a)
    let lo := a.sub ⟨c.n, c.e - 1⟩
    let hi := a.sub ⟨c.n, c.e - 2⟩
    let e := min lo.e hi.e
    ⟨(lo.at_ e).toNat, (hi.at_ e).toNat, e⟩
  else if Dy.lt ⟨24, 0⟩ a then ⟨2 ^ 200 - 2 ^ 160, 2 ^ 200 - 1, -200⟩
  else
    -- tanh = 1 − 2 / (exp(2x) + 1), the exponential enclosed
    let y := exclExp P ⟨a.n, a.e + 1⟩
    let up := fun (v : Nat) => (if y.e ≥ 0 then v * 2 ^ y.e.toNat * 2 ^ P else v * 2 ^ P / 2 ^ (-y.e).toNat) + 2 ^ P
    let one : Nat := 2 ^ P
    let t := fun (v : Nat) => one - 2 * one * one / up v
    ⟨t y.lo - 2 ^ 8, t y.hi + 2 ^ 8, -P⟩

/-- |erf(x)|: (2/√π) x Σ; beyond 4.5 between 1 − 2^-30 and 1 − 2^-200. -/
def exclErf (P : Nat) (d : Dy) : Encl :=
  let a : Dy := ⟨d.n.natAbs, d.e⟩
  if Dy.lt ⟨9, -1⟩ a then ⟨2 ^ 200 - 2 ^ 170, 2 ^ 200 - 1, -200⟩
  else
    let y := toFx P (a.mul a)
    let s := erfGo P y (P + 40) 0 (2 ^ P : Nat) 0
    let rootPi : Nat := isqrt ((piFx P).toNat * 2 ^ P)
    let c : Nat := 2 * 2 ^ P * 2 ^ P / rootPi
    let lo := (s - 2 ^ 40).toNat * (c - 2 ^ 8)
    let hi := (s + 2 ^ 40).toNat * (c + 2 ^ 8)
    ⟨lo * a.n.toNat, hi * a.n.toNat, a.e - 2 * P⟩

/-- The rounded value when both ends of an enclosure round alike; a transcendental result is never exact, so OUT_INX is
set. -/
def roundEncl (f : Fmt) (neg : Bool) (c : Encl) : Option Rounded :=
  if c.lo = 0 then none else
  let a := roundRat f 0 0 neg c.lo 1 c.e
  let b := roundRat f 0 0 neg c.hi 1 c.e
  if a.x == b.x && (a.st ||| stInx) == (b.st ||| stInx) then some ⟨a.x, a.st ||| stInx⟩ else none

/-- The first precision whose enclosure decides, or the free value. -/
def ladder (f : Fmt) (fn : SfuFn) (x : Nat) (neg : Bool) (g : Nat → Encl) : Rounded :=
  match roundEncl f neg (g 128) with
  | some r => r
  | none =>
    match roundEncl f neg (g 256) with
    | some r => r
    | none =>
      match roundEncl f neg (g 512) with
      | some r => r
      | none =>
        match roundEncl f neg (g 1024) with
        | some r => r
        | none => ⟨(Config.sfuUndecided fn.num f.p x).toNat % 2 ^ (f.p + f.ebits), stInx⟩

/-- One exact result that is representable or rounds exactly. -/
def exactR (f : Fmt) (d : Dy) : Rounded := roundExact f 0 0 d

/-- A special function on a decoded value (R66, R67); x is the input's encoding. -/
def sfuVal (f : Fmt) (fn : SfuFn) (x : Nat) (v : FVal) : Rounded :=
  let nan : Rounded := ⟨f.nanBits, stNan⟩
  let one := exactR f ⟨1, 0⟩
  let zero := fun (s : Bool) => (⟨f.zeroBits s, 0⟩ : Rounded)
  let inf := fun (s : Bool) => (⟨f.infBits s, stInf⟩ : Rounded)
  match fn, v with
  | _, .nan => nan
  | .exp, .inf s => if s then zero false else inf false
  | .exp, .fin s m e =>
    if m = 0 then one
    else if Dy.lt ⟨1, 10⟩ ⟨m, e⟩ then
      (if s then ⟨f.zeroBits false, stUnf + stInx⟩ else ⟨f.infBits false, stOvf + stInx⟩)
    else ladder f fn x false (fun P => exclExp P v.dy)
  | .log, .inf s => if s then nan else inf false
  | .log, .fin s m e =>
    if m = 0 then inf true
    else if s then nan
    else if ((Dy.mk m e).sub ⟨1, 0⟩).n = 0 then zero false
    else ladder f fn x (Dy.lt ⟨m, e⟩ ⟨1, 0⟩) (fun P => exclLog P ⟨m, e⟩)
  | .recip, .inf s => zero s
  | .recip, .fin s m e => if m = 0 then inf s else roundRat f 0 0 s 1 m (-e)
  | .rsqrt, .inf s => if s then nan else zero false
  | .rsqrt, .fin s m e =>
    if m = 0 then inf s
    else if s then nan
    else if e % 2 = 0 then roundSqrt f 1 m (-e / 2) else roundSqrt f 1 (2 * m) (-(e - 1) / 2)
  | .tanh, .inf s => exactR f ⟨if s then -1 else 1, 0⟩
  | .tanh, .fin s m e => if m = 0 then zero s else ladder f fn x s (fun P => exclTanh P ⟨m, e⟩)
  | .erf, .inf s => exactR f ⟨if s then -1 else 1, 0⟩
  | .erf, .fin s m e => if m = 0 then zero s else ladder f fn x s (fun P => exclErf P ⟨m, e⟩)

/-- A special function from one format to another (R66). -/
def sfu (src dst : Fmt) (fn : SfuFn) (x : Nat) : Rounded := sfuVal dst fn x (decodeF src x)

/-- sfu_exp of R158, R159 and R243, FP32 to FP32. -/
def sfuExp (x : BitVec 32) : BitVec 32 := BitVec.ofNat 32 (sfu fp32 fp32 .exp x.toNat).x
/-- sfu_rsqrt of R180. -/
def sfuRsqrt (x : BitVec 32) : BitVec 32 := BitVec.ofNat 32 (sfu fp32 fp32 .rsqrt x.toNat).x

end Sys2Proof.Machine
end

