-- ==== Sys2Proof/Machine/Stored.lean ====
section
/-!
DEFINITION. Stored tensors as the device moves them by itself: verified reads of lossless blocks (R121, R129), the offload of layer-boundary
activations (R231), and the tokens that a generation batch samples (R241 to R245).
-/

namespace Sys2Proof.Machine

/-! ### Lossless blocks -/

/-- How a read of blocks ends: all of them, damage (kind, block address, block index), or a memory error; with the blocks
verified before. -/
structure BlockRun where
  blocks : List Bytes := []
  dmg : Option (Nat × Nat × Nat) := none
  err : Option MemErr := none

/-- An entry of an index table. -/
def State.indexAt (s : State) (idx i : Nat) : Except MemErr Nat :=
  match s.load (idx + 4 * i) 4 with
  | .error e => .error e
  | .ok b => .ok (leNat b)

/-- Read n blocks from block i on, each verified by R117, R123 and R129; `elems` is the declared element count of the
tensor, where it is declared, and a demand that begins beyond it names the last declared block. A block that a demand goes beyond is not
delivered (R132), and a LENGTH that reaches where no read can ends in that error (assumption 69). Fuel is n. -/
def State.readBlocks (s : State) (src idx fmt : Nat) (elems : Option Nat) : Nat → Nat → BlockRun
  | 0, _ => {}
  | n + 1, i =>
    match elems.filter (fun m => decide (m ≤ 256 * i)), s.indexAt idx i, s.indexAt idx (i + 1) with
    | some m, _, _ =>
      match s.indexAt idx ((m - 1) / 256) with
      | .error e => { err := some e }
      | .ok x => { dmg := some (9, src + x, (m - 1) / 256) }
    | none, .error e, _ => { err := some e }
    | none, _, .error e => { err := some e }
    | none, .ok x, .ok y =>
      match s.load (src + x) 8 with
      | .error e => { err := some e }
      | .ok h =>
        match s.load (src + x) (max (blkLen h) 8) with
        | .error e => { err := some e }
        | .ok b =>
          match decodeBlock fmt b with
          | .error k => { dmg := some (k, src + x, i) }
          | .ok es =>
            if x + blkLen h ≠ y then { dmg := some (8, src + x, i) }
            else if (0 < n ∧ (es.length < 256 ∨ elems.any (fun m => decide (m ≤ 256 * i + es.length)) = true)) ∨
                elems.any (fun m => decide (m < 256 * i + es.length)) = true then
              { dmg := some (9, src + x, i) }
            else
              let r := s.readBlocks src idx fmt elems n (i + 1)
              { r with blocks := b :: r.blocks }

/-- The raw elements of a verified block. -/
def blockElems (fmt : Nat) (b : Bytes) : List Nat := match decodeBlock fmt b with | .ok l => l | .error _ => []

/-! ### Activation offload (R231) -/

/-- Bytes of an element of a stored form. -/
def TensorDecl.width (d : TensorDecl) : Nat := match d.form with | 2 => 16 | 3 => 80 | _ => elemBytes d.fmt
/-- Blocks of a lossless tensor. -/
def TensorDecl.nblocks (d : TensorDecl) : Nat := (d.elems + 255) / 256
/-- Bytes of a lossless tensor's index table in an offload slot (assumption 43). -/
def TensorDecl.idxBytes (d : TensorDecl) : Nat := roundUp 8 (4 * (d.nblocks + 1))

/-- The stored form of a tensor: an array as it is, blocks behind their index table (assumption 43). -/
def State.storedForm (s : State) (d : TensorDecl) : Except MemErr Bytes :=
  if d.form ≠ 0 then s.load d.base (d.elems * d.width)
  else match s.load d.index (4 * (d.nblocks + 1)) with
    | .error e => .error e
    | .ok t =>
      match s.load d.base (rd (4 * d.nblocks) 4 t) with
      | .error e => .error e
      | .ok b => .ok (padTo 8 t ++ b)

/-- A failure of the cluster DMA in an offload. -/
def State.offError (s : State) (g : Nat) (e : MemErr) : State := s.memError (srcClu g 4) 0xFF (s.sramPort g 45 e.addr) 0 e

/-- A damaged block that the cluster DMA meets outside a context's descriptor: CLU_BLK_ERR, the record and the veto (R132, R134). -/
def State.offDamage (s : State) (g tensor : Nat) (x : Nat × Nat × Nat) : State :=
  (s.cluBlockRec (srcClu g 4) g x.1 tensor 0 x.2.2 x.2.1).veto 7 tensor 0

/-- The slot of a micro-batch. -/
def OffE.slot (o : OffE) (m : Nat) : Nat := o.base + m % max o.slots 1 * o.stride

/-- What the DMA finds in the blocks of a tensor that it is about to copy: it loads no block unverified (R132). -/
def State.blocksSound (s : State) (d : TensorDecl) : BlockRun :=
  if d.form ≠ 0 then {} else s.readBlocks d.base d.index d.fmt (some d.elems) d.nblocks 0

/-- Write a tensor's stored form to a micro-batch's slot. -/
def State.offWrite (s : State) (p : Prog) (g m : Nat) (o : OffE) : State :=
  match p.tensor? o.tensor with
  | none => s
  | some d =>
    match s.storedForm d, (s.blocksSound d).err, (s.blocksSound d).dmg with
    | .error e, _, _ => s.offError g e
    | .ok _, some e, _ => s.offError g e
    | .ok _, none, some x => s.offDamage g d.tensor x
    | .ok b, none, none =>
      match s.store (o.slot m) (b.take o.stride) with
      | (t, none) => t
      | (t, some e) => t.offError g e

/-- Read a micro-batch's slot back, verifying its blocks under R132. -/
def State.offRead (s : State) (p : Prog) (g m : Nat) (o : OffE) : State :=
  match p.tensor? o.tensor with
  | none => s
  | some d =>
    let put := fun (t : State) (a : Nat) (b : Bytes) => match t.store a b with | (u, none) => u | (u, some e) => u.offError g e
    if d.form ≠ 0 then
      match s.load (o.slot m) (d.elems * d.width) with
      | .error e => s.offError g e
      | .ok b => put s d.base b
    else
      let run := s.readBlocks (o.slot m + d.idxBytes) (o.slot m) d.fmt (some d.elems) d.nblocks 0
      match run.err, run.dmg, s.load (o.slot m) (4 * (d.nblocks + 1)) with
      | some e, _, _ => s.offError g e
      | none, some x, _ => s.offDamage g d.tensor x
      | none, none, .error e => s.offError g e
      | none, none, .ok t => put (put s d.base run.blocks.flatten) d.index t

/-- A forward QPUSH of an act has retired: its activations go out, and the last of the warm-up reads the first ones back (R220, R231). -/
def State.offForward (s : State) (p : Prog) (g act m : Nat) : State :=
  match s.job.running with
  | none => s
  | some j =>
    (p.offload.filter (fun o => o.act == act)).foldl (fun t o =>
      let t := t.offWrite p g m o
      if m + 1 = min (p.acts - act) (dMicro j.desc) then
        ((List.range (dMicro j.desc)).filter (fun x => decide (x < o.lead))).foldl (fun u x => u.offRead p g x o) t
      else t) s

/-- The last act has done a micro-batch's forward pass: its activations go out and, since no backward QPOP comes, are read back
(R231, assumption 55). -/
def State.offLast (s : State) (p : Prog) (g act m : Nat) : State :=
  if s.job.running.isNone then s
  else (p.offload.filter (fun o => o.act == act)).foldl (fun t o => (t.offWrite p g m o).offRead p g m o) s

/-- A backward QPOP of an act has retired: the activations of the micro-batch LEAD further on are read back (R231). -/
def State.offBackward (s : State) (p : Prog) (g act m : Nat) : State :=
  match s.job.running with
  | none => s
  | some j =>
    (p.offload.filter (fun o => o.act == act)).foldl (fun t o => if m + o.lead < dMicro j.desc then t.offRead p g (m + o.lead) o else t) s

/-! ### Sampling (R243) -/

/-- A score as the sampler takes it: a NaN ranks as −Inf. -/
def scoreVal (x : BitVec 32) : FVal := match decodeF fp32 x.toNat with | .nan => .inf true | v => v
/-- Whether a score is −Inf. -/
def FVal.isNegInf : FVal → Bool
  | .inf n => n
  | _ => false
/-- Whether a score is +Inf. -/
def FVal.isPosInf : FVal → Bool
  | .inf n => !n
  | _ => false

/-- The order of two values; −0 and +0 are equal. -/
def ltVal : FVal → FVal → Bool
  | .fin _ 0 _, .fin _ 0 _ => false
  | x, y => ltF x y

/-- The lowest index of the greatest value. -/
def argMax (l : List FVal) : Nat :=
  (l.zipIdx.foldl (fun (m : Nat × FVal) x => if ltVal m.2 x.1 then (x.2, x.1) else m) (0, l.headD (.inf true))).1

/-- A finite score over the temperature, rounded once. -/
def overTemp (temp : BitVec 32) (x : FVal) : FVal :=
  match x, decodeF fp32 temp.toNat with
  | .fin s m e, .fin _ tm te => if m = 0 then .fin s 0 0 else decodeF fp32 (roundRat fp32 0 0 s m tm (e - te)).x
  | v, _ => v

/-- The token of the draw (R243): the lowest index at which the sum of the weights passes the threshold. -/
def drawToken (p : List Int) (u : Nat) : Nat :=
  let total := p.foldl (· + ·) 0
  (p.foldl (fun (a : Int × Nat × Bool) x =>
    let acc := a.1 + x
    if a.2.2 then a else if total * u < acc * 2 ^ 32 then (acc, a.2.1, true) else (acc, a.2.1 + 1, false)) (0, 0, false)).2.1

/-- The sampling procedure of R243. -/
def sampleToken (z : List (BitVec 32)) (temp : BitVec 32) (seed : BitVec 64) (counter : Nat) : Nat :=
  let v := z.map scoreVal
  if (decodeF fp32 temp.toNat).isZero ∨ v.all FVal.isNegInf then argMax v
  else
    let s := v.map (overTemp temp)
    match s.findIdx? FVal.isPosInf with
    | some t => t
    | none =>
      let m := s.getD (argMax s) (.inf true)
      let w := s.map (fun x => if x.isNegInf then (0 : Int)
        else (decodeF fp32 (sfuExp (BitVec.ofNat 32 (addF fp32 0 0 x m.negate).x)).toNat).dy.at_ (-149))
      drawToken w (zcg seed (BitVec.ofNat 64 counter) 0xFFFF 0).toNat

/-! ### A generation batch (R241, R242) -/

/-- The next user to serve after one, in ascending order and round again; the same user when no other is left. -/
def nextUser (us : List GenUser) (u : Nat) : Nat :=
  let l := ((List.range us.length).map (fun k => (u + 1 + k) % max us.length 1))
  (l.find? (fun k => !(us.getD k {}).done)).getD u

/-- The slot that serves the user whose turn it is (R241). -/
def State.slotNow (s : State) (p : Prog) : UserSlot := p.users.getD s.job.genNext {}

/-- The contexts of a pass: those of the running variant, of which a generation pass runs the ones that the user's slot names for the prompt,
or for decoding once the user has a token; a slot that names none runs them all (R242, assumption 41). -/
def State.passCtxs (s : State) (p : Prog) : List CtxE :=
  let sl := s.slotNow p
  let mask := if (s.job.genUsers.getD s.job.genNext {}).produced = 0 then sl.promptCtx else sl.decodeCtx
  p.ctxE.filter (fun e => e.variant == s.job.variant && (!p.gen || mask == 0 || bit e.ctx mask))

/-- Whether every context of the pass has ended and every unit has retired what it was given. -/
def State.passEnded (s : State) (p : Prog) : Bool :=
  (s.passCtxs p).all (fun e =>
    s.ctxState e.cluster e.ctx == 4 && (s.clu e.cluster).queues.all (fun q => q.2.isEmpty))

/-- Start the contexts of a pass at their lists (R146). -/
def State.startContexts (s : State) (p : Prog) : State :=
  (s.passCtxs p).foldl (fun t e =>
    let c := t.clu e.cluster
    ((t.setClu e.cluster { c with ctxs := SMap.set c.ctxs e.ctx { pos := e.list } }).setCtx e.cluster e.ctx 1).ww (oCkpt e.cluster e.ctx) 0) s

/-- The tokens of a user's pass go where its slot's descriptors find them: the prompt first, then each token as it is produced (R242,
assumption 41). -/
def State.passTokens (s : State) (p : Prog) (j : StepJob) : State :=
  let sl := s.slotNow p
  let r := gUser j.desc s.job.genNext
  let n := (s.job.genUsers.getD s.job.genNext {}).produced
  if sl.tokens = 0 then s
  else match (if n = 0 then s.load (rd 8 8 r) (4 * rd 16 4 r) else s.load (rd 32 8 r + 4 * (n - 1)) 4) with
  | .error e => s.memError srcRm 0xFF 0xFF 0 e
  | .ok b =>
    match s.store sl.tokens b with
    | (t, some e) => t.memError srcRm 0xFF 0xFF 0 e
    | (t, none) => t

/-- A pass for the user whose turn it is begins: its tokens and its contexts (R242, R244). -/
def State.startPass (s : State) (p : Prog) (j : StepJob) : State :=
  let t := s.passTokens p j
  if t.job.running.isNone then t else t.startContexts p

/-- One pass of a generation batch has ended (R242 to R245, assumption 44): the served user's next token is sampled and written at OUT;
the contexts run again for the next user, or the batch completes once every user has its tokens. -/
def State.passDone (s : State) : State :=
  match s.job.running, s.job.prog with
  | some j, some p =>
    if !p.gen ∨ s.inSuspect ∨ !s.passEnded p then s
    else
      let u := s.job.genNext
      let r := gUser j.desc u
      let x := s.job.genUsers.getD u {}
      let sl := s.slotNow p
      match s.load sl.scores (4 * sl.vocab) with
      | .error e => s.memError srcRm 0xFF 0xFF 0 e
      | .ok z =>
        let tok := sampleToken (words32 z) (BitVec.ofNat 32 (rd 28 4 r)) (BitVec.ofNat 64 (rd 0 8 r)) (rd 16 4 r + x.produced)
        match s.store (rd 32 8 r + 4 * x.produced) (le 4 tok) with
        | (t, some e) => t.memError srcRm 0xFF 0xFF 0 e
        | (t, none) =>
          let y : GenUser := { produced := x.produced + 1, done := decide (rd 20 4 r ≤ x.produced + 1) || (tok == rd 24 4 r && tok != 0xFFFFFFFF) }
          let us := t.job.genUsers.set u y
          let t := { t with job := { t.job with genUsers := us, genNext := nextUser us u } }
          if us.all (·.done) then
            ({ t with job := { t.job with running := none, genDone := t.job.genDone + 1, genUsers := [], genNext := 0 }
                      fw := { t.fw with due := t.fw.due || t.fw.activate.isSome } }).portsCarry.doneTag j.tag 0
          else t.startPass p j
  | _, _ => s

end Sys2Proof.Machine
end

