-- ==== Sys2Proof/Machine/Saves.lean ====
section
/-!
DEFINITION. The tally store (R92), the front set and the save areas of a context on a core (R80, R96 to R98).
-/

namespace Sys2Proof.Machine

/-! ### The tally store (R92) -/

/-- Bytes of a slot. -/
def slotBytes (lx32 : Bool) : Nat := if lx32 then 80 else 16
/-- Offset of a slot in the tally store. -/
def slotOff (lx32 : Bool) (i : Nat) : Nat := slotBytes lx32 * i
/-- The bytes of a slot. -/
def State.slotGet (s : State) (c : Nat) (lx32 : Bool) (i : Nat) : Bytes :=
  s.peek (coreAddr c 0x8000 + slotOff lx32 i) (slotBytes lx32)
/-- An accumulator from slot bytes. -/
def accOf (lx32 : Bool) (b : Bytes) : Acc := if lx32 then lx32Of b else lx16Of b
/-- Slot bytes of an accumulator. -/
def slotOfAcc (lx32 : Bool) (a : Acc) : Bytes := if lx32 then lx32Bytes a else lx16Bytes a
/-- The residue of an LX32 slot is right; LX16 slots carry none (R42, R103). -/
def slotOk (lx32 : Bool) (b : Bytes) : Bool := !lx32 || lx32Ok b
/-- Write a slot. -/
def State.slotPut (s : State) (c : Nat) (lx32 : Bool) (i : Nat) (a : Acc) : State :=
  s.put (coreAddr c 0x8000 + slotOff lx32 i) (slotOfAcc lx32 a)
/-- Return slots to the cleared state of R43. -/
def State.slotsClear (s : State) (c : Nat) (lx32 : Bool) (l : List Nat) : State := l.foldl (fun t i => t.slotPut c lx32 i {}) s

/-- The 16-byte units of the tally store that slots cover. -/
def unitsOf (lx32 : Bool) (l : List Nat) : List Nat :=
  if lx32 then l.flatMap (fun i => (List.range 5).map (5 * i + ·)) else l

/-- Slots in a context's declared range. -/
def CtxE.range (e : CtxE) : List Nat := (List.range e.slots).map (e.firstSlot + ·)

/-- A context's entry of the context table in the running variant. -/
def State.ctxE? (s : State) (g k : Nat) : Option CtxE := s.job.prog.bind (fun p => p.ctx? s.job.variant g k)

/-! ### The front set (R80, R96) -/

/-- The bytes of a front set (R96): values lie at index 16c + k in the state. -/
def frontBytes (f : Front) : Bytes :=
  let v := fun i => (f.vals.getD i 0).toNat
  fit 128 (
    if f.mode = 1 then (List.range 4).flatMap (fun k => le 2 (v k))
    else if f.sfmt = 1 then (List.range 8).flatMap (fun k => (List.range 2).flatMap (fun c => le 4 (v (16 * c + k))))
    else (List.range 16).flatMap (fun k => (List.range 4).flatMap (fun c => le 2 (v (16 * c + k)))))

/-- A front set from its bytes. -/
def frontOf (ctx mode sfmt : Nat) (b : Bytes) : Front :=
  let vals :=
    if mode = 1 then (List.range 4).map (fun k => rd (2 * k) 2 b)
    else if sfmt = 1 then (List.range 64).map (fun i => if i % 16 < 8 ∧ i / 16 < 2 then rd (4 * (2 * (i % 16) + i / 16)) 4 b else 0)
    else (List.range 64).map (fun i => rd (2 * (4 * (i % 16) + i / 16)) 2 b)
  { ctx := ctx, mode := mode, sfmt := sfmt, vals := vals.map (BitVec.ofNat 32) }

/-! ### Save areas (R96 to R98) -/

/-- The front set of a core, where the context itself loaded it (R80). -/
def Core.frontFor (x : Core) (k : Nat) : Option Front := x.front.filter (fun f => f.ctx == k)

/-- A save area of a core and context: slots from `first`, in a layout, with the front set if it is the context's own, for a restore makes it
the restoring context's (R80, R96, assumption 69). -/
def State.saveArea (s : State) (c k first n : Nat) (lx32 : Bool) : Bytes :=
  let x := s.core c
  let st := (match x.frontFor k with
    | some f => f.mode + b2n lx32 * 4 + 16 + f.sfmt * 32
    | none => x.mode.getD 0 + b2n lx32 * 4)
  let head := le 4 0x3153435A ++ le 2 1 ++ le 1 k ++ le 1 st ++ le 4 c ++ le 2 first ++ le 2 n ++ le 2 s.tagNow ++
    le 2 x.lastTag.toNat ++ zeros 40
  let body := (match x.frontFor k with | some f => frontBytes f | none => zeros 128) ++
    (List.range n).flatMap (fun i => s.slotGet c lx32 (first + i))
  head ++ le 4 (crc32c (head ++ body)) ++ body

/-- The first word of slots that no code corrects any more (R396). -/
def State.slotErr (s : State) (c : Nat) (lx32 : Bool) (l : List Nat) : Option MemErr :=
  (l.findSome? (fun i => (s.badIn (coreAddr c 0x8000 + slotOff lx32 i) (slotBytes lx32)).head?)).map (fun g => { kind := 2, addr := g })

/-- Whether every slot of a range may be saved: none carries a wrong residue (R103). -/
def State.rangeOk (s : State) (c first n : Nat) (lx32 : Bool) : Bool :=
  (List.range n).all (fun i => slotOk lx32 (s.slotGet c lx32 (first + i)))

/-- Whether a save area can be restored on a core for a context: the checks of R98 and no other. -/
def areaOk (c k : Nat) (lx32 : Bool) (b : Bytes) : Bool :=
  let n := rd 14 2 b
  let lay := bits 3 2 (rd 7 1 b)
  rd 0 4 b == 0x3153435A && rd 4 2 b == 1 && rd 6 1 b == k && rd 8 4 b == c && lay == b2n lx32 &&
    rd 0x3C 4 b == crc32c (b.take 0x3C ++ b.drop 0x40) &&
    (List.range n).all (fun i => slotOk lx32 (slice (0xC0 + slotOff lx32 i) (slotBytes lx32) b))

/-- Length of the save area that begins with a head. -/
def areaLen (lx32 : Bool) (h : Bytes) : Nat := 0xC0 + slotOff lx32 (min 1536 (rd 14 2 h))

/-- The slots that a restore writes, with their bytes: of the named ones, those that the area holds (R90, R96, assumption 53). -/
def areaSlots (lx32 : Bool) (first n : Nat) (b : Bytes) : List (Nat × Bytes) :=
  ((List.range (rd 14 2 b)).filter (fun i => decide (first ≤ rd 12 2 b + i) && decide (rd 12 2 b + i < first + n))).map (fun i =>
    (rd 12 2 b + i, slice (0xC0 + slotOff lx32 i) (slotBytes lx32) b))

/-- Restore the named slots and the front set from a save area that passed its checks (R80, R90, R98). -/
def State.restoreArea (s : State) (c k : Nat) (lx32 : Bool) (first n : Nat) (b : Bytes) : State :=
  let t := (areaSlots lx32 first n b).foldl (fun t x => t.put (coreAddr c 0x8000 + slotOff lx32 x.1) x.2) s
  let st := rd 7 1 b
  let x := t.core c
  t.setCore c { x with
    mode := some (st % 4), back := none
    front := if bit 4 st then some (frontOf k (st % 4) (b2n (bit 5 st)) (slice 0x40 128 b)) else none }

/-- Read a save area: its bytes, as long as its head says. -/
def State.readArea (s : State) (a : Nat) (lx32 : Bool) : Except MemErr Bytes :=
  match s.load a 0xC0 with
  | .error e => .error e
  | .ok h => s.load a (areaLen lx32 h)

end Sys2Proof.Machine
end

