-- ==== Sys2Proof/Machine/Hang.lean ====
section
/-!
DEFINITION. The replay of suspects in a hang recovery (R401 to R403): how one starts, what ends it, and the turn to the next.
-/

namespace Sys2Proof.Machine

/-- Set the verdict of a suspect with its bit in RST_HANG (R403). -/
def State.suspectMark (s : State) (h : Hang) (i v : Nat) : State :=
  match h.susp[i]? with
  | none => s
  | some x =>
    let t := { s with hang := some { h with susp := h.susp.set i { x with verdict := some v }, hit := false } }
    if v = 1 then t.wf oRstHang (40 + x.ctx) (40 + x.ctx) 1
    else if v = 2 then t.wf oRstHang (32 + x.ctx) (32 + x.ctx) 1
    else t

/-- Restore the save areas of a suspect on its cores; false when one of them fails its checks (R98, R402). -/
def State.suspectRestore (s : State) (g : Nat) (x : Susp) : State × Bool :=
  match x.area, s.ctxE? g x.ctx with
  | some a, some e =>
    ((List.range 40).filter (fun i => bit i e.cores)).foldl (fun (t : State × Bool) i =>
      match t.1.readArea (a + i * 0x60C0) e.lx32 with
      | .error er => (t.1.memError (srcCore (g * 40 + i)) x.ctx (t.1.sramPort g 46 er.addr) 0 er, false)
      | .ok b =>
        if areaOk (g * 40 + i) x.ctx e.lx32 b then (t.1.restoreArea (g * 40 + i) x.ctx e.lx32 e.firstSlot e.slots b, t.2)
        else (t.1.engineError (srcCore (g * 40 + i)) 1 x.ctx i 0 (a + i * 0x60C0) 0, false)) (s, true)
  | _, _ => (s, true)

/-- Replay the suspects from the i-th on, each after a reset of the cluster; one whose restore fails is UNSETTLED at once. After the last
the cluster's contexts stop and HANG_VERDICT is due. Fuel is the number of suspects left. -/
def State.suspectsFrom (s : State) (h : Hang) (i : Nat) : Nat → State
  | 0 => ({ s with hang := some { h with cur := none, hit := false } }).stopCluster h.cluster
  | f + 1 =>
    match h.susp[i]? with
    | none => ({ s with hang := some { h with cur := none, hit := false } }).stopCluster h.cluster
    | some x =>
      let g := h.cluster
      let t := ({ s with hang := some { h with cur := some i, hit := false } }).resetCluster g
      let t := t.setClu g { t.clu g with power := 0, ctxs := [(x.ctx, { pos := x.start })] }
      let t := t.setCtx g x.ctx 1
      let r := t.suspectRestore g x
      if r.2 then r.1
      else
        let u := r.1.suspectMark { h with cur := some i } i 2
        match u.hang with
        | some h' => u.suspectsFrom h' (i + 1) f
        | none => u

/-- The suspect under replay receives its verdict, and the next one follows (R401, R403). -/
def State.suspectVerdict (s : State) (v : Nat) : State :=
  match s.hang with
  | some h =>
    (match h.cur with
     | some i =>
       let t := s.suspectMark h i v
       (match t.hang with
        | some h' => t.suspectsFrom h' (i + 1) (h'.susp.length - i)
        | none => t)
     | none => s)
  | none => s

/-- The suspect under replay. -/
def State.suspect? (s : State) : Option (Hang × Susp) :=
  match s.hang with
  | some h => (match h.cur with
    | some i => h.susp[i]?.map (fun x => (h, x))
    | none => none)
  | none => none

/-- A descriptor retires: the stuck one of the suspect under replay is noted (R403). -/
def State.suspectRetires (s : State) (g k addr : Nat) : State :=
  match s.suspect? with
  | some (h, x) => if h.cluster = g ∧ x.ctx = k ∧ x.desc = addr then { s with hang := some { h with hit := true } } else s
  | none => s

/-- What a command has done to the suspect under replay (R403): CLEARED when its stuck descriptor has retired or it has reached END,
UNSETTLED when an engine error has stopped it before. -/
def State.hangCheck (s : State) : State :=
  match s.suspect? with
  | some (h, x) =>
    if h.hit ∨ s.ctxState h.cluster x.ctx = 4 then s.suspectVerdict 0
    else if s.ctxState h.cluster x.ctx = 5 then s.suspectVerdict 2
    else s
  | none => s

end Sys2Proof.Machine
end

