-- ==== Sys2Proof/Machine/Controller.lean ====
section
/-!
DEFINITION. The cluster controller: descriptor contexts, control descriptors, event counters (R146 to R153), inter-act
queues (R221 to R224), and how a unit takes the next descriptor from its queue (R149, R150).
-/

namespace Sys2Proof.Machine

/-! ### Contexts -/

/-- Whether a cluster's controller and engines run: it is neither fenced nor quiet, in nap or waking (R408, R449, R456). -/
def State.runs (s : State) (g : Nat) : Bool := (s.clu g).power == 0 && !s.cluFenced g

/-- Whether a context may act now: in a suspect replay, only the suspect under replay (R402). -/
def State.mayAct (s : State) (g k : Nat) : Bool :=
  match s.hang with
  | some h =>
    (match h.cur with
     | some i => h.cluster == g && (match h.susp[i]? with | some x => x.ctx == k | none => false)
     | none => true)
  | none => true

/-- A cluster that is quiet or in nap asks for admission (R449, R450, R456, R457). A fenced cluster never asks. -/
def State.requestWake (s : State) (g : Nat) : State :=
  let c := s.clu g
  if s.cluFenced g ∨ (c.power ≠ 1 ∧ c.power ≠ 3) then s
  else
    let t := s.setClu g { c with power := if c.power = 1 then 2 else 5 }
    { t with pwr := { t.pwr with wakes := t.pwr.wakes ++ [g] } }

/-- The cluster that an address lies in: in its SRAM or in the local memory of a core of it (R8). -/
def State.cluOf (s : State) (a : Nat) : Option Nat :=
  match s.area a with
  | .clu g _ => some g
  | .core c _ => some (c / 40)
  | _ => none

/-- The cluster that an address lies in, where it is in nap: an access to it waits and asks for the wake (R457). -/
def State.napping (s : State) (a : Nat) : Option Nat := (s.cluOf a).filter (fun g => decide (2 < (s.clu g).power))

/-- A write over the Midway: it waits at the router stop of a napping cluster (R457). -/
def State.midStore (s : State) (a : Nat) (b : Bytes) : State × Option MemErr :=
  match s.napping a with
  | some g => (s.holdAt g (.write a b), none)
  | none => s.store a b

/-- One more descriptor retired (R151); a hang recovery notices its suspect's stuck descriptor (R403). -/
def State.retired (s : State) (g k addr : Nat) : State :=
  (s.wf (oProgress g) 47 0 (s.rf (oProgress g) 47 0 + 1)).suspectRetires g k addr

/-- A context stops with an error: it dispatches nothing further, and what it has handed out is withdrawn (R150). -/
def State.haltCtx (s : State) (g k : Nat) : State :=
  let c := s.clu g
  (s.setClu g { c with queues := c.queues.filter (fun q => decide (q.1 % 8 ≠ k)) }).setCtx g k 5

/-- A context error: KIND 1 (R428, R150). -/
def State.ctxError (s : State) (src g k port tag addr : Nat) : State :=
  (s.haltCtx g k).engineError src 1 k port tag addr 0

/-- A memory access of a context's descriptor failed (R143, R150, R428); one to an address that the unit does not reach went through no
port. -/
def State.accError (s : State) (src g k port tag : Nat) (e : MemErr) : State :=
  (s.haltCtx g k).memError src k (if e.kind = 3 then 0xFF else s.sramPort g port e.addr) tag e

/-- A block error that stops a context: CLU_BLK_ERR, the record and the veto (R130, R132, R134). -/
def State.cluBlockError (s : State) (src g k kind tensor tag block addr : Nat) : State :=
  ((s.haltCtx g k).cluBlockRec src g kind tensor tag block addr).veto 7 tensor 0

/-- What strikes a cluster's memories, and what the unit's reads of the SRAM find: a single-bit error is corrected and counted once, and a word
that no code corrects delivers no data from then on (R145, R396, assumption 54). -/
def State.upset (s : State) (g : Nat) (u : Upset) : State :=
  let at_ := fun (w : Fin 0x60000) => cluAddr g (8 * w.val)
  let hard := u.double.map at_ ++ u.inCore.map (fun x => coreAddr (g * 40 + x.1.val) (8 * x.2.val))
  let t := { s with bad := s.bad ++ hard.filter (fun a => !s.bad.contains a) }
  let t := { t with soft := t.soft ++ ((u.single ++ u.latent).map at_).filter (fun a => !t.soft.contains a && !t.bad.contains a) }
  u.single.foldl (fun t w => t.correct (at_ w) 8) t

/-- Whether everything that a context has handed to units has retired. -/
def State.drained (s : State) (g k : Nat) : Bool :=
  (s.clu g).queues.all (fun q => decide (q.1 % 8 ≠ k) || q.2.isEmpty)

/-- The entry at a context's position, when the context can act and the entry carries one of the opcode; a fetch that fails
stops the context. -/
def atEntry (g k op : Nat) (s : State) (f : Ctx → List Word → State → State) : Out :=
  if !s.runs g ∨ !s.mayAct g k ∨ s.ctxState g k ∉ [1, 2, 3] then go s
  else
    let c := SMap.get (s.clu g).ctxs k {}
    match s.load c.pos 64 with
    | .error e => go (s.accError (srcClu g 0) g k 46 0 e).hangCheck
    | .ok b =>
      let s := s.correct c.pos 64
      let ws := mkWords b
      if dOp ws = op then go (f c ws s).hangCheck else go s

/-- Move a context to a position, running. -/
def State.moveCtx (s : State) (g k : Nat) (c : Ctx) (pos : Nat) : State :=
  let x := s.clu g
  (s.setClu g { x with ctxs := SMap.set x.ctxs k { c with pos := pos } }).setCtx g k 1

/-- A control or queue descriptor retires and the context goes on behind it (R151). -/
def State.passEntry (s : State) (g k : Nat) (c : Ctx) : State := (s.moveCtx g k c (c.pos + 64)).retired g k c.pos

/-- Entries of 64 bytes from an address, or the error of the first that cannot be read. Fuel is their number. -/
def State.fetchN (s : State) : Nat → Nat → Except MemErr (List (Nat × List Word))
  | 0, _ => .ok []
  | n + 1, a =>
    match s.load a 64 with
    | .error e => .error e
    | .ok b =>
      match s.fetchN n (a + 64) with
      | .error e => .error e
      | .ok l => .ok ((a, mkWords b) :: l)

/-- Hand entries to a unit's queue, the last with the signal (R147). A core that was gated ungates (R455). -/
def State.handOut (s : State) (g k unit : Nat) (es : List (Nat × List Word)) (sig : Option (Nat × Nat × Nat)) : State :=
  let n := es.length
  let c := s.clu g
  let items := es.zipIdx.map (fun e =>
    ({ addr := e.1.1, words := e.1.2, sig := if e.2 + 1 = n then sig else none, n := c.sent + e.2 } : QItem))
  let t := s.setClu g { c with queues := SMap.upd c.queues (unit * 8 + k) [] (· ++ items), sent := c.sent + n }
  if unit < 40 then t.setCore (g * 40 + unit) { t.core (g * 40 + unit) with gated := false } else t

/-- DISPATCH (R147): the next N entries go, in order, to UNIT's queue. -/
def execDispatch (clu : GClu) (ctx : CtxNo) (s : State) : Out :=
  atEntry clu ctx 0x40 s fun c ws s =>
    let n := fld ws 0 39 32
    let sig := if fld ws 0 31 31 = 1 then some (fld ws 1 47 32, fld ws 0 28 24, fld ws 1 31 0) else none
    match s.fetchN n (c.pos + 64) with
    | .error e => s.accError (srcClu clu 0) clu ctx 46 (dTag ws) e
    | .ok es => (((s.correct (c.pos + 64) (64 * n)).handOut clu ctx (fld ws 0 47 40) es sig).moveCtx clu ctx c (c.pos + 64 * (n + 1))).retired clu ctx c.pos

/-- WAIT (R147, R151, R153): satisfied once the counter has reached VALUE and everything dispatched earlier has retired;
until then the context reads as in a WAIT. In a suspect replay a WAIT retires as it issues (R402). -/
def execWait (clu : GClu) (ctx : CtxNo) (s : State) : Out :=
  atEntry clu ctx 0x41 s fun c ws s =>
    if s.inSuspect ∨ (fld ws 1 31 0 ≤ SMap.get (s.clu clu).counters (fld ws 0 28 24) 0 ∧ s.drained clu ctx) then s.passEntry clu ctx c
    else s.setCtx clu ctx (if fld ws 0 23 23 = 1 then 3 else 2)

/-- SIGNAL (R147): adds to a counter once every earlier descriptor of the context has retired. -/
def execSignal (clu : GClu) (ctx : CtxNo) (s : State) : Out :=
  atEntry clu ctx 0x42 s fun c ws s =>
    if s.drained clu ctx then
      (s.signalTo clu (fld ws 1 47 32) (fld ws 0 28 24) (fld ws 1 31 0)).passEntry clu ctx c
    else s

/-- LOOP (R147): jumps back BACK entries TIMES times, then falls through. -/
def execLoop (clu : GClu) (ctx : CtxNo) (s : State) : Out :=
  atEntry clu ctx 0x44 s fun c ws s =>
    let left := SMap.get c.loops c.pos (fld ws 1 31 0)
    if left = 0 then s.passEntry clu ctx { c with loops := SMap.erase c.loops c.pos }
    else (s.moveCtx clu ctx { c with loops := SMap.set c.loops c.pos (left - 1) } (c.pos - 64 * fld ws 0 47 32)).retired clu ctx c.pos

/-- END (R147): ends the context for the step. -/
def execEndCtx (clu : GClu) (ctx : CtxNo) (s : State) : Out :=
  atEntry clu ctx 0x45 s fun c _ s => ((s.passEntry clu ctx c).setCtx clu ctx 4).passDone

/-- A cluster at whose router stop something waits asks for its wake (R456, R457). -/
def State.wakeFor (s : State) (g : Nat) : State := if s.napped g ∧ !(s.clu g).stop.isEmpty then s.requestWake g else s

/-- COUNTER_ADD (R148, R457): an add over the Midway arrives at an event counter; at a cluster in nap it waits and asks for
the cluster's wake. -/
def execCounterAdd (clu : GClu) (ctr : Fin 32) (add : BitVec 32) (s : State) : Out :=
  if s.cluFenced clu then go s
  else go ((s.addCounter clu ctr add.toNat).wakeFor clu)

/-! ### Inter-act queues (R221 to R224) -/

/-- Whether a queue's sending act lies on this device: the act table names it (R219, assumption 16). -/
def senderHere (p : Prog) (q : QueueE) : Bool := p.actE.any (fun a => a.act == q.sender)

/-- A queue's state. -/
def State.q (s : State) (n : Nat) : QState := SMap.get s.qs n {}
/-- Put a queue's state. -/
def State.setQ (s : State) (n : Nat) (q : QState) : State := { s with qs := SMap.set s.qs n q }

/-- A queue descriptor at a context's position, with its queue; one that names no queue of the table is a context error
(R150, assumption 16). -/
def atQueue (clu : GClu) (ctx : CtxNo) (op : Nat) (s : State) (f : Ctx → List Word → Prog → QueueE → State → State) : Out :=
  atEntry clu ctx op s fun c ws s =>
    match s.job.prog with
    | none => s
    | some p =>
      match p.queue? (fld ws 0 47 32) with
      | none => s.ctxError (srcClu clu 0) clu ctx 0xFF (dTag ws) 0
      | some q => f c ws p q s

/-- The stream of a queue's data toward its receiver, which each direction has of its own (R223, assumption 6). -/
def queueStream (q : QueueE) : Nat := 0xC000 + q.queue % 0x2000

/-- A transfer of a queue as the payload of its frames: queue, micro-batch and length, then the data; the layout is the model's (assumption 6). -/
def queueBytes (x : QueueXfer) : Bytes := le 2 x.queue.toNat ++ zeros 2 ++ le 4 x.mb.toNat ++ le 8 x.data.length ++ x.data

/-- A queue's data leaves in QFWD frames on VC 1, or in QBWD frames on VC 2 (R222, R223, R250). -/
def State.queueOut (s : State) (p : Prog) (q : QueueE) (x : QueueXfer) : State :=
  (s.emit (.queue q.recvPos q.recvCluster x)).streamOut (if q.dir = 0 then 2 else 3) (p.atPosition q.recvPos) (queueStream q) p.epoch noOp 0 (queueBytes x)

/-- QPUSH (R222): waits for the slot's credit, sends the micro-batch's data once, and retires on the receiver's
acknowledgement. In a suspect replay nothing is sent and the descriptor retires (R402). -/
def execQpush (clu : GClu) (ctx : CtxNo) (s : State) : Out :=
  atQueue clu ctx 0x48 s fun c ws p q s =>
    let mb := fld ws 3 31 0
    let st := s.q q.queue
    if s.inSuspect then s.passEntry clu ctx c
    else if st.acked.contains mb then
      let t := (s.setQ q.queue { st with acked := st.acked.erase mb, inFlight := st.inFlight.erase mb }).passEntry clu ctx c
      if q.dir = 0 then t.offForward p clu q.sender mb else t
    else if st.inFlight.contains mb ∨ !(decide (mb < q.slots) || st.returned.contains (mb - q.slots)) then s
    else match s.load (fld ws 1 47 0) (fld ws 2 31 0) with
    | .error e => s.accError (srcClu clu 0) clu ctx 46 (dTag ws) e
    | .ok b =>
      ((s.correct (fld ws 1 47 0) (fld ws 2 31 0)).setQ q.queue { st with inFlight := st.inFlight ++ [mb] }).queueOut p q
        { queue := BitVec.ofNat 16 q.queue, mb := BitVec.ofNat 32 mb, stepTag := BitVec.ofNat 16 s.tagNow, data := b }

/-- QPOP (R222): retires when the slot holds the micro-batch's data, which stays in the slot. -/
def execQpop (clu : GClu) (ctx : CtxNo) (s : State) : Out :=
  atQueue clu ctx 0x49 s fun c ws p q s =>
    let mb := fld ws 3 31 0
    if s.inSuspect then s.passEntry clu ctx c
    else if SMap.get? (s.q q.queue).held (mb % q.slots) = some mb then
      let t := s.passEntry clu ctx c
      if q.dir = 1 then t.offBackward p clu q.receiver mb else t
    else s

/-- QGRANT (R222): announces N credits to the sender. -/
def execQgrant (clu : GClu) (ctx : CtxNo) (s : State) : Out :=
  atQueue clu ctx 0x4A s fun c ws p q s =>
    let n := fld ws 1 7 0
    let s := s.passEntry clu ctx c
    if s.inSuspect then s
    else if senderHere p q then s.setQ q.queue { s.q q.queue with credits := n }
    else s.tell (p.senderAddr q) (.credit q.queue n)

/-- QRETURN (R222): frees the micro-batch's slot and returns its credit to the sender. At the last act, which sends nothing forward, it marks
the end of the micro-batch's forward pass for the offload table (R231, assumption 55). -/
def execQreturn (clu : GClu) (ctx : CtxNo) (s : State) : Out :=
  atQueue clu ctx 0x4B s fun c ws p q s =>
    let mb := fld ws 3 31 0
    let slot := mb % q.slots
    let s := s.passEntry clu ctx c
    if s.inSuspect then s
    else
      let st := s.q q.queue
      let st := { st with held := SMap.erase st.held slot, expect := SMap.set st.expect slot (mb + q.slots) }
      let s := if q.dir = 0 ∧ q.receiver + 1 = p.acts ∧ q.recvPos = p.position then s.offLast p clu q.receiver mb else s
      if senderHere p q then s.setQ q.queue { st with returned := st.returned ++ [mb] }
      else (s.setQ q.queue st).tell (p.senderAddr q) (.returnCredit q.queue mb)

/-- The error of a transfer that a slot does not take: no context is concerned and none stops by itself (R222). -/
def State.queueError (s : State) (g queue mb : Nat) : State :=
  s.engineError (srcClu g 0) 1 0xFF 0xFF 0 0 (queue + mb * 65536)

/-- A transfer at a queue's receiving end (R222): its slot must expect the micro-batch and be free. -/
def State.takeTransfer (s : State) (p : Prog) (q : QueueE) (x : QueueXfer) : State :=
  let g := q.recvCluster
  let mb := x.mb.toNat
  let st := s.q q.queue
  let slot := mb % q.slots
  if SMap.get st.expect slot slot ≠ mb ∨ (SMap.get? st.held slot).isSome ∨ q.slotBytes < x.data.length then
    s.queueError g q.queue mb
  else
    let t := s.store (q.base + slot * q.slotBytes) x.data
    match t.2 with
    | some e => t.1.memError (srcClu g 0) 0xFF (s.sramPort g 47 e.addr) 0 e
    | none =>
      let st := { st with held := SMap.set st.held slot mb }
      if senderHere p q then t.1.setQ q.queue { st with acked := st.acked ++ [mb] }
      else (t.1.setQ q.queue st).tell (p.senderAddr q) (.queueAck q.queue mb)

/-- QUEUE_TRANSFER (R222, R258, R457): an arriving transfer of the device's current attempt is checked and written, or refused with
an engine error and a veto; at a cluster in nap it waits and asks for the wake. -/
def execQueueTransfer (x : QueueXfer) (s : State) : Out :=
  match s.job.prog with
  | some p =>
    if x.stepTag.toNat ≠ s.tagNow then go s
    else match p.queue? x.queue.toNat with
    | none => go (s.queueError 0 x.queue.toNat x.mb.toNat)
    | some q =>
      if q.recvPos ≠ p.position then go s
      else if s.napped q.recvCluster then go ((s.holdAt q.recvCluster (.transfer x)).wakeFor q.recvCluster)
      else go (s.takeTransfer p q x)
  | none => go s

/-- What waited at a router stop goes on once the cluster has woken (R457); a transfer of an attempt that is over is dropped (R258). -/
def State.arrive (s : State) (g : Nat) : Waiting → State
  | .count ctr n => s.addCounter g ctr n
  | .write a b =>
    match s.store a b with
    | (t, none) => t
    | (t, some e) => t.memError (srcClu g 0) 0xFF (s.sramPort g 47 e.addr) 0 e
  | .transfer x =>
    match s.job.prog with
    | none => s
    | some p =>
      match p.queue? x.queue.toNat with
      | some q => if x.stepTag.toNat = s.tagNow then s.takeTransfer p q x else s
      | none => s

/-! ### Units -/

/-- The context that a unit serves: the one it served last, or, before the first, the lowest with work. -/
def State.serving (s : State) (g unit : Nat) : Option Nat :=
  let c := s.clu g
  match SMap.get? c.serving unit with
  | some k => some k
  | none => (List.range 8).find? (fun k => !(SMap.get c.queues (unit * 8 + k) []).isEmpty)

/-- What a unit answers for a descriptor: the state, and its completion record unless it stopped with an error. -/
abbrev UnitRes := State × Option Completion

/-- The source of a unit's records. -/
def srcUnit (g unit : Nat) : Nat := if unit < 40 then srcCore (g * 40 + unit) else srcClu g (unit - 39)

/-- A unit runs the descriptor at the head of the queue of the context it serves, if it is one that the command names (R149); it
retires with its completion record and its signal (R147, R151), unless an error stopped it (R150). A context whose state
on a core lies in its save area waits for the switch that restores it (R149). -/
def unitRow (g unit : Nat) (names : List Word → Bool) (s : State) (f : Nat → QItem → State → UnitRes) : Out :=
  if !s.runs g then go s
  else match s.serving g unit with
  | none => go s
  | some k =>
    match SMap.get (s.clu g).queues (unit * 8 + k) [] with
    | [] => go s
    | it :: rest =>
      if !names it.words ∨ !s.mayAct g k ∨ s.ctxState g k = 5 ∨
          (unit < 40 ∧ (s.core (g * 40 + unit)).saved.contains k) then go s
      else
        let c := s.clu g
        let s := s.setClu g { c with serving := SMap.set c.serving unit k }
        match f k it s with
        | (t, none) => go t.hangCheck
        | (t, some r) =>
          let c := t.clu g
          let q := if rest.isEmpty then SMap.erase c.queues (unit * 8 + k) else SMap.set c.queues (unit * 8 + k) rest
          let t := (t.setClu g { c with queues := q, comp := SMap.set c.comp unit r }).retired g k it.addr
          let t := match it.sig with
            | some (cl, ctr, add) => t.signalTo g cl ctr add
            | none => t
          go t.passDone.hangCheck

end Sys2Proof.Machine
end

