-- ==== Sys2Proof/Machine/Fabric.lean ====
section
/-!
DEFINITION. What the site fabric brings (R246 to R268): streams at their destination and their acknowledgements (R257, R258), the router
(R254, R255, R262, R264), link retry and credits (R252, R255, R256), bring-up (R248) and its rows.
-/

namespace Sys2Proof.Machine

/-! ### Frames that arrive -/

/-- HCRC and the reserved fields of the header hold (R249). -/
def headOk (b : Bytes) : Bool := rd 30 2 b == crc16 (b.take 30)
/-- FCRC holds and LENGTH is the payload's (R249). -/
def bodyOk (b : Bytes) : Bool :=
  b.length == 36 + rd 6 2 b && rd (b.length - 4) 4 b == crc32c (slice 4 26 b ++ slice 32 (rd 6 2 b) b)
/-- A copy that its sender has ended with the PCS error character: it has no FCRC (R254). -/
def cutOff (b : Bytes) : Bool := b.length == 32 + rd 6 2 b

/-! ### Streams (R257, R258) -/

/-- The receiving stream from a device. -/
def State.rxOf (s : State) (src stream : Nat) : RxStream :=
  (s.fabric.rx.find? (fun x => x.src == src && x.stream == stream)).getD { src := src, stream := stream }
/-- Put a receiving stream. -/
def State.setRx (s : State) (x : RxStream) : State :=
  { s with fabric := { s.fabric with rx := s.fabric.rx.filter (fun y => y.src != x.src || y.stream != x.stream) ++ [x] } }

/-- The number under which frames of a permutation entry are held. -/
def permKey (op : Nat) : Nat := 2 ^ 32 + op

/-- A run of a plan entry that lacks only the acknowledgement of its frames completes with it and signals (R257, R272). -/
def State.opDone (s : State) (o : PlanOp) (op run : Nat) : State :=
  if s.unackedOp op (some run) then { s with jug := { s.jug with due := s.jug.due ++ [(op, run)] } } else s.planSignal o

/-- Frames of a run have been acknowledged: the run completes if they were the last, and if nothing else is due of it. -/
def State.opAcked (s : State) (x : Nat × Nat) : State :=
  if s.unackedOp x.1 (some x.2) then s
  else if x.1 < 2 ^ 32 then
    if !s.jug.due.contains x then s
    else
      let t := { s with jug := { s.jug with due := s.jug.due.filter (· != x) } }
      match s.job.prog.bind (fun p => p.plan.ops[x.1]?) with
      | some o => t.planSignal o
      | none => t
  else match s.reshard with
  | some r =>
    match r.plan.ops[x.1 - 2 ^ 32]? with
    | some o =>
      if o.typ ≠ 6 then
        if s.jug.due.contains x then ({ s with jug := { s.jug with due := s.jug.due.filter (· != x) } }).planSignal o else s
      else if r.done.contains (x.1 - 2 ^ 32) then s
      else ({ s with reshard := some { r with done := r.done ++ [x.1 - 2 ^ 32] } }).planSignal o
    | none => s
  | none => s

/-- A SACK at a sender (R257, R272): frames before the next SEQ expected are done, and with them the runs whose last frames they were. -/
def State.takeSack (s : State) (src stream : Nat) (next : Word) : State :=
  let x := s.txOf src stream
  let gone := x.held.filter (fun h => decide (h.1 < next))
  if gone.isEmpty ∨ x.next < next then s
  else
    let t := s.setTx { x with held := x.held.filter (fun h => !decide (h.1 < next)), resends := 0 }
    ((gone.map (fun h => (h.2.1, h.2.2.1))).eraseDups).foldl State.opAcked t

/-- A stream receiver acknowledges: a SACK frame that carries the next SEQ expected. -/
def State.sendSack (s : State) (src stream : Nat) : State :=
  let x := s.rxOf src stream
  let t := s.setRx { x with since := 0, owes := false }
  if src = s.self then t.takeSack src stream x.next
  else t.launch (routedFrameOf 4 src s.self 0 stream 0 0 (le 8 x.next.toNat))

/-- What a CTRL frame of a queue tells the sending end (R222, R250), with the step number that its payload carries (R258); its layout is the
model's (assumption 6): 0x10 QGRANT, 0x11 QRETURN, 0x12 the receiver's acknowledgement. One of another step has no effect. -/
def State.takeCtrl (s : State) (b : Bytes) : State :=
  let q := rd 34 2 b
  let n := rd 36 4 b
  let x := SMap.get s.qs q {}
  let put := fun (y : QState) => { s with qs := SMap.set s.qs q y }
  if frType b ≠ 5 ∨ rd 40 8 b ≠ s.stepNow then s
  else if rd 32 1 b = 0x10 then put { x with credits := n }
  else if rd 32 1 b = 0x11 then put { x with returned := x.returned ++ [n] }
  else if rd 32 1 b = 0x12 then put { x with acked := x.acked ++ [n] }
  else s

/-- The firmware image that board flash holds, as far as its header reaches (R336). -/
def State.flashImage (s : State) : Bytes :=
  cellsReadN flashDflt s.flash 0 (4096 + min 12582912 (rd 16 8 (cellsReadN flashDflt s.flash 0 24)))

/-- A frame of FW_FETCH (R393): a DATA frame of stream 0xFFFF. -/
def fetchFrame (b : Bytes) : Bool := frType b == 1 && frStream b == 0xFFFF

/-- A request of FW_FETCH is served from this device's own flash when the MIRROR commands name the requester as the partner, and answered with
an empty frame when not (R393; the payloads of request and refusal are the model's, assumption 6). -/
def State.serveFetch (s : State) (b : Bytes) : State :=
  if !fetchFrame b ∨ !s.fw.up then s
  else s.streamOut 1 (frSrc b) 0xFFFF 0 noOp 0 (if s.mirState ≠ 0 ∧ frSrc b = s.partner then s.flashImage else [])

/-- STREAM_FRAME (R257, R258): the oldest frame delivered to the device. DATA, QFWD, QBWD and MIRROR frames of another step tag are discarded,
but for those of FW_FETCH, which belong to no step (R393); the next SEQ is accepted, a lower one acknowledged again, a higher one
discarded. -/
def execStreamFrame (s : State) : Out :=
  match s.fabric.arrived with
  | [] => go s
  | (p, b) :: rest =>
    let s := { s with fabric := { s.fabric with arrived := rest } }
    if frType b ∈ [1, 2, 3, 6] ∧ frTag b ≠ s.tagNow ∧ !fetchFrame b then go (s.discardAt p)
    else
      let x := s.rxOf (frSrc b) (frStream b)
      if frSeq b = x.next then
        let y := { x with next := x.next + 1, since := x.since + 1, owes := true }
        let t := ((s.setRx y).takeCtrl b).serveFetch b
        go (if y.since = 16 then t.sendSack y.src y.stream else t)
      else if frSeq b < x.next then go ((s.discardAt p).sendSack x.src x.stream)
      else go (s.discardAt p)

/-- Frames of a stream whose payload an engine takes: all must have been accepted, and each is taken once (R257, R259). -/
def State.takeFrames (s : State) (src stream : Nat) (seq : Word) (n : Nat) : Option State :=
  let x := s.rxOf src stream
  if x.used ≤ seq ∧ seq.toNat + n ≤ x.next.toNat then some (s.setRx { x with used := BitVec.ofNat 64 (seq.toNat + n) }) else none

/-- SACK (R257). -/
def execSack (src : BitVec 20) (stream : BitVec 16) (next : Word) (s : State) : Out := go (s.takeSack src.toNat stream.toNat next)

/-- SACK_TIMER (R257). -/
def execSackTimer (src : BitVec 20) (stream : BitVec 16) (s : State) : Out :=
  if (s.rxOf src.toNat stream.toNat).owes then go (s.sendSack src.toNat stream.toNat) else go s

/-- E2E_RESEND (R257): without progress the sender sends again from its oldest unacknowledged frame; after eight re-sends the stream has
failed, which is recorded and vetoes the step. -/
def execE2eResend (dest : BitVec 20) (stream : BitVec 16) (s : State) : Out :=
  let x := s.txOf dest.toNat stream.toNat
  match x.held with
  | [] => go s
  | h :: _ =>
    if x.resends < 8 then go (x.held.foldl (fun t y => t.launch y.2.2.2) (s.setTx { x with resends := x.resends + 1 }))
    else go ((((s.setTx { x with held := [], resends := 0 }).frameRec 3 stream.toNat dest.toNat s.self h.1.toNat).raise 7).veto 7 0 0)

/-! ### The router (R254, R255, R262, R264) -/

/-- Ask for a replay, and discard until it comes; a further damaged copy of the awaited frame asks once more (R255, R256). -/
def State.askReplay (s : State) (p : Nat) (again : Bool) : State :=
  let x := s.sport p
  if x.waiting ∧ !again then s else (s.setSport p { x with waiting := true }).emit (.link p (linkFrame 0x82 x.rxSeq.toNat))

/-- Where the router takes a frame that came in on a port: its output with the lane it leaves on (R262, R264). -/
inductive Hop where
  | here
  | out (port lane : Nat)
  | noRoute
  | loop

/-- The next hop of a frame (R262, R264). -/
def State.hop (s : State) (b : Bytes) : Hop :=
  match s.routeOf (frDest b) with
  | none => .noRoute
  | some (8, _) => .here
  | some (q, d) => if 64 ≤ rd 1 1 b + 1 then .loop else .out q (if d then 1 else rd 0 1 b % 2)

/-- The key of the buffer that a frame occupies at the port it came in on. -/
def bufKey (p : Nat) (b : Bytes) : Nat := p * 8 + frVc b * 2 + rd 0 1 b % 2

/-- Forward a frame that a port has accepted, or deliver it here; one without a route and one that reaches 64 hops are discarded, counted
and recorded. A SACK that is for this device reaches its stream at once. -/
def State.forward (s : State) (p : Nat) (b : Bytes) : State :=
  let free := s.oweCredits (bufKey p b) (frCredits b)
  let lost := fun (e : Nat) => (free.discardAt p).frameRec e (frStream b) (frDest b) (frSrc b) (frSeq b).toNat
  match s.hop b with
  | .noRoute => lost 1
  | .loop => lost 2
  | .here =>
    if frType b = 4 then free.takeSack (frSrc b) (frStream b) (BitVec.ofNat 64 (rd 32 8 b))
    else { free with fabric := { free.fabric with arrived := free.fabric.arrived ++ [(p, b)] } }
  | .out q lane => s.toPort q lane (bufKey p b) b

/-- A frame whose FCRC fails at its end: if its output was free, the router has begun to forward it, and ends the outgoing copy with the
error character; that copy has its own LSEQ and credits (R254, R255). -/
def State.cutThrough (s : State) (b : Bytes) : State :=
  match s.hop b with
  | .out q lane =>
    let x := s.sport q
    let vc := frVc b
    let room := 2 ^ 20 - x.replay.foldl (fun (n : Nat) r => n + r.2.length) 0
    if x.queue ≠ [] ∨ !s.linkUp q ∨ SMap.get x.credits (vc * 2 + lane) 0 < frCredits b ∨ room < 32 + rd 6 2 b then s
    else
      let out := hopOut lane 0 x.txSeq (b.take (32 + rd 6 2 b))
      (s.setSport q { x with used := s.turn q vc, txSeq := x.txSeq + 1, replay := x.replay ++ [(x.txSeq, out)],
                             credits := SMap.upd x.credits (vc * 2 + lane) 0 (· - frCredits b) }).emit (.frame q out)
  | _ => s

/-- A link counts the frame with the LSEQ it expects as received, and acknowledges every 32nd (R255). -/
def State.linkTake (s : State) (p : Nat) : State :=
  let x := s.sport p
  let owed := x.owed + 1
  let t := s.setSport p { x with rxSeq := x.rxSeq + 1, waiting := false, owed := if owed = 32 then 0 else owed }
  if owed = 32 then t.emit (.link p (linkFrame 0x81 (x.rxSeq + 1).toNat)) else t

/-- ROUTED_FRAME (R254, R255, R262): the link accepts frames in LSEQ order and the router takes them on. A header whose HCRC fails is discarded
and counted here; a frame that fails at its end is replayed on this link; a copy that ends with the error character is discarded and
counted, and its LSEQ counts as received. -/
def execRoutedFrame (port : PortNo) (bytes : List Byte) (s : State) : Out :=
  let p := port.val
  if !s.linkUp p then go s
  else
    let mine := rd 2 2 bytes == (s.sport p).rxSeq.toNat
    if !headOk bytes then go ((s.discardAt p).askReplay p mine)
    else if !mine then go (s.askReplay p false)
    else if cutOff bytes then go (((s.linkTake p).oweCredits (bufKey p bytes) (frCredits bytes)).discardAt p)
    else if !bodyOk bytes then go ((s.cutThrough bytes).askReplay p true)
    else go ((s.linkTake p).forward p bytes)

/-! ### Link retry and credits (R252, R255) -/

/-- Whether an LSEQ lies before another, modulo 2^16. -/
def lseqBefore (a b : BitVec 16) : Bool := decide ((a - b).toNat ≥ 32768)

/-- LACK (R255, R256): frames before the next LSEQ expected leave the replay buffer; one beyond the LSEQ under replay ends the count of its
replays. -/
def execLack (port : PortNo) (lseq : BitVec 16) (s : State) : Out :=
  let x := s.sport port
  let keep := x.replay.filter (fun r => !lseqBefore r.1 lseq)
  if !s.linkUp port ∨ keep.length = x.replay.length then go s
  else go ((s.setSport port { x with replay := keep, replays := if lseqBefore x.replayed lseq then 0 else x.replays }).pumpPort port x.queue.length)

/-- What waits for a port that has gone down takes other routes, each frame as it arrived; the link layer starts afresh (R256, R262). -/
def State.clearPort (s : State) (p : Nat) : State :=
  let x := s.sport p
  let t := s.setSport p {}
  x.queue.foldl (fun t q => if q.2.2.1 < 64 then t.forward (q.2.2.1 / 8) q.2.2.2 else t.launch q.2.2.2) t

/-- A port goes down: cause, record, replay buffer discarded; with AUTO_RETRAIN it trains again (R256). -/
def State.downPort (s : State) (p cause : Nat) : State :=
  let retrain := s.rf (oPortCtl p) 24 24 == 1
  let t := ((s.wf (oPortStatus p) 63 62 (b2n retrain)).wf (oPortStatus p) 61 58 cause).clearPort p
  t.linkRec srcRouter 0 p 1 cause 0

/-- LNAK (R255, R256): every frame from the LSEQ is sent again in order; the sixteenth replay of one LSEQ without a LACK beyond it takes the
port down. -/
def execLnak (port : PortNo) (lseq : BitVec 16) (s : State) : Out :=
  if !s.linkUp port then go s
  else
    let x := s.sport port
    let n := if x.replayed = lseq then x.replays + 1 else 1
    let t := (s.setSport port { x with replayed := lseq, replays := n }).satAdd (oPortStatus port) 31 16 1
    let t := (x.replay.filter (fun r => !lseqBefore r.1 lseq)).foldl (fun t r => t.emit (.frame port r.2)) t
    go (if 16 ≤ n then t.downPort port 3 else t)

/-- LACK_TIMER (R255). -/
def execLackTimer (port : PortNo) (s : State) : Out :=
  let x := s.sport port
  if x.owed = 0 ∨ !s.linkUp port then go s
  else go ((s.setSport port { x with owed := 0 }).emit (.link port (linkFrame 0x81 x.rxSeq.toNat)))

/-- CREDIT (R252): credits return, and what waits for them goes. -/
def execCredit (port : PortNo) (vc : Fin 4) (lane : Fin 2) (n : BitVec 16) (s : State) : Out :=
  let x := s.sport port
  if !s.linkUp port then go s
  else
    let t := s.setSport port { x with credits := SMap.upd x.credits (vc.val * 2 + lane.val) 0 (fun c => min (fullCredits vc) (c + n.toNat)) }
    go (t.pumpPort port x.queue.length)

/-- CREDIT_TIMER (R252): a CREDIT frame for each channel and lane that is owed. -/
def execCreditTimer (port : PortNo) (s : State) : Out :=
  let x := s.sport port
  if !s.linkUp port then go s
  else go ((x.owes.filter (fun o => o.2 != 0)).foldl (fun t o => t.emit (.link port (linkFrame 0x83 (o.1 / 2 + o.1 % 2 * 4 + o.2 * 65536))))
    (s.setSport port { x with owes := [] }))

/-- PORT_DOWN (R256): cause 0 is REPLAY, 1 NOACK, 2 ALIGN. -/
def execPortDown (port : PortNo) (cause : Fin 3) (s : State) : Out :=
  if s.portUp port then go (s.downPort port (3 + cause.val)) else go s

/-! ### Bring-up (R248) -/

/-- The address that a port expects of its neighbour: the routing table's, or in Sideshow mode the partner's of the board block
(R248, R393). -/
def State.neighbour (s : State) (p : Nat) : Nat :=
  match s.job.prog with
  | some g => g.route.neighbours.getD p 0xFFFFF
  | none => if s.fw.side ∧ rd 8 1 s.fw.cfg = p then rd 16 4 s.fw.cfg % 2 ^ 20 else 0xFFFFF

/-- The port enters FAULT (R248). -/
def State.portFault (s : State) (p cause : Nat) : State :=
  (((s.wf (oPortStatus p) 63 62 3).wf (oPortStatus p) 61 58 cause).setSport p {}).linkRec srcRouter 0 p 3 cause 0

/-- The mirror port has come up for FW_FETCH: the partner is asked for its flash image, with an empty DATA frame on stream 0xFFFF (R393,
assumption 6). -/
def State.askImage (s : State) : State :=
  if s.fw.side ∧ s.fw.fetch.isSome ∧ s.mirrorUp then s.streamOut 1 s.farEnd 0xFFFF 0 noOp 0 [] else s

/-- The end of a bring-up (R248): the neighbour and the largest of five echoes are checked; the port is UP, and carries routed traffic at
once unless a step runs. -/
def State.portCheck (s : State) (p addr : Nat) (echoes : List Nat) : State :=
  let rtt := (echoes.take 5).foldl max 0
  let s := s.wf (oPortStatus p) 47 32 (min rtt 0xFFFF)
  if addr ≠ s.neighbour p ∨ addr = 0xFFFFF then s.portFault p 1
  else if 4800 < rtt then s.portFault p 2
  else
    let full : SMap Nat := (List.range 8).map (fun k => (k, fullCredits (k / 2)))
    (((s.wf (oPortStatus p) 63 62 2).setSport p { peer := addr, credits := full, carries := s.job.running.isNone }).linkRec srcRouter 0 p 2 0 0).askImage

/-- An IDENT frame with this device's address and a time (R251); the sixteen bits that HCRC leaves of the field travel (assumption 56). -/
def State.ident (s : State) (p time : Nat) : State := s.emit (.link p (linkFrame 0x85 (s.self + time % 65536 * 2 ^ 32)))

/-- Ask for an echo: an IDENT frame with this device's time. -/
def State.identAsk (s : State) (p : Nat) (x : SPort) : State := (s.setSport p { x with stamp := some s.now }).ident p s.now

/-- PORT_BRING_UP (R248): training and alignment, then the exchange of IDENT frames; five echoes end it, and fewer leave the port in
TRAINING, waiting for IDENT frames. -/
def execPortBringUp (port : PortNo) (trained aligned : Bool) (neighbour : BitVec 20) (echoes : List Nat) (s : State) : Out :=
  if 2 ≤ s.rf (oPortStatus port) 63 62 ∨ s.rf (oPortCtl port) 25 25 = 1 then go s
  else if !trained then go (s.portFault port 6)
  else if !aligned then go (s.portFault port 5)
  else if echoes.length < 5 then go ((s.wf (oPortStatus port) 63 62 1).identAsk port { peer := neighbour.toNat, echoes := echoes })
  else go (s.portCheck port neighbour.toNat echoes)

/-- IDENT_FRAME (R248, R251, assumption 56): the neighbour's address, with a time. The time this device sent last is an echo, which gives a
round trip; the fifth ends the bring-up and the others ask for one more. Any other time is the neighbour's, and is echoed. A port that is not
training takes no notice. -/
def execIdentFrame (port : PortNo) (addr : BitVec 20) (echo : BitVec 32) (s : State) : Out :=
  if s.rf (oPortStatus port) 63 62 ≠ 1 then go s
  else
    let x := { s.sport port with peer := addr.toNat }
    let t := echo.toNat % 65536
    if x.stamp.map (· % 65536) = some t then
      let l := x.echoes ++ [s.now - x.stamp.getD s.now]
      if l.length < 5 then go (s.identAsk port { x with echoes := l }) else go (s.portCheck port addr.toNat l)
    else go ((s.setSport port x).ident port t)

end Sys2Proof.Machine
end

