-- ==== Sys2Proof/Machine/Shards.lean ====
section
/-!
DEFINITION. The elements of the entries that a device holds (R168 to R175, R202), their update shards, fingerprints (R200), and the messages of the
mirror (R194).
-/

namespace Sys2Proof.Machine

/-- The start of one of the five arrays of R202: 0 master, 1 moment, 2 anchor, 3 outer momentum, 4 residual. -/
def Home.arr (h : Home) : Nat → Nat
  | 0 => h.mas
  | 1 => h.mom
  | 2 => h.anchor
  | 3 => h.omom
  | _ => h.resid

/-- Whether an entry's committed elements of a step lie in the cold window, but for those in the staging pool (R202): an own entry with COLD
set, and a step that is committed. A carried entry lies in the mirror region and the reserve (R418, assumption 30). -/
def State.inCold (s : State) (p : Prog) (h : Home) (i step : Nat) : Bool :=
  h.e.cold && decide (i < p.smap.length) && decide (step ≤ s.committed)

/-- Address of an element of a cold entry's committed array at a step: in the staging pool for a row whose write-back is due or that the running
step has staged, at COLD_BASE otherwise (R202, R203). `h` is the home of that step. -/
def State.coldAddr (s : State) (p : Prog) (h : Home) (i step arr pos : Nat) : Nat :=
  let row := pos / max h.e.rowLen 1
  match s.strg.writeback.find? (fun x => x.1 == i && x.2.1 == row) with
  | some x => (if step ≤ x.2.2 then h else (s.home p i x.2.2).getD h).arr arr + 4 * pos
  | none =>
    if step = s.committed ∧ (SMap.get s.strg.touched i []).contains row then h.arr arr + 4 * pos
    else h.e.coldBase + 4 * (arr * h.e.count + pos)

/-- Address of a home's AVG of a step (R172). -/
def Home.avg (h : Home) (step : Nat) : Nat := h.rcd + 4 * (step % 2)

/-- The shards of the held entries that lie in a parameter range of a tensor: entry, shard, first parameter, length (R174). -/
def State.shardsIn (s : State) (p : Prog) (tensor first count : Nat) : List (Nat × Nat × Nat × Nat) :=
  (s.held p).zipIdx.flatMap (fun x =>
    let e := x.1
    if e.tensor ≠ tensor then []
    else (List.range e.shards).filterMap (fun k =>
      let f := e.first + 65536 * k
      if f < first + count ∧ first < f + e.shardLen k then some (x.2, k, f, e.shardLen k) else none))

/-- A key of maps over shards or over the rows of entries. -/
def pairKey (i k : Nat) : Nat := i * 2 ^ 32 + k

/-- Every shard of every held entry. -/
def State.allShards (s : State) (p : Prog) : List (Nat × Nat) :=
  (s.held p).zipIdx.flatMap (fun x => (List.range x.1.shards).map (fun k => (x.2, k)))

/-! ### What a Strongman meets (R186, R190, R396) -/

/-- STRG_VETO of a Strongman takes the kind of a veto that it detects, the tensor and the position (R186). -/
def State.strgMark (s : State) (sm kind tensor pos : Nat) : State :=
  let o := oStrgVeto sm
  ((s.wf o 63 56 kind).wf o 55 40 tensor).wf o 31 0 pos

/-- A memory error that a Strongman meets in an entry, at a position of it: STRG_VETO, then the error and its ENGINE veto (R186, R190, R396). -/
def State.strgMem (s : State) (e : SEntry) (pos : Nat) (x : MemErr) : State :=
  (s.strgMark e.strong 7 e.tensor pos).memError e.src 0xFF 0xFF 0 x

/-- A Strongman writes at a position of an entry (R361). -/
def State.strgPut (s : State) (e : SEntry) (pos a : Nat) (b : Bytes) : State :=
  match s.store a b with
  | (t, none) => t
  | (t, some x) => t.strgMem e pos x

/-! ### Fingerprints (R200) -/

/-- h of R200. -/
def fpH (sa sb layer index : Nat) (v : BitVec 32) : Word :=
  (zcg (BitVec.ofNat 64 sa) (v.zeroExtend 64) (BitVec.ofNat 16 layer) (BitVec.ofNat 48 index)) ++
    (zcg (BitVec.ofNat 64 sb) (v.zeroExtend 64) (BitVec.ofNat 16 layer) (BitVec.ofNat 48 index))

/-- The fingerprint of consecutive parameters (R200). -/
def fpSum (sa sb layer : Nat) : Nat → List (BitVec 32) → Word
  | _, [] => 0
  | i, v :: vs => fpH sa sb layer i v + fpSum sa sb layer (i + 1) vs

/-! ### Working weights (R185) -/

/-- fp16_rne of a master, with overflow to infinity (R185). -/
def workOf (w : BitVec 32) : Nat := (convF fp16 0 0 (decodeF fp32 w.toNat)).x
/-- The bytes of the working weights of masters. -/
def workBytes (ws : List (BitVec 32)) : Bytes := ws.flatMap (fun w => le 2 (workOf w))

/-- Read FP32 elements. -/
def State.read32 (s : State) (a n : Nat) : Except MemErr (List (BitVec 32)) :=
  match s.load a (4 * n) with
  | .ok b => .ok (words32 b)
  | .error e => .error e

/-- Consecutive elements of an array of a held entry as of a step, those of the cold window among them (R202). -/
def State.elems (s : State) (p : Prog) (h : Home) (i step arr pos n : Nat) : Except MemErr (List (BitVec 32)) :=
  if s.inCold p h i step then
    (List.range n).mapM (fun j =>
      match s.load (s.coldAddr p h i step arr (pos + j)) 4 with
      | .ok b => .ok (BitVec.ofNat 32 (leNat b))
      | .error e => .error e)
  else s.read32 (h.arr arr + 4 * pos) n

/-- Write consecutive elements of an array of a held entry as of a step. Of a cold entry the staging pool takes them too, so that a row staged
before does not carry older values back (R203). -/
def State.putElems (s : State) (p : Prog) (h : Home) (i step arr pos : Nat) (vs : List (BitVec 32)) : State :=
  let t := s.putBy h.e.src (h.arr arr + 4 * pos) (le32s vs)
  if s.inCold p h i step then vs.zipIdx.foldl (fun t x => t.putBy h.e.src (s.coldAddr p h i step arr (pos + x.2)) (le 4 x.1.toNat)) t else t

/-- Write the working weights of a shard from its committed masters; an unreadable master is left (R185). -/
def State.deriveShard (s : State) (p : Prog) (i k step : Nat) : State :=
  match s.home p i step with
  | none => s
  | some h =>
    match s.elems p h i step 0 (65536 * k) (h.e.shardLen k) with
    | .ok ws => s.putBy h.e.src (h.w + 2 * (65536 * k)) (workBytes ws)
    | .error _ => s

/-! ### The mirror (R193 to R195) -/

/-- Whether the device streams its shards to a partner: it is paired and the partner is not lost (R194, R413, R419). -/
def State.mirroring (s : State) : Bool := s.mirState == 1 || s.mirState == 2

/-- MIRROR_DATA of a shard as it stands in the slots of a step (R194). -/
def State.mirrorMsg (s : State) (p : Prog) (h : Home) (i k step : Nat) (digest : Word) : Except MemErr Bytes :=
  let n := h.e.shardLen k
  let last := k + 1 == h.e.shards
  match s.elems p h i step 0 (65536 * k) n, s.elems p h i step 1 (65536 * k) n, s.load h.rcd 64 with
  | .error e, _, _ => .error e
  | _, .error e, _ => .error e
  | _, _, .error e => .error e
  | .ok a, .ok b, .ok r =>
    let st := if h.e.rule = 3 then
        s.peek h.row (4 * h.e.rows) ++ s.peek h.col (4 * h.e.rowLen) ++ s.peek h.tot 4
      else []
    let d := padTo 8 (le32s a ++ le32s b ++ (if last then r ++ st else []))
    let head := le 4 0x4452494D ++ le 2 p.epoch ++ le 1 (b2n last) ++ zeros 1 ++ le 8 step ++ le 4 i ++ le 4 k ++ le 4 n ++
      zeros 4 ++ le 8 digest.toNat ++ le 8 d.length ++ zeros 16
    .ok (head ++ d ++ le 4 (crc32c (head ++ d)))

/-- The stream of MIRROR frames toward the partner (assumption 6). -/
def mirrorStream : Nat := 0xFFFF

/-- Put a frame in the place of one that is held and still waits in a port's queue. -/
def State.swapFrame (s : State) (x : TxStream) (old new : Bytes) : State :=
  let y := s.txOf x.dest x.stream
  let t := s.setTx { y with held := y.held.map (fun h => if h.2.2.2 == old then (h.1, h.2.1, h.2.2.1, new) else h) }
  { t with fabric := { t.fabric with ports := t.fabric.ports.map (fun (q : Nat × SPort) =>
    (q.1, { q.2 with queue := q.2.queue.map (fun f => if f.2.2.2 == old then (f.1, f.2.1, f.2.2.1, new) else f) })) } }

/-- A shard's mirror message leaves as consecutive MIRROR frames of one stream, or takes the place of the shard's latest message before it when all
frames of that one still wait in a port's queue (R194); `run` names the shard, whose messages are of one length. -/
def State.mirrorSend (s : State) (p : Prog) (run : Nat) (m : Bytes) : State :=
  let t := s.emit (.mirror s.partner m)
  let x := t.txOf s.partner mirrorStream
  let held := x.held.filter (fun h => h.2.2.1 == run)
  let waits := fun (b : Bytes) => t.fabric.ports.any (fun q => q.2.queue.any (fun f => f.2.2.2 == b))
  let parts := payloads (frameCount m) m
  let old := held.drop (held.length - parts.length)
  if old.isEmpty ∨ old.length ≠ parts.length ∨ !old.all (fun h => waits h.2.2.2) then
    t.streamOut 6 s.partner mirrorStream p.epoch noOp run m
  else
    (old.zip parts).foldl (fun u h =>
      u.swapFrame x h.1.2.2.2 (routedFrameOf 6 s.partner s.self h.1.1.toNat mirrorStream s.tagNow p.epoch h.2)) t

/-- Stream a shard of a step to the partner; a shard waits for its acknowledgement until it arrives (R194). -/
def State.mirrorShard (s : State) (p : Prog) (i k step : Nat) (digest : Word) : State :=
  match s.home p i step with
  | none => s
  | some h =>
    match s.mirrorMsg p h i k step digest with
    | .error e => s.strgMem h.e (65536 * k) e
    | .ok m =>
      let t := s.mirrorSend p (pairKey i k + 1) m
      { t with strg := { t.strg with
          mirrored := if t.strg.mirrored.contains (i, k) then t.strg.mirrored else t.strg.mirrored ++ [(i, k)]
          acked := t.strg.acked.filter (· != (i, k))
          vetoed := t.strg.vetoed.filter (· != (i, k))
          restream := t.strg.restream.filter (· != (i, k)) } }

/-- Whether a shard's tag in the mirror region reads VALID. -/
def State.tagValid (s : State) (i k : Nat) : Bool := (s.load (s.mirror.tagAddr i k + 18) 1).toOption == some [1]

/-- STEP of a shard's tag. -/
def State.tagStep (s : State) (i k : Nat) : Nat := leNat (s.peek (s.mirror.tagAddr i k) 8)

/-- Every shard of the mirror region is valid and of the committed step, or, while a step runs, no older (R193, R195). -/
def State.mirrorFull (s : State) : Bool :=
  s.mirror.map.zipIdx.all (fun x => (List.range x.1.shards).all (fun k =>
    s.tagValid x.2 k && decide (s.committed ≤ s.tagStep x.2 k) && (s.job.running.isSome || decide (s.tagStep x.2 k ≤ s.committed))))

/-- The end of a re-stream (R195, R414, R421): once every shard of the mirror region is valid and the partner has
acknowledged every shard streamed to it, MIRROR_VALID reads 1 and the pair is PROTECTED (assumption 31). -/
def State.syncCheck (s : State) : State :=
  if s.mirState = 1 ∧ s.mirrorFull ∧ s.strg.restream = [] ∧ s.strg.mirrored.all (fun x => s.strg.acked.contains x) then
    ((s.wf oCommitState 7 7 1).wf oMir 63 61 2).pairRec 3
  else s

/-- The re-stream of every held shard is due (R195). -/
def State.restreamAll (s : State) : State :=
  match s.job.prog with
  | none => s
  | some p => { s with strg := { s.strg with restream := (p.smap.zipIdx).flatMap (fun x => (List.range x.1.shards).map (fun k => (x.2, k))) } }

end Sys2Proof.Machine
end

