-- ==== Sys2Proof/Machine/Strongman.lean ====
section
/-!
DEFINITION. The Strongman: the checks on arriving gradients (R177), AVG and clipping (R178, R179), the optimiser rules
(R180, R181), fused and two-phase updates (R182 to R184), the drift audit (R186), the outer application (R198, R300), lazy
rows (R202), and the rows SHARD_UPDATE and PHASE_TWO.
-/

namespace Sys2Proof.Machine

/-! ### Arithmetic -/

/-- Whether an FP32 encoding is finite. -/
def fin32 (x : BitVec 32) : Bool := decide (x.toNat / 2 ^ 23 % 256 ≠ 255)
/-- Whether an FP32 encoding is +Inf. -/
def pinf32 (x : BitVec 32) : Bool := x == 0x7F800000
/-- The dyadic of a finite encoding; none for an infinity or a NaN. -/
def num32 (x : BitVec 32) : Option Dy := if fin32 x then some (dy32 x) else none
/-- f of R180 as an operand of a further expression: none when it overflowed. -/
def rnd (d : Dy) : Option Dy := num32 (f32 d)
/-- 1 − x, exact. -/
def Dy.oneMinus (x : Dy) : Dy := (Dy.ofInt 1).sub x
/-- Exact square sum of FP32 values in LX32 (R177, R188). -/
def sumSquares (g : List (BitVec 32)) : Acc :=
  g.foldl (fun a x => a.merge (prodContrib u32e (decodeF fp32 x.toNat) (decodeF fp32 x.toNat))) {}
/-- An accumulator in LX32 units as an exact number. -/
def Acc.dy (a : Acc) : Dy := ⟨a.val, u32e⟩

/-- The clip factor (R179). -/
def clipFactor (norm : Option Acc) (clip : BitVec 32) : BitVec 32 :=
  match norm with
  | none => one32
  | some a =>
    let c := dy32 clip
    if pinf32 clip ∨ !(c.mul c).lt a.dy then one32
    else BitVec.ofNat 32 (roundSqrt fp32 (c.n * c.n).toNat a.val.natAbs (c.e + 149)).x

/-- AVG_new of R178, with a the committed AVG; an infinite AVG stays infinite while it has weight (assumption 29). -/
def avgNew (beta a : BitVec 32) (sum : Acc) (count : Nat) : BitVec 32 :=
  if a = 0 then f32q sum.val count u32e
  else if !fin32 a then (if beta = 0 then f32q sum.val count u32e else a)
  else
    let b := dy32 beta
    let d := ((b.mul (dy32 a)).mul (Dy.ofInt count)).add (b.oneMinus.mul sum.dy)
    f32q d.n count d.e

/-- A factored statistic of R181: f(β2 × old + (1 − β2) × sum / den). -/
def statNew (beta2 old : BitVec 32) (sum : Acc) (den : Nat) : BitVec 32 :=
  let b := dy32 beta2
  let d := ((b.mul (dy32 old)).mul (Dy.ofInt den)).add (b.oneMinus.mul sum.dy)
  f32q d.n den d.e

/-- f(q + eps2) of R180 for RULE 3, with q = f(row × col / tot), or +0 where tot is 0: an overflow gives an infinity (R51). None where a
statistic is not finite (assumption 29). -/
def factored (eps2 row col tot : BitVec 32) : Option (BitVec 32) := do
  let r ← num32 row
  let c ← num32 col
  let t ← num32 tot
  let q := if t.n = 0 then 0 else f32q (if t.n < 0 then -(r.mul c).n else (r.mul c).n) t.n.natAbs ((r.mul c).e - t.e)
  some (BitVec.ofNat 32 (addF fp32 0 0 (decodeF fp32 q.toNat) (decodeF fp32 eps2.toNat)).x)

/-- inner_update of R180: the new master and moment; none where an input or an intermediate that the result needs is not finite
(assumption 29). `row`, `col` and `tot` are the statistics of the element's row, column and tensor. -/
def innerUpdate (rule : Nat) (hp : Hyper) (sdLr sdWd c row col tot w m g : BitVec 32) : Option (BitVec 32 × BitVec 32) := do
  let lr ← rnd ((dy32 sdLr).mul (dy32 hp.lrMult))
  let wd ← rnd ((dy32 sdWd).mul (dy32 hp.wdMult))
  let gd ← num32 g
  let wdy ← num32 w
  let md ← num32 m
  let gc ← rnd ((dy32 c).mul gd)
  let b := dy32 hp.beta
  let m2b := if rule = 0 ∨ rule = 1 then f32 ((b.mul md).add gc) else f32 ((b.mul md).add (b.oneMinus.mul gc))
  let m2 ← num32 m2b
  let u ← if rule = 0 then some m2
    else if rule = 1 then rnd ((b.mul m2).add gc)
    else if rule = 2 then some (Dy.ofInt (if 0 < m2.n then 1 else if m2.n < 0 then -1 else 0))
    else do
      let x ← factored hp.eps2 row col tot
      let rs ← num32 (sfuRsqrt x)
      rnd (m2.mul rs)
  let w2 := f32 (wdy.sub (lr.mul (u.add (wd.mul wdy))))
  some (w2, m2b)

/-- outer application of R198: the new master, anchor and outer momentum; none where one is not finite. -/
def outerApply (betaO etaO : BitVec 32) (w2 anchor omom d e : BitVec 32) : Option (BitVec 32 × BitVec 32 × BitVec 32) := do
  let wd ← num32 w2
  let ad ← num32 anchor
  let od ← num32 omom
  let dd ← num32 d
  let ed ← num32 e
  let b := dy32 betaO
  let mu := f32 ((b.mul od).add dd)
  let mud ← num32 mu
  let step ← rnd ((b.mul mud).add dd)
  let a2 := f32 (ad.add ((dy32 etaO).mul step))
  let a2d ← num32 a2
  let w3 := f32 (((wd.sub ad).add a2d).sub ed)
  some (w3, a2, mu)

/-! ### Checks (R177) -/

/-- Checks 1 to 3 of a check block: kind of R190 and position of the first failing element. -/
def gradCheck (hp : Hyper) (a : BitVec 32) (g : List (BitVec 32)) : Option (Nat × Nat) :=
  match g.findIdx? (fun x => !fin32 x) with
  | some i => some (1, i)
  | none =>
    match (if pinf32 hp.absBound then none
           else g.findIdx? (fun x => (dy32 hp.absBound).lt ⟨((dy32 x).n.natAbs : Int), (dy32 x).e⟩)) with
    | some i => some (2, i)
    | none =>
      let k := dy32 hp.blockK
      if pinf32 hp.blockK ∨ a = 0 ∨ !fin32 a then none
      else if (((k.mul k).mul (dy32 a)).mul (Dy.ofInt g.length)).lt (sumSquares g).dy then some (3, 0) else none

/-- What a shard's check blocks give: per element the results up to the first failing block, and that failure. -/
structure ShardRun where
  out : List (BitVec 32 × BitVec 32) := []
  fail : Option (Nat × Nat) := none
  deriving DecidableEq, Repr

/-- Work the check blocks of a shard in order (R177, R182): `upd` gives an element's new master and moment from its
position, or none where a result is not finite. Fuel is the number of blocks. -/
def shardBlocks (check : List (BitVec 32) → Option (Nat × Nat)) (upd : Nat → BitVec 32 → Option (BitVec 32 × BitVec 32)) :
    Nat → Nat → List (BitVec 32) → ShardRun
  | 0, _, _ => {}
  | f + 1, pos, gs =>
    if gs.isEmpty then {}
    else
      let g := gs.take 256
      match check g with
      | some (k, i) => { fail := some (k, pos + i) }
      | none =>
        let rs := g.zipIdx.map (fun x => upd (pos + x.2) x.1)
        match rs.findIdx? (fun r => match r with | some (a, b) => !fin32 a || !fin32 b | none => true) with
        | some i => { fail := some (1, pos + i) }
        | none =>
          let rest := shardBlocks check upd f (pos + g.length) (gs.drop 256)
          { rest with out := rs.filterMap id ++ rest.out }

/-! ### The step's settings -/

/-- N² of the commit record of the committed step: none when the record is absent, as on the first step that a device runs, or carries no norm, as
after a restore (R179, R188, assumption 61). -/
def State.committedNorm (s : State) (p : Prog) : Option Acc :=
  let b := s.peek (p.commitRec + 4096 * (s.committed % 2)) 96
  if rd 0 8 b ≠ s.committed ∨ rd 12 4 b = 0 ∨ bit 1 (rd 11 1 b) then none else some (lx32Of (slice 16 80 b))

/-- What stands against the committed norm when the clip factor needs it: a memory error of the commit record, or a norm whose residue does not
agree (R42, R179). -/
def State.normFault (s : State) (p : Prog) (j : StepJob) : Option (Option MemErr) :=
  if p.twoPhase ∨ pinf32 (dClip j.desc) then none
  else match s.load (p.commitRec + 4096 * (s.committed % 2)) 96 with
  | .error e => some (some e)
  | .ok b => if rd 0 8 b ≠ s.committed ∨ rd 12 4 b = 0 ∨ bit 1 (rd 11 1 b) ∨ lx32Ok (slice 16 80 b) then none else some none

/-- The clip factor of the running step (R179). -/
def State.clip (s : State) (p : Prog) (j : StepJob) : BitVec 32 :=
  clipFactor (if p.twoPhase then s.strg.p1norm else s.committedNorm p) (dClip j.desc)

/-- Whether the row that holds a parameter of an entry is updated in this step (R202). -/
def State.rowLive (s : State) (e : SEntry) (i pos : Nat) : Bool :=
  !e.lzy || (SMap.get s.strg.touched i []).contains (pos / max e.rowLen 1)

/-- Statistics of R181 that an element's update reads: row, column, tensor. -/
def State.stat (s : State) (h : Home) (pos : Nat) : BitVec 32 × BitVec 32 × BitVec 32 :=
  let f := fun a => BitVec.ofNat 32 (rd 0 4 (s.peek a 4))
  (f (h.row + 4 * (pos / max h.e.rowLen 1)), f (h.col + 4 * (pos % max h.e.rowLen 1)), f h.tot)

/-- A veto that a Strongman detects: STRG_VETO, then the veto (R186, R190). -/
def State.strgVeto (s : State) (e : SEntry) (kind pos : Nat) : State :=
  (s.strgMark e.strong kind e.tensor pos).veto kind e.tensor pos

/-- A residue error in a Strongman's arithmetic (R42): STRG_VETO, then the error and its ENGINE veto (R186, R190). -/
def State.strgResidue (s : State) (sm tensor pos : Nat) : State :=
  (s.strgMark sm 7 tensor pos).residueError (srcStrg sm) 0xFFFFFFFF 0xFF 0 0

/-! ### Rounds applied at a step (R198, R300) -/

/-- Values that a list of runs gives for consecutive parameters; none where one is missing. -/
def runValues (runs : List (Nat × List (BitVec 32))) (first n : Nat) : Option (List (BitVec 32)) :=
  (List.range n).mapM (fun i =>
    runs.findSome? (fun r => if r.1 ≤ first + i ∧ first + i < r.1 + r.2.length then r.2[first + i - r.1]? else none))

/-- Bytes of a received delta in order. -/
def RxDelta.bytes (d : RxDelta) : Bytes := (List.range d.total).map (fun i => SMap.get d.data i 0)

/-- Bytes that the round store holds: the device's own round streams and the deltas received (R301). -/
def Rounds.storeUsed (r : Rounds) : Nat :=
  r.store.foldl (fun (n : Nat) x => n + x.data.length) 0 + r.rx.foldl (fun (n : Nat) x => n + x.total) 0
/-- STORE_BYTES of the running programme. -/
def State.storeBytes (s : State) : Nat := match s.job.prog.bind (·.round) with | some c => c.storeBytes | none => 0
/-- BJN_ROUND_STATE.STORE_FREE follows the round store (R321). -/
def State.storeReg (s : State) : State :=
  s.wf oBjnRoundState 31 0 (min ((s.storeBytes - s.rounds.storeUsed) / 2 ^ 20) (2 ^ 32 - 1))

/-- The bytes of the delta runs held of a site's delta of a round: what was received whole, and, where the site is the device's own, its round
streams (R290). -/
def Rounds.deltaBytes (r : Rounds) (own : Bool) (site : Nat) (round : Word) : List Bytes :=
  (if own then (r.store.filter (fun x => x.round == round)).map (·.data) else []) ++
    (r.rx.filter (fun x => x.site == site && x.round == round && x.complete)).map RxDelta.bytes

/-- The decoded runs of a site's delta of a round, the device's own among them. -/
def State.deltaRuns (s : State) (own : Bool) (site : Nat) (round : Word) : List (Nat × List (BitVec 32)) :=
  (s.rounds.deltaBytes own site round).flatMap (fun b => (readRuns b.length b).getD [])

/-- The manifest that this step applies: the sealed one that names it and is not applied, unless the device's site is dropped (R297, R299). -/
def State.applyNow (s : State) (n : Nat) : Option Manifest :=
  match s.rounds.sealed_ with
  | some m => if !s.rounds.applied ∧ !s.rounds.dropped ∧ m.step.toNat = n then some m else none
  | none => none

/-- D of R300 for consecutive elements. -/
def combined (ws : List (BitVec 32 × List (BitVec 32))) (n : Nat) : List (BitVec 32) :=
  (List.range n).map (fun i =>
    f32 (ws.foldl (fun a x => a.add ((dy32 x.1).mul (dy32 (x.2.getD i 0)))) ⟨0, 0⟩))

/-- D and E of R300 for a shard. -/
def State.outerIn (s : State) (cfg : RoundCfg) (m : Manifest) (first n : Nat) : List (BitVec 32) × Option (List (BitVec 32)) :=
  let vals := m.entries.map (fun x =>
    (x.2.1, (runValues (s.deltaRuns (x.1 == cfg.site) x.1 x.2.2) first n).getD (List.replicate n 0)))
  let own := (m.entries.zip vals).find? (fun x => x.1.1 == cfg.site)
  (combined vals n, own.map (fun x => x.2.2))

/-! ### The drift audit (R186) -/

/-- The shards of a Strongman in order, with their place in its rotation. -/
def State.strongShards (s : State) (p : Prog) (sm : Nat) : List (Nat × Nat) :=
  (s.held p).zipIdx.flatMap (fun x => if x.1.strong = sm then (List.range x.1.shards).map (fun k => (x.2, k)) else [])

/-- Audit one shard: a mismatch is counted, recorded, vetoed, and the working slot is rewritten from the master. Rows of a
cold entry that are not staged are passed over. -/
def State.auditShard (s : State) (p : Prog) (i k : Nat) : State :=
  match s.home p i s.committed with
  | none => s
  | some h =>
    let n := h.e.shardLen k
    let a := h.w + 2 * (65536 * k)
    match s.read32 (h.mas + 4 * (65536 * k)) n, s.load a (2 * n) with
    | .error e, _ => s.strgMem h.e (65536 * k) e
    | _, .error e => s.strgMem h.e (65536 * k) e
    | .ok ws, .ok b =>
      let live := fun j => !h.e.cold || s.rowLive h.e i (65536 * k + j)
      let xs := elemsLE 2 b
      match (List.range n).find? (fun j => live j && workOf (ws.getD j 0) != xs.getD j 0) with
      | none => s
      | some j =>
        let t := s.satAdd (oAudit h.e.strong) 31 0 1
        let t := t.post h.e.src 0x0104 (le 4 i ++ le 4 k ++ le 8 (h.e.first + 65536 * k + j))
        let fixd := (List.range n).map (fun j => if live j then workOf (ws.getD j 0) else xs.getD j 0)
        (t.strgVeto h.e 6 (65536 * k + j)).putBy h.e.src a (fixd.flatMap (le 2))

/-- The audit of a Strongman's shards for the step: 1 in SHARE, in rotation (R186). DESIGN CHOICE: those whose place among the Strongman's shards is
congruent to the committed step modulo SHARE (assumption 71). -/
def State.audit (s : State) (p : Prog) (sm : Nat) : State :=
  let share := s.rf (oAudit sm) 39 32
  let s := { s with strg := { s.strg with audited := s.strg.audited ++ [sm] } }
  if share = 0 then s
  else
    (s.strongShards p sm).zipIdx.foldl (fun t x =>
      if x.2 % share = s.committed % share ∧ t.job.running.isSome then t.auditShard p x.1.1 x.1.2 else t) s

/-! ### The end of an entry, RULE 3 (R178, R181) -/

/-- A hyperparameter record; an index beyond the list is refused at load (R171). -/
def Prog.hp (p : Prog) (e : SEntry) : Hyper :=
  p.hyper.getD e.hp { beta := 0, beta2 := 0, eps2 := 0, wdMult := 0, lrMult := 0, blockK := 0, absBound := 0, avgBeta := 0 }

/-- An FP32 element of memory. -/
def State.at32 (s : State) (a : Nat) : BitVec 32 := BitVec.ofNat 32 (rd 0 4 (s.peek a 4))

/-- Whether an entry's RECORD and statistics of this step came with its adopted last shard (R194, R196). -/
def State.recordAdopted (s : State) (p : Prog) (i : Nat) : Bool :=
  s.mirror.adopt.any (fun x => x.1 + p.smap.length == i && ((s.mirror.map[x.1]?).any (fun e => x.2.1 + 1 == e.shards)))

/-- Write AVG_new of an entry (R178). -/
def State.avgEnd (s : State) (p : Prog) (i n : Nat) : State :=
  match s.home p i (n - 1), s.home p i n with
  | some old, some new =>
    if s.recordAdopted p i then s
    else s.strgPut old.e 0 (new.avg n)
      (le 4 (avgNew (p.hp old.e).avgBeta (s.at32 (old.avg (n - 1))) (SMap.get s.strg.sumSq i {}) old.e.count).toNat)
  | _, _ => s

/-- Write the row statistics of a RULE 3 entry (R181). DESIGN CHOICE: of an entry with LAZY set, a row outside the touched set takes its new
statistic like every other (assumption 71). -/
def State.rowsEnd (s : State) (p : Prog) (i n : Nat) : State :=
  match s.home p i (n - 1), s.home p i n with
  | some old, some new =>
    if old.e.rule ≠ 3 ∨ s.recordAdopted p i then s
    else
      let rows := (List.range old.e.rows).map (fun r =>
        statNew (p.hp old.e).beta2 (s.at32 (old.row + 4 * r)) (SMap.get s.strg.rowSq (pairKey i r) {}) old.e.rowLen)
      if rows.any (fun x => !fin32 x) then s.strgVeto old.e 1 0 else s.strgPut old.e 0 new.row (le32s rows)
  | _, _ => s

/-- The merged column sums and total of a tensor are in: the new column and tensor statistics of each of its entries
(R181). -/
def State.rule3End (s : State) (p : Prog) (n tensor : Nat) (r : R3) : State :=
  let s := { s with strg := { s.strg with r3 := SMap.set s.strg.r3 tensor r } }
  (s.held p).zipIdx.foldl (fun t x =>
    if x.1.rule ≠ 3 ∨ x.1.tensor ≠ tensor ∨ t.recordAdopted p x.2 then t
    else match t.home p x.2 (n - 1), t.home p x.2 n with
    | some old, some new =>
      let b2 := (p.hp x.1).beta2
      let cols := (List.range x.1.rowLen).map (fun j => statNew b2 (t.at32 (old.col + 4 * j)) (r.cols.getD j {}) x.1.rowsTotal)
      let tot := statNew b2 (t.at32 old.tot) r.tot (x.1.rowsTotal * x.1.rowLen)
      if cols.any (fun y => !fin32 y) || !fin32 tot then t.strgVeto x.1 1 0
      else (t.strgPut x.1 0 new.col (le32s cols)).strgPut x.1 0 new.tot (le 4 tot.toNat)
    | _, _ => t) s

/-- Add squares of clipped gradients to the row sums of an entry and, for owned shards, to the tensor's column sums and
total (R181). -/
def State.rule3Add (s : State) (e : SEntry) (i pos : Nat) (owned : Bool) (c : BitVec 32) (g : List (BitVec 32)) : State :=
  if e.rule ≠ 3 then s
  else
    let sq := g.map (fun x => let y := decodeF fp32 (f32 ((dy32 c).mul (dy32 x))).toNat; prodContrib u32e y y)
    let rows := sq.zipIdx.foldl (fun m x => SMap.upd m (pairKey i ((pos + x.2) / max e.rowLen 1)) {} (·.merge x.1)) s.strg.rowSq
    let old := SMap.get s.strg.r3mine e.tensor { cols := List.replicate e.rowLen {}, tot := {}, got := 0 }
    let add := fun (cs : List Acc) (x : Acc × Nat) => let j := (pos + x.2) % max e.rowLen 1; cs.set j ((cs.getD j {}).merge x.1)
    let new : R3 := if owned then { cols := sq.zipIdx.foldl add old.cols, tot := sq.foldl Acc.merge old.tot, got := old.got + 1 } else old
    { s with strg := { s.strg with rowSq := rows, r3mine := SMap.set s.strg.r3mine e.tensor new } }

/-! ### Shards -/

/-- The hold of R192: an outer close or a write-back of commit n − 2 or earlier has not finished. -/
def State.heldBack (s : State) (n : Nat) : Bool :=
  (match s.strg.closeDue with | some c => decide (c + 2 ≤ n) | none => false) ||
  s.strg.writeback.any (fun x => decide (x.2.2 + 2 ≤ n))

/-- The hold ends: its length goes into the step record (R192, R326). -/
def State.endHold (s : State) : State :=
  match s.strg.holdFrom, s.job.running with
  | some t0, some j =>
    { s with strg := { s.strg with holdFrom := none }
             job := { s.job with running := some { j with holdNs := j.holdNs + (s.rw oTimeNow - t0) } } }
  | _, _ => s

/-- Whether every shard of a held entry is updated. -/
def State.entryDone (s : State) (i : Nat) (e : SEntry) : Bool := (List.range e.shards).all (fun k => s.strg.done.contains (i, k))

/-- Whether a shard's MIRROR_DATA can be formed: the entry's last shard carries RECORD and statistics, which are whole once
every shard of the entry is updated and, for RULE 3, the sums are merged (R178, R181, R194). -/
def State.mirrorDue (s : State) (p : Prog) (x : Nat × Nat) : Bool :=
  match p.smap[x.1]? with
  | none => false
  | some e =>
    !s.strg.mirrored.contains x &&
      (x.2 + 1 != e.shards || (s.entryDone x.1 e && (e.rule != 3 || (SMap.get? s.strg.r3 e.tensor).isSome)))

/-- Stream every updated shard that is due (R187 order 3). -/
def State.mirrorAll (s : State) (p : Prog) (n : Nat) : State :=
  if !s.mirroring then s
  else
    s.strg.done.foldl (fun t x =>
      if t.job.running.isSome ∧ t.mirrorDue p x then t.mirrorShard p x.1 x.2 n (SMap.get t.strg.digN (pairKey x.1 x.2) 0) else t) s

/-- Whether the plan exchanges the RULE 3 sums of a tensor with other owners (R271). -/
def Prog.exchanges (p : Prog) (tensor : Nat) : Bool := p.plan.ops.any (fun o => o.typ == 7 && o.arg % 256 == 2 && o.tensor == tensor)

/-- A tensor that no plan entry exchanges has all its owners here: its own sums are the merged ones once every entry's sums
are in. -/
def State.rule3Local (s : State) (p : Prog) (n tensor : Nat) (full : Bool) : State :=
  if p.exchanges tensor ∨ !full ∨ (SMap.get? s.strg.r3 tensor).isSome then s
  else match SMap.get? s.strg.r3mine tensor with
  | some r => s.rule3End p n tensor r
  | none => s

/-- Why an outer application gave nothing: an element that is not finite, or an array that cannot be read. -/
inductive OuterFail where
  | notFinite (pos : Nat)
  | unreadable (e : MemErr)
  deriving DecidableEq, Repr

/-- The outer application of a shard (R198, R300): new masters and the writes that follow the flip (R199). The owner forms them; another holder
takes the owner's values. It applies to every row, LAZY or not. A cold entry's residuals go to the staging pool with the rest, from which all its
rows are written back (R203). -/
def State.outerShard (s : State) (p : Prog) (cfg : RoundCfg) (m : Manifest) (h : Home) (i k : Nat) (owned : Bool) (owner : Option PeerShard)
    (w2 : List (BitVec 32)) : Except OuterFail (List (BitVec 32) × List (Nat × Bytes)) :=
  let n := w2.length
  let o := 4 * (65536 * k)
  let first := h.e.first + 65536 * k
  let de := s.outerIn cfg m first n
  match s.elems p h i s.committed 2 (65536 * k) n, s.elems p h i s.committed 3 (65536 * k) n, s.elems p h i s.committed 4 (65536 * k) n with
  | .error e, _, _ => .error (.unreadable e)
  | _, .error e, _ => .error (.unreadable e)
  | _, _, .error e => .error (.unreadable e)
  | .ok anchor, .ok omom, .ok resid =>
    let one := fun (j : Nat) =>
      match owned, owner with
      | false, some x => some ((words32 x.master).getD j 0, (words32 x.anchor).getD j 0, (words32 x.omom).getD j 0)
      | _, _ => outerApply cfg.betaO cfg.etaO (w2.getD j 0) (anchor.getD j 0) (omom.getD j 0) (de.1.getD j 0)
          ((de.2.getD []).getD j 0)
    let rs := (List.range n).map one
    match rs.findIdx? (fun r => match r with | some (a, b, c) => !fin32 a || !fin32 b || !fin32 c | none => true) with
    | some j => .error (.notFinite j)
    | none =>
      let l := rs.filterMap id
      let ws := [(h.anchor + o, le32s (l.map (·.2.1))), (h.omom + o, le32s (l.map (·.2.2))), (h.rcd + 8, le 8 m.round.toNat)]
      .ok (l.map (·.1), ws ++ (if owned ∧ de.2.isSome then [(h.resid + o, zeros (4 * n))]
        else if h.e.cold then [(h.resid + o, le32s resid)] else []))

/-- Holders of a shard that an RRECV entry names (R198, R271). -/
def Prog.holdersOf (p : Prog) (tensor first : Nat) : List Nat :=
  (p.plan.ops.filter (fun o => o.typ == 2 && o.tensor == tensor && decide (o.first ≤ first) && decide (first < o.first + o.count))).flatMap p.plan.listOf

/-- What a shard's results write to the uncommitted slots: masters, moments and working weights (R182, R185). -/
def Home.shardWrites (h : Home) (k : Nat) (w m : List (BitVec 32)) : List (Nat × Bytes) :=
  let o := 65536 * k
  [(h.mas + 4 * o, le32s w), (h.mom + 4 * o, le32s m), (h.w + 2 * o, workBytes w)]

/-- A shard whose results are written is done and counted (R200, R201). -/
def State.shardWritten (s : State) (p : Prog) (new : Home) (i k : Nat) (owned : Bool) (w : List (BitVec 32)) : State :=
  let fp := fpSum 2 3 new.e.layer (new.e.first + 65536 * k) w
  let g := s.strg
  { s with strg := { g with
      done := g.done ++ [(i, k)]
      wfp := if owned ∧ new.e.layer < p.layers then SMap.upd g.wfp new.e.layer 0 (· + fp) else g.wfp } }

/-- The second half of every update: the outer application at its step, the writes, the end of the entry, the mirror. In
a veto nothing more is written (R190). An adopted master has had the outer application already (R196). -/
def State.finishShard (s : State) (p : Prog) (n i k : Nat) (new : Home) (owned adopted : Bool) (owner : Option PeerShard) (w m : List (BitVec 32)) : State :=
  let res : Except OuterFail (List (BitVec 32) × List (Nat × Bytes)) :=
    match s.applyNow n, p.round with
    | some mf, some cfg => s.outerShard p cfg mf new i k owned owner w
    | _, _ => .ok (w, [])
  match res with
  | .error (.notFinite j) => s.strgVeto new.e 1 (65536 * k + j)
  | .error (.unreadable x) => s.strgMem new.e (65536 * k) x
  | .ok (w3, ws) =>
    let w3 := if adopted then w else w3
    match s.storeAll (new.shardWrites k w3 m) with
    | (t, some x) => t.strgMem new.e (65536 * k) x
    | (t, none) =>
    let t := t.shardWritten p new i k owned w3
    let t := if ws.isEmpty then t else { t with strg := { t.strg with outerDone := t.strg.outerDone ++ [(i, k, ws)] } }
    let f := new.e.first + 65536 * k
    let t := if ws.isEmpty ∨ !owned then t
      else (p.holdersOf new.e.tensor f).foldl (fun u d =>
        u.emit (.outerShard d new.e.tensor f (le32s w3) ((ws.getD 0 (0, [])).2) ((ws.getD 1 (0, [])).2))) t
    let t := if t.entryDone i new.e then t.avgEnd p i n else t
    let t := if t.entryDone i new.e ∧ !p.twoPhase ∧ t.job.running.isSome then t.rowsEnd p i n else t
    let full := (t.held p).zipIdx.all (fun x => x.1.tensor != new.e.tensor || x.1.rule != 3 || t.entryDone x.2 x.1)
    let t := if p.twoPhase then t else t.rule3Local p n new.e.tensor full
    t.mirrorAll p n

/-- Count a shard's gradient: Σ g² of the entry and, for an owned shard, of the step; gradient fingerprint; digest (R178,
R188, R200, R201). -/
def State.countGrad (s : State) (p : Prog) (e : SEntry) (r : Reduced) : State :=
  let q := sumSquares r.vals
  let g := s.strg
  { s with strg := { g with
      sumSq := SMap.upd g.sumSq r.entry {} (·.merge q)
      norm2 := if r.owned then g.norm2.merge q else g.norm2
      gfp := if r.owned ∧ e.layer < p.layers then SMap.upd g.gfp e.layer 0 (· + r.digest) else g.gfp
      digN := SMap.set g.digN (pairKey r.entry r.shard) r.digest } }

/-- Whether a shard must wait for its owner's outer application (R198). -/
def State.awaitsOwner (s : State) (n : Nat) (r : Reduced) (owner : Option PeerShard) : Bool :=
  (s.applyNow n).isSome && !r.owned &&
    (match owner with | some x => !(x.entry == r.entry && x.shard == r.shard && x.step.toNat == n) | none => true)

/-- The digest under which a carried shard's mirror copy is adopted at this step (R196). -/
def State.adopts (s : State) (p : Prog) (i k : Nat) : Option Word :=
  (s.mirror.adopt.find? (fun x => x.1 + p.smap.length == i && x.2.1 == k)).map (·.2.2)

/-- A carried shard whose mirror copy holds this step takes that copy as its result when its gradient has the copy's digest (R196). DESIGN CHOICE:
with another digest the step is vetoed with ENGINE (assumption 71). -/
def State.adoptShard (s : State) (p : Prog) (n : Nat) (r : Reduced) (d : Word) (old new : Home) (owner : Option PeerShard) : State :=
  let o := 65536 * r.shard
  let len := old.e.shardLen r.shard
  match s.read32 (old.mas + 4 * o) len, s.read32 (old.mom + 4 * o) len with
  | .error x, _ => s.strgMem old.e o x
  | _, .error x => s.strgMem old.e o x
  | .ok ws, .ok ms =>
    if d ≠ r.digest then s.strgVeto old.e 7 o else s.finishShard p n r.entry r.shard new r.owned true owner ws ms

/-- The update of one reduced shard in fused mode, or its phase one (R177, R182, R183). -/
def State.updateShard (s : State) (p : Prog) (j : StepJob) (r : Reduced) (owner : Option PeerShard) : State :=
  let n := j.n.toNat
  match s.home p r.entry (n - 1), s.home p r.entry n with
  | some old, some new =>
    let e := old.e
    let o := 65536 * r.shard
    let len := e.shardLen r.shard
    let hp := p.hp e
    let c := s.clip p j
    match (List.range len).find? (fun x => !s.rowLive e r.entry (o + x) && r.vals.getD x 0 != 0x80000000) with
    | some x => s.strgVeto e 4 (o + x)
    | none =>
      match s.elems p old r.entry (n - 1) 0 o len, s.elems p old r.entry (n - 1) 1 o len, s.load (old.avg (n - 1)) 4 with
      | .error x, _, _ => s.strgMem e o x
      | _, .error x, _ => s.strgMem e o x
      | _, _, .error x => s.strgMem e o x
      | .ok ws, .ok ms, .ok a =>
        let check := gradCheck hp (BitVec.ofNat 32 (leNat a))
        if p.twoPhase then
          let run := shardBlocks check (fun _ g => some (g, 0)) (len / 256 + 1) 0 (r.vals.take len)
          match run.fail with
          | some (kind, pos) => s.strgVeto e kind (o + pos)
          | none =>
            match s.store (new.mom + 4 * o) (le32s r.vals) with
            | (t, some x) => t.strgMem e o x
            | (t, none) =>
              let t := t.countGrad p e r
              { t with strg := { t.strg with parked := t.strg.parked ++ [{ r with vals := [] }] } }
        else if (s.adopts p r.entry r.shard).isSome then
          (s.countGrad p e r).adoptShard p n r ((s.adopts p r.entry r.shard).getD 0) old new owner
        else
          let upd := fun (x : Nat) (g : BitVec 32) =>
            if !s.rowLive e r.entry (o + x) then some (ws.getD x 0, ms.getD x 0)
            else
              let st := if e.rule = 3 then s.stat old (o + x) else (0, 0, 0)
              innerUpdate e.rule hp (dLr j.desc) (dWd j.desc) c st.1 st.2.1 st.2.2 (ws.getD x 0) (ms.getD x 0) g
          let run := shardBlocks check upd (len / 256 + 1) 0 (r.vals.take len)
          match run.fail with
          | some (kind, pos) =>
            -- the check blocks before the failing one have been written to the uncommitted slots
            match s.storeAll (new.shardWrites r.shard (run.out.map (·.1)) (run.out.map (·.2))) with
            | (t, none) => t.strgVeto e kind (o + pos)
            | (t, some x) => t.strgMem e o x
          | none =>
            let t := (s.countGrad p e r).rule3Add e r.entry o r.owned c r.vals
            t.finishShard p n r.entry r.shard new r.owned false owner (run.out.map (·.1)) (run.out.map (·.2))
  | _, _ => s

/-- What SHARD_UPDATE and PHASE_TWO share: a running training step that neither waits for a rewind nor has sent READY, the
re-stream that a veto leaves to a protected pair (R195), the hold of R192, the audit of the Strongman's shards, once in the step (R186), and the
norm that the clip factor needs (R42). -/
def strongRow (sm : Nat) (s : State) (f : Prog → StepJob → State → State) : Out :=
  match s.job.running, s.job.prog with
  | some j, some p =>
    if p.gen ∨ s.rf oRstJob 61 61 = 1 ∨ s.phase ≠ 0 ∨ s.inSuspect then go s
    else if s.mirroring ∧ s.strg.restream.any (fun x => s.strg.vetoed.contains x) then go s
    else if s.heldBack j.n.toNat then
      go (if s.strg.holdFrom.isSome then s else { s with strg := { s.strg with holdFrom := some (s.rw oTimeNow) } })
    else
      let s := s.endHold
      let s := if s.strg.audited.contains sm then s else s.audit p sm
      match s.job.running, s.normFault p j with
      | none, _ => go s
      | some _, some (some e) => go ((s.strgMark sm 7 0 0).memError (srcStrg sm) 0xFF 0xFF 0 e)
      | some _, some none => go (s.strgResidue sm 0 0)
      | some j, none => go (f p j s)
  | _, _ => go s

/-- SHARD_UPDATE (R177, R182, R183, R186, R198): the Strongman takes the oldest reduced shard that waits for it. -/
def execShardUpdate (sm : StrongNo) (fault : Bool) (owner : Option PeerShard) (s : State) : Out :=
  strongRow sm s fun p j s =>
    match s.strg.reduced.find? (fun r => ((s.held p)[r.entry]?).any (fun e => e.strong == sm.val)) with
    | none => s
    | some r =>
      if fault then s.strgResidue sm (((s.held p)[r.entry]?).elim 0 (·.tensor)) (65536 * r.shard)
      else if !p.twoPhase ∧ s.awaitsOwner j.n.toNat r owner then s
      else
        let t := { s with strg := { s.strg with reduced := s.strg.reduced.filter (fun x => x.entry != r.entry || x.shard != r.shard) } }
        t.updateShard p j r owner

/-- Phase two of one parked shard (R183): the gradient is read back and the update computed with this step's clip factor and
statistics; the journal is filled, copied and marked done within the command. -/
def State.phaseTwoShard (s : State) (p : Prog) (j : StepJob) (r : Reduced) (owner : Option PeerShard) : State :=
  let n := j.n.toNat
  match s.home p r.entry (n - 1), s.home p r.entry n with
  | some old, some new =>
    let e := old.e
    let o := 65536 * r.shard
    let len := e.shardLen r.shard
    let c := s.clip p j
    match s.elems p old r.entry (n - 1) 0 o len, s.elems p old r.entry (n - 1) 1 o len, s.read32 (new.mom + 4 * o) len with
    | .error x, _, _ => s.strgMem e o x
    | _, .error x, _ => s.strgMem e o x
    | _, _, .error x => s.strgMem e o x
    | .ok ws, .ok ms, .ok gs =>
      let upd := fun (x : Nat) (g : BitVec 32) =>
        if !s.rowLive e r.entry (o + x) then some (ws.getD x 0, ms.getD x 0)
        else
          let st := if e.rule = 3 then s.stat new (o + x) else (0, 0, 0)
          innerUpdate e.rule (p.hp e) (dLr j.desc) (dWd j.desc) c st.1 st.2.1 st.2.2 (ws.getD x 0) (ms.getD x 0) g
      let run := shardBlocks (fun _ => none) upd (len / 256 + 1) 0 gs
      match s.adopts p r.entry r.shard with
      | some d => s.adoptShard p n r d old new owner
      | none =>
      match run.fail with
      | some (kind, pos) => s.strgVeto e kind (o + pos)
      | none => s.finishShard p n r.entry r.shard new r.owned false owner (run.out.map (·.1)) (run.out.map (·.2))
  | _, _ => s

/-- PHASE_TWO (R183, R184): once the phase-one record has passed, the Strongman works its oldest parked shard that is not done;
RULE 3 entries wait for their merged sums. With every shard done, those that a rewind left to mirror leave (R28, R194). -/
def execPhaseTwo (sm : StrongNo) (owner : Option PeerShard) (s : State) : Out :=
  strongRow sm s fun p j s =>
    if !s.strg.phaseOne then s
    else match s.strg.parked.find? (fun r => !s.strg.done.contains (r.entry, r.shard) &&
        ((s.held p)[r.entry]?).any (fun e => e.strong == sm.val)) with
    | none => s.mirrorAll p j.n.toNat
    | some r =>
      let waits := ((s.held p)[r.entry]?).any (fun e => e.rule == 3 && (SMap.get? s.strg.r3 e.tensor).isNone)
      if waits ∨ s.awaitsOwner j.n.toNat r owner then s else s.phaseTwoShard p j r owner

/-- The phase-one record has passed (R183): the step's N² is known, the RULE 3 sums of the clipped gradients are formed from
the parked gradients, and the row statistics are written (assumption 32). -/
def State.phaseOnePassed (s : State) (p : Prog) (j : StepJob) (norm : Acc) : State :=
  let n := j.n.toNat
  let s := { s with strg := { s.strg with phaseOne := true, p1norm := some norm, readySent := false, sentRec := none } }
  let c := s.clip p j
  let t := s.strg.parked.foldl (fun t r =>
    match t.home p r.entry n with
    | none => t
    | some h =>
      match h.e.rule == 3, t.read32 (h.mom + 4 * (65536 * r.shard)) (h.e.shardLen r.shard) with
      | true, .ok g => t.rule3Add h.e r.entry (65536 * r.shard) r.owned c g
      | _, _ => t) s
  let t := (t.held p).zipIdx.foldl (fun t x => if x.1.rule = 3 ∧ t.job.running.isSome then t.rowsEnd p x.2 n else t) t
  ((t.held p).filter (fun e => e.rule == 3)).foldl (fun t e => if t.job.running.isSome then t.rule3Local p n e.tensor true else t) t

end Sys2Proof.Machine
end

