-- ==== Sys2Proof/Machine/Juggler.lean ====
section
/-!
DEFINITION. The Juggler and its reduction engines: reduce-to-owner (R165 to R167, R237, R238, R273), gathers (R218, R274),
token dispatch (R227, R228, R275) and how a plan entry starts and completes (R270, R272). Frames carry what a message of
this file says; their acceptance in order is the site fabric's (assumption 6).
-/

namespace Sys2Proof.Machine

/-- The Juggler that a plan entry selects: STREAM mod 16 (R270). -/
def PlanOp.jug (o : PlanOp) : Nat := o.stream % 16
/-- The source of its records. -/
def PlanOp.src (o : PlanOp) : Nat := srcJug o.jug

/-- Whether a plan entry's run of a micro-batch may start (R272). -/
def State.triggered (s : State) (o : PlanOp) (mb : Nat) : Bool :=
  o.trigClu == 0xFFFF ||
    decide (o.trigVal * (if o.perMb then mb + 1 else 1) ≤ SMap.get (s.clu o.trigClu).counters o.trigCtr 0)

/-- What PER_MB adds to addresses for a micro-batch (R272). -/
def PlanOp.mbOff (o : PlanOp) (mb : Nat) : Nat := if o.perMb then mb % max o.slots 1 * o.slotBytes else 0

/-- A step-plan entry of a type, in a running training step that goes on, outside a suspect replay (R272, R402). -/
def planRow (op typ : Nat) (s : State) (f : StepJob → Prog → PlanOp → State → State) : Out :=
  match s.job.running, s.job.prog with
  | some j, some p =>
    match p.plan.ops[op]? with
    | some o =>
      if o.typ ≠ typ ∨ p.gen ∨ s.rf oRstJob 61 61 = 1 ∨ s.phase ≠ 0 ∨ s.inSuspect ∨ s.strg.phaseOne then go s else go (f j p o s)
    | none => go s
  | _, _ => go s

/-- Mark a run as done. -/
def State.ranOp (s : State) (op mb : Nat) : State := { s with jug := { s.jug with ran := s.jug.ran ++ [(op, mb)] } }

/-- A memory access of a Juggler failed; it uses no cluster SRAM port of R143 (R428). -/
def State.jugError (s : State) (o : PlanOp) (e : MemErr) : State := s.memError o.src 0xFF 0xFF 0 e

/-! ### RSEND (R238, R271, R272) -/

/-- The accumulators of a partial buffer. -/
def accsOf (wide : Bool) (b : Bytes) : List Acc :=
  if wide then (chunks 80 (b.length / 80) b).map lx32Of else (chunks 16 (b.length / 16) b).map lx16Of

/-- A contribution from its parts (R166, R237); what sends it gives it its place in a stream. -/
def contributionOf (src : Nat) (form : ContribForm) (tensor first count epoch : Nat) (data : Bytes) : Contribution :=
  { src := BitVec.ofNat 20 src, stream := 0, seq := 0, form := form, tensor := BitVec.ofNat 16 tensor, first := BitVec.ofNat 48 first, count := count, epoch := BitVec.ofNat 16 epoch, data := data }

/-- The contributions that a partial gives: LXP blocks of at most 256 elements for LX16 partials and LX32 whole in exact
mode; FP32 rounded once with scale 1.0 in rounded mode (R60, R238). Fuel is the number of blocks. -/
def lxpContribs (src : Nat) (o : PlanOp) (epoch : Nat) : Nat → Nat → List Acc → List Contribution
  | 0, _, _ => []
  | f + 1, first, as =>
    if as.isEmpty then []
    else
      let b := as.take 256
      contributionOf src .lxp o.tensor first b.length epoch (lxpBlock o.tensor first epoch b) ::
        lxpContribs src o epoch f (first + b.length) (as.drop 256)

/-- A contribution leaves as frames of its own in the entry's stream (R257, R272). -/
def State.contribOut (s : State) (o : PlanOp) (epoch op run : Nat) (c : Contribution) : State :=
  let c := { c with stream := BitVec.ofNat 16 o.stream, seq := (s.txOf o.peer o.stream).next }
  (s.emit (.contribution o.peer c)).streamOut 1 o.peer o.stream epoch op run c.data

/-- RSEND (R238, R272, R273): once in the step, or once per micro-batch; a run completes with the acknowledgement of its last frame
(R257). -/
def execRsend (op mb : Nat) (s : State) : Out :=
  planRow op 1 s fun j p o s =>
    if s.jug.ran.contains (op, mb) ∨ !s.triggered o mb ∨ (if o.perMb then dMicro j.desc ≤ mb else 0 < mb) then s
    else
      let wide := bit 0 o.arg
      match s.napping (o.loc + o.mbOff mb) with
      | some g => s.requestWake g
      | none =>
      match s.load (o.loc + o.mbOff mb) ((if wide then 80 else 16) * o.count) with
      | .error e => s.jugError o e
      | .ok b =>
        let s := s.correct (o.loc + o.mbOff mb) b.length
        if wide ∧ !((chunks 80 o.count b).all lx32Ok) then s.residueError o.src 0xFFFFFFFF 0xFF 0 0
        else
          let as := accsOf wide b
          let mk := fun (form : ContribForm) (d : Bytes) => contributionOf s.self form o.tensor o.first o.count p.plan.epoch d
          let cs := if dMode j.desc = 1 then
              [mk .fp32 (as.flatMap (fun a => le 4 (roundAcc fp32 0 0 (if wide then u32e else u16) one32 a).x))]
            else if wide then [mk .lx32 b]
            else lxpContribs s.self o p.plan.epoch (o.count / 256 + 1) o.first as
          ((cs.foldl (fun t c => t.contribOut o p.plan.epoch op mb c) s).ranOp op mb).opDone o op mb

/-! ### Reduction engines (R165 to R167, R237) -/

/-- A block error of kind LXP at a reduction engine (R130, R167, R428). -/
def State.lxpError (s : State) (jug tensor first : Nat) : State := s.blockError (srcJug jug) 0x0A tensor 0 (first / 256) 0

/-- The RRECV entries of the plan with their numbers. -/
def Prog.rrecvs (p : Prog) : List (PlanOp × Nat) := p.plan.ops.zipIdx.filter (fun x => x.1.typ == 2)
/-- CONTRIB of an RRECV entry. -/
def PlanOp.contrib (o : PlanOp) : Nat := o.arg % 65536
/-- SLOT32 of an RRECV entry. -/
def PlanOp.slot32 (o : PlanOp) : Bool := bit 24 o.arg

/-- The accumulator set of an entry and epoch. -/
def State.accSet (s : State) (op epoch : Nat) : AccSet :=
  (s.jug.sets.find? (fun a => a.op == op && a.epoch == epoch)).getD ({ op := op, epoch := epoch } : AccSet)
/-- Put an accumulator set. -/
def State.setAccSet (s : State) (a : AccSet) : State :=
  { s with jug := { s.jug with sets := (s.jug.sets.filter (fun x => x.op != a.op || x.epoch != a.epoch)) ++ [a] } }

/-- Bytes of a slot of an RRECV range (R165). -/
def PlanOp.slotWidth (o : PlanOp) : Nat := if o.slot32 then 80 else 16
/-- The address of a parameter's slot in the region that the plan declares (R165, R271). -/
def PlanOp.slotAt (o : PlanOp) (i : Nat) : Nat := o.loc + o.slotWidth * (i - o.first)
/-- A slot of an RRECV range in memory (R40, R41). -/
def PlanOp.slotBits (o : PlanOp) (a : Acc) : Bytes := slotOfAcc o.slot32 a

/-- Clear the slots of a shard (R166). -/
def State.clearSlots (s : State) (o : PlanOp) (first n : Nat) : State :=
  match s.store (o.slotAt first) ((List.replicate n (o.slotBits {})).flatten) with
  | (t, none) => t
  | (t, some e) => t.jugError o e

/-- The engine takes a shard's slots into use, cleared, with the first contribution to it (R166, assumption 59). -/
def State.openSlots (s : State) (o : PlanOp) (a : AccSet) (first n : Nat) : State :=
  if (SMap.get? a.counts first).isSome then s else s.clearSlots o first n

/-- What reading slots gives: their accumulators, a memory error, or a residue that fails (R42, R166). -/
inductive AccRead where
  | ok (as : List Acc)
  | error (e : MemErr)
  | residue

/-- Read consecutive slots of an RRECV range. -/
def State.readAccs (s : State) (o : PlanOp) (first n : Nat) : AccRead :=
  match s.load (o.slotAt first) (o.slotWidth * n) with
  | .error e => .error e
  | .ok b => if o.slot32 ∧ !((chunks 80 n b).all lx32Ok) then .residue else .ok (accsOf o.slot32 b)

/-- The accumulators that a contribution carries, in the units of its slots; none where the form is damaged, `residue` where
an LX32 residue fails (R42, R63, R166). -/
inductive Carried where
  | ok (as : List Acc)
  | damaged
  | residue

/-- Read a contribution for slots of a width (R41, R63, R165, R166). -/
def carriedOf (slot32 : Bool) (c : Contribution) : Carried :=
  let w := fun (a : Acc) => if slot32 then a.widen else a
  match c.form with
  | .lx16 => if c.data.length ≠ 16 * c.count then .damaged else .ok ((accsOf false c.data).map w)
  | .lxp =>
    if rd 12 2 c.data ≠ c.epoch.toNat then .damaged
    else match readLxps c.tensor.toNat (c.count + 1) c.first.toNat c.count c.data with
    | some as => .ok (as.map w)
    | none => .damaged
  | .lx32 =>
    if c.data.length ≠ 80 * c.count ∨ !slot32 then .damaged
    else if (chunks 80 c.count c.data).all lx32Ok then .ok (accsOf true c.data) else .residue
  | .fp32 =>
    if c.data.length ≠ 4 * c.count ∨ !slot32 then .damaged
    else .ok ((words32 c.data).map (fun x => valContrib (decodeF fp32 x.toNat)))

/-- Hand a shard's rounded values to the Strongman and to the holders in the list (R187, R273). -/
def State.handShard (s : State) (p : Prog) (op : Nat) (o : PlanOp) (sh : Nat × Nat × Nat × Nat) (vals : List (BitVec 32)) : State :=
  let i := sh.1
  let first := sh.2.2.1
  let layer := (((s.held p)[i]?).map (·.layer)).getD 0
  let d := fpSum 0 1 layer first vals
  let t := { s with strg := { s.strg with
    reduced := s.strg.reduced ++ [({ entry := i, shard := sh.2.1, vals := vals, digest := d, owned := true } : Reduced)] } }
  let t := t.ranOp op (1 + sh.2.1 + i * 2 ^ 32)
  (p.plan.listOf o).foldl (fun u dest =>
    (u.emit (.shard dest o.tensor first vals d)).streamOut 1 dest o.stream p.plan.epoch op 0 (le 8 d.toNat ++ le32s vals)) t

/-- Round every slot of a shard once, clear the slots, and hand the shard on (R166, R173). No completion record carries the numeric status of
these roundings (assumption 49). -/
def State.reduceShard (s : State) (p : Prog) (op : Nat) (o : PlanOp) (a : AccSet) (sh : Nat × Nat × Nat × Nat) : State :=
  let first := sh.2.2.1
  let n := sh.2.2.2
  let s := s.openSlots o a first n
  match s.readAccs o first n with
  | .error e => s.jugError o e
  | .residue => s.residueError o.src 0xFFFFFFFF 0xFF 0 0
  | .ok as =>
    let scale := s.scaleSel (bits 23 16 o.arg)
    let vals := as.map (fun x => BitVec.ofNat 32 (roundAcc fp32 0 0 (if o.slot32 then u32e else u16) scale x).x)
    (s.clearSlots o first n).handShard p op o sh vals

/-- Reduce the shards of an entry whose last contributor has merged, once the entry has started (R166, R272). -/
def State.reduceFull (s : State) (p : Prog) (op : Nat) (o : PlanOp) (epoch : Nat) : State :=
  if s.job.running.isNone ∨ !s.triggered o 0 then s
  else
    (s.shardsIn p o.tensor o.first o.count).foldl (fun t sh =>
      let a := t.accSet op epoch
      if SMap.get a.counts sh.2.2.1 0 = o.contrib * sh.2.2.2 ∧ !t.jug.ran.contains (op, 1 + sh.2.1 + sh.1 * 2 ^ 32) then
        t.reduceShard p op o a sh
      else t) s

/-- Merge a contribution's accumulators into the slots from a parameter on; a slot holds VALUE modulo its width (R43, R45). -/
def State.mergeSlots (s : State) (o : PlanOp) (first : Nat) (as : List Acc) : State :=
  match s.readAccs o first as.length with
  | .error e => s.jugError o e
  | .residue => s.residueError o.src 0xFFFFFFFF 0xFF 0 0
  | .ok old =>
    match s.store (o.slotAt first) ((List.zipWith Acc.merge old as).flatMap o.slotBits) with
    | (t, none) => t
    | (t, some e) => t.jugError o e

/-- A contribution merged into the set of its epoch, or refused (R166, R167). An FP32 contribution outside rounded mode, an empty one and one of
a wrong length are refused as block errors too (assumption 70). -/
def State.contribute (s : State) (p : Prog) (jug : Nat) (c : Contribution) : State :=
  let first := c.first.toNat
  let tensor := c.tensor.toNat
  let rounded := match s.job.running with | some j => dMode j.desc == 1 | none => c.form == .fp32
  match p.rrecvs.find? (fun x => x.1.jug == jug && x.1.tensor == tensor && decide (x.1.first ≤ first) &&
      decide (first + c.count ≤ x.1.first + x.1.count)) with
  | none => s.lxpError jug tensor first
  | some (o, op) =>
    if c.count = 0 ∨ (c.form = .fp32 ∧ !rounded) then s.lxpError jug tensor first
    else match carriedOf o.slot32 c with
    | .damaged => s.lxpError jug tensor first
    | .residue => s.residueError (srcJug jug) 0xFFFFFFFF 0xFF 0 0
    | .ok as =>
      let a := s.accSet op c.epoch.toNat
      let parts := (s.shardsIn p tensor first c.count).map (fun sh =>
        (sh.2.2.1, sh.2.2.2, min (first + c.count) (sh.2.2.1 + sh.2.2.2) - max first sh.2.2.1))
      if parts.any (fun x => decide (o.contrib * x.2.1 < SMap.get a.counts x.1 0 + x.2.2)) then s.lxpError jug tensor first
      else
        let t := parts.foldl (fun t x => t.openSlots o a x.1 x.2.1) s
        let counts := parts.foldl (fun m x => SMap.upd m x.1 0 (· + x.2.2)) a.counts
        ((t.setAccSet { a with counts := counts }).mergeSlots o first as).reduceFull p op o c.epoch.toNat

/-- REDUCTION_CONTRIBUTION (R166, R167, R237, R259): a contribution that an accepted run of frames has brought, once. One of the plan's epoch merges; one of another epoch is discarded and
counted before the first commit under the new epoch, and is a block error after it; one of an abandoned step is discarded and counted. -/
def execReductionContribution (jug : Fin 16) (c : Contribution) (fault : Bool) (s : State) : Out :=
  match s.job.prog with
  | none => go s
  | some p =>
    if p.gen ∨ s.inSuspect then go s
    else match s.takeFrames c.src.toNat c.stream.toNat c.seq (frameCount c.data) with
    | none => go s
    | some s =>
      if s.rf oRstJob 61 61 = 1 then go { s with jug := { s.jug with discarded := s.jug.discarded + 1 } }
      else if c.epoch.toNat ≠ p.plan.epoch then
        go (if s.jug.newEpochCommit then s.lxpError jug c.tensor.toNat c.first.toNat
            else { s with jug := { s.jug with discarded := s.jug.discarded + 1 } })
      else if fault then go (s.residueError (srcJug jug) 0xFFFFFFFF 0xFF 0 0)
      else go (s.contribute p jug c)

/-- RRECV (R257, R272, R273): shards that were full before the entry started are reduced; the entry completes once every shard of its range
has been reduced and every frame to the holders is acknowledged. -/
def execRrecv (op : Nat) (s : State) : Out :=
  planRow op 2 s fun _ p o s =>
    let s := s.reduceFull p op o p.plan.epoch
    let all := (s.shardsIn p o.tensor o.first o.count).all (fun sh => s.jug.ran.contains (op, 1 + sh.2.1 + sh.1 * 2 ^ 32))
    if s.jug.ran.contains (op, 0) ∨ !s.triggered o 0 ∨ !all then s else (s.ranOp op 0).opDone o op 0

/-- RHOLD (R187, R272, R273): a reduced shard from its owner goes to this device's Strongman once the entry has started; the entry completes
with its last. -/
def execRhold (op shard : Nat) (values : List (BitVec 32)) (digest : Word) (s : State) : Out :=
  planRow op 3 s fun _ p o s =>
    let shs := s.shardsIn p o.tensor o.first o.count
    match shs[shard]? with
    | none => s
    | some sh =>
      if s.jug.ran.contains (op, 1 + shard) ∨ !s.triggered o 0 ∨ values.length ≠ sh.2.2.2 then s
      else
        let t := { s with strg := { s.strg with
          reduced := s.strg.reduced ++ [({ entry := sh.1, shard := sh.2.1, vals := values, digest := digest, owned := false } : Reduced)] } }
        let t := t.ranOp op (1 + shard)
        if (List.range shs.length).all (fun k => t.jug.ran.contains (op, 1 + k)) then t.planSignal o else t

/-! ### GATHER (R218, R274) -/

/-- A GATHER request as the payload of a frame; its layout is the model's (assumption 6). -/
def gatherBytes (o : PlanOp) : Bytes := le 2 o.tensor ++ zeros 2 ++ le 4 o.count ++ le 8 o.first

/-- The stream of an owner's gathered ranges toward any device (assumption 6). -/
def gatherStream : Nat := 0xFFFD

/-- GATHER (R218, R274): the request goes to the owner; what arrives is coded into LOCAL with its index table at AUX. -/
def execGather (op mb : Nat) (arrived : Option (List Byte)) (s : State) : Out :=
  planRow op 4 s fun j p o s =>
    if !s.triggered o mb ∨ s.jug.ran.contains (op, mb) ∨ (if o.perMb then dMicro j.desc ≤ mb else 0 < mb) then s
    else match arrived with
    | none =>
      if s.jug.asked.contains (op, mb) then s
      else (({ s with jug := { s.jug with asked := s.jug.asked ++ [(op, mb)] } }).send o.peer (.gatherRequest o.tensor o.first o.count)).streamOut
        1 o.peer o.stream p.plan.epoch op mb (gatherBytes o)
    | some b =>
      if !s.jug.asked.contains (op, mb) ∨ b.length ≠ 2 * o.count then s
      else
        let bs := blocksOf 0 (o.count / 256 + 1) (elemsLE 2 b)
        match s.midStore (o.loc + o.mbOff mb) bs.flatten with
        | (t, some e) => t.jugError o e
        | (t, none) =>
          match t.midStore (o.aux + o.mbOff mb) (indexTable bs) with
          | (u, some e) => u.jugError o e
          | (u, none) => (u.ranOp op mb).opDone o op mb

/-- GATHER_REQUEST (R274): the owner streams the committed working weights of the range; a range that lies in no entry of its
own is an address error, and the step is vetoed. -/
def execGatherRequest (src : BitVec 20) (tensor : BitVec 16) (first : BitVec 48) (count : BitVec 32) (s : State) : Out :=
  match s.job.prog with
  | none => go s
  | some p =>
    let f := first.toNat
    let n := count.toNat
    match (s.held p).zipIdx.find? (fun x => x.1.tensor == tensor.toNat && decide (x.1.first ≤ f) && decide (f + n ≤ x.1.first + x.1.count)) with
    | none => go (s.engineError (srcJug 0) 3 0xFF 0xFF 0 0 0)
    | some (e, i) =>
      match s.home p i s.committed with
      | none => go s
      | some h =>
        match s.load (h.w + 2 * (f - e.first)) (2 * n) with
        | .error x => go (s.memError (srcJug 0) 0xFF 0xFF 0 x)
        | .ok b => go ((s.emit (.gathered src.toNat tensor.toNat f b)).streamOut 1 src.toNat gatherStream p.plan.epoch noOp 0 b)

/-! ### DISPATCH (R227, R228, R275) -/

/-- LAYER of a DISPATCH entry. -/
def PlanOp.layer (o : PlanOp) : Nat := o.arg % 65536
/-- DIR. -/
def PlanOp.dir (o : PlanOp) : Bool := bit 16 o.arg
/-- ROW_BYTES. -/
def PlanOp.rowBytes (o : PlanOp) : Nat := bits 31 17 o.arg * 8
/-- The experts of a layer in order. -/
def Prog.layerExperts (p : Prog) (l : Nat) : List ExpertE :=
  ((p.experts.filter (fun e => e.layer == l)).insertionSort (fun a b => a.expert ≤ b.expert))
/-- RECV_BASE of an expert in a home table. -/
def Plan.recvBase (pl : Plan) (o : PlanOp) (e : Nat) : Nat := rd (o.aux + 16 * e) 8 pl.area
/-- ROWS of an expert in a home table. -/
def Plan.rows (pl : Plan) (o : PlanOp) (e : Nat) : Nat := rd (o.aux + 16 * e + 8) 4 pl.area
/-- Rank of a score: NaN below −Inf (R227). -/
def scoreLt (a b : BitVec 32) : Bool :=
  match decodeF fp32 a.toNat, decodeF fp32 b.toNat with
  | .nan, .nan => false
  | .nan, _ => true
  | _, .nan => false
  | .fin _ 0 _, .fin _ 0 _ => false
  | x, y => ltF x y

/-- The experts a token chooses: the highest scores, the lower number on a tie, in order of choice (R227). -/
def chosen (active : Nat) (scores : List (BitVec 32)) : List Nat :=
  ((List.range scores.length).insertionSort (fun i j =>
    scoreLt (scores.getD j 0) (scores.getD i 0) = true ∨ (scoreLt (scores.getD i 0) (scores.getD j 0) = false ∧ i ≤ j))).take active

/-- The kept choices of routed tokens in ascending token order: token, expert, choice, rank within the group (R227). -/
def keptChoices (active group : Nat) (cap : Nat → Nat) (toks : List (Nat × List (BitVec 32))) : List (Nat × Nat × Nat × Nat) :=
  (toks.foldl (fun (acc : List (Nat × Nat × Nat × Nat) × SMap Nat) t =>
    (chosen active t.2).zipIdx.foldl (fun (a : List (Nat × Nat × Nat × Nat) × SMap Nat) x =>
      let key := pairKey x.1 (t.1 / group)
      let n := SMap.get a.2 key 0
      if n < cap x.1 then (a.1 ++ [(t.1, x.1, x.2, n)], SMap.set a.2 key (n + 1)) else a) acc) ([], [])).1

/-- A dispatch record as the payload of a frame: R275's header and chunk; for a count record OFFSET is 0xFFFF, TOKEN the group, and SLOT
the count; for a returned row TOKEN is the token's place in the micro-batch and SLOT the micro-batch (assumption 6). -/
def dispatchBytes : DispatchIn → Bytes
  | .chunk _ _ tok e slot off ch d => le 6 tok.toNat ++ le 2 e.toNat ++ le 4 slot.toNat ++ le 2 off.toNat ++ le 1 ch.toNat ++ zeros 1 ++ d
  | .count _ _ e g n => le 6 g ++ le 2 e.toNat ++ le 4 n.toNat ++ le 2 0xFFFF ++ zeros 2
  | .returned _ mb tok ch d => le 6 tok ++ zeros 2 ++ le 4 mb ++ zeros 2 ++ le 1 ch.toNat ++ zeros 1 ++ d

/-- Send a dispatch record in the entry's stream (R257, R275). -/
def State.sendRecord (s : State) (o : PlanOp) (epoch op mb dest : Nat) (r : DispatchIn) : State :=
  (s.emit (.rows dest r)).streamOut 1 dest o.stream epoch op mb (dispatchBytes r)

/-- Send one row to an expert's home in chunks of at most 4,080 bytes (R275). Fuel is the number of chunks. -/
def sendRow (send : State → DispatchIn → State) (mk : Nat → Bytes → DispatchIn) : Nat → Nat → Bytes → State → State
  | 0, _, _, s => s
  | f + 1, off, b, s =>
    if b.isEmpty then s else sendRow send mk f (off + 510) (b.drop 4080) (send s (mk off (b.take 4080)))

/-- The first token of a micro-batch of this device's troupe, as a global token index (R213, R214). -/
def Prog.mbToken (p : Prog) (d : Bytes) (mb : Nat) : Nat := tokenOfSeq d (mbFirst d p.siteTroupes p.troupe mb)

/-- Whether every row and count record that this home expects for a micro-batch has arrived (R272, R275). -/
def State.homeFull (s : State) (p : Prog) (j : StepJob) (o : PlanOp) (mb : Nat) : Bool :=
  let g := max p.routeGroup 1
  let g0 := p.mbToken j.desc mb / g
  (p.layerExperts o.layer).all (fun e =>
    e.home != p.position || (List.range (o.count / g)).all (fun k =>
      match s.jug.counts.find? (fun c => c.1 == o.layer && c.2.1 == e.expert && c.2.2.1 == g0 + k) with
      | none => false
      | some c => (s.jug.origin.filter (fun r => r.1 == o.layer && r.2.1 == e.expert && r.2.2.2.2.1 / g == g0 + k)).length == c.2.2.2))

/-- A DISPATCH of direction 0 completes for a micro-batch once it has sent its own rows, they are acknowledged, and it holds those it expects
(R272). -/
def State.dispatchEnd (s : State) (p : Prog) (j : StepJob) (op : Nat) (o : PlanOp) (mb : Nat) : State :=
  if s.jug.ran.contains (op, mb) ∧ !s.jug.ran.contains (op, mb + 65536) ∧ s.homeFull p j o mb then (s.ranOp op (mb + 65536)).opDone o op mb
  else s

/-- A DISPATCH of direction 1 completes for a micro-batch once it has returned its own rows, they are acknowledged, and it holds the rows of
the choices that it kept (R272). -/
def State.returnEnd (s : State) (op : Nat) (o : PlanOp) (mb : Nat) : State :=
  let got := (s.jug.returned.filter (fun x => x.1 == o.layer && x.2.1 == mb)).length
  if s.jug.ran.contains (op, mb) ∧ !s.jug.ran.contains (op, mb + 65536) ∧ s.jug.kept.contains (o.layer, mb, got) then
    (s.ranOp op (mb + 65536)).opDone o op mb
  else s

/-- Direction 0: the router's choices go to their homes (R227, R275). A row that cannot be read ends the step. -/
def State.dispatchOut (s : State) (p : Prog) (j : StepJob) (op : Nat) (o : PlanOp) (mb : Nat) (toks : List (Nat × List (BitVec 32))) : State :=
  let es := p.layerExperts o.layer
  let g := max p.routeGroup 1
  let t0 := p.mbToken j.desc mb
  let cap := fun e => ((es[e]?).map (·.cap)).getD 0
  let active := ((es[0]?).map (·.active)).getD 0
  let kept := keptChoices active g cap (toks.insertionSort (fun a b => a.1 ≤ b.1))
  let home := fun e => p.atPosition (((es[e]?).map (·.home)).getD 0)
  let out := fun (e : Nat) (t : State) (x : DispatchIn) => t.sendRecord o p.plan.epoch op mb (home e) x
  let lay := BitVec.ofNat 16 o.layer
  let me := BitVec.ofNat 20 s.self
  let r := kept.foldl (fun (a : State × Option MemErr) x =>
    match a.2, a.1.load (o.loc + o.mbOff mb + (x.1 - t0) * o.rowBytes) o.rowBytes with
    | some _, _ => a
    | none, .error e => (a.1, some e)
    | none, .ok b =>
      let slot := (x.1 - t0) / g * cap x.2.1 + x.2.2.2
      (sendRow (out x.2.1) (fun off d => .chunk lay me (BitVec.ofNat 48 x.1) (BitVec.ofNat 16 x.2.1) (BitVec.ofNat 32 slot)
        (BitVec.ofNat 16 off) (BitVec.ofNat 8 x.2.2.1) d) (o.rowBytes / 4080 + 1) 0 b a.1, none)) (s, none)
  match r with
  | (t, some e) => t.jugError o e
  | (t, none) =>
    let groups := (List.range (o.count / g)).map (fun k => t0 / g + k)
    let t := groups.foldl (fun t k => (List.range es.length).foldl (fun t e =>
      out e t (.count lay me (BitVec.ofNat 16 e) k (BitVec.ofNat 32 (kept.filter (fun x => x.2.1 == e && x.1 / g == k)).length))) t) t
    let t := { t with jug := { t.jug with kept := t.jug.kept ++ [(o.layer, mb, kept.length)] } }
    (t.ranOp op mb).dispatchEnd p j op o mb

/-- Direction 1: each slot's output row returns to its origin (R275, assumption 26). -/
def State.dispatchBack (s : State) (p : Prog) (j : StepJob) (op : Nat) (o : PlanOp) (mb : Nat) : State :=
  let t0 := p.mbToken j.desc mb
  let t1 := p.mbToken j.desc (mb + 1)
  let mine := (p.layerExperts o.layer).filter (fun e => e.home == p.position)
  let base := fun (e : Nat) => ((mine.takeWhile (fun x => x.expert != e)).foldl (fun n x => n + p.plan.rows o x.expert) 0)
  let here := s.jug.origin.filter (fun r => r.1 == o.layer && decide (t0 ≤ r.2.2.2.2.1) && decide (r.2.2.2.2.1 < t1))
  let r := here.foldl (fun (a : State × Option MemErr) x =>
    match a.2, a.1.load (o.loc + o.mbOff mb + (base x.2.1 + x.2.2.1) * o.rowBytes) o.rowBytes with
    | some _, _ => a
    | none, .error e => (a.1, some e)
    | none, .ok b => (a.1.sendRecord o p.plan.epoch op mb x.2.2.2.1
        (.returned (BitVec.ofNat 16 o.layer) mb (x.2.2.2.2.1 - t0) (BitVec.ofNat 8 x.2.2.2.2.2) b), none))
    (s, none)
  match r with
  | (t, some e) => t.jugError o e
  | (t, none) => (t.ranOp op mb).returnEnd op o mb

/-- TOKEN_DISPATCH (R227, R228, R272, R275): a run of a DISPATCH entry for one micro-batch, or the one run of an entry without PER_MB. Rows in a
napping cluster wait for its wake (R457). -/
def execTokenDispatch (op mb : Nat) (scores : List (Nat × List (BitVec 32))) (s : State) : Out :=
  planRow op 5 s fun j p o s =>
    if s.jug.ran.contains (op, mb) ∨ !s.triggered o mb ∨ (if o.perMb then dMicro j.desc ≤ mb else 0 < mb) then s
    else match s.napping (o.loc + o.mbOff mb) with
    | some g => s.requestWake g
    | none => if o.dir then s.dispatchBack p j op o mb else s.dispatchOut p j op o mb scores

/-- The DISPATCH entry of a layer and direction with its number. -/
def Prog.dispatchOp (p : Prog) (layer : Nat) (dir : Bool) : Option (PlanOp × Nat) :=
  p.plan.ops.zipIdx.find? (fun x => x.1.typ == 5 && x.1.layer == layer && x.1.dir == dir)

/-- The micro-batch of this troupe that holds a token. -/
def Prog.mbOfToken (p : Prog) (d : Bytes) (t : Nat) : Nat :=
  ((List.range (dMicro d)).filter (fun m => decide (p.mbToken d m ≤ t))).length - 1

/-- Keep the origin of a row once its last chunk has been written (R275). -/
def State.keepChunk (s : State) (o : PlanOp) (r : Nat × Nat × Nat × Nat × Nat × Nat) (off : Nat) : State :=
  let l := s.jug.chunks ++ [(r.1, r.2.1, r.2.2.1, r.2.2.2.2.1, off)]
  let whole := (l.filter (fun x => x.1 == r.1 && x.2.1 == r.2.1 && x.2.2.1 == r.2.2.1 && x.2.2.2.1 == r.2.2.2.2.1)).length ==
    (o.rowBytes + 4079) / 4080
  { s with jug := { s.jug with chunks := l, origin := if whole ∧ !s.jug.origin.contains r then s.jug.origin ++ [r] else s.jug.origin } }

/-- A dispatch record at its receiver (R275). A record that is already in hand is a duplicate and changes nothing, though its slot may hold another
micro-batch's row by then (R259). -/
def State.takeRecord (s : State) (p : Prog) (j : StepJob) : DispatchIn → State
  | .chunk l src tok e slot off ch data =>
    match p.dispatchOp l.toNat false with
    | none => s
    | some (o, op) =>
      if s.jug.chunks.contains (l.toNat, e.toNat, slot.toNat, tok.toNat, off.toNat) then s
      else match s.midStore (p.plan.recvBase o e.toNat + slot.toNat * o.rowBytes + off.toNat * 8) data with
      | (t, some x) => t.jugError o x
      | (t, none) =>
        let t := t.keepChunk o (l.toNat, e.toNat, slot.toNat, src.toNat, tok.toNat, ch.toNat) off.toNat
        t.dispatchEnd p j op o (p.mbOfToken j.desc tok.toNat)
  | .count l _ e g n =>
    match p.dispatchOp l.toNat false with
    | none => s
    | some (o, op) =>
      if s.jug.counts.any (fun c => c.1 == l.toNat && c.2.1 == e.toNat && c.2.2.1 == g) then s
      else
      let t := { s with jug := { s.jug with counts := s.jug.counts ++ [(l.toNat, e.toNat, g, n.toNat)] } }
      t.dispatchEnd p j op o (p.mbOfToken j.desc (g * max p.routeGroup 1))
  | .returned l mb tok ch data =>
    match p.dispatchOp l.toNat true with
    | none => s
    | some (o, op) =>
      let act := (((p.layerExperts l.toNat)[0]?).map (·.active)).getD 0
      let place := tok * act + ch.toNat
      let r := (l.toNat, mb, place)
      if s.jug.returned.contains r then s
      else match s.midStore (o.loc + o.mbOff mb + place * o.rowBytes) data with
      | (t, some x) => t.jugError o x
      | (t, none) =>
          ({ t with jug := { t.jug with returned := t.jug.returned ++ [r] } }).returnEnd op o mb

/-- DISPATCH_RECORD (R275): a record arrives at an expert's home, or a returned row at its origin. -/
def execDispatchRecord (r : DispatchIn) (s : State) : Out :=
  match s.job.running, s.job.prog with
  | some j, some p => if p.gen ∨ s.rf oRstJob 61 61 = 1 ∨ s.inSuspect then go s else go (s.takeRecord p j r)
  | _, _ => go s

end Sys2Proof.Machine
end

