-- ==== Sys2Proof/Machine/PostQuantum.lean ====
section
/-!
DEFINITION. The two post-quantum standards of R335, whose algorithms it takes from FIPS 204 and FIPS 203 (assumption 2):
ML-DSA-44 (pure, empty context, hedged) and ML-KEM-768. Polynomials are lists of 256 coefficients, least degree first, each
brought below the modulus. A number-theoretic transform is written as what it computes, the values at the roots.
-/

namespace Sys2Proof.Machine

/-! ### What both share -/

/-- SHAKE128, the first n bytes (FIPS 202). -/
def shake128 (m : Bytes) (n : Nat) : Bytes := sponge 168 0x1F m n
/-- SHAKE256, the first n bytes (FIPS 202). -/
def shake256 (m : Bytes) (n : Nat) : Bytes := sponge 136 0x1F m n
/-- SHA3-512 (FIPS 202). -/
def sha3Long (m : Bytes) : Bytes := sponge 72 0x06 m 64

/-- A polynomial of degree below 256. -/
abbrev Poly := List Nat

/-- Numbers of w bits each behind one another, from the least significant bit of the first byte on. -/
def joinBits (w : Nat) (l : List Nat) : Bytes := le ((w * l.length + 7) / 8) (l.foldr (fun x a => x % 2 ^ w + 2 ^ w * a) 0)
/-- The first n numbers of w bits each. -/
def splitBits (w n : Nat) (b : Bytes) : List Nat :=
  let v := leNat b
  (List.range n).map (fun i => v / 2 ^ (w * i) % 2 ^ w)

/-- x^e modulo q, from the bits of e; fuel bounds their number. -/
def powMod (q x : Nat) : Nat → Nat → Nat
  | 0, _ => 1
  | f + 1, e => if e = 0 then 1 else (if e % 2 = 1 then x else 1) * powMod q (x * x % q) f (e / 2) % q

/-- The k low bits of x in reverse order. -/
def revBits : Nat → Nat → Nat
  | 0, _ => 0
  | k + 1, x => x % 2 * 2 ^ k + revBits k (x / 2)

/-- The value of a polynomial at x modulo q. -/
def evalAt (q x : Nat) (f : List Nat) : Nat := f.foldr (fun c a => (c + x * a) % q) 0
/-- The sum of two polynomials modulo q. -/
def addP (q : Nat) (a b : Poly) : Poly := List.zipWith (fun x y => (x + y) % q) a b
/-- The difference of two polynomials modulo q. -/
def subP (q : Nat) (a b : Poly) : Poly := List.zipWith (fun x y => (x + q - y) % q) a b
/-- The zero polynomial. -/
def zeroP : Poly := List.replicate 256 0
/-- The sum of products of two rows under a multiplication. -/
def dotP (q : Nat) (mul : Poly → Poly → Poly) (a b : List Poly) : Poly := (List.zipWith mul a b).foldl (addP q) zeroP
/-- The size of x modulo q, seen as the nearest number to zero. -/
def absMod (q x : Nat) : Nat := min x (q - x)

/-! ### ML-DSA-44 (FIPS 204): k = l = 4, η = 2, τ = 39, β = 78, γ1 = 2^17, γ2 = (q − 1)/88, ω = 80, d = 13 -/

/-- The modulus of ML-DSA. -/
def dsaQ : Nat := 8380417
/-- γ2 = (q − 1)/88. -/
def dsaG2 : Nat := 95232
/-- The 256 roots of X^256 + 1 in the order of the transform: 1753 to the powers 2·rev(i) + 1. -/
def dsaRoots : List Nat := (List.range 256).map (fun i => powMod dsaQ 1753 9 (2 * revBits 8 i + 1))
/-- The inverses of the roots. -/
def dsaInvRoots : List Nat := (List.range 256).map (fun i => powMod dsaQ 1753 9 (511 - 2 * revBits 8 i))
/-- The transform: the values at the roots. -/
def dsaNtt (f : Poly) : Poly := dsaRoots.map (fun x => evalAt dsaQ x f)
/-- The inverse transform: coefficient j is the mean of the values times the roots to the power −j; 8347681 is 1/256. -/
def dsaIntt (f : Poly) : Poly :=
  ((List.range 256).foldl (fun (a : List Nat × Poly) _ =>
    (List.zipWith (fun x r => x * r % dsaQ) a.1 dsaInvRoots, a.2 ++ [8347681 * a.1.foldl (· + ·) 0 % dsaQ])) (f, [])).2
/-- Multiplication of transforms. -/
def dsaMul (a b : Poly) : Poly := List.zipWith (fun x y => x * y % dsaQ) a b

/-- The first 256 numbers of 23 bits below q in a string of 3-byte groups. -/
def dsaUniform (seed : Bytes) : Poly :=
  (((chunks 3 298 (shake128 seed 894)).map (fun b => leNat b % 2 ^ 23)).filter (· < dsaQ)).take 256
/-- The matrix A of a seed, row by row: entry (r, s) from the seed and the bytes s and r. -/
def dsaMatrix (rho : Bytes) : List (List Poly) :=
  (List.range 4).map (fun r => (List.range 4).map (fun s => dsaUniform (rho ++ le 1 s ++ le 1 r)))
/-- A polynomial with coefficients from −2 to 2: each half byte below 15 gives 2 less its remainder modulo 5. -/
def dsaShort (seed : Bytes) (n : Nat) : Poly :=
  ((((shake256 (seed ++ le 2 n) 481).flatMap (fun b => [b.toNat % 16, b.toNat / 16])).filter (· < 15)).map
    (fun h => (dsaQ + 2 - h % 5) % dsaQ)).take 256
/-- The matrix times a vector that has been transformed, transformed back. -/
def dsaApply (a : List (List Poly)) (v : List Poly) : List Poly := a.map (fun row => dsaIntt (dotP dsaQ dsaMul row v))

/-- Decompose a coefficient into its high part and its low part, which may be negative (γ2). -/
def dsaSplit (r : Nat) : Nat × Int :=
  let m := r % (2 * dsaG2)
  let lo : Int := if m > dsaG2 then (m : Int) - 2 * dsaG2 else m
  if (r : Int) - lo = dsaQ - 1 then (0, lo - 1) else ((((r : Int) - lo) / (2 * dsaG2)).toNat, lo)
/-- The high part with a hint applied: one up where the low part is positive, one down otherwise, modulo 44. -/
def dsaUseHint (h r : Nat) : Nat :=
  let d := dsaSplit r
  if h = 0 then d.1 else if d.2 > 0 then (d.1 + 1) % 44 else (d.1 + 43) % 44
/-- The high parts of a vector as they are hashed: 6 bits each. -/
def dsaHighBytes (w : List Poly) : Bytes := w.flatMap (joinBits 6)

/-- The challenge's walk: for each place i from 217 to 255, the next byte not above i names the place that i takes over, and the
next sign bit fills it. Fuel is the bytes. -/
def dsaBallWalk (signs : Nat) : Bytes → Nat → Poly → Poly
  | [], _, c => c
  | b :: bs, i, c =>
    if i ≥ 256 then c
    else if b.toNat > i then dsaBallWalk signs bs i c
    else dsaBallWalk signs bs (i + 1)
      ((c.set i (c.getD b.toNat 0)).set b.toNat (if bit (i - 217) signs then dsaQ - 1 else 1))
/-- The challenge polynomial with 39 coefficients of 1 or −1. -/
def dsaBall (seed : Bytes) : Poly :=
  let b := shake256 seed 221
  dsaBallWalk (rd 0 8 b) (b.drop 8) 217 zeroP

/-- The 84 bytes of the hints: the places of the ones, ascending in each polynomial, then the running counts. -/
def dsaHintBytes (h : List Poly) : Bytes :=
  let at_ := h.map (fun p => (List.range 256).filter (fun j => p.getD j 0 = 1))
  fit 80 (at_.flatten.map (BitVec.ofNat 8)) ++ (List.range 4).map (fun i => BitVec.ofNat 8 (at_.take (i + 1)).flatten.length)
/-- The places in one polynomial stand in strictly ascending order. -/
def dsaAscending (l : List Nat) : Bool := (l.zip (l.drop 1)).all (fun p => decide (p.1 < p.2))
/-- The hints that 84 bytes spell; none when the counts fall or pass 80, the places do not ascend or unused bytes are not 0. -/
def dsaHints (b : Bytes) : Option (List Poly) :=
  let n := (b.drop 80).map BitVec.toNat
  let bounds := (0 :: n).zip n
  let at_ := bounds.map (fun p => ((b.drop p.1).take (p.2 - p.1)).map BitVec.toNat)
  if bounds.all (fun p => decide (p.1 ≤ p.2 ∧ p.2 ≤ 80)) && at_.all dsaAscending && allZero ((b.take 80).drop (n.getD 3 0)) then
    some (at_.map (fun l => (List.range 256).map (fun j => b2n (l.contains j))))
  else none

/-- An ML-DSA-44 key pair: the public key and the parts of the private key. -/
structure DsaKey where
  pk : Bytes
  /-- The seed of the matrix. -/
  rho : Bytes
  /-- The secret from which signing draws its masks. -/
  mask : Bytes
  s1 : List Poly
  s2 : List Poly
  /-- The low parts of A·s1 + s2. -/
  t0 : List Poly
  deriving DecidableEq, Repr

/-- ML-DSA.KeyGen from a seed of 32 bytes. -/
def dsaKeyGen (seed : Bytes) : DsaKey :=
  let h := shake256 (seed ++ [4, 4]) 128
  let rho := h.take 32
  let r' := slice 32 64 h
  let s1 := (List.range 4).map (dsaShort r')
  let s2 := (List.range 4).map (fun i => dsaShort r' (4 + i))
  let t := List.zipWith (addP dsaQ) (dsaApply (dsaMatrix rho) (s1.map dsaNtt)) s2
  let hi := fun x => (x + 4095) / 8192
  { pk := rho ++ t.flatMap (fun p => joinBits 10 (p.map hi)), rho := rho, mask := h.drop 96, s1 := s1, s2 := s2,
    t0 := t.map (fun p => p.map (fun x => (x + dsaQ - 8192 * hi x) % dsaQ)) }

/-- What is signed for a message: two zero bytes, for the pure form and the empty context, and the message, hashed behind the hash
of the public key. -/
def dsaMu (pk m : Bytes) : Bytes := shake256 (shake256 pk 64 ++ [0, 0] ++ m) 64

/-- The mask polynomial of a counter: 18 bits each, taken from 2^17. -/
def dsaMask (seed : Bytes) (n : Nat) : Poly :=
  (splitBits 18 256 (shake256 (seed ++ le 2 n) 576)).map (fun x => (2 ^ 17 + dsaQ - x) % dsaQ)

/-- One attempt at a signature with the counter κ: none where a bound fails. -/
def DsaKey.attempt (k : DsaKey) (a : List (List Poly)) (mu seed : Bytes) (kappa : Nat) : Option Bytes :=
  let y := (List.range 4).map (fun i => dsaMask seed (kappa + i))
  let w := dsaApply a (y.map dsaNtt)
  let ct := shake256 (mu ++ dsaHighBytes (w.map (fun p => p.map (fun x => (dsaSplit x).1)))) 32
  let c := dsaNtt (dsaBall ct)
  let by_ := fun (v : List Poly) => v.map (fun p => dsaIntt (dsaMul c (dsaNtt p)))
  let z := List.zipWith (addP dsaQ) y (by_ k.s1)
  let r := List.zipWith (subP dsaQ) w (by_ k.s2)
  let c0 := by_ k.t0
  let h : List Poly := List.zipWith (fun p q => List.zipWith (fun x y => b2n (decide ((dsaSplit x).1 ≠ (dsaSplit ((x + y) % dsaQ)).1))) p q) r c0
  if z.any (fun p => p.any (fun x => decide (absMod dsaQ x ≥ 2 ^ 17 - 78))) ||
      r.any (fun p => p.any (fun x => decide ((dsaSplit x).2.natAbs ≥ dsaG2 - 78))) ||
      c0.any (fun p => p.any (fun x => decide (absMod dsaQ x ≥ dsaG2))) || decide (80 < h.flatten.sum) then none
  else some (ct ++ z.flatMap (fun p => joinBits 18 (p.map (fun x => (2 ^ 17 + dsaQ - x) % dsaQ))) ++ dsaHintBytes h)

/-- Attempts until one succeeds; fuel is the standard's bound on them. -/
def DsaKey.attempts (k : DsaKey) (a : List (List Poly)) (mu seed : Bytes) : Nat → Nat → Bytes
  | 0, _ => []
  | f + 1, kappa => (k.attempt a mu seed kappa).getD (k.attempts a mu seed f (kappa + 4))

/-- ML-DSA-44 signing of a message with 32 bytes of fresh randomness. -/
def DsaKey.sign (k : DsaKey) (rnd m : Bytes) : Bytes :=
  let mu := dsaMu k.pk m
  k.attempts (dsaMatrix k.rho) mu (shake256 (k.mask ++ fit 32 rnd ++ mu) 64) 814 0

/-- ML-DSA-44 verification: public key, message, signature. -/
def mldsaVerify (pk m sig : Bytes) : Bool :=
  match dsaHints (slice 2336 84 sig) with
  | none => false
  | some h =>
    let ct := sig.take 32
    let z := (List.range 4).map (fun i => (splitBits 18 256 (slice (32 + 576 * i) 576 sig)).map (fun x => (2 ^ 17 + dsaQ - x) % dsaQ))
    let t1 := (List.range 4).map (fun i => (splitBits 10 256 (slice (32 + 320 * i) 320 pk)).map (· * 8192))
    let c := dsaNtt (dsaBall ct)
    let az := (dsaMatrix (pk.take 32)).map (fun row => dotP dsaQ dsaMul row (z.map dsaNtt))
    let w := List.zipWith (fun p t => dsaIntt (subP dsaQ p (dsaMul c (dsaNtt t)))) az t1
    let hi := List.zipWith (List.zipWith dsaUseHint) h w
    z.all (fun p => p.all (fun x => decide (absMod dsaQ x < 2 ^ 17 - 78))) && ct == shake256 (dsaMu pk m ++ dsaHighBytes hi) 32

/-! ### ML-KEM-768 (FIPS 203): k = 3, η1 = η2 = 2, du = 10, dv = 4 -/

/-- The modulus of ML-KEM. -/
def kemQ : Nat := 3329
/-- The 128 values γ of the transform: 17 to the powers 2·rev(i) + 1; the transform works modulo X² − γ. -/
def kemRoots : List Nat := (List.range 128).map (fun i => powMod kemQ 17 8 (2 * revBits 7 i + 1))
/-- The inverses of the γ. -/
def kemInvRoots : List Nat := (List.range 128).map (fun i => powMod kemQ 17 8 (255 - 2 * revBits 7 i))
/-- The coefficients of even (0) or odd (1) degree. -/
def halfP (odd : Nat) (f : Poly) : List Nat := (List.range 128).map (fun i => f.getD (2 * i + odd) 0)
/-- Two halves put together. -/
def joinP (a b : List Nat) : Poly := (List.zipWith (fun x y => [x, y]) a b).flatten
/-- The transform: the remainders modulo X² − γ. -/
def kemNtt (f : Poly) : Poly :=
  joinP (kemRoots.map (fun x => evalAt kemQ x (halfP 0 f))) (kemRoots.map (fun x => evalAt kemQ x (halfP 1 f)))
/-- The inverse of one half: coefficient j is the mean of the values times γ^(−j); 3303 is 1/128. -/
def kemBack (v : List Nat) : List Nat :=
  ((List.range 128).foldl (fun (a : List Nat × List Nat) _ =>
    (List.zipWith (fun x r => x * r % kemQ) a.1 kemInvRoots, a.2 ++ [3303 * a.1.foldl (· + ·) 0 % kemQ])) (v, [])).2
/-- The inverse transform. -/
def kemIntt (f : Poly) : Poly := joinP (kemBack (halfP 0 f)) (kemBack (halfP 1 f))
/-- Multiplication of transforms: pairs of linear polynomials modulo X² − γ. -/
def kemMul (f g : Poly) : Poly :=
  let a := (halfP 0 f).zip (halfP 1 f)
  let b := (halfP 0 g).zip (halfP 1 g)
  ((a.zip b).zip kemRoots).flatMap (fun t =>
    [(t.1.1.1 * t.1.2.1 + t.1.1.2 * t.1.2.2 % kemQ * t.2) % kemQ, (t.1.1.1 * t.1.2.2 + t.1.1.2 * t.1.2.1) % kemQ])

/-- The first 256 numbers of 12 bits below q in a string of 3-byte groups. -/
def kemUniform (seed : Bytes) : Poly := ((splitBits 12 560 (shake128 seed 840)).filter (· < kemQ)).take 256
/-- The matrix of a seed, row by row: entry (i, j) from the seed and the bytes j and i. -/
def kemMatrix (rho : Bytes) : List (List Poly) :=
  (List.range 3).map (fun i => (List.range 3).map (fun j => kemUniform (rho ++ le 1 j ++ le 1 i)))
/-- A polynomial of the centred binomial distribution: two bits less two bits. -/
def kemNoise (seed : Bytes) (n : Nat) : Poly :=
  (splitBits 4 256 (shake256 (seed ++ le 1 n) 128)).map (fun x =>
    (kemQ + x % 2 + x / 2 % 2 - x / 4 % 2 - x / 8) % kemQ)
/-- Compression of a coefficient to w bits, to the nearest. -/
def kemPress (w x : Nat) : Nat := (2 ^ w * x * 2 + kemQ) / (2 * kemQ) % 2 ^ w
/-- Decompression of w bits. -/
def kemExpand (w y : Nat) : Nat := (2 * kemQ * y + 2 ^ w) / 2 ^ (w + 1)
/-- The polynomials of a string, of w bits each coefficient. -/
def kemPolys (w k : Nat) (b : Bytes) : List Poly := (List.range k).map (fun i => splitBits w 256 (slice (32 * w * i) (32 * w) b))

/-- An ML-KEM-768 key pair: the encapsulation key, the transformed secret and the secret of an implicit rejection. -/
structure KemKey where
  ek : Bytes
  s : List Poly
  reject : Bytes
  deriving DecidableEq, Repr

/-- ML-KEM.KeyGen from 64 random bytes. -/
def kemKeyGen (rnd : Bytes) : KemKey :=
  let h := sha3Long (slice 0 32 rnd ++ [3])
  let rho := h.take 32
  let noise := fun i => kemNtt (kemNoise (h.drop 32) i)
  let s := (List.range 3).map noise
  let e := (List.range 3).map (fun i => noise (3 + i))
  let t := List.zipWith (fun row x => addP kemQ (dotP kemQ kemMul row s) x) (kemMatrix rho) e
  { ek := t.flatMap (joinBits 12) ++ rho, s := s, reject := slice 32 32 rnd }

/-- Encryption of 32 bytes to an encapsulation key with 32 bytes of randomness. -/
def kemEncrypt (ek m r : Bytes) : Bytes :=
  let t := (kemPolys 12 3 ek).map (fun p => p.map (· % kemQ))
  let a := kemMatrix (slice 1152 32 ek)
  let y := (List.range 3).map (fun i => kemNtt (kemNoise r i))
  let u := (List.range 3).map (fun i =>
    addP kemQ (kemIntt (dotP kemQ kemMul (a.map (fun row => row.getD i [])) y)) (kemNoise r (3 + i)))
  let v := addP kemQ (addP kemQ (kemIntt (dotP kemQ kemMul t y)) (kemNoise r 6)) ((splitBits 1 256 m).map (kemExpand 1))
  u.flatMap (fun p => joinBits 10 (p.map (kemPress 10))) ++ joinBits 4 (v.map (kemPress 4))

/-- Decryption of a ciphertext of 1,088 bytes. -/
def KemKey.decrypt (k : KemKey) (c : Bytes) : Bytes :=
  let u := (kemPolys 10 3 c).map (fun p => kemNtt (p.map (kemExpand 10)))
  let v := (splitBits 4 256 (c.drop 960)).map (kemExpand 4)
  joinBits 1 ((subP kemQ v (kemIntt (dotP kemQ kemMul k.s u))).map (kemPress 1))

/-- ML-KEM.Decaps: the shared secret, or for a ciphertext that encrypting again does not give back, one from the rejection's
secret (R344). -/
def KemKey.decaps (k : KemKey) (c : Bytes) : Bytes :=
  let m := k.decrypt c
  let g := sha3Long (m ++ sha3 k.ek)
  if c = kemEncrypt k.ek m (g.drop 32) then g.take 32 else shake256 (k.reject ++ c) 32

/-! ### The device's keys -/

/-- The bytes of "HXN-Z80 ident" (R340). The rule calls them 12 bytes and quotes 13; the quoted string is taken (assumption 2). -/
def identLabel : Bytes := [0x48, 0x58, 0x4E, 0x2D, 0x5A, 0x38, 0x30, 0x20, 0x69, 0x64, 0x65, 0x6E, 0x74]
/-- The identity key pair (R340). -/
def identityKey : DsaKey := dsaKeyGen (sha3 (fit 32 Config.deviceSecret ++ identLabel))
/-- The n-th ML-KEM-768 pair since power-on (R343). -/
def kemPair (n : Nat) : KemKey := kemKeyGen (fit 64 (Config.kemRandom n))

end Sys2Proof.Machine
end

