-- ==== Sys2Proof/Machine/Security.lean ====
section
/-!
DEFINITION. Trust: identity and attestation (R340 to R342), the owner, line and snapshot keys (R343 to R348), the alarm
(R353, R354) and the entropy source (R352).
-/

namespace Sys2Proof.Machine

/-- SEC_ALARM.LATCHED. -/
def State.latched (s : State) : Bool := s.rf oSecAlarm 0 0 == 1
/-- SEC_ALARM.ENTROPY: the engines seal and open nothing (R352). -/
def State.noEntropy (s : State) : Bool := s.rf oSecAlarm 1 1 == 1

/-- IDENT (R382). -/
def execIdent (tag : BitVec 32) (s : State) : Out :=
  withCmd s tag 0x0101 fun s t =>
    s.complete t 0 0 (le 8 (s.rw oSerial).toNat ++ le 1 0xB0 ++ le 1 1 ++ le 1 (b2n s.fw.side) ++ le 1 (s.rf oSecStatus 63 56) ++
      le 1 (s.rf oSecStatus 31 24) ++ le 1 (s.rf oSecStatus 39 32) ++ le 1 s.fwState)

/-- The bytes that an attestation report signs (R341). -/
def State.reportBody (s : State) (challenge : Bytes) : Bytes :=
  let flags := b2n s.fw.side + 2 * b2n (decide (s.rf oSecAlarm 55 48 ≠ 0)) + 4 * b2n s.keys.owner.isSome
  le 4 0x5454415A ++ le 2 1 ++ le 2 flags ++ le 8 (s.rw oSerial).toNat ++ fit 32 challenge ++ le 1 1 ++
    le 1 (s.rf oSecStatus 39 32) ++ le 1 (if s.fw.side then 0 else s.rf oSecStatus 31 24) ++
    le 1 (if s.fw.keySlot < 2 then s.fw.keySlot else 0xFF) ++ le 4 s.fw.activations ++ zeros 8 ++
    fit 32 Config.bootRomDigest ++ fit 32 s.fw.bootDigest ++ fit 32 s.fw.runDigest ++ fit 32 s.fw.meas3 ++ fit 32 s.fw.meas4 ++
    fit 32 s.fw.meas5 ++ fit 1184 (match s.keys.kem with | some n => (kemPair n).ek | none => []) ++ fit 32 (sha3 identityKey.pk)

/-- ATTEST_REPORT (R341): the report and its signature; ALARM while the alarm is latched (R353). -/
def execAttestReport (tag : BitVec 32) (s : State) : Out :=
  withCmd s tag 0x0301 fun s t =>
    if s.latched then s.done t 9
    else
      let body := s.reportBody t.payload
      let s' := { s with fw := { s.fw with signs := s.fw.signs + 1 } }
      s'.output t (body ++ fit 2420 (identityKey.sign (Config.signRandom s.fw.signs) body)) []

/-- ATTEST_CERT (R340): the device certificate and the intermediate, as the 16 KiB store holds them. -/
def execAttestCert (tag : BitVec 32) (s : State) : Out :=
  withCmd s tag 0x0302 fun s t => s.output t (fit 16384 Config.certificates) []

/-- KEY_OWNER (R344, R345, R348); a record that is not one of USE 0 with zeros behind it is refused with KEY_MISMATCH (assumption 67). -/
def execKeyOwner (tag : BitVec 32) (s : State) : Out :=
  withCmd s tag 0x0401 fun s t =>
    if s.latched then s.done t 9
    else if s.keys.owner.isSome then s.done t 0x0402
    else match s.keys.kem with
    | none => s.done t 0x0401
    | some n =>
      match unwrap ((kemPair n).decaps (slice 0 1088 t.payload)) (slice 1088 56 t.payload) with
      | none => s.done t 0x0404
      | some r =>
        if r.length ≠ 48 ∨ !allZero (r.drop 32) then s.done t 0x0405
        else ({ s with keys := { s.keys with owner := some (r.take 32), kem := none } }).done t 0

/-- The peer with a port-0 address. -/
def State.peer? (s : State) (mac : Nat) : Option Peer := s.rounds.peers.find? (fun p => p.mac0 == mac)
/-- Replace the peer with the same port-0 address. -/
def State.setPeer (s : State) (p : Peer) : State :=
  { s with rounds := { s.rounds with peers := s.rounds.peers.map (fun q => if q.mac0 == p.mac0 then p else q) } }

/-- KEY_SNAP (R346 to R348): the previous snapshot key goes, and the last SNAP_ID reads as none. -/
def execKeySnap (tag : BitVec 32) (s : State) : Out :=
  withCmd s tag 0x0403 fun s t =>
    if s.latched then s.done t 9
    else match s.keys.owner with
    | none => s.done t 0x0403
    | some kek =>
      match unwrap kek (slice 0 56 t.payload) with
      | none => s.done t 0x0404
      | some r =>
        if r.length ≠ 48 ∨ rd 32 1 r ≠ 3 ∨ !allZero (r.drop 33) then s.done t 0x0405
        else ({ s with keys := { s.keys with snap := some (r.take 32), lastSnap := none } }).done t 0

/-- Erase the line keys of every peer. -/
def State.eraseLine (s : State) : State :=
  { s with rounds := { s.rounds with peers := s.rounds.peers.map (fun p =>
      { p with tx := none, txWait := false, txUsed := 0, counters := [], rx := none, prev := none, grace := false }) } }

/-- KEY_CLEAR (R348): every owner, line and snapshot key goes and a new ML-KEM pair is generated. -/
def execKeyClear (tag : BitVec 32) (s : State) : Out :=
  withCmd s tag 0x0404 fun s t =>
    if s.latched then s.done t 9
    else
      let s := s.eraseLine
      ({ s with keys := { s.keys with owner := none, snap := none, lastSnap := none, kem := some s.keys.kemCount,
                                      kemCount := s.keys.kemCount + 1 } }).done t 0

/-- Put a Borjan port down (R286, R353). -/
def State.bjnDown (s : State) (q : Nat) : State := s.wf (oBjnPort q) 63 62 0

/-- Set CIPH_STATUS.STATE of the three engines. -/
def State.ciphState (s : State) (v : Nat) : State := (((s.wf (oCiph 0) 63 62 v).wf (oCiph 1) 63 62 v).wf (oCiph 2) 63 62 v)

/-- What a sensor trip does (R353): every key is erased, the Borjan ports go down, LATCHED is set, the ALARM record is
posted with its flush, and the board is alerted. -/
def State.doAlarm (s : State) (code : Nat) : State :=
  let s := match s.restore with
    | some x => ({ s with restore := none, job := { s.job with noStep := true } }).doneTag x.tag 9
    | none => s
  let s := s.eraseLine
  let s := { s with keys := { s.keys with owner := none, snap := none, lastSnap := none, kem := none, identity := false } }
  let s := ((s.bjnDown 0).bjnDown 1).ciphState 2
  let s := ((s.wf oSecAlarm 0 0 1).wf oSecAlarm 63 56 code).satAdd oSecAlarm 55 48 1
  let s := (s.urgent 3 srcSec 0x0601 (le 1 1 ++ le 1 code ++ zeros 6 ++ le 8 0)).raise 8
  ({ s with i3c := { s.i3c with alert := true } }).emit (.pin "ALERT#" 1)

/-- ALARM (R353). -/
def execAlarm (code : BitVec 8) (s : State) : Out := go (s.doAlarm code.toNat)

/-- ENTROPY_FAILURE (R352): the engines stop sealing and opening and keep their keys. -/
def execEntropyFailure (s : State) : Out :=
  let t := s.wf oSecAlarm 1 1 1
  let t := if t.latched then t else t.ciphState 3
  go ((t.post srcSec 0x0601 (le 1 2 ++ zeros 7 ++ le 8 0)).raise 8)

/-- KEY_GRACE_EXPIRY (R317, R319): the receiver erases the previous receive key, and what it drops under that epoch it
reports from now on (R318); the sender may install its next transmit key. -/
def execKeyGraceExpiry (peer : BitVec 48) (receive : Bool) (s : State) : Out :=
  match s.peer? peer.toNat with
  | none => go s
  | some p =>
    if receive then
      match p.prev with
      | none => go s
      | some k =>
        if !p.grace then go s
        else go ((s.setPeer { p with prev := none, grace := false }).keyRec 2 2 k.epoch p.site (p.mac0 % 2 ^ 32) 0)
    else go (s.setPeer { p with txWait := false })

end Sys2Proof.Machine
end

