-- ==== Sys2Proof/Machine/Time.lean ====
section
/-!
DEFINITION. Site time: the states of R313, TIME_SET and the 1PPS edge (R309, R312), the once-a-second discipline, path events and
learning (R311 to R313). Deadlines are commands of their own, so the uncertainty that extends them (R314) shows in TIME_STATUS
alone.
-/

namespace Sys2Proof.Machine

/-- TIME_STATUS.STATE: 0 FREE, 1 ACQUIRE, 2 LOCKED, 3 HOLDOVER, 4 LEARN, 5 ROOT. -/
def State.timeState (s : State) : Nat := s.rf oTimeStatus 63 61
/-- TIME_STATUS.CHAN. -/
def State.timeChan (s : State) : Nat := s.rf oTimeStatus 60 55
/-- TIME_STATUS.UNCERT_NS. -/
def State.uncert (s : State) : Nat := s.rf oTimeStatus 31 0

/-- Post a TIME record (R428); a state change or a path event raises TIME (R367). -/
def State.timeRec (s : State) (event chan : Nat) (delta : Int) : State :=
  let t := s.post srcTime 0x0401 (le 1 event ++ le 1 s.timeState ++ le 1 chan ++ zeros 1 ++ le 4 s.uncert ++ le 8 (BitVec.ofInt 64 delta).toNat)
  if event = 3 then t else t.raise 12

/-- Enter a time state with an uncertainty; a change of state is recorded. -/
def State.enterTime (s : State) (v u : Nat) : State :=
  let t := (s.wf oTimeStatus 63 61 v).wf oTimeStatus 31 0 (min u (2 ^ 32 - 1))
  if s.timeState = v then t else t.timeRec 1 t.timeChan 0

/-- The root site of the running programme, if the device is not in it. -/
def State.rootSite (s : State) : Option Nat :=
  match s.job.prog.bind (·.round) with
  | some c => if c.root = c.site then none else some c.root
  | none => none

/-- The lowest LIVE channel to the root site whose asymmetry is known (R309). -/
def State.bestTimeChan (s : State) : Option Nat :=
  match s.rootSite with
  | none => none
  | some r => (List.range 32).find? (fun n => s.rf (oChan n) 63 61 == 2 && s.rf (oChan n) 60 57 == r && s.rf (oAsym n) 63 62 != 0)

/-- Holdover starts (R312, R313). -/
def State.holdover (s : State) (added : Nat) : State :=
  let t := { s with time := { s.time with holdU := s.uncert, holdNs := s.rw oTimeNow, added := added, slew := 0, frac := 0 } }
  t.enterTime 3 (s.uncert + added)

/-- The changes of state that follow from the channels (R313): FREE to ACQUIRE, and LOCKED to HOLDOVER when no time channel is left. The time channel
is chosen anew, in HOLDOVER too; in LOCKED one whose asymmetry TIME_CAL has entered leaves an uncertainty of at most 50 ns (R312). -/
def State.timeCheck (s : State) : State :=
  match s.bestTimeChan with
  | some n =>
    if s.timeState = 0 then
      (({ s with time := { s.time with stepped := false } }).wf oTimeStatus 60 55 n).enterTime 1 s.uncert
    else if s.timeState = 1 ∨ s.timeState = 3 then s.wf oTimeStatus 60 55 n
    else if s.timeState = 2 then
      (s.wf oTimeStatus 60 55 n).wf oTimeStatus 31 0 (if s.rf (oAsym n) 63 62 = 1 then min s.uncert 50 else s.uncert)
    else s
  | none =>
    if s.timeState = 2 then (s.wf oTimeStatus 60 55 0x3F).holdover 0
    else if s.timeState = 1 ∨ s.timeState = 3 then s.wf oTimeStatus 60 55 0x3F
    else s

/-- A programme that comes to run makes the device a root-site device or not (R309, R313). -/
def State.timeRole (s : State) : State :=
  match s.job.prog.bind (·.round) with
  | some c =>
    if c.root = c.site then (s.wf oTimeStatus 60 55 0x3F).enterTime 5 0
    else if s.timeState = 5 then (s.enterTime 0 0xFFFFFFFF).timeCheck
    else s.timeCheck
  | none => if s.timeState = 5 then s.enterTime 0 0xFFFFFFFF else s

/-- TIME_SET (R309, R382). -/
def execTimeSet (tag : BitVec 32) (s : State) : Out :=
  withCmd s tag 0x0D01 fun s t =>
    if s.timeState ≠ 5 then s.done t 0x000A
    else ({ s with time := { s.time with pendingSet := some (BitVec.ofNat 64 (rd 0 8 t.payload)) } }).done t 0

/-- PPS_EDGE (R309, R312): at a root-site device the second is marked and a pending TIME_SET loads the timebase. -/
def execPpsEdge (s : State) : Out :=
  match s.time.pendingSet with
  | some v =>
    if s.timeState ≠ 5 then go s
    else
      let d : Int := (v.toNat : Int) - s.now
      go ((({ s with time := { s.time with pendingSet := none } }).ww oTimeNow v).timeRec 3 0x3F d)
  | none => go s

/-- TIME_CAL (R313, R382): the asymmetry of a channel is entered; on a LIVE channel to the root site in holdover or learning the state becomes LOCKED
with 50 ns, and on the time channel of a LOCKED device the uncertainty is at most 50 ns from then on (R312). -/
def execTimeCal (tag : BitVec 32) (s : State) : Out :=
  withCmd s tag 0x0D02 fun s t =>
    let n := rd 0 1 t.payload
    if 32 ≤ n ∨ !allZero (slice 1 3 t.payload) then s.done t 3
    else
      let s := (s.wf (oAsym n) 63 62 1).wf (oAsym n) 31 0 (rd 4 4 t.payload)
      let mine := s.rf (oChan n) 63 61 == 2 && s.rootSite.any (fun r => s.rf (oChan n) 60 57 == r)
      let s := if (s.timeState = 3 ∨ s.timeState = 4) ∧ mine then
          ((({ s with time := { s.time with learn := none, learnBest := none, added := 0 } }).wf oTimeStatus 60 55 n).enterTime 2 50)
        else s
      s.timeCheck.done t 0

/-- The growth of the uncertainty since holdover began (R312). -/
def State.holdGrowth (s : State) : Nat := s.rf oTimeCtl 15 0 * (s.now - s.time.holdNs.toNat) / 10 ^ 12

/-- A channel of the map. -/
def State.chan (s : State) (n : Nat) : Chan := SMap.get s.rounds.chans n {}
/-- Put a channel. -/
def State.setChan (s : State) (n : Nat) (c : Chan) : State := { s with rounds := { s.rounds with chans := SMap.set s.rounds.chans n c } }
/-- The asymmetry of a channel in ns. -/
def State.asym (s : State) (n : Nat) : Int := (BitVec.ofNat 32 (s.rf (oAsym n) 31 0)).toInt

/-- The time channel's best exchange of a second disciplines the timebase: the first estimate steps it, later ones slew it by at most
10 ppm (R311, R312). -/
def State.discipline (s : State) (n : Nat) (d : Int) : State :=
  let th := (d - s.asym n) / 2
  if s.timeState = 1 ∧ !s.time.stepped then
    (({ s with time := { s.time with stepped := true } }).ww oTimeNow (s.rw oTimeNow + BitVec.ofInt 64 th)).timeRec 3 n th
  else if s.timeState = 1 ∨ s.timeState = 2 then
    { s with time := { s.time with slew := max (-10000) (min 10000 th), frac := 0 } }
  else s

/-- A second of one channel (R311, R313): its minimum round trip, a path event, and the use of its best exchange. -/
def State.chanSecond (s : State) (n : Nat) : State :=
  match (s.chan n).best with
  | none => s
  | some (rtt, d) =>
    let old := SMap.get? s.time.minRtt n
    let t := s.setChan n { s.chan n with best := none }
    let t := { t with time := { t.time with minRtt := SMap.set t.time.minRtt n rtt } }
    let t := t.wf (oChan n) 31 0 (min rtt.toNat (2 ^ 32 - 1))
    let delta := rtt - old.getD rtt
    if (s.rf oTimeCtl 63 32 : Int) ≤ delta.natAbs then
      let t := t.timeRec 2 n delta
      if n = s.timeChan ∧ (s.timeState = 1 ∨ s.timeState = 2) then
        let t := t.holdover (delta.natAbs / 2)
        let t := (t.wf (oAsym n) 63 62 0).wf (oAsym n) 31 0 0
        ({ t with time := { t.time with learn := some n, learnBest := none } }).enterTime 4 t.uncert
      else if (s.timeState = 4 ∧ s.time.learn = some n) ∨ (s.timeState = 3 ∧ n = s.timeChan) then
        -- the path has changed in holdover: holdover goes on with more to add, and learning starts, or starts anew
        let t := { t with time := { t.time with added := t.time.added + delta.natAbs / 2, learn := some n, learnBest := none } }
        let u := t.time.holdU + t.time.added + t.holdGrowth
        (((t.wf (oAsym n) 63 62 0).wf (oAsym n) 31 0 0).enterTime 3 u).enterTime 4 u
      else (t.wf (oAsym n) 63 62 0).wf (oAsym n) 31 0 0
    else if s.timeState = 4 ∧ s.time.learn = some n then
      { t with time := { t.time with learnBest := match t.time.learnBest with
          | some b => if b.1 ≤ rtt then some b else some (rtt, d)
          | none => some (rtt, d) } }
    else if n = s.timeChan then t.discipline n d
    else t

/-- The rate of the timebase in HOLDOVER and LEARN (R474): while REF10 is present the timing unit steers it to REF10, by a correction for the second that
follows, which is a free value; otherwise the timebase follows REF100. -/
def State.steer (s : State) : State :=
  if s.timeState ≠ 3 ∧ s.timeState ≠ 4 then s
  else if bit 2 (s.rf oClk 61 58) then
    let x := s.draw
    { x.2 with time := { x.2.time with slew := x.1.toInt, frac := 0 } }
  else { s with time := { s.time with slew := 0, frac := 0 } }

/-- TIME_SECOND (R311 to R313, R474): every channel's best exchange of the second is used, the uncertainty of holdover grows, and its rate is steered. -/
def execTimeSecond (s : State) : Out :=
  let t := ((List.range 32).foldl State.chanSecond s).steer
  let t := if t.timeState = 3 ∨ t.timeState = 4 then t.wf oTimeStatus 31 0 (min (t.time.holdU + t.time.added + t.holdGrowth) (2 ^ 32 - 1)) else t
  go t.timeCheck

/-- ACQUIRE_DONE (R313): 10 s of estimates have passed. An entered asymmetry gives 50 ns (R312); for a learned one no figure is given and
the uncertainty is a free value. -/
def execAcquireDone (s : State) : Out :=
  if s.timeState = 1 ∧ s.time.stepped ∧ s.timeChan < 32 then
    if s.rf (oAsym s.timeChan) 63 62 = 1 then go (s.enterTime 2 50)
    else
      let x := s.draw
      go (x.2.enterTime 2 (x.1.toNat % 2 ^ 32))
  else go s

/-- LEARN_END (R313): the channel's asymmetry is learned and the state becomes LOCKED with the holdover uncertainty of the moment. -/
def execLearnEnd (chan : ChanNo) (s : State) : Out :=
  match s.time.learn, s.time.learnBest with
  | some n, some (_, d) =>
    if n ≠ chan.val ∨ s.timeState ≠ 4 then go s
    else
      let u := s.time.holdU + s.holdGrowth
      let t := (s.wf (oAsym n) 63 62 2).wf (oAsym n) 31 0 (BitVec.ofInt 32 d).toNat
      let t := { t with time := { t.time with learn := none, learnBest := none, added := 0 } }
      go ((t.wf oTimeStatus 60 55 n).enterTime 2 u)
  | _, _ => go s

end Sys2Proof.Machine
end

