-- ==== Sys2Proof/Machine/Borjan.lean ====
section
/-!
DEFINITION. Borjan's frames between devices of distant sites: sealing and opening (R287, R315 to R320, R350), sequence numbers and
acknowledgement (R287, R304), erasure groups (R303), wavelength channels and striping (R305 to R308), time transfer (R310, R311), range
maps (R283, R284) and the placing of delta segments (R289, R290, R301). Pacing at a channel's capacity is time and is left out; frames
leave at once (assumption 33).
-/

namespace Sys2Proof.Machine

/-- This device's site. -/
def State.site (s : State) : Nat := match s.job.prog.bind (·.round) with | some c => c.site | none => 0
/-- The running round configuration. -/
def State.cfg? (s : State) : Option RoundCfg := s.job.prog.bind (·.round)

/-! ### Channels (R305 to R308) -/

/-- BJN_CHAN_STATUS.STATE: 0 OFF, 1 PROBE, 2 LIVE, 3 DRAIN. -/
def State.chanState (s : State) (n : Nat) : Nat := s.rf (oChan n) 63 61
/-- BJN_CHAN_STATUS.SITE. -/
def State.chanSite (s : State) (n : Nat) : Nat := s.rf (oChan n) 60 57
/-- The cost of R308 as a fraction, in ns: bytes at the channel's capacity in kb/s, plus half the round trip. -/
def State.chanCost (s : State) (n bytes : Nat) : Nat × Nat :=
  let c := max 1 (s.chan n).cap
  (16 * bytes * 10 ^ 6 + s.rf (oChan n) 31 0 * c, 2 * c)

/-- The channel that R308 chooses for a frame to a site among those in one of the states. -/
def State.pickChan (s : State) (states : List Nat) (site bytes : Nat) : Option Nat :=
  (List.range 32).foldl (fun (best : Option Nat) n =>
    if !(states.contains (s.chanState n)) ∨ s.chanSite n ≠ site ∨ s.rf (oBjnPort (s.chan n).port) 63 62 ≠ 2 then best
    else match best with
    | none => some n
    | some b =>
      let x := s.chanCost n bytes
      let y := s.chanCost b bytes
      if x.1 * y.2 < y.1 * x.2 then some n else some b) none

/-- BJN_CHAN_STATUS.CAP from an estimate in kb/s. -/
def State.capReg (s : State) (n : Nat) : State := s.wf (oChan n) 51 32 (min ((s.chan n).cap * 1024 / 10 ^ 6) (2 ^ 20 - 1))

/-! ### Sealing (R287, R315, R350) -/

/-- The Borjan header (R287). -/
def bjnHeader (typ epoch nchan flags len src dst seq counter gidx gk gm : Nat) : Bytes :=
  le 1 typ ++ le 1 epoch ++ le 1 nchan ++ le 1 flags ++ le 2 len ++ le 1 src ++ le 1 dst ++ le 8 seq ++ le 8 counter ++ le 1 gidx ++
    le 1 gk ++ le 1 gm ++ zeros 5

/-- The additional data that a header gives: FLAGS.RESEND reads as 0 in it, since a re-send carries the stored tag (R304, R316,
assumption 34). -/
def bjnAad (h : Bytes) : Bytes := h.take 3 ++ le 1 (rd 3 1 h - b2n (bit 1 (rd 3 1 h)) * 2) ++ (h.take 32).drop 4

/-- The 12 nonce bytes of R315, most significant first. -/
def bjnIv (epoch nchan counter : Nat) : Bytes := le 1 epoch ++ le 1 nchan ++ zeros 2 ++ (le 8 counter).reverse

/-- Types that are neither acknowledged nor re-sent (R288): BACK, TT, EPOCH_GONE. -/
def unacked (typ : Nat) : Bool := typ == 3 || typ == 0x0B || typ == 0x0D

/-- Whether the device can seal frames to a peer now (R320, R332, R352). -/
def State.canSeal (s : State) (p : Peer) : Bool := p.tx.isSome && decide (p.txUsed < 2 ^ 32) && !s.noEntropy && !s.latched && !s.replay.on

/-- Send a frame's bytes on a channel: the peer's port with the number of the channel's own is addressed (assumption 35). -/
def State.bjnEmit (s : State) (p : Peer) (c : Nat) (b : Bytes) : State :=
  let x := s.chan c
  (s.setChan c { x with frames := x.frames + 1 }).emit (.borjan x.port x.vid x.pcp (if x.port = 0 then p.mac0 else p.mac1) (s.rf oBjnCtl 63 48) b)

/-- The number that stands for no channel. -/
def noChan : Nat := 32

/-- Seal a new frame under the current transmit key and send it on a channel; one that cannot be sealed now waits, with its SEQ, for a key (R315,
R320, R350). -/
def State.sealFrame (s : State) (p : Peer) (c typ gidx gk gm flags : Nat) (seq : Word) (plain : Bytes) : State :=
  let wait : Sent := { seq := seq, typ := typ, gidx := gidx, gk := gk, gm := gm, chan := noChan, at_ := 0, due := true, bytes := [], plain := plain }
  let late := if unacked typ then s else s.setPeer { p with sent := p.sent.filter (fun y => y.seq != seq) ++ [wait] }
  match p.tx with
  | none => late
  | some k =>
    if !s.canSeal p then late else
    let ctr := SMap.get p.counters c 0
    let fl := flags + b2n (typ == 2)
    let h := bjnHeader typ k.epoch c fl plain.length s.site p.site seq.toNat ctr gidx gk gm
    let b := h ++ gcmSeal k.key (bjnIv k.epoch c ctr) (bjnAad h) plain
    let x : Sent := { seq := seq, typ := typ, gidx := gidx, gk := gk, gm := gm, chan := c, at_ := s.rw oTimeNow, due := false, bytes := b, plain := plain, via := [c] }
    let q := { p with counters := SMap.set p.counters c (ctr + 1), txUsed := p.txUsed + 1
                      sent := if unacked typ then p.sent else p.sent.filter (fun y => y.seq != seq) ++ [x] }
    let t := (s.setPeer q).bjnEmit q c b
    if q.txUsed = 2 ^ 31 then t.keyRec 3 1 k.epoch p.site (p.mac0 % 2 ^ 32) q.txUsed
    else if q.txUsed = 2 ^ 32 then t.keyRec 4 1 k.epoch p.site (p.mac0 % 2 ^ 32) q.txUsed
    else t

/-- Send a frame to a peer with its next SEQ, on a channel. -/
def State.sendNext (s : State) (mac c typ gidx gk gm : Nat) (plain : Bytes) : State :=
  match s.peer? mac with
  | none => s
  | some p =>
    let q := { p with seq := p.seq + 1 }
    (s.setPeer q).sealFrame q c typ gidx gk gm 0 p.seq plain

/-! ### Erasure groups (R303) -/

/-- Multiplication in GF(2^8) with the polynomial 0x11D; fuel is the bits of the second factor. -/
def gfMul : Nat → Nat → Nat → Nat
  | 0, _, _ => 0
  | f + 1, a, b => (if b % 2 = 1 then a else 0) ^^^ gfMul f (if a < 128 then 2 * a else (2 * a) ^^^ 0x11D) (b / 2)
/-- The inverse in GF(2^8); 0 for 0. -/
def gfInv (a : Nat) : Nat := ((List.range 256).find? (fun b => gfMul 8 a b == 1)).getD 0
/-- c_j,d of R303. -/
def ecCoef (gk j d : Nat) : Nat := gfInv ((gk + j) ^^^ d)
/-- What parity covers of a data frame: LENGTH and payload. -/
def ecWord (plain : Bytes) : Bytes := le 2 plain.length ++ plain
/-- Exclusive OR of byte strings, the shorter one filled with zeros. -/
def xorBytes (a b : Bytes) : Bytes := let n := max a.length b.length; List.zipWith (· ^^^ ·) (fit n a) (fit n b)
/-- A byte string times a coefficient. -/
def gfScale (c : Nat) (b : Bytes) : Bytes := b.map (fun x => BitVec.ofNat 8 (gfMul 8 x.toNat c))
/-- Parity j of a group's data frames. -/
def ecParity (j : Nat) (plains : List Bytes) : Bytes :=
  plains.zipIdx.foldl (fun acc x => xorBytes acc (gfScale (ecCoef plains.length j x.2) (ecWord x.1))) []

/-- Solve one linear system over GF(2^8) by elimination: rows of coefficients with their right sides. Fuel is the number of unknowns;
row k ends with a 1 at place k. None where a pivot is missing, which the matrix of R303 never shows. -/
def gfSolve : Nat → Nat → List (List Nat × Bytes) → Option (List (List Nat × Bytes))
  | 0, _, rows => some rows
  | f + 1, k, rows =>
    match rows.zipIdx.find? (fun r => decide (k ≤ r.2) && r.1.1.getD k 0 != 0) with
    | none => none
    | some (r, i) =>
      let iv := gfInv (r.1.getD k 0)
      let piv := (r.1.map (fun x => gfMul 8 x iv), gfScale iv r.2)
      let rest := (rows.set i (rows.getD k ([], []))).set k piv
      gfSolve f (k + 1) (rest.zipIdx.map (fun x =>
        let c := x.1.1.getD k 0
        if x.2 = k ∨ c = 0 then x.1
        else (List.zipWith (fun a b => a ^^^ gfMul 8 b c) x.1.1 piv.1, xorBytes x.1.2 (gfScale c piv.2))))

/-- Rebuild the missing data frames of a group from any GK of its frames (R303): index and plaintext of each. -/
def ecRebuild (gk : Nat) (got : List (Nat × Bytes)) : List (Nat × Bytes) :=
  let data := got.filter (fun x => decide (x.1 < gk))
  let par := got.filter (fun x => decide (gk ≤ x.1))
  let miss := (List.range gk).filter (fun d => !data.any (fun x => x.1 == d))
  if miss.length > par.length then []
  else
    let rows := (par.take miss.length).map (fun x =>
      (miss.map (ecCoef gk (x.1 - gk)), data.foldl (fun acc y => xorBytes acc (gfScale (ecCoef gk (x.1 - gk) y.1) (ecWord y.2))) x.2))
    match gfSolve miss.length 0 rows with
    | none => []
    | some rs => (miss.zip rs).map (fun x => (x.1, (x.2.2.drop 2).take (rd 0 2 x.2.2)))

/-- The longest payload that a frame carries (R287, R320). -/
def maxPayload : Nat := 16384

/-- Send the DRUN payloads of a group and its parity, each on the channel that R308 chooses. A group whose parity frames would be longer than a
frame may be has none (R303, R320, assumption 62). -/
def State.sendGroup (s : State) (mac site m : Nat) (plains : List Bytes) : State :=
  let gk := plains.length
  let ecM := if plains.any (fun b => decide (maxPayload < b.length + 2)) then 0 else m
  let all := plains.map (fun b => (1, b)) ++ (List.range ecM).map (fun j => (2, ecParity j plains))
  all.zipIdx.foldl (fun t x =>
    match t.pickChan [2] site (x.1.2.length + 70) with
    | some c => t.sendNext mac c x.1.1 x.2 gk ecM x.1.2
    | none => t) s

/-- Send what waits for a peer as far as key, entropy and channels allow: single frames in order, and DRUN frames in whole groups, or in
a last short one (R303, R308). Fuel is the number of waiting frames. -/
def State.pumpGo (s : State) (mac : Nat) (short : Bool) : Nat → State
  | 0 => s
  | f + 1 =>
    match s.peer? mac, s.cfg? with
    | some p, some cfg =>
      if !s.canSeal p then s
      else match p.waiting.find? (fun x => x.1 != 1) with
      | some x =>
        (match s.pickChan [2] p.site (x.2.length + 70) with
         | none => s
         | some c => ((s.setPeer { p with waiting := p.waiting.erase x }).sendNext mac c x.1 0 1 0 x.2).pumpGo mac short f)
      | none =>
        let g := p.waiting.take cfg.ecK
        if g.isEmpty ∨ (g.length < cfg.ecK ∧ !short) ∨ (s.pickChan [2] p.site 70).isNone then s
        else ((s.setPeer { p with waiting := p.waiting.drop g.length }).sendGroup mac p.site cfg.ecM (g.map (·.2))).pumpGo mac short f
    | _, _ => s

/-- `pumpGo` with enough fuel. -/
def State.pump (s : State) (mac : Nat) (short : Bool) : State :=
  s.pumpGo mac short (match s.peer? mac with | some p => p.waiting.length + 1 | none => 0)

/-- Queue a frame to a peer and send what can be sent. -/
def State.bjnSend (s : State) (mac typ : Nat) (plain : Bytes) : State :=
  match s.peer? mac with
  | none => s
  | some p => if s.replay.on then s else (s.setPeer { p with waiting := p.waiting ++ [(typ, plain)] }).pump mac false

/-- Re-send a stored frame unchanged, FLAGS.RESEND set, on whatever channel R308 chooses (R304, R316); on a DRAIN channel only where no
LIVE one leads there (R306). The channel that carried the frame before counts the re-send (R307). A frame that waited for a key is sealed. While an
entropy test fails, and under a latched alarm, frames wait as they do without a channel (R352, R354). -/
def State.resend (s : State) (mac : Nat) (x : Sent) : State :=
  match s.peer? mac with
  | none => s
  | some p =>
    if x.bytes.isEmpty then
      match s.pickChan [2] p.site (x.plain.length + 70) with
      | some c => if s.canSeal p then s.sealFrame p c x.typ x.gidx x.gk x.gm 0 x.seq x.plain else s
      | none => s
    else
    let n := x.bytes.length + 22
    match (if s.noEntropy ∨ s.latched then none else (s.pickChan [2] p.site n).orElse (fun _ => s.pickChan [3] p.site n)) with
    | none => s.setPeer { p with sent := p.sent.map (fun y => if y.seq == x.seq then { y with due := true } else y) }
    | some c =>
      let b := x.bytes.take 3 ++ le 1 (rd 3 1 x.bytes ||| 2) ++ x.bytes.drop 4
      let q := { p with sent := p.sent.map (fun y => if y.seq == x.seq then { y with due := false, chan := c, at_ := s.rw oTimeNow, via := c :: y.via } else y) }
      let t := s.setPeer q
      (t.setChan x.chan { t.chan x.chan with resent := (t.chan x.chan).resent + 1 }).bjnEmit q c b

/-- Re-send the frames of a peer that are due. -/
def State.resendDue (s : State) (mac : Nat) : State :=
  match s.peer? mac with
  | none => s
  | some p => if s.replay.on then s else (p.sent.filter (·.due)).foldl (fun t x => t.resend mac x) s

/-- ENTROPY_RECOVERED (R352): the tests have passed for 1 ms; what waited for a nonce or a key use goes. -/
def execEntropyRecovered (s : State) : Out :=
  if s.noEntropy then
    let t := s.wf oSecAlarm 1 1 0
    let t := if t.latched then t else t.ciphState 0
    let t := t.post srcSec 0x0601 (le 1 3 ++ zeros 7 ++ le 8 0)
    go (t.rounds.peers.foldl (fun u p => (u.resendDue p.mac0).pump p.mac0 false) t)
  else go s

/-- A channel's state changes: LIVE lets waiting frames go, and the time channel is chosen anew (R306, R308, R313). -/
def State.setChanState (s : State) (n v : Nat) : State :=
  let t := (s.wf (oChan n) 63 61 v).timeCheck
  if v = 2 then (t.rounds.peers.filter (fun p => p.site == t.chanSite n)).foldl (fun u p => (u.resendDue p.mac0).pump p.mac0 false) t else t

/-- A DRAIN channel becomes OFF when nothing it sent remains unacknowledged (R306). -/
def State.drainCheck (s : State) (n : Nat) : State :=
  if s.chanState n = 3 ∧ !s.rounds.peers.any (fun p => p.sent.any (fun x => x.via.contains n)) then s.setChanState n 0 else s

/-! ### Range maps (R283, R284, R347) -/

/-- Whether the device owns the slice that holds a parameter: an RRECV of its plan receives it (R26, R271). -/
def Prog.owns (p : Prog) (tensor first : Nat) : Bool :=
  p.rrecvs.any (fun x => x.1.tensor == tensor && decide (x.1.first ≤ first) && decide (first < x.1.first + x.1.count))

/-- The owned shards of the held entries: entry, shard, first parameter, length. -/
def State.ownedShards (s : State) (p : Prog) : List (Nat × Nat × Nat × Nat) :=
  (s.held p).zipIdx.flatMap (fun x => (List.range x.1.shards).filterMap (fun k =>
    let f := x.1.first + 65536 * k
    if p.owns x.1.tensor f then some (x.2, k, f, x.1.shardLen k) else none))

/-- A range-map entry (R283). -/
def mkRMap (b : Bytes) : RMapE :=
  { first := rd 0 6 b, count := rd 8 6 b, site := rd 16 1 b, mac0 := rd 18 6 b, mac1 := rd 24 6 b }

/-- Whether two ranges of parameters share one. -/
def RMapE.hits (a b : RMapE) : Bool := decide (a.first < b.first + b.count) && decide (b.first < a.first + a.count)

/-- Whether the entries for one site overlap. -/
def rmapOverlap : List RMapE → Bool
  | [] => false
  | a :: l => l.any (fun b => a.site == b.site && a.hits b) || rmapOverlap l

/-- R284 on a range map of whole entries. -/
def State.rmapOk (s : State) (p : Prog) (b : Bytes) : Bool :=
  let es := (chunks 32 (b.length / 32) b).map mkRMap
  let own := s.ownedShards p
  let inEntry := fun (e : RMapE) => (s.held p).any (fun x =>
    decide (x.first ≤ e.first) && decide (e.first + e.count ≤ x.first + x.count) && (e.first - x.first) % 65536 == 0 &&
    (decide (e.first + e.count = x.first + x.count) || (e.first + e.count - x.first) % 65536 == 0))
  let total := own.foldl (fun (n : Nat) o => n + o.2.2.2) 0
  (chunks 32 (b.length / 32) b).all (fun e => rd 6 2 e == 0 && rd 14 2 e == 0 && rd 17 1 e == 0 && rd 30 2 e == 0) &&
  es.all (fun e => decide (e.site < 16) && e.site != s.site && decide (0 < e.count) && inEntry e &&
    (own.filter (fun o => decide (o.2.2.1 < e.first + e.count) && decide (e.first < o.2.2.1 + o.2.2.2))).foldl (fun (n : Nat) o => n + o.2.2.2) 0 == e.count &&
    (es.filter (fun f => f.site == e.site)).foldl (fun (n : Nat) f => n + f.count) 0 == total) &&
  !rmapOverlap es

/-- A range map takes effect: a peer newly paired starts at SEQ 0, one still named takes the entry's site and second address, one no longer named loses
its keys (R284, R287, R347). With the new range maps that follow a new round configuration, a stuck round is released: its correction is not
applied (R292, assumption 63). -/
def State.installMap (s : State) (m : List RMapE) : State :=
  let keep := s.rounds.peers.filterMap (fun p => (m.find? (fun e => e.mac0 == p.mac0)).map (fun e => { p with mac1 := e.mac1, site := e.site }))
  let s := if s.rounds.stuck ∧ s.rounds.newCfg then
      ((({ s with rounds := { s.rounds with stuck := false, newCfg := false, applied := true, held := none, coordHeld := none } }).wf
        oBjnRoundState 63 61 0).wf oBjnRoundState 55 48 0).wf oBjnRoundState 47 32 0
    else s
  let new := ((m.filter (fun e => !keep.any (fun p => p.mac0 == e.mac0))).map (fun e => (e.mac0, e.mac1, e.site))).eraseDups
  { s with rounds := { s.rounds with map := m, nextMap := none, peers := keep ++ new.map (fun x => ({ mac0 := x.1, mac1 := x.2.1, site := x.2.2 } : Peer)) } }

/-- ROUND_MAP (R283, R284): while a round is open or a re-shard runs, the map takes effect at the next close or with the new layout
(R234). -/
def execRoundMap (tag : BitVec 32) (s : State) : Out :=
  withCmd s tag 0x0801 fun s t =>
    let b := t.payload
    let m := (chunks 32 (b.length / 32) b).map mkRMap
    match s.job.prog with
    | none => s.done t 0x000A
    | some p =>
      if p.round.isNone then s.done t 0x000A
      else match s.reshard, s.job.staged with
      | some _, some q =>
        if b.length % 32 ≠ 0 ∨ !(s.rmapOk q b) then s.done t 0x0301
        else ({ s with rounds := { s.rounds with layoutMap := some m } }).done t 0
      | _, _ =>
        if b.length % 32 ≠ 0 ∨ !(s.rmapOk p b) then s.done t 0x0301
        else if !s.rounds.applied ∧ !(s.rounds.stuck && s.rounds.newCfg) then ({ s with rounds := { s.rounds with nextMap := some m } }).done t 0
        else (s.installMap m).done t 0

/-- ROUND_CHAN (R305, R306): admits a channel, which starts in PROBE with its capacity at RATE, or retires one. Fields out of range
complete with PAYLOAD, and a channel in use is BUSY (assumption 36). -/
def execRoundChan (tag : BitVec 32) (s : State) : Out :=
  withCmd s tag 0x0802 fun s t =>
    let f := fun o n => rd o n t.payload
    let n := f 0 1
    let used := (List.range 32).filter (fun k => s.chanState k != 0)
    if 32 ≤ n ∨ 1 < f 6 1 ∨ f 7 1 ≠ 0 then s.done t 3
    else if f 6 1 = 0 then
      (if s.chanState n = 2 then (s.setChanState n 3).drainCheck n else if s.chanState n = 1 then s.setChanState n 0 else s).done t 0
    else if 1 < f 1 1 ∨ f 2 2 = 0 ∨ 4094 < f 2 2 ∨ 7 < f 4 1 ∨ 15 < f 5 1 ∨ f 8 4 = 0 ∨ 400000 < f 8 4 then s.done t 3
    else if s.chanState n ≠ 0 then s.done t 5
    else if used.any (fun k => (s.chan k).port == f 1 1 && (s.chan k).vid == f 2 2) then s.done t 0x0303
    else if 400000 < f 8 4 + (used.filter (fun k => (s.chan k).port == f 1 1)).foldl (fun (a : Nat) k => a + (s.chan k).rate) 0 then s.done t 0x0302
    else
      let c : Chan := { port := f 1 1, vid := f 2 2, pcp := f 4 1, site := f 5 1, rate := f 8 4, cap := f 8 4 * 1000 }
      (((((s.setChan n c).wf (oChan n) 60 57 (f 5 1)).wf (oChan n) 31 0 0).capReg n).setChanState n 1).done t 0

/-- Send a control payload to a site: to this device's first range-map peer there. -/
def State.toSite (s : State) (site typ : Nat) (b : Bytes) : State :=
  match s.rounds.map.find? (fun e => e.site == site) with
  | some e => s.bjnSend e.mac0 typ b
  | none => s

/-! ### KEY_LINE -/

/-- KEY_LINE (R345 to R348): the record must agree with the command and the range map, its epoch follows the last one of
its direction, and no grace window may run (R319). Frames that waited for the key are sent. -/
def execKeyLine (tag : BitVec 32) (s : State) : Out :=
  withCmd s tag 0x0402 fun s t =>
    let dir := rd 0 1 t.payload
    let epoch := rd 1 1 t.payload
    let site := rd 2 1 t.payload
    if s.latched then s.done t 9
    else match s.keys.owner with
    | none => s.done t 0x0403
    | some kek =>
      match unwrap kek (slice 8 56 t.payload) with
      | none => s.done t 0x0404
      | some r =>
        let mac := rd 36 6 r
        match s.peer? mac with
        | none => s.done t 0x0405
        | some p =>
          if r.length ≠ 48 ∨ rd 32 1 r ≠ dir ∨ (dir ≠ 1 ∧ dir ≠ 2) ∨ rd 33 1 r ≠ epoch ∨ rd 34 1 r ≠ site ∨ p.site ≠ site ∨
              rd 35 1 r ≠ 0 ∨ rd 42 6 r ≠ 0 ∨ !allZero (slice 3 5 t.payload) then s.done t 0x0405
          else
            let last := if dir = 1 then p.tx else p.rx
            let key : LineKey := { key := r.take 32, epoch := epoch }
            if (match last with | some k => decide (epoch ≠ (k.epoch + 1) % 256) | none => false) then s.done t 0x0407
            else if (dir = 1 ∧ p.txWait) ∨ (dir = 2 ∧ p.prev.isSome) then s.done t 5
            else if p.tx.isNone ∧ p.rx.isNone ∧
                64 ≤ (s.rounds.peers.filter (fun q => q.tx.isSome || q.rx.isSome)).length then s.done t 0x0406
            else
              let q := if dir = 1 then { p with tx := some key, txWait := true, txUsed := 0, counters := [] }
                       else { p with rx := some key, prev := p.rx, grace := false }
              ((((s.setPeer q).keyRec 1 dir epoch site (mac % 2 ^ 32) 0).resendDue mac).pump mac false).done t 0

/-! ### Receiving (R286, R287, R316 to R318) -/

/-- The peer that a frame's source address names. -/
def State.peerOf (s : State) (f : BjnFrame) : Option Peer := s.rounds.peers.find? (fun p => p.mac0 == f.srcMac.toNat || p.mac1 == f.srcMac.toNat)

/-- Mark a SEQ as received and advance CUM. -/
def Peer.mark (p : Peer) (seq : Word) : Peer :=
  if seq < p.cum ∨ p.got.contains seq then p
  else
    let got := seq :: p.got
    let cum := (List.range (got.length + 1)).foldl (fun (c : Word) _ => if got.contains c then c + 1 else c) p.cum
    { p with cum := cum, got := got.filter (fun x => decide (cum ≤ x)) }

/-- The BACK payload: CUM and the map of 256 (R304). -/
def Peer.backBytes (p : Peer) : Bytes :=
  le 8 p.cum.toNat ++ (List.range 32).map (fun i => BitVec.ofNat 8
    ((List.range 8).foldl (fun (a : Nat) j => a + (if p.got.contains (p.cum + BitVec.ofNat 64 (8 * i + j)) then 2 ^ j else 0)) 0))

/-- Send a frame that is not acknowledged: on a LIVE channel, or a DRAIN one for a BACK (R306). -/
def State.sendPlain (s : State) (mac typ : Nat) (plain : Bytes) : State :=
  match s.peer? mac with
  | none => s
  | some p =>
    if !s.canSeal p then s
    else match (s.pickChan [2] p.site (plain.length + 70)).orElse (fun _ => if typ = 3 then s.pickChan [3] p.site (plain.length + 70) else none) with
    | some c => s.sendNext mac c typ 0 1 0 plain
    | none => s

/-- Send a BACK; while frames of a group are still missing, or where none can be sent now, another is owed (R304, R320). -/
def State.sendBack (s : State) (mac : Nat) : State :=
  match s.peer? mac with
  | none => s
  | some p =>
    let n := p.backBytes.length + 70
    let goes := s.canSeal p && ((s.pickChan [2] p.site n).orElse (fun _ => s.pickChan [3] p.site n)).isSome
    (s.setPeer { p with owesBack := !goes || !p.kept.isEmpty }).sendPlain mac 3 p.backBytes

/-- Report SEQs dropped under an erased epoch, once a frame can go to the peer, in frames of at most 16,384 bytes (R318, R320). Fuel is the number of
frames. -/
def State.goneGo (s : State) (mac : Nat) : Nat → State
  | 0 => s
  | f + 1 =>
    match s.peer? mac with
    | none => s
    | some p =>
      let l := p.gone.take (maxPayload / 8)
      if l.isEmpty ∨ !s.canSeal p ∨ (s.pickChan [2] p.site (8 * l.length + 70)).isNone then s
      else
        let k := match p.rx with | some k => k.epoch | none => 0
        (((s.setPeer { p with gone := p.gone.drop l.length }).sendPlain mac 0x0D (le64s l)).keyRec 5 2 k p.site (p.mac0 % 2 ^ 32) l.length).goneGo mac f

/-- `goneGo` with enough fuel. -/
def State.sendGone (s : State) (mac : Nat) : State :=
  s.goneGo mac (match s.peer? mac with | some p => p.gone.length / (maxPayload / 8) + 1 | none => 0)

/-- Open an arriving frame of a type (R286, R287, R316, R317, R320): the state, and the peer with the plaintext, when it authenticates and
fits its header. A frame without exactly one C-tag, with another EtherType, or from no peer of the range map is discarded. -/
def State.openFrame (s : State) (f : BjnFrame) (typ : Nat) : State × Option (Peer × Bytes) :=
  let b := f.bytes
  if f.ctags ≠ 1 ∨ f.stag ∨ f.ether.toNat ≠ s.rf oBjnCtl 63 48 ∨ s.rf (oBjnPort f.port) 63 62 ≠ 2 ∨ rd 0 1 b ≠ typ ∨ s.noEntropy ∨ s.latched then
    (s, none)
  else match s.peerOf f with
  | none => (s, none)
  | some p =>
    let len := rd 4 2 b
    if maxPayload < len ∨ b.length < len + 48 then (s.satAdd (oCiph f.port) 31 16 1, none)
    else
      let key := [p.rx, p.prev].findSome? (fun k => k.bind (fun x => if x.epoch = rd 1 1 b then some x else none))
      match key with
      | none =>
        let t := s.satAdd (oCiph f.port) 15 0 1
        let erased : Bool := match p.rx with | some k => decide (1 ≤ (k.epoch + 256 - rd 1 1 b) % 256) && decide ((k.epoch + 256 - rd 1 1 b) % 256 < 128) | none => false
        let seq : Word := BitVec.ofNat 64 (rd 8 8 b)
        if erased then
          ((t.setPeer { p with gone := p.gone.filter (· != seq) ++ [seq] }).sendGone p.mac0, none)
        else (t, none)
      | some k =>
        match gcmOpen k.key (bjnIv k.epoch (rd 2 1 b) (rd 16 8 b)) (bjnAad b) (slice 32 (len + 16) b) with
        | none => (s.satAdd (oCiph f.port) 47 32 1, none)
        | some pt =>
          let q := if p.prev.isSome ∧ p.rx.any (fun x => x.epoch == k.epoch) then { p with grace := true } else p
          (s.setPeer q, some (q, pt))

/-! ### Delta segments (R289, R290, R301) -/

/-- The parameter ranges of the runs of a byte string: first and count. Fuel bounds their number. -/
def runHeads : Nat → Bytes → List (Nat × Nat)
  | 0, _ => []
  | f + 1, b => if b.isEmpty then [] else (rd 0 6 b, rd 8 4 b) :: runHeads f (b.drop (runLen b))

/-- Whether ranges cover every number from a place to an end. Fuel is their number. -/
def coverTo (l : List (Nat × Nat)) : Nat → Nat → Nat → Bool
  | 0, a, e => decide (e ≤ a)
  | f + 1, a, e => decide (e ≤ a) || (match l.find? (fun x => decide (x.1 ≤ a) && decide (a < x.1 + x.2)) with
    | some x => coverTo l f (x.1 + x.2) e
    | none => false)

/-- Whether ranges cover every owned shard of the device. -/
def State.coversOwned (s : State) (l : List (Nat × Nat)) : Bool :=
  match s.job.prog with
  | some p => (s.ownedShards p).all (fun o => coverTo l l.length o.2.2.1 (o.2.2.1 + o.2.2.2))
  | none => false

/-- Whether a site's delta of a round is complete here: the runs held, each of which has passed its check, cover the ranges that the device owns
(R290). -/
def State.holdsDelta (s : State) (site : Nat) (round : Word) : Bool :=
  s.coversOwned ((s.rounds.deltaBytes (site == s.site) site round).flatMap (fun b => runHeads (b.length / 20 + 1) b))

/-- Whether a sealed manifest of an open round lists a delta (R301). -/
def State.listed (s : State) (site : Nat) (round : Word) : Bool :=
  !s.rounds.applied && (match s.rounds.sealed_ with | some m => m.entries.any (fun e => e.1 == site && e.2.2 == round) | none => false)

/-- Discard the oldest received deltas that no sealed manifest of an open round lists until n bytes fit in the store (R301); one whose
archive copy waits stays (R329). Fuel is the number of deltas. -/
def State.makeStore (s : State) (n : Nat) : Nat → State
  | 0 => s
  | f + 1 =>
    if s.rounds.storeUsed + n ≤ s.storeBytes then s
    else
      let waits := fun (d : RxDelta) => s.rounds.archWait.any (fun m => m.entries.any (fun e => e.1 == d.site && e.2.2 == d.round))
      let can := s.rounds.rx.filter (fun d => !s.listed d.site d.round && !waits d)
      match can.foldl (fun (m : Option RxDelta) d => match m with | some x => if d.round < x.round then some d else m | none => some d) none with
      | none => s
      | some d => (({ s with rounds := { s.rounds with rx := s.rounds.rx.erase d } }).storeReg).makeStore n f

/-- Bytes of a map from an offset. -/
def putData (m : SMap Byte) (off : Nat) (b : Bytes) : SMap Byte := b.zipIdx.foldl (fun a x => SMap.set a (off + x.2) x.1) m

/-- The byte ranges of the damaged runs of a whole stream: where the length of a run cannot be, the rest of the stream is damaged. Fuel
bounds the number of runs. -/
def badRuns (total : Nat) : Nat → Nat → Bytes → List (Nat × Nat)
  | 0, _, _ => []
  | f + 1, off, b =>
    if b.isEmpty then []
    else if b.length < runLen b then [(off, total - off)]
    else
      let rest := badRuns total f (off + runLen b) (b.drop (runLen b))
      if (readRun b).isSome then rest else (off, runLen b) :: rest

/-- A REQ payload (assumption 37): round, offset, length. -/
def reqBytes (round : Word) (off n : Nat) : Bytes := le 8 round.toNat ++ le 8 off ++ le 8 n

/-- STORE_FULL: a round stream does not fit, and the device takes in no more of that round (R301). -/
def State.storeFull (s : State) (round : Word) (n : Nat) : State :=
  ({ s with rounds := { s.rounds with full := s.rounds.full ++ [round] } }).roundRec round.toNat 5 n

/-- Ask the peers of other sites for the listed deltas that are missing from the store, whole (R304). A round of which the device takes in no more
is not asked for. -/
def State.askMissing (s : State) (m : Manifest) : State :=
  m.entries.foldl (fun t e =>
    if e.1 = t.site ∨ t.rounds.full.contains e.2.2 ∨ t.holdsDelta e.1 e.2.2 then t
    else (t.rounds.peers.filter (fun p => p.site == e.1)).foldl (fun u p =>
      if u.rounds.rx.any (fun d => d.mac == p.mac0 && d.round == e.2.2 && d.complete) then u
      else u.bjnSend p.mac0 4 (reqBytes e.2.2 0 (2 ^ 64 - 1))) t) s

/-- A segment is placed by round and offset; once the stream is whole every run is checked, and what is damaged counts as not received and
is asked for again (R141, R290, R304). -/
def State.placeSeg (s : State) (p : Peer) (pt : Bytes) : State :=
  let round := BitVec.ofNat 64 (rd 0 8 pt)
  let off := rd 8 8 pt
  let total := rd 16 8 pt
  let seg := pt.drop 24
  if pt.length < 24 ∨ total < off + seg.length then s
  else
    let same := fun (d : RxDelta) => d.site == p.site && d.round == round && d.mac == p.mac0
    let old := s.rounds.rx.find? same
    if s.rounds.full.contains round then s
    else
    let s := if old.isSome then s else s.makeStore total (s.rounds.rx.length + 1)
    if old.isNone ∧ s.storeBytes < s.rounds.storeUsed + total then s.storeFull round total
    else
      let d := old.getD { site := p.site, round := round, mac := p.mac0, total := total, data := [], complete := false }
      if d.complete ∨ d.total ≠ total then s
      else
        let d := { d with data := putData d.data off seg }
        let bad := if d.data.length = total then badRuns total (total / 20 + 1) 0 d.bytes else []
        let data := d.data.filter (fun x => !bad.any (fun r => decide (r.1 ≤ x.1) && decide (x.1 < r.1 + r.2)))
        let d := { d with data := data, complete := decide (d.data.length = total) && bad.isEmpty }
        let t := ({ s with rounds := { s.rounds with rx := s.rounds.rx.filter (fun x => !same x) ++ [d] } }).storeReg
        bad.foldl (fun u r =>
          let u := (u.post (srcBjn 0) 0x0101 (le 1 0x0B ++ zeros 1 ++ le 2 0xFFFF ++ le 2 0 ++ le 2 u.tagNow ++ le 4 0 ++ zeros 4 ++ le 8 r.1)).raise 7
          u.bjnSend p.mac0 4 (reqBytes round r.1 r.2)) t

/-- A data or parity frame that opens for the first time joins its group; any GK of the group rebuild what is missing, and the whole
group then counts as received (R303, R304). -/
def State.joinGroup (s : State) (p : Peer) (b pt : Bytes) : State :=
  let seq := BitVec.ofNat 64 (rd 8 8 b)
  if seq < p.cum ∨ p.got.contains seq then s.setPeer { p with owesBack := true }
  else
    let gidx := rd 24 1 b
    let gk := rd 25 1 b
    let gm := rd 26 1 b
    let base := seq - BitVec.ofNat 64 gidx
    let mine := fun (x : Kept) => x.seq - BitVec.ofNat 64 x.gidx == base
    let k : Kept := { seq := seq, typ := rd 0 1 b, gidx := gidx, gk := gk, gm := gm, plain := pt }
    let kept := p.kept ++ [k]
    let q := { (p.mark seq) with kept := kept, owesBack := true }
    let here := kept.filter mine
    let s1 := s.setPeer q
    let s1 := if k.typ = 1 then s1.placeSeg q pt else s1
    if here.length < gk then s1
    else
      let new := ecRebuild gk (here.map (fun x => (x.gidx, x.plain)))
      let s2 := new.foldl (fun t x => t.placeSeg q x.2) s1
      match s2.peer? p.mac0 with
      | none => s2
      | some q =>
        let q := (List.range (gk + gm)).foldl (fun (r : Peer) i => r.mark (base + BitVec.ofNat 64 i)) { q with kept := q.kept.filter (fun x => !mine x) }
        (s2.setPeer q).sendBack p.mac0

/-- DRUN (R289, R290, R303): a data frame of a round stream. -/
def execDrun (f : BjnFrame) (s : State) : Out :=
  match s.openFrame f 1 with
  | (t, none) => go t
  | (t, some (p, pt)) => go (t.joinGroup p f.bytes pt)

/-- PARITY (R303): a parity frame of a group. -/
def execParity (f : BjnFrame) (s : State) : Out :=
  match s.openFrame f 2 with
  | (t, none) => go t
  | (t, some (p, pt)) => go (t.joinGroup p f.bytes pt)

/-- A control frame that is acknowledged: taken once, and a BACK is owed at once, its group being whole (R288, R304). -/
def State.takeSingle (s : State) (f : BjnFrame) (typ : Nat) : State × Option (Peer × Bytes) :=
  match s.openFrame f typ with
  | (t, none) => (t, none)
  | (t, some (p, pt)) =>
    let seq := BitVec.ofNat 64 (rd 8 8 f.bytes)
    let first := !(decide (seq < p.cum) || p.got.contains seq)
    let t := (t.setPeer { (p.mark seq) with owesBack := true }).sendBack p.mac0
    (t, if first then some (p, pt) else none)

/-! ### Acknowledgement (R304) -/

/-- The missing frames of a sent frame's group, lowest GIDX first. -/
def Peer.missing (p : Peer) (x : Sent) : List Sent :=
  (p.sent.filter (fun y => y.seq - BitVec.ofNat 64 y.gidx == x.seq - BitVec.ofNat 64 x.gidx)).insertionSort (fun a b => a.gidx ≤ b.gidx)

/-- BACK (R304, R306): what it acknowledges leaves the store, and a group of which GK frames are in is whole. -/
def execBack (f : BjnFrame) (s : State) : Out :=
  match s.openFrame f 3 with
  | (t, none) => go t
  | (t, some (p, pt)) =>
    let p := p.mark (BitVec.ofNat 64 (rd 8 8 f.bytes))
    let cum := rd 0 8 pt
    let map := rd 8 32 pt
    let acked := fun (x : Sent) => decide (x.seq.toNat < cum) || (decide (x.seq.toNat < cum + 256) && bit (x.seq.toNat - cum) map)
    let q := { p with sent := p.sent.filter (fun x => !acked x) }
    let q := { q with sent := q.sent.filter (fun x => decide (x.gm < (q.missing x).length)) }
    let chans := (p.sent.flatMap (·.via)).eraseDups
    go (chans.foldl State.drainCheck (t.setPeer q))

/-- BACK_TIMER (R304): every 0.5 ms while anything remains unacknowledged. -/
def execBackTimer (peer : BitVec 48) (s : State) : Out :=
  match s.peer? peer.toNat with
  | some p => go (if p.owesBack then s.sendBack p.mac0 else s)
  | none => go s

/-- BORJAN_RESEND (R304): a missing frame that its group still needs is sent again; not in replay mode (R332). -/
def execBorjanResend (peer : BitVec 48) (seq : Word) (s : State) : Out :=
  match s.peer? peer.toNat with
  | none => go s
  | some p =>
    match p.sent.find? (fun x => x.seq == seq) with
    | none => go s
    | some x =>
      let miss := p.missing x
      if s.replay.on ∨ s.noEntropy ∨ !((miss.take (miss.length - x.gm)).any (fun y => y.seq == seq)) then go s else go (s.resend p.mac0 x)

/-- Payload segments of a byte range of a round stream (R289). Fuel is the number of segments. -/
def segments (seg : Nat) (round : Word) (total : Nat) : Nat → Nat → Bytes → List Bytes
  | 0, _, _ => []
  | f + 1, off, b =>
    if b.isEmpty then []
    else (le 8 round.toNat ++ le 8 off ++ le 8 total ++ b.take seg) :: segments seg round total f (off + seg) (b.drop seg)

/-- Queue the segments of a range of a round stream as new DRUN frames (R289, R304). -/
def State.sendRange (s : State) (x : OwnStream) (off n : Nat) : State :=
  let seg := s.rf oBjnCtl 46 32 - 24
  match s.peer? x.mac with
  | none => s
  | some p =>
    if s.replay.on then s
    else (s.setPeer { p with waiting := p.waiting ++ (segments seg x.round x.data.length (n / seg + 1) off ((x.data.drop off).take n)).map (fun b => (1, b)) }).pump x.mac false

/-- REQ (R304): the range is rebuilt from the retained round stream. -/
def execReq (f : BjnFrame) (s : State) : Out :=
  match s.takeSingle f 4 with
  | (t, none) => go t
  | (t, some (p, pt)) =>
    match t.rounds.store.find? (fun x => x.mac == p.mac0 && x.round.toNat == rd 0 8 pt) with
    | none => go t
    | some x => go (t.sendRange x (rd 8 8 pt) (min (rd 16 8 pt) (x.data.length - rd 8 8 pt)))

/-- GROUP_CLOSE_SHORT (R303): the queue has been idle for 1 ms. -/
def execGroupCloseShort (peer : BitVec 48) (s : State) : Out := go (s.pump peer.toNat true)

/-- EPOCH_GONE (R318): each frame that a peer dropped under an erased epoch is sealed as a new frame with the same SEQ and GIDX, under
the current key, with FLAGS.REENC. -/
def execEpochGone (f : BjnFrame) (s : State) : Out :=
  match s.openFrame f 0x0D with
  | (t, none) => go t
  | (t, some (p, pt)) =>
    let t := t.setPeer (p.mark (BitVec.ofNat 64 (rd 8 8 f.bytes)))
    go ((elemsLE 8 pt).foldl (fun u n =>
      match u.peer? p.mac0 with
      | none => u
      | some q =>
        match q.sent.find? (fun x => x.seq.toNat == n) with
        | none => u
        | some x =>
          if !u.canSeal q ∨ x.bytes.isEmpty ∨ q.tx.any (fun k => k.epoch == rd 1 1 x.bytes) then u
          else match u.pickChan [2] q.site (x.bytes.length + 22) with
          | none => u
          | some c => u.sealFrame q c x.typ x.gidx x.gk x.gm 4 x.seq x.plain) t)

/-! ### Time transfer and the life of channels (R306, R307, R310, R311) -/

/-- The device that a channel's TT frames go to: the first range-map entry for its site (R306). -/
def State.ttPeer (s : State) (n : Nat) : Option Nat := (s.rounds.map.find? (fun e => e.site == s.chanSite n)).map (·.mac0)

/-- TT_SEND (R306, R310): the frame's index, the transmit time of the one before, the last index received and when; the four fields
have 8 bytes each (assumption 37). -/
def execTtSend (chan : ChanNo) (txTime : Word) (s : State) : Out :=
  let n := chan.val
  let c := s.chan n
  match (s.ttPeer n).bind s.peer? with
  | none => go s
  | some p =>
    if s.chanState n = 0 ∨ !s.canSeal p ∨ s.rf (oBjnPort c.port) 63 62 ≠ 2 then go s
    else
      let i := c.txIdx + 1
      let pl := le 8 i ++ le 8 c.txPrev.toNat ++ le 8 c.rxIdx ++ le 8 c.rxTime.toNat
      go ((s.setChan n { c with txIdx := i, txPrev := txTime, pend := c.pend ++ [(i, txTime)] }).sendNext p.mac0 n 0x0B 0 1 0 pl)

/-- A TT frame received on a channel: it completes the exchange that the frame before it opened, and opens one of its own (R310, R311). -/
def Chan.takeTt (c : Chan) (pt : Bytes) (rxTime : Word) : Chan :=
  let j := rd 0 8 pt
  let i := rd 16 8 pt
  let w := fun (o : Nat) => BitVec.ofNat 64 (rd o 8 pt)
  let c := match c.half with
    | some (k, t1, t2, t4) =>
      if k + 1 ≠ j then { c with good := 0 }
      else
        let t3 := w 8
        let rtt := (t4 - t1 - (t3 - t2)).toInt
        let d := (t2 - t1 - (t4 - t3)).toInt
        { c with good := if (rxTime - t1).toNat ≤ 100000000 then c.good + 1 else 0
                 best := match c.best with
                   | some b => if b.1 ≤ rtt then some b else some (rtt, d)
                   | none => some (rtt, d) }
    | none => c
  let half := match c.pend.find? (fun x => x.1 == i) with
    | some x => some (j, x.2, w 24, rxTime)
    | none => none
  { c with half := half, pend := c.pend.filter (fun x => decide (i < x.1)), rxIdx := j, rxTime := rxTime }

/-- TT (R306, R310): a time-transfer frame arrives with its receive time; eight exchanges in a row make a PROBE channel LIVE. -/
def execTt (f : BjnFrame) (chan : ChanNo) (rxTime : Word) (s : State) : Out :=
  match s.openFrame f 0x0B with
  | (t, none) => go t
  | (t, some (p, pt)) =>
    let n := chan.val
    let t := t.setPeer (p.mark (BitVec.ofNat 64 (rd 8 8 f.bytes)))
    if t.chanState n = 0 ∨ t.ttPeer n ≠ some p.mac0 ∨ pt.length ≠ 32 then go t
    else
      let c := (t.chan n).takeTt pt rxTime
      let t := t.setChan n c
      go (if t.chanState n = 1 ∧ 8 ≤ c.good then t.setChanState n 2 else t)

/-- Every unacknowledged frame that a channel sent becomes due and goes out on the other LIVE channels (R306). -/
def State.moveFrames (s : State) (n : Nat) : State :=
  s.rounds.peers.foldl (fun t p =>
    match t.peer? p.mac0 with
    | none => t
    | some q => (t.setPeer { q with sent := q.sent.map (fun x => if x.chan == n then { x with due := true } else x) }).resendDue q.mac0) s

/-- CHANNEL_LOST (R306): the channel carries nothing and moves to PROBE at once; a DRAIN channel, which is retired, hands its frames over and becomes OFF
once nothing that it sent remains unacknowledged (assumption 64). -/
def execChannelLost (chan : ChanNo) (s : State) : Out :=
  let n := chan.val
  if s.chanState n = 0 then go s
  else
    let c := s.chan n
    let t := s.setChan n { c with good := 0, half := none, pend := [], best := none }
    if s.chanState n = 3 then go ((t.moveFrames n).drainCheck n) else go ((t.setChanState n 1).moveFrames n)

/-- DRAIN_TIMEOUT (R306): a DRAIN channel without an acknowledgement hands its frames to the other channels. -/
def execDrainTimeout (chan : ChanNo) (s : State) : Out :=
  if s.chanState chan ≠ 3 then go s else go ((s.moveFrames chan).drainCheck chan)

/-- CAPACITY_WINDOW (R307): the end of a 100 ms window; fractions of a kb/s are dropped (assumption 33). -/
def execCapacityWindow (chan : ChanNo) (s : State) : Out :=
  let n := chan.val
  if s.chanState n = 0 then go s
  else
    let c := s.chan n
    let rate := c.rate * 1000
    let cap := if c.frames < 100 * c.resent then max (c.cap * 3 / 4) (rate / 100) else min (c.cap + rate / 20) rate
    go ((s.setChan n { c with cap := cap, frames := 0, resent := 0 }).capReg n)

/-- BORJAN_PORT_LINK_CHANGE (R286, R321): while the alarm is latched the ports stay down (R353). -/
def execBorjanPortLinkChange (port : Fin 2) (up : Bool) (s : State) : Out :=
  if up ∧ s.latched then go s
  else
    let t := (s.wf (oBjnPort port) 63 62 (if up then 2 else 0)).linkRec (srcBjn port) 1 port (if up then 2 else 1) 0 0
    go (if up then t.rounds.peers.foldl (fun u p => (u.resendDue p.mac0).pump p.mac0 false) t else t)

end Sys2Proof.Machine
end

