-- ==== Sys2Proof/Machine/Outer.lean ====
section
/-!
DEFINITION. Outer rounds at the device: the close with its delta runs and residuals (R197, R199, R279, R285), what a sealed manifest
leaves behind (R300, R301), archive and import of partner deltas (R328, R329, R332), and the cold tier's write-back (R202, R203).
-/

namespace Sys2Proof.Machine

/-! ### Delta runs (R138, R140, R197, R285) -/

/-- x of R197 for one element. -/
def deltaX (w a r : BitVec 32) : BitVec 32 :=
  let x := f32 (((dy32 w).sub (dy32 a)).add (dy32 r))
  if fin32 x then x else Config.deltaBeyond w a r

/-- Quantise consecutive values in blocks of 32: blocks, residuals, saturation. Fuel is the number of blocks. -/
def quantise : Nat → List (BitVec 32) → Bytes × List (BitVec 32) × Bool
  | 0, _ => ([], [], false)
  | f + 1, xs =>
    if xs.isEmpty then ([], [], false)
    else
      let b := encodeDelta (xs.take 32)
      let r := quantise f (xs.drop 32)
      (b.bytes ++ r.1, b.resid ++ r.2.1, b.sat || r.2.2)

/-- What a run of a close gives: its first parameter, its bytes, its residuals, saturation. -/
structure RunOut where
  first : Nat
  bytes : Bytes
  resid : List (BitVec 32)
  sat : Bool
  deriving DecidableEq, Repr

/-- One run over parameters of a held entry as they stand at a commit. -/
def State.oneRun (s : State) (p : Prog) (step i pos n : Nat) : Except MemErr RunOut :=
  match s.home p i step with
  | none => .ok { first := 0, bytes := [], resid := [], sat := false }
  | some h => do
    let w ← s.elems p h i step 0 pos n
    let a ← s.elems p h i step 2 pos n
    let r ← s.elems p h i step 4 pos n
    let q := quantise (n / 32 + 1) ((w.zip (a.zip r)).map (fun x => deltaX x.1 x.2.1 x.2.2))
    .ok { first := h.e.first + pos, bytes := deltaRun (h.e.first + pos) n q.1, resid := q.2.1, sat := q.2.2 }

/-- The runs over a range of one entry: a new one after every 16,777,216 parameters. Fuel is their number. -/
def State.runsOf (s : State) (p : Prog) (step i : Nat) : Nat → Nat → Nat → Except MemErr (List RunOut)
  | 0, _, _ => .ok []
  | f + 1, pos, n =>
    if n = 0 then .ok []
    else do
      let r ← s.oneRun p step i pos (min n 16777216)
      let rest ← s.runsOf p step i f (pos + min n 16777216) (n - min n 16777216)
      .ok (r :: rest)

/-- Maximal runs of consecutive numbers: start and length. -/
def segs : List Nat → List (Nat × Nat)
  | [] => []
  | k :: ks =>
    match segs ks with
    | (a, n) :: rest => if a = k + 1 then (k, n + 1) :: rest else (k, 1) :: (a, n) :: rest
    | [] => [(k, 1)]

/-- The owned slices of the held entries in ascending parameter order: entry, position, parameters. -/
def State.ownedSlices (s : State) (p : Prog) : List (Nat × Nat × Nat) :=
  let own := s.ownedShards p
  ((s.held p).zipIdx.flatMap (fun x =>
    (segs ((List.range x.1.shards).filter (fun k => own.any (fun o => o.1 == x.2 && o.2.1 == k)))).map (fun g =>
      (x.1.first, x.2, 65536 * g.1, min (65536 * g.2) (x.1.count - 65536 * g.1))))).insertionSort (fun a b => a.1 + a.2.2.1 ≤ b.1 + b.2.2.1)
  |>.map (fun x => x.2)

/-- The device's delta runs of a round over its owned slices (R197, R326). -/
def State.closeRuns (s : State) (p : Prog) (step : Nat) : Except MemErr (List (Nat × Nat × List RunOut)) :=
  (s.ownedSlices p).mapM (fun x => do
    let r ← s.runsOf p step x.1 (x.2.2 / 16777216 + 1) x.2.1 x.2.2
    .ok (x.1, x.2.1, r))

/-- DELTA_HASH of the step record of a commit that closes a round (R326): SHA3-256 over the device's runs, ascending; empty where an element
cannot be read. -/
def State.deltaHash (s : State) (p : Prog) (step : Nat) : Bytes :=
  match s.closeRuns p step with
  | .ok l => sha3 (l.flatMap (fun x => x.2.2.flatMap (·.bytes)))
  | .error _ => []

/-- The round stream of each peer of the range map (R285); a device without partners keeps its runs as a stream of its own. -/
def State.roundStreams (s : State) (p : Prog) (step : Nat) (own : List (Nat × Nat × List RunOut)) : Except MemErr (List (Nat × Bytes)) :=
  if s.rounds.map.isEmpty then .ok [(0, own.flatMap (fun x => x.2.2.flatMap (·.bytes)))]
  else
    ((s.rounds.map.map (·.mac0)).eraseDups).mapM (fun mac => do
      let parts ← (s.rounds.map.filter (fun e => e.mac0 == mac)).mapM (fun e =>
        match (s.held p).zipIdx.find? (fun x => decide (x.1.first ≤ e.first) && decide (e.first < x.1.first + x.1.count)) with
        | none => .ok []
        | some (x, i) => s.runsOf p step i (e.count / 16777216 + 1) (e.first - x.first) e.count)
      .ok (mac, parts.flatMap (fun r => r.flatMap (·.bytes))))

/-! ### The close (R197, R279) -/

/-- The sites in the rotation of the open round, ascending: the last sealed manifest's members, or MEMBERS for round 1 (R292). -/
def State.rotation (s : State) : List Nat :=
  let m := match s.rounds.last, s.cfg? with | some x, _ => x.members | none, some c => c.members | none, none => 0
  (List.range 16).filter (fun k => bit k m)

/-- The site that attempt a of round k belongs to (R292). -/
def State.leadOf (s : State) (k a : Nat) : Nat :=
  let r := s.rotation
  r.getD ((k + a) % max 1 r.length) 0

/-- BJN_ROUND_STATE.STATE: 0 idle, 1 exchanging, 2 acknowledged, 3 sealed, 4 holding at APPLY_MAX, 5 dropped, 6 stuck. -/
def State.roundState (s : State) (v : Nat) : State := s.wf oBjnRoundState 63 61 v
/-- BJN_ROUND_STATE takes the lead, attempt and members of a manifest held. -/
def State.holdsManifest (s : State) (m : Manifest) : State :=
  ((s.wf oBjnRoundState 60 56 m.lead).wf oBjnRoundState 55 48 m.attempt).wf oBjnRoundState 47 32 m.members

/-- A manifest's payload (R293). -/
def Manifest.bytes (m : Manifest) : Bytes :=
  le 8 m.round.toNat ++ le 8 m.step.toNat ++ le 1 m.lead ++ le 1 m.attempt ++ le 2 m.members ++ le 1 m.entries.length ++ zeros 11 ++ fit 32 m.cfg ++
    m.entries.flatMap (fun e => le 1 e.1 ++ zeros 3 ++ le 4 e.2.1.toNat ++ le 8 e.2.2.toNat)

/-- A manifest from its payload (R293). -/
def mkManifest (b : Bytes) : Manifest :=
  { round := BitVec.ofNat 64 (rd 0 8 b), step := BitVec.ofNat 64 (rd 8 8 b), lead := rd 16 1 b, attempt := rd 17 1 b, members := rd 18 2 b,
    cfg := slice 32 32 b,
    entries := (List.range (rd 20 1 b)).map (fun i =>
      (rd (64 + 16 * i) 1 b, BitVec.ofNat 32 (rd (68 + 16 * i) 4 b), BitVec.ofNat 64 (rd (72 + 16 * i) 8 b))) }

/-- A sealed manifest takes effect at this device: it is recorded with the hashes of the deltas it lists (R297, R328), what is missing of those is
asked for (R304), and a device whose site is not a member finds itself dropped (R299). -/
def State.sealWith (s : State) (m : Manifest) (hashes : List Bytes) : State :=
  let t := { s with rounds := { s.rounds with sealed_ := some m, held := some m, attempt := m.attempt } }
  let t := (t.roundState 3).holdsManifest m
  let t := t.roundRec m.round.toNat 2 m.step.toNat
  let t := (t.decision m.step.toNat 5 (m.bytes ++ hashes.flatten)).askMissing m
  if bit s.site m.members then t
  else (({ t with rounds := { t.rounds with dropped := true } }).roundState 5).roundRec m.round.toNat 4 m.step.toNat

/-- A JOIN request for a site that waits goes to the lead of the round that opens (R302). -/
def State.passJoins (s : State) : State :=
  if !s.rounds.coord then s
  else
    let lead := s.rf oBjnRoundState 60 56
    if lead = s.site then s
    else ((List.range 16).filter (fun z => bit z s.rounds.joinReqs)).foldl (fun t z => t.toSite lead 0x0C (le 1 0 ++ le 1 z ++ zeros 6)) s

/-- A round opens: nothing of it is held, and in replay mode its manifest is the logged one (R332). -/
def State.openRound (s : State) (k : Nat) : State :=
  let t := { s with rounds := { s.rounds with open_ := some (BitVec.ofNat 64 k), held := none, coordHeld := none, attempt := 0, sealed_ := none,
                                              applied := false, issued := none, accepts := [], querying := false, replies := [] } }
  let t := (t.ww oBjnRound (BitVec.ofNat 64 k)).roundState 1
  let t := (((t.wf oBjnRoundState 60 56 (t.leadOf k 0)).wf oBjnRoundState 55 48 0).wf oBjnRoundState 47 32 0).passJoins
  match (if s.replay.on then s.replay.manifests.find? (fun x => x.1.round.toNat == k) else none) with
  | some x => t.sealWith x.1 x.2
  | none => t

/-- The rounds of a device whose committed state becomes that of step n, as by a restore (R197, R332). DESIGN CHOICE: every round that n has passed is
closed and applied, and the device's own streams of later rounds are gone (assumption 76). -/
def State.roundsAt (s : State) (p : Prog) (n : Nat) : State :=
  match p.round with
  | none => s
  | some c =>
    let k := n / max c.h 1
    let t := { s with rounds := { s.rounds with open_ := if k = 0 then none else some (BitVec.ofNat 64 k), held := none, coordHeld := none, attempt := 0,
                                                sealed_ := none, applied := true, issued := none, accepts := [], querying := false, replies := []
                                                store := s.rounds.store.filter (fun x => decide (x.round.toNat ≤ k)) } }
    (((t.ww oBjnRound (BitVec.ofNat 64 k)).roundState 0).wf oBjnRoundState 55 32 0).storeReg

/-- The rounds at the start of a replay (R332): a round that the committed step has passed and that a logged manifest applies later is open, with that
manifest; of one applied by then, the logged manifest is the last. -/
def State.replayRounds (s : State) (p : Prog) (ms : List (Manifest × List Bytes)) : State :=
  let n := s.committed
  match p.round with
  | none => s
  | some c =>
    let k := BitVec.ofNat 64 (n / max c.h 1)
    match ms.find? (fun m => m.1.round == k && k != 0) with
    | none => if s.rounds.open_ = some k ∨ k = 0 ∧ s.rounds.open_ = none then s else s.roundsAt p n
    | some m =>
      if s.rounds.open_ = some k ∧ !s.rounds.applied ∧ s.rounds.sealed_ = some m.1 then s
      else
        let t := s.roundsAt p n
        if m.1.step.toNat ≤ n then { t with rounds := { t.rounds with last := some m.1 } }
        else
          let before := (ms.find? (fun x => x.1.round + 1 == k)).map (·.1)
          ({ t with rounds := { t.rounds with applied := false, last := before.orElse (fun _ => t.rounds.last) } }).sealWith m.1 m.2

/-- A round stream enters the round store and goes out, or finds no room (R285, R301). -/
def State.keepStream (s : State) (k : Nat) (x : Nat × Bytes) : State :=
  if s.rounds.full.contains (BitVec.ofNat 64 k) then s
  else
  let s := s.makeStore x.2.length (s.rounds.rx.length + 1)
  if s.storeBytes < s.rounds.storeUsed + x.2.length then s.storeFull (BitVec.ofNat 64 k) x.2.length
  else
    let o : OwnStream := { round := BitVec.ofNat 64 k, mac := x.1, data := x.2 }
    ({ s with rounds := { s.rounds with store := s.rounds.store ++ [o] } }).sendRange o 0 x.2.length

/-- OUTER_CLOSE (R197, R199, R279, R285): after the flip of a step that closes a round, the owned shards' deltas are formed and quantised,
the residuals written, and the round streams kept and sent. -/
def execOuterClose (s : State) : Out :=
  match s.strg.closeDue, s.job.prog with
  | some c, some p =>
    match p.round with
    | none => go s
    | some cfg =>
      let s := match s.rounds.nextMap with | some m => s.installMap m | none => s
      match s.closeRuns p c with
      | .error e => go (s.memError srcRm 0xFF 0xFF 0 e)
      | .ok runs =>
        match s.roundStreams p c runs with
        | .error e => go (s.memError srcRm 0xFF 0xFF 0 e)
        | .ok streams =>
          let k := c / cfg.h
          let t := runs.foldl (fun t x =>
            match t.home p x.1 c with
            | some h => t.putElems p h x.1 c 4 x.2.1 (x.2.2.flatMap (·.resid))
            | none => t) s
          let sat := (runs.flatMap (fun x => x.2.2.filter (·.sat))).length
          let t := t.roundRec k 1 c
          let t := if sat = 0 then t else t.roundRec k 8 sat
          let t := (streams.foldl (fun t x => t.keepStream k x) t).openRound k
          let t := { t with strg := { t.strg with closeDue := none } }
          go ((t.wf oCommitState 6 6 0).storeReg)
  | _, _ => go s

/-! ### Write-back (R203) -/

/-- Write one row's values of a commit from the staging pool to the cold window: the state and whether all of it was written. -/
def State.writeRow (s : State) (p : Prog) (i row step : Nat) : State × Bool :=
  match s.home p i step with
  | none => (s, true)
  | some h =>
    let n := max h.e.rowLen 1
    (List.range 5).foldl (fun (a : State × Bool) arr =>
      match a.1.read32 (h.arr arr + 4 * (row * n)) n with
      | .error e => (a.1.memError h.e.src 0xFF 0xFF 0 e, false)
      | .ok vs =>
        match a.1.store (h.e.coldBase + 4 * (arr * h.e.count + row * n)) (le32s vs) with
        | (u, none) => (u, a.2)
        | (u, some e) => (u.memError h.e.src 0xFF 0xFF 0 e, false)) (s, true)

/-- WRITEBACK (R203): the staged rows' new committed values go to the cold window; a row that cannot be written stays due, and one of a commit
later than a close that is due waits for that close, which reads the older values (R192, assumption 61). -/
def execWriteback (s : State) : Out :=
  match s.job.prog with
  | none => go s
  | some p =>
    let t := s.strg.writeback.foldl (fun t x =>
      if (match t.strg.closeDue with | some c => decide (c < x.2.2) | none => false) then t
      else
        let r := t.writeRow p x.1 x.2.1 x.2.2
        if r.2 then { r.1 with strg := { r.1.strg with writeback := r.1.strg.writeback.filter (· != x) } } else r.1) s
    go (if t.strg.writeback.isEmpty then t.wf oCommitState 5 5 0 else t)

/-! ### Deltas of a site (R300, R328, R329) -/

/-- The runs of a byte string as they stand, by first parameter. Fuel bounds their number. -/
def rawRuns : Nat → Bytes → SMap Bytes
  | 0, _ => []
  | f + 1, b => if b.isEmpty then [] else SMap.set (rawRuns f (b.drop (runLen b))) (rd 0 6 b) (b.take (runLen b))

/-- A site's delta of a round over this device's ranges, in ascending parameter order (R328). -/
def State.siteDelta (s : State) (site : Nat) (round : Word) : Bytes :=
  ((s.rounds.deltaBytes (site == s.site) site round).foldl (fun (m : SMap Bytes) b => (rawRuns (b.length / 20 + 1) b).foldl (fun (a : SMap Bytes) x => SMap.set a x.1 x.2) m) []).flatMap (·.2)

/-- An archive entry (R329). -/
def State.archiveEntry (s : State) (m : Manifest) (e : Nat × BitVec 32 × Word) : Bytes :=
  let d := s.siteDelta e.1 e.2.2
  le 8 m.round.toNat ++ le 1 e.1 ++ zeros 7 ++ le 8 e.2.2.toNat ++ le 8 d.length ++ sha3 d ++ d

/-- Copy the received deltas that a manifest lists into the archive buffer; none where one does not fit (R329). -/
def State.archiveAll (s : State) (m : Manifest) : Option State :=
  match s.rounds.archive with
  | none => some s
  | some (a, n, used) =>
    let b := (m.entries.filter (fun e => e.1 != s.site)).flatMap (fun e => s.archiveEntry m e)
    if n < used + b.length then none
    else some (({ s with rounds := { s.rounds with archive := some (a, n, used + b.length) } }).hostPut (a + used) b)

/-- What an applied manifest leaves (R300): every delta of a listed site of a round at most k goes, and every delta older than
k − STALE_LIMIT, once the archive holds what it must; a full archive makes the discard wait, and later ones wait behind it (R329). -/
def State.discardDeltas (s : State) (m : Manifest) (stale : Nat) : State :=
  let wait := ({ s with rounds := { s.rounds with archWait := s.rounds.archWait ++ [m] } }).roundRec m.round.toNat 7 m.step.toNat
  if !s.rounds.archWait.isEmpty then wait
  else match s.archiveAll m with
  | none => wait
  | some t =>
    let k := m.round.toNat
    let gone := fun (site : Nat) (r : Word) => (m.entries.any (fun e => e.1 == site) && decide (r.toNat ≤ k)) || decide (r.toNat + stale < k)
    ({ t with rounds := { t.rounds with full := t.rounds.full.filter (fun r => decide (k ≤ r.toNat + stale))
                                        rx := t.rounds.rx.filter (fun d => !gone d.site d.round)
                                        store := t.rounds.store.filter (fun d => !gone s.site d.round) } }).storeReg

/-- ROUND_ARCHIVE (R329, R382): arms the buffer, or disarms it with BYTES 0; the discards that waited go on, the oldest first. -/
def execRoundArchive (tag : BitVec 32) (s : State) : Out :=
  withCmd s tag 0x0804 fun s t =>
    let a := rd 0 8 t.payload
    let n := rd 8 8 t.payload
    let s := { s with rounds := { s.rounds with archive := if n = 0 then none else some (a, n, 0) } }
    let s := match s.cfg? with
      | some c => s.rounds.archWait.foldl (fun (t : State) m => t.discardDeltas m c.stale) { s with rounds := { s.rounds with archWait := [] } }
      | none => s
    s.done t 0

/-! ### Import for replay (R332) -/

/-- ROUND_IMPORT (R332): one archived partner delta is read from host memory; its hash must be the one that the MANIFEST decision
carries. An entry that no logged manifest lists completes with STATE, one of another hash with DIVERGED, which shows in the record of the step that
applies the manifest (R333). A round that replay mode left open still takes imports (R330). -/
def execRoundImport (tag : BitVec 32) (s : State) : Out :=
  withCmd s tag 0x0805 fun s t =>
    let b := s.hostGet (rd 0 8 t.payload) (rd 8 8 t.payload)
    let round := BitVec.ofNat 64 (rd 0 8 b)
    let site := rd 8 1 b
    let dround := BitVec.ofNat 64 (rd 16 8 b)
    let d := slice 64 (rd 24 8 b) b
    if b.length < 64 + rd 24 8 b then s.done t 3
    else match s.replay.manifests.find? (fun m => m.1.round == round) with
    | none => s.done t 0x000A
    | some (m, hs) =>
      match m.entries.findIdx? (fun e => e.1 == site && e.2.2 == dround) with
      | none => s.done t 0x000A
      | some i =>
        if sha3 d ≠ hs.getD i [] then ({ s with replay := { s.replay with bad := s.replay.bad ++ [m.step] } }).done t 0x0208
        else
          let x : RxDelta := { site := site, round := dround, mac := 0, total := d.length, data := putData [] 0 d, complete := true }
          (({ s with rounds := { s.rounds with rx := s.rounds.rx.filter (fun (y : RxDelta) => y.site != site || y.round != dround) ++ [x] } }).storeReg).done t 0

end Sys2Proof.Machine
end

