-- ==== Sys2Proof/Machine/Matrix.lean ====
section
/-!
DEFINITION. The matrix cores: passes (R70 to R85), MOUT (R88, R89), the descriptors that save and restore (R96 to
R98), the switch of contexts (R149), CHECKPOINT (R152), block and residue errors (R100 to R106) and core idle (R455).
-/

namespace Sys2Proof.Machine

/-! ### Void slots (R104) -/

/-- Whether slots are void on a core: they lie in the declared range of a context that a residue error stopped there
(R104). -/
def State.anyVoid (s : State) (c : Nat) (lx32 : Bool) (l : List Nat) : Bool :=
  (s.core c).void.any (fun k =>
    match s.ctxE? (c / 40) k with
    | some e => (unitsOf e.lx32 e.range).any (fun u => (unitsOf lx32 l).contains u)
    | none => false)

/-! ### Operands -/

/-- A core reaches its own local memory and its cluster's SRAM (R91). -/
def State.coreLoad (s : State) (c a n : Nat) : Except MemErr Bytes :=
  match s.area a with
  | .clu g _ => if g = c / 40 then s.load a n else .error { kind := 3, addr := a }
  | .core d _ => if d = c then s.load a n else .error { kind := 3, addr := a }
  | _ => .error { kind := 3, addr := a }

/-- The tensor declaration and block index of a block's address: the index table of a declared lossless tensor names it
(R121, R130). -/
def State.tensorAt (s : State) (a : Nat) : Option (TensorDecl × Nat) :=
  match s.job.prog with
  | none => none
  | some p => p.tensors.findSome? (fun d =>
      if d.form ≠ 0 ∨ a < d.base then none
      else
        let nb := (d.elems + 255) / 256
        match (elemsLE 4 (s.peek d.index (4 * nb))).findIdx? (· == a - d.base) with
        | some i => some (d, i)
        | none => none)

/-- The tensor of a pass that streams from an address, 0xFFFF where none is declared. -/
def State.tensorId (s : State) (a : Nat) : Nat := match s.tensorAt a with | some (d, _) => d.tensor | none => 0xFFFF

/-- What a stream of elements delivers: the elements before the end or the first failure, the blocks with the elements
taken from each and whether they are slow, and the failure: damage (kind, address, blocks taken before) or a memory
error. -/
structure Stream where
  elems : List Nat := []
  blocks : List (Nat × Bool) := []
  addrs : List Nat := []
  dmg : Option (Nat × Nat × Nat) := none
  err : Option MemErr := none

/-- Demand elements from consecutive lossless blocks, each verified whole before any element of it is released (R73, R100,
R117, R123, R131). `skip` counts elements of the first block that are decoded and discarded (R128); `limit` is what the
declared tensor still holds from this block on, where one is declared. A demand beyond a short block or the declared count
is damage of kind TENSOR_END, named at the block it fell beyond (R129). A LENGTH that reaches past the memory's area or onto a word that no
code corrects ends the read in that error, not in damage (assumption 69). Fuel bounds the blocks. -/
def readStream (load : Nat → Nat → Except MemErr Bytes) (fmt : Nat) : Nat → Nat → Nat → Nat → Nat → Option Nat → Stream
  | 0, _, _, _, _, _ => {}
  | f + 1, a, ord, skip, need, limit =>
    match load a 8 with
    | .error e => { err := some e }
    | .ok h =>
      match load a (max (blkLen h) 8) with
      | .error e => { err := some e }
      | .ok b =>
        match decodeBlock fmt b with
        | .error k => { dmg := some (k, a, ord) }
        | .ok es =>
          let n := es.length
          let stop := match limit with | some l => min n l | none => n
          let got := (es.take stop).drop skip
          let taken := got.take need
          if need ≤ got.length then { elems := taken, blocks := [(taken.length, slowBlock b)], addrs := [a] }
          else if stop < n ∨ n < 256 ∨ limit = some n then
            { elems := taken, blocks := [(taken.length, slowBlock b)], addrs := [a], dmg := some (9, a, ord) }
          else
            let r := readStream load fmt f (a + blkLen h) (ord + 1) 0 (need - taken.length) (limit.map (· - n))
            { r with elems := taken ++ r.elems, blocks := (taken.length, slowBlock b) :: r.blocks, addrs := a :: r.addrs }

/-- The blocks, by address, that supply the first n elements of a stream. -/
def supplying : List (Nat × Nat × Bool) → Nat → List Nat
  | [], _ => []
  | b :: l, n => if n = 0 then [] else b.1 :: supplying l (n - b.2.1)

/-- Demand n elements of a core from an element of the block at an address. -/
def State.stream (s : State) (c fmt a skip n : Nat) : Stream :=
  readStream (s.coreLoad c) fmt (n + 2) a 0 skip n ((s.tensorAt a).map (fun d => d.1.elems - 256 * d.2))

/-! ### Errors of a core -/

/-- A residue error in a core (R104 to R106): the context stops, its slots become void, the record and the veto; the second
since device reset fences the core, in a suspect replay too, which only keeps errors from vetoing (R402); the first has its self-test
run at the next step boundary. -/
def State.coreResidue (s : State) (c k unit tag cycle : Nat) : State :=
  let g := c / 40
  let x := s.core c
  let t := s.setCore c { x with void := x.void ++ [k], back := none, resErrs := x.resErrs + 1, testDue := x.testDue || x.resErrs == 0 }
  let t := ((t.wf (oResErr g) 47 40 (c % 40)).wf (oResErr g) 39 32 unit).satAdd (oResErr g) 31 0 1
  let t := (t.haltCtx g k).residueError (srcCore c) c unit tag cycle
  if 0 < x.resErrs then t.fenceCore c else t

/-- A slot of the core's own tally store reads with a wrong residue: an error of the unit 0x54. The cycle within the instruction is not
said (R103, R104, assumption 4). -/
def State.tallyResidue (s : State) (c k tag : Nat) : State :=
  let d := s.draw
  d.2.coreResidue c k 0x54 tag (d.1.truncate 32).toNat

/-- Which adds of a pass had completed when an error stopped it is not said: its slots take free bytes (assumption 17). -/
def State.freeSlots (s : State) (c : Nat) (lx32 : Bool) (l : List Nat) : State :=
  l.foldl (fun (t : State) i =>
    { t.put (coreAddr c 0x8000 + slotOff lx32 i) (fit (slotBytes lx32) (Config.freeBytes t.free (slotBytes lx32))) with free := t.free + 1 }) s

/-- The tensor and block index of a damaged block in a pass: from the declarations by address, or the count from the pass's first
block (R130). -/
def State.passBlock (s : State) (d : Nat × Nat × Nat) : Nat × Nat :=
  match s.tensorAt d.2.1 with | some (t, i) => (t.tensor, i) | none => (0xFFFF, d.2.2)

/-- A damaged block in a pass stops its context (R100, R101, R130). -/
def State.coreBlockError (s : State) (c k tag : Nat) (d : Nat × Nat × Nat) : State :=
  let r := s.passBlock d
  (s.setCore c { s.core c with back := none }).cluBlockError (srcCore c) (c / 40) k d.1 r.1 tag r.2 d.2.1

/-- The record of a damaged block in a pass whose undo goes wrong (R102). -/
def State.coreBlockRec (s : State) (c tag : Nat) (d : Nat × Nat × Nat) : State :=
  let r := s.passBlock d
  s.cluBlockRec (srcCore c) (c / 40) d.1 r.1 tag r.2 d.2.1

/-! ### MPASS -/

/-- The slots that a pass writes, by user, in order (R73, R83, R92). -/
def passSlots (ws : List Word) : List Nat :=
  let rows := fld ws 3 47 32
  let base := fld ws 3 31 16
  if fld ws 0 31 30 = 1 then
    (List.range (fld ws 0 18 16)).flatMap (fun u => (List.range (16 * rows)).map (fun i => base + u * fld ws 3 15 0 + i))
  else
    let cc := if fld ws 0 29 28 = 1 ∨ fld ws 0 27 26 = 1 then 2 else 4
    (List.range (cc * rows)).map (cc * base + ·)

/-- The exact contribution of one row or slab and one output column (R70 to R72, R81): the sum over k of products. `st` reads
S[k][c] or x[k], `a` the streamed value of k. -/
def columnSum (unit : Int) (n : Nat) (fa fs : Fmt) (a st : Nat → Nat) : Acc :=
  Acc.sum ((List.range n).map (fun k => prodContrib unit (decodeF fa (a k)) (decodeF fs (st k))))

/-- The contributions of a pass, one for each slot of passSlots (R72, R81, R83). `a` is the streamed operand, `fronts` the
stationary values of each user (one for a stationary pass) at index 16c + k, the place of a kept value whatever the AFMT of the pass that
loaded it (R80, assumption 51). -/
def passSums (ws : List Word) (a : List Nat) (fronts : List (List Nat)) : List Acc :=
  let rows := fld ws 3 47 32
  let at_ := fun i => a.getD i 0
  if fld ws 0 31 30 = 1 then
    fronts.flatMap (fun x => (List.range (16 * rows)).map (fun i =>
      columnSum u16 4 fp16 fp16 (fun k => at_ (64 * (i / 16) + 16 * k + i % 16)) (fun k => x.getD k 0)))
  else
    let wide := fld ws 0 29 28 = 1 ∨ fld ws 0 27 26 = 1
    let kk := if wide then 8 else 16
    let cc := if wide then 2 else 4
    let x := fronts.headD []
    (List.range (cc * rows)).map (fun i =>
      columnSum (if wide then u32e else u16) kk (if fld ws 0 27 26 = 1 then fp32 else fp16) (if fld ws 0 29 28 = 1 then fp32 else fp16)
        (fun k => at_ (kk * (i / cc) + k)) (fun k => x.getD (16 * (i % cc) + k) 0))

/-- Slabs that take two cycles: those drawn from a slow block or from its partner, blocks being paired from the pass's
first (R84, R127). -/
def slowSlabs (blocks : List (Nat × Bool)) (rows : Nat) : Nat :=
  let flags := blocks.map (·.2)
  let partner := fun i => if i % 2 = 0 then i + 1 else i - 1
  let ends := blocks.foldl (fun (a : List (Nat × Nat) × Nat) b => (a.1 ++ [(a.2, a.2 + b.1)], a.2 + b.1)) ([], 0)
  ((List.range rows).filter (fun r =>
    (ends.1.zipIdx).any (fun e =>
      (flags.getD e.2 false || flags.getD (partner e.2) false) && decide (e.1.1 < 64 * (r + 1)) && decide (64 * r < e.1.2)))).length

/-- The stationary operand of a pass: the values of each user, or how it stops before its first row (R73, R80 to R82). -/
inductive Stat where
  | ok (fronts : List (List Nat))
  | keepError
  | damaged (d : Nat × Nat × Nat)
  | memory (e : MemErr)

/-- Read the raw slices of the users of a wide-shallow pass (R82, R83). -/
def State.slices (s : State) (c a stride : Nat) : Nat → Except MemErr (List (List Nat))
  | 0 => .ok []
  | n + 1 =>
    match s.slices c a stride n with
    | .error e => .error e
    | .ok l =>
      match s.coreLoad c (a + n * stride) 8 with
      | .error e => .error e
      | .ok b => .ok (l ++ [elemsLE 2 b])

/-- Read or keep the stationary operand. -/
def State.stationary (s : State) (c k : Nat) (ws : List Word) : Stat :=
  let mode := fld ws 0 31 30
  let sfmt := fld ws 0 29 28
  if fld ws 0 34 34 = 1 then
    match (s.core c).front with
    | some f => if f.mode = mode ∧ f.sfmt = sfmt ∧ f.ctx = k then .ok [f.vals.map BitVec.toNat] else .keepError
    | none => .keepError
  else if mode = 1 then
    match s.slices c (fld ws 1 47 0) (fld ws 4 47 0) (fld ws 0 18 16) with
    | .error e => .memory e
    | .ok l => .ok l
  else
    let wide := sfmt = 1 ∨ fld ws 0 27 26 = 1
    let kk := if wide then 8 else 16
    let n := if wide then 16 else 64
    let r := s.stream c sfmt (fld ws 1 47 0) (fld ws 1 55 48) n
    match r.err, r.dmg with
    | some e, _ => .memory e
    | none, some d => .damaged d
    | none, none => .ok [(List.range 64).map (fun i => if i % 16 < kk ∧ i / 16 * kk + i % 16 < n then r.elems.getD (i / 16 * kk + i % 16) 0 else 0)]

/-- Whether every slot that adds go into carries a right residue; a pass with ACC_INIT reads none (R103). -/
def State.tallyOk (s : State) (c : Nat) (ws : List Word) (lx32 : Bool) (l : List Nat) : Bool :=
  fld ws 0 35 35 == 1 || l.all (fun i => slotOk lx32 (s.slotGet c lx32 i))

/-- Whether the tally slots of a pass are LX32. -/
def passWide (ws : List Word) : Bool :=
  decide (fld ws 0 31 30 = 0) && (decide (fld ws 0 29 28 = 1) || decide (fld ws 0 27 26 = 1))

/-- The first pass of another mode leaves both Carousel sets invalid (R85). -/
def State.modeSwitch (s : State) (c mode : Nat) : State :=
  let x := s.core c
  s.setCore c (if x.mode = some mode then x else { x with mode := some mode, front := none, back := none })

/-- The first row swaps the sets: what the pass loaded is in front, what was in front is behind (R76). -/
def State.swapSets (s : State) (c : Nat) (f : Front) : State :=
  let x := s.core c
  s.setCore c { x with front := some f, back := x.front }

/-- What the slots of a pass hold as it starts (R43, R76). -/
def State.passStart (s : State) (c : Nat) (ws : List Word) : List Acc :=
  (passSlots ws).map (fun i => if fld ws 0 35 35 = 1 then ({} : Acc) else accOf (passWide ws) (s.slotGet c (passWide ws) i))

/-- The slots of a pass after it: every contribution to a slot merges into it, those of several users too whose ranges overlap (R43, R83).
-/
def passMerged (slots : List Nat) (start sums : List Acc) : List Acc :=
  List.zipWith (fun i a => a.merge (Acc.sum (((slots.zip sums).filter (fun p => p.1 == i)).map (·.2)))) slots start

/-- A pass that runs to its end (R72, R134): its contributions merge into the tally store, unless an LX32 slot that it adds
to carries a wrong residue (R103). -/
def State.passEnd (s : State) (c k : Nat) (ws : List Word) (a : List Nat) (fronts : List (List Nat)) (extra : Nat) : UnitRes :=
  let wide := passWide ws
  let slots := passSlots ws
  if !s.tallyOk c ws wide slots then ((s.freeSlots c wide slots).tallyResidue c k (dTag ws), none)
  else
    let new := passMerged slots (s.passStart c ws) (passSums ws a fronts)
    let t := (slots.zip new).foldl (fun t p => t.slotPut c wide p.1 p.2) s
    let g := c / 40
    let t := if extra = 0 then t else (t.satAdd (oExpStall g) 63 32 extra).wf (oExpStall g) 31 16 (s.tensorId (fld ws 2 47 0))
    let t := if fld ws 0 31 30 ≠ 1 then t
      else
        let x := t.clu g
        let add := fun (v : Nat × Nat) => (v.1 + extra, v.2 + fld ws 3 47 32 * fronts.length + extra)
        t.setClu g { x with stall := SMap.upd x.stall (s.tensorId (fld ws 2 47 0)) (0, 0) add }
    let x := t.core c
    (t.setCore c { x with lastTag := BitVec.ofNat 16 (dTag ws) }, some { ctx := k, tag := dTag ws, extra := extra })

/-- The slots that the first j rows of a pass add to, where they carry residues (R103). -/
def enteredSlots (ws : List Word) (j : Nat) : List Nat := if passWide ws then (passSlots ws).take (2 * j) else []

/-- A pass whose streamed operand is damaged from row j on, j above 0 (R101 to R105): its slots are as they were at its start, or
cleared with ACC_INIT, unless a residue error governs: in a row that entered, in a slot that such a row adds to, or in the undo. The
undo streams the blocks of the rows that entered again, `addrs`, and one that fails then is a second block error that voids the context's
slots. A residue error that ends the undo posts its own record after the block's, and no second block error (assumption 69). -/
def State.passDamaged (s : State) (c k : Nat) (ws : List Word) (d : Nat × Nat × Nat) (addrs : List Nat) (j : Nat) (fault : Option PassFault) :
    UnitRes :=
  let tag := dTag ws
  let wide := passWide ws
  let slots := passSlots ws
  let undo := fld ws 0 35 35 = 0
  let void := s.freeSlots c wide slots
  let plain := (if undo then s else s.slotsClear c wide slots).coreBlockError c k tag d
  if !s.tallyOk c ws wide (enteredSlots ws j) then (void.tallyResidue c k tag, none)
  else match fault with
    | some (.residue f) => (void.coreResidue c k f.unit.toNat tag f.cycle.toNat, none)
    | some (.undoResidue f) => if undo then ((void.coreBlockRec c tag d).coreResidue c k f.unit.toNat tag f.cycle.toNat, none) else (plain, none)
    | some (.upset _) => (plain, none)
    | some (.undoBlock kind place) =>
      match addrs[place]? with
      | some a =>
        if undo then
          let t := void.coreBlockRec c tag d
          let x := t.core c
          ((t.setCore c { x with void := x.void ++ [k] }).coreBlockError c k tag (kind + 1, a, place), none)
        else (plain, none)
      | none => (plain, none)
    | none => (plain, none)

/-- The effect of an MPASS descriptor on a core. A word of a slot that it adds to and that no code corrects stops it before its first row
(R396). What a pass has merged when a later access to its operand fails is not said: once a row
has entered, its slots take free bytes (assumption 17). -/
def State.pass (s : State) (c k : Nat) (ws : List Word) (fault : Option PassFault) : UnitRes :=
  let mode := fld ws 0 31 30
  let tag := dTag ws
  let rows := fld ws 3 47 32
  let keep := fld ws 0 34 34 = 1
  let s := match fault with | some (.upset u) => s.upset (c / 40) u | _ => s
  -- a mode switch leaves both Carousel sets invalid (R85)
  let s := s.modeSwitch c mode
  -- the flags of the pass's slots as it starts, for the undo (R101)
  let s := s.setCore c { s.core c with snapshot := (s.passStart c ws).map (fun a => BitVec.ofNat 4 a.flagBits) }
  match (if fld ws 0 35 35 = 1 then none else s.slotErr c (passWide ws) (passSlots ws)) with
  | some e => (s.accError (srcCore c) (c / 40) k (c % 40) tag e, none)
  | none =>
  match s.stationary c k ws with
  | .keepError => (s.ctxError (srcCore c) (c / 40) k (c % 40) tag (fld ws 1 47 0), none)
  | .memory e => (s.accError (srcCore c) (c / 40) k (c % 40) tag e, none)
  | .damaged d => (s.coreBlockError c k tag d, none)
  | .ok fronts =>
    let per := if mode = 1 then 64 else if fld ws 0 29 28 = 1 ∨ fld ws 0 27 26 = 1 then 8 else 16
    let r := s.stream c (fld ws 0 27 26) (fld ws 2 47 0) (fld ws 2 55 48) (per * rows)
    let j := r.elems.length / per
    let swapped := if keep then s else s.swapSets c
      { ctx := k, mode := mode, sfmt := fld ws 0 29 28, vals := (fronts.getLastD []).map (BitVec.ofNat 32) }
    let s := s.correctAll (r.addrs.map (fun a => (a, blkLen (s.peek a 8))))
    let swapped := swapped.correctAll (r.addrs.map (fun a => (a, blkLen (s.peek a 8))))
    match r.err, r.dmg, fault with
    | some e, _, _ =>
      if j = 0 then (s.accError (srcCore c) (c / 40) k (c % 40) tag e, none)
      else
        -- a residue error in a row that entered, or in a slot that it adds to, is one all the same (R103)
        let t := swapped.freeSlots c (passWide ws) (passSlots ws)
        let t := if !swapped.tallyOk c ws (passWide ws) (enteredSlots ws j) then t.tallyResidue c k tag
          else match fault with
            | some (.residue f) => t.coreResidue c k f.unit.toNat tag f.cycle.toNat
            | _ => t
        (t.accError (srcCore c) (c / 40) k (c % 40) tag e, none)
    | none, some d, _ =>
      if j = 0 then (s.coreBlockError c k tag d, none)
      else swapped.passDamaged c k ws d (supplying (r.addrs.zip r.blocks) (per * j)) j fault
    | none, none, some (.residue f) =>
      ((swapped.freeSlots c (passWide ws) (passSlots ws)).coreResidue c k f.unit.toNat tag f.cycle.toNat, none)
    | none, none, _ =>
      let extra := if mode = 1 then slowSlabs r.blocks rows * fronts.length else 0
      swapped.passEnd c k ws r.elems fronts extra

/-- MPASS (R72, R76, R80, R85, R101, R102, R104). -/
def execMpass (core : GCore) (fault : Option PassFault) (s : State) : Out :=
  unitRow (core / 40) (core % 40) (fun ws => dOp ws == 1) s fun k it s => s.pass core k it.words fault

/-! ### MOUT (R88, R89) -/

/-- The elements of an MOUT: row, column, slot. -/
def moutCells (ws : List Word) : List (Nat × Nat × Nat) :=
  let base := fld ws 3 31 16
  (List.range (fld ws 3 47 32)).flatMap (fun r => (List.range (fld ws 3 7 0)).map (fun c =>
    (r, c, if fld ws 0 37 37 = 1 then base + 16 * r + c else if fld ws 0 28 28 = 1 then 2 * (base + r) + c else 4 * (base + r) + c)))

/-- LXP blocks of elements given with their logical index: a new block where the index does not follow on, and after 256
(R89). The accumulator is the block being filled: its first index and its elements. -/
def lxpRuns (tensor epoch : Nat) : List (Nat × Acc) → Nat → List Acc → Bytes
  | [], first, cur => if cur.isEmpty then [] else lxpBlock tensor first epoch cur
  | (i, a) :: l, first, cur =>
    if cur.isEmpty then lxpRuns tensor epoch l i [a]
    else if i = first + cur.length ∧ cur.length < 256 then lxpRuns tensor epoch l first (cur ++ [a])
    else lxpBlock tensor first epoch cur ++ lxpRuns tensor epoch l i [a]

/-- One rounded element of MOUT (R47, R48, R57). -/
def State.moutElem (s : State) (ws : List Word) (idx : Nat) (a : Acc) : Rounded :=
  let rm := fld ws 0 31 29
  let u := if rm = 4 then zcg (BitVec.ofNat 64 (s.seedSel (fld ws 0 27 24))) (BitVec.ofNat 64 s.rngStep)
      (BitVec.ofNat 16 (fld ws 2 63 48)) (BitVec.ofNat 48 idx) else 0
  roundAcc (if fld ws 0 35 32 = 0 then fp16 else fp32) rm u (if fld ws 0 28 28 = 1 then u32e else u16) (s.scaleSel (fld ws 0 23 16)) a

/-- The effect of an MOUT descriptor. -/
def State.mout (s : State) (c k : Nat) (ws : List Word) : UnitRes :=
  let lx32 := fld ws 0 28 28 == 1
  let ofmt := fld ws 0 35 32
  let cells := moutCells ws
  let slots := cells.map (·.2.2)
  let tag := dTag ws
  if s.anyVoid c lx32 slots then (s.ctxError (srcCore c) (c / 40) k (c % 40) tag 0, none)
  else match s.slotErr c lx32 slots with
  | some e => (s.accError (srcCore c) (c / 40) k (c % 40) tag e, none)
  | none =>
    let raw := slots.map (s.slotGet c lx32)
    if !raw.all (slotOk lx32) then (s.tallyResidue c k tag, none)
    else
      let dst := fld ws 1 47 0
      let items := (cells.zip raw).map (fun p =>
        let off := p.1.1 * fld ws 4 47 0 + p.1.2.1
        (off, (fld ws 2 47 0 + off) % 2 ^ 48, p.2))
      let elems := items.map (fun i => s.moutElem ws i.2.1 (accOf lx32 i.2.2))
      let lxp := lxpRuns (fld ws 2 63 48) (match s.job.prog with | some p => p.epoch | none => 0)
        (items.map (fun i => (i.2.1, accOf lx32 i.2.2))) 0 []
      let writes : List (Nat × Bytes) :=
        if ofmt < 2 then
          let e := if ofmt = 0 then 2 else 4
          List.zipWith (fun i r => (dst + i.1 * e, le e r.x)) items elems
        else if ofmt = 3 then [(dst, lxp)]
        else if ofmt = 2 then items.map (fun i => (dst + i.1 * 16, i.2.2))
        else items.map (fun i => (dst + i.1 * 80, if lx32 then i.2.2 else lx32Bytes (accOf false i.2.2).widen))
      match (s.correctAll (mergeReads writes)).storeAll writes with
      | (t, some e) => (t.accError (srcCore c) (c / 40) k (c % 40) tag e, none)
      | (t, none) =>
        let t := if fld ws 0 36 36 = 1 then t.slotsClear c lx32 slots else t
        let x := t.core c
        (t.setCore c { x with lastTag := BitVec.ofNat 16 tag },
          some { ctx := k, tag := tag, status := if ofmt < 2 then elems.foldl (fun n r => n ||| r.st) 0 else 0,
                 bytes := if ofmt = 3 then lxp.length else 0 })

/-- The napping cluster that the descriptor at a core's turn would write to over the Midway: the write waits (R457). -/
def State.coreWaits (s : State) (core : Nat) : Option Nat :=
  match (s.serving (core / 40) (core % 40)).bind (fun k => (SMap.get (s.clu (core / 40)).queues (core % 40 * 8 + k) []).head?) with
  | some it => s.napping (fld it.words 1 47 0)
  | none => none

/-- MOUT (R89). -/
def execMout (core : GCore) (s : State) : Out :=
  match s.coreWaits core with
  | some g => go (s.requestWake g)
  | none => unitRow (core / 40) (core % 40) (fun ws => dOp ws == 2) s fun k it s => s.mout core k it.words

/-! ### Saves and restores (R96 to R98) -/

/-- A context's declared layout and range; none declared reads as LX16 (R90). -/
def State.lxOf (s : State) (g k : Nat) : Bool := match s.ctxE? g k with | some e => e.lx32 | none => false

/-- MSPILL (R90, R96, R104). Any address that the map holds takes the save area (assumption 68). -/
def execMspill (core : GCore) (s : State) : Out :=
  match s.coreWaits core with
  | some g => go (s.requestWake g)
  | none => unitRow (core / 40) (core % 40) (fun ws => dOp ws == 3) s fun k it s =>
    let ws := it.words
    let lx32 := s.lxOf (core / 40) k
    let first := fld ws 3 31 16
    let n := fld ws 3 47 32
    let tag := dTag ws
    if s.anyVoid core lx32 ((List.range n).map (first + ·)) then (s.ctxError (srcCore core) (core / 40) k (core % 40) tag 0, none)
    else match s.slotErr core lx32 ((List.range n).map (first + ·)) with
    | some e => (s.accError (srcCore core) (core / 40) k (core % 40) tag e, none)
    | none =>
    if !s.rangeOk core first n lx32 then (s.tallyResidue core k tag, none)
    else
      let r := s.store (fld ws 1 47 0) (s.saveArea core k first n lx32)
      match r.2 with
      | some e => (r.1.accError (srcCore core) (core / 40) k (core % 40) tag e, none)
      | none =>
        let x := r.1.core core
        (r.1.setCore core { x with lastTag := BitVec.ofNat 16 tag, back := none }, some { ctx := k, tag := tag })

/-- MRESUME (R98). -/
def execMresume (core : GCore) (s : State) : Out :=
  match s.coreWaits core with
  | some g => go (s.requestWake g)
  | none => unitRow (core / 40) (core % 40) (fun ws => dOp ws == 4) s fun k it s =>
    let ws := it.words
    let lx32 := s.lxOf (core / 40) k
    let tag := dTag ws
    let a := fld ws 1 47 0
    match s.readArea a lx32 with
    | .error e => (s.accError (srcCore core) (core / 40) k (core % 40) tag e, none)
    | .ok b =>
      let s := s.correct a b.length
      if areaOk core k lx32 b then
        let t := s.restoreArea core k lx32 (fld ws 3 31 16) (fld ws 3 47 32) b
        let x := t.core core
        (t.setCore core { x with lastTag := BitVec.ofNat 16 tag }, some { ctx := k, tag := tag })
      else (s.ctxError (srcCore core) (core / 40) k (core % 40) tag a, none)

/-- MCLEAR (R90). -/
def execMclear (core : GCore) (s : State) : Out :=
  unitRow (core / 40) (core % 40) (fun ws => dOp ws == 5) s fun k it s =>
    let ws := it.words
    let t := s.slotsClear core (s.lxOf (core / 40) k) ((List.range (fld ws 3 47 32)).map (fld ws 3 31 16 + ·))
    let x := t.core core
    (t.setCore core { x with lastTag := BitVec.ofNat 16 (dTag ws) }, some { ctx := k, tag := dTag ws })

/-! ### The switch of contexts (R149) and CHECKPOINT (R152) -/

/-- Save the state of a context on a core to its save area; a tally store with a wrong residue is an error of it (R103). -/
def State.saveCtx (s : State) (c k : Nat) (e : CtxE) : State × Bool :=
  match s.slotErr c e.lx32 e.range with
  | some er => (s.accError (srcClu (c / 40) 0) (c / 40) k 46 0 er, false)
  | none =>
  if !s.rangeOk c e.firstSlot e.slots e.lx32 then (s.coreResidue c k 0x54 0 0, false)
  else
    let r := s.store (e.save + c % 40 * 0x60C0) (s.saveArea c k e.firstSlot e.slots e.lx32)
    match r.2 with
    | some er => (r.1.accError (srcClu (c / 40) 0) (c / 40) k 46 0 er, false)
    | none =>
      let x := r.1.core c
      (r.1.setCore c { x with saved := x.saved ++ [k], back := none }, true)

/-- Restore a context on a core from its save area (R98); a failed check is a context error with the TAG of the context's
next instruction. -/
def State.loadCtx (s : State) (c k tag : Nat) (e : CtxE) : State :=
  let a := e.save + c % 40 * 0x60C0
  match s.readArea a e.lx32 with
  | .error er => s.accError (srcCore c) (c / 40) k 46 tag er
  | .ok b =>
    let s := s.correct a b.length
    if areaOk c k e.lx32 b then
      let t := s.restoreArea c k e.lx32 e.firstSlot e.slots b
      let x := t.core c
      t.setCore c { x with saved := x.saved.erase k }
    else s.ctxError (srcCore c) (c / 40) k (c % 40) tag a

/-- Whether the declared ranges of two contexts overlap. -/
def overlap (a b : CtxE) : Bool := (unitsOf a.lx32 a.range).any (fun u => (unitsOf b.lx32 b.range).contains u)

/-- Whether the state of a context that has run on a core must leave the tally store before another may run there. -/
def State.mustSave (s : State) (c k0 k1 : Nat) : Bool :=
  k0 != k1 && !(s.core c).saved.contains k0 && !(s.core c).void.contains k0 &&
  (match s.ctxE? (c / 40) k0, s.ctxE? (c / 40) k1 with | some e0, some e1 => overlap e0 e1 && decide (0 < e0.slots) | _, _ => false)

/-- Save contexts of a core until a save fails. -/
def State.saveEach (s : State) (c : Nat) : List Nat → State × Bool
  | [] => (s, true)
  | k :: l =>
    match s.ctxE? (c / 40) k with
    | none => s.saveEach c l
    | some e =>
      match s.saveCtx c k e with
      | (t, true) => t.saveEach c l
      | (t, false) => (t, false)

/-- Turn a core to a context (R96, R97, R149): the back set is discarded. Whichever contexts have run on the core in the step and still
lie in its tally store where the incoming range overlaps theirs are saved first, so that the order of switches changes no result; the
incoming context is restored where it lies in its save area. -/
def State.switchCore (s : State) (c : Nat) (k0 : Option Nat) (k1 tag : Nat) : State :=
  let x := s.core c
  let live := match k0 with | some k => if x.live.contains k then x.live else x.live ++ [k] | none => x.live
  let s := s.setCore c { x with back := none, live := live }
  let r := s.saveEach c (live.filter (fun k => s.mustSave c k k1))
  match s.ctxE? (c / 40) k1 with
  | some e => if r.2 ∧ x.saved.contains k1 then r.1.loadCtx c k1 tag e else r.1
  | none => r.1

/-- CONTEXT_SWITCH (R149): a unit whose context has no ready descriptor takes the next context, in ascending number after
the one it served last, that has one. After a nap the context it resumes is restored in the same way (R456). -/
def execContextSwitch (clu : GClu) (unit : Fin 44) (s : State) : Out :=
  if !s.runs clu then go s
  else
    let c := s.clu clu
    let ready := fun k => !(SMap.get c.queues (unit.val * 8 + k) []).isEmpty && s.mayAct clu k && s.ctxState clu k != 5
    let tag := fun k => match SMap.get c.queues (unit.val * 8 + k) [] with | it :: _ => dTag it.words | [] => 0
    let k0 := SMap.get c.serving unit.val 7
    let back := (s.core (clu * 40 + unit)).saved
    if (SMap.get? c.serving unit.val).isSome ∧ ready k0 ∧ !(unit.val < 40 ∧ back.contains k0) then go s
    else
      let order := if (SMap.get? c.serving unit.val).isSome ∧ ready k0 then [k0] else (List.range 8).map (fun i => (k0 + 1 + i) % 8)
      match order.find? ready with
      | none => go s
      | some k1 =>
        let s := s.setClu clu { c with serving := SMap.set c.serving unit.val k1 }
        if unit.val < 40 then
          go (s.switchCore (clu * 40 + unit) (SMap.get? c.serving unit.val) k1 (tag k1)).hangCheck
        else go s

/-- Save every core of a context for a CHECKPOINT: from its save area, checked as R98 checks one, where the context lies there, else from
the tally store. -/
def State.checkpointCores (s : State) (g k tag : Nat) (e : CtxE) (addr : Nat) : List Nat → State × Bool
  | [] => (s, true)
  | i :: l =>
    let c := g * 40 + i
    let put := fun (s : State) (b : Bytes) => s.store (addr + i * 0x60C0) b
    if (s.core c).saved.contains k then
      match s.readArea (e.save + i * 0x60C0) e.lx32 with
      | .error er => (s.accError (srcClu g 0) g k 46 tag er, false)
      | .ok b =>
        let s := s.correct (e.save + i * 0x60C0) b.length
        if areaOk c k e.lx32 b then
          match put s b with
          | (t, some er) => (t.accError (srcClu g 0) g k 46 tag er, false)
          | (t, none) => t.checkpointCores g k tag e addr l
        else (s.ctxError (srcClu g 0) g k 46 tag (e.save + i * 0x60C0), false)
    else match s.slotErr c e.lx32 e.range with
    | some er => (s.accError (srcClu g 0) g k 46 tag er, false)
    | none =>
    if !s.rangeOk c e.firstSlot e.slots e.lx32 then (s.tallyResidue c k tag, false)
    else
      match put s (s.saveArea c k e.firstSlot e.slots e.lx32) with
      | (t, some er) => (t.accError (srcClu g 0) g k 46 tag er, false)
      | (t, none) => t.checkpointCores g k tag e addr l

/-- CHECKPOINT (R152): once everything dispatched has retired, the context's tally range of each of its cores is saved, and
the position of the following entry is recorded. -/
def execCheckpoint (clu : GClu) (ctx : CtxNo) (s : State) : Out :=
  atEntry clu ctx 0x43 s fun c ws s =>
    if !s.drained clu ctx then s
    else match s.ctxE? clu ctx with
    | none => s
    | some e =>
      let r := s.checkpointCores clu ctx (dTag ws) e (fld ws 1 47 0) ((List.range 40).filter (fun i => bit i e.cores))
      if r.2 then (r.1.passEntry clu ctx c).wf (oCkpt clu ctx) 47 0 (c.pos + 64) else r.1

/-- CORE_IDLE (R449, R455): a core whose queue is empty gates its clock; a cluster whose cores are all gated and whose engines
have no work is quiet. -/
def execCoreIdle (core : GCore) (s : State) : Out :=
  let g := core.val / 40
  let busy := fun (u : Nat) => (List.range 8).any (fun k => !(SMap.get (s.clu g).queues (u * 8 + k) []).isEmpty)
  if busy (core % 40) ∨ (s.clu g).power ≠ 0 then go s
  else
    let t := s.setCore core { s.core core with gated := true }
    if (List.range 40).all (fun i => (t.core (g * 40 + i)).gated) ∧ !(busy 40 || busy 41 || busy 42 || busy 43) then
      go (t.setClu g { t.clu g with power := 1 })
    else go t

/-- CORE_SELFTEST (R106): at the step boundary after a core's first residue error its self-test pattern runs; a failure
fences the core. -/
def execCoreSelftest (core : GCore) (pass : Bool) (s : State) : Out :=
  let x := s.core core
  if !x.testDue ∨ s.job.running.isSome then go s
  else
    let t := s.setCore core { x with testDue := false }
    go (if pass then t else t.fenceCore core)

end Sys2Proof.Machine
end

