-- ==== Sys2Proof/Machine/ListCheck.lean ====
section
/-!
DEFINITION. Validation of descriptor lists with the PROG commands: reserved fields and values (R86 to R91, R146, R147, R154 to
R157, R161, R162, R222, R489), tally and operand ranges (R91), units that are fenced (R91, R147, R408), STAT_KEEP (R80), loops
and ends (R147), and the contribution counts of R44 and R45. Each check answers the statuses it finds, as the codes of R383.
-/

namespace Sys2Proof.Machine

/-- FMT_INVALID. -/
def stFmt : Nat := 0x0002
/-- QUEUE_CREDIT. -/
def stQueue : Nat := 0x0104
/-- COUNT_LIMIT. -/
def stCount : Nat := 0x010A
/-- TALLY_RANGE. -/
def stTally : Nat := 0x010C
/-- OPERAND_RANGE. -/
def stOperand : Nat := 0x010D
/-- UNIT_FENCED. -/
def stFenced : Nat := 0x010E

/-- A status if a condition holds. -/
def stIf (st : Nat) (c : Bool) : List Nat := if c then [st] else []

/-- Whether a word is zero outside the given fields. -/
def onlyBits (w : Nat) (fs : List (Nat × Nat)) : Bool := fs.foldl (fun x f => x - bits f.1 f.2 x * 2 ^ f.2) w == 0

/-- Whether each word of a descriptor is zero outside its fields; words beyond the list must be zero. -/
def onlyWords (ws : List Word) (fs : List (List (Nat × Nat))) : Bool :=
  (List.range 8).all (fun k => onlyBits (wd ws k) (fs.getD k []))

/-! ### Places -/

/-- An address in a core's own local memory or in its cluster's SRAM (R91). -/
def State.ownOperand (s : State) (c a : Nat) : Bool :=
  match s.area a with
  | .core x _ => x == c
  | .clu g _ => g == c / 40
  | _ => false

/-- An address that no programme may name: outside R8, or in the BAR0 image (R91, R485). -/
def State.offMap (s : State) (a : Nat) : Bool := match s.area a with | .none => true | .image _ => true | _ => false

/-- An address of the BAR0 image (R485). -/
def inImage (a : Nat) : Bool := decide (imgBase ≤ a) && decide (a < imgBase + 0x2000000)

/-- A range that lies wholly in a cluster's own SRAM or wholly in the HBM stack of its ring (R147, R209). -/
def State.savePlace (s : State) (g a n : Nat) : Bool :=
  match s.area a, s.area (a + n - 1) with
  | .clu x _, .clu y _ => x == g && y == g
  | .hbm x, .hbm y => x == g / 250 && y == g / 250
  | _, _ => false

/-- Save areas of a cluster's forty cores (R96, R147, R209). -/
def saveAreas : Nat := 40 * 0x60C0

/-! ### Matrix descriptors (R87 to R91) -/

/-- MPASS on a core (R87, R91). The STAT_ADDR of a STAT_KEEP pass, which loads nothing, is no operand address (assumption 51). -/
def State.checkPass (s : State) (c : Nat) (ws : List Word) : List Nat :=
  let mode := fld ws 0 31 30
  let sf := fld ws 0 29 28
  let af := fld ws 0 27 26
  let users := fld ws 0 18 16
  let rows := fld ws 3 47 32
  let base := fld ws 3 31 16
  let stride := fld ws 3 15 0
  let slice := fld ws 4 47 0
  let form := !onlyWords ws [[(63, 48), (35, 35), (34, 34), (31, 30), (29, 28), (27, 26), (18, 16), (7, 0)], [(55, 48), (47, 0)],
      [(55, 48), (47, 0)], [(47, 32), (31, 16), (15, 0)], [(47, 0)]] ||
    decide (2 ≤ mode) || decide (2 ≤ sf) || decide (2 ≤ af) ||
    (mode == 1 && (sf != 0 || af != 0 || users == 0 || decide (4 < users) || slice % 8 != 0 || fld ws 1 55 48 != 0)) ||
    (mode == 0 && (users != 0 || stride != 0 || slice != 0))
  let range := rows == 0 ||
    (if mode = 1 then decide (1536 < base + (users - 1) * stride + 16 * rows)
     else if sf = 1 ∨ af = 1 then decide (153 < base + rows) else decide (384 < base + rows))
  let stat := if mode = 1 then (List.range users).map (fun u => fld ws 1 47 0 + u * slice) else [fld ws 1 47 0]
  let far := !((fld ws 2 47 0 :: (if fld ws 0 34 34 = 1 then [] else stat)).all (s.ownOperand c))
  stIf stFmt form ++ stIf stTally range ++ stIf stOperand far

/-- The alignment of an MOUT's destination by OFMT (R88). -/
def moutAlign (ofmt : Nat) : Nat := match ofmt with | 0 => 2 | 1 => 4 | 2 => 16 | 3 => 64 | _ => 16

/-- MOUT (R88, R91). -/
def State.checkOut (s : State) (ws : List Word) : List Nat :=
  let ofmt := fld ws 0 35 32
  let wide := fld ws 0 37 37
  let src32 := fld ws 0 28 28
  let rows := fld ws 3 47 32
  let base := fld ws 3 31 16
  let cols := fld ws 3 7 0
  let dst := fld ws 1 47 0
  let form := !onlyWords ws [[(63, 48), (37, 37), (36, 36), (35, 32), (31, 29), (28, 28), (27, 24), (23, 16), (7, 0)], [(47, 0)],
      [(63, 48), (47, 0)], [(47, 32), (31, 16), (7, 0)], [(47, 0)]] ||
    decide (4 < ofmt) || decide (4 < fld ws 0 31 29) ||
    (src32 == 1 && (wide == 1 || ofmt == 2 || ofmt == 3)) ||
    cols == 0 || decide ((if wide = 1 then 16 else if src32 = 1 then 2 else 4) < cols) || dst % moutAlign ofmt != 0
  let range := rows == 0 ||
    (if wide = 1 then decide (1536 < base + 16 * (rows - 1) + cols)
     else if src32 = 1 then decide (153 < base + rows) else decide (384 < base + rows))
  stIf stFmt form ++ stIf stTally range ++ stIf stOperand (s.offMap dst)

/-- MSPILL, MRESUME and MCLEAR, in the context's declared layout (R90, R91). A save area in the BAR0 image is refused (R485); any other address
is left to the access at run time (assumption 68). -/
def checkSlots (op : Nat) (lx32 : Bool) (ws : List Word) : List Nat :=
  let a := fld ws 1 47 0
  let n := 0xC0 + slotOff lx32 (fld ws 3 47 32)
  let form := !onlyWords ws [[(63, 48), (7, 0)], (if op = 5 then [] else [(47, 0)]), [], [(47, 32), (31, 16)]] ||
    fld ws 1 5 0 != 0
  stIf stFmt form ++ stIf stTally (decide ((if lx32 then 307 else 1536) < fld ws 3 31 16 + fld ws 3 47 32)) ++
  stIf stOperand (op != 5 && (inImage a || inImage (a + n - 1)))

/-! ### The other units -/

/-- The highest OP of a vector opcode (R156). -/
def vecOps (op : Nat) : Nat := match op with | 0x10 => 6 | 0x11 => 2 | 0x13 => 1 | 0x15 => 1 | _ => 0

/-- Vector descriptors (R154 to R157, R489). BFMT of a block step, which has no operand B, may be 0 or 1 (assumption 68). -/
def checkVec (ws : List Word) : List Nat :=
  let op := dOp ws
  let sub := fld ws 0 47 40
  let a := fld ws 0 39 38
  let b := fld ws 0 37 36
  let d := fld ws 0 35 34
  let rows := fld ws 4 47 32
  let count := fld ws 4 31 0
  let conv := op == 0x10 && sub == 6
  let add := op == 0x13 && sub == 1
  let form := !onlyWords ws [[(63, 48), (47, 40), (39, 38), (37, 36), (35, 34), (33, 33), (31, 29), (27, 24), (23, 16), (7, 0)],
      [(47, 0)], [(47, 0)], [(47, 0)], [(47, 32), (31, 0)], [(63, 48), (47, 0)], [(47, 0)], [(63, 32), (31, 0)]] ||
    decide (vecOps op < sub) || decide (4 < fld ws 0 31 29) || rows == 0 || count == 0 || decide (16777216 < count) ||
    a == 3 || decide (2 ≤ b) || ((a == 2 || d == 2) && !conv) || (d == 3 && op != 0x11 && !add) || (add && d != 3) ||
    ((op == 0x12 || (op == 0x13 && sub == 0)) && d != a) ||
    (op == 0x15 && (fld ws 0 33 33 == 1 || decide (1 < a) || (sub == 0 && d != 0) || (sub == 1 && (a != 0 || b != 0 || decide (1 < d)))))
  let much := (op == 0x11 && decide (2 ^ 37 - 1 < rows * count)) || (add && decide (2 ^ 37 - 1 < count))
  stIf stFmt form ++ stIf stCount much

/-- The special-function descriptor (R53, R161). -/
def checkSfu (ws : List Word) : List Nat :=
  stIf stFmt (!onlyWords ws [[(63, 48), (43, 40), (39, 38), (35, 34), (31, 29), (7, 0)], [(47, 0)], [], [(47, 0)], [(47, 32), (31, 0)]] ||
    decide (5 < fld ws 0 43 40) || decide (4 < fld ws 0 31 29) || decide (1 < fld ws 0 39 38) || decide (1 < fld ws 0 35 34) || fld ws 4 47 32 == 0 ||
    fld ws 4 31 0 == 0 || decide (16777216 < fld ws 4 31 0))

/-- The DMA descriptor (R162). -/
def checkDma (ws : List Word) : List Nat :=
  let mode := fld ws 0 43 40
  stIf stFmt (!onlyWords ws [[(63, 48), (43, 40), (36, 36), (7, 0)], [(47, 0)], [(47, 0)], [(47, 0)], [(47, 0)], [(63, 32), (31, 0)],
      [(47, 0)], [(15, 0)]] ||
    decide (4 < mode) || (mode == 0 && fld ws 0 36 36 == 1) || ((mode == 1 || mode == 2 || mode == 4) && fld ws 5 31 0 == 0) ||
    ((mode == 0 || mode == 3) && fld ws 6 47 0 == 0))

/-! ### Control and queue descriptors (R147, R222) -/

/-- A CLUSTER field of DISPATCH or SIGNAL (R147). -/
def State.checkTarget (s : State) (c : Nat) : List Nat :=
  stIf stFmt (c != 0xFFFF && decide (2000 ≤ c)) ++ stIf stFenced (decide (c < 2000) && s.cluFenced c)

/-- The controller's descriptors (R147, R222, R223). -/
def State.checkCtl (s : State) (p : Prog) (g : Nat) (ws : List Word) : List Nat :=
  let q := p.queue? (fld ws 0 47 32)
  match dOp ws with
  | 0x40 =>
    stIf stFmt (!onlyWords ws [[(63, 48), (47, 40), (39, 32), (31, 31), (28, 24), (7, 0)], [(47, 32), (31, 0)]] ||
      decide (43 < fld ws 0 47 40) || fld ws 0 39 32 == 0) ++ s.checkTarget (fld ws 1 47 32) ++
    stIf stFenced (decide (fld ws 0 47 40 < 40) && s.coreFenced (g * 40 + fld ws 0 47 40))
  | 0x41 => stIf stFmt (!onlyWords ws [[(63, 48), (28, 24), (23, 23), (7, 0)], [(31, 0)]])
  | 0x42 => stIf stFmt (!onlyWords ws [[(63, 48), (28, 24), (7, 0)], [(47, 32), (31, 0)]]) ++ s.checkTarget (fld ws 1 47 32)
  | 0x43 => stIf stFmt (!onlyWords ws [[(63, 48), (7, 0)], [(47, 0)]] || fld ws 1 5 0 != 0) ++
      stIf stOperand (!s.savePlace g (fld ws 1 47 0) saveAreas)
  | 0x44 => stIf stFmt (!onlyWords ws [[(63, 48), (47, 32), (7, 0)], [(31, 0)]] || fld ws 0 47 32 == 0)
  | 0x45 => stIf stFmt (!onlyWords ws [[(63, 48), (7, 0)]])
  | 0x48 => stIf stFmt (!onlyWords ws [[(63, 48), (47, 32), (7, 0)], [(47, 0)], [(31, 0)], [(31, 0)]] || decide (fld ws 2 31 0 < 64) ||
      fld ws 2 5 0 != 0) ++ stIf stQueue (match q with | some e => decide (e.slotBytes < fld ws 2 31 0) | none => true) ++
      stIf stOperand (inImage (fld ws 1 47 0))
  | 0x4A => stIf stFmt (!onlyWords ws [[(63, 48), (47, 32), (7, 0)], [(7, 0)], [], [(31, 0)]] || fld ws 1 7 0 == 0) ++
      stIf stQueue (match q with | some e => decide (e.slots < fld ws 1 7 0) | none => true)
  | _ => stIf stFmt (!onlyWords ws [[(63, 48), (47, 32), (7, 0)], [], [], [(31, 0)]]) ++ stIf stQueue q.isNone

/-! ### A list and its loops (R146, R147) -/

/-- An entry of a list: the unit that a DISPATCH sends it to, or none for the controller's own. -/
structure LEnt where
  unit : Option Nat
  ws : List Word
  deriving DecidableEq, Repr

/-- The entries of a list up to its END; none where it runs out of the section, an opcode is not assigned, an entry does not
belong to the unit of its DISPATCH, or an engine's entry stands outside the entries of any DISPATCH (assumption 68). -/
def parseList : List (List Word) → Nat → Nat → Option (List LEnt)
  | [], _, _ => none
  | ws :: rest, 0, u =>
    if opClass (dOp ws) = some 4 ∨ opClass (dOp ws) = some 5 then
      if dOp ws = 0x45 then some [⟨none, ws⟩]
      else if dOp ws = 0x40 then (parseList rest (fld ws 0 39 32) (fld ws 0 47 40)).map (⟨none, ws⟩ :: ·)
      else (parseList rest 0 u).map (⟨none, ws⟩ :: ·)
    else none
  | ws :: rest, n + 1, u =>
    if opClass (dOp ws) = some (unitClass u) then (parseList rest n u).map (⟨some u, ws⟩ :: ·) else none

/-- A loop: its first entry, the LOOP entry, and TIMES. -/
structure LLoop where
  lo : Nat
  hi : Nat
  times : Nat
  deriving DecidableEq, Repr

/-- The loops of a list. -/
def loopsOf (es : List LEnt) : List LLoop :=
  es.zipIdx.filterMap (fun x =>
    if x.1.unit.isNone ∧ dOp x.1.ws = 0x44 then some ⟨x.2 - fld x.1.ws 0 47 32, x.2, fld x.1.ws 1 31 0⟩ else none)

/-- Whether loops reach within the list, begin at a controller entry, nest at most four deep and never overlap otherwise. -/
def loopsOk (es : List LEnt) : Bool :=
  es.zipIdx.all (fun x => x.1.unit.isSome || dOp x.1.ws != 0x44 ||
    (decide (fld x.1.ws 0 47 32 ≤ x.2) && (match es[x.2 - fld x.1.ws 0 47 32]? with | some e => e.unit.isNone | none => false))) &&
  (loopsOf es).all (fun a =>
    !((loopsOf es).any (fun b => decide (b.lo < a.lo) && decide (a.lo ≤ b.hi) && decide (b.hi < a.hi))) &&
    decide (((loopsOf es).filter (fun b => decide (b.lo ≤ a.lo) && decide (a.hi ≤ b.hi))).length ≤ 4))

/-- The four conditions of R80 on STAT_KEEP passes, in the order of the list (assumption 51). `last` holds, for each core with a descriptor
so far, the MODE and SFMT of its last pass, if one came. -/
def keepOk : List LEnt → SMap (Option (Nat × Nat)) → Bool
  | [], _ => true
  | e :: es, last =>
    match e.unit with
    | some u =>
      let before := SMap.get? last u
      if dOp e.ws = 1 then
        let key := (fld e.ws 0 31 30, fld e.ws 0 29 28)
        let ok := fld e.ws 0 34 34 == 0 ||
          ((match before with | none => false | some none => true | some (some k) => k == key) &&
            !(key.1 == 1 && decide (1 < fld e.ws 0 18 16)))
        ok && keepOk es (SMap.set last u (some key))
      else keepOk es (SMap.set last u (before.getD none))
    | none => keepOk es last

/-! ### Contribution counts (R44, R45) -/

/-- A count as the greatest of earlier counts with what was added to each: the key 0 stands for zero, key v + 1 for the count v. -/
abbrev Cnt := SMap Nat

/-- The greatest of two counts. -/
def Cnt.max (x y : Cnt) : Cnt := y.foldl (fun m t => SMap.upd m t.1 0 (Nat.max t.2)) x
/-- A count with more added. -/
def Cnt.add (x : Cnt) (n : Nat) : Cnt := x.map (fun t => (t.1, t.2 + n))
/-- A count that stands as it was. -/
def Cnt.same (v : Nat) : Cnt := [(v + 1, 0)]

/-- What a stretch of a list does to one count: what it is afterwards, and the greatest that it was after any entry of the stretch. -/
structure Eff where
  after : Cnt
  peak : Cnt := []
  deriving DecidableEq, Repr

/-- Effects on counts by key; a count without an entry stays. -/
abbrev Effs := SMap Eff

/-- A count after a stretch. -/
def Effs.of (x : Effs) (v : Nat) : Cnt := match SMap.get? x v with | some e => e.after | none => Cnt.same v
/-- A count given before a second stretch, seen from before the first. -/
def Effs.under (x : Effs) (c : Cnt) : Cnt :=
  c.foldl (fun m t => m.max (if t.1 = 0 then [t] else Cnt.add (x.of (t.1 - 1)) t.2)) []

/-- One stretch after another, count by count. -/
def Effs.andThen (x y : Effs) : Effs :=
  y.foldl (fun m kv =>
    SMap.set m kv.1 { after := x.under kv.2.after, peak := Cnt.max (match SMap.get? x kv.1 with | some e => e.peak | none => []) (x.under kv.2.peak) }) x

/-- A stretch n times over, by squaring. Fuel is a bound on the bits of n. -/
def Effs.times : Nat → Nat → Effs → Effs
  | 0, _, _ => []
  | f + 1, n, x =>
    if n = 0 then []
    else
      let r := Effs.times f (n / 2) (x.andThen x)
      if n % 2 = 1 then x.andThen r else r

/-- Key of a slot. -/
def slotKey (c : Nat) (lx32 : Bool) (i : Nat) : Nat := c * 8192 + b2n lx32 * 4096 + i
/-- Key of what an area holds of a slot, above every slot's. -/
def areaKey (a i : Nat) : Nat := 2 ^ 60 + a * 4096 + i

/-- The effect of one matrix descriptor on a core (R45, R91): a pass adds to its slots, an MRESUME gives its slots the largest count that an
MSPILL has saved in the area. -/
def slotEff (c : Nat) (lx : Bool) (ws : List Word) : Effs :=
  let named := (List.range (fld ws 3 47 32)).map (fld ws 3 31 16 + ·)
  match dOp ws with
  | 1 =>
    let wide := passWide ws
    let n := if fld ws 0 31 30 = 1 then 4 else if wide then 8 else 16
    let m := (passSlots ws).foldl (fun m i => SMap.upd m (slotKey c wide i) 0 (· + n)) ([] : SMap Nat)
    m.map (fun x =>
      let v : Cnt := if fld ws 0 35 35 = 1 then [(0, x.2)] else [(x.1 + 1, x.2)]
      (x.1, { after := v, peak := v }))
  | 2 =>
    if fld ws 0 36 36 = 1 then
      (moutCells ws).foldl (fun m x => SMap.set m (slotKey c (fld ws 0 28 28 == 1) x.2.2) { after := [(0, 0)] }) []
    else []
  | 3 => named.map (fun i =>
      (areaKey (fld ws 1 47 0) i, { after := Cnt.max (Cnt.same (areaKey (fld ws 1 47 0) i)) (Cnt.same (slotKey c lx i)) }))
  | 4 => named.map (fun i =>
      (slotKey c lx i, { after := Cnt.same (areaKey (fld ws 1 47 0) i), peak := Cnt.same (areaKey (fld ws 1 47 0) i) }))
  | 5 => named.map (fun i => (slotKey c lx i, { after := [(0, 0)] }))
  | _ => []

/-- Key of the LX32 slots in memory that begin at an address, above every area's. -/
def memKey (a : Nat) : Nat := 2 ^ 62 + a

/-- The LX32 slots in memory that a descriptor writes or adds to, as a range: a vector sum's exports, a scatter-add's destination, an MOUT's
exports (R88, R156). -/
def lxSpan (ws : List Word) : Option (Nat × Nat) :=
  let dst := fld ws 3 47 0
  if dOp ws = 0x11 ∧ fld ws 0 35 34 = 3 then some (dst, 80 * fld ws 4 47 32)
  else if dOp ws = 0x13 ∧ fld ws 0 47 40 = 1 then some (dst, 80 * fld ws 7 31 0)
  else if dOp ws = 2 ∧ fld ws 0 35 32 = 4 then some (fld ws 1 47 0, 80 * ((fld ws 3 47 32 - 1) * fld ws 4 47 0 + fld ws 3 7 0))
  else none

/-- Join a range to ranges that do not meet. -/
def addSpan (l : List (Nat × Nat)) (x : Nat × Nat) : List (Nat × Nat) :=
  let hit := l.filter (fun y => meets y.1 y.2 x.1 x.2)
  let lo := hit.foldl (fun m y => Nat.min m y.1) x.1
  let hi := hit.foldl (fun m y => Nat.max m (y.1 + y.2)) (x.1 + x.2)
  (lo, hi - lo) :: l.filter (fun y => !meets y.1 y.2 x.1 x.2)

/-- The key that counts the slots of a range, which stands for every slot of the ranges it runs together with (assumption 68). -/
def spanKey (spans : List (Nat × Nat)) (a : Nat) : Nat :=
  memKey (match spans.find? (fun y => decide (y.1 ≤ a) && decide (a < y.1 + y.2)) with | some y => y.1 | none => a)

/-- The effect of a descriptor on the LX32 slots in memory: an export leaves its count, a scatter-add adds each of its elements (R44, R157). -/
def memEff (spans : List (Nat × Nat)) (c : Nat) (ws : List Word) : Effs :=
  match lxSpan ws with
  | none => []
  | some (a, _) =>
    let k := spanKey spans a
    if dOp ws = 0x13 then [(k, { after := [(k + 1, fld ws 4 47 32 * fld ws 4 31 0)], peak := [(k + 1, fld ws 4 47 32 * fld ws 4 31 0)] })]
    else
      let n : Cnt := if dOp ws = 0x11 then [(0, fld ws 4 31 0)]
        else (moutCells ws).foldl (fun m x => m.max (Cnt.same (slotKey c (fld ws 0 28 28 == 1) x.2.2))) []
      [(k, { after := (Cnt.same k).max n, peak := n })]

/-- The effect of entries lo to hi − 1, loops taken whole. Fuel bounds the steps. -/
def segEff (effs : List Effs) (ls : List LLoop) : Nat → Nat → Nat → Effs
  | 0, _, _ => []
  | f + 1, lo, hi =>
    if hi ≤ lo then []
    else match (ls.filter (fun l => l.lo == lo && decide (l.hi < hi))).foldl (fun (m : Option LLoop) l =>
        match m with | some k => if k.hi < l.hi then some l else m | none => some l) none with
    | some l => ((segEff effs ls f lo l.hi).times 33 (l.times + 1)).andThen (segEff effs ls f (l.hi + 1) hi)
    | none => (effs.getD lo []).andThen (segEff effs ls f (lo + 1) hi)

/-- The effect of a context's list, every loop run its TIMES. -/
def listEff (spans : List (Nat × Nat)) (e : CtxE) (es : List LEnt) : Effs :=
  segEff (es.map (fun x => match x.unit with
    | some u =>
      let c := e.cluster * 40 + u
      (memEff spans c x.ws).andThen (if u < 40 then slotEff c e.lx32 x.ws else [])
    | none => [])) (loopsOf es) (8 * es.length + 8) 0 es.length

/-- A count from what areas hold before the list; every slot is cleared (R45). -/
def Cnt.eval (saved : SMap Nat) (c : Cnt) : Nat := c.foldl (fun n t => Nat.max n (t.2 + if t.1 = 0 then 0 else SMap.get saved (t.1 - 1) 0)) 0

/-- What a list can have saved in areas. -/
def Effs.saves (saved : SMap Nat) (x : Effs) : SMap Nat :=
  (x.filter (fun kv => decide (2 ^ 60 ≤ kv.1) && decide (kv.1 < 2 ^ 62))).map (fun kv => (kv.1, kv.2.after.eval saved))

/-- What any of several lists can have saved, the greatest of each. -/
def anySaves (ss : List (SMap Nat)) : SMap Nat := ss.foldl (fun m x => x.foldl (fun m kv => SMap.upd m kv.1 0 (Nat.max kv.2)) m) []

/-- What lists other than the j-th can have saved, the greatest of each. -/
def othersSave (ss : List (SMap Nat)) (j : Nat) : SMap Nat := anySaves ((ss.zipIdx.filter (fun x => x.2 != j)).map (·.1))

/-- What each of several lists can have saved, once counts have passed through n lists. -/
def savedAfter (xs : List Effs) : Nat → List (SMap Nat)
  | 0 => xs.map (fun _ => [])
  | n + 1 => let ss := savedAfter xs n; xs.zipIdx.map (fun x => x.1.saves (othersSave ss x.2))

/-- The largest counts that the tally slots of an image's lists reach, LX16 and LX32: a slot that an area gives back carries the largest count
that any MSPILL of the image can have saved there, its own list's too. Within a list a count passes from spill to resume as often as its
loops turn, and before that at most once through each list (assumption 68). -/
def listPeaks (xs : List Effs) : Nat × Nat :=
  let saved := anySaves (savedAfter xs xs.length)
  xs.foldl (fun m x => x.foldl (fun m kv =>
    if 2 ^ 60 ≤ kv.1 then m
    else
      let n := kv.2.peak.eval saved
      if kv.1 / 4096 % 2 = 0 then (Nat.max m.1 n, m.2) else (m.1, Nat.max m.2 n)) m) (0, 0)

/-- The largest count of LX32 slots in memory over the lists that run in one step: what each list can add comes together (R44). -/
def memPeak (saved : SMap Nat) (xs : List Effs) : Nat :=
  (xs.foldl (fun (m : SMap Nat) x =>
    (x.filter (fun kv => decide (2 ^ 62 ≤ kv.1))).foldl (fun m kv => SMap.upd m kv.1 0 (· + kv.2.peak.eval saved)) m) []).foldl
      (fun n kv => Nat.max n kv.2) 0

/-! ### Contexts -/

/-- The entries of the list sections of a variant from an address to the end of their section. -/
def Prog.entriesAt (p : Prog) (v a : Nat) : List (List Word) :=
  match p.lists.find? (fun l => l.variant == v && decide (l.addr ≤ a) && decide (a < l.addr + 64 * l.entries.length)) with
  | some l => l.entries.drop ((a - l.addr) / 64)
  | none => []

/-- One entry's statuses. -/
def State.checkEntry (s : State) (p : Prog) (e : CtxE) (x : LEnt) : List Nat :=
  match x.unit with
  | none => s.checkCtl p e.cluster x.ws
  | some u =>
    if u < 40 then
      let c := e.cluster * 40 + u
      match dOp x.ws with
      | 1 => s.checkPass c x.ws
      | 2 => s.checkOut x.ws
      | op => checkSlots op e.lx32 x.ws
    else
      (if u < 42 then checkVec x.ws else if u = 42 then checkSfu x.ws else checkDma x.ws) ++
        stIf stOperand ((if u < 42 then [1, 2, 3, 6] else if u = 42 then [1, 3] else [1, 2, 3, 4]).any (fun k => inImage (fld x.ws k 47 0)))

/-- The list of a context. -/
def Prog.ctxList (p : Prog) (e : CtxE) : Option (List LEnt) :=
  if e.list % 64 ≠ 0 then none else parseList (p.entriesAt e.variant e.list) 0 0

/-- The lists of a programme that parse, with their contexts. -/
def Prog.ctxLists (p : Prog) : List (CtxE × List LEnt) := p.ctxE.filterMap (fun e => (p.ctxList e).map (fun l => (e, l)))

/-- The largest counts over the lists of a programme: any of its MSPILLs may have filled an area, and the lists of one variant run in one step
(R44, R45). -/
def Prog.peaks (p : Prog) : Nat × Nat :=
  let spans := (p.ctxLists.flatMap (fun c => c.2.filterMap (fun x => if x.unit.isSome then lxSpan x.ws else none))).foldl addSpan []
  let xs := p.ctxLists.map (fun c => (c.1.variant, listEff spans c.1 c.2))
  let top := listPeaks (xs.map (·.2))
  let saved := anySaves (savedAfter (xs.map (·.2)) xs.length)
  (top.1, ((xs.map (·.1)).eraseDups).foldl (fun m v => Nat.max m (memPeak saved ((xs.filter (fun x => x.1 == v)).map (·.2)))) top.2)

/-- The statuses of a programme's descriptor lists. -/
def State.checkLists (s : State) (p : Prog) : List Nat :=
  (p.ctxE.flatMap (fun e =>
    match p.ctxList e with
    | none => [stFmt]
    | some es => es.flatMap (s.checkEntry p e) ++ stIf stFmt (!loopsOk es) ++ stIf stFmt (!keepOk es []))) ++
  stIf stCount (decide (2 ^ 31 - 1 < p.peaks.1) || decide (2 ^ 37 - 1 < p.peaks.2))

end Sys2Proof.Machine
end

