-- ==== Sys2Proof/Machine/Programme.lean ====
section
/-!
DEFINITION. Validation of programme images and plans (R45, R59, R122, R171, R207 to R211, R219, R223, R226, R231, R233, R263,
R277, R278, R281, R360, R362, R485), how a programme comes to run (R207, R225, R257, R261, R381, R423), and the PROG commands.
Every check answers the statuses it finds; the lowest code of R383 is the answer.
-/

namespace Sys2Proof.Machine

/-- PROG_HEADER. -/
def stHeader : Nat := 0x0101
/-- VARIANT. -/
def stVariant : Nat := 0x0102
/-- ACT_LAYOUT. -/
def stAct : Nat := 0x0103
/-- EXPERT_TABLE. -/
def stExpert : Nat := 0x0105
/-- SEQ_LIMIT. -/
def stSeq : Nat := 0x0106
/-- OFFLOAD. -/
def stOffload : Nat := 0x0107
/-- EPOCH. -/
def stEpoch : Nat := 0x0108
/-- STATE_MAP. -/
def stMap : Nat := 0x0109
/-- RNG_LAYOUT. -/
def stRng : Nat := 0x010B
/-- INDEX_RANGE. -/
def stIndex : Nat := 0x010F
/-- ROUTE_TABLE. -/
def stRoute : Nat := 0x0110
/-- PLAN_FORMAT. -/
def stPlan : Nat := 0x0111
/-- PLAN_ORDER. -/
def stOrder : Nat := 0x0112
/-- ROUND_CONFIG. -/
def stRound : Nat := 0x0113

/-! ### Header and directory (R207, R208, R211) -/

/-- Whether a value lies in a range. -/
def within (lo hi x : Nat) : Bool := decide (lo ≤ x) && decide (x ≤ hi)

/-- The header of an image (R207). -/
def headerOk (img : Bytes) : Bool :=
  decide (256 ≤ img.length) && rd 0 4 img == 0x4752505A && rd 4 2 img == 1 && decide (rd 6 1 img ≤ 1) && rd 7 1 img == 1 &&
  decide (rd 10 1 img < 8) && within 1 3 (rd 11 1 img) && rd 15 1 img == 0 && allZero (slice 56 8 img) && allZero (slice 96 160 img) &&
  within 1 64 (rd 14 1 img) && within 1 64 (rd 16 2 img) && decide (rd 18 2 img < rd 16 2 img) && within 1 1024 (rd 20 2 img) &&
  decide (rd 22 2 img < rd 20 2 img) && rd 24 4 img == rd 16 2 img * rd 20 2 img && within 1 250 (rd 28 2 img) &&
  within 1 250 (rd 30 2 img) && rd 40 8 img % 4096 == 0 && within 1 1024 (rd 54 2 img) &&
  sha3 (img.take 64 ++ zeros 32 ++ img.drop 96) == slice 64 32 img &&
  (rd 6 1 img == 0 || (rd 16 2 img == 1 && rd 20 2 img == 1 && rd 28 2 img == 1 && rd 14 1 img == 1))

/-- The directory and the sections: known types, COUNT 1 where one is given, all within the image. -/
def directoryOk (img : Bytes) (p : Prog) : Bool :=
  let n := rd 54 2 img
  p.sections.all (fun x => within 1 13 x.typ && (x.typ < 10 || x.typ == 13 || x.count == 1)) &&
  (List.range n).all (fun k => rd (256 + 16 * k + 3) 1 img == 0) &&
  decide (sectionsEnd img n 0 (roundUp 64 (256 + 16 * n)) ≤ img.length)

/-- The sections an image needs: declarations, acts, contexts and lists; state map and hyperparameter records to train; plan
and routing table beside other devices; user slots to generate. -/
def sectionsOk (p : Prog) (paired : Bool) : Bool :=
  let has := fun t => p.sections.any (fun x => x.typ == t)
  has 1 && has 4 && has 5 && has 6 && (p.gen || (has 2 && has 3)) && (!(decide (1 < p.group) || paired) || (has 10 && has 11)) &&
  (!p.gen || p.users.length == 4) && ([1, 2, 3, 7, 8, 9, 10, 11, 12, 13].all (fun t => decide ((p.sections.filter (fun x => x.typ == t)).length ≤ 1)))

/-- Entries of a section type as words. -/
def Prog.rawEntries (p : Prog) (t n : Nat) : List Bytes := (entriesOf p.sections t n).map (·.2)

/-- Reserved fields of the tables (R169, R209, R210, R219, R221, R226, R231, R261). ELEMS other than ROWS × COLS is a PROG_HEADER case too
(assumption 50); a tensor beyond 2^48 elements, whose count ELEMS cannot hold, is left to RNG_LAYOUT when it is stochastic (R59). -/
def reservedOk (p : Prog) : Bool :=
  let z := fun (o n : Nat) (e : Bytes) => rd o n e == 0
  (p.rawEntries 1 64).all (fun e => decide (rd 4 4 e < 4) && z 14 2 e && z 22 2 e && z 28 4 e && z 54 10 e && decide (rd 2 1 e ≤ 1) &&
    decide (rd 3 1 e ≤ 3) && rd 0 2 e != 0xFFFF &&
    rd 8 6 e == rd 16 6 e * rd 24 4 e % 2 ^ 48 && (decide (rd 16 6 e * rd 24 4 e ≤ 2 ^ 48) || bit 0 (rd 4 4 e)) && (rd 3 1 e == 0 || z 40 8 e)) &&
  (p.rawEntries 2 64).all (fun e => onlyWords (mkWords e) [[(63, 48), (47, 32), (31, 24), (17, 17), (16, 16), (12, 8), (7, 0)], [(47, 0)],
    [(63, 32), (31, 0)], [(47, 0)], [(47, 0)], [(47, 0)], [(47, 0)]]) &&
  (p.rawEntries 4 32).all (fun e => z 3 1 e && z 10 6 e && z 24 8 e) &&
  (p.rawEntries 5 32).all (fun e => decide (rd 3 1 e < 4) && z 29 3 e && decide (rd 2 1 e < 8)) &&
  (p.rawEntries 7 32).all (fun e => z 24 8 e) &&
  (p.rawEntries 8 16).all (fun e => z 7 1 e && z 12 4 e) &&
  (p.rawEntries 9 32).all (fun e => z 24 8 e) &&
  (p.rawEntries 11 4160).all (fun e => decide (rd 0 4 e < 2 ^ 20) && z 6 2 e && z 40 24 e && (elemsLE 4 (slice 8 32 e)).all (fun a => decide (a < 2 ^ 20)) &&
    (elemsLE 2 (slice 64 4096 e)).all (fun r => bits 14 10 r == 0))

/-- Variants (R211): only types 4, 5 and 6 carry one, they are numbered from 0, at most eight, each with all three types. -/
def checkVariants (p : Prog) : List Nat :=
  let per := p.sections.filter (fun x => x.typ == 4 || x.typ == 5 || x.typ == 6)
  let n := per.foldl (fun (m : Nat) x => max m (x.variant + 1)) 0
  stIf stVariant (p.sections.any (fun x => x.variant != 0 && !per.contains x) || decide (8 < n) || n == 0 ||
    (List.range n).any (fun v => !([4, 5, 6].all (fun t => per.any (fun x => x.typ == t && x.variant == v)))))

/-! ### Places in memory -/

/-- A range of DDR5 that a programme may use: installed, outside the staging area, the partner bank and the HDM window (R8, R360,
R362, R435). -/
def State.ddrRange (s : State) (a n : Nat) : Bool :=
  decide (ddrBase + ddrFixed ≤ a) && decide (a + n ≤ ddrBase + s.ddrBytes) &&
    !meets a n (s.rf oCxlHdm 47 0) (s.rf oCxlHdm 57 48 * 2 ^ 30)

/-- The areas of a state map in memory. -/
def mapAreas (m : List SEntry) : List (Nat × Nat) := m.flatMap (fun e => [(e.hbm, e.hbmBytes), (e.ddr, e.ddrBytes)])

/-- Whether any two ranges of a list meets. -/
def anyOverlap : List (Nat × Nat) → Bool
  | [] => false
  | a :: l => l.any (fun b => meets a.1 a.2 b.1 b.2) || anyOverlap l

/-! ### State map and hyperparameters (R170, R171) -/

/-- An encoding at least zero and finite. -/
def nonneg32 (x : BitVec 32) : Bool := decide (x.toNat < 0x7F800000) || x == 0x80000000
/-- An encoding at least zero and below one. -/
def frac32 (x : BitVec 32) : Bool := decide (x.toNat < 0x3F800000) || x == 0x80000000
/-- An encoding positive and finite. -/
def pos32 (x : BitVec 32) : Bool := decide (0 < x.toNat) && decide (x.toNat < 0x7F800000)
/-- A NaN encoding. -/
def nan32 (x : BitVec 32) : Bool := (decodeF fp32 x.toNat).isNan

/-- Allowed values of a hyperparameter record (R170). -/
def Hyper.ok (h : Hyper) : Bool :=
  frac32 h.beta && frac32 h.beta2 && !nan32 h.eps2 && nonneg32 h.wdMult && nonneg32 h.lrMult &&
  (decide (0x3F800000 < h.blockK.toNat) && decide (h.blockK.toNat ≤ 0x7F800000)) &&
  (decide (0 < h.absBound.toNat) && decide (h.absBound.toNat ≤ 0x7F800000)) && frac32 h.avgBeta

/-- STATE_MAP conditions of one entry. -/
def State.entryOk (s : State) (p : Prog) (e : SEntry) : Bool :=
  decide (e.rule ≤ 3) && decide (e.layer ≤ 249) && (!e.cold || e.lzy) && decide (0 < e.count) && decide (0 < e.rowLen) &&
  (!(e.rule == 3 || e.lzy) || e.count % e.rowLen == 0) && decide (e.strongman < 32) &&
  decide (e.hbm / hbmStack = e.strongman / 4) && decide ((e.hbm + e.hbmBytes - 1) / hbmStack = e.strongman / 4) && e.hbm % 64 == 0 &&
  e.ddr % 64 == 0 && s.ddrRange e.ddr e.ddrBytes &&
  (match p.hyper[e.hp]? with | some h => e.rule != 3 || pos32 h.eps2 || pinf32 h.eps2 | none => false)

/-- STATE_MAP (R171, R360, R362). -/
def State.checkMap (s : State) (p : Prog) : List Nat :=
  let params := p.smap.map (fun e => (e.first, e.count))
  stIf stMap (!(p.smap.all (s.entryOk p)) || !(p.hyper.all Hyper.ok) || anyOverlap params || anyOverlap (mapAreas p.smap) ||
    decide (256 < p.hyper.length))

/-! ### Tensors, sequences, acts, queues, experts, offload -/

/-- INDEX_RANGE and RNG_LAYOUT (R59, R122): total raw size, stochastic outputs. -/
def checkTensors (p : Prog) : List Nat :=
  let raw := fun (t : TensorDecl) => t.elems / 256 * rawSize t.fmt 256 + (if t.elems % 256 = 0 then 0 else rawSize t.fmt (t.elems % 256))
  let st := p.tensors.filter (·.stoch)
  stIf stIndex (p.tensors.any (fun t => t.form == 0 && decide (4294967288 < raw t))) ++
  stIf stRng (st.any (fun t => decide (2 ^ 48 < t.rows * t.cols)) || !decide ((st.map (·.tensor)).Nodup))

/-- SEQ_LIMIT (R159, R211). -/
def checkSeq (p : Prog) : List Nat :=
  stIf stSeq (decide (65536 * p.seqSplit < p.seqMax) || !([512, 1024, 2048, 4096, 8192].contains p.kvb))

/-- Layers of two acts meets. -/
def layersOverlap : List ActE → Bool
  | [] => false
  | a :: l => l.any (fun b => meets a.firstLayer a.layers b.firstLayer b.layers) || layersOverlap l

/-- ACT_LAYOUT (R219). -/
def State.checkActs (s : State) (p : Prog) (img : Bytes) : List Nat :=
  let per := fun v => p.actE.filter (fun a => a.variant == v)
  let lists := (entriesOf p.sections 4 32).all (fun e => decide (rd 16 8 e.2 + 2 * rd 8 2 e.2 ≤ img.length))
  stIf stAct (!lists || p.actE.any (fun a => a.clusters.isEmpty || decide (p.acts ≤ a.act) || decide (1 < a.role) ||
      a.layers == 0 || decide (p.layers < a.firstLayer + a.layers) || a.clusters.any (fun g => decide (2000 ≤ g) || s.cluFenced g)) ||
    (List.range p.variants).any (fun v => !decide (((per v).flatMap (·.clusters)).Nodup) || layersOverlap ((per v).filter (fun a => a.role == 0))))

/-- QUEUE_CREDIT (R221, R223). -/
def checkQueues (p : Prog) : List Nat :=
  let pair := fun (a b d : Nat) => p.queues.any (fun q => q.sender == a && q.receiver == b && q.dir == d)
  stIf stQueue (!decide ((p.queues.map (·.queue)).Nodup) || p.queues.any (fun q => !within 1 64 q.slots || decide (1 < q.dir) ||
      q.slotBytes == 0 || q.slotBytes % 64 != 0 || decide (16777216 < q.slotBytes)) ||
    (!p.gen && (List.range (p.acts - 1)).any (fun k => !pair k (k + 1) 0 || !pair (k + 1) k 1)))

/-- Slots that this device holds lie in the receiving cluster's SRAM or in HBM (R221). -/
def State.checkSlots (s : State) (p : Prog) : List Nat :=
  stIf stOperand (p.queues.any (fun q => q.recvPos == p.position &&
    !(match s.area q.base, s.area (q.base + q.slots * q.slotBytes - 1) with
      | .clu g _, .clu h _ => g == q.recvCluster && h == q.recvCluster
      | .hbm _, .hbm _ => true
      | _, _ => false)))

/-- EXPERT_TABLE (R226). -/
def checkExperts (p : Prog) : List Nat :=
  let layer := fun l => p.experts.filter (fun e => e.layer == l)
  stIf stExpert (!decide ((p.experts.map (fun e => (e.layer, e.expert))).Nodup) || (!p.experts.isEmpty && p.routeGroup == 0) ||
    p.experts.any (fun e => decide ((layer e.layer).length ≤ e.expert) || decide (p.troupeSize ≤ e.home) || !within 1 16 e.active ||
      decide ((layer e.layer).length < e.active) || !within 1 p.routeGroup e.cap || (layer e.layer).any (fun x => x.active != e.active)))

/-- The slots of an offload entry as ranges. -/
def OffE.slotRanges (o : OffE) : List (Nat × Nat) := (List.range o.slots).map (fun k => (o.base + k * o.stride, o.stride))

/-- OFFLOAD (R231, R360, R362). -/
def State.checkOffload (s : State) (p : Prog) : List Nat :=
  stIf stOffload (p.offload.any (fun o => decide (o.slots < p.acts - o.act) || decide (1 < o.dest) || !within 1 8 o.lead || o.stride % 64 != 0 ||
    o.slotRanges.any (fun r => if o.dest = 0 then !(decide (hostWin ≤ r.1) && decide (r.1 + r.2 ≤ cluBase))
      else !s.ddrRange r.1 r.2 || (mapAreas p.smap).any (fun a => meets a.1 a.2 r.1 r.2))))

/-! ### Contexts, copies, the commit record -/

/-- TALLY_RANGE, OPERAND_RANGE and UNIT_FENCED of the context table, the section copies and the commit-record slots (R106, R188,
R208, R209, R408). -/
def State.checkPlaces (s : State) (p : Prog) : List Nat :=
  stIf stTally (p.ctxE.any (fun e => decide ((if e.lx32 then 307 else 1536) < e.firstSlot + e.slots))) ++
  stIf stOperand (p.ctxE.any (fun e => decide (2000 ≤ e.cluster) || e.save % 64 != 0 || !s.savePlace e.cluster e.save saveAreas) ||
    p.sections.any (fun x => x.addr != 0 && !x.data.isEmpty && !s.reach x.addr x.data.length) ||
    (!p.gen && !decide (p.commitRec + 8192 ≤ hbmEnd))) ++
  stIf stFenced (p.ctxE.any (fun e => (List.range 40).any (fun i => bit i e.cores && s.coreFenced (e.cluster * 40 + i))))

/-! ### Routes (R261 to R263) -/

/-- ROUTE_TABLE (R263): every entry is checked, one that is not VALID too; of the device's own LOCAL entry PRI is port 8. The partner's entry is in
LOCAL where it lies in the device's own region, else in REGION. `partner` is what the MIRROR commands declare, if anything. -/
def checkRoute (r : Route) (partner : Option Nat) : List Nat :=
  let own := r.addr % 1024
  let portBad := fun (mate : Bool) (q : Nat) => decide (8 ≤ q ∧ q < 15) || (decide (q < 8) && (!bit q r.mask || (q == r.mirrorPort && !mate)))
  let entryBad := fun (self mate : Bool) (e : Nat) =>
    (!self && portBad mate (rtPri e)) || portBad mate (rtAlt e) || (rtPri e == rtAlt e && rtPri e != 15)
  let mate := fun a => (match partner with | some x => x == a | none => r.mirrorPort < 8 && r.neighbours.getD r.mirrorPort 0xFFFFF == a)
  let lclBad := r.lcl.zipIdx.any (fun x => entryBad (x.2 == own) (mate (r.addr / 1024 * 1024 + x.2)) x.1)
  let regBad := r.region.zipIdx.any (fun x => entryBad false (x.2 != r.addr / 1024 && (List.range 1024).any (fun a => mate (x.2 * 1024 + a))) x.1)
  stIf stRoute (r.addr == 0xFFFFF || rtPri (r.lcl.getD own 0) != 8 || rtValid (r.region.getD (r.addr / 1024) 0) ||
    lclBad || regBad || (decide (8 ≤ r.mirrorPort) && r.mirrorPort != 0xFF) ||
    (match partner with | some x => decide (8 ≤ r.mirrorPort) || r.neighbours.getD r.mirrorPort 0xFFFFF != x | none => false))

/-! ### Plans (R269 to R278) -/

/-- Fields that a plan entry of a type, and for an ALLRED of a RECORD, may use (R270, R271). Only RSEND, GATHER and DISPATCH, which run in a
micro-batch, use PER_MB (assumption 72). -/
def opFields (typ rec_ : Nat) (perMb : Bool) : List (List (Nat × Nat)) :=
  let list := if typ = 2 ∨ typ = 7 then [(63, 56)] else []
  let mb := if perMb then [(55, 24)] else []
  let arg := match typ with | 1 => [(32, 32)] | 2 => [(56, 32)] | 5 => [(63, 32)] | 6 => [(47, 32)] | 7 => [(47, 32)] | _ => []
  let tensor := if (1 ≤ typ ∧ typ ≤ 4) ∨ (typ = 7 ∧ rec_ = 2) then [(31, 16)] else []
  [[(63, 56), (47, 32)] ++ (if typ = 1 ∨ typ = 4 ∨ typ = 5 then [(48, 48)] else []) ++ tensor ++ (if typ = 6 then [(49, 49)] else []),
   if typ ≤ 4 then [(47, 0)] else [], arg ++ [(31, 0)], if typ = 3 then [] else [(47, 0)], list ++ mb ++ [(19, 0)],
   [(63, 48), (44, 40), (31, 0)], [(63, 48), (44, 40), (31, 0)],
   (if perMb then [(63, 48)] else []) ++ (if typ = 1 ∨ typ = 3 then [] else [(47, 0)])]

/-- Whether a range of a tensor begins and ends on shard boundaries of the entries that hold it (R174, R278). -/
def onShards (m : List SEntry) (o : PlanOp) : Bool :=
  decide (0 < o.count) && m.all (fun e => e.tensor != o.tensor || !meets e.first e.count o.first o.count ||
    ((decide (o.first ≤ e.first) || (o.first - e.first) % 65536 == 0) &&
     (decide (e.first + e.count ≤ o.first + o.count) || (o.first + o.count - e.first) % 65536 == 0)))

/-- The direction in which an entry's frames go: 1 out, 2 in, 0 none to a single peer. -/
def PlanOp.dirOf (o : PlanOp) : Nat :=
  match o.typ with | 1 => 1 | 3 => 2 | 4 => 2 | 6 => if o.incoming then 2 else 1 | 7 => 1 | _ => 0

/-- One plan entry against R278. -/
def opOk (p : Prog) (kind : Nat) (route : Nat → Bool) (pl : Plan) (listBytes : Nat) (e : Bytes) : Bool :=
  let o := mkOp e
  let list := decide (o.aux + 4 * o.listN ≤ listBytes)
  let peer := o.peer != 0xFFFFF && route o.peer
  within 1 7 o.typ && (kind == 0 || o.typ == 6 || o.typ == 7) && onlyWords (mkWords e) (opFields o.typ (bits 7 0 o.arg) o.perMb) &&
  (!o.perMb || (decide (1 ≤ o.slots) && o.slotBytes % 64 == 0)) &&
  (match o.typ with
   | 1 => onShards p.smap o && peer
   | 2 => onShards p.smap o && o.peer == 0xFFFFF && list && (o.slot32 || !p.roundedOk) &&
       decide (o.loc / hbmStack = o.jug / 2) && decide ((o.loc + (if o.slot32 then 80 else 16) * o.count - 1) / hbmStack = o.jug / 2)
   | 3 => onShards p.smap o && peer
   | 4 => peer
   | 5 => o.peer == 0xFFFFF && decide (0 < o.rowBytes) && decide (o.aux + 16 * (p.layerExperts o.layer).length ≤ listBytes) &&
       (List.range (p.layerExperts o.layer).length).all (fun i => rd (o.aux + 16 * i + 12) 4 pl.area == 0) &&
       (p.layerExperts o.layer).all (fun x => decide (o.count / max p.routeGroup 1 * x.cap ≤ pl.rows o x.expert))
   | 6 => peer && decide (bits 15 8 o.arg ≤ 6) && o.count % 64 == 0
   | _ => (o.peer == 0xFFFFF || route o.peer) && decide (bits 7 0 o.arg ≤ 3) && list && decide (o.listN ≤ 8) &&
       (bits 7 0 o.arg == 3 || bits 15 8 o.arg == 0))

/-- PLAN_FORMAT and COUNT_LIMIT of a plan's bytes (R45, R278). -/
def checkPlan (p : Prog) (kind : Nat) (route : Nat → Bool) (b : Bytes) : List Nat :=
  let n := rd 8 4 b
  let pl := mkPlan b
  let form := rd 0 4 b == 0x4E4C504A && rd 4 1 b == kind && rd 5 1 b == 0 && rd 6 2 b == p.epoch && within 1 1048576 n &&
    allZero (slice 16 48 b) && decide (planBytes b ≤ b.length)
  let keys := (pl.ops.filter (fun o => o.dirOf != 0 && o.peer != 0xFFFFF)).map (fun o => (o.peer, o.stream, o.dirOf))
  if !form then [stPlan]
  else
    stIf stPlan (!((chunks 64 n (slice 64 (64 * n) b)).all (opOk p kind route pl (rd 12 4 b))) || !decide (keys.Nodup)) ++
    stIf stOperand (pl.ops.any (fun o => inImage o.loc || (o.typ != 2 && o.typ != 7 && inImage o.aux))) ++
    stIf stCount (pl.ops.any (fun o => o.typ == 2 &&
      (if o.slot32 then decide (2 ^ 37 - 1 < o.contrib * max 1 (max p.peaks.1 p.peaks.2)) else decide (2 ^ 31 - 1 < o.contrib * max 1 p.peaks.1))))

/-- PHASE of a PERMUTE or of a completion ALLRED. -/
def PlanOp.phaseOf (o : PlanOp) : Nat := if o.typ = 6 then bits 7 0 o.arg else bits 15 8 o.arg

/-- PLAN_ORDER (R277): no incoming write of a phase overlaps bytes that an outgoing entry of that phase or later reads. -/
def planOrdered (pl : Plan) : Bool :=
  let ps := pl.ops.filter (fun o => o.typ == 6)
  ps.all (fun i => !i.incoming || ps.all (fun o => o.incoming || decide (o.phaseOf < i.phaseOf) || !meets i.loc i.count o.loc o.count))

/-! ### The round configuration (R280, R281) -/

/-- ROUND_CONFIG (R281, R360, R362). -/
def State.checkRound (s : State) (p : Prog) (b : Bytes) : List Nat :=
  let c := mkRound b
  let member := fun k => decide (k < 16) && bit k c.members
  let ok := within 2 (2 ^ 32) c.h && within 1 c.applyMax c.applyMin && decide (c.applyMax ≤ c.h) && decide (c.stale ≤ 3) && member c.site &&
    member c.root && within 1 64 c.ecK && decide (c.ecM ≤ 8) && frac32 c.betaO && pos32 c.etaO &&
    (decide (c.staleFactor.toNat ≤ 0x3F800000) || c.staleFactor == 0x80000000) && within 1 600000 c.exchMs && within 1 600000 c.leadTmo &&
    within 1 600000 c.memberTmo && c.coord != 0xFFFFF && c.coordAlt != 0xFFFFF && rd 17 1 b == 0 && decide (rd 44 4 b < 2 ^ 20) &&
    decide (rd 48 4 b < 2 ^ 20) && rd 52 4 b == 0 && allZero (slice 136 120 b) && c.storeBase % 4096 == 0 && c.storeBytes % 4096 == 0 &&
    (List.range 16).all (fun k => !member k || pos32 (c.weights.getD k 0)) && s.ddrRange c.storeBase c.storeBytes &&
    !((mapAreas p.smap ++ p.offload.flatMap OffE.slotRanges ++ [(s.mirror.region, s.mirror.regionBytes)]).any
      (fun a => meets a.1 a.2 c.storeBase c.storeBytes))
  stIf stRound (!ok)

/-! ### The whole image -/

/-- EPOCH (R233, R263): a division of ownership other than the running one's must carry the next epoch, any other image the
running one; the first image after a device reset is exempt. -/
def State.checkEpoch (s : State) (p : Prog) : List Nat :=
  match s.job.prog with
  | none => []
  | some r =>
    let homes := fun (x : Prog) => x.experts.map (fun e => (e.layer, e.expert, e.home))
    let differ := r.smap != p.smap || r.plan.ops != p.plan.ops || r.plan.area != p.plan.area || homes r != homes p || r.route != p.route
    stIf stEpoch (s.job.everRun && p.epoch != (if differ then (r.epoch + 1) % 65536 else r.epoch))

/-- The partner that the MIRROR commands have declared. -/
def State.declared (s : State) : Option Nat := if s.mirState = 0 then none else some s.partner

/-- Every status that an image meets. -/
def State.checkImage (s : State) (img : Bytes) (p : Prog) : List Nat :=
  let sec := fun t => (p.sections.find? (fun x => x.typ == t)).map (·.data)
  stIf stHeader (!reservedOk p) ++ checkVariants p ++ s.checkActs p img ++ checkQueues p ++ s.checkSlots p ++ checkExperts p ++ checkSeq p ++
  s.checkOffload p ++ s.checkEpoch p ++ s.checkMap p ++ checkTensors p ++ s.checkPlaces p ++ s.checkLists p ++
  (match sec 11 with | some _ => checkRoute p.route s.declared | none => []) ++
  (match sec 10 with | some b => checkPlan p 0 (fun a => rtValid (p.route.entry a)) b | none => []) ++
  (match sec 12 with | some b => s.checkRound p b | none => [])

/-- Validation of a whole image (R207, R211): 0, or the lowest status code it meets. -/
def State.validate (s : State) (img : Bytes) : Nat :=
  if !headerOk img then stHeader
  else
    let p := mkProg img
    if !directoryOk img p || !sectionsOk p s.declared.isSome then stHeader
    else match (s.checkImage img p).foldl (fun (m : Option Nat) x => match m with | some y => some (min x y) | none => some x) none with
    | some st => st
    | none => 0

/-! ### How a programme comes to run -/

/-- A core on which no context has state. -/
def Core.unplaced (c : Core) : Core := { c with saved := [], live := [], void := [] }

/-- The hash of a programme's round configuration. -/
def Prog.roundHash (p : Prog) : Bytes := match p.round with | some c => c.hash | none => []

/-- A programme becomes the running one: its sections are copied to their addresses (R208), the routing table is loaded (R261,
R262), every stream starts at SEQ 0 and every attempt count at 0 (R257, R258), variant 0 runs, the coordinator's role returns to
COORD (R423), and no context has state on a core. Under a new epoch the reduction engines keep their old sets until its first commit (R237).
A job that ROUND_STUCK holds goes on only under another round configuration (R292). -/
def State.activate (s : State) (p : Prog) : State :=
  let same := match s.job.prog with | some r => r.epoch == p.epoch | none => true
  let t := p.sections.foldl (fun t x => if x.addr = 0 then t else (t.store x.addr x.data).1) s
  let t := (t.wf oSiteId 19 0 p.route.addr).wf oSiteId 27 24 p.route.mirrorPort
  let coord := match p.round with | some c => c.coord | none => 0xFFFFF
  let t : State := ({ t with
    job := { t.job with staged := none, prog := some p, everRun := true, variant := 0, attempts := [], genDone := 0, genUsers := [], genNext := 0 }
    jug := { t.jug with newEpochCommit := same && t.jug.newEpochCommit }
    cores := t.cores.map (fun (c : Nat × Core) => (c.1, c.2.unplaced))
    qs := []
    fabric := { t.fabric with tx := [], rx := [], arrived := [] }
    rounds := { t.rounds with coord := coord == p.route.addr && p.round.isSome, coordNow := coord, reports := []
                              newCfg := t.rounds.stuck && s.job.prog.any (fun (r : Prog) => r.roundHash != p.roundHash) } }).storeReg.timeRole
  if t.mirState = 1 then t.restreamAll else t

/-- The members of the barrier group that the commit query asks, in ascending site address: every other member, and any peer that the plan
names beside them (R191, R271). -/
def Prog.groupMembers (p : Prog) : List Nat :=
  let all := p.groupAddrs ++ p.plan.ops.flatMap (fun o => (if o.peer = 0xFFFFF then [] else [o.peer]) ++ (if o.typ = 2 ∨ o.typ = 7 then p.plan.listOf o else []))
  (all.eraseDups.filter (fun a => a != p.route.addr)).insertionSort (· ≤ ·)

/-- A device in PHASE 1 asks the reachable members of its group for the merged record of the step after the committed one; without any,
no member has flipped and PHASE is settled at 0 (R191). -/
def State.askGroup (s : State) : State :=
  match s.job.prog with
  | none => s
  | some p =>
    let n := s.committed + 1
    let ms := p.groupMembers.filter (fun a => rtValid (p.route.entry a))
    if ms.isEmpty then s.wf oCommitState 1 0 0
    else
      let t := { s with strg := { s.strg with query := some { step := BitVec.ofNat 64 n, members := ms, answered := [] } } }
      ms.foldl (fun u a => u.send a (.query (BitVec.ofNat 64 n))) t

/-- PROG_RUN takes effect once no step runs or waits: the staged programme becomes the running one; with PHASE 1 the group is
asked first and the command completes when PHASE is settled (R191, R381). -/
def State.runDue (s : State) : State :=
  match s.job.runWait, s.job.staged with
  | some tag, some p =>
    let before := (s.mbx.taken.takeWhile (fun x => x.tag != tag)).any (fun x => x.opcode == 0x0601 && !x.started)
    if s.job.running.isSome ∨ s.job.queue ≠ [] ∨ before then s
    else
      let t := s.activate p
      let t := if t.phase = 1 then t.askGroup else t
      if t.strg.query.isSome then t else ({ t with job := { t.job with runWait := none } }).doneTag tag 0
  | _, _ => s

/-! ### Rings that doze (R458) -/

/-- The addresses that a descriptor of a list names (R87, R88, R90, R147, R155, R161, R162, R222). -/
def listAddrs (ws : List Word) : List Nat :=
  let w := fun (i : Nat) => fld ws i 47 0
  match dOp ws with
  | 1 => (if fld ws 0 34 34 = 1 then [] else [w 1]) ++ [w 2]
  | 2 | 3 | 4 | 0x43 | 0x48 => [w 1]
  | 0x10 | 0x11 | 0x12 | 0x13 | 0x14 | 0x15 => [w 1, w 2, w 3, w 6]
  | 0x20 => [w 1, w 3]
  | 0x30 => [w 1, w 2, w 3, w 4]
  | _ => []

/-- The ring that an address lies in: of an HBM stack, a cluster's SRAM or a core's local memory (R8). -/
def ringOf (a : Nat) : List Nat :=
  if a < hbmEnd then [a / hbmStack]
  else if cluBase ≤ a ∧ a < cluBase + 0x200000000 then [(a - cluBase) / 0x40000000]
  else if coreBase ≤ a ∧ a < coreBase + 0x200000000 then [(a - coreBase) / 0x40000000]
  else []

/-- The areas that a programme names on this device, by first address and length, but for those of its descriptors (R169, R208 to R210, R221,
R231, R241, R271). -/
def Prog.areas (p : Prog) : List (Nat × Nat) :=
  p.smap.map (fun e => (e.hbm, e.hbmBytes)) ++
  p.tensors.flatMap (fun t => [(t.base, if t.form = 0 then 1 else t.elems * t.width), (t.index, 4 * (t.nblocks + 1))]) ++
  p.sections.map (fun x => (x.addr, x.data.length)) ++ p.ctxE.flatMap (fun c => [(c.list, 1), (c.save, saveAreas)]) ++
  (p.queues.filter (fun q => q.recvPos == p.position)).map (fun q => (q.base, q.slots * q.slotBytes)) ++
  p.offload.map (fun o => (o.base, o.slots * o.stride)) ++
  p.plan.ops.flatMap (fun o => [(o.loc, if o.typ = 2 then (if o.slot32 then 80 else 16) * o.count else 1)] ++ (if o.typ = 4 then [(o.aux, 1)] else [])) ++
  p.users.flatMap (fun u => [(u.kv, u.kvBytes), (u.scores, 4 * u.vocab), (u.tokens, 1)]) ++ [(p.commitRec, 8192)]

/-- The clusters that a programme names: in its act and context tables, queues, plan and descriptors. -/
def Prog.named (p : Prog) : List Nat :=
  (p.allClusters ++ p.ctxE.map (·.cluster) ++ (p.queues.filter (fun q => q.recvPos == p.position)).map (·.recvCluster) ++
    p.plan.ops.flatMap (fun o => [o.trigClu, o.sigClu]) ++
    (p.lists.flatMap (·.entries)).flatMap (fun ws => if dOp ws = 0x40 ∨ dOp ws = 0x42 then [fld ws 1 47 32] else [])).filter (fun c => decide (c < 2000))

/-- The rings that a programme names: those of its clusters, Strongmen and Jugglers, and those whose memories its areas and its descriptors'
addresses lie in (R458). -/
def Prog.rings (p : Prog) : List Nat :=
  (p.named.map (· / 250) ++ p.smap.map (fun (e : SEntry) => e.strong / 4) ++ p.plan.ops.map (fun (o : PlanOp) => o.jug / 2) ++
    ((p.areas.filter (fun (a : Nat × Nat) => decide (a.1 ≠ 0))).flatMap (fun (a : Nat × Nat) => [a.1, a.1 + max 1 a.2 - 1]) ++
      (p.lists.flatMap (fun (l : ListSec) => l.entries)).flatMap listAddrs).flatMap ringOf).eraseDups

/-- Whether a programme names a ring that dozes (R458). -/
def State.namesDozing (s : State) (p : Prog) : Bool := p.rings.any (fun r => s.rf oPwrStatus (44 + r) (44 + r) == 1)

/-! ### The PROG commands -/

/-- PROG_LOAD (R207, R380): one piece; the last starts validation, and a rejected image loads nothing. -/
def execProgLoad (tag : BitVec 32) (s : State) : Out :=
  withCmd s tag 0x0501 fun s t =>
    let off := rd 0 8 t.payload
    let total := rd 8 8 t.payload
    let piece := t.payload.drop 16
    if s.reshard.any (fun r => !r.forced) then s.done t 5
    else if 1073741824 < total then s.done t 2
    else
      let cur : Option Staging := if off = 0 then some { total := total, data := [] } else s.job.staging
      match cur with
      | none => s.done t 2
      | some g =>
        if g.total ≠ total ∨ g.data.length ≠ off ∨ total < off + piece.length then s.done t 2
        else
          let data := g.data ++ piece
          let s := if off = 0 then { s with job := { s.job with staged := none } } else s
          if data.length < total then ({ s with job := { s.job with staging := some { g with data := data } } }).done t 0
          else
            let st := s.validate data
            ({ s with job := { s.job with staging := none, staged := if st = 0 then some (mkProg data) else none } }).done t st

/-- PROG_RUN (R191, R381): at once, or after the last queued step; given again, it runs once the steps before it have ended. -/
def execProgRun (tag : BitVec 32) (s : State) : Out :=
  if s.job.runWait = some tag then go s.runDue
  else withCmd s tag 0x0502 fun s t =>
    match s.job.staged with
    | none => s.done t 0x0501
    | some p =>
      if s.reshard.isSome then s.done t 5
      else if s.namesDozing p ∨ s.job.prog.any s.namesDozing then s.done t 0x000A
      else if s.job.prog.any (fun r => r.epoch != p.epoch) then s.done t stEpoch
      else ({ s with job := { s.job with runWait := some t.tag } }).runDue

/-- PROG_DISCARD (R381): the staged image goes; one that a LAYOUT names stays. -/
def execProgDiscard (tag : BitVec 32) (s : State) : Out :=
  withCmd s tag 0x0503 fun s t =>
    if s.reshard.isSome then s.done t 5
    else ({ s with job := { s.job with staging := none, staged := none } }).done t 0

end Sys2Proof.Machine
end

