-- ==== Sys2Proof/Machine/Rounds.lean ====
section
/-!
DEFINITION. The manifest protocol between coordinators (R282, R291 to R299), late joiners (R302), and the coordinator's role (R423).
A coordinator reaches another site through this device's first range-map peer there; inside the site its frames travel as CTRL
messages, and such a relayed frame arrives as the same command without tags, from address 0, in clear (assumption 38). Payloads the
manual gives no layout for follow assumption 37.
-/

namespace Sys2Proof.Machine

/-! ### Frames between coordinators -/

/-- Open a control frame for the coordinator: the sending site and the payload. A device that is not the coordinator hands a frame from
outside on to it. -/
def State.openCtl (s : State) (f : BjnFrame) (typ : Nat) : State × Option (Nat × Bytes) :=
  if f.ctags = 0 ∧ f.srcMac = 0 then
    (s, if rd 0 1 f.bytes = typ then some (rd 6 1 f.bytes % 16, (f.bytes.drop 32).take (rd 4 2 f.bytes)) else none)
  else match s.takeSingle f typ with
  | (t, none) => (t, none)
  | (t, some (p, pt)) => if t.rounds.coord then (t, some (p.site, pt)) else (t.send t.rounds.coordNow (.relay typ pt), none)

/-- The sites of a member mask. -/
def sitesOf (m : Nat) : List Nat := (List.range 16).filter (fun k => bit k m)

/-- The open round: closed here and not applied. -/
def State.openK (s : State) : Option Nat := if s.rounds.applied then none else s.rounds.open_.map (·.toNat)

/-! ### Reports (R291) -/

/-- The highest step released. -/
def State.released (s : State) : Nat := match s.job.running with | some j => j.n.toNat | none => s.committed

/-- This device's report (R291). -/
def State.ownReport (s : State) : RoundReport :=
  let k := s.rounds.open_.getD 0
  { src := BitVec.ofNat 20 s.self, closed := k, released := BitVec.ofNat 64 s.released,
    complete := s.rotation.flatMap (fun y => (List.range 4).filterMap (fun a =>
      if a < k.toNat ∧ s.holdsDelta y (k - BitVec.ofNat 64 a) then some (y, a) else none)) }

/-- What a report says of a delta of round j. -/
def reportHas (r : RoundReport) (site j : Nat) : Bool := decide (j ≤ r.closed.toNat) && r.complete.contains (site, r.closed.toNat - j)

/-- The reports of the whole site: this device's, the latest of every other device of the group, and those of any other device that reports here. -/
def State.siteReports (s : State) : List (Option RoundReport) :=
  let others := match s.job.prog with | some p => p.groupMembers | none => []
  some s.ownReport :: others.map (fun a => s.rounds.reports.find? (fun r => r.src.toNat == a)) ++
    (s.rounds.reports.filter (fun r => !others.contains r.src.toNat && r.src.toNat != s.self)).map some

/-- The site's combined report (R291): the AND of the completion bits, the maximum of the released steps. -/
def State.combined (s : State) : Have :=
  let rs := s.siteReports
  let k := s.rounds.open_.getD 0
  let rel := rs.foldl (fun (m : Nat) r => match r with | some x => max m x.released.toNat | none => m) 0
  { round := k, released := BitVec.ofNat 64 rel,
    complete := s.rotation.flatMap (fun y => (List.range 4).filterMap (fun a =>
      if a < k.toNat ∧ rs.all (fun r => match r with | some x => reportHas x y (k.toNat - a) | none => false) then some (y, a) else none)) }

/-- A HAVE payload: round, highest released step, completion bits of 16 sites by 4 ages. -/
def Have.bytes (h : Have) : Bytes :=
  le 8 h.round.toNat ++ le 8 h.released.toNat ++ le 8 (h.complete.foldl (fun (a : Nat) x => a + 2 ^ (4 * x.1 + x.2)) 0)

/-- A report from its payload. -/
def mkHave (b : Bytes) : Have :=
  { round := BitVec.ofNat 64 (rd 0 8 b), released := BitVec.ofNat 64 (rd 8 8 b),
    complete := (List.range 16).flatMap (fun y => (List.range 4).filterMap (fun a => if bit (4 * y + a) (rd 16 8 b) then some (y, a) else none)) }

/-- What a HAVE says of a delta of round j. -/
def Have.has (h : Have) (site j : Nat) : Bool := decide (j ≤ h.round.toNat) && h.complete.contains (site, h.round.toNat - j)

/-- The coordinator sends its site's HAVE to the lead of the open round (R291). -/
def State.sendHave (s : State) : State :=
  if !s.rounds.coord ∨ s.openK.isNone ∨ s.rounds.sealed_.isSome then s
  else
    let h := s.combined
    let t := { s with rounds := { s.rounds with haves := SMap.set s.rounds.haves s.site h } }
    let lead := s.rf oBjnRoundState 60 56
    if lead = s.site then t else t.toSite lead 5 h.bytes

/-- DEVICE_REPORT (R291): the device reports to its coordinator, or a report arrives there; a changed combination goes to the lead. -/
def execDeviceReport (arrived : Option RoundReport) (s : State) : Out :=
  match arrived with
  | none => go (if s.cfg?.isNone then s else if s.rounds.coord then s.sendHave else s.send s.rounds.coordNow (.report s.ownReport))
  | some r =>
    if !s.rounds.coord then go s
    else
      let t := { s with rounds := { s.rounds with reports := s.rounds.reports.filter (fun x => x.src != r.src) ++ [r] } }
      go (if SMap.get? t.rounds.haves t.site = some t.combined then t else t.sendHave)

/-- HAVE_TIMER (R291): at least every 10 ms until the round is sealed. -/
def execHaveTimer (s : State) : Out := go s.sendHave

/-- HAVE (R291): a site's combined report arrives at the lead. -/
def execHaveFrame (f : BjnFrame) (s : State) : Out :=
  match s.openCtl f 5 with
  | (t, none) => go t
  | (t, some (site, b)) => go (if t.rounds.coord then { t with rounds := { t.rounds with haves := SMap.set t.rounds.haves site (mkHave b) } } else t)

/-! ### What a manifest lists (R294 to R296) -/

/-- The latest HAVE of a site; this device's own site's is the combination of the moment. -/
def State.haveOf (s : State) (site : Nat) : Option Have := if site = s.site then some s.combined else SMap.get? s.rounds.haves site

/-- An integer power of a dyadic. -/
def Dy.pow (x : Dy) : Nat → Dy
  | 0 => Dy.ofInt 1
  | n + 1 => x.mul (x.pow n)

/-- The raw weight of a site's delta of some age (R295). -/
def rawWeight (c : RoundCfg) (site age : Nat) : Dy := (dy32 (c.weights.getD site 0)).mul ((dy32 c.staleFactor).pow age)

/-- The entries of a manifest of round k over members (R294, R295). Weights that sum to zero have no quotient, and each is a free value. -/
def State.manifestEntries (s : State) (c : RoundCfg) (k : Nat) (members : List Nat) : List (Nat × BitVec 32 × Word) :=
  let listed := members.filterMap (fun y =>
    ((List.range (c.stale + 1)).find? (fun a => decide (a < k) && members.all (fun z => (s.haveOf z).any (fun h => h.has y (k - a))))).map (fun a => (y, a)))
  let tot := listed.foldl (fun (d : Dy) x => d.add (rawWeight c x.1 x.2)) ⟨0, 0⟩
  listed.map (fun x =>
    let r := rawWeight c x.1 x.2
    (x.1, if tot.n = 0 then (Config.freeValue s.free).truncate 32 else f32q r.n tot.n.natAbs (r.e - tot.e), BitVec.ofNat 64 (k - x.2)))

/-- The application step (R296). -/
def State.manifestStep (s : State) (c : RoundCfg) (k : Nat) (members : List Nat) : Nat :=
  let rmax := members.foldl (fun (m : Nat) z => match s.haveOf z with | some h => max m h.released.toNat | none => m) 0
  max (k * c.h + c.applyMin) (rmax + 1)

/-- The member mask of a list of sites. -/
def maskOf (l : List Nat) : Nat := l.foldl (fun (a : Nat) k => a + 2 ^ k) 0

/-- The next attempt of round k after `a` that belongs to this site (R292); none beyond 255. -/
def State.nextOwn (s : State) (k a : Nat) : Option Nat :=
  (List.range 256).find? (fun x => decide (a < x) && s.leadOf k x == s.site)

/-- ROUND_STUCK (R292). -/
def State.roundStuck (s : State) (k : Nat) : State :=
  (({ s with rounds := { s.rounds with stuck := true } }).roundState 6).roundRec k 6 k

/-! ### Sealing (R297) -/

/-- A sealed manifest takes effect at this device, with the hashes of the deltas that it holds (R297, R328). -/
def State.sealHere (s : State) (m : Manifest) : State := s.sealWith m (m.entries.map (fun e => sha3 (s.siteDelta e.1 e.2.2)))

/-- A SEAL payload: round, attempt, hash of the manifest (R288). -/
def sealBytes (m : Manifest) : Bytes := le 8 m.round.toNat ++ le 1 m.attempt ++ zeros 7 ++ sha3 m.bytes

/-- The lead seals: every other member gets SEAL, and the devices of the own site learn of it (R297). -/
def State.sealAll (s : State) (m : Manifest) : State :=
  let t := (sitesOf m.members).foldl (fun t z => if z = t.site then t else t.toSite z 8 (sealBytes m)) (s.sealHere m)
  t.send toGroup (.relay 8 (sealBytes m))

/-- Whether the site can accept a manifest (R296): 0, or a reason: 1 another configuration, 2 a delta missing, 3 the step released, 4 a
sealed manifest held, 5 a higher attempt held. -/
def State.refusal (s : State) (m : Manifest) : Nat :=
  let h := s.combined
  let hash := match s.cfg? with | some c => c.hash | none => []
  if m.cfg ≠ fit 32 hash then 1
  else if s.rounds.sealed_.any (fun x => x.round == m.round) then 4
  else if s.rounds.coordHeld.any (fun x => x.round == m.round && decide (m.attempt < x.attempt)) then 5
  else if !(m.entries.all (fun e => h.has e.1 e.2.2.toNat)) then 2
  else if m.step.toNat ≤ h.released.toNat then 3
  else 0

/-- This device holds the release of a manifest's STEP (R296). -/
def State.holdFor (s : State) (m : Manifest) : State :=
  let t := { s with rounds := { s.rounds with held := some m, attempt := max s.rounds.attempt m.attempt } }
  (t.roundState 2).holdsManifest m

/-- The site accepts: every device of it holds the release of STEP (R296). -/
def State.acceptHere (s : State) (m : Manifest) : State :=
  let t := s.holdFor m
  ({ t with rounds := { t.rounds with coordHeld := some m } }).send toGroup (.relay 6 m.bytes)

/-- The lead issues a manifest: it goes to every other member, and the own site answers it at once; with every acceptance in, it is
sealed. -/
def State.issue (s : State) (m : Manifest) : State :=
  let t := { s with rounds := { s.rounds with querying := false, issued := some m, accepts := [], attempt := m.attempt } }
  let t := (sitesOf m.members).foldl (fun t z => if z = t.site then t else t.toSite z 6 m.bytes) t
  if s.refusal m ≠ 0 then t
  else
    let t := t.acceptHere m
    let t := { t with rounds := { t.rounds with accepts := [s.site] } }
    if (sitesOf m.members).all (fun z => z == s.site) then t.sealAll m else t

/-- Build and issue an attempt of the open round over members (R293 to R296). -/
def State.issueNew (s : State) (c : RoundCfg) (k a : Nat) (members : List Nat) : State :=
  let m : Manifest := { round := BitVec.ofNat 64 k, step := BitVec.ofNat 64 (s.manifestStep c k members), lead := s.site, attempt := a,
                        members := maskOf members, cfg := fit 32 c.hash, entries := s.manifestEntries c k members }
  let t := if m.entries.isEmpty then s else { s with free := s.free + 1 }
  t.issue m

/-- The members of an attempt: the rotation, with the sites whose join is asked for (R302). -/
def State.members (s : State) : List Nat := (List.range 16).filter (fun z => s.rotation.contains z || bit z s.rounds.joinReqs)

/-- MANIFEST_ISSUE (R293): the site that attempt 0 belongs to issues it; later attempts follow from refusals, drops and silence. -/
def execManifestIssue (s : State) : Out :=
  match s.openK, s.cfg? with
  | some k, some c =>
    if !s.rounds.coord ∨ s.rounds.sealed_.isSome ∨ s.rounds.issued.isSome ∨ s.rounds.stuck ∨ s.replay.on ∨ s.leadOf k 0 ≠ s.site ∨
        s.rounds.attempt ≠ 0 then go s
    else go (s.issueNew c k 0 s.members)
  | _, _ => go s

/-- A MACK payload: round, attempt, accept, reason, whether a sealed manifest follows, the released step, a manifest held. -/
def State.mackBytes (s : State) (m : Manifest) (why : Nat) : Bytes :=
  let other := if why = 4 then s.rounds.sealed_ else if why = 5 then s.rounds.coordHeld else none
  le 8 m.round.toNat ++ le 1 m.attempt ++ le 1 (b2n (decide (why = 0))) ++ le 1 why ++ le 1 (b2n (decide (why = 4))) ++ zeros 4 ++
    le 8 s.combined.released.toNat ++ (match other with | some x => x.bytes | none => [])

/-- MANIFEST (R296): the coordinator answers with a MACK; a device that the coordinator tells of a manifest holds its release. Deltas that it lists
and that are missing here are asked for (R304). -/
def execManifest (f : BjnFrame) (s : State) : Out :=
  match s.openCtl f 6 with
  | (t, none) => go t
  | (t, some (site, b)) =>
    let m := mkManifest b
    if t.rounds.coord then
      let why := t.refusal m
      let t := if t.openK = some m.round.toNat then
          { t with rounds := { t.rounds with attempt := max t.rounds.attempt m.attempt
                                             querying := t.rounds.querying && decide (m.attempt ≤ t.rounds.queryAt) } }
        else t
      let u := (if why = 0 then t.acceptHere m else t).toSite site 7 (t.mackBytes m why)
      go (if why = 2 then u.askMissing m else u)
    else if t.rounds.sealed_.any (fun x => x.round == m.round) then go t
    else go ((t.holdFor m).askMissing m)

/-- The lead's next attempt after a refusal: with the content of a sealed manifest returned, or with a new STEP (R296). Where no attempt up to 255 belongs
to this site any more, the others go on; after attempt 255 the round is stuck (R292). -/
def State.nextAttempt (s : State) (c : RoundCfg) (k : Nat) (m : Manifest) (above : Nat) (returned : Option Manifest) (members : List Nat) : State :=
  match s.nextOwn k (max m.attempt above) with
  | none =>
    if 255 ≤ max m.attempt above then s.roundStuck k else { s with rounds := { s.rounds with issued := none } }
  | some a =>
    match returned with
    | some r => s.issue { r with lead := s.site, attempt := a }
    | none => s.issueNew c k a members

/-- Issue a manifest whose content another attempt had; where the own site refuses it, the next attempt follows at once (R296, R298). -/
def State.reissue (s : State) (c : RoundCfg) (k : Nat) (m : Manifest) : State :=
  let t := s.issue m
  if s.refusal m = 0 then t
  else t.nextAttempt c k m ((s.rounds.coordHeld.map (·.attempt)).getD 0) none (sitesOf m.members)

/-- MACK (R296, R297): an acceptance, with the last of which the lead seals, or a refusal, after which it issues its next attempt. A
refusal that returns the sealed manifest whose content the attempt repeats counts as an acceptance. -/
def execMack (f : BjnFrame) (s : State) : Out :=
  match s.openCtl f 7 with
  | (t, none) => go t
  | (t, some (site, b)) =>
    match t.rounds.issued, t.openK, t.cfg? with
    | some m, some k, some c =>
      if !t.rounds.coord ∨ t.rounds.sealed_.isSome ∨ rd 0 8 b ≠ k ∨ rd 8 1 b ≠ m.attempt ∨ !bit site m.members then go t
      else
        let ret := if 24 < b.length then some (mkManifest (b.drop 24)) else none
        let same := ret.any (fun r => r.step == m.step && r.members == m.members && r.entries == m.entries)
        if rd 9 1 b = 1 ∨ (rd 11 1 b = 1 ∧ same) then
          let acc := if t.rounds.accepts.contains site then t.rounds.accepts else t.rounds.accepts ++ [site]
          let u := { t with rounds := { t.rounds with accepts := acc } }
          go (if (sitesOf m.members).all acc.contains then u.sealAll m else u)
        else
          let old := t.haveOf site
          let h : Have := { round := BitVec.ofNat 64 k, released := BitVec.ofNat 64 (rd 16 8 b),
                            complete := ((old.map (·.complete)).getD []).filterMap (fun x =>
                              let age := x.2 + (k - (old.map (·.round.toNat)).getD k)
                              if age < 4 then some (x.1, age) else none) }
          let u := { t with rounds := { t.rounds with haves := SMap.set t.rounds.haves site h } }
          go (u.nextAttempt c k m ((ret.map (·.attempt)).getD 0) (if rd 11 1 b = 1 then ret else none) (sitesOf m.members))
    | _, _, _ => go t

/-- SEAL (R297): the member seals the manifest it holds, and its coordinator tells the site. A coordinator knows it by the manifest that it accepted. -/
def execSeal (f : BjnFrame) (s : State) : Out :=
  match s.openCtl f 8 with
  | (t, none) => go t
  | (t, some (_, b)) =>
    match (if t.rounds.coord then t.rounds.coordHeld.orElse (fun _ => t.rounds.held) else t.rounds.held) with
    | some m =>
      if t.rounds.sealed_.isSome ∨ sealBytes m ≠ b then go t
      else
        let u := t.sealHere m
        go (if u.rounds.coord then u.send toGroup (.relay 8 b) else u)
    | none => go t

/-! ### A silent lead (R298, R299) -/

/-- A successor proceeds with the replies it holds: it seals a sealed manifest unchanged, re-issues the one of the highest attempt, or
builds a new one. -/
def State.proceed (s : State) (c : RoundCfg) (k a : Nat) : State :=
  let mine := match s.rounds.sealed_.orElse (fun _ => s.rounds.coordHeld) with | some m => if m.round.toNat = k then [(m, s.rounds.sealed_.isSome)] else [] | none => []
  let all := mine ++ s.rounds.replies.filterMap (fun r => r.2)
  let s := { s with rounds := { s.rounds with querying := false } }
  match all.find? (fun x => x.2) with
  | some x => s.sealAll x.1
  | none =>
    match all.foldl (fun (b : Option Manifest) x => match b with | some y => if y.attempt < x.1.attempt then some x.1 else b | none => some x.1) none with
    | some m => s.reissue c k { m with lead := s.site, attempt := a }
    | none => s.issueNew c k a s.members

/-- Ask every member of a round for the manifest that it holds (R298). -/
def State.queryAll (s : State) (k a : Nat) : State :=
  (s.rotation.filter (· != s.site)).foldl (fun u z => u.toSite z 9 (le 8 k ++ le 1 a)) s

/-- LEAD_SILENCE (R298): where no MANIFEST of the current attempt is held, the coordinator that owns the next attempt takes the lead and queries every
member; elsewhere the next attempt's owner is noted, and a query for an attempt before it ends. When the last attempt has brought no seal, whether its
manifest is held or not, every device of the site finds the round stuck (R292). -/
def execLeadSilence (s : State) : Out :=
  match s.openK, s.cfg? with
  | some k, some c =>
    let a := s.rounds.attempt + 1
    let holds := (if s.rounds.coord then s.rounds.coordHeld else s.rounds.held).any (fun m => m.round.toNat == k && m.attempt == s.rounds.attempt)
    if s.rounds.sealed_.isSome ∨ s.rounds.stuck ∨ s.replay.on then go s
    else if 255 < a then go (s.roundStuck k)
    else if holds then go s
    else
      let t := { s with rounds := { s.rounds with attempt := a, querying := false } }
      let t := t.wf oBjnRoundState 60 56 (s.leadOf k a)
      if s.leadOf k a ≠ s.site ∨ !s.rounds.coord then go t
      else
        let t := { t with rounds := { t.rounds with querying := true, queryAt := a, replies := [], issued := none, accepts := [] } }
        let u := t.queryAll k a
        go (if (t.rotation.filter (· != t.site)).isEmpty then u.proceed c k a else u)
  | _, _ => go s

/-- MQUERY (R298): the member answers with the manifest of the round that it holds, and whether it is sealed. -/
def execMquery (f : BjnFrame) (s : State) : Out :=
  match s.openCtl f 9 with
  | (t, none) => go t
  | (t, some (site, b)) =>
    let m := t.rounds.sealed_.orElse (fun _ => t.rounds.coordHeld)
    let m := m.bind (fun x => if x.round.toNat = rd 0 8 b then some x else none)
    go (if t.rounds.coord then
        t.toSite site 0x0A (le 8 (rd 0 8 b) ++ le 1 (b2n m.isSome) ++ le 1 (b2n (m.isSome && t.rounds.sealed_.isSome)) ++ zeros 6 ++
          (match m with | some x => x.bytes | none => []))
      else t)

/-- A reply reaches a coordinator that does not lead: it takes a sealed manifest for its site, which may find itself dropped (R299), or holds the one of
the highest attempt (R282). -/
def State.learn (s : State) (k : Nat) (m : Option (Manifest × Bool)) : State :=
  match m with
  | none => s
  | some (x, sealed_) =>
    if x.round.toNat ≠ k ∨ s.rounds.sealed_.isSome then s
    else if sealed_ then ((s.send toGroup (.relay 6 x.bytes)).sealHere x).send toGroup (.relay 8 (sealBytes x))
    else if s.rounds.coordHeld.any (fun y => decide (x.attempt ≤ y.attempt)) then s
    else { s with rounds := { s.rounds with coordHeld := some x, attempt := max s.rounds.attempt x.attempt } }

/-- MREPLY (R298, R299): a member's reply at the successor; with the last one it proceeds. A coordinator that has just taken the role learns from it what
is held (R282), and a site that the sealed manifest leaves out learns that it is dropped. -/
def execMreply (f : BjnFrame) (s : State) : Out :=
  match s.openCtl f 0x0A with
  | (t, none) => go t
  | (t, some (site, b)) =>
    match t.openK, t.cfg? with
    | some k, some c =>
      let m := if rd 8 1 b = 1 then some (mkManifest (b.drop 16), rd 9 1 b == 1) else none
      if !t.rounds.coord ∨ rd 0 8 b ≠ k then go t
      else if !t.rounds.querying then go (t.learn k m)
      else
        let t := { t with rounds := { t.rounds with replies := t.rounds.replies.filter (fun (x : Nat × Option (Manifest × Bool)) => x.1 != site) ++ [(site, m)] } }
        let all := (t.rotation.filter (· != t.site)).all (fun z => t.rounds.replies.any (fun x => x.1 == z))
        go (if all then t.proceed c k t.rounds.queryAt else t)
    | _, _ => go t

/-- MEMBER_SILENCE (R298): MEMBER_TMO_MS after a query the successor proceeds with the replies it holds. -/
def execMemberSilence (s : State) : Out :=
  match s.openK, s.cfg? with
  | some k, some c => go (if s.rounds.coord ∧ s.rounds.querying then s.proceed c k s.rounds.queryAt else s)
  | _, _ => go s

/-- MEMBER_DROP (R299): a member that has not answered the lead's issue is left out of the next attempt. -/
def execMemberDrop (site : SiteNo) (s : State) : Out :=
  match s.rounds.issued, s.openK, s.cfg? with
  | some m, some k, some c =>
    if !s.rounds.coord ∨ s.rounds.sealed_.isSome ∨ s.rounds.accepts.contains site.val ∨ !bit site m.members ∨ site.val = s.site then go s
    else go (s.nextAttempt c k m 0 none ((sitesOf m.members).filter (· != site.val)))
  | _, _, _ => go s

/-! ### Late joiners (R302) -/

/-- Where a joining coordinator sends its request: the current lead as far as it knows one that its range map reaches, or the sponsor's site, whose
coordinator hands it on (R302, assumption 65). -/
def State.joinAsk (s : State) (sponsor : Nat) : State :=
  if !s.rounds.coord then s
  else
    let lead := s.rf oBjnRoundState 60 56
    let dest := if lead ≠ s.site ∧ s.rounds.map.any (fun e => e.site == lead) then lead else sponsor
    s.toSite dest 0x0C (le 1 0 ++ le 1 s.site ++ zeros 6)

/-- ROUND_JOIN (R302, R382): names this device as a joiner or a sponsor, with the range map that pairs them; a joiner's coordinator asks
to be let in. A joiner runs no step. -/
def execRoundJoin (tag : BitVec 32) (s : State) : Out :=
  withCmd s tag 0x0803 fun s t =>
    let role := rd 0 1 t.payload
    let other := rd 1 1 t.payload
    let b := t.payload.drop 8
    let m := (chunks 32 (b.length / 32) b).map mkRMap
    match s.job.prog with
    | none => s.done t 0x000A
    | some p =>
      if p.round.isNone then s.done t 0x000A
      else if t.payload.length < 8 ∨ b.length % 32 ≠ 0 ∨ 1 < role ∨ 15 < other ∨ !allZero (slice 2 6 t.payload) then s.done t 3
      else if !(s.rmapOk p b) then s.done t 0x0301
      else if role = 0 ∧ (s.job.running.isSome ∨ s.job.queue ≠ []) then s.done t 5
      else if role = 0 then
        let u := { s with rounds := { s.rounds with joiner := some other, joinGot := [], joinHeld := [], joinRound := none } }.installMap m
        (u.joinAsk other).done t 0
      else
        let u := s.installMap (s.rounds.map.filter (fun e => e.site != other) ++ m)
        { u with rounds := { u.rounds with sponsorOf := some other, sponsorSent := none } }.done t 0

/-- JOIN frames of a sponsor's paired range for a round: at most 1,024 parameters of anchor and outer momentum in each (assumption 37). Fuel is the number
of frames. -/
def State.joinFrames (s : State) (p : Prog) (h : Home) (i : Nat) (mac : Nat) (round : Word) : Nat → Nat → Nat → State
  | 0, _, _ => s
  | f + 1, pos, n =>
    if n = 0 then s
    else
      let k := min n 1024
      match s.elems p h i s.committed 2 pos k, s.elems p h i s.committed 3 pos k with
      | .ok a, .ok o =>
        (s.bjnSend mac 0x0C (le 1 2 ++ zeros 7 ++ le 8 round.toNat ++ le 8 (h.e.first + pos) ++ le 8 k ++ le32s a ++ le32s o)).joinFrames p h i mac round
          f (pos + k) (n - k)
      | .error e, _ => s.memError srcRm 0xFF 0xFF 0 e
      | _, .error e => s.memError srcRm 0xFF 0xFF 0 e

/-- JOIN_SPONSOR_SEND (R302): after the flip of the application step of the newest sealed manifest, the manifest and the committed anchor
and outer momentum of every paired range go to the joiner, once for each manifest until one lists the joiner's site. A round that is open and not
sealed has no manifest to wait for. -/
def execJoinSponsorSend (s : State) : Out :=
  match s.rounds.sponsorOf, s.rounds.last, s.job.prog with
  | some site, some m, some p =>
    if (!s.rounds.applied ∧ s.rounds.sealed_.isSome) ∨ s.rounds.sponsorSent = some m.round then go s
    else if bit site m.members then go { s with rounds := { s.rounds with sponsorOf := none } }
    else
      let es := s.rounds.map.filter (fun e => e.site == site)
      let t := ((es.map (·.mac0)).eraseDups).foldl (fun t mac => t.bjnSend mac 0x0C (le 1 1 ++ zeros 7 ++ m.bytes)) s
      let t := es.foldl (fun t e =>
        match (t.held p).zipIdx.find? (fun x => decide (x.1.first ≤ e.first) && decide (e.first < x.1.first + x.1.count)) with
        | none => t
        | some (x, i) =>
          match t.home p i t.committed with
          | none => t
          | some h => t.joinFrames p h i e.mac0 m.round (e.count / 1024 + 1) (e.first - x.first) e.count) t
      go { t with rounds := { t.rounds with sponsorSent := some m.round } }
  | _, _, _ => go s

/-- A joining device writes a received range (R302): anchor and outer momentum as sent, the master equal to the anchor, moments and
residuals +0, working weights derived. -/
def State.joinRange (s : State) (p : Prog) (step first : Nat) (a o : List (BitVec 32)) : State :=
  match (s.held p).zipIdx.find? (fun x => decide (x.1.first ≤ first) && decide (first < x.1.first + x.1.count)) with
  | none => s
  | some (x, i) =>
    match s.home p i step with
    | none => s
    | some h =>
      let pos := first - x.first
      let z := List.replicate a.length (0 : BitVec 32)
      let w := fun (t : State) (arr : Nat) (vs : List (BitVec 32)) => t.putElems p h i (min step s.committed) arr pos vs
      let t := w (w (w (w (w s 0 a) 1 z) 2 a) 3 o) 4 z
      t.putBy h.e.src (h.w + 2 * pos) (workBytes a)

/-- RECORD and the statistics of a joining device's entries are +0 (R302). -/
def State.joinStats (s : State) (p : Prog) (step : Nat) : State :=
  (s.held p).zipIdx.foldl (fun t x =>
    match t.home p x.2 step with
    | none => t
    | some h =>
      (h.recordWrites (zeros (64 + h.e.statBytes))).foldl (fun t w => t.putBy h.e.src w.1 w.2) t) s

/-- A range frame of the manifest in hand at the joiner (R302): it is written, and with every owned parameter in the device has joined. -/
def State.joinTake (t : State) (p : Prog) (m : Manifest) (b : Bytes) : State :=
  let n := rd 24 8 b
  if t.rounds.joiner.isNone ∨ b.length ≠ 32 + 8 * n then t
  else
    let step := m.step.toNat
    let u := t.joinRange p step (rd 16 8 b) (words32 (slice 32 (4 * n) b)) (words32 (slice (32 + 4 * n) (4 * n) b))
    let u := { u with rounds := { u.rounds with joinGot := u.rounds.joinGot ++ [(rd 16 8 b, n)] } }
    if !u.coversOwned u.rounds.joinGot then u
    else
      let u := (u.joinStats p step).ww oCommitStep m.step
      let u := { u with rounds := { u.rounds with joiner := none, joinHeld := [], open_ := some m.round, applied := true, dropped := false, held := none,
                                                  coordHeld := none, sealed_ := none } }
      ((u.ww oBjnRound m.round).roundState 0).decision step 7 (le 8 step ++ le 8 m.round.toNat)

/-- JOIN (R302): a join request at the lead, or at a coordinator that hands it on to the lead; or the sponsor's manifest and ranges at the joiner, which has
joined once every owned parameter is in. Ranges that arrive before the manifest of their round are kept for it. A later round's manifest finds the
joiner not complete: it starts again and asks again. -/
def execJoin (f : BjnFrame) (s : State) : Out :=
  match (if rd 0 1 f.bytes = 0x0C ∧ s.rounds.joiner.isSome ∧ f.ctags = 1 then
      (match s.takeSingle f 0x0C with | (t, some (p, pt)) => (t, some (p.site, pt)) | (t, none) => (t, none))
    else s.openCtl f 0x0C) with
  | (t, none) => go t
  | (t, some (site, b)) =>
    match rd 0 1 b, t.rounds.joiner, t.job.prog with
    | 0, _, _ =>
      if !t.rounds.coord then go t
      else
        let lead := t.rf oBjnRoundState 60 56
        let u := { t with rounds := { t.rounds with joinReqs := t.rounds.joinReqs ||| 2 ^ (rd 1 1 b % 16) } }
        go (if lead = t.site ∨ bit (rd 1 1 b % 16) t.rounds.joinReqs then u else u.toSite lead 0x0C b)
    | 1, some sp, some p =>
      let m := mkManifest (b.drop 8)
      if sp ≠ site ∨ t.rounds.joinRound.any (fun r => decide (m.round ≤ r)) then go t
      else
        let held := t.rounds.joinHeld
        let u := { t with rounds := { t.rounds with last := some m, joinGot := [], joinRound := some m.round
                                                    joinHeld := held.filter (fun (x : Word × Bytes) => decide (m.round < x.1)) } }
        let u := if t.rounds.joinRound.isSome ∧ !bit t.site m.members then u.joinAsk sp else u
        go ((held.filter (fun x => x.1 == m.round)).foldl (fun v x => v.joinTake p m x.2) u)
    | 2, some sp, some p =>
      let round := BitVec.ofNat 64 (rd 8 8 b)
      if sp ≠ site then go t
      else match t.rounds.last, t.rounds.joinRound with
      | some m, some r =>
        go (if round = r then t.joinTake p m b
            else if r < round then { t with rounds := { t.rounds with joinHeld := t.rounds.joinHeld ++ [(round, b)] } }
            else t)
      | _, _ => go { t with rounds := { t.rounds with joinHeld := t.rounds.joinHeld ++ [(round, b)] } }
    | _, _, _ => go t

/-! ### The coordinator's role (R423) -/

/-- COORD_BEACON (R423): the coordinator's beacon to the alternate; its arrival leaves nothing behind but the timer. -/
def execCoordBeacon (received : Bool) (s : State) : Out :=
  match s.cfg? with
  | some c => go (if received ∨ !s.rounds.coord then s else s.send c.coordAlt .beacon)
  | none => go s

/-- Take the coordinator's role with no held manifest, announce it, and ask every member for one; the hold of this device's own release stands
(R282, R298, R423). -/
def State.takeRole (s : State) : State :=
  let t := ({ s with rounds := { s.rounds with coord := true, coordNow := s.self, coordHeld := none } }).send toGroup (.takeover s.self)
  match t.openK with
  | some k => if t.rounds.sealed_.isNone ∧ !t.replay.on then t.queryAll k t.rounds.attempt else t
  | none => t

/-- COORD_TAKEOVER (R423): the alternate takes the role after 20 ms of silence, or at once when it is the coordinator's mirror partner and
declares loss; a former coordinator that hears of it stops. -/
def execCoordTakeover (ev : CoordIn) (s : State) : Out :=
  match s.cfg? with
  | none => go s
  | some c =>
    match ev with
    | .silence => go (if s.self = c.coordAlt ∧ !s.rounds.coord then s.takeRole else s)
    | .partnerLost => go (if s.self = c.coordAlt ∧ !s.rounds.coord ∧ s.partner = c.coord ∧ s.mirState = 3 then s.takeRole else s)
    | .announced a => go { s with rounds := { s.rounds with coordNow := a.toNat, coord := s.rounds.coord && a.toNat == s.self } }

end Sys2Proof.Machine
end

