-- ==== Sys2Proof/Machine/Commit.lean ====
section
/-!
DEFINITION. The commit: READY and merged records (R187, R188), the flip and what follows it (R189, R225, R281, R326), vetoes that
arrive (R190), the settlement of a PHASE left at 1 (R191), and job rewinds (R411).
-/

namespace Sys2Proof.Machine

/-! ### Records that merge (R188, R276) -/

/-- An LX32 word as it travels in a record. -/
def wordOfAcc (a : Acc) : BitVec 640 := BitVec.ofNat 640 (leNat (lx32Bytes a))
/-- The accumulator of an LX32 word. -/
def accOfWord (w : BitVec 640) : Acc := lx32Of (le 80 w.toNat)
/-- Whether the residue of an LX32 word agrees (R42). -/
def wordOk (w : BitVec 640) : Bool := lx32Ok (le 80 w.toNat)

/-- Sums of two fingerprint lists, the longer one's rest as it is. -/
def sumWords : List Word → List Word → List Word
  | [], b => b
  | a, [] => a
  | x :: a, y :: b => (x + y) :: sumWords a b

/-- The merge of two READY records (R188): a disagreement in STEP or EPOCH is BARRIER, a NORM2 whose residue fails is ENGINE
(R42). -/
def mergeReady (a b : ReadyRec) : ReadyRec :=
  let v := max (max a.veto.toNat b.veto.toNat) (if a.step = b.step ∧ a.epoch = b.epoch then 0 else 8)
  let v := if wordOk a.norm2 && wordOk b.norm2 then v else max v 7
  { step := if a.step.toNat < b.step.toNat then b.step else a.step
    epoch := if a.epoch.toNat < b.epoch.toNat then b.epoch else a.epoch
    veto := BitVec.ofNat 8 v
    flags := a.flags ||| b.flags
    devices := a.devices + b.devices
    norm2 := wordOfAcc ((accOfWord a.norm2).merge (accOfWord b.norm2))
    gfp := sumWords a.gfp b.gfp
    wfp := sumWords a.wfp b.wfp }

/-- PHASE_ONE of a record. -/
def isPhaseOne (r : ReadyRec) : Bool := bit 0 r.flags.toNat

/-- Whether a merged record passes for a step of a programme (R188). -/
def recPasses (p : Prog) (n : Nat) (r : ReadyRec) : Bool :=
  r.veto == 0 && r.step.toNat == n && r.epoch.toNat == p.epoch && r.devices.toNat == p.group

/-! ### READY (R28, R187, R188) -/

/-- The device's own READY record. -/
def State.ownRec (s : State) (p : Prog) (n : Nat) (one : Bool) : ReadyRec :=
  { step := BitVec.ofNat 64 n, epoch := BitVec.ofNat 16 p.epoch, veto := 0, flags := if one then 1 else 0, devices := 1,
    norm2 := wordOfAcc s.strg.norm2, gfp := fpList p.layers s.strg.gfp, wfp := fpList p.layers s.strg.wfp }

/-- Whether the barrier of a paired device, one whose partner is lost among them, waits for the partner at a step (R28): every step in strict
mirroring, in relaxed mirroring each step whose number is a multiple of N, the model's count of every Nth commit (assumption 48). A device that
is unpaired or carries has no partner. -/
def State.waitsMirror (s : State) (n : Nat) : Bool :=
  s.mirState != 0 && s.mirState != 4 && (s.rf oMir 60 60 == 0 || n % max 1 (s.rf oMir 59 50) == 0)

/-- Every held shard is written and, when the barrier waits for the partner, every own shard is acknowledged; the RULE 3 sums are
merged (R28, R181, R187). -/
def State.allWritten (s : State) (p : Prog) (n : Nat) : Bool :=
  (s.allShards p).all (fun x => s.strg.done.contains x) &&
  (s.held p).all (fun e => e.rule != 3 || (SMap.get? s.strg.r3 e.tensor).isSome) &&
  (!s.waitsMirror n || (p.smap.zipIdx).all (fun x => (List.range x.1.shards).all (fun k => s.strg.acked.contains (x.2, k))))

/-- Send the device's record: by the plan's all-reduce, or, without one, to the group (R187, R276). -/
def State.sendReady (s : State) (p : Prog) (n : Nat) (one : Bool) : State :=
  let r := s.ownRec p n one
  let t := { s with strg := { s.strg with readySent := true, sentRec := some r } }
  let t := if one then t else t.wf oCommitState 1 0 1
  if p.plan.ops.any (fun o => o.typ == 7 && o.arg % 256 == (if one then 1 else 0)) ∨ p.group = 1 then t else t.tellGroup (.ready r)

/-- READY (R183, R187): the phase-one record once every shard is parked, the final one once every shard is written; with the final one
PHASE reads 1. -/
def execReady (s : State) : Out :=
  match s.job.running, s.job.prog with
  | some j, some p =>
    let n := j.n.toNat
    if p.gen ∨ s.rf oRstJob 61 61 = 1 ∨ s.phase ≠ 0 ∨ s.inSuspect ∨ s.strg.readySent then go s
    else if p.twoPhase ∧ !s.strg.phaseOne then
      go (if (s.allShards p).all (fun x => s.strg.parked.any (fun r => r.entry == x.1 && r.shard == x.2)) then s.sendReady p n true else s)
    else go (if s.allWritten p n then s.sendReady p n false else s)
  | _, _ => go s

/-! ### Job rewind (R411) -/

/-- Clear the tally stores and the event counters of the clusters of the step, and take back their contexts (R411). -/
def State.clearAttempt (s : State) (g : Nat) : State :=
  let t := (List.range 40).foldl (fun t i => t.clear (coreAddr (g * 40 + i) 0x8000) 0x6000) s
  let c := t.clu g
  t.setClu g { c with counters := [], queues := [], serving := [] }

/-- Post a REWIND record (R428). -/
def State.rewindRec (s : State) (event attempt step : Nat) : State :=
  s.post srcRm 0x0502 (le 1 event ++ le 1 (s.rf oRstJob 60 56) ++ le 1 attempt ++ zeros 5 ++ le 8 step)

/-- The rewind that a write of RST_JOB asks for, once no phase is open (R258, R411). -/
def State.rewindNow (s : State) (v : Word) : State :=
  let step := bits 47 0 v.toNat
  let att := bits 55 48 v.toNat
  let s := { s with job := { s.job with settle := none } }
  if step ≠ s.committed % 2 ^ 48 then (s.wf oRstJob 63 62 3).rewindRec 3 att step
  else
    let t := s.stopStep
    let t := t.stepClusters.foldl State.clearAttempt t
    let t := t.doneSteps ((match t.job.running with | some j => [j] | none => []) ++ t.job.queue) 0x020A
    let t := ((t.dropAttempt true).rewindFrames).portsCarry
    let t := { t with
      job := { t.job with running := none, queue := [], genUsers := [], attempts := SMap.set t.job.attempts (s.committed + 1) att } }
    let t := t.decision s.committed 4 (le 8 s.committed ++ le 1 att)
    let t := t.rewindRec 2 att s.committed
    (t.wf oRstJob 63 62 2).wf oRstJob 61 61 0

/-- A rewind that waited for an open phase or a suspect replay goes on (R191, R411). -/
def State.settle (s : State) : State :=
  if s.phase ≠ 0 ∨ s.hang.isSome then s
  else match s.job.settle with
  | some v => s.rewindNow v
  | none => s

/-! ### The flip and what follows it (R189, R225, R281, R332) -/

/-- Clusters that an act has on this device in a variant (R225). -/
def Prog.actClusters (p : Prog) (v a : Nat) : Nat := ((p.actE.filter (fun e => e.variant == v && e.act == a)).flatMap (·.clusters)).length

/-- t_v of R225 as a fraction, from the busy times of the running variant's acts. -/
def Prog.slowest (p : Prog) (times : List (Nat × Nat)) (run v : Nat) : Nat × Nat :=
  times.foldl (fun (m : Nat × Nat) x =>
    let f := (x.2 * p.actClusters run x.1, p.actClusters v x.1)
    if m.1 * f.2 < f.1 * m.2 then f else m) (0, 1)

/-- The balance variant for the steps that follow a boundary (R225): measured, its busy times being free values (assumption 4), or in
replay mode the logged one (R332). -/
def State.balance (s : State) (p : Prog) (n : Nat) : State :=
  if p.variants ≤ 1 then s
  else
    let acts := ((p.actE.filter (fun e => e.variant == s.job.variant)).map (·.act)).eraseDups
    let r := acts.foldl (fun (a : List (Nat × Nat) × State) x => let d := a.2.draw; (a.1 ++ [(x, d.1.toNat)], d.2)) ([], s)
    let lt := fun (a b : Nat × Nat) => decide (a.1 * b.2 < b.1 * a.2)
    let run := p.slowest r.1 s.job.variant s.job.variant
    let best := (List.range p.variants).foldl (fun (m : Nat) v =>
      if lt (p.slowest r.1 s.job.variant v) (p.slowest r.1 s.job.variant m) then v else m) 0
    let b := p.slowest r.1 s.job.variant best
    let v := if lt (b.1 * 1000, b.2) (run.1 * (1000 - p.balGain), run.2) then best else s.job.variant
    let v := if s.replay.on then ((s.replay.variants.find? (fun x => x.1.toNat == n)).map (·.2)).getD s.job.variant else v
    (({ r.2 with job := { r.2.job with variant := v } })).decision n 1 (le 8 n ++ le 1 v)

/-- Residual resets that the log names for a commit (R328, R332): +0 over each range of parameters. -/
def State.replayResets (s : State) (p : Prog) (n : Nat) : State :=
  (s.replay.resets.filter (fun x => x.1.toNat == n)).foldl (fun t x =>
    (t.held p).zipIdx.foldl (fun t e =>
      let lo := max x.2.1 e.1.first
      let hi := min (x.2.1 + x.2.2) (e.1.first + e.1.count)
      match t.home p e.2 n with
      | some h => if lo < hi then t.putElems p h e.2 n 4 (lo - e.1.first) (List.replicate (hi - lo) 0) else t
      | none => t) t) s

/-- What the log says of the committed step at which replay mode starts: the variant chosen at that boundary and the residual resets of that commit
(R328, R332). -/
def State.replayAt (s : State) (p : Prog) (n : Nat) : State :=
  let v := ((s.replay.variants.find? (fun x => x.1.toNat == n)).map (·.2)).getD s.job.variant
  ({ s with job := { s.job with variant := v } }).replayResets p n

/-- Replay mode ends; what the log says of a round still open stays for its imports (R330). -/
def State.replayEnd (s : State) : State :=
  let t := (s.replayRec 4 0 [] []).wf oReplay 63 62 0
  let open_ := if s.rounds.applied then [] else s.replay.manifests.filter (fun x => s.rounds.open_ == some x.1.round)
  { t with replay := { manifests := open_ }, job := { t.job with diverged := false } }

/-- The outer values that wait for the flip are written through the journal (R198, R199). -/
def State.applyOuter (s : State) : State :=
  let src := fun i => ((s.job.prog.bind (fun p => (s.held p)[i]?)).map SEntry.src).getD srcRm
  let t := s.strg.outerDone.foldl (fun t x => x.2.2.foldl (fun t w => t.putBy (src x.1) w.1 w.2) t) s
  { t with strg := { t.strg with outerDone := [] } }

/-- A sealed manifest that names this step has been applied (R198, R300). -/
def State.roundApplied (s : State) (p : Prog) (n : Nat) : State :=
  match s.applyNow n, p.round with
  | some m, some c =>
    let t := { s with rounds := { s.rounds with applied := true, last := some m, held := none, coordHeld := none, issued := none,
                                                joinReqs := (List.range 16).foldl (fun (a : Nat) k =>
                                                  if bit k s.rounds.joinReqs && !bit k m.members then a + 2 ^ k else a) 0 } }
    ((t.roundRec m.round.toNat 3 n).roundState 0).discardDeltas m c.stale
  | _, _ => s

/-- Whether the commit of a step closes an outer round (R29, R197): its number is a multiple of H, or the correction of the round before
was applied with it after a multiple of H had passed. `was` says whether the correction had been applied before. -/
def State.closes (s : State) (p : Prog) (n : Nat) (was : Bool) : Bool :=
  match p.round with
  | none => false
  | some c =>
    s.rounds.applied && decide (0 < n / max c.h 1) && (match s.rounds.open_ with | some k => decide (k.toNat < n / max c.h 1) | none => true) &&
      (n % max c.h 1 == 0 || !was)

/-- Cold rows whose new values the flip leaves to write back: the touched ones, and every row where an outer application came with the step
(R198, R203). -/
def State.coldRows (s : State) (p : Prog) (outer : Bool) : List (Nat × Nat) :=
  p.smap.zipIdx.flatMap (fun x =>
    if x.1.cold then (if outer then List.range x.1.rows else SMap.get s.strg.touched x.2 []).map (fun r => (x.2, r)) else [])

/-- What the flip of step n leaves in the Strongmen and the Juggler (R189): the write-back and the close that become due, the shards that
the mirror has not acknowledged, and an empty step. Rows still due from the commit before stay due. -/
def State.flipKeep (s : State) (p : Prog) (n : Nat) (outer close : Bool) : State :=
  let cold := s.coldRows p outer
  let late := if s.mirState = 1 then s.strg.mirrored.filter (fun x => !s.strg.acked.contains x && !s.strg.restream.contains x) else []
  let g := s.strg
  let base : Strg := {
    restream := g.restream ++ late, merged := g.merged, 
    writeback := g.writeback.filter (fun x => !cold.contains (x.1, x.2.1)) ++ cold.map (fun x => (x.1, x.2, n)), unreadable := g.unreadable,
    closeDue := if close then some n else g.closeDue, digC := g.digN }
  let t := { s with strg := base, jug := { newEpochCommit := true, discarded := s.jug.discarded }, qs := []
                    mirror := { s.mirror with adopt := [] } }
  (t.wf oCommitState 5 5 (b2n (!base.writeback.isEmpty))).wf oCommitState 6 6 (b2n base.closeDue.isSome)

/-- The committed step's records, the end of its STEP command and its interrupt (R189, R328); a handover that waits is due. -/
def State.flipEnd (s : State) (p : Prog) (n : Nat) (r : ReadyRec) (delta : Bytes) : State :=
  let t := match s.job.running with
    | some j =>
      let u := s.stepRecords p j 0 (le 80 r.norm2.toNat) r.gfp r.wfp delta
      ({ u with job := { u.job with running := none } }).doneTag j.tag 0
    | none => s
  let t := t.raise 2
  { t with fw := { t.fw with due := t.fw.due || t.fw.activate.isSome } }

/-- The flip of step n with its merged record (R187, R189): the committed step, the outer values and the rounds, the write-back and the
close that become due, what is kept for the next step, the step's records, and the end of the STEP command. -/
def State.flip (s : State) (p : Prog) (n : Nat) (r : ReadyRec) : State :=
  let s := (s.wf oCommitState 1 0 2).ww oCommitStep (BitVec.ofNat 64 n)
  let s := (s.wf oCommitState 63 48 p.epoch).applyOuter
  let was := s.rounds.applied
  let s := s.roundApplied p n
  let close := s.closes p n was
  let s := s.flipKeep p n (s.rounds.applied && !was) close
  let delta := if close then s.deltaHash p n else []
  let t := s.flipEnd p n r delta
  let t := (t.balance p n).replayResets p n
  let t := if t.replay.on ∧ n = t.replay.last.toNat then t.replayEnd else t
  (((t.wf oCommitState 1 0 0).portsCarry).settle).runDue

/-- Keep a merged record: the last two (R191), and the commit record in the uncommitted slot (R188). -/
def State.keepRec (s : State) (p : Prog) (n : Nat) (r : ReadyRec) : State :=
  let t := s.put (p.commitRec + 4096 * (n % 2)) (fit 4096 (recBytes r))
  { t with strg := { t.strg with merged := (t.strg.merged ++ [r]).drop (t.strg.merged.length - 1) } }

/-- A merged record arrives at a device that has sent its own (R183, R188, R189): a passing phase-one record starts phase two, a passing
final record flips, and a failing one vetoes the step. -/
def State.takeMerged (s : State) (p : Prog) (j : StepJob) (r : ReadyRec) : State :=
  let n := j.n.toNat
  match s.strg.sentRec with
  | none => s
  | some own =>
    let r := if p.group = 1 then own else r
    if isPhaseOne r != isPhaseOne own ∨ (r.veto = 0 ∧ r.step ≠ j.n) then s
    else if !wordOk r.norm2 then ({ s with strg := { s.strg with latest := some r } }).residueError srcRm 0xFFFFFFFF 0xFF 0 0
    else if recPasses p n r then
      if isPhaseOne r then
        (if s.rf oRstJob 61 61 = 1 then s
         else ({ s with strg := { s.strg with latest := some r } }).phaseOnePassed p j (accOfWord r.norm2))
      else (s.keepRec p n r).flip p n r
    else
      let kind := if r.veto = 0 then 8 else r.veto.toNat
      let t := if isPhaseOne r then s else s.keepRec p n r
      ((t.vetoWith kind kind s.self 0 0 (r.gfp.take p.layers) (r.wfp.take p.layers)).wf oCommitState 1 0 0).settle

/-- MERGED_READY_RECORD (R187, R188, R189). -/
def execMergedReadyRecord (r : ReadyRec) (s : State) : Out :=
  match s.job.running, s.job.prog with
  | some j, some p => if p.gen ∨ !s.strg.readySent then go s else go (s.takeMerged p j r)
  | _, _ => go s

/-! ### Vetoes from other devices (R190) -/

/-- VETO_FRAME (R190): the frame of the running step, of the step at the head of the queue, or of the next step before its descriptor
has come. -/
def execVetoFrame (src : BitVec 20) (kind : BitVec 8) (step : Word) (s : State) : Out :=
  if s.inSuspect then go s
  else match s.job.running, s.job.queue with
  | some j, _ => if j.n = step then go (s.vetoFrom kind.toNat 9 src.toNat 0 0) else go s
  | none, j :: rest =>
    if j.n = step then
      let j := { j with attempt := SMap.get s.job.attempts step.toNat 0 }
      go (({ s with job := { s.job with running := some j, queue := rest } }).vetoFrom kind.toNat 9 src.toNat 0 0)
    else go s
  | none, [] =>
    if step.toNat = s.committed + 1 ∧ s.job.prog.isSome then
      go (((s.wf oCommitState 47 40 9).postAt srcRm 0x0203 step.toNat (le 1 kind.toNat ++ zeros 3 ++ le 4 src.toNat ++ le 8 0)).raise 3)
    else go s

/-! ### PHASE 1 (R191) -/

/-- What a member answers to a query: of the last two merged records the one that carries the step; where both do, as after a failing record of an
attempt and the passing one of its replay, the passing one, and else the later (R191). -/
def State.answerTo (s : State) (step : Word) : Option ReadyRec :=
  let l := s.strg.merged.filter (fun r => r.step == step)
  (l.find? (fun r => s.job.prog.any (fun p => recPasses p step.toNat r))).orElse (fun _ => l.getLast?)

/-- COMMIT_QUERY (R191): the answer is whichever of the last two merged records carries the step, or none. -/
def execCommitQuery (src : BitVec 20) (step : Word) (s : State) : Out := go (s.send src.toNat (.answer (s.answerTo step)))

/-- PHASE is settled: the query ends, PROG_RUN that waited for it completes, and so does a rewind. -/
def State.phaseSettled (s : State) : State :=
  let t := { s with strg := { s.strg with query := none } }
  let t := match t.job.runWait, t.job.staged with
    | some tag, none => ({ t with job := { t.job with runWait := none } }).doneTag tag 0
    | _, _ => t
  t.settle

/-- COMMIT_QUERY_ANSWER (R191): a passing record flips; once every member has answered without one, none has flipped. -/
def execCommitQueryAnswer (src : BitVec 20) (r : Option ReadyRec) (s : State) : Out :=
  match s.strg.query, s.job.prog with
  | some q, some p =>
    if !q.members.contains src.toNat ∨ q.answered.contains src.toNat then go s
    else
      let n := q.step.toNat
      match r.filter (fun x => recPasses p n x && !isPhaseOne x && wordOk x.norm2) with
      | some x => go (((s.keepRec p n x).flip p n x).phaseSettled)
      | none =>
        let q := { q with answered := q.answered ++ [src.toNat] }
        if q.members.all q.answered.contains then go ((s.wf oCommitState 1 0 0).phaseSettled)
        else go { s with strg := { s.strg with query := some q } }
  | _, _ => go s

/-- COMMIT_QUERY_RETRY (R191): the members that have not answered are asked again. -/
def execCommitQueryRetry (s : State) : Out :=
  match s.strg.query with
  | none => go s
  | some q => go ((q.members.filter (fun a => !q.answered.contains a)).foldl (fun t a => t.send a (.query q.step)) s)

end Sys2Proof.Machine
end

