-- ==== Sys2Proof/Machine/CxlPort.lean ====
section
/-!
DEFINITION. The CXL port: link, CXL Reset, and the HDM window (R356 to R361, R376, R459, R462).
-/

namespace Sys2Proof.Machine

/-- CXL_RESET (R376, R464): FUN registers and the VOL counter of the host-facing function return to default, the MSI-X table is masked, both rings
empty, untaken requests and unconsumed completions are gone. Queued STEP commands and staging in progress are discarded;
every other taken command runs to its end and posts no completion. -/
def execCxlReset (s : State) : Out :=
  let regs := resetRegs (fun _ => true) (fun r => r == .fn) s.regs
  let t := ({ s with regs := regs }).wf oCxlLink 31 0 0
  let gone := t.job.queue.map (·.tag)
  let staging := fun (x : Taken) => (x.opcode == 0x0501 || x.opcode == 0x0201 || x.opcode == 0x0601) && !x.started
  go { t with
    bar4 := []
    mbx := { taken := (t.mbx.taken.filter (fun x => !gone.contains x.tag && !staging x)).map (fun x => { x with silent := true }) }
    job := { t.job with queue := [], staging := none }
    fw := { t.fw with staging := none } }

/-- CXL_LINK_TRAINED (R357, R366, R428): training begins; or the link is up, CXL_LINK takes rate, width and flit size, and a record says so, of
another event for a link below 64 GT/s or ×16; or the link layer has replayed, which CXL_LINK counts. Width and flit size are those of a link
that is up. -/
def execCxlLinkTrained (ev : CxlLinkEv) (width : BitVec 5) (flit256 : Bool) (s : State) : Out :=
  match ev with
  | .training => go (s.wf oCxlLink 63 62 1)
  | .trained rate =>
    let t := ((s.wf oCxlLink 63 62 2).wf oCxlLink 61 60 rate.val).wf oCxlLink 59 55 width.toNat
    let t := t.wf oCxlLink 54 54 (b2n flit256)
    go (t.linkRec srcCxl 2 0 (if rate.val < 2 ∨ width.toNat < 16 then 4 else 2) 0 0)
  | .replays n => go (s.satAdd oCxlLink 31 0 n.toNat)

/-- CXL_LINK_DOWN (R366, R428): the link is lost, which a record says. -/
def execCxlLinkDown (s : State) : Out := go ((s.wf oCxlLink 63 62 0).linkRec srcCxl 2 0 1 0 0)

/-- Bytes of the HDM window. -/
def State.hdmBytes (s : State) : Nat := s.rf oCxlHdm 57 48 * 2 ^ 30
/-- Device address of an offset in the HDM window. -/
def State.hdmAddr (s : State) (o : Nat) : Nat := s.rf oCxlHdm 47 0 + o

/-- The record of a memory error that the host met; it vetoes nothing (R361). -/
def State.hostMemError (s : State) (a : Nat) : State :=
  (s.post srcCxl 0x0103 (le 1 4 ++ le 1 0xFF ++ le 1 0xFF ++ zeros 1 ++ le 2 0 ++ le 2 s.tagNow ++ le 8 a ++ le 8 0)).raise 7

/-- In device doze an access brings DDR5 out of self-refresh (R459). -/
def State.hdmTouch (s : State) : State :=
  if s.rf oPwrStatus 54 52 = 1 then { s with pwr := { s.pwr with hdmAwake := true } } else s

/-- CXL_MEM_READ (R361): a line of the window; poison and a record where DDR5 cannot correct it; zeros during a memory
erase (R462). -/
def execCxlMemRead (line : Nat) (found : Found) (s : State) : Out :=
  if s.hdmBytes ≤ line * 64 then .fault .outsideHdm
  else
    let a := s.hdmAddr (line * 64)
    let s := s.hdmTouch
    if s.erasing then go (s.emit (.cxl line (zeros 64) false))
    else
      let s := if found = .uncorrectable ∧ a ∉ s.bad then { s with bad := a :: s.bad } else s
      if a ∈ s.bad then go ((s.emit (.cxl line (zeros 64) true)).hostMemError a)
      else go (s.emit (.cxl line (s.peek a 64) false))

/-- CXL_MEM_WRITE (R361): a whole line replaces its contents and clears the poison; a partial write to a poisoned line is
not applied and posts a record. During a memory erase the bytes read as zeros and a write leaves nothing (R462,
assumption 13). -/
def execCxlMemWrite (offset : Nat) (data : List Byte) (s : State) : Out :=
  if s.hdmBytes < offset + data.length then .fault .outsideHdm
  else
    let s := s.hdmTouch
    if s.erasing then go s
    else match s.poke (s.hdmAddr offset) data with
      | (t, none) => go t
      | (t, some g) => go (t.hostMemError g)

/-- HDM_IDLE_SELF_REFRESH (R459): DDR5 returns to self-refresh. -/
def execHdmIdleSelfRefresh (s : State) : Out := go { s with pwr := { s.pwr with hdmAwake := false } }

end Sys2Proof.Machine
end

