-- ==== Sys2Proof/Machine/Diag.lean ====
section
/-!
DEFINITION. Diagnosis and training: crash dumps over the side scan path (R405, R406), self-tests (R407), and the retraining of ports
and memories (R382).
-/

namespace Sys2Proof.Machine

/-! ### DIAG_DUMP (R405, R406) -/

/-- A record of a dump: its kind as in Config.dumpType, its unit, the address and length of the memory that its body begins with, and
whether its unit answers no scan read. -/
structure DumpRec where
  kind : Nat
  unit : Nat
  base : Nat := 0
  len : Nat := 0
  dead : Bool := false
  deriving DecidableEq, Repr

/-- Bytes of a record's body (R405). -/
def dumpBytes (kind : Nat) : Nat := if kind = 0 then 57856 else if kind = 5 then 3145728 else 1024

/-- Whether a ring dozes (R458). -/
def State.ringDozes (s : State) (r : Nat) : Bool := s.rf oPwrStatus (44 + r) (44 + r) == 1

/-- Whether a cluster has no power: it is fenced, in nap, or its ring dozes (R408, R456, R458). -/
def State.cluDark (s : State) (g : Nat) : Bool := s.cluFenced g || decide (3 ≤ (s.clu g).power) || s.ringDozes (g / 250)

/-- The record of a core. -/
def State.dumpCore (s : State) (c : Nat) : DumpRec := { kind := 0, unit := c, base := coreAddr c 0, len := 57344, dead := s.cluDark (c / 40) }

/-- The records of a dump (R405). -/
def State.dumpRecs (s : State) (scope : Nat) (sram : Bool) (target : Nat) : List DumpRec :=
  match scope with
  | 0 => (List.range 2000).map (fun g => ({ kind := 1, unit := g, dead := s.cluDark g } : DumpRec)) ++
      (List.range 8).map (fun r => ({ kind := 3, unit := r, dead := s.ringDozes r } : DumpRec)) ++
      [({ kind := 4, unit := 8 } : DumpRec), ({ kind := 4, unit := 9 } : DumpRec)]
  | 1 => ({ kind := 1, unit := target, dead := s.cluDark target } : DumpRec) :: ({ kind := 2, unit := target, dead := s.cluDark target } : DumpRec) ::
      ((List.range 40).map (fun i => s.dumpCore (target * 40 + i)) ++
      (if sram then [({ kind := 5, unit := target, base := cluAddr target 0, len := 3145728, dead := s.cluDark target } : DumpRec)] else []))
  | _ => [s.dumpCore target]

/-- The largest dump of a scope (R405). -/
def dumpMax (scope : Nat) (sram : Bool) : Nat :=
  match scope with
  | 0 => 2090464
  | 1 => if sram then 5462768 else 2317024
  | _ => 57936

/-- The 64 bytes of a failed scan read are 0xFF (R406). -/
def ffChunk (b : Bytes) (k : Nat) : Bytes := b.take (64 * k) ++ List.replicate (min 64 (b.length - 64 * k)) 0xFF ++ b.drop (64 * k + 64)

/-- A record's bytes: the memory it shows, then bytes whose layout the manual does not give (free values); an answer of 1, or an unit
without power, gives NO_ANSWER, k + 2 an uncorrectable error at the k-th read (R405, R406). -/
def State.dumpRecord (s : State) (answers : List Nat) (i : Nat) (r : DumpRec) : Bytes :=
  let n := dumpBytes r.kind
  let raw := fit n (s.peek r.base r.len ++ Config.freeBytes (s.free + i) (n - r.len))
  let known := if r.len = 0 then [] else (s.badIn r.base r.len).map (fun g => (g - r.base) / 64)
  let ecc := known ++ (answers.filter (fun a => decide (2 ≤ a ∧ (a - 2) * 64 < n))).map (· - 2)
  let dead := r.dead || answers.contains 1
  let body := if dead then List.replicate n 0xFF else ecc.foldl ffChunk raw
  le 1 (Config.dumpType r.kind).toNat ++ le 1 (if dead then 1 else if ecc.isEmpty then 0 else 2) ++ zeros 2 ++ le 4 r.unit ++ le 4 n ++
    zeros 4 ++ body

/-- The dump (R405). -/
def State.dump (s : State) (scope : Nat) (recs : List DumpRec) (answers : List (Nat × Nat)) : Bytes :=
  let body := recs.zipIdx.flatMap (fun x => s.dumpRecord ((answers.filter (fun a => a.1 == x.2)).map (·.2)) x.2 x.1)
  let head := le 4 0x504D445A ++ le 2 1 ++ le 1 scope ++ zeros 1 ++ le 8 s.committed ++ le 8 s.now ++ le 4 recs.length ++
    le 8 (64 + body.length) ++ zeros 24
  head ++ le 4 (crc32c (head ++ zeros 4 ++ body)) ++ body

/-- DIAG_DUMP (R405, R406): operands are what the scan reads meet, by record index: 1 no answer, k + 2 an uncorrectable error. -/
def execDiagDump (tag : BitVec 32) (answers : List (Nat × Nat)) (s : State) : Out :=
  withCmd s tag 0x0A02 fun s t =>
    let scope := rd 0 1 t.payload
    let sram := bit 0 (rd 1 1 t.payload)
    let target := rd 4 4 t.payload
    if 2 < scope ∨ 1 < rd 1 1 t.payload ∨ rd 8 8 t.payload < dumpMax scope sram ∨ (scope = 1 ∧ 2000 ≤ target) ∨ (scope = 2 ∧ 80000 ≤ target) then
      s.done t 3
    else
      let recs := s.dumpRecs scope sram target
      ({ s with free := s.free + recs.length }).output t (s.dump scope recs answers) []

/-! ### DIAG_SELFTEST (R407) -/

/-- DIAG_SELFTEST (R106, R407, R408): a failing core or cluster is fenced. -/
def execDiagSelftest (tag : BitVec 32) (pass : Bool) (s : State) : Out :=
  withCmd s tag 0x0A03 fun s t =>
    let kind := rd 0 1 t.payload
    let n := rd 4 4 t.payload
    if 1 < kind ∨ (if kind = 0 then 80000 else 2000) ≤ n then s.done t 3
    else if (if kind = 0 then s.usesCore n else s.usesCluster n) then s.done t 5
    else
      let u := if pass then s else if kind = 0 then s.fenceCore n else s.fenceCluster n
      u.complete t 0 0 (le 1 (b2n (!pass)))

/-! ### CAL_PORT and CAL_MEM (R382) -/

/-- CAL_PORT (R248, R382): the port trains from its first step; what waited for a site port takes other paths. Borjan ports stay down
while the alarm is latched (R353). -/
def execCalPort (tag : BitVec 32) (s : State) : Out :=
  withCmd s tag 0x0B01 fun s t =>
    let kind := rd 0 1 t.payload
    let p := rd 1 1 t.payload
    if 1 < kind ∨ (if kind = 0 then 8 else 2) ≤ p then s.done t 3
    else if kind = 0 then ((s.wf (oPortStatus p) 63 62 1).clearPort p).done t 0
    else if s.latched then s.done t 0x000A
    else (s.wf (oBjnPort p) 63 62 1).done t 0

/-- CAL_MEM (R382): BUSY while a step runs; the retraining of the named channels and stacks changes nothing that software sees. -/
def execCalMem (tag : BitVec 32) (s : State) : Out :=
  withCmd s tag 0x0B02 fun s t =>
    if 2 ^ 20 ≤ rd 0 4 t.payload then s.done t 3
    else if s.job.running.isSome then s.done t 5
    else s.done t 0

end Sys2Proof.Machine
end

