-- ==== Sys2Proof/Machine/Dma.lean ====
section
/-!
DEFINITION. The cluster DMA and its compressor (R162 to R164), its damaged blocks (R132), raw re-storage (R135), the scrubs and
the register sweep (R145, R396), the Midway (R18) and the host-window timeout (R358).
-/

namespace Sys2Proof.Machine

/-! ### Blocks by index (R121, R123, R132) -/

/-- A DMA write: in a suspect replay, writes outside the cluster's own memories are dropped (R402). -/
def State.dmaStore (s : State) (g a : Nat) (b : Bytes) : State × Option MemErr :=
  if !s.inSuspect then s.store a b
  else match s.area a with
  | .clu h _ => if h = g then s.store a b else (s, none)
  | .core c _ => if c / 40 = g then s.store a b else (s, none)
  | _ => (s, none)

/-- Write pieces one after another from an address until one fails. -/
def State.writeRun (s : State) (g a : Nat) : List Bytes → State × Option MemErr
  | [] => (s, none)
  | b :: l =>
    match s.dmaStore g a b with
    | (t, none) => t.writeRun g (a + b.length) l
    | (t, some e) => (t, some e)

/-! ### CLUSTER_DMA -/

/-- What the reads of verified blocks, from block i of an index table on, find of single-bit errors (R145). -/
def State.correctBlocks (s : State) (src idx i : Nat) (r : BlockRun) : State :=
  let len := r.blocks.foldl (fun n b => n + b.length) 0
  (s.correct (idx + 4 * i) (4 * (r.blocks.length + 1))).correct (src + leNat (s.peek (idx + 4 * i) 4)) len

/-- The effect of a DMA descriptor (R163). -/
def State.dma (s : State) (g k : Nat) (ws : List Word) : UnitRes :=
  let tag := dTag ws
  let mode := fld ws 0 43 40
  let fmt := fld ws 0 36 36
  let src := fld ws 1 47 0
  let dst := fld ws 2 47 0
  let sr := srcUnit g 43
  let ok : Completion := { ctx := k, tag := tag }
  let fail := fun (t : State) (e : MemErr) => ((t.accError sr g k 45 tag e, none) : UnitRes)
  let fin := fun (r : State × Option MemErr) => match r with
    | (t, none) => ((t, some ok) : UnitRes)
    | (t, some e) => fail t e
  if mode = 0 then
    match s.load src (fld ws 6 47 0) with
    | .error e => fail s e
    | .ok b => fin ((s.correct src b.length).dmaStore g dst b)
  else if mode = 3 then
    match s.load src (elemBytes fmt * fld ws 6 47 0) with
    | .error e => fail s e
    | .ok b =>
      let s := s.correct src b.length
      let bs := blocksOf fmt (fld ws 6 47 0 / 256 + 1) (elemsLE (elemBytes fmt) b)
      match s.writeRun g dst bs with
      | (t, some e) => fail t e
      | (t, none) => fin (t.dmaStore g (fld ws 4 47 0) (indexTable bs))
  else
    let id := fld ws 7 15 0
    let elems := (s.job.prog.bind (fun p => p.tensor? id)).map (·.elems)
    let r := s.readBlocks src (fld ws 3 47 0) fmt elems (fld ws 5 31 0) (fld ws 5 63 32)
    let out := if mode = 1 then r.blocks
      else if mode = 2 then r.blocks.map (fun b => (blockElems fmt b).flatMap (le (elemBytes fmt)))
      else r.blocks.map (fun b => rawBlock fmt (blockElems fmt b))
    match (s.correctBlocks src (fld ws 3 47 0) (fld ws 5 63 32) r).writeRun g dst out with
    | (t, some e) => fail t e
    | (t, none) =>
      match r.err, r.dmg with
      | some e, _ => fail t e
      | none, some d => (t.cluBlockError sr g k d.1 id tag d.2.2 d.2.1, none)
      | none, none => if mode = 2 then (t, some ok) else fin (t.dmaStore g (fld ws 4 47 0) (indexTable out))

/-- CLUSTER_DMA (R132, R163, R164). -/
def execClusterDma (clu : GClu) (s : State) : Out :=
  let head := (s.serving clu 43).bind (fun k => (SMap.get (s.clu clu).queues (43 * 8 + k) []).head?)
  match (head.bind (fun it => s.napping (fld it.words 1 47 0))).orElse (fun _ => head.bind (fun it => s.napping (fld it.words 2 47 0))) with
  | some g => go (s.requestWake g)
  | none => unitRow clu 43 (fun ws => dOp ws == 0x30) s fun k it s => s.dma clu k it.words

/-! ### Raw re-storage (R135) -/

/-- The addresses above a tensor's block base that end its region in a cluster: of the other declarations, of the queues that this device
receives, of save areas, lists and users (R135). -/
def Prog.regionEnds (p : Prog) (tensor : Nat) : List Nat :=
  (p.tensors.filter (·.tensor != tensor)).flatMap (fun d => [d.base, d.index]) ++
    (p.queues.filter (fun q => q.recvPos == p.position)).map (·.base) ++
    p.ctxE.flatMap (fun e => (List.range 40).map (fun n => e.save + n * 0x60C0)) ++ p.lists.map (·.addr) ++ p.users.map (·.kv)

/-- The end of a tensor's region: the lowest declared address above its base in the same cluster, or the end of the SRAM. -/
def Prog.regionEnd (p : Prog) (g tensor base : Nat) : Nat :=
  (p.regionEnds tensor).foldl (fun m a => if base < a ∧ a < m then a else m) (cluAddr g 0x300000)

/-- RAW_RESTORAGE (R135): at a step boundary, a tensor whose extra cycles pass the ring's threshold has its slow blocks
rewritten raw, after every block has been verified, where its region holds the new length; a damaged block posts its
record and the tensor stays as it was. The re-storage is recorded as a DECISION of kind 2: the tensor in 2 bytes and the number of all its
blocks in 4 (R328, assumption 69). -/
def execRawRestorage (tensor : BitVec 16) (s : State) : Out :=
  match s.job.prog with
  | none => go s
  | some p =>
    match p.tensor? tensor.toNat with
    | none => go s
    | some d =>
      match s.area d.base with
      | .clu g _ =>
        let r := g / 250
        let cyc := s.clus.foldl (fun (n : Nat × Nat) kv =>
          if kv.1 / 250 = r then let v := SMap.get kv.2.stall tensor.toNat (0, 0); (n.1 + v.1, n.2 + v.2) else n) (0, 0)
        if s.job.running.isSome ∨ d.form ≠ 0 ∨ s.rf (oRestore r) 8 8 = 0 ∨ cyc.1 = 0 ∨
            1000 * cyc.1 ≤ s.rf (oRestore r) 7 0 * cyc.2 then go s
        else
          let nb := (d.elems + 255) / 256
          let run := s.readBlocks d.base d.index d.fmt (some d.elems) nb 0
          let s := { s with clus := s.clus.map (fun kv => (kv.1, if kv.1 / 250 = r then { kv.2 with stall := SMap.erase kv.2.stall tensor.toNat } else kv.2)) }
          match run.err, run.dmg with
          | some e, _ => go (s.offError g e)
          | none, some x => go (s.offDamage g d.tensor x)
          | none, none =>
            let out := run.blocks.map (fun b => if slowBlock b then rawBlock d.fmt (blockElems d.fmt b) else b)
            let len := out.foldl (fun n b => n + b.length) 0
            if !(run.blocks.any slowBlock) ∨ p.regionEnd g d.tensor d.base < d.base + len then go s
            else
              match s.storeAll [(d.base, out.flatten), (d.index, indexTable out)] with
              | (t, none) => go (t.decision t.committed 2 (le 2 d.tensor ++ le 4 out.length))
              | (t, some e) => go (t.offError g e)
      | _ => go s

/-! ### Scrubs and sweeps (R145, R396) -/

/-- PATROL_SCRUB (R145): the scrubber reads the next word of the cluster's SRAM; an uncorrectable one posts the SRAM error
record without a requester and vetoes the step. -/
def execPatrolScrub (clu : GClu) (found : Found) (s : State) : Out :=
  let c := s.clu clu
  if !(decide (c.power < 3)) ∨ s.cluFenced clu then go s
  else
    let o := 8 * c.scrub
    let a := cluAddr clu o
    let s := (s.setClu clu { c with scrub := (c.scrub + 1) % 0x60000 }).correct a 8
    let bad := s.bad.contains a
    if found = .uncorrectable ∨ bad then
      let s := if bad then s else { s with bad := s.bad ++ [a] }
      go (s.memError (srcClu clu 0) 0xFF 0xFF 0 { kind := 2, addr := a })
    else if found = .corrected then go ((s.satAdd (oSramEcc clu) 31 0 1).wf (oSramEcc clu) 63 40 o)
    else go s

/-- The source of a memory controller's records: the ring's service stop for HBM, the Ringmaster for DDR5 (assumption 9). -/
def srcMem (a : Nat) : Nat := if a < hbmEnd then srcRing (a / hbmStack) else srcRm

/-- MEMORY_PATROL_SCRUB (R396, R397): one codeword or line of HBM or DDR5 is read; an uncorrectable one is a memory error that
vetoes the step and marks the shard it lies in. -/
def execMemoryPatrolScrub (addr : Nat) (found : Found) (s : State) : Out :=
  match s.area addr with
  | .hbm _ | .ddr _ =>
    let g := addr / grain addr * grain addr
    let bad := s.bad.contains g
    if found = .uncorrectable ∨ bad then
      let s := if bad then s else { s with bad := s.bad ++ [g] }
      go (s.memError (srcMem addr) 0xFF 0xFF 0 { kind := 4, addr := g })
    else go s
  | _ => go s

/-- REGISTER_PARITY_SWEEP (R396): a register whose parity fails is restored from the Ringmaster's shadow, so it reads as before;
the error is recorded and the step is vetoed. -/
def execRegisterParitySweep (bad : Option Nat) (s : State) : Out :=
  match bad with
  | none => go s
  | some o =>
    match regKind o with
    | none => go s
    | some k =>
      if (regFields k).any (fun f => f.acc == .rw) then
        go (s.engineError (if 0x1000000 ≤ o then srcRing ((o - 0x1000000) / 0x100000) else srcRm) 6 0xFF 0xFF 0 o 0)
      else go s

/-! ### The Midway (R18) -/

/-- MIDWAY_PACKET (R18, R396): a packet whose check fails is sent again by its link, and one that fails after 16 consecutive retries makes the
device faulty (R409), with the LINK record of a failed edge (R428); a good packet is accepted in the order of its stream. -/
def execMidwayPacket (p : MidwayPkt) (s : State) : Out :=
  let k := p.stream.toNat
  if p.seq.toNat ≠ SMap.get s.midSeq k 0 then go s
  else if p.crcOk then
    go { s with midSeq := SMap.set s.midSeq k ((p.seq.toNat + 1) % 2 ^ 32), midRetry := SMap.erase s.midRetry k }
  else
    let n := SMap.get s.midRetry k 0 + 1
    let t := { s with midRetry := SMap.set s.midRetry k n }
    if n ≤ 16 then go t
    else
      go (((t.linkRec srcRm 3 0 3 0 k).wf oRstStatus 57 57 1).fenceRec 4 0 4)

/-! ### The host window (R358) -/

/-- HOST_WINDOW_TIMEOUT (R358): an engine's access in the host window that does not complete within 50 ms is a memory error. -/
def execHostWindowTimeout (clu : GClu) (unit : Fin 44) (addr : Nat) (s : State) : Out :=
  match s.area addr, s.serving clu unit with
  | .host _, some k =>
    match SMap.get (s.clu clu).queues (unit.val * 8 + k) [] with
    | [] => go s
    | it :: _ => go (s.accError (srcUnit clu unit) clu k 0xFF (dTag it.words) { kind := 4, addr := addr, detail := 1 }).hangCheck
  | .host _, none =>
    let line := addr / 64 * 64
    go { s with bad := if s.bad.contains line then s.bad else s.bad ++ [line] }
  | _, _ => go s

end Sys2Proof.Machine
end

