-- ==== Sys2Proof/Machine/Sideband.lean ====
section
/-!
DEFINITION. The BMC's I3C bus (R412, R475, R476).
-/

namespace Sys2Proof.Machine

/-- Whether the device is held in reset (R447, R448, R454, R471). -/
def State.inReset (s : State) : Bool :=
  s.pwr.pfw || s.pwr.thermHold || s.pwr.pllHold || !s.pwr.rails.isEmpty

/-- Whether VIO, rail 0, is within tolerance. -/
def State.vioOk (s : State) : Bool := !s.pwr.rails.contains 0

/-- The register bytes of the map as they stand (R476), without the queue's bytes at 0x0B and 0x0C. -/
def State.i3cMap (s : State) : Bytes :=
  le 2 0x5A80 ++ le 1 0xB0 ++ le 1 s.fwState ++ le 1 (s.rf oSecStatus 63 56) ++ le 1 s.mirState ++ le 2 (s.rf oPwrTherm 63 48) ++
    le 2 (s.rf oPwrMeas 31 16) ++ le 1 (s.rf oPwrStatus 63 60) ++ zeros 2 ++ le 1 (s.rf oBootAttempts 63 56) ++ zeros 2 ++
    le 8 (s.rw oSerial).toNat ++ le 8 s.committed

/-- The byte a private read returns at an offset; in reset, the value last held (R476). -/
def State.i3cByte (s : State) (o : Nat) : Byte :=
  if o = 0x0B then BitVec.ofNat 8 s.i3c.queue.length
  else if o = 0x0C then s.i3c.queue.headD 0
  else if s.inReset then s.i3c.latched.getD o 0
  else s.i3cMap.getD o 0

/-- I3C_SETDASA (R476): the dynamic address from the static address 0x5A. -/
def execI3cSetdasa (addr : BitVec 7) (s : State) : Out :=
  go (if s.vioOk then { s with i3c := { s.i3c with addr := some addr } } else s)

/-- I3C_ENTDAA (R476): the BMC assigns a dynamic address. -/
def execI3cEntdaa (addr : BitVec 7) (s : State) : Out :=
  go (if s.vioOk then { s with i3c := { s.i3c with addr := some addr } } else s)

/-- I3C_PRIVATE_WRITE (R476): one byte sets the read offset. -/
def execI3cPrivateWrite (bytes : List Byte) (s : State) : Out :=
  match bytes with
  | [b] => go (if s.vioOk then { s with i3c := { s.i3c with offset := b.toNat } } else s)
  | _ => go s

/-- I3C_PRIVATE_READ (R476): the byte at the offset, which then increments; a read of 0x0C removes the oldest code, and
ALERT# is released once the queue is empty. -/
def execI3cPrivateRead (s : State) : Out :=
  if !s.vioOk then go s
  else
    let o := s.i3c.offset
    let t := s.emit (.i3c (s.i3cByte o))
    let q := if o = 0x0C then t.i3c.queue.drop 1 else t.i3c.queue
    let drop := o = 0x0C ∧ q = [] ∧ t.i3c.alert
    let t := { t with i3c := { t.i3c with offset := (o + 1) % 256, queue := q, alert := t.i3c.alert && !decide (o = 0x0C ∧ q = []),
                                          armed := min t.i3c.armed q.length } }
    go (if drop then t.emit (.pin "ALERT#" 0) else t)

/-- IBI_TIMEOUT (R476): a queued in-band interrupt that the BMC has not accepted for 1 ms asserts ALERT#. -/
def execIbiTimeout (s : State) : Out :=
  if s.i3c.armed = 0 ∨ s.i3c.queue = [] ∨ s.i3c.alert then go s
  else go (({ s with i3c := { s.i3c with alert := true } }).emit (.pin "ALERT#" 1))

/-- IN_BAND_INTERRUPT_ACCEPTED (R476): the BMC accepts the oldest interrupt that it has not accepted, so that one's timer no longer runs. -/
def execInBandInterruptAccepted (s : State) : Out := go { s with i3c := { s.i3c with armed := s.i3c.armed - 1 } }

end Sys2Proof.Machine
end

