-- ==== Sys2Proof/Machine/Firmware.lean ====
section
/-!
DEFINITION. Firmware images, their staging and verification, live activation, commitment to flash, the board block, the
boot of R337 and Sideshow mode (R336 to R342, R385 to R395, R479).
-/

namespace Sys2Proof.Machine

/-- The header fields that step 3 of R337 checks: MAGIC, VERSION, the reserved fields, SVN and BODY_BYTES within range. -/
def fwHeaderOk (b : Bytes) : Bool :=
  rd 0 4 b == 0x4957465A && rd 4 2 b == 1 && decide (rd 6 2 b < 2) && decide (rd 8 4 b ≤ 128) && rd 12 4 b == 0 &&
  decide (1 ≤ rd 16 8 b) && decide (rd 16 8 b ≤ 12582912) && rd 16 8 b % 64 == 0 && allZero (slice 1344 64 b) &&
  allZero (slice 3828 268 b)

/-- The image digest (R336). -/
def fwDigest (b : Bytes) : Bytes := sha3 (b.take 1408 ++ (b.drop 4096).take (rd 16 8 b))

/-- KEY_HASH0 or KEY_HASH1 as bytes (R487). -/
def State.keyHash (s : State) (k : Nat) : Bytes :=
  (List.range 4).flatMap (fun i => le 8 (s.rw (if k = 0 then oKh0 i else oKh1 i)).toNat)

/-- The key hash that an image's PUBKEY matches (step 4 of R337). -/
def State.keySlotOf (s : State) (b : Bytes) : Option Nat :=
  let h := sha3 (slice 32 1312 b)
  if h = s.keyHash 0 ∧ s.rf oSecStatus 54 54 = 0 then some 0 else if h = s.keyHash 1 then some 1 else none

/-- The fused floor (R339). -/
def State.floor (s : State) : Nat := s.rf oSecStatus 39 32

/-- Steps 3 to 7 of R337 on an image: none where they pass, else the failing step. -/
def State.fwCheck (s : State) (b : Bytes) : Option Nat :=
  if !fwHeaderOk b then some 3
  else if (s.keySlotOf b).isNone then some 4
  else if rd 8 4 b < s.floor then some 5
  else if b.length < 4096 + rd 16 8 b then some 6
  else if !mldsaVerify (slice 32 1312 b) (fwDigest b) (slice 1408 2420 b) then some 7
  else none

/-- Verification of a staged copy (R338, R383): it must be exactly as long as its header says. -/
def State.fwVerify (s : State) (b : Bytes) : Nat :=
  match s.fwCheck b with
  | some 3 => 0x0502
  | some 4 => 0x0503
  | some 5 => 0x0504
  | some 6 => 0x0502
  | some _ => 0x0505
  | none => if b.length = 4096 + rd 16 8 b then 0 else 0x0502

/-- A verified image is staged, or a failed one is discarded (R385). -/
def State.fwStaged (s : State) (b : Bytes) (st : Nat) : State :=
  if st = 0 then
    let t := { s with fw := { s.fw with staging := none, verified := some b } }
    let t := if t.fw.side ∨ t.fw.commit.isSome then t else t.wf oMbxStatus 63 60 2
    (t.fwRec 1 0).raise 10
  else { s with fw := { s.fw with staging := none, verified := none } }

/-- FW_STAGE (R362, R380, R385, R392): pieces go to the firmware staging area in DDR5, in Sideshow mode to Ringmaster SRAM; the last starts the
verification. A new staging takes FW_STATE back from STAGED. -/
def execFwStage (tag : BitVec 32) (s : State) : Out :=
  withCmd s tag 0x0201 fun s t =>
    let off := rd 0 8 t.payload
    let total := rd 8 8 t.payload
    let piece := t.payload.drop 16
    if 12587008 < total then s.done t 2
    else
      let cur : Option Staging := if off = 0 then some { total := total, data := [] } else s.fw.staging
      match cur with
      | none => s.done t 2
      | some g =>
        if g.total ≠ total ∨ g.data.length ≠ off ∨ total < off + piece.length then s.done t 2
        else
          let data := g.data ++ piece
          let s := if off = 0 then
              let u := { s with fw := { s.fw with verified := none } }
              if u.fwState = 2 then u.wf oMbxStatus 63 60 (if u.fw.uncommitted then 4 else 1) else u
            else s
          let s := if s.fw.side then s else s.put (ddrBase + off) piece
          if data.length < total then ({ s with fw := { s.fw with staging := some { g with data := data } } }).done t 0
          else (s.fwStaged data (s.fwVerify data)).done t (s.fwVerify data)

/-- FW_ACTIVATE (R386): refused, or the handover is due at the next step boundary. -/
def execFwActivate (tag : BitVec 32) (s : State) : Out :=
  withCmd s tag 0x0202 fun s t =>
    match s.fw.verified with
    | none => s.done t 0x0501
    | some img =>
      if s.reshard.any (·.started) ∨ s.restore.isSome ∨ s.fw.commit.isSome then s.done t 5
      else if !Config.handoverAccepted s.fw.running img then s.done t 0x0506
      else { s with fw := { s.fw with activate := some t.tag, due := s.job.running.isNone } }

/-- HANDOVER (R386, R387): at the boundary the Ringmaster is handed over: once the next queued training step is released, in generation after the
running batch. -/
def execHandover (s : State) : Out :=
  let gen := s.job.prog.any (·.gen)
  if s.fw.activate.isSome ∧ (s.fw.due ∨ s.job.running.isNone) ∧ s.fwState ≠ 3 ∧
      (if gen then s.job.running.isNone else s.job.running.isSome ∨ s.job.queue = []) then
    go (({ s with fw := { s.fw with byHandover := true, atStep := s.rw oCommitStep } }).wf oMbxStatus 63 60 3)
  else go s

/-- The thermometer word of the floor (R339, R487). -/
def thermo (n k : Nat) : Nat := 2 ^ min 64 (n - 64 * k) - 1

/-- Advance the fused floor to an image's SVN when its ROLLBACK_LOCK is set (R339). -/
def State.raiseFloor (s : State) (img : Bytes) : State :=
  let n := rd 8 4 img
  if bit 0 (rd 6 2 img) ∧ s.floor < n then
    ((s.wf oSecStatus 39 32 n).ww (oFloor 0) (BitVec.ofNat 64 (thermo n 0))).ww (oFloor 1) (BitVec.ofNat 64 (thermo n 1))
  else s

/-- The floor while it is being advanced: so many bits are blown, never more than the image's SVN (R339). -/
def State.blow (s : State) (img : Bytes) (n : Nat) : State :=
  let n := min n (rd 8 4 img)
  if bit 0 (rd 6 2 img) ∧ s.floor < n then
    ((s.wf oSecStatus 39 32 n).ww (oFloor 0) (BitVec.ofNat 64 (thermo n 0))).ww (oFloor 1) (BitVec.ofNat 64 (thermo n 1))
  else s

/-- FLASH_WP# is released for a write of flash where the board ties WP_EN high (R477). -/
def State.wpFree (s : State) : State := if s.fw.wp then s.emit (.pin "FLASH_WP#" 0) else s
/-- FLASH_WP# is asserted again (R477). -/
def State.wpHold (s : State) : State := if s.fw.wp then s.emit (.pin "FLASH_WP#" 1) else s

/-- A flash write that a restart cuts off: the protection is asserted again, and what flash holds of the image stays half written (R390, R477). -/
def State.commitCut (s : State) : State := if s.fwState = 5 then s.wpHold else s

/-- FW_COMMIT begins: flash holds free bytes where the image goes, until it has been written whole (R389, R390). -/
def State.commitStart (s : State) (tag : BitVec 32) : State :=
  let b := Config.freeBytes s.free s.fw.running.length
  let t := s.flashPut 0 (fit s.fw.running.length b)
  ({ t with free := t.free + 1, fw := { t.fw with commit := some tag, torn := true } }.wf oMbxStatus 63 60 5).wpFree

/-- The image as it has been written and read back. -/
def State.flashWhole (s : State) : State :=
  let t := s.flashPut 0 s.fw.running
  { t with fw := { t.fw with torn := false } }

/-- FW_COMMIT ends (R339, R389): with the image in flash and the floor advanced, or with FLASH after a read-back that failed. -/
def State.commitEnd (s : State) (tag : BitVec 32) (ok : Bool) : State :=
  let t := if ok then s.flashWhole.raiseFloor s.fw.running else { s with fw := { s.fw with torn := false } }
  let t := ({ t with fw := { t.fw with commit := none, uncommitted := false } }.wf oMbxStatus 63 60 1).wpHold
  let t := if ok then (t.fwRec 4 0).raise 10 else t
  t.doneTag tag (if ok then 0 else 0x0507)

/-- FW_COMMIT (R339, R389): writes the running image to flash, reads it back, and blows the floor's bits one by one. -/
def execFwCommit (tag : BitVec 32) (ev : CommitIn) (s : State) : Out :=
  match ev with
  | .start => withCmd s tag 0x0203 fun s t => if s.fwState ≠ 4 then s.done t 0x000A else s.commitStart t.tag
  | .readBack ok => go (if s.fw.commit = some tag then s.commitEnd tag ok else s)
  | .blown n => go (if s.fw.commit = some tag then s.flashWhole.blow s.fw.running n else s)

/-- FW_BOARD (R395, R477): writes the board configuration block; it takes effect at the next device reset. -/
def execFwBoard (tag : BitVec 32) (s : State) : Out :=
  withCmd s tag 0x0206 fun s t =>
    (s.wpFree.flashPut 0xD00000 (fit 4096 t.payload)).wpHold.done t 0

/-- The Ringmaster is released on an image (R337 step 10, R394): a start begins. -/
def State.release (s : State) (img : Bytes) (fwst : Nat) : State :=
  let slot := (s.keySlotOf img).getD 3
  let t := { s with fw := { s.fw with running := img, runDigest := fwDigest img, keySlot := slot, starting := true, side := false, uncommitted := false } }
  let t := ((t.wf oSecStatus 55 55 0).wf oSecStatus 53 52 slot).wf oSecStatus 31 24 (rd 8 4 img)
  t.wf oMbxStatus 63 60 fwst

/-- FW_BOOT (R394): in Sideshow mode, starts the verified staged image whatever the count of failed starts. -/
def execFwBoot (tag : BitVec 32) (s : State) : Out :=
  withCmd s tag 0x0204 fun s t =>
    if !s.fw.side then s.done t 0x000A
    else match s.fw.verified with
    | none => s.done t 0x0501
    | some img => ({ s with fw := { s.fw with byHandover := true } }.release img 0).done t 0

/-- Whether the frames that carry so many bytes have been accepted on stream 0xFFFF from the partner that the board block names (R257, R393). -/
def State.fetched (s : State) (b : Bytes) : Bool :=
  s.fabric.rx.any (fun x => x.src == rd 16 4 s.fw.cfg % 2 ^ 20 && x.stream == 0xFFFF && decide (frameCount b ≤ x.next.toNat - x.used.toNat))

/-- FW_FETCH (R393): brings up the mirror port of the board block, with SELF_ADDR as this device's address; the request
goes out when the port is up (`State.askImage`). What the accepted frames of the stream bring is verified. -/
def execFwFetch (tag : BitVec 32) (ev : FetchIn) (s : State) : Out :=
  match ev with
  | .start =>
    withCmd s tag 0x0205 fun s t =>
      let port := rd 8 1 s.fw.cfg
      if !s.fw.side then s.done t 0x000A
      else if 8 ≤ port then s.done t 0x0508
      else
        let t' := ((s.wf (oPortStatus port) 63 62 1).wf oSiteId 27 24 port).wf oSiteId 19 0 (rd 12 4 s.fw.cfg)
        { t' with fw := { t'.fw with fetch := some t.tag } }
  | .refusedByPartner =>
    if s.fw.fetch = some tag ∧ s.mirrorUp then go (({ s with fw := { s.fw with fetch := none } }).doneTag tag 0x0508) else go s
  | .image b =>
    if s.fw.fetch = some tag ∧ s.mirrorUp ∧ s.fetched b then
      go ((({ s with fw := { s.fw with fetch := none } }).fwStaged b (s.fwVerify b)).doneTag tag (s.fwVerify b))
    else go s

/-- FW_FETCH_TIMEOUT (R393): the port has not reached UP within 30 s. -/
def execFwFetchTimeout (s : State) : Out :=
  match s.fw.fetch with
  | some tag =>
    if s.portUp (rd 8 1 s.fw.cfg) then go s
    else go (({ s with fw := { s.fw with fetch := none } }).doneTag tag 0x0508)
  | none => go s

/-! ### Boot and Sideshow mode -/

/-- Enter Sideshow mode with a reason (R337, R392, R412, R434). -/
def State.sideshow (s : State) (reason : Nat) : State :=
  let t := { s with fw := { s.fw with side := true, up := false, starting := false, activate := none, due := false, keySlot := 3 } }
  let t := ((t.wf oSecStatus 63 56 reason).wf oSecStatus 55 55 1).wf oSecStatus 53 52 3
  let t := (t.wf oSecStatus 31 24 0).wf oMbxStatus 63 59 12
  let t := t.urgent 5 srcRm 0x0801 (le 1 5 ++ le 1 reason ++ zeros 2 ++ le 4 0 ++ le 8 t.committed)
  t.ibi 5

/-- A failed start (R391): FAILS and LAST_CAUSE, the record; at three within 600 s the ROM holds the Ringmaster. -/
def State.failedStart (s : State) (cause : Nat) : State :=
  let t := (s.satAdd oBootAttempts 63 56 1).wf oBootAttempts 55 48 cause
  (t.fwRec 3 cause).raise 10

/-- FAILED_START_AGE_OUT (R391). -/
def execFailedStartAgeOut (s : State) : Out := go (s.wf oBootAttempts 63 56 (s.rf oBootAttempts 63 56 - 1))

/-- The board configuration block in force; one whose CHECK fails reads as zeros with MIRROR_PORT 0xFF (R395). -/
def boardBlock (flash : List Host.Cell) : Bytes × Bool :=
  let b := cellsReadN flashDflt flash 0xD00000 4096
  if crc32c (b.take 4092) = rd 4092 4 b then (b, true) else (zeros 8 ++ [0xFF] ++ zeros 4087, false)

/-- The ROM has taken an image: a pending advance of the floor is completed, and measurement 1 is its digest (R337, R339, R342). -/
def State.booted (s : State) (img : Bytes) : State :=
  let t := s.raiseFloor img
  { t with fw := { t.fw with bootDigest := fwDigest img } }

/-- The reason that a half-written image gives: NO_IMAGE of step 3 or 6 or SIGNATURE of step 7; which, is free (R390, assumption 4). -/
def State.tornReason (s : State) : Nat × State := ((if s.draw.1.toNat % 2 = 0 then 1 else 4), s.draw.2)

/-- The DIMM rules of R478: none where they hold, else the first channel that breaks one. -/
def dimmFault (ds : List Dimm) : Option Nat :=
  let ref := ds.head?
  let badDimm := fun (d : Dimm) => !(d.registered && decide (d.gib ∈ [32, 64, 96, 128, 256]) && decide (d.ranks ≤ 4) && d.ecc &&
    decide (d.org = 4 ∨ d.org = 8) && decide (4800 ≤ d.mts) && decide (d.slot < 2) &&
    (match ref with | some r => d.gib == r.gib && d.org == r.org && d.ranks == r.ranks | none => true))
  let per := fun c => ds.filter (fun d => d.channel == c)
  let n := (per 0).length
  (List.range 12).find? (fun c =>
    let l := per c
    decide (l.length ≠ n) || decide (n = 0) || decide (2 < n) || l.any badDimm || !(l.any (fun d => d.slot == 0)) ||
    (decide (l.length = 2) && !(l.any (fun d => d.slot == 1))))

/-- The channel, the offset in it and the slot of a DDR5 address, with DIMMs of so many bytes (R480). -/
def ddrPlace (dimm a : Nat) : Nat × Nat × Nat :=
  let o := a - ddrBase
  let k := o / 256
  let off := k / 12 * 256 + o % 256
  (k % 12, off, if off < dimm then 0 else 1)

/-- Installed DDR5 bytes. -/
def dimmBytes (ds : List Dimm) : Nat := ds.foldl (fun n d => n + d.gib * 2 ^ 30) 0

/-- Size of the HDM window in GiB: what the board block asks for, or 0 where the installed DDR5 does not hold it and 1 GiB more (R359). -/
def State.hdmGib (s : State) : Nat :=
  let g := rd 6 2 s.fw.cfg
  if g ≤ 512 ∧ (g = 0 ∨ g * 2 ^ 30 + 2 ^ 30 ≤ s.ddrBytes) then g else 0

/-- The measurements that step 9 forms (R342): configuration record, with the board's WP_EN in byte 1 (R477) and the HDM window, fuse registers,
numerics level. -/
def State.measures (s : State) (wp : Bool) : State :=
  let cfg := [0] ++ le 1 (b2n wp) ++ zeros 6 ++ le 8 (s.hdmGib * 2 ^ 30) ++ le 6 (s.rf (oBjnPort 0) 47 0) ++
    le 6 (s.rf (oBjnPort 1) 47 0) ++ zeros 36
  let io := [oSerial, oKh0 0, oKh0 1, oKh0 2, oKh0 3, oKh1 0, oKh1 1, oKh1 2, oKh1 3, oFloor 0, oFloor 1, oFuseVid]
  let ring := fun r => [oRing r + 0x140, oRing r + 0x148] ++
    (List.range 250).flatMap (fun n => [oCore (r * 250 + n), oCore (r * 250 + n) + 8, oCore (r * 250 + n) + 16])
  let fuses := io ++ (List.range 8).flatMap ring
  { s with fw := { s.fw with meas3 := sha3 (fit 64 cfg), meas4 := sha3 (fuses.flatMap (fun o => le 8 (s.rw o).toNat)),
                             meas5 := sha3 (le 8 1) } }

/-- CXL_HDM from the board block and the installed DDR5; a window that does not fit is 0 bytes with a record (R359). -/
def State.setHdm (s : State) : State :=
  let g := rd 6 2 s.fw.cfg
  let t := (s.wf oCxlHdm 57 48 s.hdmGib).wf oCxlHdm 47 0 (ddrBase + s.ddrBytes - s.hdmGib * 2 ^ 30)
  if s.hdmGib = g then t else t.hostRec srcRm 4 0 g

/-- REF_OK of the reference inputs present: 100 MHz, 156.25 MHz of the site ports and of the Borjan ports, 10 MHz and 1PPS, a bit each. The one bit
for 156.25 MHz shows both (R473, assumption 75). -/
def refOk (refs : Nat) : Nat := b2n (bit 0 refs) + 2 * b2n (bit 1 refs && bit 2 refs) + 4 * b2n (bit 3 refs) + 8 * b2n (bit 4 refs)

/-- Calliope starts with the boot record: what waited in the source queues of a device that had not booted is gone, and sources count from 0 (R427,
R428, assumption 75). -/
def Cal.fresh (c : Cal) : Cal := { c with queues := [], lost := [], seqs := [] }

/-- BOOT (R337): the boot record, the board block with the HDM window (R359), then the ROM's steps in order; the Ringmaster is released when all
pass, and Sideshow mode follows a failure, three failed starts (R391) or a DIMM population that breaks R478 (R479). -/
def execBoot (env : BootEnv) (s : State) : Out :=
  if s.fw.up ∨ s.fw.side ∨ s.fw.starting ∨ s.fw.running ≠ [] ∨ s.inReset then go s
  else
    let blk := boardBlock s.flash
    let s := { s with fw := { s.fw with cfg := blk.1, wp := env.wpEn }, ddrBytes := dimmBytes env.dimms, dimms := env.dimms, cal := s.cal.fresh }
    let s := ((s.wf oClk 63 63 1).wf oClk 62 62 0).wf oClk 61 58 (refOk s.pwr.refs)
    let torn := s.tornReason
    let s := if s.fw.torn then torn.2 else s
    let img0 := cellsReadN flashDflt s.flash 0 4096
    let img := if fwHeaderOk img0 then cellsReadN flashDflt s.flash 0 (4096 + rd 16 8 img0) else img0
    let why : Nat :=
      if !env.entropyOk then 6
      else if s.fw.torn then torn.1
      else if !fwHeaderOk img0 then 1
      else if (s.keySlotOf img).isNone then 2
      else if rd 8 4 img < s.floor then 3
      else if !env.readOk then 1
      else if s.fwCheck img ≠ none then 4
      else if 3 ≤ s.rf oBootAttempts 63 56 then 5
      else if (dimmFault env.dimms).isSome then 7
      else 0
    let passed := why = 0 ∨ why = 5 ∨ why = 7
    let s := s.wf oSecStatus 63 56 why
    let s := s.post srcRm 1 (le 4 s.fw.boots ++ le 1 (s.rf oRstStatus 63 60) ++ le 1 why ++ zeros 2 ++ le 8 s.committed)
    let s := if blk.2 then s else s.hostRec srcRm 4 0 0
    let s := s.setHdm.wpHold
    let s := if passed then (s.booted img).measures env.wpEn else s
    let s := { s with keys := { s.keys with kem := some s.keys.kemCount, kemCount := s.keys.kemCount + 1, identity := true } }
    if why = 0 then go (s.release img 0)
    else
      let s := if why = 7 then s.linkRec srcRm 3 ((dimmFault env.dimms).getD 0) 3 0 0 else s
      go (s.sideshow why)

/-- The VCORE setpoint of a performance level (R439, R475): the fused code with the correction of 0 to +25 mV, whose law is not given (a
free value, assumption 4), clamped to code 80. -/
def State.setVid (s : State) (level : Nat) : State :=
  let d := s.draw
  let code := min 80 (bits (8 * level + 7) (8 * level) (s.rw oFuseVid).toNat + d.1.toNat % 11)
  let t := d.2.wf oPwrMeas 15 0 ((6000 + 25 * code) / 10)
  if code = s.pwr.vid then t else ({ t with pwr := { t.pwr with vid := code } }).emit (.pin "VID" code)

/-- A memory erase that is due starts when the firmware has started after a device reset with MEM_ERASE set (R462): HBM and DDR5 read
as zeros, and what they held for the barrier, the optimiser and a permutation is gone. -/
def State.eraseStart (s : State) : State :=
  if s.eraseDue then
    { s with erasing := true, eraseDue := false, strg := {}, reshard := none, job := { noStep := s.job.noStep }, mem := s.mem.filter (fun c => decide (hostWin ≤ c.1)), bad := s.bad.filter (fun b => decide (hostWin ≤ b)) }
  else s

/-- The image of a handover declares itself started (R386). -/
def State.handoverDone (s : State) (img : Bytes) : State :=
  let t := { s with fw := { s.fw with verified := none } }.release img 4
  let t := { t with fw := { t.fw with starting := false, up := true, activate := none, due := false, byHandover := false, uncommitted := true, activations := t.fw.activations + 1 } }
  let t := (t.satAdd oSecStatus 23 0 1).wf oMbxStatus 59 59 1
  let t := (t.fwRec 2 0).raise 10
  match s.fw.activate.bind t.taken? with
  | some tk => t.complete tk 0 0 (le 8 s.fw.atStep.toNat)
  | none => t

/-- After a device reset that ended a step, REWIND_NEEDED is posted once the firmware runs (R411, R464). -/
def State.rewindAfterReset (s : State) : State :=
  if s.rf oRstJob 61 56 = 0x25 ∧ s.job.prog.isNone then s.needRewind 5 else s

/-- A permutation that a device reset has interrupted goes on under the routes of the running programme (R235). -/
def State.resumeRoute (s : State) : State :=
  match s.reshard, s.job.prog with
  | some _, some p => (s.wf oSiteId 19 0 p.route.addr).wf oSiteId 27 24 p.route.mirrorPort
  | _, _ => s

/-- The image of a start or restart declares itself started (R391, R394). An image that finds a DIMM population which breaks R478 hands the device
back to the ROM (R479). -/
def State.startDone (s : State) : State :=
  let t := { s with fw := { s.fw with starting := false, byHandover := false, verified := if s.fw.byHandover then none else s.fw.verified } }
  match dimmFault t.dimms with
  | some c => (t.linkRec srcRm 3 c 3 0 0).sideshow 7
  | none =>
    let t := { t with fw := { t.fw with up := true, uncommitted := s.fw.byHandover } }
    let t := (t.wf oMbxStatus 63 60 (if s.fw.byHandover then 4 else 1)).wf oMbxStatus 59 59 1
    (t.setVid (t.rf oPwrStatus 63 60)).eraseStart.resumeRoute.rewindAfterReset

/-- IMAGE_READY (R386, R391, R394): the image declares itself started. After a handover the new image completes
FW_ACTIVATE with the step at the handover; it reads ACTIVATED as long as flash does not hold it. -/
def execImageReady (s : State) : Out :=
  if s.fwState = 3 then
    match s.fw.verified with
    | none => go s
    | some img => go (s.handoverDone img)
  else if s.fw.starting then go s.startDone
  else go s

end Sys2Proof.Machine
end

