-- ==== Sys2Proof/Machine/Recorder.lean ====
section
/-!
DEFINITION. The commands of Calliope: records reaching the buffer, ends of flushes, the partner bank, DIAG_REC_CLEAR
(R430, R432, R434 to R436).
-/

namespace Sys2Proof.Machine

/-- Whether the device has booted since the last reset, so that its boot record has been posted (R428, assumption 75). -/
def State.recording (s : State) : Bool := s.fw.up || s.fw.side || s.fw.starting || !s.fw.running.isEmpty

/-- RECORD_POST (R427, R430): the oldest record in the queue of a source reaches the buffer, none before the boot record. -/
def execRecordPost (source : BitVec 32) (s : State) : Out := go (if s.recording then s.absorbOne (queueOf source.toNat) else s)

/-- FLUSHED (R434, R436): the running black-box write, or the partner transmission, ends. A word of the buffer that it could not correct is an SRAM error
at its read (R396). -/
def execFlushed (e : FlushEnd) (s : State) : Out :=
  let t := match e.upset with
    | some w => s.engineError srcCal 2 0xFF 0xFF 0 (8 * w.val) 0
    | none => s
  go (if e.toPartner then t.endSend else t.endFlush)

/-- PENDING_FLUSH_START (R436): the pending flush starts once the running one has ended. -/
def execPendingFlushStart (s : State) : Out := go s.startPending

/-- DDR5 address of the partner bank (R435). -/
def bankBase : Nat := 0x10001000000

/-- The partner bank's image: header and records, oldest first (R434, R435). -/
def bankImage (cs : List BankChunk) (part : Bool) : Bytes :=
  match cs with
  | [] => []
  | c :: _ =>
    let recs := (cs.reverse).flatMap (·.data)
    let first := (cs.getLast?.getD c).pos.toNat
    let head := le 4 0x4B4E425A ++ le 2 1 ++ le 1 c.cause.toNat ++ le 1 (b2n part) ++ le 8 c.flush.toNat ++ le 8 c.step.toNat ++
      le 8 c.time.toNat ++ le 8 first ++ le 4 recs.length ++ le 4 c.src.toNat ++ zeros 12
    head ++ le 4 (if part then 0 else crc32c (fit 60 head ++ recs)) ++ recs

/-- PARTNER_BANK_RECEIPT (R435): a chunk of the partner's buffer is kept, newest chunk first; a receipt, which its flush number tells, replaces
the one before, ends complete with the oldest chunk or partial when the sender stops, and sets REC at its end (R433). A device in
Sideshow mode receives nothing. -/
def execPartnerBankReceipt (c : BankChunk) (s : State) : Out :=
  if s.fw.side ∨ c.src.toNat ≠ s.partner then go s
  else
    let old := if s.rf oCalPbank 63 62 = 2 ∧ (c.stopped ∨ s.cal.bank.all (fun x => x.flush == c.flush)) then s.cal.bank else []
    let cs := if c.stopped then old else old ++ [c]
    let n := cs.foldl (fun a x => a + x.data.length) 0
    let fin := c.last || c.stopped
    let part := c.stopped
    let t := { s with cal := { s.cal with bank := cs } }
    let t := t.wf oCalPbank 63 62 (if !fin then 2 else if part then 3 else 1)
    let t := (t.wf oCalPbank 61 56 c.cause.toNat).wf oCalPbank 43 24 c.src.toNat
    let t := t.wf oCalPbank 13 0 (n / 1024)
    if fin then
      let t := t.wipe bankBase 0x801000
      go ((t.put bankBase (bankImage cs part)).raise 11)
    else go t

/-- The effect of DIAG_REC_CLEAR (R432); a LIVE clear that takes CAL_OLDEST past CAL_MARK is a crossing of R433 (assumption 66). -/
def State.recClear (s : State) (what : Nat) : State :=
  let s := (SMap.get s.cal.queues (queueOf srcCal) []).foldl State.absorb s
  let s := { s with cal := { s.cal with queues := SMap.erase s.cal.queues (queueOf srcCal) } }
  let s := if bit 0 what then
      let crossed := decide ((s.rw oCalOldest).toNat ≤ (s.rw oCalMark).toNat) && decide ((s.rw oCalMark).toNat < (s.rw oCalWrite).toNat)
      let t := { s with cal := { s.cal with buf := [] } }.ww oCalOldest (s.rw oCalWrite)
      if crossed then t.raise 11 else t
    else s
  let s := if bit 1 what then { s with cal := { s.cal with slot0 := none, slot1 := none } }.loadBbox else s
  let s := if bit 2 what then
      (({ s with cal := { s.cal with bank := [] } }).ww oCalPbank 0).wipe bankBase 0x801000
    else s
  let s := s.post srcCal 3 (le 1 what ++ zeros 7)
  s.absorbOne (queueOf srcCal)

/-- DIAG_REC_CLEAR (R432): BUSY during a flush, the partner transmission of one (assumption 66) or a partner receipt. -/
def execDiagRecClear (tag : BitVec 32) (s : State) : Out :=
  withCmd s tag 0x0A01 fun s t =>
    if s.cal.flush.isSome ∨ s.cal.sending ≠ [] ∨ s.rf oCalPbank 63 62 = 2 then s.done t 5
    else (s.recClear (rd 0 1 t.payload)).done t 0

end Sys2Proof.Machine
end

