-- ==== Sys2Proof/Machine/Resets.lean ====
section
/-!
DEFINITION. Resets and hangs: core, cluster, Ringmaster and device reset, the power cycle (R110, R388, R391, R408, R409, R446, R464,
R471, R472), hang recovery (R401 to R404) and the job rewind (R411).
-/

namespace Sys2Proof.Machine

/-! ### Core and cluster resets (R110, R408, R424) -/

/-- A reset target out of range has no effect and posts a HOST record (R424, R428). -/
def State.badTarget (s : State) (kind target : Nat) : State := s.hostRec srcRm 3 oRstCtl (kind * 2 ^ 60 + target)

/-- CORE_RESET (R110, R408): RST_CTL.KIND 1. -/
def execCoreReset (target : BitVec 17) (s : State) : Out :=
  if 80000 ≤ target.toNat then go (s.badTarget 1 target.toNat) else go (s.resetCore target.toNat)

/-- CLUSTER_RESET (R110, R408): RST_CTL.KIND 2. -/
def execClusterReset (target : BitVec 17) (s : State) : Out :=
  if 2000 ≤ target.toNat then go (s.badTarget 2 target.toNat) else go (s.resetCluster target.toNat)

/-- Post a FENCE record with its flush (R428, R434). -/
def State.fenceEvent (s : State) (event unit : Nat) : State :=
  s.urgent 2 srcRm 0x0503 (le 1 event ++ zeros 3 ++ le 4 unit ++ zeros 8)

/-- RESET_ESCALATION (R408): the core reset that has not completed within 10 µs becomes a reset of the core's cluster; the cluster reset
that has not completed within 100 µs fences the cluster. ESCALATED tells of the most recent reset (R424). -/
def execResetEscalation (core : Bool) (target : BitVec 17) (s : State) : Out :=
  let n := target.toNat
  if !s.pwr.resets.contains (core, n) then go s
  else
    let last := s.rf oRstStatus 63 60 = 2 ∧ s.rf oRstStatus 16 0 = n
    let t := { s with pwr := { s.pwr with resets := s.pwr.resets.filter (· != (core, n)) } }.fenceEvent 5 n
    go (if core then (t.resetCluster (n / 40)).wf oRstStatus 59 59 1
        else if last then (t.fenceCluster n).wf oRstStatus 59 59 1 else t.fenceCluster n)

/-- FENCE_FAIL (R409, R412): the clamp has not confirmed, or the Midway or a die edge has failed. -/
def execFenceFail (deviceFault : Bool) (unit : BitVec 32) (s : State) : Out :=
  let b := if deviceFault then 57 else 58
  go ((((s.wf oRstStatus b b 1).fenceEvent (if deviceFault then 4 else 3) unit.toNat).raise 7).ibi 4)

/-! ### Ringmaster restart (R388, R391, R464) -/

/-- The reason that a flash image which the ROM does not run gives (R337, R390). -/
def romReason : Nat → Nat
  | 4 => 2
  | 5 => 3
  | 7 => 4
  | _ => 1

/-- Three failed starts within 600 s: the ROM holds the Ringmaster (R391). -/
def State.startsSpent (s : State) : State := if 3 ≤ s.rf oBootAttempts 63 56 ∧ !s.fw.side then s.sideshow 5 else s

/-- The ROM boots the image in board flash, or Sideshow mode follows when that image fails (R337, R339, R342, R388, R390). -/
def State.fromFlash (s : State) : State :=
  let h := cellsReadN flashDflt s.flash 0 4096
  let img := if fwHeaderOk h then cellsReadN flashDflt s.flash 0 (4096 + rd 16 8 h) else h
  if s.fw.torn then s.tornReason.2.sideshow s.tornReason.1
  else match s.fwCheck img with
  | none => ((s.booted img).measures s.fw.wp).release img 7
  | some k => s.sideshow (romReason k)

/-- Every command taken and not completed completes with ABORTED (R388). -/
def State.abortAll (s : State) : State := s.mbx.taken.foldl (fun t x => t.done x 8) s

/-- What the Ringmaster holds of commands, queued steps and staging goes; an accepted permutation that has started goes on (R388, R464). -/
def State.dropStaging (s : State) : State :=
  { s with
    job := { s.job with staging := none, queue := [], runWait := none, noStep := s.job.noStep || s.restore.isSome }
    fw := { s.fw with staging := none, verified := none, activate := none, due := false, fetch := none, up := false, byHandover := false, commit := none }
    pwr := { s.pwr with wakeTag := none }
    restore := none
    reshard := s.reshard.filter (·.started) }

/-- The VOL counters of the Ringmaster complex return to default: those of MIR_STATUS (R464, assumption 47). -/
def State.rmVol (s : State) : State := ((s.wf oMir 15 12 0).wf oMir 11 5 0).wf oMir 4 0 0

/-- A Ringmaster restart (R388, R391, R434, R464), with the cause of its flush: the complex's VOL counters are cleared;
commands end with ABORTED, the running step is abandoned, staging is discarded, the
FIRMWARE record triggers its flush, a handover or an activated image that had not been committed counts as a failed start, as does a start before
READY, flash runs, and PHASE 1 is settled (R191).
Sideshow mode and a device that has not been released have no Ringmaster to restart. -/
def State.restartRm (s : State) (flushCause : Nat) : State :=
  if s.fw.side ∨ !(s.fw.up || s.fw.starting) then s
  else
    let failed := if s.fwState = 3 ∨ s.fw.uncommitted then 3 else if s.rf oMbxStatus 59 59 = 0 then 2 else 0
    let t := (((s.abortAll).abandon 4).dropStaging.commitCut).rmVol
    let t := (t.wf oRstStatus 63 60 3).wf oMbxStatus 59 59 0
    let t := t.urgent flushCause srcRm 0x0801 (le 1 6 ++ zeros 3 ++ le 4 (t.rf oSecStatus 31 24) ++ le 8 t.committed)
    let t := if failed = 0 then t else t.failedStart failed
    let t := if 3 ≤ t.rf oBootAttempts 63 56 then t.sideshow 5 else t.fromFlash
    if t.phase = 1 ∧ t.strg.query.isNone then t.askGroup else t

/-- RINGMASTER_RESTART (R388, R424): RST_CTL.KIND 3. -/
def execRingmasterRestart (s : State) : Out := go (s.restartRm 4)

/-- RINGMASTER_FAULT (R388, R391). -/
def execRingmasterFault (s : State) : Out := go (s.restartRm 4)

/-- FIRMWARE_WATCHDOG (R388, R396, R434): the hardware watchdog has not been serviced for 100 ms; its flush has the watchdog's CAUSE 9
(assumption 75). -/
def execFirmwareWatchdog (s : State) : Out := go (s.restartRm 9)

/-- HANDOVER_TIMEOUT (R388): the new image has not completed the handover within 5 ms. -/
def execHandoverTimeout (s : State) : Out := if s.fwState = 3 then go (s.restartRm 4) else go s

/-- START_TIMEOUT (R391): the image released has not set READY within 10 s. -/
def execStartTimeout (s : State) : Out :=
  if s.fw.starting then
    go (({ s with fw := { s.fw with starting := false, byHandover := false } }).failedStart 1).startsSpent
  else go s

/-! ### Device reset and power cycle (R446, R464, R471, R472) -/

/-- A partner-bank receipt that a reset cuts off ends partial (R435). -/
def State.endReceipt (s : State) : State :=
  if s.rf oCalPbank 63 62 = 2 then ((s.wf oCalPbank 63 62 3).wipe bankBase 0x801000).put bankBase (bankImage s.cal.bank true) else s

/-- Calliope after a reset: the buffer and positions are gone, the black box and the partner bank stay; a slot whose write is cut off is
no valid image (R429, R434, R464). -/
def Cal.afterReset (c : Cal) (power : Bool) : Cal :=
  let bad := fun (o : Option Slot) => o.map (fun x => { x with good := false })
  let hit := fun (k : Nat) => match c.flush with | some f => f.slot == k | none => false
  { slot0 := if hit 0 then bad c.slot0 else c.slot0, slot1 := if hit 1 then bad c.slot1 else c.slot1
    bank := if power then [] else c.bank, flushes := c.flushes }

/-- What the Strongmen and the barrier hold across a device reset, because it lies in DRAM: the commit records, what a flip in PHASE 1
still needs, the outer close and the write-back (R191, R192); in two-phase mode, once the phase-one record has passed, what phase two needs to go
on: the parked gradients, the step's norm and statistics, and the shards done (R184). -/
def Strg.afterReset (g : Strg) : Strg :=
  let base : Strg := { merged := g.merged, outerDone := g.outerDone, touched := g.touched, writeback := g.writeback,
                       closeDue := g.closeDue, digC := g.digC, digN := g.digN }
  if g.phaseOne then
    { base with sumSq := g.sumSq, rowSq := g.rowSq, r3 := g.r3, r3mine := g.r3mine, gfp := g.gfp, wfp := g.wfp, norm2 := g.norm2,
                phaseOne := true, latest := g.latest, parked := g.parked, p1norm := g.p1norm, done := g.done }
  else base

/-- The jobs that a device reset leaves: none, but for the two programmes between which an unfinished permutation, which goes on after the reset,
moves state (R235), and what a failed restore left (R351). -/
def State.jobAfterReset (s : State) : Job :=
  let base : Job := { noStep := s.job.noStep || s.restore.isSome }
  if s.reshard.any (·.started) then { base with prog := s.job.prog, staged := s.job.staged, everRun := s.job.everRun } else base

/-- The device after a device reset, or after a power cycle (R464): fuses, the black box and PWR-class registers stay, but for a power
cycle, and HBM and DDR5 stay, but for a power cycle; everything else in the package returns to its default. A step that ran is abandoned, and a
flash write is cut off (R390). -/
def State.clearDevice (s : State) (power : Bool) : State :=
  let s := if power then s else s.endReceipt
  let ran := s.job.running.isSome
  let regs := resetRegs (fun _ => true) (fun (r : Ret) => r != .fuse && (power || r != .pwr)) s.regs
  let t : State := {
    pending := s.pending, regs := regs, hostMem := s.hostMem, flash := s.flash,
    mem := if power then [] else s.mem.filter (fun c => decide (c.1 < hostWin)),
    bad := if power then [] else s.bad.filter (fun b => decide (b < hostWin)),
    job := if power then {} else s.jobAfterReset,
    ddrBytes := s.ddrBytes, dimms := s.dimms, eraseDue := !power && s.rf oPwrCtl 8 8 == 1,
    strg := if power then {} else s.strg.afterReset, reshard := if power then none else s.reshard.filter (·.started),
    fw := { boots := if power then 0 else s.fw.boots + 1, signs := s.fw.signs, cfg := s.fw.cfg, wp := s.fw.wp, torn := s.fw.torn },
    keys := { kemCount := s.keys.kemCount }, cal := s.cal.afterReset power,
    pwr := { pfw := s.pwr.pfw, thermHold := s.pwr.thermHold, pllHold := s.pwr.pllHold, rails := s.pwr.rails, temps := s.pwr.temps,
             refs := s.pwr.refs },
    i3c := { s.i3c with latched := s.i3cMap }, free := s.free, out := s.out }
  let t := if power then t.loadBbox else t.wf oRstStatus 63 60 4
  let t := if ran ∧ !power then (t.wf oRstJob 61 61 1).wf oRstJob 60 56 5 else t
  let t := if s.fw.commit.isSome then t.wpHold else t
  if s.pwr.vid = 0x14 then t else t.emit (.pin "VID" 0x14)

/-- A device reset, held until the flush has ended (R434, R464). -/
def State.resetDevice (s : State) : State := s.flushOut.clearDevice false

/-- DEVICE_RESET (R424, R434, R464): RST_CTL.KIND 4. A device held in reset stays as it is. -/
def execDeviceReset (s : State) : Out := if s.inReset then go s else go (s.trigger 9).resetDevice

/-- PERST_ASSERT (R472): an assertion shorter than 1 µs is ignored. -/
def execPerstAssert (ns : Nat) (s : State) : Out :=
  if ns < 1000 ∨ s.inReset then go s else go (s.trigger 9).resetDevice

/-- A device that was in reset before goes on to answer the BMC with the values it held then (R476). -/
def State.keepHeld (s before : State) : State :=
  { s with i3c := { s.i3c with latched := if before.inReset then before.i3c.latched else s.i3c.latched } }

/-- POWER_CYCLE (R464, R472): PWRGOOD is negated and the rails return in the order of R471; VIO tells by VIO_POWER_ON when it has been
out of tolerance. -/
def execPowerCycle (s : State) : Out :=
  let p := s.pwr
  go ((({ s with pwr := { p with pfw := false, pllHold := false, rails := p.rails.filter (· == 0) } }).clearDevice true).keepHeld s)

/-- VIO_POWER_ON (R437, R472, R476): PWR-class registers return to default, CAL_BBOX is loaded from the newer valid image, and the
sideband starts afresh. -/
def execVioPowerOn (s : State) : Out :=
  if s.vioOk then go s
  else
    let t := { s with regs := resetRegs (fun _ => true) (fun r => r == Ret.pwr) s.regs
                      pwr := { s.pwr with rails := s.pwr.rails.filter (· != 0) }, i3c := {} }
    go t.loadBbox

/-- RAIL_OUT_OF_TOLERANCE (R471): rails 0, 1 and 2 are VIO, VSRAM and VCORE; the device is held in reset, and nothing is flushed, until the rail is
`back` within its tolerance. VIO tells that by VIO_POWER_ON. -/
def execRailOutOfTolerance (e : RailEv) (s : State) : Out :=
  if e.back then go (if e.rail = 0 then s else { s with pwr := { s.pwr with rails := s.pwr.rails.filter (· != e.rail.val) } })
  else if s.pwr.rails.contains e.rail.val then go s
  else go ((({ s with pwr := { s.pwr with rails := s.pwr.rails ++ [e.rail.val] } }).clearDevice false).keepHeld s)

/-! ### Hang recovery (R401 to R404) -/

/-- Where a suspect's replay starts, with the save areas to restore (R402): its checkpoint when those lie in HBM, else its first entry. -/
def State.replayFrom (s : State) (g k : Nat) : Nat × Option Nat :=
  let ck := s.rf (oCkpt g k) 47 0
  let first := match s.ctxE? g k with | some e => e.list | none => 0
  let area := fld (mkWords (s.peek (ck - 64) 64)) 1 47 0
  if ck = 0 ∨ hbmEnd ≤ area then (first, none) else (ck, some area)

/-- The stuck descriptor of a context and the unit that holds it (R401): the oldest dispatched that has not retired, or the entry at its
position, which the controller holds. -/
def State.stuck (s : State) (g k : Nat) : Nat × Nat :=
  let heads := (s.clu g).queues.filterMap (fun q => if q.1 % 8 = k then (q.2.head?).map (fun it => (it.n, it.addr, q.1 / 8)) else none)
  match heads with
  | [] => ((SMap.get (s.clu g).ctxs k {}).pos, 44)
  | x :: rest => (rest.foldl (fun (m : Nat × Nat × Nat) y => if y.1 < m.1 then y else m) x).2

/-- HANG_RECOVERY (R401): a write of RST_HANG. One while a recovery replays, or of a number above 1,999, is ignored. -/
def execHangRecovery (cluster : BitVec 11) (s : State) : Out :=
  let g := cluster.toNat
  if s.hang.isSome ∨ 1999 < g then go s
  else
    let ks := (List.range 8).filter (fun k => s.ctxState g k == 1 || s.ctxState g k == 2)
    let susp := ks.map (fun k =>
      let d := s.stuck g k
      let r := s.replayFrom g k
      ({ ctx := k, desc := d.1, unit := d.2, start := r.1, area := r.2 } : Susp))
    let t := s.abandon 1
    let t := (t.ww oRstHang (BitVec.ofNat 64 g)).wf oRstHang 63 62 1
    let t := t.wf oRstHang 55 48 (ks.foldl (fun (a : Nat) k => a + 2 ^ k) 0)
    let h : Hang := { cluster := g, susp := susp }
    go ((({ t with hang := some h }).resetCluster g).suspectsFrom h 0 (susp.length + 1))

/-- SUSPECT_SHORT_TIMEOUT (R403): no descriptor of the suspect has retired for SHORT_US. -/
def execSuspectShortTimeout (s : State) : Out := go (s.suspectVerdict 1)

/-- SUSPECT_LIMIT_TIMEOUT (R403): LIMIT_MS has passed. -/
def execSuspectLimitTimeout (s : State) : Out := go (s.suspectVerdict 2)

/-- The bytes of a suspect in the HANG_VERDICT record (R428); UNIT is the global core or cluster number. -/
def suspBytes (g : Nat) (tests : List (CtxNo × Bool)) (x : Susp) : Bytes :=
  let v := x.verdict.getD 2
  let pass := ((tests.find? (fun y => y.1.val == x.ctx)).map (·.2)).getD true
  le 1 x.ctx ++ le 1 v ++ le 1 (if v = 1 then b2n (!pass) else 2) ++ zeros 1 ++ le 4 (if x.unit < 40 then g * 40 + x.unit else g) ++
    le 8 x.desc

/-- HANG_VERDICT (R404, R412): the units of GUILTY contexts are tested and a failing one is fenced, the record is posted, the cluster is
reset a last time, and a rewind that waited goes on (R411). -/
def execHangVerdict (selftests : List (CtxNo × Bool)) (s : State) : Out :=
  match s.hang with
  | none => go s
  | some h =>
    if h.cur.isSome then go s
    else
      let g := h.cluster
      let fails := fun (x : Susp) => decide (x.verdict = some 1) && selftests.any (fun y => y.1.val == x.ctx && !y.2)
      let t := (h.susp.filter fails).foldl (fun t x => if x.unit < 40 then t.fenceCore (g * 40 + x.unit) else t.fenceCluster g) s
      let t := t.post srcRm 0x0504 (le 2 g ++ le 1 h.susp.length ++ zeros 5 ++ h.susp.flatMap (suspBytes g selftests))
      let t := (t.raise 7).ibi 7
      go ((({ t with hang := none }).resetCluster g).wf oRstHang 63 62 2).settle

/-- JOB_REWIND (R411): a write of RST_JOB. An open PHASE is settled first (R191), and a suspect replay ends first. -/
def execJobRewind (value : Word) (s : State) : Out :=
  let s := (s.wf oRstJob 55 48 (bits 55 48 value.toNat)).wf oRstJob 47 0 (bits 47 0 value.toNat)
  if s.phase = 0 ∧ s.hang.isNone then go (s.rewindNow value)
  else
    let t := { s with job := { s.job with settle := some value } }
    let t := t.wf oRstJob 63 62 1
    go ((if t.phase = 1 ∧ t.strg.query.isNone ∧ t.job.prog.isSome then t.askGroup else t).settle)

end Sys2Proof.Machine
end

