-- ==== Sys2Proof/Machine/Romusko.lean ====
section
/-!
DEFINITION. The Romusko interface: the request and completion rings, the forms of request entries (R369 to R380), the interrupt mask
and coalescing (R368), and what BAR2 and BAR4 read as (R363, R365, R431).
-/

namespace Sys2Proof.Machine

/-! ### Forms of requests (R369, R378, R379) -/

/-- Where the payload of a command lies: none, so many bytes inline, or in host memory with its least and greatest length. -/
inductive PayForm where
  | none
  | inline (n : Nat)
  | host (lo hi : Nat)
  deriving DecidableEq, Repr

/-- The payload of each opcode (R378, R380, R382); an opcode that is not here is unknown (R377). -/
def payForms : List (Nat × PayForm) :=
  [(0x0101, .none), (0x0201, .host 17 65536), (0x0202, .none), (0x0203, .none), (0x0204, .none), (0x0205, .none),
   (0x0206, .host 4096 4096), (0x0301, .inline 32), (0x0302, .none), (0x0401, .host 1144 1144), (0x0402, .host 64 64),
   (0x0403, .host 56 56), (0x0404, .none), (0x0501, .host 17 65536), (0x0502, .none), (0x0503, .none), (0x0601, .host 1 65536),
   (0x0602, .host 64 64), (0x0603, .none), (0x0701, .host 64 64)] ++
  [(0x0801, .host 1 65536), (0x0802, .inline 12), (0x0803, .host 8 65536), (0x0804, .inline 16), (0x0805, .inline 16),
   (0x0901, .host 64 65536), (0x0902, .none), (0x0903, .host 64 65536), (0x0A01, .inline 8), (0x0A02, .inline 16), (0x0A03, .inline 8),
   (0x0B01, .inline 2), (0x0B02, .inline 4), (0x0C01, .inline 8), (0x0C02, .inline 8), (0x0C03, .inline 8), (0x0D01, .inline 8),
   (0x0D02, .inline 8), (0x0E01, .host 64 64), (0x0E02, .host 64 64)]

/-- The commands that write output (R378). -/
def hasOutput (op : Nat) : Bool := op == 0x0301 || op == 0x0302 || op == 0x0A02

/-- Reserved bytes of an inline payload, as offset and number (R382, R405, R407, R432). -/
def inlineReserved : Nat → Nat × Nat
  | 0x0802 => (7, 1)
  | 0x0A01 => (1, 7)
  | 0x0A02 => (2, 2)
  | 0x0A03 => (1, 3)
  | 0x0D02 => (1, 3)
  | _ => (0, 0)

/-- FLAGS.HOST of an entry. -/
def reqHost (e : Bytes) : Bool := bit 0 (rd 2 1 e)

/-- Whether an entry has the form that its opcode asks for (R369, R379). -/
def reqFormOk (form : PayForm) (e : Bytes) : Bool :=
  let op := rd 0 2 e
  let out := rd 8 8 e
  let place := match form with
    | .none => !reqHost e && rd 3 1 e == 0 && allZero (slice 16 48 e)
    | .inline n => !reqHost e && rd 3 1 e == n && allZero (slice (16 + n) (48 - n) e) &&
        allZero (slice (16 + (inlineReserved op).1) (inlineReserved op).2 e)
    | .host lo hi => reqHost e && rd 3 1 e == 0 && rd 16 8 e % 64 == 0 && decide (lo ≤ rd 24 4 e) && decide (rd 24 4 e ≤ hi) &&
        allZero (slice 28 36 e)
  decide (rd 2 1 e < 8) && place && (if hasOutput op then out % 64 == 0 && out != 0 else out == 0)

/-- The commands that Sideshow mode offers; of DIAG_DUMP, scope 0 (R378, R405). -/
def sideshowOk (op : Nat) (inline : Bytes) : Bool :=
  decide (op ∈ [0x0101, 0x0201, 0x0204, 0x0205, 0x0301, 0x0302]) || (op == 0x0A02 && rd 0 1 inline == 0)

/-- The status that ends a request as it is taken, if any (R373, R375, R377, R379). -/
def State.takeStatus (s : State) (hostOk : Bool) (e : Bytes) : Option Nat :=
  let op := rd 0 2 e
  match SMap.get? payForms op with
  | none => some 1
  | some form =>
    if s.fw.side ∧ !sideshowOk op (slice 16 48 e) then some 7
    else if (s.taken? (BitVec.ofNat 32 (rd 4 4 e))).isSome then some 4
    else if !reqFormOk form e then some 3
    else if reqHost e ∧ !hostOk then some 6
    else none

/-- A request entry as a taken request, its payload read (R369, R375). -/
def State.takenOf (s : State) (e : Bytes) : Taken :=
  { tag := BitVec.ofNat 32 (rd 4 4 e), opcode := rd 0 2 e, ordered := bit 1 (rd 2 1 e), noirq := bit 2 (rd 2 1 e), outAddr := rd 8 8 e,
    payload := if reqHost e then s.hostGet (rd 16 8 e) (rd 24 4 e) else slice 16 (rd 3 1 e) e }

/-- Whether the device takes requests: someone runs the Romusko interface, no handover is under way (R387), and a completion has room
(R372). -/
def State.canTake (s : State) : Bool :=
  (s.fw.up || s.fw.side) && s.fwState != 3 && !s.inReset && s.rf oMbxReq 15 8 != s.rf oMbxReq 7 0 &&
    decide (s.mbx.taken.length + s.mbx.wait.length + s.unconsumed < 255)

/-- A request that completes as it is taken; an earlier request of the same TAG is unaffected (R373). -/
def State.refuse (s : State) (t : Taken) (status : Nat) : State :=
  let c : Cpl := { tag := t.tag, opcode := t.opcode, status := BitVec.ofNat 16 status, outBytes := 0, result := zeros 16, noirq := t.noirq }
  ({ s with mbx := { s.mbx with wait := s.mbx.wait ++ [c] } }).stallCheck

/-- REQUEST_TAKE (R371 to R373, R375, R377, R379): the entry at HEAD is read with its host payload; a request that cannot run completes
at once, any other is taken. -/
def execRequestTake (hostOk : Bool) (s : State) : Out :=
  if !s.canTake then go s
  else
    let h := s.rf oMbxReq 15 8
    let e := fit 64 (SMap.get s.mbx.req h [])
    let t := s.wf oMbxReq 15 8 ((h + 1) % 256)
    match s.takeStatus hostOk e with
    | some st => go (t.refuse { s.takenOf e with payload := [] } st)
    | none => go { t with mbx := { t.mbx with taken := t.mbx.taken ++ [s.takenOf e] } }

/-! ### The rings (R368, R370, R371) -/

/-- Entries that the host writes, from an index on. -/
def putEntries (m : SMap Bytes) (i : Nat) : List Bytes → SMap Bytes
  | [] => m
  | e :: es => putEntries (SMap.set m (i % 256) (fit 64 e)) (i + 1) es

/-- REQUEST_DOORBELL (R371): what the host has written to its memory and to the ring from the old TAIL on, then the new TAIL. -/
def execRequestDoorbell (tail : BitVec 8) (entries : List (List Byte)) (hostWrites : List (Nat × Byte)) (s : State) : Out :=
  let t := { s with hostMem := hostWrites.foldl (fun m w => cellsPut hostDflt m w.1 w.2) s.hostMem }
  if t.inReset then go t
  else
    let t := { t with mbx := { t.mbx with req := putEntries t.mbx.req (t.rf oMbxReq 7 0) entries } }
    go (t.wf oMbxReq 7 0 tail.toNat)

/-- The bytes of a completion entry (R370). -/
def cplBytes (c : Cpl) (phase : Nat) : Bytes :=
  le 4 c.tag.toNat ++ le 2 c.opcode ++ le 2 c.status.toNat ++ le 4 c.outBytes.toNat ++ le 1 phase ++ zeros 3 ++ fit 16 c.result

/-- A posted completion counts toward vector 0; CPL_COUNT unreported ones signal it (R368). -/
def State.countCpl (s : State) : State :=
  let n := s.mbx.unreported + 1
  if max 1 (s.rf oIntCoalesce 7 0) ≤ n then ({ s with mbx := { s.mbx with unreported := 0 } }).raise 0
  else { s with mbx := { s.mbx with unreported := n } }

/-- COMPLETION_POST (R370, R371): the oldest completion goes to the slot at TAIL; PHASE inverts as TAIL wraps to 0. -/
def execCompletionPost (s : State) : Out :=
  match s.mbx.wait with
  | [] => go s
  | c :: rest =>
    if s.cplFull then go s
    else
      let k := s.rf oMbxCpl 15 8
      let ph := s.rf oMbxCpl 16 16
      let t := { s with mbx := { s.mbx with wait := rest, cpl := SMap.set s.mbx.cpl k (cplBytes c ph) } }
      let t := (t.wf oMbxCpl 15 8 ((k + 1) % 256)).wf oMbxCpl 16 16 (if k = 255 then 1 - ph else ph)
      let t := t.stallCheck
      go (if c.noirq then t else t.countCpl)

/-- The host has consumed completions up to HEAD (R371). -/
def State.setHead (s : State) (head : Nat) : State := (s.wf oMbxCpl 7 0 head).stallCheck

/-- MBX_CPL_HEAD_WRITE (R371). -/
def execMbxCplHeadWrite (head : BitVec 8) (s : State) : Out := go (if s.inReset then s else s.setHead head.toNat)

/-- A write of INT_MASK: a bit that is set and is newly unmasked fires its vector (R368). -/
def State.setMask (s : State) (v : Nat) : State :=
  let old := s.rf oIntMask 12 0
  let st := s.rf oIntStatus 12 0
  ((List.range 13).filter (fun i => bit i old && !bit i v && bit i st)).foldl (fun t i => t.fire i) (s.wf oIntMask 12 0 v)

/-- What the host writes to the MSI-X table and to the function mask: a vector that is pending and no longer masked sends its message (R363,
R368). -/
def State.msixWrite (s : State) (table : List (Fin 0x400 × Byte)) (fnMask : Option Bool) : State :=
  let t := { s with bar4 := table.foldl (fun m x => cellsPut bar4Dflt m x.1.val x.2) s.bar4
                    mbx := { s.mbx with fnMask := fnMask.getD s.mbx.fnMask } }
  ((List.range 64).filter (fun v => t.rf oPba v v == 1 && !t.msixMasked v)).foldl (fun u v => (u.wf oPba v v 0).emit (.msix v)) t

/-- INT_MASK_WRITE (R368): what the host has written to the MSI-X masks takes effect, then the new INT_MASK (assumption 74). -/
def execIntMaskWrite (w : MaskWrite) (s : State) : Out :=
  go (if s.inReset then s else (s.msixWrite w.table w.fnMask).setMask w.mask.toNat)

/-- CPL_COALESCE_TIMEOUT (R368): CPL_USEC have passed since the first unreported completion. -/
def execCplCoalesceTimeout (s : State) : Out :=
  if s.rf oIntCoalesce 25 16 = 0 ∨ s.mbx.unreported = 0 then go s
  else go (({ s with mbx := { s.mbx with unreported := 0 } }).raise 0)

/-! ### What BAR2 and BAR4 read as (R363, R365, R431) -/

/-- The image of a black-box slot (R434). -/
def slotImage (x : Slot) : Bytes :=
  let head := le 4 0x5842425A ++ le 2 1 ++ le 1 x.cause ++ zeros 1 ++ le 8 x.flush ++ le 8 x.step.toNat ++ le 8 x.time.toNat ++
    le 8 x.firstPos ++ le 4 x.data.length ++ le 4 x.src ++ zeros 12
  head ++ le 4 (crc32c (head ++ x.data)) ++ x.data

/-- A byte of the Calliope window (R431). -/
def State.windowByte (s : State) (i : Nat) : Byte :=
  let cur := (s.rw oCalCursor).toNat / 8 * 8
  match s.rf oCalCtl 1 0 with
  | 0 =>
    let pos := cur + i
    if pos < (s.rw oCalOldest).toNat ∨ (s.rw oCalWrite).toNat ≤ pos then 0 else s.cal.buf.flatten.getD (pos - (s.rw oCalOldest).toNat) 0
  | 1 => (match (newerSlot s.cal).bind (slotOf s.cal) with | some x => (slotImage x).getD i 0 | none => 0)
  | 2 =>
    let o := cur % 0x800000 + i
    if s.fw.side ∨ 0x801000 ≤ o then 0 else cellsRead memDflt s.mem (bankBase + o)
  | _ => 0

/-- A byte of BAR2 (R365). -/
def State.readBar2 (s : State) (o : Nat) : Byte :=
  if o < 0x4000 then (SMap.get s.mbx.req (o / 64) []).getD (o % 64) 0
  else if o < 0x6000 then (SMap.get s.mbx.cpl ((o - 0x4000) / 32) []).getD (o % 32) 0
  else if 0x800000 ≤ o ∧ o < 0x810000 then s.windowByte (o - 0x800000)
  else 0

/-- A byte of BAR4, the MSI-X table and its pending bits (R363). -/
def State.readBar4 (s : State) (o : Nat) : Byte :=
  if 0x1000 ≤ o ∧ o < 0x1008 then BitVec.ofNat 8 (bits (8 * (o - 0x1000) + 7) (8 * (o - 0x1000)) (s.rw oPba).toNat) else cellsRead bar4Dflt s.bar4 o

end Sys2Proof.Machine
end

