-- ==== Sys2Proof/Machine/HostRegs.lean ====
section
/-!
DEFINITION. REGISTER_WRITE: host writes of BAR0 registers (R11, R12, R363, R364, R366, R424, R437).
-/

namespace Sys2Proof.Machine

/-- Whether a programme is loaded, running or staged (R366). -/
def State.loaded (s : State) : Bool := s.job.prog.isSome || s.job.staged.isSome

/-- A value of a field that only takes a range: outside it the field keeps what it held (R321). -/
def keepRange (hi lo a b old new : Nat) : Nat :=
  if bits hi lo new < a ∨ b < bits hi lo new then putBits hi lo (bits hi lo old) new else new

/-- The plain effect of a write: the access codes and the reserved fields (R11, R12). -/
def State.plainWrite (s : State) (k : RegKind) (o v : Nat) : State :=
  s.ww o (BitVec.ofNat 64 (hostWrite (regFields k) (s.rw o).toNat v))

/-- RST_CTL (R424): the kinds 0 and 5 to 15 have no effect. -/
def rstWrite (s : State) (v : Nat) : Out :=
  match bits 63 60 v with
  | 1 => execCoreReset (BitVec.ofNat 17 v) s
  | 2 => execClusterReset (BitVec.ofNat 17 v) s
  | 3 => execRingmasterRestart s
  | 4 => execDeviceReset s
  | _ => go s

/-- The host window may not move while a programme is loaded (R366). -/
def State.windowWrite (s : State) (k : RegKind) (o v : Nat) : State :=
  if s.loaded then s.hostRec srcCxl 2 o v
  else if k = .hostSize ∧ (v % 2 ^ 45 % 4096 ≠ 0 ∨ 0x100000000000 < v % 2 ^ 45) then s
  else s.plainWrite k o v

/-- Whether the unread bytes of the live buffer have reached the threshold of REC (R433). -/
def State.recReached (s : State) : Bool :=
  s.rf oCalCtl 39 16 != 0 && decide (s.rf oCalCtl 39 16 * 1024 ≤ (s.rw oCalWrite).toNat - (s.rw oCalMark).toNat)

/-- A write of CAL_MARK or CAL_CTL after which the threshold is reached sets REC (R433). -/
def State.calWrite (s : State) (k : RegKind) (o v : Nat) : State :=
  let t := s.plainWrite k o v
  if t.recReached ∧ !s.recReached then t.raise 11 else t

/-- A write of a register that lies at the offset. -/
def regWrite (s : State) (k : RegKind) (o : Nat) (v : Nat) : Out :=
  match k with
  | .mbxReq => execRequestDoorbell (BitVec.ofNat 8 v) [] [] s
  | .mbxCpl => go (s.setHead (v % 256))
  | .intMask => execIntMaskWrite { mask := BitVec.ofNat 64 v } s
  | .rstCtl => rstWrite s v
  | .rstHang => execHangRecovery (BitVec.ofNat 11 v) s
  | .rstJob => execJobRewind (BitVec.ofNat 64 v) s
  | .hostBase => go (s.windowWrite k o v)
  | .hostSize => go (s.windowWrite k o v)
  | .calCursor => go (s.plainWrite k o (v / 8 * 8))
  | .calMark => go (s.calWrite k o v)
  | .calCtl => go (s.calWrite k o v)
  | .bjnCtl => go (s.plainWrite k o (keepRange 46 32 1024 16384 (s.rw o).toNat v))
  | .timeCtl => go (s.plainWrite k o (keepRange 63 32 200 1000000000 (s.rw o).toNat v))
  | _ => go (s.plainWrite k o v)

/-- Whether an offset lies in the block of a ring that dozes (R458). -/
def State.dozingAt (s : State) (o : Nat) : Bool :=
  decide (0x1000000 ≤ o) && decide (o < 0x1800000) &&
    s.rf oPwrStatus (44 + (o - 0x1000000) / 0x100000) (44 + (o - 0x1000000) / 0x100000) == 1

/-- REGISTER_WRITE (R11, R12, R363, R364): a 4-byte write is ignored with a record, an offset without a register takes nothing, and a
register with an effect of its own has it. -/
def execRegisterWrite (offset : Nat) (wide : Bool) (value : Word) (s : State) : Out :=
  if 0x2000000 ≤ offset then .fault .outsideBar0
  else if s.inReset then go s
  else if !wide then go (s.hostRec srcCxl 1 offset value.toNat)
  else if s.dozingAt offset then go s
  else match regKind offset with
    | none => go s
    | some k => regWrite s k offset value.toNat

end Sys2Proof.Machine
end

