-- ==== Sys2Proof/Machine/Mirror.lean ====
section
/-!
DEFINITION. The Safety Net: heartbeats and partner loss (R267, R413, R417), the mirror's messages (R193 to R195), what another device
supplies for a shard (R196, R397), and the MIRROR commands (R415 to R421).
-/

namespace Sys2Proof.Machine

/-! ### Heartbeats (R267, R413, R417) -/

/-- HEARTBEAT_SEND (R267): a link HEARTBEAT and a routed CTRL heartbeat; the period that ends here counts as missed when no copy arrived
in it. A member that has declared loss goes on sending, so that its partner's return can be seen on both sides (R417). -/
def execHeartbeatSend (s : State) : Out :=
  if s.mirState ∈ [1, 2, 3] then
    let s := if s.mirror.seen then { s with mirror := { s.mirror with seen := false } } else s.satAdd oMir 4 0 (min 1 (20 - s.rf oMir 4 0))
    let t := if s.mirrorUp then s.emit (.link (s.rf oSiteId 27 24) (linkFrame 0x84 s.committed)) else s
    go (t.tell s.partner (.heartbeat (s.rw oCommitStep)))
  else go s

/-- HEARTBEAT (R267, R417): a copy from the partner ends the missed count; in LOST it is the partner's return, and both sides
synchronise again; once carrying, the former partner's heartbeats are counted and ignored. -/
def execHeartbeat (viaLink : Bool) (src : BitVec 20) (step : Word) (s : State) : Out :=
  if !(src.toNat == s.partner && (!viaLink || s.mirrorUp) && decide (step.toNat < 2 ^ 64)) then go s
  else
    let t := ({ s with mirror := { s.mirror with seen := true } }).wf oMir 4 0 0
    match s.mirState with
    | 1 => go t
    | 2 => go t
    | 3 => go (((((t.wf oMir 63 61 1).wf oCommitState 7 7 0).pairRec 2).ibi 6).restreamAll)
    | 4 => go (s.satAdd oMir 11 5 1)
    | _ => go s

/-- The loss of the partner in a permutation (R236, assumption 60): its entries toward the partner are done with. -/
def State.forceReshard (s : State) : State :=
  match s.reshard with
  | none => s
  | some r =>
    let gone := (r.plan.ops.zipIdx.filter (fun x => x.1.typ == 6 && !x.1.incoming && x.1.peer == s.partner && !r.done.contains x.2)).map (·.2)
    { s with reshard := some { r with forced := true, done := r.done ++ gone } }

/-- PARTNER_LOSS (R413): the member is LOST, its mirror stream stops, the shards and tags it holds stand, and its running step is
abandoned. A permutation that a LAYOUT asked for becomes a forced one: what was to go to the lost member is not sent (R236, assumption 60). -/
def execPartnerLoss (s : State) : Out :=
  if s.mirState = 1 ∨ s.mirState = 2 then
    let s := s.forceReshard
    let t := (((s.wf oMir 63 61 3).wf oCommitState 7 7 0).satAdd oMir 15 12 1).wf oMir 4 0 20
    let t := (t.pairRec 1).ibi 2
    go (({ t with strg := { t.strg with restream := [] } }).abandon 2)
  else go s

/-! ### The mirror stream (R194, R195) -/

/-- Whether a MIRROR_DATA message is whole: CHECK, MAGIC, reserved fields, and DATA_BYTES against COUNT and LAST, which the entry of the
partner's map settles (R194). -/
def mirrorOk (m : List SEntry) (b : Bytes) : Bool :=
  let n := rd 24 4 b
  match m[rd 16 4 b]? with
  | none => false
  | some e =>
    let k := rd 20 4 b
    let last := bit 0 (rd 6 1 b)
    let data := roundUp 8 (8 * n + (if last then 64 + e.statBytes else 0))
    rd 0 4 b == 0x4452494D && decide (rd 6 1 b < 2) && rd 7 1 b == 0 && allZero (slice 28 4 b) && allZero (slice 48 16 b) &&
    decide (k < e.shards) && n == e.shardLen k && last == (k + 1 == e.shards) && rd 40 8 b == data && b.length == 68 + data &&
    crc32c (b.take (64 + data)) == rd (64 + data) 4 b

/-- Store a shard's message in the mirror region and, when all of it is written, tag it (R193, R194, R361). -/
def State.mirrorStore (s : State) (b : Bytes) : State × Option MemErr :=
  let j := rd 16 4 b
  let k := rd 20 4 b
  match s.mirror.map[j]? with
  | none => (s, none)
  | some e =>
    let n := e.shardLen k
    let h := s.mirror.homeIn j e
    s.storeAll ([(h.mas + 262144 * k, slice 64 (4 * n) b), (h.mom + 262144 * k, slice (64 + 4 * n) (4 * n) b)] ++
      (if bit 0 (rd 6 1 b) then h.recordWrites (slice (64 + 8 * n) (64 + e.statBytes) b) else []) ++
      [(s.mirror.tagAddr j k, slice 8 8 b ++ slice 32 8 b ++ slice 4 2 b ++ [1] ++ zeros 13)])

/-- MIRROR_DATA (R194): a shard that is whole is stored, tagged and acknowledged; one that is not is asked for again. One that meets an
uncorrectable word of the mirror region is a memory error and is not acknowledged (R361, R397). -/
def execMirrorData (msg : List Byte) (s : State) : Out :=
  if !s.mirroring then go s
  else
    let ok := mirrorOk s.mirror.map msg
    let ack : Msg := .mirrorAck (rd 16 4 msg) (rd 20 4 msg) (BitVec.ofNat 64 (rd 8 8 msg)) ok
    if !ok then go (s.tell s.partner ack)
    else match s.mirrorStore msg with
    | (t, none) => go ((t.tell s.partner ack).syncCheck)
    | (t, some e) => go (t.memError srcRm 0xFF 0xFF 0 e)

/-- Send the committed data of a shard again; its digest is that of the step that wrote it, or, where this device no longer knows it, a
free value (assumption 4). -/
def State.restreamShard (s : State) (p : Prog) (i k : Nat) : State :=
  match s.home p i s.committed with
  | none => s
  | some h =>
    let d := match SMap.get? s.strg.digC (pairKey i k) with | some d => (d, s) | none => s.draw
    match d.2.mirrorMsg p h i k s.committed d.1 with
    | .error e => d.2.memError h.e.src 0xFF 0xFF 0 e
    | .ok m => d.2.mirrorSend p (pairKey i k + 1) m

/-- The step of the data that a shard's newest message carries: the running step once the shard has been streamed in it, otherwise the
committed step. -/
def State.mirrorStep (s : State) (x : Nat × Nat) : Nat :=
  match s.job.running with
  | some j => if s.strg.mirrored.contains x then j.n.toNat else s.committed
  | none => s.committed

/-- MIRROR_ACK (R28, R194, R195): an acknowledgement of the newest data of a shard counts for the barrier and for the re-stream; a
request for the shard sends it again. -/
def execMirrorAck (entry shard : Nat) (step : Word) (ok : Bool) (s : State) : Out :=
  match s.job.prog with
  | none => go s
  | some p =>
    let x := (entry, shard)
    if !s.mirroring ∨ !((p.smap[entry]?).any (fun e => decide (shard < e.shards))) then go s
    else if !ok then
      go (match s.job.running with
        | some j => if s.strg.mirrored.contains x then s.mirrorShard p entry shard j.n.toNat (SMap.get s.strg.digN (pairKey entry shard) 0)
                    else s.restreamShard p entry shard
        | none => s.restreamShard p entry shard)
    else if step.toNat ≠ s.mirrorStep x then go s
    else
      let acked := if s.strg.mirrored.contains x ∧ !s.strg.acked.contains x then s.strg.acked ++ [x] else s.strg.acked
      go ({ s with strg := { s.strg with acked := acked, restream := s.strg.restream.filter (· != x) } }).syncCheck

/-- MIRROR_RESTREAM (R195): every shard whose re-stream is due is sent from its committed slots; each stays due until it is
acknowledged. -/
def execMirrorRestream (s : State) : Out :=
  match s.job.prog with
  | none => go s
  | some p => if !s.mirroring then go s else go (s.strg.restream.foldl (fun t x => t.restreamShard p x.1 x.2) s).syncCheck

/-! ### What another device supplies for a shard (R196, R205, R397) -/

/-- Where the entry's last shard lies, RECORD and statistics are written with it. -/
def State.writeRecord (s : State) (h : Home) (b : Bytes) : State :=
  (h.recordWrites b).foldl (fun t w => t.putBy h.e.src w.1 w.2) s

/-- Write the committed arrays that a peer delivers for a shard; what it does not deliver stays. -/
def State.writePeer (s : State) (p : Prog) (h : Home) (i k : Nat) (x : PeerShard) : State :=
  let w := fun (t : State) (a : Nat) (b : Bytes) =>
    if b.isEmpty then t else t.putElems p h i s.committed a (65536 * k) (words32 (fit (4 * h.e.shardLen k) b))
  let t := w (w (w (w (w s 0 x.master) 1 x.moment) 2 x.anchor) 3 x.omom) 4 x.resid
  if x.rcd.isEmpty then t else t.writeRecord h x.rcd

/-- The delivery of a shard as of a step. -/
def peerShard (peers : List PeerShard) (i k step : Nat) : Option PeerShard :=
  peers.find? (fun x => x.entry == i && x.shard == k && x.step.toNat == step)

/-- A residual that only one device held is reset to +0, and the reset is a decision (R196, R328). -/
def State.resetResid (s : State) (p : Prog) (h : Home) (i k : Nat) : State :=
  let t := s.putElems p h i s.committed 4 (65536 * k) (List.replicate (h.e.shardLen k) 0)
  t.decision s.committed 6 (le 8 s.committed ++ le 8 (h.e.first + 65536 * k) ++ le 8 (h.e.shardLen k))

/-! ### The MIRROR commands (R415 to R421) -/

/-- Entries of a MIRROR payload. -/
def mirrorEntries (b : Bytes) : List SEntry := (chunks 64 (rd 48 4 b) (b.drop 64)).map mkState

/-- The form of a MIRROR payload: its length, MODE with N, the fields that PAIR leaves 0, the reserved bytes. -/
def mirrorForm (b : Bytes) : Bool :=
  let pair := rd 5 1 b == 0
  b.length == 64 + 64 * rd 48 4 b && decide (rd 4 1 b ≤ 1) && decide (rd 0 4 b < 2 ^ 20) &&
  (if rd 4 1 b = 0 then rd 6 2 b == 0 else decide (2 ≤ rd 6 2 b) && decide (rd 6 2 b ≤ 1023)) &&
  (!pair || allZero (slice 24 24 b)) && allZero (slice 52 12 b)

/-- Places of a MIRROR payload's areas against R8, the state maps, offload slots, round store, HDM window, staging area and partner
bank, and their sizes against the entries (R360, R362, R415, R435). -/
def State.mirrorPlaces (s : State) (b : Bytes) (carry : Bool) : Bool :=
  let m := mirrorEntries b
  let params := m.foldl (fun (n : Nat) e => n + e.count) 0
  let region := (rd 8 8 b, rd 16 8 b)
  let reserve := (rd 24 8 b, rd 32 8 b)
  let scratch := (rd 40 8 b, 2 * params)
  let need := max (20 * params + 128 * m.length) (reserveOff m m.length)
  let mine := (match s.job.prog with
    | some p => mapAreas p.smap ++ p.offload.flatMap OffE.slotRanges ++ (match p.round with | some c => [(c.storeBase, c.storeBytes)] | none => [])
    | none => [])
  let clear := fun (a : Nat × Nat) => !(mine.any (fun x => meets a.1 a.2 x.1 x.2))
  region.1 % 4096 == 0 && s.ddrRange region.1 region.2 && clear region && decide (Mirror.needs m ≤ region.2) &&
  (!carry || (reserve.1 % 4096 == 0 && s.ddrRange reserve.1 reserve.2 && clear reserve && decide (need ≤ reserve.2) &&
    decide (scratch.1 + scratch.2 ≤ hbmEnd) && clear scratch && !meets region.1 region.2 reserve.1 reserve.2))

/-- The running programme's MIRROR_PORT leads to the partner, when one runs (R415). -/
def State.mirrorRoute (s : State) (b : Bytes) : Bool :=
  match s.job.prog with
  | some p => decide (p.route.mirrorPort < 8) && p.route.neighbours.getD p.route.mirrorPort 0xFFFFF == rd 0 4 b
  | none => true

/-- Declare a pair: registers, region, tags all invalid, the re-stream due (R414, R415). -/
def State.pairUp (s : State) (b : Bytes) (event : Nat) : State :=
  let m := mirrorEntries b
  let t := { s with mirror := { region := rd 8 8 b, regionBytes := rd 16 8 b, map := m }
                    strg := { s.strg with mirrored := [], acked := [], restream := [] } }
  let t := ((t.wf oMir 63 61 1).wf oMir 60 60 (rd 4 1 b)).wf oMir 59 50 (rd 6 2 b)
  let t := ((t.wf oMir 39 20 (rd 0 4 b)).wf oMir 4 0 0).wf oCommitState 7 7 0
  let t := m.zipIdx.foldl (fun t x => (List.range x.1.shards).foldl (fun t k => t.putBy srcRm (t.mirror.tagAddr x.2 k) (zeros 32)) t) t
  let t := (t.pairRec event).restreamAll
  match t.job.running, t.job.prog with
  | some j, some p => t.mirrorAll p j.n.toNat
  | _, _ => t

/-- How a carried shard is recovered (R196): 1 from the mirror at the commit, 2 by adopting the next step's copy, 3 from another holder;
none is a gap. -/
def State.recovery (s : State) (p : Prog) (peers : List PeerShard) (j k : Nat) : Option Nat :=
  let c := s.committed
  let valid := s.tagValid j k
  let epoch := leNat (s.peek (s.mirror.tagAddr j k + 16) 2)
  if valid ∧ s.tagStep j k = c then some 1
  else if valid ∧ s.tagStep j k = c + 1 ∧ epoch = p.epoch then some 2
  else if (peerShard peers j k c).any (fun x => !x.master.isEmpty && !x.moment.isEmpty) then some 3
  else none

/-- Every shard of the mirror region. -/
def Mirror.shards (m : Mirror) : List (Nat × Nat) := m.map.zipIdx.flatMap (fun x => (List.range x.1.shards).map (fun k => (x.2, k)))

/-- Recover one carried shard into the carried slots of the commit's parity, with its anchor, outer momentum and residual, which also
stand in the reserve, and derive its working weights into SCRATCH (R196, R418). -/
def State.carryShard (s : State) (p : Prog) (peers : List PeerShard) (x : Nat × Nat) : State :=
  match s.mirror.map[x.1]? with
  | none => s
  | some e =>
    let h := s.mirror.homeIn x.1 e
    let peer := peerShard peers x.1 x.2 s.committed
    let s := match s.recovery p peers x.1 x.2, peer with
      | some 2, _ =>
        let d := BitVec.ofNat 64 (leNat (s.peek (s.mirror.tagAddr x.1 x.2 + 8) 8))
        let s := { s with mirror := { s.mirror with adopt := s.mirror.adopt ++ [(x.1, x.2, d)] } }
        if x.2 + 1 = e.shards then
          s.writeRecord (s.mirror.homeOut x.1 e) (s.peek h.rcd 64 ++ s.peek h.row (4 * e.rows) ++ s.peek h.col (4 * e.rowLen) ++ s.peek h.tot 4)
        else s
      | some 3, some y => s.writePeer p h (p.smap.length + x.1) x.2 { y with anchor := [], omom := [], resid := [] }
      | _, _ => s
    let s := match peer with
      | some y => s.writePeer p h (p.smap.length + x.1) x.2 { y with master := [], moment := [], rcd := [] }
      | none => s
    let s := if peer.any (fun y => !y.resid.isEmpty) then s else s.resetResid p h (p.smap.length + x.1) x.2
    s.deriveShard p (p.smap.length + x.1) x.2 s.committed

/-- CARRY (R418): the lost member's committed state becomes the carried state, or nothing changes when a shard, or the anchor or outer
momentum of a programme that has rounds, cannot be had. -/
def State.carry (s : State) (p : Prog) (b : Bytes) (peers : List PeerShard) : Option State :=
  let whole := s.mirror.shards.all (fun x => (s.recovery p peers x.1 x.2).isSome &&
    (p.round.isNone || (peerShard peers x.1 x.2 s.committed).any (fun y => !y.anchor.isEmpty && !y.omom.isEmpty)))
  if !whole then none
  else
    let t := { s with mirror := { s.mirror with reserve := rd 24 8 b, reserveBytes := rd 32 8 b, scratch := rd 40 8 b,
                                                carryParity := s.committed % 2, adopt := [] }
                      strg := { s.strg with mirrored := [], acked := [], restream := [] } }
    let t := (t.wf oMir 63 61 4).wf oCommitState 7 7 0
    some ((t.mirror.shards.foldl (fun t x => t.carryShard p peers x) t).pairRec 4)

/-- The pair that a CARRY names: its partner, region and entries are those of its payload (R415). -/
def State.carryPair (s : State) (b : Bytes) : State :=
  { s with mirror := { s.mirror with region := rd 8 8 b, regionBytes := rd 16 8 b, map := mirrorEntries b } }.wf oMir 39 20 (rd 0 4 b)

/-- MIRROR_SET (R415, R418, R422): PAIR declares the partner in UNPAIRED; CARRY takes the lost partner's role in LOST, or in PROTECTED
when every tag holds the committed step, under a programme or under none. -/
def execMirrorSet (tag : BitVec 32) (peers : List PeerShard) (s : State) : Out :=
  withCmd s tag 0x0901 fun s t =>
    let b := t.payload
    let act := rd 5 1 b
    let carry := act == 1
    if !mirrorForm b then s.done t 3
    else if s.job.running.isSome then s.done t 5
    else if 1 < act ∨ (act = 0 ∧ s.mirState ≠ 0) ∨ (carry ∧ !(s.mirState == 3 ||
        (s.mirState == 2 && s.mirror.shards.all (fun x => s.tagStep x.1 x.2 == s.committed)))) then
      s.done t 0x000A
    else if !s.mirrorPlaces b carry then s.done t stMap
    else if !s.mirrorRoute b then s.done t stRoute
    else if !carry then (s.pairUp b 3).done t 0
    else match (s.carryPair b).carry (s.job.prog.getD (mkProg [])) b peers with
    | some u => u.done t 0
    | none => s.done t 0x0207

/-- MIRROR_CLEAR (R416): the device is unpaired; a carried state has no other home and stays. -/
def execMirrorClear (tag : BitVec 32) (s : State) : Out :=
  withCmd s tag 0x0902 fun s t =>
    if s.mirState = 4 then s.done t 0x000A
    else
      let u := { s with mirror := {}, strg := { s.strg with mirrored := [], acked := [], restream := [] } }
      let u := ((((u.wf oMir 63 61 0).wf oMir 60 60 0).wf oMir 59 50 0).wf oMir 39 20 0xFFFFF).wf oCommitState 7 7 0
      (if s.mirState = 0 then u else u.pairRec 3).done t 0

/-- Whether the running programme still places a carried range on this device: a plan entry receives or holds it (R421). -/
def State.holdsCarried (s : State) : Bool :=
  match s.job.prog with
  | none => false
  | some p => s.mirror.map.any (fun e => p.plan.ops.any (fun o => (o.typ == 2 || o.typ == 3) && o.tensor == e.tensor &&
      decide (o.first < e.first + e.count) && decide (e.first < o.first + o.count)))

/-- MIRROR_ADMIT (R421): in CARRYING, once the programme places no carried range here, the reserve and the scratch are released and the spare is the
new partner, to which also a step that runs mirrors from then on. -/
def execMirrorAdmit (tag : BitVec 32) (s : State) : Out :=
  withCmd s tag 0x0903 fun s t =>
    let b := t.payload
    if !mirrorForm b then s.done t 3
    else if rd 5 1 b ≠ 0 ∨ s.mirState ≠ 4 ∨ s.holdsCarried then s.done t 0x000A
    else if !s.mirrorPlaces b false then s.done t stMap
    else if !s.mirrorRoute b then s.done t stRoute
    else (s.pairUp b 5).done t 0

end Sys2Proof.Machine
end

