-- ==== Sys2Proof/Machine/Layout.lean ====
section
/-!
DEFINITION. Re-shards (R234 to R237), the permutation of a plan of KIND 1 (R277), and the all-reduce of records over the tree that plan
entries describe (R181, R188, R276).
-/

namespace Sys2Proof.Machine

/-! ### LAYOUT (R234, R382) -/

/-- Whether LAYOUT may name commit c at this moment (R234). -/
def State.layoutNow (s : State) (c : Nat) : Bool :=
  match s.job.running with
  | none => c == s.committed
  | some j => c == s.committed + 1 && j.n.toNat == c

/-- The entries of a new plan that a forced re-shard has done already: those that its old plan had as they are (R236). -/
def Reshard.doneIn (r : Reshard) (pl : Plan) : List Nat :=
  (List.range pl.ops.length).filter (fun i => r.done.any (fun k => pl.ops[i]?.isSome && r.plan.ops[k]? == pl.ops[i]?))

/-- LAYOUT (R234): refused with BUSY, NO_IMAGE, LATE or the plan's status; on acceptance the steps queued after commit c complete with
EPOCH, and the command runs until the permutation ends. A re-shard that a loss has made a forced one takes a new plan, in which the lost member's
outgoing ranges come from its mirror: what is done stays done, and the LAYOUT before it completes with ABORTED (R236, assumption 60). -/
def execLayout (tag : BitVec 32) (s : State) : Out :=
  withCmd s tag 0x0701 fun s t =>
    let c := rd 0 8 t.payload
    let a := rd 8 8 t.payload
    let n := rd 16 8 t.payload
    if s.reshard.any (fun r => !r.forced) ∨ s.restore.isSome then s.done t 5
    else match s.job.staged with
    | none => s.done t 0x0501
    | some p =>
      if !s.layoutNow c then s.done t 0x0209
      else if planBytes (s.hostGet a 64) ≠ n then s.done t stPlan
      else
        let b := s.hostGet a n
        match checkPlan p 1 (fun x => rtValid (p.route.entry x)) b with
        | st :: rest => s.done t (rest.foldl min st)
        | [] =>
          if !planOrdered (mkPlan b) then s.done t stOrder
          else
            let u := s.doneSteps s.job.queue stEpoch
            let u := match s.reshard with | some r => u.doneTag r.tag 8 | none => u
            { u with job := { u.job with queue := [] }
                     reshard := some { tag := t.tag, commit := BitVec.ofNat 64 c, plan := mkPlan b, forced := s.reshard.isSome
                                       done := s.reshard.elim [] (fun r => r.doneIn (mkPlan b)) } }

/-! ### PERMUTE (R235, R277) -/

/-- Where a range within a slot of one parity of an entry lies in the slot of the other parity (R172, R173); none for any other range. -/
def SEntry.otherSlot (e : SEntry) (par a n : Nat) : Option Nat :=
  let q := 1 - par
  let hit := fun (x y w : Nat) => if x ≤ a ∧ a + n ≤ x + w then some (y + (a - x)) else none
  ([hit (e.wAddr par) (e.wAddr q) (2 * e.count), hit (e.momAddr par) (e.momAddr q) (4 * e.count), hit (e.masAddr par) (e.masAddr q) (4 * e.count),
    hit (e.recAddr + 4 * par) (e.recAddr + 4 * q) 4] ++
   (if e.rule = 3 then
      [hit (e.hbm + e.oRow par) (e.hbm + e.oRow q) (4 * e.rows), hit (e.hbm + e.oCol par) (e.hbm + e.oCol q) (4 * e.rowLen),
       hit (e.hbm + e.oTot par) (e.hbm + e.oTot q) 4]
    else [])).findSome? id

/-- Where a range that a plan names lies: a plan names the slots of commit c, and after a veto of step c the permutation moves commit c − 1, whose
slots are those of the other parity (R175, R234). -/
def State.permAddr (s : State) (r : Reshard) (m : List SEntry) (o : PlanOp) : Nat :=
  if r.commit.toNat % 2 = s.committed % 2 then o.loc
  else (m.findSome? (fun e => e.otherSlot (r.commit.toNat % 2) o.loc o.count)).getD o.loc

/-- The state map from which ranges leave, and the one into which they arrive (R234). -/
def State.mapFrom (s : State) : List SEntry := s.job.prog.elim [] (·.smap)
/-- The destination's state map. -/
def State.mapTo (s : State) : List SEntry := s.job.staged.elim [] (·.smap)

/-- The parameters whose committed masters a range from an address covers: their first number and count (R172, R235). -/
def State.movedParams (s : State) (loc count : Nat) : Option (Nat × Nat) :=
  s.mapFrom.findSome? (fun e =>
    let a := e.masAddr (s.committed % 2)
    if a ≤ loc ∧ loc < a + 4 * e.count then some (e.first + (loc - a) / 4, count / 4) else none)

/-- The bytes of a delta received so far, in order up to the first that is missing (R234). -/
def RxDelta.front (d : RxDelta) : Bytes := (((List.range d.total).map (SMap.get? d.data)).takeWhile Option.isSome).filterMap id

/-- The whole runs at the front of a delta's bytes, by first index (R140). Fuel bounds their number. -/
def wholeRuns : Nat → Bytes → SMap Bytes
  | 0, _ => []
  | f + 1, b =>
    if b.length < 20 ∨ b.length < runLen b then []
    else SMap.set (wholeRuns f (b.drop (runLen b))) (rd 0 6 b) (b.take (runLen b))

/-- The delta runs of an open round that are held over moved parameters, by site and round; of a delta that has not arrived whole, the runs received so
far (R234). -/
def State.movedRuns (s : State) (loc count : Nat) : List (Nat × Word × Bytes) :=
  match (if s.rounds.applied then none else s.movedParams loc count) with
  | none => []
  | some (f, n) =>
    let held := s.rounds.store.map (fun x => (s.site, x.round, x.data)) ++ s.rounds.rx.map (fun d => (d.site, d.round, d.front))
    (held.map (fun x => (x.1, x.2.1, (wholeRuns (x.2.2.length / 20 + 1) x.2.2).flatMap (fun r =>
      if r.1 < f + n ∧ f < r.1 + rd 8 4 r.2 then r.2 else [])))).filter (fun x => !x.2.2.isEmpty)

/-- The peer under which runs that a permutation brought are held. -/
def movedMac : Nat := 2 ^ 48

/-- Take delta runs that came with a moved range into the round store, each run once, as far as it has room (R234, R301). -/
def State.takeRuns (s : State) (x : Nat × Word × Bytes) : State :=
  let same := fun (d : RxDelta) => d.site == x.1 && d.round == x.2.1 && d.mac == movedMac
  let old := match s.rounds.rx.find? same with | some d => d.bytes | none => []
  let runs := (rawRuns (x.2.2.length / 20 + 1) x.2.2).foldl (fun (a : SMap Bytes) r => SMap.set a r.1 r.2) (rawRuns (old.length / 20 + 1) old)
  let b := runs.flatMap (·.2)
  if s.rounds.full.contains x.2.1 then s
  else if s.storeBytes < s.rounds.storeUsed + b.length - old.length then s.storeFull x.2.1 b.length
  else
    let d : RxDelta := { site := x.1, round := x.2.1, mac := movedMac, total := b.length, data := putData [] 0 b, complete := true }
    ({ s with rounds := { s.rounds with rx := s.rounds.rx.filter (fun y => !same y) ++ [d] } }).storeReg

/-- What has arrived for an INCOMING entry goes through the journal to its destination and the entry is done; before the entry has started,
or its phase has, it waits (R235, R272, R277). -/
def State.permWrite (s : State) (op : Nat) (b : Bytes) : State :=
  match s.reshard with
  | none => s
  | some r =>
    match r.plan.ops[op]? with
    | none => s
    | some o =>
      if r.done.contains op then s
      else if !r.started ∨ r.phase < o.phaseOf ∨ !s.triggered o 0 then
        { s with reshard := some { r with early := if r.early.any (fun x => x.1 == op) then r.early else r.early ++ [(op, b)] } }
      else match s.store (s.permAddr r s.mapTo o) b with
        | (t, some e) => t.jugError o e
        | (t, none) => ({ t with reshard := some { r with done := r.done ++ [op] } }).planSignal o

/-- Take up what waited. -/
def State.permEarly (s : State) : State :=
  match s.reshard with
  | none => s
  | some r => r.early.foldl (fun t x => t.permWrite x.1 x.2) { s with reshard := some { r with early := [] } }

/-- PERMUTATION_START (R234, R235): after the flip or veto of the step that ran, or at once. The outer close and the write-back of the
commit finish first (assumption 42). -/
def execPermutationStart (s : State) : Out :=
  match s.reshard with
  | none => go s
  | some r =>
    if r.started ∨ s.job.running.isSome ∨ s.phase ≠ 0 ∨ s.strg.closeDue.isSome ∨ !s.strg.writeback.isEmpty then go s
    else
      let ks := (r.plan.ops.filter (fun o => o.typ == 6 || (o.typ == 7 && o.arg % 256 == 3))).map PlanOp.phaseOf
      go ({ s with reshard := some { r with started := true, phase := (ks.foldl min 255) }, jug := { s.jug with allred := [] } }).permEarly

/-- A permutation frame that matches no INCOMING entry is discarded with a record and ends LAYOUT with PLAN_ORDER (R277). -/
def State.permStray (s : State) (op : Nat) : State :=
  let t := s.frameRec 4 op s.self 0xFFFFF 0
  match s.reshard with
  | some r => ({ t with reshard := none, rounds := { t.rounds with layoutMap := none } }).doneTag r.tag stOrder
  | none => t

/-- PERMUTE (R235, R272, R277): an outgoing entry of the phase under way sends its bytes and is done with their acknowledgement; an incoming
one takes them to their destination. With a range's masters go the delta runs of an open round (R234). -/
def execPermute (op : Nat) (arrived : Option PermIn) (s : State) : Out :=
  let s := s.permEarly
  match s.reshard with
  | none => go (match arrived with | some _ => s.permStray op | none => s)
  | some r =>
    match r.plan.ops[op]?, arrived with
    | none, none => go s
    | none, some _ => go (s.permStray op)
    | some o, some b =>
      if o.typ ≠ 6 ∨ !o.incoming ∨ b.bytes.length ≠ o.count then go (s.permStray op) else go ((b.deltas.foldl State.takeRuns s).permWrite op b.bytes)
    | some o, none =>
      if !r.started ∨ o.typ ≠ 6 ∨ o.incoming ∨ r.done.contains op ∨ s.unackedOp (permKey op) none ∨ r.phase < o.phaseOf ∨ !s.triggered o 0 then go s
      else
        let a := s.permAddr r s.mapFrom o
        match s.load a o.count with
        | .error e => go (s.jugError o e)
        | .ok b => go ((s.emit (.permuted o.peer o.aux { bytes := b, deltas := s.movedRuns a o.count })).streamOut 1 o.peer o.stream r.plan.epoch (permKey op) 0 b)

/-- The re-shard ends (R235): the staged image runs under its epoch, the mirror is to be declared afresh, new range maps take effect,
and LAYOUT completes. -/
def State.reshardEnd (s : State) : State :=
  match s.reshard, s.job.staged with
  | some r, some p =>
    let old := match s.job.prog with | some q => q.epoch | none => p.epoch
    let t := { s with reshard := none
                      strg := { s.strg with unreadable := [], mirrored := [], acked := [], restream := [], digC := [], digN := [] }
                      mirror := { s.mirror with adopt := [] } }
    let t := t.wf oCommitState 7 7 0
    let t := if t.mirState = 2 then (t.wf oMir 63 61 1).pairRec 3 else t
    let t := t.activate p
    let t := (t.wf oCommitState 63 48 p.epoch).decision t.committed 9 (le 2 old ++ le 2 p.epoch)
    let t := match t.rounds.layoutMap with
      | some m => ({ t with rounds := { t.rounds with layoutMap := none } }).installMap m
      | none => t
    t.doneTag r.tag 0
  | _, _ => s

/-! ### ALLRED (R276) -/

/-- The plan whose all-reduces run: the permutation's while one runs, else the programme's. -/
def State.redPlan (s : State) : Option Plan :=
  match s.reshard with
  | some r => if r.started then some r.plan else s.job.prog.map (·.plan)
  | none => s.job.prog.map (·.plan)

/-- Whether a record is of the kind that an entry's RECORD names. -/
def recKind (o : PlanOp) : AllredRec → Bool
  | .ready r => o.arg % 256 == (if isPhaseOne r then 1 else 0)
  | .rule3 t _ _ => o.arg % 256 == 2 && t == o.tensor
  | .completion k _ => o.arg % 256 == 3 && k.toNat == o.phaseOf

/-- Column sums merged place by place. -/
def mergeWords : List (BitVec 640) → List (BitVec 640) → List (BitVec 640)
  | [], b => b
  | a, [] => a
  | x :: a, y :: b => wordOfAcc ((accOfWord x).merge (accOfWord y)) :: mergeWords a b

/-- The merge of two records of one kind (R43, R181, R188, R235). -/
def mergeRecs : AllredRec → AllredRec → AllredRec
  | .ready a, .ready b => .ready (mergeReady a b)
  | .rule3 t c x, .rule3 _ d y => .rule3 t (mergeWords c d) (wordOfAcc ((accOfWord x).merge (accOfWord y)))
  | .completion k n, .completion _ m => .completion k (n + m)
  | a, _ => a

/-- Whether every LX32 word of a RULE 3 record carries its residue (R42). -/
def recWordsOk : AllredRec → Bool
  | .rule3 _ c x => c.all wordOk && wordOk x
  | _ => true

/-- A record as a message up the tree, and down it. -/
def recMsg (down : Bool) : AllredRec → Msg
  | .ready r => if down then .merged r else .ready r
  | .rule3 t c x => .rule3 t (c.map accOfWord) (accOfWord x)
  | .completion k n => .completion k.toNat n.toNat

/-- The device's own record of an entry, once what triggers it has happened (R181, R187, R235, R276). -/
def State.ownRecord (s : State) (o : PlanOp) : Option AllredRec :=
  match o.arg % 256, s.job.running, s.job.prog with
  | 2, some _, some p =>
    let full := (s.held p).zipIdx.all (fun x => x.1.tensor != o.tensor || x.1.rule != 3 || (if p.twoPhase then s.strg.phaseOne else s.entryDone x.2 x.1))
    match SMap.get? s.strg.r3mine o.tensor with
    | some r => if full then some (.rule3 o.tensor (r.cols.map wordOfAcc) (wordOfAcc r.tot)) else none
    | none => none
  | 3, none, _ =>
    match s.reshard, s.restore with
    | some r, _ =>
      if r.started ∧ r.plan.ops.zipIdx.all (fun x => x.1.typ != 6 || x.1.phaseOf != o.phaseOf || r.done.contains x.2) then
        some (.completion (BitVec.ofNat 8 o.phaseOf) 1)
      else none
    | none, some x => if x.left.isEmpty then some (.completion (BitVec.ofNat 8 o.phaseOf) 1) else none
    | none, none => none
  | k, some _, some _ =>
    match s.strg.sentRec with
    | some r => if k < 2 ∧ s.strg.readySent ∧ isPhaseOne r = (k == 1) then some (.ready r) else none
    | none => none
  | _, _, _ => none

/-- What the final record does at this device (R181, R189, R205, R235). -/
def State.finalRec (s : State) (o : PlanOp) (r : AllredRec) : State :=
  match r, s.job.running, s.job.prog with
  | .ready x, some j, some p => if p.gen ∨ !s.strg.readySent then s else s.takeMerged p j x
  | .rule3 t c x, some j, some p =>
    if (SMap.get? s.strg.r3 t).isSome then s
    else (s.rule3End p j.n.toNat t { cols := c.map accOfWord, tot := accOfWord x, got := 0 }).mirrorAll p j.n.toNat
  | .completion _ _, none, _ =>
    match s.reshard with
    | some q =>
      let later := (q.plan.ops.filter (fun x => x.typ == 6 || (x.typ == 7 && x.arg % 256 == 3))).map PlanOp.phaseOf
      match (later.filter (fun k => decide (o.phaseOf < k))).insertionSort (· ≤ ·) with
      | [] => s.reshardEnd
      | k :: _ => ({ s with reshard := some { q with phase := k } }).permEarly
    | none =>
      match s.restore with
      | some x => ({ s with restore := none, job := { s.job with noStep := false } }).doneTag x.tag 0
      | none => s
  | _, _, _ => s

/-- A record as it stands merged so far lies in the entry's record buffer (R271). -/
def State.recStore (s : State) (o : PlanOp) (r : AllredRec) : State :=
  match s.store o.loc (fit o.count (allredBytes r)) with
  | (t, none) => t
  | (t, some e) => t.jugError o e

/-- A record goes to a neighbour in the tree, in the entry's stream: READY and merged records in CTRL frames, the others in DATA frames
(R250, R276). -/
def State.tellRec (s : State) (pl : Plan) (op : Nat) (o : PlanOp) (down : Bool) (r : AllredRec) (dest : Nat) : State :=
  let m := recMsg down r
  match m.ctrl s.stepNow with
  | some b => (s.send dest m).streamOut 5 dest o.stream pl.epoch op 0 b
  | none => (s.send dest m).streamOut 1 dest o.stream pl.epoch op 0 (allredBytes r)

/-- The number under which frames of an all-reduce are held. -/
def State.redKey (s : State) (op : Nat) : Nat := if s.reshard.any (·.started) then permKey op else op

/-- The final record goes to the children and takes effect here; the entry signals (R272, R276). -/
def State.finish (s : State) (pl : Plan) (op : Nat) (o : PlanOp) (r : AllredRec) : State :=
  let t := (pl.listOf o).foldl (fun t a => t.tellRec pl (s.redKey op) o true r a) (s.recStore o r)
  (t.opDone o (s.redKey op) 0).finalRec o r

/-- Once its own record and every child's have merged, an entry sends upward, or ends at the root (R276). -/
def State.redMove (s : State) (pl : Plan) (op : Nat) (o : PlanOp) (x : AllredSt) : State :=
  let put := fun (t : State) (y : AllredSt) => { t with jug := { t.jug with allred := SMap.set t.jug.allred op y } }
  match x.rec_ with
  | none => put s x
  | some r =>
    let t := s.recStore o r
    if !x.own ∨ x.kids.length < (pl.listOf o).length ∨ x.sent then put t x
    else if o.peer = 0xFFFFF then (put s { x with sent := true }).finish pl op o r
    else (put t { x with sent := true }).tellRec pl (s.redKey op) o false r o.peer

/-- ALLRED (R276). -/
def execAllred (op : Nat) (ev : AllredIn) (s : State) : Out :=
  match s.redPlan with
  | none => go s
  | some pl =>
    match pl.ops[op]? with
    | none => go s
    | some o =>
      let x := SMap.get s.jug.allred op ({} : AllredSt)
      let add := fun (r : AllredRec) => match x.rec_ with | some y => some (mergeRecs y r) | none => some r
      let stale := (o.arg % 256 = 1 ∨ o.arg % 256 = 2) ∧ s.rf oRstJob 61 61 = 1
      if o.typ ≠ 7 ∨ s.inSuspect ∨ stale then go s
      else match ev with
      | .own =>
        if x.own ∨ !s.triggered o 0 then go s
        else match s.ownRecord o with
          | some r => go (s.redMove pl op o { x with own := true, rec_ := add r })
          | none => go s
      | .child a r =>
        if !recKind o r ∨ !((pl.listOf o).contains a.toNat) ∨ x.kids.contains a.toNat then go s
        else if !recWordsOk r then go (s.residueError o.src 0xFFFFFFFF 0xFF 0 0)
        else go (s.redMove pl op o { x with kids := x.kids ++ [a.toNat], rec_ := add r })
      | .final r =>
        if !recKind o r ∨ o.peer = 0xFFFFF ∨ !x.sent ∨ x.rec_.isNone then go s
        else if !recWordsOk r then go (s.residueError o.src 0xFFFFFFFF 0xFF 0 0)
        else go (({ s with jug := { s.jug with allred := SMap.set s.jug.allred op { x with rec_ := none } } }).finish pl op o r)

end Sys2Proof.Machine
end

