-- ==== Sys2Proof/Machine/Power.lean ====
section
/-!
DEFINITION. The Tightrope: supply dips, reset level, power fail, clocks (R444 to R448, R473), caps and thermal limits (R451 to R454),
admission, nap and doze (R449, R450, R455 to R461), the end of a memory erase (R462). Elapsed time is not modelled (R22, R443): a
halved clock and the performance level show in state and registers alone.
-/

namespace Sys2Proof.Machine

/-! ### Levels (R441) -/

/-- Edges that a level passes of 16 consecutive ones (R441). -/
def levelEdges (level : Nat) : Nat := 16 - 2 * min 4 level

/-- Whether a level passes the edge at a window position (R441). -/
def edgePassed (level j : Nat) : Bool := decide (j * levelEdges level / 16 < (j + 1) * levelEdges level / 16)

/-! ### Supply dips (R444 to R446) -/

/-- DROOP_WARNING (R444): the cluster's clock is halved; a warning during the hold restarts the dip (R445). -/
def execDroopWarning (clu : GClu) (s : State) : Out := go (s.setClu clu { s.clu clu with halved := true, dipHold := false })

/-- DIP_END (R445): the hold of 10 µs starts. -/
def execDipEnd (clu : GClu) (s : State) : Out :=
  let c := s.clu clu
  if c.halved then go (s.setClu clu { c with dipHold := true }) else go s

/-- DROOP_HOLD_END (R445): the full pattern resumes, the dip is counted and recorded. -/
def execDroopHoldEnd (clu : GClu) (ns : Word) (s : State) : Out :=
  let c := s.clu clu
  if c.halved && c.dipHold then
    go (((s.setClu clu { c with halved := false, dipHold := false }).satAdd oPwrStatus 31 16 1).power 1 clu ns.toNat)
  else go s

/-- Post an URGENT POWER record and flush to its end, then reset the device (R434, R446, R447, R454). -/
def State.powerReset (s : State) (cause event unit value : Nat) : State :=
  (s.urgent cause srcTight 0x0701 (powerRec event (s.rf oPwrStatus 63 60) (s.rf oPwrStatus 59 57) unit value)).resetDevice

/-- RESET_LEVEL (R446). -/
def execResetLevel (clu : Option GClu) (mv : BitVec 16) (s : State) : Out :=
  if s.inReset then go s
  else go (s.powerReset 7 2 (match clu with | some g => g.val | none => 0xFFFFFFFF) mv.toNat)

/-- POWER_FAIL_WARNING (R447): POWER is raised (R367), the flush has CAUSE 6, and the device is held in reset. -/
def execPowerFailWarning (s : State) : Out :=
  if s.pwr.pfw then go s
  else if s.inReset then go { s with pwr := { s.pwr with pfw := true } }
  else go (({ s with pwr := { s.pwr with pfw := true } }.raise 9).powerReset 6 3 0xFFFFFFFF 0)

/-- PFW_WITHDRAWN (R447): the hold ends, and the device may boot (R472). -/
def execPfwWithdrawn (s : State) : Out := go { s with pwr := { s.pwr with pfw := false } }

/-! ### Clocks (R448, R473) -/

/-- PLL_LOCK_LOSS (R448): the clock alarm of R353, then as the reset level; the device stays in reset on its fallback oscillator. -/
def execPllLockLoss (s : State) : Out :=
  if s.pwr.pllHold then go s
  else
    let t := (s.satAdd oClk 31 0 1).doAlarm 2
    let t := { t with pwr := { t.pwr with pllHold := true } }
    let t := if s.inReset then t else t.powerReset 7 11 0xFFFFFFFF 0
    go ((t.wf oClk 63 63 0).wf oClk 62 62 1)

/-- PLL_LOCK (R448). -/
def execPllLock (s : State) : Out :=
  go ((({ s with pwr := { s.pwr with pllHold := false } }).wf oClk 63 63 1).wf oClk 62 62 0)

/-- Take the site ports down with their reference; none can train without it (R473). -/
def State.sitePortsDown (s : State) : State :=
  (List.range 8).foldl (fun t p =>
    if t.rf (oPortStatus p) 63 62 = 0 then t
    else ((t.downPort p 0).wf (oPortStatus p) 63 62 0)) s

/-- Take the Borjan ports down (R459, R473). -/
def State.bjnPortsDown (s : State) : State :=
  (List.range 2).foldl (fun t q => if t.rf (oBjnPort q) 63 62 = 0 then t else (t.bjnDown q).linkRec (srcBjn q) 1 q 1 0 0) s

/-- REF_CLOCK_CHANGE (R448, R473): input 0 is REF100, 1 is REF156_S, 2 is REF156_B, 3 is REF10, 4 is PPS_IN; the loss of REF156_S takes the site
ports down, that of REF156_B the Borjan ports. -/
def execRefClockChange (input : Fin 5) (present : Bool) (s : State) : Out :=
  let b := 2 ^ input.val
  let refs := if bit input s.pwr.refs = present then s.pwr.refs else if present then s.pwr.refs + b else s.pwr.refs - b
  let t := ({ s with pwr := { s.pwr with refs := refs } }).wf oClk 61 58 (refOk refs)
  go (if present then t else if input.val = 1 then t.sitePortsDown else if input.val = 2 then t.bjnPortsDown else t)

/-! ### Caps and thermal limits (R451 to R454) -/

/-- PWR_CAP (R453). -/
def execPwrCap (tag : BitVec 32) (s : State) : Out :=
  withCmd s tag 0x0C01 fun s t =>
    let a := rd 0 2 t.payload
    let b := rd 2 2 t.payload
    let c := rd 4 2 t.payload
    if !allZero (slice 6 2 t.payload) then s.done t 3
    else if !(within 1000 5600 a && within 1000 5600 b && within 1000 4800 c) then s.done t 2
    else (((s.wf oPwrCap 47 32 a).wf oPwrCap 31 16 b).wf oPwrCap 15 0 c).done t 0

/-- The hottest sensor with its reading, the lowest number among equals. -/
def hottest (m : SMap Int) : Option (Nat × Int) :=
  m.foldl (fun (a : Option (Nat × Int)) x => match a with
    | some y => if y.2 < x.2 then some x else some y
    | none => some x) none

/-- The sensors' readings of a decision in PWR_THERM (R454, R465). -/
def State.sense (s : State) (l : List (Fin 136 × Int)) : State :=
  let temps := l.foldl (fun (m : SMap Int) x => SMap.set m x.1.val x.2) s.pwr.temps
  let t := { s with pwr := { s.pwr with temps := temps } }
  match hottest temps with
  | some (n, v) => (t.wf oPwrTherm 63 48 (BitVec.ofInt 16 v).toNat).wf oPwrTherm 47 40 n
  | none => t

/-- The thermal request (R454): down one level while a sensor reads 95 °C or more; up one level once every sensor has stayed below 92 °C
for 10 ms, until it no longer limits. The throttle starts with the first such reading and ends with the request (assumption 45). The POWER records
that are due come with it, by EVENT, UNIT and VALUE. -/
def State.thermal (s : State) : State × List (Nat × Nat × Nat) :=
  let p := s.pwr
  let hot := p.temps.any (fun x => decide (95 * 16 ≤ x.2))
  let cool := if p.temps.all (fun x => decide (x.2 < 92 * 16)) then p.coolTicks + 1 else 0
  let lv := if hot then min 4 (p.thermLevel + 1) else if 100 ≤ cool then p.thermLevel - 1 else p.thermLevel
  let hs := hottest p.temps
  let start := hot && !p.throttled
  let ends := p.throttled && !hot && lv == 0
  let ticks := if p.throttled || start then p.hotTicks + 1 else 0
  let t := { s with pwr := { p with thermLevel := lv, coolTicks := min cool 100, throttled := (p.throttled || start) && !ends,
                                    hotTicks := if ends then 0 else ticks } }
  let t := t.wf oPwrStatus 55 55 (b2n hot)
  let t := if (p.throttled || start) ∧ ticks % 10 = 0 then t.satAdd oPwrTherm 31 0 1 else t
  match hs with
  | some (n, v) => (t, (if start then [(5, n, (BitVec.ofInt 64 v).toNat)] else []) ++ (if ends then [(6, n, ticks / 10)] else []))
  | none => (t, [])

/-- The capping controller (R451, R452): what the three averages ask for, with the excursion limit. While the Ringmaster does not run only
CAP_1MS acts, and the level does not rise. The POWER record that is due comes with it. -/
def State.capping (s : State) (m : PowerSample) : State × List (Nat × Nat × Nat) :=
  let p := s.pwr
  let a := m.avg1ms.toNat
  let b := m.avg10ms.toNat
  let c := m.avg1s.toNat
  let c1 := s.rf oPwrCap 47 32
  let c10 := s.rf oPwrCap 31 16
  let c100 := s.rf oPwrCap 15 0
  let runs := s.fw.up && s.fwState != 3
  let above := if c100 < a then p.overTicks + 1 else 0
  let exc := (p.excursion || decide (100 < above)) && decide (c100 ≤ c || c100 < a)
  let why : Nat := if c1 < a then 2 else if !runs then 0 else if c10 < b then 3 else if c100 < c then 4 else if exc ∧ c100 < a then 5 else 0
  let low := a * 100 < 97 * c1 ∧ b * 100 < 97 * c10 ∧ c * 100 < 97 * c100
  let ticks := if low then min 100 (p.lowTicks + 1) else 0
  let lv := if why ≠ 0 then min 4 (p.capLevel + 1) else if runs ∧ !exc ∧ 100 ≤ ticks then p.capLevel - 1 else p.capLevel
  let unmet := why ≠ 0 ∧ p.capLevel = 4
  let was := s.rf oPwrStatus 56 56 = 1
  let t := { s with pwr := { p with capLevel := lv, capCause := if why ≠ 0 then why else p.capCause, lowTicks := ticks,
                                    overTicks := min above 101, excursion := exc } }
  let t := t.wf oPwrStatus 56 56 (b2n (decide unmet || (decide was && why != 0)))
  (t, if unmet ∧ !was then [(8, 0xFFFFFFFF, match why with | 2 => c1 | 3 => c10 | _ => c100)] else [])

/-- CAP_DECISION (R439, R451, R452, R454, R466): every 100 µs; the level in force is the lowest that either request names. While the Ringmaster does
not run a level that no request names any more stays, with the limiter that set it. The records carry the level after the decision. -/
def execCapDecision (m : PowerSample) (s : State) : Out :=
  let t := ((s.wf oPwrMeas 63 48 m.avg1ms.toNat).wf oPwrMeas 47 32 m.avg10ms.toNat).wf oPwrMeas 31 16 m.avg1s.toNat
  let th := (t.sense m.temps).thermal
  let cp := th.1.capping m
  let t := cp.1
  let old := t.rf oPwrStatus 63 60
  let want := max t.pwr.capLevel t.pwr.thermLevel
  let held := !(t.fw.up && t.fwState != 3) && decide (want < old)
  let new := if held then old else want
  let lim := if held then t.rf oPwrStatus 59 57 else if new = 0 then 0 else if t.pwr.capLevel ≤ t.pwr.thermLevel then 1 else t.pwr.capCause
  let t := (t.wf oPwrStatus 63 60 new).wf oPwrStatus 59 57 lim
  let t := if new = old then t else t.setVid new
  go ((th.2 ++ cp.2 ++ if new = old then [] else [(4, 0xFFFFFFFF, m.avg1ms.toNat)]).foldl (fun (t : State) (e : Nat × Nat × Nat) => t.power e.1 e.2.1 e.2.2) t)

/-- THERMAL_TRIP (R454): a sensor at 110 °C; Calliope flushes with CAUSE 8, the device resets and holds its reset. -/
def execThermalTrip (sensor : Fin 136) (temp : Int) (s : State) : Out :=
  if temp < 110 * 16 ∨ s.pwr.thermHold then go s
  else
    let t := ((s.sense [(sensor, temp)]).satAdd oPwrTherm 39 32 1).emit (.pin "THERMTRIP#" 1)
    let t := { t with pwr := { t.pwr with thermHold := true } }
    go (if s.inReset then t else t.powerReset 8 7 sensor (BitVec.ofInt 64 temp).toNat)

/-- THERMAL_HOLD_END (R454, R475): every sensor reads below 90 °C. -/
def execThermalHoldEnd (s : State) : Out :=
  if s.pwr.thermHold then
    go (({ s with pwr := { s.pwr with thermHold := false, temps := s.pwr.temps.filter (fun x => decide (x.2 < 90 * 16)) } }).emit
      (.pin "THERMTRIP#" 0))
  else go s

/-! ### Admission (R449, R450) -/

/-- Whether a cluster that is quiet or in nap has work: an access that waits for it, a context that runs, or one whose WAIT is satisfied (R449, R456,
R457). -/
def State.hasWork (s : State) (g : Nat) : Bool :=
  !(s.clu g).stop.isEmpty || (List.range 8).any (fun k =>
    let st := s.ctxState g k
    let ws := mkWords (s.peek (SMap.get (s.clu g).ctxs k {}).pos 64)
    st == 1 || ((st == 2 || st == 3) && dOp ws == 0x41 && decide (fld ws 1 31 0 ≤ SMap.get (s.clu g).counters (fld ws 0 28 24) 0)))

/-- ADMISSION_REQUEST (R450). -/
def execAdmissionRequest (clu : GClu) (s : State) : Out := if s.hasWork clu then go (s.requestWake clu) else go s

/-- ADMISSION (R449, R450): the head of the wake queue is admitted; a quiet cluster works at once, a napping one wakes in 2 µs. -/
def execAdmission (s : State) : Out :=
  match s.pwr.wakes with
  | [] => go s
  | g :: rest =>
    let c := s.clu g
    let t := { s with pwr := { s.pwr with wakes := rest, wakeLeft := s.pwr.wakeLeft.filter (· != g) } }
    go ((t.setClu g { c with power := if c.power = 5 then 4 else if c.power = 2 then 0 else c.power }).wakeCheck)

/-! ### Nap (R110, R455 to R457, R461) -/

/-- PWR_NAP (R461). -/
def execPwrNap (tag : BitVec 32) (s : State) : Out :=
  withCmd s tag 0x0C03 fun s t =>
    if !allZero (slice 1 7 t.payload) then s.done t 3 else (s.wf oPwrCtl 7 0 (rd 0 1 t.payload)).done t 0

/-- Whether a context's slots on a core hold more than the cleared state, in either layout, or lie in their save area. -/
def State.holdsAcc (s : State) (c : Nat) (e : CtxE) : Bool :=
  (s.core c).saved.contains e.ctx ||
  e.range.any (fun i => s.slotGet c e.lx32 i != slotOfAcc e.lx32 {} &&
    (unitsOf e.lx32 [i]).any (fun u => s.slotGet c false u != slotOfAcc false {}))

/-- The cores of a context that hold accumulators of it (R110). -/
def State.accCores (s : State) (g : Nat) (e : CtxE) : List Nat := (List.range 40).filter (fun i => bit i e.cores && s.holdsAcc (g * 40 + i) e)

/-- The contexts of a cluster that hold live accumulators, with their table entries: of those that are parked or have ended, the ones with slots that
nothing has cleared (R45, R110, R456). -/
def State.liveCtxs (s : State) (g : Nat) : List CtxE :=
  (List.range 8).filterMap (fun k => (s.ctxE? g k).filter (fun e => decide (0 < e.slots) &&
    (s.ctxState g k == 3 || s.ctxState g k == 4) && !(s.accCores g e).isEmpty))

/-- Whether a descriptor that waits in a unit's queue names an address of a cluster: a DMA or a Midway access to or from it is pending (R456). -/
def State.unitPending (s : State) (g : Nat) : Bool :=
  s.clus.any (fun c => c.2.queues.any (fun q => q.2.any (fun it => (listAddrs it.words).any (fun a => s.cluOf a == some g))))

/-- Whether a Juggler's run that reads or writes a cluster has been triggered and has not ended (R272, R456). -/
def State.jugPending (s : State) (g : Nat) : Bool :=
  match s.job.running, s.job.prog with
  | some j, some p => p.plan.ops.zipIdx.any (fun x => decide (x.1.typ ∈ [1, 4, 5]) &&
      (s.cluOf x.1.loc == some g || x.1.typ == 4 && s.cluOf x.1.aux == some g) &&
      (List.range (if x.1.perMb then dMicro j.desc else 1)).any (fun m => s.triggered x.1 m && !s.jug.ran.contains (x.2, m)))
  | _, _ => false

/-- Whether a cluster may enter nap: its ring's bit is set, it is idle, and every save area that it would write lies in HBM (R110, R456). Every context
has ended or is in a WAIT with PARK, or has no work; one that an error or a veto has stopped has not ended, as in R151. -/
def State.mayNap (s : State) (g : Nat) : Bool :=
  let c := s.clu g
  s.rf oPwrCtl (g / 250) (g / 250) == 1 && decide (c.power ≤ 1) && !s.cluFenced g && s.hang.isNone &&
    (List.range 8).all (fun k => decide (s.ctxState g k ∈ [0, 3, 4])) && c.queues.all (fun q => q.2.isEmpty) && c.stop.isEmpty &&
    !s.unitPending g && !s.jugPending g && (s.liveCtxs g).all (fun e => decide (e.save < hbmEnd))

/-- Save the accumulators of the live contexts on every core that holds some, where they do not lie in their save area (R98, R110). -/
def State.napSave (s : State) (g : Nat) : State × Bool :=
  (s.liveCtxs g).foldl (fun (r : State × Bool) e =>
    (s.accCores g e).foldl (fun (r : State × Bool) i =>
      let x := r.1.core (g * 40 + i)
      if !r.2 ∨ x.saved.contains e.ctx ∨ x.void.contains e.ctx then r else r.1.saveCtx (g * 40 + i) e.ctx e) r) (s, true)

/-- Clear every core of a cluster, its SRAM and its VOL registers; what the Ringmaster shadows stays, and which contexts lie in their save
areas (R456, R464). -/
def State.napClear (s : State) (g : Nat) : State :=
  let t := (List.range 40).foldl (fun (t : State) i =>
    let saved := (t.core (g * 40 + i)).saved
    let u := t.clearCore (g * 40 + i)
    u.setCore (g * 40 + i) { u.core (g * 40 + i) with saved := saved }) s
  let t := t.clear (cluAddr g 0) 0x400000
  { t with regs := resetRegs (inCluster g) (fun r => r == Ret.vol) t.regs }

/-- NAP_ENTRY (R456): a save that fails stops its context, and the cluster stays awake. -/
def execNapEntry (clu : GClu) (s : State) : Out :=
  if !s.mayNap clu then go s
  else
    let r := s.napSave clu
    if !r.2 then go r.1
    else
      let t := r.1.napClear clu
      go (t.setClu clu { t.clu clu with power := 3, comp := [] })

/-- What waited at a cluster's router stop goes on (R457). -/
def State.letIn (s : State) (g : Nat) : State :=
  (s.clu g).stop.foldl (fun t x => t.arrive g x) (s.setClu g { s.clu g with power := 0, stop := [] })

/-- NAP_WAKE_DONE (R456, R457): the shadows are restored, and what has waited for the wake goes on; saved accumulators return when their context next
runs. -/
def execNapWakeDone (clu : GClu) (s : State) : Out :=
  if (s.clu clu).power ≠ 4 then go s
  else
    let t := s.letIn clu
    go (t.setCtx clu 0 (t.ctxState clu 0))

/-! ### Doze (R458 to R460, R462) -/

/-- Power a ring off but for its mesh: its clusters and cores lose what a nap does not keep (R458, R464). -/
def State.ringOff (s : State) (r : Nat) : State :=
  let off := fun (a : Nat) => (decide (cluBase + r * 0x40000000 ≤ a) && decide (a < cluBase + (r + 1) * 0x40000000)) ||
    (decide (coreBase + r * 0x40000000 ≤ a) && decide (a < coreBase + (r + 1) * 0x40000000))
  let clus := (List.range 250).foldl (fun (m : SMap Clu) n => SMap.set m (r * 250 + n) { power := 6 })
    (s.clus.filter (fun c => decide (c.1 / 250 ≠ r)))
  let t := { s with mem := s.mem.filter (fun c => !off c.1), bad := s.bad.filter (fun b => !off b), soft := s.soft.filter (fun b => !off b), clus := clus
                    cores := s.cores.map (fun (c : Nat × Core) => if c.1 / 10000 = r then (c.1, { resErrs := c.2.resErrs, testDue := c.2.testDue }) else c)
                    pwr := { s.pwr with wakes := s.pwr.wakes.filter (fun g => decide (g / 250 ≠ r)) } }
  ({ t with regs := resetRegs (inRing r) (fun k => k == Ret.clu || k == Ret.vol) t.regs }).wf oPwrStatus (44 + r) (44 + r) 1

/-- A ring is powered again; its clusters wait for admission, but those that are fenced (R408, R449, R458). -/
def State.ringOn (s : State) (r : Nat) : State :=
  let gs := (List.range 250).map (fun n => r * 250 + n)
  let live := gs.filter (fun g => !s.cluFenced g)
  let t := gs.foldl (fun (t : State) g => t.setClu g { t.clu g with power := if s.cluFenced g then 0 else 2 }) s
  ({ t with pwr := { t.pwr with wakes := t.pwr.wakes ++ live, wakeLeft := t.pwr.wakeLeft ++ live } }).wf oPwrStatus (44 + r) (44 + r) 0

/-- Rings of a mask. -/
def maskRings (m : Nat) : List Nat := (List.range 8).filter (fun r => bit r m)

/-- PWR_STATE (R458 to R460): a ring doze must leave the running and the staged programme alone, a device doze asks for an unpaired
device. In device doze every ring dozes; STATE 0 wakes the device as a whole, and completes when the wakes and admissions have ended. -/
def execPwrState (tag : BitVec 32) (s : State) : Out :=
  withCmd s tag 0x0C02 fun s t =>
    let st := rd 0 1 t.payload
    let rs := maskRings (rd 1 1 t.payload)
    let mode := s.rf oPwrStatus 54 52
    let dozes := fun (r : Nat) => s.rf oPwrStatus (44 + r) (44 + r) == 1
    let names := fun (p : Prog) => p.rings.any (fun r => rs.contains r)
    if 2 < st ∨ (st = 2 ∧ rs ≠ []) ∨ !allZero (slice 2 6 t.payload) then s.done t 3
    else if s.job.running.isSome ∨ s.job.queue ≠ [] ∨ s.reshard.isSome ∨ s.restore.isSome then s.done t 5
    else if st = 0 then
      let wake := if mode = 0 then rs.filter dozes else [8]
      if mode = 2 then s.done t 0x000A
      else
        let u := if mode = 1 then s.wf oPwrStatus 54 52 2 else s
        ({ u with pwr := { u.pwr with wakeTag := some t.tag, wakeRings := wake, wakeLeft := [], wakeNs := s.rw oTimeNow } }).wakeCheck
    else if st = 1 then
      if mode ≠ 0 ∨ s.job.prog.any names ∨ s.job.staged.any names then s.done t 0x000A
      else ((rs.filter (fun r => !dozes r)).foldl (fun (u : State) r => (u.ringOff r).power 9 r 0) s).done t 0
    else if mode = 1 then s.done t 0
    else if mode = 2 ∨ s.mirState ≠ 0 then s.done t 0x000A
    else
      let u := (((List.range 8).foldl State.ringOff s).bjnPortsDown).wf oPwrStatus 54 52 1
      (({ u with pwr := { u.pwr with hdmAwake := false } }).power 9 0xFFFFFFFF 0).done t 0

/-- DOZE_WAKE_DONE (R458 to R460): a ring, or the device with every ring, has its power back, and the clusters are admitted. -/
def execDozeWakeDone (ring : Option RingNo) (s : State) : Out :=
  match ring with
  | some r =>
    if s.pwr.wakeRings.contains r.val ∧ s.rf oPwrStatus (44 + r.val) (44 + r.val) = 1 then go (s.ringOn r).wakeCheck else go s
  | none =>
    if s.pwr.wakeRings.contains 8 ∧ s.rf oPwrStatus 54 52 = 2 then
      go ((((List.range 8).foldl State.ringOn s).wf oPwrStatus 54 52 0).wakeCheck)
    else go s

/-- MEMORY_ERASE_DONE (R462). -/
def execMemoryEraseDone (ms : Word) (s : State) : Out :=
  if s.erasing then go ((({ s with erasing := false }).wf oPwrCtl 8 8 0).power 12 0xFFFFFFFF ms.toNat) else go s

end Sys2Proof.Machine
end

