-- ==== Sys2Proof/Machine/Snap.lean ====
section
/-!
DEFINITION. Snapshots (R205, R206, R350, R351): what a snapshot holds and in which order, sealing, restores of both scopes.
-/

namespace Sys2Proof.Machine

/-! ### Contents (R205, assumption 46) -/

/-- A piece of a snapshot: elements of one of an entry's five arrays, or, with `arr` 5, bytes at an address. -/
structure SnapSeg where
  home : Home
  entry : Nat
  arr : Nat
  pos : Nat
  bytes : Nat

/-- The pieces of an entry for some of its shards, in the order of a snapshot: master, moment, RECORD with the statistics
beside the last shard, anchor, outer momentum, residual. -/
def Home.snapSegs (h : Home) (i : Nat) (ks : List Nat) : List SnapSeg :=
  let arr := fun (a : Nat) => ks.map (fun k => ({ home := h, entry := i, arr := a, pos := 65536 * k, bytes := 4 * h.e.shardLen k } : SnapSeg))
  let at_ := fun (x : Nat × Nat) => ({ home := h, entry := i, arr := 5, pos := x.1, bytes := x.2 } : SnapSeg)
  let stats := if h.e.rule = 3 then [(h.row, 4 * h.e.rows), (h.col, 4 * h.e.rowLen), (h.tot, 4)] else []
  arr 0 ++ arr 1 ++ (if ks.contains (h.e.shards - 1) then ((h.rcd, 64) :: stats).map at_ else []) ++ arr 2 ++ arr 3 ++ arr 4

/-- The shards of each held entry that a PART covers: all of them, or the owned ones (R205). -/
def State.snapShards (s : State) (p : Prog) (part : Nat) : List (Nat × List Nat) :=
  (s.held p).zipIdx.map (fun x =>
    (x.2, (List.range x.1.shards).filter (fun k => part == 0 || p.owns x.1.tensor (x.1.first + 65536 * k))))

/-- Every piece that a snapshot of a step covers. -/
def State.snapSegs (s : State) (p : Prog) (part step : Nat) : List SnapSeg :=
  (s.snapShards p part).flatMap (fun x => match s.home p x.1 step with | some h => h.snapSegs x.1 x.2 | none => [])

/-- The bytes of a snapshot in the clear: 8 KiB of header, then the arrays. -/
def State.snapLength (s : State) (p : Prog) (part step : Nat) : Nat := (s.snapSegs p part step).foldl (fun (n : Nat) x => n + x.bytes) 8192

/-- The hash of the state map (R205). -/
def Prog.mapHash (p : Prog) : Bytes := sha3 (p.rawEntries 2 64).flatten

/-- Read a list of pieces of the committed state. -/
def State.readSegs (s : State) (p : Prog) : List SnapSeg → Except MemErr Bytes
  | [] => .ok []
  | x :: rest => do
    let a ← if x.arr = 5 then s.load x.pos x.bytes else (s.elems p x.home x.entry s.committed x.arr x.pos (x.bytes / 4)).map le32s
    let b ← s.readSegs p rest
    .ok (a ++ b)

/-- Write bytes over a list of pieces, as far as they go. -/
def State.writeSegs (s : State) (p : Prog) : List SnapSeg → Bytes → State
  | [], _ => s
  | x :: rest, b =>
    let t := if x.arr = 5 then s.put x.pos (b.take x.bytes) else s.putElems p x.home x.entry s.committed x.arr x.pos (words32 (b.take x.bytes))
    t.writeSegs p rest (b.drop x.bytes)

/-- The first 4 KiB of a snapshot (R205). DESIGN CHOICE: the fields stand in the order in which R205 names them, without gaps, at offsets 0, 4, 12, 13,
15 and 16 (assumption 71). -/
def snapHeader (step epoch part : Nat) (hash : Bytes) : Bytes :=
  fit 4096 (le 4 0x504E535A ++ le 8 step ++ le 1 1 ++ le 2 epoch ++ le 1 part ++ fit 32 hash)

/-- A snapshot of the committed step (R205). -/
def State.snapshot (s : State) (p : Prog) (part : Nat) : Except MemErr Bytes :=
  let c := s.committed
  match s.load (p.commitRec + 4096 * (c % 2)) 4096, s.readSegs p (s.snapSegs p part c) with
  | .error e, _ => .error e
  | _, .error e => .error e
  | .ok r, .ok b => .ok (snapHeader c (s.rf oCommitState 63 48) part p.mapHash ++ r ++ b)

/-! ### Sealing (R206, R350) -/

/-- Bytes of a snapshot chunk (R206). -/
def snapChunk : Nat := 67108864

/-- Chunks of a snapshot. -/
def snapCount (len : Nat) : Nat := (len + snapChunk - 1) / snapChunk

/-- The nonce of a chunk: SNAP_ID, then the chunk index, most significant byte first (R206). -/
def snapIv (id i : Nat) : Bytes := (le 4 id).reverse ++ (le 8 i).reverse

/-- Seal a snapshot chunk by chunk, each tag behind its chunk (R206, R350). -/
def sealSnap (key : Bytes) (id : Nat) (b : Bytes) : Bytes :=
  (chunks snapChunk (snapCount b.length) b).zipIdx.flatMap (fun x => gcmSeal key (snapIv id x.2) (le 8 (snapCount b.length)) x.1)

/-- Open sealed chunks in order: the plaintext up to the first that fails, and whether all opened (R351). Fuel is the number of
chunks. -/
def openSnap (key : Bytes) (id count : Nat) : Nat → Nat → Bytes → Bytes × Bool
  | 0, _, _ => ([], true)
  | f + 1, i, b =>
    match gcmOpen key (snapIv id i) (le 8 count) (b.take (snapChunk + 16)) with
    | none => ([], false)
    | some x =>
      let r := openSnap key id count f (i + 1) (b.drop (snapChunk + 16))
      (x ++ r.1, r.2)

/-! ### SNAP -/

/-- PART and SEAL of a payload are among the values that R382 gives. -/
def snapForm (b : Bytes) : Bool := decide (rd 0 1 b ≤ 1) && decide (rd 1 1 b ≤ 1)

/-- Whether a taken request asks for the snapshot engine. -/
def wantsSeal (o : Option Taken) : Bool := match o with | some t => rd 1 1 t.payload == 1 | none => false

/-- SNAP (R205, R206, R353): while the entropy source fails, a sealed snapshot does not start (R352). -/
def execSnap (tag : BitVec 32) (s : State) : Out :=
  if s.noEntropy ∧ wantsSeal (s.taken? tag) then go s
  else withCmd s tag 0x0E01 fun s t =>
    let b := t.payload
    let part := rd 0 1 b
    let sealed_ := rd 1 1 b == 1
    let id := rd 4 4 b
    match s.job.prog with
    | none => s.done t 0x000A
    | some p =>
      let len := s.snapLength p part s.committed
      let need := if sealed_ then len + 16 * snapCount len else len
      if !snapForm b then s.done t 3
      else if s.reshard.any (·.started) then s.done t 5
      else if sealed_ ∧ s.latched then s.done t 9
      else if sealed_ ∧ s.keys.snap.isNone then s.done t 0x000A
      else if s.keys.lastSnap.any (fun k => decide (id ≤ k)) then s.done t 0x0602
      else if rd 16 8 b < need then s.done t 3
      else match s.snapshot p part with
      | .error e => (s.memError srcRm 0xFF 0xFF 0 e).done t 0x000A
      | .ok x =>
        match sealed_, s.keys.snap with
        | true, some key =>
          (({ s with keys := { s.keys with lastSnap := some id } }).hostPut (rd 8 8 b) (sealSnap key id x)).done t 0
        | _, _ => (s.hostPut (rd 8 8 b) x).done t 0

/-! ### SNAP_RESTORE -/

/-- Whether the plan reduces completions over the barrier group (R205, R276). -/
def Prog.groupDone (p : Prog) : Bool := p.plan.ops.any (fun o => o.typ == 7 && o.arg % 256 == 3)

/-- The shards that a snapshot restores. -/
def State.snapPairs (s : State) (p : Prog) (part : Nat) : List (Nat × Nat) := (s.snapShards p part).flatMap (fun x => x.2.map (fun k => (x.1, k)))

/-- The commit record of a snapshot as a restore leaves it: it carries no norm for the first step after the restore (R179). -/
def restoredRec (b : Bytes) : Bytes := b.take 11 ++ le 1 (rd 11 1 b / 4 * 4 + 2 + rd 11 1 b % 2) ++ b.drop 12

/-- The committed state is that of the snapshot's step: its number, its commit record, the working weights of what was restored, the
decision, and a mirror that has to be streamed again (R179, R185, R205, R328). -/
def State.restored (s : State) (p : Prog) (part : Nat) (x : Bytes) : State :=
  let n := rd 4 8 x
  let ps := s.snapPairs p part
  let t := (s.put (p.commitRec + 4096 * (n % 2)) (restoredRec (slice 4096 4096 x))).ww oCommitStep (BitVec.ofNat 64 n)
  let t := t.wf oCommitState 63 48 p.epoch
  let t : State := { t with
    strg := { t.strg.dropped false with digC := [], merged := [], touched := [], outerDone := [], unreadable := t.strg.unreadable.filter (fun y => !ps.contains y) } }
  let t := ps.foldl (fun (t : State) y => t.deriveShard p y.1 y.2 n) t
  let t := (t.roundsAt p n).decision n 8 (le 8 n ++ le 1 (rd 12 1 x) ++ slice 16 32 x)
  let t := t.wf oCommitState 7 7 0
  let t := if t.mirState = 2 then (t.wf oMir 63 61 1).pairRec 3 else t
  if t.mirroring then t.restreamAll else t

/-- What a restored owned shard sends to the holders of the same slice in the other troupes (R205). -/
def State.restoredOut (s : State) (p : Prog) (n : Nat) (y : Nat × Nat) : State :=
  match s.home p y.1 n with
  | none => s
  | some h =>
    let a := fun (arr : Nat) => match s.elems p h y.1 n arr (65536 * y.2) (h.e.shardLen y.2) with | .ok v => le32s v | .error _ => []
    let stats := if h.e.rule = 3 then s.peek h.row (4 * h.e.rows) ++ s.peek h.col (4 * h.e.rowLen) ++ s.peek h.tot 4 else []
    let x : PeerShard := { entry := y.1, shard := y.2, step := BitVec.ofNat 64 n, master := a 0, moment := a 1, anchor := a 2,
                           omom := a 3, resid := a 4, rcd := if y.2 + 1 = h.e.shards then s.peek h.rcd 64 ++ stats else [] }
    (p.holdersOf h.e.tensor (h.e.first + 65536 * y.2)).foldl (fun t d => t.emit (.restored d x)) s

/-- The restore has nothing to wait for at this device and no plan entry that reduces completions: it ends. -/
def State.restoreEnd (s : State) (p : Prog) : State :=
  match s.restore with
  | some x => if x.left.isEmpty ∧ !p.groupDone then ({ s with restore := none, job := { s.job with noStep := false } }).doneTag x.tag 0 else s
  | none => s

/-- What was due for the committed state that a restore replaces is due no more. -/
def State.clearDue (s : State) : State :=
  (({ s with strg := { s.strg with writeback := [], touched := [], closeDue := none } }).wf oCommitState 5 5 0).wf oCommitState 6 6 0

/-- A whole snapshot, in the clear, is restored (R205). -/
def State.restoreAll (s : State) (p : Prog) (t : Taken) (part : Nat) (x : Bytes) : State :=
  let n := rd 4 8 x
  let u := s.clearDue.writeSegs p (s.snapSegs p part n) (x.drop 8192)
  let u := u.restored p part x
  if part = 0 then ({ u with job := { u.job with noStep := false } }).done t 0
  else
    let own := s.snapPairs p 1
    let u := own.foldl (fun u y => u.restoredOut p n y) u
    ({ u with job := { u.job with noStep := true }
              restore := some { tag := t.tag, step := BitVec.ofNat 64 n, left := (s.allShards p).filter (fun y => !own.contains y) } }).restoreEnd p

/-- What another device's OWNED restore delivers to this one's committed slots of the same parity (R205). -/
def State.restorePeers (s : State) (p : Prog) (peers : List PeerShard) : State :=
  match s.restore with
  | none => s
  | some r =>
    let n := r.step.toNat
    (peers.foldl (fun (t : State) x =>
      match t.restore, t.home p x.entry n with
      | some q, some h =>
        if x.step ≠ r.step ∨ !q.left.contains (x.entry, x.shard) then t
        else
          let u := (t.writePeer p h x.entry x.shard x).deriveShard p x.entry x.shard n
          { u with restore := some { q with left := q.left.filter (· != (x.entry, x.shard)) }
                   strg := { u.strg with unreadable := u.strg.unreadable.filter (· != (x.entry, x.shard)) } }
      | _, _ => t) s).restoreEnd p

/-- The header of a snapshot names this layout (R205); another numerics level is accepted. -/
def snapMatches (p : Prog) (part : Nat) (x : Bytes) : Bool :=
  rd 0 4 x == 0x504E535A && rd 15 1 x == part && slice 16 32 x == p.mapHash

/-- SNAP_RESTORE (R205, R351): refused while a step runs; a sealed snapshot is opened chunk by chunk, and one that fails after chunk 0
leaves overwritten slots behind. A restore of OWNED snapshots goes on until the other owners have delivered. -/
def execSnapRestore (tag : BitVec 32) (peers : Option (List PeerShard)) (s : State) : Out :=
  match s.restore, s.job.prog, peers with
  | some r, some p, some ps => go (if r.tag = tag then s.restorePeers p ps else s)
  | _, _, _ =>
    if s.noEntropy ∧ wantsSeal (s.taken? tag) then go s
    else withCmd s tag 0x0E02 fun s t =>
      let b := t.payload
      let part := rd 0 1 b
      let sealed_ := rd 1 1 b == 1
      match s.job.prog with
      | none => s.done t 0x000A
      | some p =>
        let len := s.snapLength p part 0
        let need := if sealed_ then len + 16 * snapCount len else len
        if !snapForm b then s.done t 3
        else if s.job.running.isSome ∨ !s.job.queue.isEmpty ∨ s.phase ≠ 0 ∨ s.reshard.isSome ∨ s.restore.isSome then s.done t 5
        else if rd 16 8 b < need then s.done t 3
        else
          let raw := s.hostGet (rd 8 8 b) need
          let x : Bytes × Bool := if !sealed_ then (raw, true)
            else match s.keys.snap with
            | some key => openSnap key (rd 4 4 b) (snapCount len) (snapCount len) 0 raw
            | none => ([], false)
          let s := if sealed_ ∧ !x.2 ∧ s.keys.snap.isSome then s.satAdd (oCiph 2) 47 32 1 else s
          if x.1.isEmpty then s.done t 0x0603
          else if !snapMatches p part x.1 then s.done t 0x0601
          else if !x.2 then
            ({ s.clearDue.writeSegs p (s.snapSegs p part (rd 4 8 x.1)) (x.1.drop 8192) with job := { s.job with noStep := true } }).done t 0x0603
          else s.restoreAll p t part x.1

/-- SNAP_RESTORE_TIMEOUT (R205): 60 s have passed without the group's restore. -/
def execSnapRestoreTimeout (s : State) : Out :=
  match s.restore with
  | none => go s
  | some r => go (({ s with restore := none, job := { s.job with noStep := true } }).doneTag r.tag 0x000A)

end Sys2Proof.Machine
end

