-- ==== Sys2Proof/Machine/Steps.lean ====
section
/-!
DEFINITION. The STEP commands: acceptance of step and generation descriptors (R23, R24, R212 to R215, R241), their release (R25, R216,
R258, R296, R397, R411), and replay mode (R330 to R332).
-/

namespace Sys2Proof.Machine

/-! ### What a descriptor must satisfy -/

/-- Finite and not negative. -/
def coefOk (x : BitVec 32) : Bool := nonneg32 x
/-- CLIP: above 0, or +Inf (R212). -/
def clipOk (x : BitVec 32) : Bool := pos32 x || x == 0x7F800000

/-- The longest piece of a sequence over a split group, in tokens (R230). -/
def pieceTokens (kvb split len : Nat) : Nat :=
  let b := (len + max kvb 1 - 1) / max kvb 1
  (List.range split).foldl (fun (n : Nat) k =>
    max n (min len ((k + 1) * b / split * kvb) - min len (k * b / split * kvb))) 0

/-- Whether a troupe's share or a micro-batch starts off the routing groups, or is empty (R215). -/
def sharesBad (p : Prog) (d : Bytes) : Bool :=
  (List.range p.siteTroupes).any (fun t => (List.range (dMicro d)).any (fun j =>
    let a := mbFirst d p.siteTroupes t j
    decide (mbFirst d p.siteTroupes t (j + 1) ≤ a) || (p.routeGroup != 0 && tokenOfSeq d a % p.routeGroup != 0)))

/-- Statuses that a step descriptor meets (R48, R212, R213, R215, R229, R230). -/
def checkStep (p : Prog) (d : Bytes) : List Nat :=
  let es := (List.range (dEntries d)).map (dManifest d)
  let form := within 1 16 (rd 14 1 d) && decide (rd 16 2 d ≤ 256) && within 1 4096 (dMicro d) && coefOk (dLr d) && coefOk (dWd d) &&
    clipOk (dClip d) && rd 11 1 d == 0 && rd 15 1 d == 0 && allZero (slice 40 24 d) &&
    (List.range (rd 16 2 d)).all (fun i => pos32 (dScale d i)) &&
    es.zipIdx.all (fun e => rd 0 8 e.1 == seqsBefore d e.2 && decide (1 ≤ rd 8 4 e.1) && decide (1 ≤ rd 12 4 e.1) && allZero (slice 24 8 e.1)) &&
    rd 32 8 d == toksBefore d (dEntries d)
  let modeOk := (dMode d == 0 && p.exactOk) || (dMode d == 1 && p.roundedOk)
  let now := stIf stFmt (!form) ++
    stIf stSeq (es.any (fun e => decide (p.seqMax < rd 12 4 e) || decide (65536 < pieceTokens p.kvb (max p.seqSplit 1) (rd 12 4 e)))) ++
    stIf stEpoch (dEpoch d != p.epoch) ++ stIf 0x0202 (!modeOk)
  now ++ (if now.isEmpty then stIf 0x0203 (sharesBad p d) else [])

/-- Statuses that a generation descriptor meets (R48, R241). -/
def checkGen (p : Prog) (d : Bytes) : List Nat :=
  let us := (List.range (gUsers d)).map (fun u => (gUser d u, ((p.users[u]?).map (·.ctxMax)).getD 0))
  let form := rd 9 1 d == 0 && decide (rd 10 2 d ≤ 256) && allZero (slice 12 52 d) && decide (gUsers d ≤ p.users.length) &&
    us.all (fun u => decide (1 ≤ rd 16 4 u.1) && decide (1 ≤ rd 20 4 u.1) && coefOk (BitVec.ofNat 32 (rd 28 4 u.1)) && allZero (slice 40 24 u.1)) &&
    (List.range (rd 10 2 d)).all (fun i => pos32 (gScale d i))
  stIf stFmt (!form) ++ stIf 0x0206 (us.any (fun u => decide (u.2 < rd 16 4 u.1 + rd 20 4 u.1)))

/-- Bytes that a descriptor must have; none where its counts are out of range (R212, R241, R379). -/
def descBytes (p : Prog) (d : Bytes) : Option Nat :=
  if p.gen then (if d.length < 64 then some 64 else if within 1 4 (gUsers d) then some (64 + 64 * gUsers d + 4 * rd 10 2 d) else none)
  else if d.length < 1216 then some 1216
  else if within 1 1000 (dEntries d) then some (1216 + 64 * dEntries d)
  else none

/-- The step number that comes next (R24, R241). -/
def State.nextStep (s : State) (p : Prog) : Nat :=
  (if p.gen then s.job.genDone else s.committed) + s.job.queue.length + b2n s.job.running.isSome + 1

/-- What stands against any descriptor at this moment: no programme, one that waits for a restore, or one, running or staged, that names a ring in doze (STATE, R458); a divergence that stopped
the replay; a re-shard or a restore under way (R205, R234, R333, R351, R383). -/
def State.stepRefused (s : State) : Option Nat :=
  if s.job.prog.isNone ∨ s.job.noStep ∨ s.job.prog.any s.namesDozing ∨ s.job.staged.any s.namesDozing then some 0x000A
  else if s.rf oReplay 63 62 = 2 then some 0x0208
  else if s.reshard.isSome ∨ s.restore.isSome then some 5
  else none

/-- STEP (R24, R106, R212, R215, R241): queued behind the running step, or refused with the lowest status that it meets; a fenced unit that any
loaded programme, running or staged, sends work to refuses it. -/
def execStep (tag : BitVec 32) (s : State) : Out :=
  withCmd s tag 0x0601 fun s t =>
    let d := t.payload
    match s.stepRefused, s.job.prog with
    | some st, _ => s.done t st
    | none, none => s.done t 0x000A
    | none, some p =>
      match descBytes p d with
      | none => s.done t stFmt
      | some n =>
        if d.length ≠ n then s.done t 3
        else
          let bad := (if p.gen then checkGen p d else checkStep p d) ++ stIf stFenced (s.namesFenced p || s.job.staged.any s.namesFenced) ++
            stIf 0x0201 (dStep d != s.nextStep p || decide (5 ≤ s.job.queue.length + b2n s.job.running.isSome))
          match bad with
          | st :: rest => s.done t (rest.foldl min st)
          | [] =>
            let j : StepJob := { tag := t.tag, n := BitVec.ofNat 64 (dStep d), desc := d }
            { s with job := { s.job with queue := s.job.queue ++ [j] } }

/-! ### Release (R25, R216, R296, R332, R397) -/

/-- Manifest entries that this device reads: those that meet its troupe's share (R214, R216). -/
def ownEntries (p : Prog) (d : Bytes) : List Bytes :=
  let lo := mbFirst d p.siteTroupes p.troupe 0
  let hi := mbFirst d p.siteTroupes p.troupe (dMicro d)
  ((List.range (dEntries d)).map (dManifest d)).filter (fun e => meets (rd 0 8 e) (rd 8 4 e) lo (hi - lo))

/-- Whether every entry that the device reads has its hash (R216). -/
def State.batchOk (s : State) (p : Prog) (d : Bytes) : Bool :=
  p.gen || (ownEntries p d).all (fun e =>
    match s.load (rd 16 8 e) (4 * (rd 8 4 e * rd 12 4 e)) with
    | .ok b => sha3 b == slice 32 32 e
    | .error _ => false)

/-- Whether a release waits at k × H + APPLY_MAX for a sealed manifest of round k (R296). -/
def State.atMax (s : State) (p : Prog) (n : Nat) : Bool :=
  match p.round, s.rounds.open_ with
  | some c, some k => !p.gen && !s.rounds.applied && s.rounds.sealed_.isNone && !s.rounds.stuck && decide (k.toNat * c.h + c.applyMax ≤ n)
  | _, _ => false

/-- What holds a release back: a boundary matter that is not settled, or the outer round (R106, R191, R296, R299, R332, R411). -/
def State.releaseHeld (s : State) (p : Prog) (j : StepJob) : Bool :=
  let n := j.n.toNat
  let k := match s.rounds.open_ with | some x => x.toNat | none => 0
  s.job.running.isSome || s.phase != 0 || s.rf oRstJob 61 61 == 1 || s.job.settle.isSome || s.strg.query.isSome || s.hang.isSome ||
    s.reshard.isSome || s.restore.isSome || s.job.noStep || !s.fw.up || s.fwState == 3 || (p.gen && s.fw.activate.isSome) || s.cores.any (fun c => c.2.testDue) ||
    (!p.gen && match p.round with
      | none => false
      | some c =>
        !s.rounds.applied && ((s.rounds.sealed_.isNone && (decide (k * c.h + c.applyMax ≤ n) || (match s.rounds.held with | some m => decide (m.step.toNat ≤ n) | none => false))) ||
          s.rounds.dropped && decide (k * c.h + c.applyMax ≤ n)))

/-- Whether deltas that the manifest of this step lists are lacking: in a replay, or where a replay left the round open, they are still to be imported
(R330, R332). -/
def State.importsLack (s : State) (n : Nat) : Bool :=
  match s.applyNow n with
    | some m => m.entries.any (fun e => !s.holdsDelta e.1 e.2.2)
    | none => false

/-- Repair the unreadable shards from what other devices supply (R397); a residual that nobody holds is reset. -/
def State.repair (s : State) (p : Prog) (peers : List PeerShard) : Option State :=
  let c := s.committed
  let whole := s.strg.unreadable.all (fun x => match peerShard peers x.1 x.2 c with
    | some y => !y.master.isEmpty && !y.moment.isEmpty && (p.round.isNone || (!y.anchor.isEmpty && !y.omom.isEmpty))
    | none => false)
  if !whole then none
  else
    let t := s.strg.unreadable.foldl (fun t x =>
      match t.home p x.1 c, peerShard peers x.1 x.2 c with
      | some h, some y =>
        let u := t.writePeer p h x.1 x.2 y
        (if y.resid.isEmpty then u.resetResid p h x.1 x.2 else u).deriveShard p x.1 x.2 c
      | _, _ => t) s
    some { t with strg := { t.strg with unreadable := [] } }

/-- Stage a touched row of a cold entry into its committed slots, and derive its working weights (R185, R203). -/
def State.stageRow (s : State) (p : Prog) (i r : Nat) : State :=
  match s.home p i s.committed with
  | none => s
  | some h =>
    let n := max h.e.rowLen 1
    let s0 := { s with strg := { s.strg with touched := SMap.set s.strg.touched i ((SMap.get s.strg.touched i []).filter (· != r)) } }
    let t := (List.range 5).foldl (fun (t : State) arr =>
      match s0.elems p h i s.committed arr (r * n) n with
      | .error e => t.memError h.e.src 0xFF 0xFF 0 e
      | .ok vs => t.putBy h.e.src (h.arr arr + 4 * (r * n)) (le32s vs)) s
    match t.read32 (h.mas + 4 * (r * n)) n with
    | .ok ws => t.putBy h.e.src (h.w + 2 * (r * n)) (workBytes ws)
    | .error _ => t

/-- The touched rows of a step, per held entry, that the forward routing names (R202). -/
def rowsTouched (m : List SEntry) (touched : List (Nat × List Nat)) : SMap (List Nat) :=
  m.zipIdx.foldl (fun (a : SMap (List Nat)) x =>
    let rs := ((touched.filter (fun y => y.1 == x.2)).flatMap (·.2)).eraseDups.filter (fun r => decide (r < x.1.rows))
    if rs.isEmpty then a else SMap.set a x.2 rs) []

/-- A cluster made ready for a step: its counters, queues and contexts are fresh, no context has run on its cores, and no slot is void any
more (R148, R153, assumption 52). What a nap saved stays saved until its context runs (R456). -/
def State.freshCluster (s : State) (g : Nat) : State :=
  let c := s.clu g
  let t := s.setClu g { c with ctxs := [], queues := [], serving := [], counters := [], stall := [], stop := [] }
  let t := (List.range 40).foldl (fun t i => let x := t.core (g * 40 + i); t.setCore (g * 40 + i) { x with live := [], void := [] }) t
  (List.range 8).foldl (fun t k => (t.setCtx g k 0).ww (oCkpt g k) 0) t

/-- The head of the queue becomes the running step: its attempt, the time, its clusters and contexts; in two-phase mode after a rewind
past phase one only phase two runs (R184, R258, R326, R411). -/
def State.releaseStep (s : State) (p : Prog) (j : StepJob) (rest : List StepJob) (touched : List (Nat × List Nat)) : State :=
  let n := j.n.toNat
  let a := SMap.get s.job.attempts n 0
  let j := { j with attempt := a, releaseNs := s.rw oTimeNow }
  let t := { s with job := { s.job with running := some j, queue := rest, attempts := SMap.set s.job.attempts n (a + 1),
                                        genUsers := if p.gen then List.replicate (gUsers j.desc) {} else [], genNext := 0 }
                    replay := { s.replay with waiting := false } }
  let t := (p.clusters t.job.variant).foldl State.freshCluster t
  if p.gen then t.startPass p j
  else if t.strg.phaseOne then t
  else
    let rows := rowsTouched (t.held p) touched
    let cold := rows.flatMap (fun x => if (p.smap[x.1]?).any (·.cold) then x.2.map (fun r => (x.1, r)) else [])
    let t := { t with strg := { t.strg with touched := rows } }
    if p.stageRows < cold.length then t.veto 5 0 0
    else
      let t := cold.foldl (fun t x => t.stageRow p x.1 x.2) t
      if t.job.running.isNone then t
      else
        let t := t.startContexts p
        p.rrecvs.foldl (fun t o => t.reduceFull p o.2 o.1 p.epoch) t

/-- STEP_RELEASE (R25): the head of the queue is checked against the staged batch (R216), what the last step left unreadable is repaired
(R397), SCRATCH of a carried role is rewritten (R419), and the step is released unless the outer round or a replay holds it (R296, R332). A step whose
programme names a unit fenced meanwhile completes with UNIT_FENCED (R106, R408). While a step still runs STATE of the round tells nothing new. -/
def execStepRelease (peers : List PeerShard) (touched : List (Nat × List Nat)) (s : State) : Out :=
  match s.job.prog, s.job.queue with
  | some p, j :: rest =>
    let drop := fun (t : State) (st : Nat) => { t.doneSteps (j :: rest) st with job := { t.job with queue := [] } }
    if s.releaseHeld p j then go (if s.atMax p j.n.toNat ∧ s.job.running.isNone then s.roundState 4 else s)
    else if s.namesFenced p then go (drop s 0x010E)
    else if !s.batchOk p j.desc then go (drop s 0x0204)
    else if s.importsLack j.n.toNat then
      go (if s.replay.waiting ∨ !s.replay.on then s else { s.replayRec 3 0 [] [] with replay := { s.replay with waiting := true } })
    else match s.repair p peers with
    | none => go (drop s 0x0207)
    | some t =>
      let t := if t.carrying ∧ !p.gen then
          (t.mirror.shards).foldl (fun u x => u.deriveShard p (p.smap.length + x.1) x.2 u.committed) t
        else t
      go (t.releaseStep p j rest touched)
  | _, _ => go s

/-! ### Replay mode (R330 to R332) -/

/-- The records of a log: TYPE, STEP and payload (R330, R425). Fuel bounds their number. -/
def logRecs : Nat → Bytes → List (Nat × Nat × Bytes)
  | 0, _ => []
  | f + 1, b =>
    let n := 8 * (rd 0 2 b % 512)
    if b.length < 32 ∨ n < 32 ∨ b.length < n then []
    else (rd 2 2 b, rd 16 8 b, slice 32 (n - 32) b) :: logRecs f (b.drop n)

/-- Whether the log's records are in ascending step order. -/
def ascending : Nat → List (Nat × Nat × Bytes) → Bool
  | _, [] => true
  | n, r :: rs => decide (n ≤ r.2.1) && ascending r.2.1 rs

/-- The logged attempts: a step record opens one, fingerprint records follow it (R326, R327). -/
def logSteps (rs : List (Nat × Nat × Bytes)) : List LogStep :=
  (rs.foldl (fun (l : List LogStep) r =>
    if r.1 = 0x0201 then ({ n := BitVec.ofNat 64 r.2.1, payload := r.2.2, gfp := [], wfp := [] } : LogStep) :: l
    else if r.1 = 0x0202 then
      match l with
      | x :: rest =>
        let v := slice 8 (8 * rd 6 2 r.2.2) r.2.2
        (if rd 0 1 r.2.2 = 0 then { x with gfp := v } else { x with wfp := v }) :: rest
      | [] => []
    else l) []).reverse

/-- The contents of the decisions of one kind (R328). -/
def logDecisions (rs : List (Nat × Nat × Bytes)) (kind : Nat) : List Bytes :=
  (rs.filter (fun r => r.1 == 0x0204 && rd 0 1 r.2.2 == kind)).map (fun r => r.2.2.drop 8)

/-- A MANIFEST decision: the manifest, then a hash for each entry (R328). -/
def logManifest (b : Bytes) : Manifest × List Bytes :=
  let m := mkManifest b
  (m, (List.range m.entries.length).map (fun i => slice (64 + 16 * m.entries.length + 32 * i) 32 b))

/-- The status of a log (R330): 0 where nothing stands against it. -/
def State.logStatus (s : State) (b : Bytes) (rs : List (Nat × Nat × Bytes)) : Nat :=
  let first := rd 0 8 b
  let last := rd 8 8 b
  let steps := logSteps rs
  let done := fun n => steps.any (fun x => x.n.toNat == n && rd 1 1 x.payload == 0)
  let span := (logDecisions rs 7 ++ logDecisions rs 8).any (fun d => decide (first ≤ rd 0 8 d) && decide (rd 0 8 d ≤ last))
  if !allZero (slice 33 31 b) ∨ 1 < rd 32 1 b ∨ first ≠ s.committed + 1 ∨ last < first ∨ !within 1 (2 ^ 36) (rd 24 8 b) ∨ !ascending 0 rs ∨
      !((List.range (last + 1 - first)).all (fun k => done (first + k))) then 0x0604
  else if steps.any (fun x => rd 6 1 x.payload != 1) then 0x0605
  else if span then 0x0606
  else 0

/-- STEP_REPLAY_BEGIN (R330): the log is read and checked, and replay mode starts. -/
def execStepReplayBegin (tag : BitVec 32) (s : State) : Out :=
  withCmd s tag 0x0602 fun s t =>
    match s.job.prog with
    | none => s.done t 5
    | some p =>
      if p.gen then s.done t 0x0604
      else if s.job.running.isSome ∨ s.job.queue ≠ [] ∨ s.reshard.isSome then s.done t 5
      else
        let b := t.payload
        let rs := logRecs (rd 24 8 b / 32 + 1) (s.hostGet (rd 16 8 b) (rd 24 8 b))
        let st := s.logStatus b rs
        if st ≠ 0 then s.done t st
        else
          let ms := (logDecisions rs 5).map logManifest
          let rep : Replay := {
            on := true, first := BitVec.ofNat 64 (rd 0 8 b), last := BitVec.ofNat 64 (rd 8 8 b), cont := rd 32 1 b == 1, steps := logSteps rs,
            variants := (logDecisions rs 1).map (fun d => (BitVec.ofNat 64 (rd 0 8 d), rd 8 1 d)), manifests := ms,
            resets := (logDecisions rs 6).flatMap (fun d => (List.range ((d.length - 8) / 16)).map (fun i => (BitVec.ofNat 64 (rd 0 8 d), rd (8 + 16 * i) 8 d, rd (16 + 16 * i) 8 d))), waiting := false }
          let u := { s with replay := rep, job := { s.job with diverged := false } }
          let u := ((u.ww oReplay 0).wf oReplay 63 62 1).ww oReplayDiv 0
          let u := u.replayRounds p ms
          (u.replayAt p u.committed).done t 0

/-- STEP_REPLAY_END (R330). -/
def execStepReplayEnd (tag : BitVec 32) (s : State) : Out :=
  withCmd s tag 0x0603 fun s t => (if s.replay.on then s.replayEnd else s).done t 0

end Sys2Proof.Machine
end

