-- ==== Sys2Proof/Machine/Vector.lean ====
section
/-!
DEFINITION. The vector engines (R154 to R160, R489) and the special-function unit (R161).
-/

namespace Sys2Proof.Machine

/-! ### Arrays in the cluster's SRAM -/

/-- An element format of R155. -/
def vFmt (n : Nat) : Fmt := if n = 0 then fp32 else if n = 1 then fp16 else bf16
/-- Bytes of an element format; 3 is an LX32 slot. -/
def vBytes (n : Nat) : Nat := if n = 0 then 4 else if n = 3 then 80 else 2

/-- A vector engine, the special-function unit and their DMA read their own cluster's SRAM (R154). -/
def State.cluLoad (s : State) (g a n : Nat) : Except MemErr Bytes :=
  if n = 0 then .ok []
  else match s.area a with
  | .clu h _ => if h = g then s.load a n else .error { kind := 3, addr := a }
  | _ => .error { kind := 3, addr := a }

/-- A write into the own cluster's SRAM. -/
def State.cluStore (s : State) (g a : Nat) (b : Bytes) : State × Option MemErr :=
  if b.isEmpty then (s, none)
  else match s.area a with
  | .clu h _ => if h = g then s.store a b else (s, some { kind := 3, addr := a })
  | _ => (s, some { kind := 3, addr := a })

/-- n elements of a format from an address. -/
def State.cluElems (s : State) (g a fmt n : Nat) : Except MemErr (List Nat) :=
  match s.cluLoad g a (vBytes fmt * n) with
  | .error e => .error e
  | .ok b => .ok (elemsLE (vBytes fmt) b)

/-- The fields that every vector descriptor uses (R155). -/
structure VDesc where
  tag : Nat
  op : Nat
  afmt : Nat
  bfmt : Nat
  dfmt : Nat
  bcast : Bool
  rmode : Nat
  seed : Nat
  scale : Nat
  a : Nat
  b : Nat
  c : Nat
  dst : Nat
  rows : Nat
  count : Nat
  tensor : Nat
  base : Nat
  p0 : Nat
  p1 : Nat

/-- The fields of a vector descriptor (R155). -/
def vDesc (ws : List Word) : VDesc :=
  { tag := dTag ws, op := fld ws 0 47 40, afmt := fld ws 0 39 38, bfmt := fld ws 0 37 36, dfmt := fld ws 0 35 34,
    bcast := fld ws 0 33 33 == 1, rmode := fld ws 0 31 29, seed := fld ws 0 27 24, scale := fld ws 0 23 16,
    a := fld ws 1 47 0, b := fld ws 2 47 0, c := fld ws 6 47 0, dst := fld ws 3 47 0, rows := fld ws 4 47 32, count := fld ws 4 31 0,
    tensor := fld ws 5 63 48, base := fld ws 5 47 0, p0 := fld ws 7 31 0, p1 := fld ws 7 63 32 }

/-- The draw of R57 for the result at a row-major position. -/
def State.vDraw (s : State) (d : VDesc) (i : Nat) : BitVec 32 :=
  if d.rmode = 4 then zcg (BitVec.ofNat 64 (s.seedSel d.seed)) (BitVec.ofNat 64 s.rngStep) (BitVec.ofNat 16 d.tensor)
    (BitVec.ofNat 48 (d.base + i))
  else 0

/-- What a descriptor produces: writes in order and a completion record; or the error of a read; or a residue mismatch in an
LX32 slot it read (R42); or a context error. -/
inductive VOut where
  | ok (writes : List (Nat × Bytes)) (r : Completion)
  | mem (e : MemErr)
  | residue
  | ctx

/-- A residue error outside a matrix core (R396, R428). -/
def State.engineResidue (s : State) (g unit k tag : Nat) : State :=
  (s.haltCtx g k).residueError (srcUnit g unit) 0xFFFFFFFF 0xFF tag 0

/-- A unit runs a descriptor: every operand is read before any result is written (assumption 18); one free value is spent
on it whether or not it needs one (assumption 4). `rport` and `wport` are its
cluster SRAM ports (R143). -/
def runVec (g unit rport wport : Nat) (names : List Word → Bool) (fault : UnitEv) (s : State)
    (f : Nat → List Word → State → VOut) : Out :=
  unitRow g unit names s fun k it s =>
    let tag := dTag it.words
    let s := s.upset g fault.upset
    if fault.residue then (s.engineResidue g unit k tag, none)
    else match f k it.words s with
    | .mem e => (s.accError (srcUnit g unit) g k rport tag e, none)
    | .residue => (s.engineResidue g unit k tag, none)
    | .ctx => (s.ctxError (srcUnit g unit) g k 0xFF tag 0, none)
    | .ok ws r =>
      match ws.foldl (fun (p : State × Option MemErr) w => match p.2 with | some _ => p | none => p.1.cluStore g w.1 w.2) (s, none) with
      | (t, some e) => (t.accError (srcUnit g unit) g k wport tag e, none)
      | (t, none) => ({ t with free := t.free + 1 }, some r)

/-- A vector engine's descriptor with an opcode and OP. -/
def vecRow (clu : GClu) (eng : Fin 2) (fault : UnitEv) (names : List Word → Bool) (s : State)
    (f : Nat → VDesc → State → VOut) : Out :=
  runVec clu (40 + eng) (40 + eng) (42 + eng) names fault s fun k ws s => f k (vDesc ws) s

/-- Bytes of rounded elements. -/
def vPack (fmt : Nat) (l : List Rounded) : Bytes := l.flatMap (fun r => le (vBytes fmt) r.x)
/-- The numeric status of rounded elements (R49). -/
def vStatus (l : List Rounded) : Nat := l.foldl (fun n r => n ||| r.st) 0

/-! ### VELEM (R65, R156) -/

/-- One elementwise operation (R64, R65). -/
def elemOp (op : Nat) (f : Fmt) (mode : Nat) (u : BitVec 32) (a b c : FVal) : Rounded :=
  match op with
  | 0 => addF f mode u a b
  | 1 => addF f mode u a b.negate
  | 2 => mulF f mode u a b
  | 3 => fmaF f mode u a b c
  | 4 => minF f mode u a b
  | 5 => maxF f mode u a b
  | _ => convF f mode u a

/-- VELEM (R65, R156). -/
def execVelem (clu : GClu) (eng : Fin 2) (fault : UnitEv) (s : State) : Out :=
  vecRow clu eng fault (fun ws => dOp ws == 0x10) s fun k d s =>
    let n := d.rows * d.count
    match s.cluElems clu d.a d.afmt n, (if d.op = 6 then .ok [] else s.cluElems clu d.b d.bfmt (if d.bcast then 1 else n)),
        (if d.op = 3 then s.cluElems clu d.c d.dfmt n else .ok []) with
    | .error e, _, _ => .mem e
    | _, .error e, _ => .mem e
    | _, _, .error e => .mem e
    | .ok a, .ok b, .ok c =>
      let out := a.zipIdx.map (fun x =>
        elemOp d.op (vFmt d.dfmt) d.rmode (s.vDraw d x.2) (decodeF (vFmt d.afmt) x.1)
          (decodeF (vFmt d.bfmt) (b.getD (if d.bcast then 0 else x.2) 0)) (decodeF (vFmt d.dfmt) (c.getD x.2 0)))
      .ok [(d.dst, vPack d.dfmt out)] { ctx := k, tag := d.tag, status := vStatus out }

/-! ### VSUM (R156) -/

/-- The exact contribution of one element. -/
def sumTerm (op : Nat) (a b : FVal) : Acc :=
  if op = 0 then valContrib a else if op = 1 then prodContrib u32e a a else prodContrib u32e a b

/-- VSUM (R44, R47, R156). -/
def execVsum (clu : GClu) (eng : Fin 2) (fault : UnitEv) (s : State) : Out :=
  vecRow clu eng fault (fun ws => dOp ws == 0x11) s fun k d s =>
    let n := d.rows * d.count
    match s.cluElems clu d.a d.afmt n, (if d.op = 2 then s.cluElems clu d.b d.bfmt (if d.bcast then 1 else n) else .ok []) with
    | .error e, _ => .mem e
    | _, .error e => .mem e
    | .ok a, .ok b =>
      let sums := (List.range d.rows).map (fun r => Acc.sum ((List.range d.count).map (fun i =>
        let j := r * d.count + i
        sumTerm d.op (decodeF (vFmt d.afmt) (a.getD j 0)) (decodeF (vFmt d.bfmt) (b.getD (if d.bcast then 0 else j) 0)))))
      if d.dfmt = 3 then .ok [(d.dst, sums.flatMap lx32Bytes)] { ctx := k, tag := d.tag }
      else
        let out := sums.zipIdx.map (fun x => roundAcc (vFmt d.dfmt) d.rmode (s.vDraw d x.2) u32e (s.scaleSel d.scale) x.1)
        .ok [(d.dst, vPack d.dfmt out)] { ctx := k, tag := d.tag, status := vStatus out }

/-! ### VGATHER and VSCATTER (R156, R157) -/

/-- Copy the elements that indices name; an index beyond the bound yields +0. -/
def State.gatherElems (s : State) (g : Nat) (d : VDesc) : List Nat → Except MemErr Bytes
  | [] => .ok []
  | i :: l =>
    match (if d.p0 ≤ i then .ok (zeros (vBytes d.afmt)) else s.cluLoad g (d.a + i * vBytes d.afmt) (vBytes d.afmt)) with
    | .error e => .error e
    | .ok b =>
      match s.gatherElems g d l with
      | .error e => .error e
      | .ok r => .ok (b ++ r)

/-- VGATHER (R157). -/
def execVgather (clu : GClu) (eng : Fin 2) (fault : UnitEv) (s : State) : Out :=
  vecRow clu eng fault (fun ws => dOp ws == 0x12) s fun k d s =>
    let n := d.rows * d.count
    match s.cluLoad clu d.b (4 * (if d.bcast then 1 else n)) with
    | .error e => .mem e
    | .ok ib =>
      let one := elemsLE 4 ib
      let idx := if d.bcast then List.replicate n (one.headD 0) else one
      match s.gatherElems clu d idx with
      | .error e => .mem e
      | .ok b => .ok [(d.dst, b)] { ctx := k, tag := d.tag, oob := idx.any (fun i => decide (d.p0 ≤ i)) }

/-- Merge values into the LX32 slots that they name, slot by slot: the slots with their accumulators. -/
def scatterAdd : List (Nat × Acc) → List (Nat × Acc) → List (Nat × Acc)
  | [], m => m
  | (i, a) :: l, m => scatterAdd l (m.map (fun x => if x.1 = i then (i, x.2.merge a) else x))

/-- Read the LX32 slots that a scatter-add merges into, each once. -/
def State.readSlots (s : State) (g dst : Nat) : List Nat → Except MemErr (List (Nat × Bytes))
  | [] => .ok []
  | i :: l =>
    match s.cluLoad g (dst + 80 * i) 80 with
    | .error e => .error e
    | .ok b =>
      match s.readSlots g dst l with
      | .error e => .error e
      | .ok r => .ok ((i, b) :: r)

/-- VSCATTER (R157): copies, the highest source position winning; or merges each value into an LX32 slot exactly. An index
beyond the bound writes nothing. -/
def execVscatter (clu : GClu) (eng : Fin 2) (fault : UnitEv) (s : State) : Out :=
  vecRow clu eng fault (fun ws => dOp ws == 0x13) s fun k d s =>
    let n := d.rows * d.count
    match s.cluElems clu d.a d.afmt n, s.cluLoad clu d.b (4 * (if d.bcast then 1 else n)) with
    | .error e, _ => .mem e
    | _, .error e => .mem e
    | .ok a, .ok ib =>
      let one := elemsLE 4 ib
      let idx := if d.bcast then List.replicate n (one.headD 0) else one
      let r : Completion := { ctx := k, tag := d.tag, oob := idx.any (fun i => decide (d.p0 ≤ i)) }
      let live := (idx.zip a).filter (fun p => decide (p.1 < d.p0))
      if d.op = 0 then .ok (live.map (fun p => (d.dst + p.1 * vBytes d.afmt, le (vBytes d.afmt) p.2))) r
      else match s.readSlots clu d.dst ((live.map (·.1)).eraseDups) with
      | .error e => .mem e
      | .ok slots =>
        if !slots.all (fun x => lx32Ok x.2) then .residue
        else
          let m := scatterAdd (live.map (fun p => (p.1, valContrib (decodeF (vFmt d.afmt) p.2)))) (slots.map (fun x => (x.1, lx32Of x.2)))
          .ok (m.map (fun x => (d.dst + 80 * x.1, lx32Bytes x.2))) r

/-! ### VSOFTMAX (R158) -/

/-- The greatest of values without NaN. -/
def maxVal (l : List FVal) : FVal := l.foldl (fun m x => if ltF m x then x else m) (.inf true)

/-- sfu_exp(fp32_rne(x − m)) (R158, R159). -/
def expDiff (x m : FVal) : Rounded := sfu fp32 fp32 .exp (addF fp32 0 0 x m.negate).x

/-- An exact quotient of two accumulators, rounded once: the numerator's flags and zero sign govern, the denominator is
positive (R50, R158, R489). -/
def accQuot (f : Fmt) (mode : Nat) (u : BitVec 32) (a den : Acc) : Rounded := roundFlags f mode u a a.val.natAbs den.val.natAbs 0

/-- One row of VSOFTMAX. Its numeric status is that of the results that it writes: what its differences, exponentials and sum round is not
reported (R49, assumption 49). -/
def softmaxRow (f : Fmt) (mode : Nat) (draw : Nat → BitVec 32) (x : List FVal) : List Rounded :=
  if x.any FVal.isNan || x.any (fun v => v == .inf false) then x.map (fun _ => ⟨f.nanBits, stNan⟩)
  else if x.all (fun v => v == .inf true) then x.map (fun _ => ⟨f.zeroBits false, 0⟩)
  else
    let m := maxVal x
    let p := x.map (fun v => valContrib (decodeF fp32 (expDiff v m).x))
    let l := Acc.sum p
    p.zipIdx.map (fun q => accQuot f mode (draw q.2) q.1 l)

/-- VSOFTMAX (R158). -/
def execVsoftmax (clu : GClu) (eng : Fin 2) (fault : UnitEv) (s : State) : Out :=
  vecRow clu eng fault (fun ws => dOp ws == 0x14) s fun k d s =>
    match s.cluElems clu d.a d.afmt (d.rows * d.count) with
    | .error e => .mem e
    | .ok a =>
      let v := a.map (decodeF (vFmt d.afmt))
      let out := (List.range d.rows).flatMap (fun r =>
        softmaxRow (vFmt d.dfmt) d.rmode (fun i => s.vDraw d (r * d.count + i)) ((v.drop (r * d.count)).take d.count))
      .ok [(d.dst, vPack d.dfmt out)] { ctx := k, tag := d.tag, status := vStatus out }

/-! ### VATTN (R159, R489) -/

/-- One row of the attention block step over the scores of its unmasked tokens: p per token, m and l, with the status of what it writes
(assumption 49). -/
def attnRow (x : List FVal) : List Rounded × Rounded × Rounded :=
  let nan : Rounded := ⟨fp32.nanBits, stNan⟩
  let ninf : Rounded := ⟨fp32.infBits true, 0⟩
  if x.any FVal.isNan || x.any (fun v => v == .inf false) then (x.map (fun _ => nan), nan, nan)
  else if x.all (fun v => v == .inf true) then (x.map (fun _ => ⟨0, 0⟩), ninf, ⟨0, 0⟩)
  else
    let m := maxVal x
    let p := x.map (fun v => expDiff v m)
    (p, convF fp32 0 0 m, roundAcc fp32 0 0 u32e one32 (Acc.sum (p.map (fun r => valContrib (decodeF fp32 r.x)))))

/-- VATTN_BLOCK (R159, R489): p with +0 at masked tokens, and a part record per row; a row that crosses a block boundary is a
context error. -/
def execVattnBlock (clu : GClu) (eng : Fin 2) (fault : UnitEv) (s : State) : Out :=
  vecRow clu eng fault (fun ws => dOp ws == 0x15 && fld ws 0 47 40 == 0) s fun k d s =>
    let kvb := match s.job.prog with | some p => max p.kvb 1 | none => 1
    if d.p0 / kvb ≠ (d.p0 + d.count - 1) / kvb then .ctx
    else match s.cluElems clu d.a d.afmt (d.rows * d.count) with
    | .error e => .mem e
    | .ok a =>
      let v := a.map (decodeF (vFmt d.afmt))
      let rows := (List.range d.rows).map (fun r =>
        -- the unmasked tokens are those at positions up to the query's
        let n := min d.count (d.p1 + r + 1 - d.p0)
        let o := attnRow ((v.drop (r * d.count)).take n)
        (o.1 ++ List.replicate (d.count - n) ⟨0, 0⟩, o.2))
      let parts := rows.flatMap (fun o => le 4 o.2.1.x ++ le 4 o.2.2.x)
      let ps := rows.flatMap (·.1)
      .ok [(d.dst, vPack 0 ps), (d.c, parts)]
        { ctx := k, tag := d.tag, status := vStatus ps ||| vStatus (rows.flatMap (fun o => [o.2.1, o.2.2])) }

/-- A result whose value is open: a NaN that any engine writes is the canonical one (R37, R49). -/
def freeResult (f : Fmt) (x : Nat) : Rounded :=
  match decodeF f x with
  | .nan => ⟨f.nanBits, stNan⟩
  | .inf _ => ⟨x, stInf⟩
  | .fin .. => ⟨x, 0⟩

/-- The merge of one row (R159, R489): `parts` are the part records' encodings, `o b j` element j of block b. Part records
that no block step writes can make the denominator other than positive; the result is then a free value (assumption 4). -/
def mergeRow (f : Fmt) (mode : Nat) (draw : Nat → BitVec 32) (free : Nat → Nat) (parts : List (Nat × Nat)) (dv : Nat)
    (o : Nat → Nat → Nat) : List Rounded :=
  let live := parts.zipIdx.filter (fun p => decide (p.1.2 % 2 ^ 31 ≠ 0))
  let m := live.map (fun p => decodeF fp32 p.1.1)
  let l := live.map (fun p => decodeF fp32 p.1.2)
  if live.isEmpty then List.replicate dv ⟨f.zeroBits false, 0⟩
  else if m.any FVal.isNan || l.any FVal.isNan then List.replicate dv ⟨f.nanBits, stNan⟩
  else
    let mx := maxVal m
    let w := m.map (fun v => decodeF fp32 (expDiff v mx).x)
    let den := Acc.sum (List.zipWith (prodContrib u32e) w l)
    (List.range dv).map (fun j =>
      if den.nan || den.pinf || den.ninf || decide (den.val ≤ 0) then freeResult f (free j % 2 ^ (f.p + f.ebits))
      else accQuot f mode (draw j)
        (Acc.sum (List.zipWith (fun w p => prodContrib u32e w (decodeF fp32 (o p.2 j))) w live)) den)

/-- VATTN_MERGE (R159, R489). -/
def execVattnMerge (clu : GClu) (eng : Fin 2) (fault : UnitEv) (s : State) : Out :=
  vecRow clu eng fault (fun ws => dOp ws == 0x15 && fld ws 0 47 40 == 1) s fun k d s =>
    let dv := d.p0
    match s.cluElems clu d.a 0 (2 * d.rows * d.count), s.cluElems clu d.b 0 (d.rows * d.count * dv) with
    | .error e, _ => .mem e
    | _, .error e => .mem e
    | .ok a, .ok b =>
      let out := (List.range d.rows).flatMap (fun r =>
        mergeRow (vFmt d.dfmt) d.rmode (fun j => s.vDraw d (r * dv + j)) (fun j => rd (4 * (r * dv + j)) 4 (Config.freeBytes s.free (4 * d.rows * dv)))
          ((List.range d.count).map (fun i => (a.getD (2 * (r * d.count + i)) 0, a.getD (2 * (r * d.count + i) + 1) 0)))
          dv (fun i j => b.getD ((r * d.count + i) * dv + j) 0))
      .ok [(d.dst, vPack d.dfmt out)] { ctx := k, tag := d.tag, status := vStatus out }

/-! ### The special-function unit (R161) -/

/-- SFU_DESCRIPTOR (R66 to R68, R161). -/
def execSfuDescriptor (clu : GClu) (fault : UnitEv) (s : State) : Out :=
  runVec clu 42 44 44 (fun ws => dOp ws == 0x20) fault s fun k ws s =>
    let d := vDesc ws
    match s.cluElems clu d.a d.afmt (d.rows * d.count) with
    | .error e => .mem e
    | .ok a =>
      let out := a.map (sfu (vFmt d.afmt) (vFmt d.dfmt) (sfuFn (fld ws 0 43 40)))
      .ok [(d.dst, vPack d.dfmt out)] { ctx := k, tag := d.tag, status := vStatus out }

end Sys2Proof.Machine
end

