-- ==== Sys2Proof/Machine/Dispatch.lean ====
section
/-!
DEFINITION. One arm per command: which meaning it has.
-/

namespace Sys2Proof.Machine

def exec (i : Instr) (s : State) : Host.Outcome State Fault Refusal :=
  match i with
  | .ident tag => Sys2Proof.Machine.execIdent tag s
  | .fwStage tag => Sys2Proof.Machine.execFwStage tag s
  | .fwActivate tag => Sys2Proof.Machine.execFwActivate tag s
  | .fwCommit tag ev => Sys2Proof.Machine.execFwCommit tag ev s
  | .fwBoot tag => Sys2Proof.Machine.execFwBoot tag s
  | .fwFetch tag ev => Sys2Proof.Machine.execFwFetch tag ev s
  | .fwBoard tag => Sys2Proof.Machine.execFwBoard tag s
  | .attestReport tag => Sys2Proof.Machine.execAttestReport tag s
  | .attestCert tag => Sys2Proof.Machine.execAttestCert tag s
  | .keyOwner tag => Sys2Proof.Machine.execKeyOwner tag s
  | .keyLine tag => Sys2Proof.Machine.execKeyLine tag s
  | .keySnap tag => Sys2Proof.Machine.execKeySnap tag s
  | .keyClear tag => Sys2Proof.Machine.execKeyClear tag s
  | .progLoad tag => Sys2Proof.Machine.execProgLoad tag s
  | .progRun tag => Sys2Proof.Machine.execProgRun tag s
  | .progDiscard tag => Sys2Proof.Machine.execProgDiscard tag s
  | .step tag => Sys2Proof.Machine.execStep tag s
  | .stepReplayBegin tag => Sys2Proof.Machine.execStepReplayBegin tag s
  | .stepReplayEnd tag => Sys2Proof.Machine.execStepReplayEnd tag s
  | .layout tag => Sys2Proof.Machine.execLayout tag s
  | .roundMap tag => Sys2Proof.Machine.execRoundMap tag s
  | .roundChan tag => Sys2Proof.Machine.execRoundChan tag s
  | .roundJoin tag => Sys2Proof.Machine.execRoundJoin tag s
  | .roundArchive tag => Sys2Proof.Machine.execRoundArchive tag s
  | .roundImport tag => Sys2Proof.Machine.execRoundImport tag s
  | .mirrorSet tag peers => Sys2Proof.Machine.execMirrorSet tag peers s
  | .mirrorClear tag => Sys2Proof.Machine.execMirrorClear tag s
  | .mirrorAdmit tag => Sys2Proof.Machine.execMirrorAdmit tag s
  | .diagRecClear tag => Sys2Proof.Machine.execDiagRecClear tag s
  | .diagDump tag answers => Sys2Proof.Machine.execDiagDump tag answers s
  | .diagSelftest tag pass => Sys2Proof.Machine.execDiagSelftest tag pass s
  | .calPort tag => Sys2Proof.Machine.execCalPort tag s
  | .calMem tag => Sys2Proof.Machine.execCalMem tag s
  | .pwrCap tag => Sys2Proof.Machine.execPwrCap tag s
  | .pwrState tag => Sys2Proof.Machine.execPwrState tag s
  | .pwrNap tag => Sys2Proof.Machine.execPwrNap tag s
  | .timeSet tag => Sys2Proof.Machine.execTimeSet tag s
  | .timeCal tag => Sys2Proof.Machine.execTimeCal tag s
  | .snap tag => Sys2Proof.Machine.execSnap tag s
  | .snapRestore tag peers => Sys2Proof.Machine.execSnapRestore tag peers s
  | .requestDoorbell tail entries hostWrites => Sys2Proof.Machine.execRequestDoorbell tail entries hostWrites s
  | .requestTake hostOk => Sys2Proof.Machine.execRequestTake hostOk s
  | .completionPost => Sys2Proof.Machine.execCompletionPost s
  | .mbxCplHeadWrite head => Sys2Proof.Machine.execMbxCplHeadWrite head s
  | .intMaskWrite w => Sys2Proof.Machine.execIntMaskWrite w s
  | .cplCoalesceTimeout => Sys2Proof.Machine.execCplCoalesceTimeout s
  | .registerWrite offset wide value => Sys2Proof.Machine.execRegisterWrite offset wide value s
  | .coreReset target => Sys2Proof.Machine.execCoreReset target s
  | .clusterReset target => Sys2Proof.Machine.execClusterReset target s
  | .ringmasterRestart => Sys2Proof.Machine.execRingmasterRestart s
  | .deviceReset => Sys2Proof.Machine.execDeviceReset s
  | .hangRecovery cluster => Sys2Proof.Machine.execHangRecovery cluster s
  | .suspectShortTimeout => Sys2Proof.Machine.execSuspectShortTimeout s
  | .suspectLimitTimeout => Sys2Proof.Machine.execSuspectLimitTimeout s
  | .hangVerdict selftests => Sys2Proof.Machine.execHangVerdict selftests s
  | .jobRewind value => Sys2Proof.Machine.execJobRewind value s
  | .perstAssert ns => Sys2Proof.Machine.execPerstAssert ns s
  | .powerCycle => Sys2Proof.Machine.execPowerCycle s
  | .vioPowerOn => Sys2Proof.Machine.execVioPowerOn s
  | .boot env => Sys2Proof.Machine.execBoot env s
  | .imageReady => Sys2Proof.Machine.execImageReady s
  | .startTimeout => Sys2Proof.Machine.execStartTimeout s
  | .failedStartAgeOut => Sys2Proof.Machine.execFailedStartAgeOut s
  | .firmwareWatchdog => Sys2Proof.Machine.execFirmwareWatchdog s
  | .handover => Sys2Proof.Machine.execHandover s
  | .handoverTimeout => Sys2Proof.Machine.execHandoverTimeout s
  | .stepRelease peers touched => Sys2Proof.Machine.execStepRelease peers touched s
  | .mpass core fault => Sys2Proof.Machine.execMpass core fault s
  | .mout core => Sys2Proof.Machine.execMout core s
  | .mspill core => Sys2Proof.Machine.execMspill core s
  | .mresume core => Sys2Proof.Machine.execMresume core s
  | .mclear core => Sys2Proof.Machine.execMclear core s
  | .contextSwitch clu unit => Sys2Proof.Machine.execContextSwitch clu unit s
  | .dispatch clu ctx => Sys2Proof.Machine.execDispatch clu ctx s
  | .wait clu ctx => Sys2Proof.Machine.execWait clu ctx s
  | .signal clu ctx => Sys2Proof.Machine.execSignal clu ctx s
  | .checkpoint clu ctx => Sys2Proof.Machine.execCheckpoint clu ctx s
  | .loop clu ctx => Sys2Proof.Machine.execLoop clu ctx s
  | .endCtx clu ctx => Sys2Proof.Machine.execEndCtx clu ctx s
  | .counterAdd clu ctr add => Sys2Proof.Machine.execCounterAdd clu ctr add s
  | .qpush clu ctx => Sys2Proof.Machine.execQpush clu ctx s
  | .qpop clu ctx => Sys2Proof.Machine.execQpop clu ctx s
  | .qgrant clu ctx => Sys2Proof.Machine.execQgrant clu ctx s
  | .qreturn clu ctx => Sys2Proof.Machine.execQreturn clu ctx s
  | .queueTransfer x => Sys2Proof.Machine.execQueueTransfer x s
  | .velem clu eng fault => Sys2Proof.Machine.execVelem clu eng fault s
  | .vsum clu eng fault => Sys2Proof.Machine.execVsum clu eng fault s
  | .vgather clu eng fault => Sys2Proof.Machine.execVgather clu eng fault s
  | .vscatter clu eng fault => Sys2Proof.Machine.execVscatter clu eng fault s
  | .vsoftmax clu eng fault => Sys2Proof.Machine.execVsoftmax clu eng fault s
  | .vattnBlock clu eng fault => Sys2Proof.Machine.execVattnBlock clu eng fault s
  | .vattnMerge clu eng fault => Sys2Proof.Machine.execVattnMerge clu eng fault s
  | .sfuDescriptor clu fault => Sys2Proof.Machine.execSfuDescriptor clu fault s
  | .clusterDma clu => Sys2Proof.Machine.execClusterDma clu s
  | .patrolScrub clu found => Sys2Proof.Machine.execPatrolScrub clu found s
  | .memoryPatrolScrub addr found => Sys2Proof.Machine.execMemoryPatrolScrub addr found s
  | .registerParitySweep bad => Sys2Proof.Machine.execRegisterParitySweep bad s
  | .midwayPacket p => Sys2Proof.Machine.execMidwayPacket p s
  | .rsend op mb => Sys2Proof.Machine.execRsend op mb s
  | .rrecv op => Sys2Proof.Machine.execRrecv op s
  | .reductionContribution jug c fault => Sys2Proof.Machine.execReductionContribution jug c fault s
  | .rhold op shard values digest => Sys2Proof.Machine.execRhold op shard values digest s
  | .gather op mb arrived => Sys2Proof.Machine.execGather op mb arrived s
  | .gatherRequest src tensor first count => Sys2Proof.Machine.execGatherRequest src tensor first count s
  | .tokenDispatch op mb scores => Sys2Proof.Machine.execTokenDispatch op mb scores s
  | .dispatchRecord r => Sys2Proof.Machine.execDispatchRecord r s
  | .permute op arrived => Sys2Proof.Machine.execPermute op arrived s
  | .permutationStart => Sys2Proof.Machine.execPermutationStart s
  | .allred op ev => Sys2Proof.Machine.execAllred op ev s
  | .shardUpdate sm fault owner => Sys2Proof.Machine.execShardUpdate sm fault owner s
  | .phaseTwo sm owner => Sys2Proof.Machine.execPhaseTwo sm owner s
  | .mirrorData msg => Sys2Proof.Machine.execMirrorData msg s
  | .mirrorAck entry shard step ok => Sys2Proof.Machine.execMirrorAck entry shard step ok s
  | .mirrorRestream => Sys2Proof.Machine.execMirrorRestream s
  | .ready => Sys2Proof.Machine.execReady s
  | .mergedReadyRecord r => Sys2Proof.Machine.execMergedReadyRecord r s
  | .rawRestorage tensor => Sys2Proof.Machine.execRawRestorage tensor s
  | .coreSelftest core pass => Sys2Proof.Machine.execCoreSelftest core pass s
  | .vetoFrame src kind step => Sys2Proof.Machine.execVetoFrame src kind step s
  | .commitQuery src step => Sys2Proof.Machine.execCommitQuery src step s
  | .commitQueryAnswer src r => Sys2Proof.Machine.execCommitQueryAnswer src r s
  | .commitQueryRetry => Sys2Proof.Machine.execCommitQueryRetry s
  | .outerClose => Sys2Proof.Machine.execOuterClose s
  | .writeback => Sys2Proof.Machine.execWriteback s
  | .portBringUp port trained aligned neighbour echoes => Sys2Proof.Machine.execPortBringUp port trained aligned neighbour echoes s
  | .identFrame port addr echo => Sys2Proof.Machine.execIdentFrame port addr echo s
  | .routedFrame port bytes => Sys2Proof.Machine.execRoutedFrame port bytes s
  | .streamFrame => Sys2Proof.Machine.execStreamFrame s
  | .sack src stream next => Sys2Proof.Machine.execSack src stream next s
  | .e2eResend dest stream => Sys2Proof.Machine.execE2eResend dest stream s
  | .lack port lseq => Sys2Proof.Machine.execLack port lseq s
  | .lnak port lseq => Sys2Proof.Machine.execLnak port lseq s
  | .lackTimer port => Sys2Proof.Machine.execLackTimer port s
  | .credit port vc lane n => Sys2Proof.Machine.execCredit port vc lane n s
  | .creditTimer port => Sys2Proof.Machine.execCreditTimer port s
  | .portDown port cause => Sys2Proof.Machine.execPortDown port cause s
  | .heartbeatSend => Sys2Proof.Machine.execHeartbeatSend s
  | .heartbeat viaLink src step => Sys2Proof.Machine.execHeartbeat viaLink src step s
  | .partnerLoss => Sys2Proof.Machine.execPartnerLoss s
  | .drun f => Sys2Proof.Machine.execDrun f s
  | .parity f => Sys2Proof.Machine.execParity f s
  | .back f => Sys2Proof.Machine.execBack f s
  | .backTimer peer => Sys2Proof.Machine.execBackTimer peer s
  | .borjanResend peer seq => Sys2Proof.Machine.execBorjanResend peer seq s
  | .req f => Sys2Proof.Machine.execReq f s
  | .groupCloseShort peer => Sys2Proof.Machine.execGroupCloseShort peer s
  | .deviceReport arrived => Sys2Proof.Machine.execDeviceReport arrived s
  | .haveFrame f => Sys2Proof.Machine.execHaveFrame f s
  | .manifestIssue => Sys2Proof.Machine.execManifestIssue s
  | .manifest f => Sys2Proof.Machine.execManifest f s
  | .mack f => Sys2Proof.Machine.execMack f s
  | .seal f => Sys2Proof.Machine.execSeal f s
  | .leadSilence => Sys2Proof.Machine.execLeadSilence s
  | .mquery f => Sys2Proof.Machine.execMquery f s
  | .mreply f => Sys2Proof.Machine.execMreply f s
  | .memberSilence => Sys2Proof.Machine.execMemberSilence s
  | .memberDrop site => Sys2Proof.Machine.execMemberDrop site s
  | .join f => Sys2Proof.Machine.execJoin f s
  | .joinSponsorSend => Sys2Proof.Machine.execJoinSponsorSend s
  | .tt f chan rxTime => Sys2Proof.Machine.execTt f chan rxTime s
  | .ttSend chan txTime => Sys2Proof.Machine.execTtSend chan txTime s
  | .channelLost chan => Sys2Proof.Machine.execChannelLost chan s
  | .drainTimeout chan => Sys2Proof.Machine.execDrainTimeout chan s
  | .capacityWindow chan => Sys2Proof.Machine.execCapacityWindow chan s
  | .epochGone f => Sys2Proof.Machine.execEpochGone f s
  | .keyGraceExpiry peer receive => Sys2Proof.Machine.execKeyGraceExpiry peer receive s
  | .timeSecond => Sys2Proof.Machine.execTimeSecond s
  | .acquireDone => Sys2Proof.Machine.execAcquireDone s
  | .learnEnd chan => Sys2Proof.Machine.execLearnEnd chan s
  | .ppsEdge => Sys2Proof.Machine.execPpsEdge s
  | .coordBeacon received => Sys2Proof.Machine.execCoordBeacon received s
  | .coordTakeover ev => Sys2Proof.Machine.execCoordTakeover ev s
  | .alarm code => Sys2Proof.Machine.execAlarm code s
  | .entropyFailure => Sys2Proof.Machine.execEntropyFailure s
  | .entropyRecovered => Sys2Proof.Machine.execEntropyRecovered s
  | .recordPost source => Sys2Proof.Machine.execRecordPost source s
  | .flushed e => Sys2Proof.Machine.execFlushed e s
  | .pendingFlushStart => Sys2Proof.Machine.execPendingFlushStart s
  | .partnerBankReceipt c => Sys2Proof.Machine.execPartnerBankReceipt c s
  | .droopWarning clu => Sys2Proof.Machine.execDroopWarning clu s
  | .dipEnd clu => Sys2Proof.Machine.execDipEnd clu s
  | .droopHoldEnd clu ns => Sys2Proof.Machine.execDroopHoldEnd clu ns s
  | .resetLevel clu mv => Sys2Proof.Machine.execResetLevel clu mv s
  | .powerFailWarning => Sys2Proof.Machine.execPowerFailWarning s
  | .pllLockLoss => Sys2Proof.Machine.execPllLockLoss s
  | .pllLock => Sys2Proof.Machine.execPllLock s
  | .refClockChange input present => Sys2Proof.Machine.execRefClockChange input present s
  | .capDecision m => Sys2Proof.Machine.execCapDecision m s
  | .thermalTrip sensor temp => Sys2Proof.Machine.execThermalTrip sensor temp s
  | .thermalHoldEnd => Sys2Proof.Machine.execThermalHoldEnd s
  | .admissionRequest clu => Sys2Proof.Machine.execAdmissionRequest clu s
  | .admission => Sys2Proof.Machine.execAdmission s
  | .coreIdle core => Sys2Proof.Machine.execCoreIdle core s
  | .napEntry clu => Sys2Proof.Machine.execNapEntry clu s
  | .napWakeDone clu => Sys2Proof.Machine.execNapWakeDone clu s
  | .dozeWakeDone ring => Sys2Proof.Machine.execDozeWakeDone ring s
  | .memoryEraseDone ms => Sys2Proof.Machine.execMemoryEraseDone ms s
  | .resetEscalation core target => Sys2Proof.Machine.execResetEscalation core target s
  | .fenceFail deviceFault unit => Sys2Proof.Machine.execFenceFail deviceFault unit s
  | .cxlReset => Sys2Proof.Machine.execCxlReset s
  | .cxlLinkTrained ev width flit256 => Sys2Proof.Machine.execCxlLinkTrained ev width flit256 s
  | .cxlMemRead line found => Sys2Proof.Machine.execCxlMemRead line found s
  | .cxlMemWrite offset data => Sys2Proof.Machine.execCxlMemWrite offset data s
  | .hostWindowTimeout clu unit addr => Sys2Proof.Machine.execHostWindowTimeout clu unit addr s
  | .i3cSetdasa addr => Sys2Proof.Machine.execI3cSetdasa addr s
  | .i3cEntdaa addr => Sys2Proof.Machine.execI3cEntdaa addr s
  | .i3cPrivateWrite bytes => Sys2Proof.Machine.execI3cPrivateWrite bytes s
  | .i3cPrivateRead => Sys2Proof.Machine.execI3cPrivateRead s
  | .ibiTimeout => Sys2Proof.Machine.execIbiTimeout s
  | .pfwWithdrawn => Sys2Proof.Machine.execPfwWithdrawn s
  | .sackTimer src stream => Sys2Proof.Machine.execSackTimer src stream s
  | .haveTimer => Sys2Proof.Machine.execHaveTimer s
  | .snapRestoreTimeout => Sys2Proof.Machine.execSnapRestoreTimeout s
  | .fwFetchTimeout => Sys2Proof.Machine.execFwFetchTimeout s
  | .hdmIdleSelfRefresh => Sys2Proof.Machine.execHdmIdleSelfRefresh s
  | .inBandInterruptAccepted => Sys2Proof.Machine.execInBandInterruptAccepted s
  | .borjanPortLinkChange port up => Sys2Proof.Machine.execBorjanPortLinkChange port up s
  | .cxlLinkDown => Sys2Proof.Machine.execCxlLinkDown s
  | .ringmasterFault => Sys2Proof.Machine.execRingmasterFault s
  | .railOutOfTolerance e => Sys2Proof.Machine.execRailOutOfTolerance e s

end Sys2Proof.Machine
end

