-- ==== Sys2Proof/Safety.lean ====
section
/-!
DEFINITION. The terms in which claims are made: a step that goes on, a Romusko command that runs and how it ends, what a command leaves
alone, and the canonical form of the memories.
-/

namespace Sys2Proof.Machine

/-- The step at a state goes on. -/
def Goes (s : State) : Prop := ∃ t, step s = .next t

/-- The memories are in canonical form: addresses strictly rising, nothing listed that reads the same unlisted. -/
def State.MemoryOk (s : State) : Prop :=
  cellsWf memDflt s.mem = true ∧ cellsWf hostDflt s.hostMem = true ∧ cellsWf flashDflt s.flash = true

/-- The taken request `q` carries the tag and the opcode, has not started and may start, and neither a handover, device doze nor a memory erase
holds it back (R374, R387, R459, R462). -/
def Runs (s : State) (tag : BitVec 32) (op : Nat) (q : Taken) : Prop :=
  s.taken? tag = some q ∧ q.opcode = op ∧ q.started = false ∧ mayStart (s.mbx.taken.takeWhile (fun x => x.tag != tag)) q = true ∧
    s.rf oPwrStatus 54 52 = 0 ∧ s.erasing = false ∧ s.fwState ≠ 3

/-- The completion of a request (R370). -/
def completionOf (q : Taken) (status outBytes : Nat) (result : Bytes) : Cpl :=
  { tag := q.tag, opcode := q.opcode, status := BitVec.ofNat 16 status, outBytes := BitVec.ofNat 32 outBytes, result := fit 16 result, noirq := q.noirq }

/-- The request is no longer taken, and its completion waits behind the others; a request that a CXL Reset orphaned has none (R371,
R376). -/
def Completed (s t : State) (q : Taken) (status outBytes : Nat) (result : Bytes) : Prop :=
  t.mbx.taken = s.mbx.taken.filter (fun x => x.tag != q.tag) ∧
  t.mbx.wait = (if q.silent then s.mbx.wait else s.mbx.wait ++ [completionOf q status outBytes result]) ∧
  t.mbx.req = s.mbx.req ∧ t.mbx.cpl = s.mbx.cpl ∧ t.mbx.unreported = s.mbx.unreported

/-- The parts of the state. -/
inductive Part where
  | pending | regs | bar4 | mem | hostMem | flash | bad | ddrBytes | dimms | erasing | eraseDue | mbx | job | cores | clus | qs | hang | strg
  | mirror | jug | reshard | restore | fabric | rounds | replay | fw | keys | cal | time | pwr | i3c | midSeq | midRetry | free | out
  deriving DecidableEq, Repr

/-- A part is as it was. -/
def Part.same (s t : State) : Part → Prop
  | .pending => t.pending = s.pending
  | .regs => t.regs = s.regs
  | .bar4 => t.bar4 = s.bar4
  | .mem => t.mem = s.mem
  | .hostMem => t.hostMem = s.hostMem
  | .flash => t.flash = s.flash
  | .bad => t.bad = s.bad ∧ t.soft = s.soft
  | .ddrBytes => t.ddrBytes = s.ddrBytes
  | .dimms => t.dimms = s.dimms
  | .erasing => t.erasing = s.erasing
  | .eraseDue => t.eraseDue = s.eraseDue
  | .mbx => t.mbx = s.mbx
  | .job => t.job = s.job
  | .cores => t.cores = s.cores
  | .clus => t.clus = s.clus
  | .qs => t.qs = s.qs
  | .hang => t.hang = s.hang
  | .strg => t.strg = s.strg
  | .mirror => t.mirror = s.mirror
  | .jug => t.jug = s.jug
  | .reshard => t.reshard = s.reshard
  | .restore => t.restore = s.restore
  | .fabric => t.fabric = s.fabric
  | .rounds => t.rounds = s.rounds
  | .replay => t.replay = s.replay
  | .fw => t.fw = s.fw
  | .keys => t.keys = s.keys
  | .cal => t.cal = s.cal
  | .time => t.time = s.time
  | .pwr => t.pwr = s.pwr
  | .i3c => t.i3c = s.i3c
  | .midSeq => t.midSeq = s.midSeq
  | .midRetry => t.midRetry = s.midRetry
  | .free => t.free = s.free
  | .out => t.out = s.out

/-- Every part outside a list is as it was. -/
def Only (l : List Part) (s t : State) : Prop := ∀ p, p ∉ l → p.same s t

/-- Every register outside a list holds what it held. -/
def OnlyRegs (s t : State) (l : List Nat) : Prop := ∀ o, o ∉ l → t.rw o = s.rw o

/-- The registers that the end of a Romusko command may touch: CPL_STALL with its interrupt (R367). -/
def ringRegs : List Nat := [oMbxStatus, oIntStatus, oPba]

/-- The registers of the site ports, where a frame without a route is counted (R262). -/
def portRegs : List Nat := (List.range 8).map oPortStatus

/-- What has left the package stays at the front of what leaves it. -/
def Emits (s t : State) (es : List Ev) : Prop := t.out = s.out ++ es

/-- What has left of one kind, in its order; frames and other events may stand between. -/
def EmitsOf (keep : Ev → Bool) (s t : State) (es : List Ev) : Prop := ∃ l, Emits s t l ∧ l.filter keep = es

/-- Whether an event is a contribution to a partial. -/
def Ev.isContribution : Ev → Bool
  | .contribution _ _ => true
  | _ => false

/-- Whether an event is a dispatch record. -/
def Ev.isRows : Ev → Bool
  | .rows _ _ => true
  | _ => false

/-- Whether an event is a change of FLASH_WP#. -/
def Ev.isWp : Ev → Bool
  | .pin name _ => name == "FLASH_WP#"
  | _ => false

/-- A byte of device memory. -/
def State.byteAt (s : State) (a : Nat) : Byte := cellsRead memDflt s.mem a

/-- The parts that a device reset may change: all but the queue of commands, host memory, flash, the DIMMs and the free values. -/
def resetParts : List Part :=
  [.regs, .bar4, .mem, .bad, .erasing, .eraseDue, .mbx, .job, .cores, .clus, .qs, .hang, .strg, .mirror, .jug, .reshard, .restore, .fabric,
   .rounds, .replay, .fw, .keys, .cal, .time, .pwr, .i3c, .midSeq, .midRetry, .out]

/-- What a device reset leaves (R463, R464, R471): every register field but those of class PWR and the fuses at its default, with the
kind of the reset and, where a step ran, the need for a rewind; no command, key, pairing, link or power state, and no programme but those that a started
permutation needs; what lies in
HBM and DDR5 as it was, but for the partner bank when a receipt was cut off; cluster SRAM and local memory cleared. -/
def WasReset (s t : State) : Prop :=
  (∀ o k, regKind o = some k → o ≠ oRstStatus → o ≠ oRstJob → o ≠ oClk → ∀ f ∈ regFields k, f.ret ∉ [.fuse, .pwr] →
    t.rf o f.hi f.lo = f.dflt % 2 ^ (f.hi + 1 - f.lo)) ∧
  t.rf oRstStatus 63 60 = 4 ∧ t.rf oRstJob 61 61 = b2n s.job.running.isSome ∧
  t.mbx = {} ∧ t.job = s.jobAfterReset ∧ t.cores = [] ∧ t.clus = [] ∧ t.qs = [] ∧ t.hang = none ∧ t.mirror = {} ∧ t.jug = {} ∧ t.reshard = s.reshard.filter (·.started) ∧
  t.restore = none ∧ t.fabric = {} ∧ t.rounds = {} ∧ t.time = {} ∧ t.erasing = false ∧
  t.keys = { kemCount := s.keys.kemCount } ∧ t.cal.buf = [] ∧ t.cal.queues = [] ∧ t.fw.running = [] ∧ t.fw.up = false ∧
  (s.rf oCalPbank 63 62 ≠ 2 → s.MemoryOk → ∀ a, t.byteAt a = if a < hostWin then s.byteAt a else memDflt a)

/-- No hang recovery is going on, and the programme is not one of generation: the end of a descriptor has no further consequence (R242,
R402). -/
def Plain (s : State) : Prop := s.hang = none ∧ ∀ p, s.job.prog = some p → p.gen = false

/-- Unit `u` of cluster `g` serves context `k`, whose descriptor `it` heads its queue with `rest` behind it, and may run it (R149, R150). -/
def AtHead (s : State) (g u k : Nat) (it : QItem) (rest : List QItem) : Prop :=
  Plain s ∧ s.runs g = true ∧ s.serving g u = some k ∧ SMap.get (s.clu g).queues (u * 8 + k) [] = it :: rest ∧ s.ctxState g k ≠ 5 ∧
    (u < 40 → k ∉ (s.core (g * 40 + u)).saved)

/-- A descriptor has retired (R147, R148, R151): its queue goes on behind it, its completion record stands, one more retired descriptor is
counted, and its signal has been added to a counter of the cluster or has left for another. -/
def Retires (s t : State) (g u k : Nat) (it : QItem) (rest : List QItem) (r : Completion) : Prop :=
  (∀ j, SMap.get (t.clu g).queues j [] = if j = u * 8 + k then rest else SMap.get (s.clu g).queues j []) ∧
  (∀ j, SMap.get? (t.clu g).comp j = if j = u then some r else SMap.get? (s.clu g).comp j) ∧
  (∀ j, SMap.get? (t.clu g).serving j = if j = u then some k else SMap.get? (s.clu g).serving j) ∧
  (t.clu g).ctxs = (s.clu g).ctxs ∧ (t.clu g).power = 0 ∧ (∀ h, h ≠ g → t.clu h = s.clu h) ∧
  t.rf (oProgress g) 47 0 = (s.rf (oProgress g) 47 0 + 1) % 2 ^ 48 ∧
  (match it.sig with
   | none => (t.clu g).counters = (s.clu g).counters ∧ Emits s t []
   | some (cl, ctr, add) =>
     if cl = g ∨ cl = 0xFFFF then
       ∀ j, SMap.get (t.clu g).counters j 0 =
         if j = ctr then min (SMap.get (s.clu g).counters j 0 + add) 0xFFFFFFFF else SMap.get (s.clu g).counters j 0
     else (t.clu g).counters = (s.clu g).counters ∧ Emits s t [.counter cl ctr add])

/-- The single-bit errors that a read of a range of cluster SRAM finds (R145). -/
def State.softIn (s : State) (a n : Nat) : List Nat := s.soft.filter (fun b => decide (b < a + n) && decide (a < b + 8))

/-- The counts of the clusters in whose SRAM a single-bit error stands: a read that finds one corrects and counts it (R145). -/
def State.eccRegs (s : State) : List Nat := s.soft.filterMap (fun b => match s.area b with | .clu g _ => some (oSramEcc g) | _ => none)

/-- The byte at a device address: of host memory in the host and cold-tier window, of device memory elsewhere (R358). -/
def State.devAt (s : State) (a : Nat) : Byte :=
  if hostWin ≤ a ∧ a < cluBase then cellsRead hostDflt s.hostMem (s.hostAddr (a - hostWin)) else s.byteAt a

/-- Writes made one after another, and nothing else: every byte at a device address, and host memory outside the window. The reserved end of a
core window discards writes (R92). -/
def Wrote (s t : State) (ws : List (Nat × Bytes)) : Prop :=
  (∀ x, t.devAt x = ws.foldl (fun v w => if reservedCore x = false ∧ w.1 ≤ x ∧ x < w.1 + w.2.length then w.2.getD (x - w.1) 0 else v) (s.devAt x)) ∧
  (∀ y, y < s.hostAddr 0 ∨ s.hostAddr (cluBase - hostWin) ≤ y → cellsRead hostDflt t.hostMem y = cellsRead hostDflt s.hostMem y)

/-- A vector engine or the special-function unit has run a descriptor: it has retired, and memory holds its writes and is otherwise as it
was. -/
def VecRan (s t : State) (g u k : Nat) (it : QItem) (rest : List QItem) (r : Completion) (ws : List (Nat × Bytes)) : Prop :=
  Retires s t g u k it rest r ∧ Wrote s t ws ∧ (t.clu g).stall = (s.clu g).stall ∧ t.free = s.free + 1 ∧
    Only [.regs, .mem, .bad, .clus, .cal, .out, .free] s t ∧ OnlyRegs s t [oProgress g, oCalLost]

/-- A matrix core has run a descriptor: it has retired, the core is as told, and memory holds the writes and is otherwise as it was. -/
def CoreRan (s t : State) (c k : Nat) (it : QItem) (rest : List QItem) (r : Completion) (x : Core) (ws : List (Nat × Bytes)) : Prop :=
  Retires s t (c / 40) (c % 40) k it rest r ∧ t.core c = x ∧ (∀ d, d ≠ c → t.core d = s.core d) ∧ Wrote s t ws ∧
    Only [.regs, .mem, .hostMem, .bad, .cores, .clus, .cal, .out] s t ∧ OnlyRegs s t ([oProgress (c / 40), oCalLost, oExpStall (c / 40)] ++ s.eccRegs)

/-- A context has stopped with an error (R150): its state is 5 and nothing of it waits in a queue. -/
def Halted (t : State) (g k : Nat) : Prop := t.ctxState g k = 5 ∧ ∀ j, j % 8 = k → SMap.get (t.clu g).queues j [] = []

/-- A context of a running cluster can act, and the entry at its position is the 64 bytes `b` (R146, R147). -/
def AtEntry (s : State) (g k : Nat) (c : Ctx) (b : Bytes) : Prop :=
  Plain s ∧ s.runs g = true ∧ s.ctxState g k ∈ [1, 2, 3] ∧ SMap.get (s.clu g).ctxs k {} = c ∧ s.load c.pos 64 = .ok b

/-- A control descriptor has retired and its context runs on at a position (R151). -/
def GoesOn (s t : State) (g k : Nat) (c : Ctx) (pos : Nat) : Prop :=
  (∀ j, SMap.get? (t.clu g).ctxs j = if j = k then some { c with pos := pos } else SMap.get? (s.clu g).ctxs j) ∧
  (∀ j, j < 8 → t.ctxState g j = if j = k then 1 else s.ctxState g j) ∧
  t.rf (oProgress g) 47 0 = (s.rf (oProgress g) 47 0 + 1) % 2 ^ 48 ∧ (t.clu g).power = 0 ∧ (t.clu g).serving = (s.clu g).serving ∧
  (∀ h, h ≠ g → t.clu h = s.clu h)

/-- Nothing has happened but that single-bit errors which the fetch of an entry found have been corrected and counted (R145). -/
def Idles (s t : State) : Prop := Only [.regs, .bad] s t ∧ OnlyRegs s t s.eccRegs ∧ t.bad = s.bad

/-- An access waits at the router stop of a cluster in nap, which asks for its wake if it does not wake yet (R457). -/
def Waits (s t : State) (g : Nat) (x : Waiting) : Prop :=
  t.clu g = { s.clu g with stop := (s.clu g).stop ++ [x], power := if (s.clu g).power = 3 then 5 else (s.clu g).power } ∧
  t.pwr = (if (s.clu g).power = 3 then { s.pwr with wakes := s.pwr.wakes ++ [g] } else s.pwr) ∧ (∀ h, h ≠ g → t.clu h = s.clu h) ∧
  Only [.clus, .pwr] s t

/-- A write over the Midway to a cluster in nap has not been made; its wake is asked for (R457). -/
def Asks (s t : State) (g : Nat) : Prop :=
  t.clu g = { s.clu g with power := 5 } ∧ t.pwr = { s.pwr with wakes := s.pwr.wakes ++ [g] } ∧ (∀ h, h ≠ g → t.clu h = s.clu h) ∧
  Only [.clus, .pwr] s t

/-- A cluster's queues and counters are as they were. -/
def SameWork (s t : State) (g : Nat) : Prop := (t.clu g).queues = (s.clu g).queues ∧ (t.clu g).counters = (s.clu g).counters

/-- A queue descriptor at a context's position names queue `q` of programme `p` (R221, R222). -/
def AtQueue (s : State) (g k : Nat) (c : Ctx) (ws : List Word) (op : Nat) (p : Prog) (q : QueueE) : Prop :=
  ∃ b, AtEntry s g k c b ∧ ws = mkWords b ∧ dOp ws = op ∧ s.job.prog = some p ∧ p.queue? (fld ws 0 47 32) = some q

/-- Bytes have gone out as frames of a stream toward a device: its next SEQ lies past them (R249, R257). -/
def Streamed (s t : State) (dest stream : Nat) (b : Bytes) : Prop :=
  (t.txOf dest stream).next = (s.txOf dest stream).next + BitVec.ofNat 64 (frameCount b)

/-- A control message has left for a device, in frames of the stream that carries such messages (R250). -/
def Sends (s t : State) (dest : Nat) (m : Msg) : Prop :=
  (∃ es, Emits s t (.message dest m :: es)) ∧ ∀ b, m.ctrl s.stepNow = some b → Streamed s t dest ctrlStream b

/-- Of the queues only one changes, to what is told. -/
def QueueIs (s t : State) (n : Nat) (x : QState) : Prop := t.q n = x ∧ ∀ m, m ≠ n → t.q m = s.q m

/-- The cluster DMA has run a descriptor: it has retired, and memory holds the writes and is otherwise as it was. -/
def DmaRan (s t : State) (g k : Nat) (it : QItem) (rest : List QItem) (r : Completion) (ws : List (Nat × Bytes)) : Prop :=
  Retires s t g 43 k it rest r ∧ Wrote s t ws ∧ (t.clu g).stall = (s.clu g).stall ∧
    Only [.regs, .mem, .hostMem, .bad, .clus, .cal, .out] s t ∧ OnlyRegs s t ([oProgress g, oCalLost] ++ s.eccRegs)

/-- A request has started and has not completed (R374). -/
def Started (s t : State) (tag : BitVec 32) : Prop :=
  t.mbx = { s.mbx with taken := s.mbx.taken.map (fun x => if x.tag == tag then { x with started := true } else x) }

/-- A request that completes with a status and does nothing else. -/
def Refused (s t : State) (q : Taken) (status : Nat) : Prop :=
  Completed s t q status 0 [] ∧ Only [.mbx, .regs, .out] s t ∧ OnlyRegs s t ringRegs

/-- A pair has been declared (R414, R415): STARTING with the partner of the payload, no shard acknowledged, every tag invalid, the
re-stream due. -/
def Paired (s t : State) (b : Bytes) : Prop :=
  t.mirState = 1 ∧ t.partner = rd 0 4 b % 2 ^ 20 ∧ t.rf oMir 60 60 = rd 4 1 b % 2 ∧ t.rf oMir 59 50 = rd 6 2 b % 1024 ∧ t.rf oMir 4 0 = 0 ∧
  t.rf oCommitState 7 7 = 0 ∧ t.mirror = { region := rd 8 8 b, regionBytes := rd 16 8 b, map := mirrorEntries b } ∧ t.strg.mirrored = [] ∧
  t.strg.acked = [] ∧ t.rf oIntStatus 6 6 = 1 ∧
  (s.MemoryOk → s.bad = [] → ddrBase ≤ rd 8 8 b → rd 8 8 b + rd 16 8 b ≤ hostWin → ∀ x ∈ t.mirror.shards, ∀ i, i < 32 → t.byteAt (t.mirror.tagAddr x.1 x.2 + i) = 0) ∧
  (rd 8 8 b + rd 16 8 b ≤ hostWin → Only [.regs, .mem, .bad, .mbx, .strg, .mirror, .cal, .out] s t ∧
    OnlyRegs s t ([oCalLost, oCommitState, oMir] ++ ringRegs))

/-- A training step runs and goes on, and entry `op` of its plan is `o`, of a type (R270, R272). -/
def InPlan (s : State) (j : StepJob) (p : Prog) (op typ : Nat) (o : PlanOp) : Prop :=
  s.job.running = some j ∧ s.job.prog = some p ∧ p.plan.ops[op]? = some o ∧ o.typ = typ ∧ p.gen = false ∧ s.rf oRstJob 61 61 = 0 ∧ s.phase = 0 ∧
    s.hang = none ∧ s.strg.phaseOne = false

/-- A plan entry has signalled: SIG_ADD has been added to its counter, if it names one (R270); in nap the cluster's stop holds the add (R457). -/
def Signalled (s t : State) (o : PlanOp) : Prop :=
  (o.sigClu = 0xFFFF → t.clus = s.clus) ∧
  (o.sigClu ≠ 0xFFFF →
    (s.napped o.sigClu = false → ∀ j, SMap.get (t.clu o.sigClu).counters j 0 =
      if j = o.sigCtr then min (SMap.get (s.clu o.sigClu).counters j 0 + o.sigAdd) 0xFFFFFFFF else SMap.get (s.clu o.sigClu).counters j 0) ∧
    (s.napped o.sigClu = true →
      t.clu o.sigClu = { s.clu o.sigClu with stop := (s.clu o.sigClu).stop ++ [.count o.sigCtr o.sigAdd] }) ∧
    ∀ h, h ≠ o.sigClu → t.clu h = s.clu h)

/-- A frame of a type stands at a trained Borjan port in the form of R286, from peer `p` of the range map (R287), while nothing forbids its opening
(R352, R353). -/
def Admitted (s : State) (f : BjnFrame) (typ : Nat) (p : Peer) : Prop :=
  f.ctags = 1 ∧ f.stag = false ∧ f.ether.toNat = s.rf oBjnCtl 63 48 ∧ s.rf (oBjnPort f.port) 63 62 = 2 ∧ rd 0 1 f.bytes = typ ∧
    s.noEntropy = false ∧ s.latched = false ∧ s.peerOf f = some p ∧ s.peer? p.mac0 = some p

/-- An admitted frame opens to a plaintext under the current receive key of its peer (R316, R317). -/
def Opened (s : State) (f : BjnFrame) (typ : Nat) (p : Peer) (pt : Bytes) : Prop :=
  Admitted s f typ p ∧ rd 4 2 f.bytes ≤ maxPayload ∧ rd 4 2 f.bytes + 48 ≤ f.bytes.length ∧ p.prev = none ∧
    ∃ k, p.rx = some k ∧ k.epoch = rd 1 1 f.bytes ∧
      gcmOpen k.key (bjnIv k.epoch (rd 2 1 f.bytes) (rd 16 8 f.bytes)) (bjnAad f.bytes) (slice 32 (rd 4 2 f.bytes + 16) f.bytes) = some pt

/-- The bytes of a frame sealed under a transmit key (R287, R315, R350). -/
def sealedBytes (k : LineKey) (site dst c typ gidx gk gm flags seq ctr : Nat) (plain : Bytes) : Bytes :=
  bjnHeader typ k.epoch c flags plain.length site dst seq ctr gidx gk gm ++
    gcmSeal k.key (bjnIv k.epoch c ctr) (bjnAad (bjnHeader typ k.epoch c flags plain.length site dst seq ctr gidx gk gm)) plain

/-- What leaves when frames go to peer `p` on channel `c`. -/
def onChan (s : State) (p : Peer) (c : Nat) (b : Bytes) : Ev :=
  .borjan (s.chan c).port (s.chan c).vid (s.chan c).pcp (if (s.chan c).port = 0 then p.mac0 else p.mac1) (s.rf oBjnCtl 63 48) b

/-- A peer can be sent to: a transmit key far from its limits, and channel `c` for a frame of any length (R308, R320, R332, R352). -/
def Sendable (s : State) (p : Peer) (k : LineKey) (c : Nat) : Prop :=
  p.tx = some k ∧ p.txUsed + 512 < 2 ^ 31 ∧ s.noEntropy = false ∧ s.latched = false ∧ s.replay.on = false ∧ ∀ n, s.pickChan [2] p.site n = some c

/-- Nothing can be sealed to a peer (R320, R332, R352). -/
def Keyless (s : State) (p : Peer) : Prop := s.canSeal p = false

/-- Of the peers only one changes, to what is told. -/
def PeerIs (s t : State) (p q : Peer) : Prop :=
  t.rounds.peers = s.rounds.peers.map (fun x => if x.mac0 == p.mac0 then q else x) ∧ q.mac0 = p.mac0

/-- A source has posted a record (R427): its next SEQ is higher, whether the record found room or was counted as lost. -/
def Posted (s t : State) (src : Nat) : Prop := SMap.get s.cal.seqs src 0 < SMap.get t.cal.seqs src 0

/-- The first range-map peer of a site is `p`, and what goes to it waits, for nothing can be sealed to it now. -/
def Awaits (s : State) (site : Nat) (p : Peer) : Prop :=
  ∃ e, s.rounds.map.find? (fun e => e.site == site) = some e ∧ s.peer? e.mac0 = some p ∧ Keyless s p ∧ s.replay.on = false

/-- Sites have device addresses of their own in the range map. -/
def Addressed (s : State) : Prop := ∀ e ∈ s.rounds.map, ∀ e' ∈ s.rounds.map, e.mac0 = e'.mac0 → e.site = e'.site

/-- A payload waits for each of some sites whose peer cannot be sent to yet. -/
def Told (s t : State) (sites : List Nat) (typ : Nat) (b : Bytes) : Prop :=
  ∀ z ∈ sites, ∀ p, Awaits s z p → ∃ q, t.peer? p.mac0 = some q ∧ (typ, b) ∈ q.waiting

/-- Nothing that a manifest lists is missing from this device's store (R290, R304). -/
def Whole (s : State) (m : Manifest) : Prop := ∀ e ∈ m.entries, e.1 = s.site ∨ s.holdsDelta e.1 e.2.2 = true

/-- A round is open here, the programme has a round configuration, and this device is its site's coordinator and holds no sealed manifest. -/
def Leading (s : State) (k : Nat) (c : RoundCfg) : Prop := s.openK = some k ∧ s.cfg? = some c ∧ s.rounds.coord = true ∧ s.rounds.sealed_ = none

/-- An all-reduce ends at this device with a record: the final record comes from above, or the last record that was missing merges at the root (R276). -/
def Ends (s : State) (pl : Plan) (o : PlanOp) (x : AllredSt) (ev : AllredIn) (r : AllredRec) : Prop :=
  (ev = .final r ∧ o.peer ≠ 0xFFFFF ∧ x.sent = true ∧ x.rec_.isSome = true) ∨
  (o.peer = 0xFFFFF ∧ x.sent = false ∧
    ((∃ z, ev = .own ∧ x.own = false ∧ s.triggered o 0 = true ∧ s.ownRecord o = some z ∧ (pl.listOf o).length ≤ x.kids.length ∧
        r = (match x.rec_ with | some w => mergeRecs w z | none => z)) ∨
     (∃ a z, ev = .child a z ∧ x.own = true ∧ recKind o z = true ∧ recWordsOk z = true ∧ BitVec.toNat a ∈ pl.listOf o ∧ a.toNat ∉ x.kids ∧
        (pl.listOf o).length ≤ x.kids.length + 1 ∧ r = (match x.rec_ with | some w => mergeRecs w z | none => z))))

/-- The record buffer of an all-reduce takes the record as it stands (R271). -/
def Buffered (s : State) (o : PlanOp) (r : AllredRec) : Prop := (s.store o.loc (fit o.count (allredBytes r))).2 = none ∧ s.MemoryOk

/-- An all-reduce that has ended signals when none of its frames awaits an acknowledgement; with children, whose frames have just gone, it signals later
(R272). -/
def RedSignals (s t : State) (pl : Plan) (op : Nat) (o : PlanOp) : Prop :=
  (pl.listOf o = [] → s.unackedOp (s.redKey op) (some 0) = false → Signalled s t o)

/-- Of the site ports' link layers only one changes, to what is told. -/
def SportIs (s t : State) (p : Nat) (x : SPort) : Prop := t.sport p = x ∧ ∀ q, q ≠ p → t.sport q = s.sport q

/-- A routed frame is whole and the next one that a port expects (R249, R255). -/
def InOrder (s : State) (p : Nat) (b : Bytes) : Prop :=
  s.linkUp p = true ∧ headOk b = true ∧ rd 2 2 b = (s.sport p).rxSeq.toNat ∧ bodyOk b = true

/-- The link layer of a port has accepted a frame, the 32nd since the last LACK sending one (R255). -/
def accepted (s : State) (p : Nat) : SPort :=
  { s.sport p with rxSeq := (s.sport p).rxSeq + 1, waiting := false, owed := if (s.sport p).owed + 1 = 32 then 0 else (s.sport p).owed + 1 }

/-- No shard that a skipped attempt had mirrored still waits for its re-stream (R195). -/
def Unvetoed (s : State) : Prop := s.mirroring = true → ∀ x ∈ s.strg.restream, x ∉ s.strg.vetoed

/-- A training step runs that Strongman `sm` may work on (R182, R186, R192, R195): nothing is held back, its audit of the step is over, and the norm that
clips the step can be read. -/
def AtStrongman (s : State) (sm : Nat) (j : StepJob) (p : Prog) : Prop :=
  s.job.running = some j ∧ s.job.prog = some p ∧ p.gen = false ∧ s.rf oRstJob 61 61 = 0 ∧ s.phase = 0 ∧ s.hang = none ∧
    Unvetoed s ∧ s.heldBack j.n.toNat = false ∧ s.strg.holdFrom = none ∧ sm ∈ s.strg.audited ∧
    s.normFault p j = none

/-- The two slots of a shard's entry, committed and uncommitted (R175), its elements in the committed slot, and the memory they lie in whole. -/
def ShardAt (s : State) (p : Prog) (n : Nat) (r : Reduced) (old new : Home) (ws ms : List (BitVec 32)) (avg : Bytes) : Prop :=
  s.home p r.entry (n - 1) = some old ∧ s.home p r.entry n = some new ∧ new.e = old.e ∧
    s.elems p old r.entry (n - 1) 0 (65536 * r.shard) (old.e.shardLen r.shard) = .ok ws ∧
    s.elems p old r.entry (n - 1) 1 (65536 * r.shard) (old.e.shardLen r.shard) = .ok ms ∧
    s.load (old.avg (n - 1)) 4 = .ok avg ∧ s.MemoryOk ∧ s.bad = [] ∧ new.mas + 4 * (65536 * r.shard) + 262144 ≤ hostWin ∧
    new.mom + 4 * (65536 * r.shard) + 262144 ≤ hostWin ∧ new.w + 2 * (65536 * r.shard) + 131072 ≤ hostWin ∧ new.avg n + 4 ≤ hostWin ∧
    ∀ w ∈ [(new.mas + 4 * (65536 * r.shard), 4 * old.e.shardLen r.shard), (new.mom + 4 * (65536 * r.shard), 4 * old.e.shardLen r.shard),
      (new.w + 2 * (65536 * r.shard), 2 * old.e.shardLen r.shard), (new.avg n, 4)], s.reach w.1 w.2 = true

/-- The new values of a shard: every element of a row that is updated by the optimiser's rule, finite, and the others as they were (R177, R180, R181, R202). -/
def NewValues (s : State) (p : Prog) (j : StepJob) (r : Reduced) (h stat : Home) (ws ms gs w m : List (BitVec 32)) : Prop :=
  w.length = h.e.shardLen r.shard ∧ m.length = h.e.shardLen r.shard ∧ ∀ x, x < h.e.shardLen r.shard →
    fin32 (w.getD x 0) = true ∧ fin32 (m.getD x 0) = true ∧
    (s.rowLive h.e r.entry (65536 * r.shard + x) = false → w.getD x 0 = ws.getD x 0 ∧ m.getD x 0 = ms.getD x 0) ∧
    (s.rowLive h.e r.entry (65536 * r.shard + x) = true → ∃ st, st = (if h.e.rule = 3 then s.stat stat (65536 * r.shard + x) else (0, 0, 0)) ∧
      innerUpdate h.e.rule (p.hp h.e) (dLr j.desc) (dWd j.desc) (s.clip p j) st.1 st.2.1 st.2.2 (ws.getD x 0) (ms.getD x 0) (gs.getD x 0) =
        some (w.getD x 0, m.getD x 0))

/-- What a finished shard leaves (R178, R182, R185, R187, R198, R201): masters, moments and working weights in the uncommitted slots, the entry's AVG with its last
shard, the values that follow the flip kept and sent to the other holders, and the counts. -/
def ShardDone (s t : State) (p : Prog) (n : Nat) (r : Reduced) (old new : Home) (w m : List (BitVec 32)) (owner : Option PeerShard) (sum : Acc) : Prop :=
  ∃ w3 ws, (s.applyNow n = none → w3 = w ∧ ws = []) ∧
    (∀ mf cfg, s.applyNow n = some mf → p.round = some cfg → s.outerShard p cfg mf new r.entry r.shard r.owned owner w = .ok (w3, ws)) ∧
    Wrote s t ([(new.mas + 4 * (65536 * r.shard), le32s w3), (new.mom + 4 * (65536 * r.shard), le32s m), (new.w + 2 * (65536 * r.shard), workBytes w3)] ++
      if (List.range new.e.shards).all (fun k => k == r.shard || s.strg.done.contains (r.entry, k)) then
        [(new.avg n, le 4 (avgNew (p.hp old.e).avgBeta (s.at32 (old.avg (n - 1))) sum old.e.count).toNat)] else []) ∧
    t.strg.done = s.strg.done ++ [(r.entry, r.shard)] ∧
    t.strg.outerDone = (if ws = [] then s.strg.outerDone else s.strg.outerDone ++ [(r.entry, r.shard, ws)]) ∧
    t.strg.wfp = (if r.owned ∧ new.e.layer < p.layers then SMap.upd s.strg.wfp new.e.layer 0 (· + fpSum 2 3 new.e.layer (new.e.first + 65536 * r.shard) w3) else s.strg.wfp) ∧
    Emits s t (if ws = [] ∨ r.owned = false then [] else (p.holdersOf new.e.tensor (new.e.first + 65536 * r.shard)).map (fun d =>
      Ev.outerShard d new.e.tensor (new.e.first + 65536 * r.shard) (le32s w3) ((ws.getD 0 (0, [])).2) ((ws.getD 1 (0, [])).2)))

/-- AVG of the committed slot lies apart from what a finished shard writes. -/
def AvgApart (n : Nat) (r : Reduced) (old new : Home) : Prop :=
  ∀ a l, (a, l) ∈ [(new.mas + 4 * (65536 * r.shard), 4 * old.e.shardLen r.shard), (new.mom + 4 * (65536 * r.shard), 4 * old.e.shardLen r.shard),
    (new.w + 2 * (65536 * r.shard), 2 * old.e.shardLen r.shard)] → old.avg (n - 1) + 4 ≤ a ∨ a + l ≤ old.avg (n - 1)

/-- A running step has been vetoed (R190): LAST_VETO tells the kind, the group is told, and no step runs or waits. -/
def Vetoed (t : State) (kind : Nat) (j : StepJob) : Prop :=
  t.rf oCommitState 47 40 = kind ∧ t.job.running = none ∧ t.job.queue = [] ∧ Ev.message toGroup (.veto (BitVec.ofNat 8 kind) j.n) ∈ t.out ∧
    t.rf oIntStatus 3 3 = 1

end Sys2Proof.Machine
end

