-- ==== Sys2Proof/Certificates/Slice0/Obligations.lean ====
section
/-!
DEFINITION. The statements about the Zhoette: the whole machine first, then the exact forms, then each family of commands.
Operands range over everything a command admits; a clause that covers several commands lists them in a table of commands.
-/

open Sys2Proof Sys2Proof.Machine

/-! ### The whole machine -/

/-- A step with a command at the front of the queue is that command on the state with the queue's rest. -/
def Obligations.StepRunsTheFrontCommand : Prop :=
  ∀ (s : State) (c : Instr) (rest : List Instr), s.pending = c :: rest → step s = exec c { s with pending := rest }

/-- On an empty queue one edge of TCLK passes: the timebase advances by 10 ns, and while a slew runs by 1 ns more or less at each ten-thousandth edge (R21,
R312). That an idle step is one edge is the model's choice (assumption 11). -/
def Obligations.AnEmptyQueueTicks : Prop :=
  ∀ (s : State), s.pending = [] →
    ∃ t, step s = .next t ∧ Only [.regs, .time] s t ∧ OnlyRegs s t [oTimeNow] ∧
      (s.time.slew = 0 ∨ s.time.frac < 9999 → t.rw oTimeNow = s.rw oTimeNow + 10 ∧ t.time.slew = s.time.slew) ∧
      (0 < s.time.slew → 9999 ≤ s.time.frac → t.rw oTimeNow = s.rw oTimeNow + 11 ∧ t.time.slew = s.time.slew - 1 ∧ t.time.frac = 0) ∧
      (s.time.slew < 0 → 9999 ≤ s.time.frac → t.rw oTimeNow = s.rw oTimeNow + 9 ∧ t.time.slew = s.time.slew + 1 ∧ t.time.frac = 0) ∧
      (s.time.slew ≠ 0 → s.time.frac < 9999 → t.time.frac = s.time.frac + 1)

/-- After reset every register field holds its default, nothing waits, no request is taken, no programme, key, peer or power state is held and no memory byte
is listed (R11, R371, R388, R461, R463). What the spec states no reset value for holds the value that assumptions 5, 7 and 8 name. -/
def Obligations.ResetLeavesTheStatedValues : Prop :=
  (∀ o k, regKind o = some k → ∀ f ∈ regFields k, State.reset.rf o f.hi f.lo = f.dflt % 2 ^ (f.hi + 1 - f.lo)) ∧
  (∀ o, regKind o = none → State.reset.rw o = 0) ∧
  State.reset.pending = [] ∧ State.reset.out = [] ∧ State.reset.mbx = {} ∧ State.reset.job = {} ∧ State.reset.cores = [] ∧ State.reset.clus = [] ∧
  State.reset.qs = [] ∧ State.reset.hang = none ∧ State.reset.keys = {} ∧ State.reset.rounds = {} ∧ State.reset.fabric = {} ∧ State.reset.mirror = {} ∧
  State.reset.jug = {} ∧ State.reset.strg = {} ∧ State.reset.reshard = none ∧ State.reset.restore = none ∧ State.reset.replay = {} ∧ State.reset.fw = {} ∧
  State.reset.fw.up = false ∧ State.reset.cal = {} ∧ State.reset.time = {} ∧ State.reset.pwr = {} ∧ State.reset.i3c = {} ∧
  State.reset.mem = [] ∧ State.reset.hostMem = [] ∧ State.reset.flash = [] ∧ State.reset.bar4 = [] ∧ State.reset.bad = [] ∧ State.reset.soft = [] ∧
  State.reset.erasing = false

/-- The memories are canonical at reset, the MSI-X table of BAR4 among them. -/
def Obligations.MemoryIsCanonicalAtReset : Prop := State.reset.MemoryOk ∧ cellsWf bar4Dflt State.reset.bar4 = true

/-- Every step keeps the memories canonical: device memory, host memory, flash and the MSI-X table of BAR4 list their addresses strictly rising, and no byte
that reads the same unlisted. -/
def Obligations.EveryStepKeepsMemoryCanonical : Prop :=
  (∀ (s t : State), s.MemoryOk → step s = .next t → t.MemoryOk) ∧
  (∀ (s t : State), cellsWf bar4Dflt s.bar4 = true → step s = .next t → cellsWf bar4Dflt t.bar4 = true)

/-- No command puts a command into the queue or takes one out, and none takes back what has left the package. -/
def Obligations.CommandsQueueNothingAndTakeNothingBack : Prop :=
  ∀ (c : Instr) (s t : State), exec c s = .next t → t.pending = s.pending ∧ ∃ es, Emits s t es

/-- Every command goes on in every state, but for the three accesses of the host that fall outside the windows the device gives it: a register write beyond
BAR0, and a CXL.mem access beyond the HDM window (R13, R361). -/
def Obligations.OnlyAccessesBeyondTheWindowsStop : Prop :=
  (∀ (c : Instr) (s : State), (∀ o w v, c = .registerWrite o w v → o < 0x2000000) → (∀ l f, c = .cxlMemRead l f → l * 64 < s.hdmBytes) →
    (∀ o d, c = .cxlMemWrite o d → o + d.length ≤ s.hdmBytes) → ∃ t, exec c s = .next t) ∧
  (∀ (s : State) (o : Nat) (w : Bool) (v : Word), 0x2000000 ≤ o → exec (.registerWrite o w v) s = .fault .outsideBar0) ∧
  (∀ (s : State) (l : Nat) (f : Found), s.hdmBytes ≤ l * 64 → exec (.cxlMemRead l f) s = .fault .outsideHdm) ∧
  (∀ (s : State) (o : Nat) (d : List Byte), s.hdmBytes < o + d.length → exec (.cxlMemWrite o d) s = .fault .outsideHdm)

/-! ### Stored forms -/

/-- When the compressor stores a block coded (R119). -/
def Obligations.BlocksAreCodedOnlyWhereTheySave : Prop :=
  ∀ (fmt : Nat) (xs : List Nat) (c : Bytes), fmt < 2 → 1 ≤ xs.length → xs.length ≤ 256 → (∀ x ∈ xs, x < 2 ^ (8 * elemBytes fmt)) →
    c = codedBlock fmt (bestTable fmt (xs.map (expOf fmt))) xs →
    (16 * c.length < 15 * rawSize fmt xs.length → compress fmt xs = c ∧ blkRaw c = false ∧ blkLen c = c.length) ∧
    (15 * rawSize fmt xs.length ≤ 16 * c.length →
      compress fmt xs = rawBlock fmt xs ∧ blkRaw (compress fmt xs) = true ∧ blkLen (compress fmt xs) = rawSize fmt xs.length) ∧
    (compress fmt xs).length ≤ rawSize fmt xs.length ∧
    (blkRaw (compress fmt xs) = false → rawSize fmt xs.length < 16 * (rawSize fmt xs.length - (compress fmt xs).length)) ∧
    (fmt = 0 → xs.length = 256 → rawSize fmt xs.length = 520 ∧ (blkRaw (compress fmt xs) = false ↔ c.length ≤ 480))

/-- An accumulator's record in a partial block: its tag, its value bytes, the smallest length, and that a longer record reads the same (R61, R62). -/
def Obligations.PartialRecordsUseTheFewestBytes : Prop :=
  ∀ (a : Acc), -(2 ^ 111 : Int) ≤ a.val → a.val < 2 ^ 111 → (a.allneg = true → a = { val := 0, allneg := true }) →
    ∃ L tag, 1 ≤ L ∧ L ≤ 14 ∧ lxpElem a = tag :: le L (a.val % (2 ^ (8 * L) : Nat)).toNat ∧
      tag.toNat = 128 * b2n a.allneg + 64 * b2n a.ninf + 32 * b2n a.pinf + 16 * b2n a.nan + L ∧
      (-(2 ^ (8 * L - 1) : Nat) ≤ a.val ∧ a.val < (2 ^ (8 * L - 1) : Nat)) ∧
      (∀ l, 1 ≤ l → l < L → ¬ (-(2 ^ (8 * l - 1) : Nat) ≤ a.val ∧ a.val < (2 ^ (8 * l - 1) : Nat))) ∧
      (a.val = 0 → lxpElem a = [tag, 0]) ∧
      (∀ M, L ≤ M → M ≤ 14 →
        lxpElems 1 (BitVec.ofNat 8 (tag.toNat - L + M) :: le M (a.val % (2 ^ (8 * M) : Nat)).toNat) = some [a])

/-- A block read back gives every bit that was stored: a lossless block its elements, a partial block its accumulators (R60 to R63, R112 to R118, R129). -/
def Obligations.BlocksRestoreEveryBit : Prop :=
  (∀ (fmt : Nat) (xs : List Nat), fmt < 2 → 1 ≤ xs.length → xs.length ≤ 256 → (∀ x ∈ xs, x < 2 ^ (8 * elemBytes fmt)) →
    decodeBlock fmt (compress fmt xs) = .ok xs) ∧
  (∀ (tensor first epoch : Nat) (as : List Acc), tensor < 2 ^ 16 → first < 2 ^ 48 → 1 ≤ as.length → as.length ≤ 256 →
    (∀ a ∈ as, -(2 ^ 111 : Int) ≤ a.val ∧ a.val < 2 ^ 111 ∧ (a.allneg = true → a = { val := 0, allneg := true })) →
    readLxp tensor first (lxpBlock tensor first epoch as) = some (as, (lxpBlock tensor first epoch as).length))

/-! ### The bound on requests -/

/-- The device takes a request only while those taken and the completions not consumed number fewer than 255, so that a completion always has room; otherwise
the request stays where it is and nothing is lost (R372). -/
def Obligations.RequestsAreTakenOnlyWhileACompletionHasRoom : Prop :=
  ∀ (s : State) (hostOk : Bool),
    (255 ≤ s.mbx.taken.length + s.mbx.wait.length + s.unconsumed → exec (.requestTake hostOk) s = .next s) ∧
    (s.canTake = true → ∃ t, exec (.requestTake hostOk) s = .next t ∧ t.mbx.taken.length + t.mbx.wait.length + t.unconsumed ≤ 255 ∧
      t.mbx.taken.length + t.mbx.wait.length = s.mbx.taken.length + s.mbx.wait.length + 1 ∧ t.mbx.req = s.mbx.req ∧ t.mbx.cpl = s.mbx.cpl)

/-! ### Exact sums -/

/-- What a product adds to its accumulator and what a merge gives: the cleared state is the identity, merging is associative and commutative, and a sum is the
same in every order and grouping (R39, R43). -/
def Obligations.AccumulatorsMergeInAnyOrder : Prop :=
  (∀ a : Acc, Acc.merge {} a = a ∧ Acc.merge a {} = a) ∧
  (({} : Acc).val = 0 ∧ ({} : Acc).nan = false ∧ ({} : Acc).pinf = false ∧ ({} : Acc).ninf = false ∧ ({} : Acc).allneg = true) ∧
  (∀ a b : Acc, (a.merge b).val = a.val + b.val ∧ (a.merge b).nan = (a.nan || b.nan) ∧ (a.merge b).pinf = (a.pinf || b.pinf) ∧
    (a.merge b).ninf = (a.ninf || b.ninf) ∧ (a.merge b).allneg = (a.allneg && b.allneg)) ∧
  (∀ a b c : Acc, (a.merge b).merge c = a.merge (b.merge c) ∧ a.merge b = b.merge a) ∧
  (∀ l m : List Acc, l.Perm m → Acc.sum l = Acc.sum m) ∧
  (∀ ls : List (List Acc), Acc.sum (ls.map Acc.sum) = Acc.sum ls.flatten) ∧
  (∀ (u : Int) (v : FVal), prodContrib u .nan v = ⟨0, true, false, false, false⟩ ∧ prodContrib u v .nan = ⟨0, true, false, false, false⟩) ∧
  (∀ (u : Int) (i t : Bool) (m : Nat) (e : Int), prodContrib u (.inf i) (.inf t) = ⟨0, false, i == t, i != t, false⟩ ∧
    (m = 0 → prodContrib u (.inf i) (.fin t m e) = ⟨0, true, false, false, false⟩ ∧ prodContrib u (.fin t m e) (.inf i) = ⟨0, true, false, false, false⟩) ∧
    (m ≠ 0 → prodContrib u (.inf i) (.fin t m e) = ⟨0, false, i == t, i != t, false⟩ ∧ prodContrib u (.fin t m e) (.inf i) = ⟨0, false, i == t, i != t, false⟩)) ∧
  (∀ (f : Fmt) (u : Int) (x y : Nat) (i j : Bool) (m n : Nat) (e g : Int), (f = fp16 ∧ u = u16) ∨ (f = fp32 ∧ u = u32e) →
    decodeF f x = .fin i m e → decodeF f y = .fin j n g →
    ∃ k : Nat, e + g = u + k ∧
      prodContrib u (.fin i m e) (.fin j n g) =
        ⟨(if i = j then 1 else -1) * ((m * n * 2 ^ k : Nat) : Int), false, false, false, decide (m * n = 0) && (i != j)⟩)

/-- A finite number of a format rounds to itself in every rounding mode, with no status; a zero keeps the sign that the rules of R50 give it, and nothing
rounds to a number outside the format (R36, R47, R50, R54). -/
def Obligations.RepresentableValuesRoundToThemselves : Prop :=
  ∀ (f : Fmt) (mode : Nat) (u : BitVec 32), f ∈ [fp16, fp32, bf16] →
    (∀ x i m e, x < 2 ^ (f.p + f.ebits) → decodeF f x = .fin i m e → m ≠ 0 → roundExact f mode u (decodeF f x).dy = ⟨x, 0⟩) ∧
    (∀ (a : Acc) (unit : Int) (scale : BitVec 32), a.val = 0 → a.nan = false → a.pinf = false → a.ninf = false →
      roundAcc f mode u unit scale a = ⟨f.zeroBits (a.allneg || decide (mode = 3)), 0⟩) ∧
    (∀ d : Dy, d.n ≠ 0 → (roundExact f mode u d).x < 2 ^ (f.p + f.ebits) ∧ (decodeF f (roundExact f mode u d).x).isNan = false)

/-! ### The host interface -/

/-- The host's doorbell, the device taking an entry, the posting of a completion, the host's acknowledgement and the coalescing timer (R368, R370, R371, R375,
R377): what each moves, and that nothing else changes. The status that ends a bad request at once is `State.takeStatus`, whose checks follow R373, R375, R377
and R379. -/
def Obligations.HostRingsMoveRequestsAndCompletions : Prop :=
  (∀ (s : State) (tail : BitVec 8) (entries : List (List Byte)) (w : List (Nat × Byte)), s.inReset = false →
    ∃ t, exec (.requestDoorbell tail entries w) s = .next t ∧
      t.rf oMbxReq 7 0 = tail.toNat ∧ t.rf oMbxReq 15 8 = s.rf oMbxReq 15 8 ∧
      t.mbx = { s.mbx with req := putEntries s.mbx.req (s.rf oMbxReq 7 0) entries } ∧
      (s.MemoryOk → ∀ a, (∀ x ∈ w, x.1 ≠ a) → cellsRead hostDflt t.hostMem a = cellsRead hostDflt s.hostMem a) ∧
      Only [.regs, .hostMem, .mbx] s t ∧ OnlyRegs s t [oMbxReq]) ∧
  (∀ (s : State) (hostOk : Bool) (e : Bytes), s.canTake = true → e = fit 64 (SMap.get s.mbx.req (s.rf oMbxReq 15 8) []) →
    ∃ t, exec (.requestTake hostOk) s = .next t ∧
      t.rf oMbxReq 15 8 = (s.rf oMbxReq 15 8 + 1) % 256 ∧ t.rf oMbxReq 7 0 = s.rf oMbxReq 7 0 ∧
      (s.takeStatus hostOk e = none → t.mbx = { s.mbx with taken := s.mbx.taken ++ [s.takenOf e] }) ∧
      (∀ st, s.takeStatus hostOk e = some st →
        t.mbx = { s.mbx with wait := s.mbx.wait ++ [completionOf (s.takenOf e) st 0 []] }) ∧
      Only [.regs, .mbx, .out] s t ∧ OnlyRegs s t [oMbxReq, oMbxStatus, oIntStatus, oPba]) ∧
  (∀ (s : State) (c : Cpl) (rest : List Cpl), s.mbx.wait = c :: rest → s.cplFull = false →
    ∃ t, exec .completionPost s = .next t ∧
      t.mbx.cpl = SMap.set s.mbx.cpl (s.rf oMbxCpl 15 8) (cplBytes c (s.rf oMbxCpl 16 16)) ∧
      t.mbx.wait = rest ∧ t.mbx.taken = s.mbx.taken ∧ t.mbx.req = s.mbx.req ∧
      t.rf oMbxCpl 15 8 = (s.rf oMbxCpl 15 8 + 1) % 256 ∧ t.rf oMbxCpl 7 0 = s.rf oMbxCpl 7 0 ∧
      t.rf oMbxCpl 16 16 = (if s.rf oMbxCpl 15 8 = 255 then 1 - s.rf oMbxCpl 16 16 else s.rf oMbxCpl 16 16) ∧
      (c.noirq = true → t.mbx.unreported = s.mbx.unreported) ∧
      (c.noirq = false → s.mbx.unreported + 1 < max 1 (s.rf oIntCoalesce 7 0) → t.mbx.unreported = s.mbx.unreported + 1) ∧
      (c.noirq = false → max 1 (s.rf oIntCoalesce 7 0) ≤ s.mbx.unreported + 1 → t.mbx.unreported = 0 ∧ t.rf oIntStatus 0 0 = 1) ∧
      Only [.regs, .mbx, .out] s t ∧ OnlyRegs s t [oMbxCpl, oMbxStatus, oIntStatus, oPba]) ∧
  (∀ (s : State) (head : BitVec 8), s.inReset = false →
    ∃ t, exec (.mbxCplHeadWrite head) s = .next t ∧
      t.rf oMbxCpl 7 0 = head.toNat ∧ t.rf oMbxCpl 15 8 = s.rf oMbxCpl 15 8 ∧ t.rf oMbxCpl 16 16 = s.rf oMbxCpl 16 16 ∧
      t.rf oMbxStatus 58 58 = b2n (t.cplFull && !s.mbx.wait.isEmpty) ∧
      Only [.regs, .out] s t ∧ OnlyRegs s t [oMbxCpl, oMbxStatus, oIntStatus, oPba]) ∧
  (∀ (s : State), s.rf oIntCoalesce 25 16 ≠ 0 → s.mbx.unreported ≠ 0 →
    ∃ t, exec .cplCoalesceTimeout s = .next t ∧ t.mbx = { s.mbx with unreported := 0 } ∧ t.rf oIntStatus 0 0 = 1 ∧
      Only [.regs, .mbx, .out] s t ∧ OnlyRegs s t [oIntStatus, oPba])

/-- A host write of BAR0 (R11, R12, R363, R364): past the 32 MiB it stops; a 4-byte write is ignored with a HOST record; an offset without a register takes
nothing; a register with no effect of its own takes its read-write fields, loses the bits written as one of its write-one-to-clear fields and keeps the rest;
CAL_MARK and CAL_CTL do so too, and set REC when the bytes past the mark newly reach the threshold (R433); RST_CTL, RST_HANG, RST_JOB, INT_MASK, MBX_REQ and
MBX_CPL do what their commands do; a reset register is ignored while a programme is loaded only where R366 says so (the host window). INT_MASK takes bits 12
to 0 of the written word, and every vector whose INT_STATUS bit is set and that the write newly unmasks fires, lowest first (R368); what the host writes to the
MSI-X table and to the function mask takes effect first (R363, assumption 74): a vector that these mask has its pending bit set in place of its message, and
one that was pending and is masked no more sends its message. -/
def Obligations.HostRegisterWritesFollowTheMap : Prop :=
  ((∀ (o : Nat) (wide : Bool) (v : Word) (s : State), 0x2000000 ≤ o → exec (.registerWrite o wide v) s = .fault .outsideBar0) ∧
  (∀ (o : Nat) (v : Word) (s : State), o < 0x2000000 → s.inReset = false →
    ∃ t, exec (.registerWrite o false v) s = .next t ∧ t.cal = (s.hostRec srcCxl 1 o v.toNat).cal ∧
      Only [.regs, .cal] s t ∧ OnlyRegs s t [oCalLost]) ∧
  (∀ (o : Nat) (v : Word) (s : State), o < 0x2000000 → regKind o = none → exec (.registerWrite o true v) s = .next s) ∧
  (∀ (o : Nat) (k : RegKind) (v : Word) (s : State), o < 0x2000000 → s.inReset = false → s.dozingAt o = false → regKind o = some k →
    k ∉ [.mbxReq, .mbxCpl, .intMask, .rstCtl, .rstHang, .rstJob, .hostBase, .hostSize, .calCursor, .bjnCtl, .timeCtl] →
    ∃ t, exec (.registerWrite o true v) s = .next t ∧
      (∀ f ∈ regFields k, t.rf o f.hi f.lo =
        match f.acc with
        | .rw => bits f.hi f.lo v.toNat
        | .rw1c => s.rf o f.hi f.lo &&& (2 ^ (f.hi + 1 - f.lo) - 1 - bits f.hi f.lo v.toNat)
        | .wo => 0
        | .ro => s.rf o f.hi f.lo) ∧
      (k ∉ [.calMark, .calCtl] → Only [.regs] s t ∧ OnlyRegs s t [o]) ∧
      (k ∈ [.calMark, .calCtl] → (t.recReached = true → s.recReached = false → t.rf oIntStatus 11 11 = 1) ∧
        (t.recReached = false ∨ s.recReached = true → t.rf oIntStatus 11 11 = s.rf oIntStatus 11 11 ∧ t.out = s.out) ∧
        Only [.regs, .out] s t ∧ OnlyRegs s t [o, oIntStatus, oPba])) ∧
  (∀ (o : Nat) (v : Word) (s : State), o ∈ [oHostBase, oHostSize] → s.inReset = false → s.loaded = true →
    ∃ t, exec (.registerWrite o true v) s = .next t ∧ t.cal = (s.hostRec srcCxl 2 o v.toNat).cal ∧
      Only [.regs, .cal] s t ∧ OnlyRegs s t [oCalLost]) ∧
  (∀ (v : Word) (s : State), s.inReset = false →
    exec (.registerWrite oRstCtl true v) s =
      (match bits 63 60 v.toNat with
       | 1 => exec (.coreReset (BitVec.ofNat 17 v.toNat)) s
       | 2 => exec (.clusterReset (BitVec.ofNat 17 v.toNat)) s
       | 3 => exec .ringmasterRestart s
       | 4 => exec .deviceReset s
       | _ => .next s) ∧
    exec (.registerWrite oRstHang true v) s = exec (.hangRecovery (BitVec.ofNat 11 v.toNat)) s ∧
    exec (.registerWrite oRstJob true v) s = exec (.jobRewind v) s ∧
    exec (.registerWrite oIntMask true v) s = exec (.intMaskWrite { mask := v }) s ∧
    exec (.registerWrite oMbxReq true v) s = exec (.requestDoorbell (BitVec.ofNat 8 v.toNat) [] []) s ∧
    exec (.registerWrite oMbxCpl true v) s = exec (.mbxCplHeadWrite (BitVec.ofNat 8 v.toNat)) s)) ∧
  (∀ (v : Word) (table : List (Fin 0x400 × Byte)) (fnMask : Option Bool) (s : State), s.inReset = false → cellsWf bar4Dflt s.bar4 = true →
    ∃ t, exec (.intMaskWrite { mask := v, table := table, fnMask := fnMask }) s = .next t ∧ t.rf oIntMask 12 0 = v.toNat % 2 ^ 13 ∧
      (∀ a, cellsRead bar4Dflt t.bar4 a = table.foldl (fun (b : Byte) x => if x.1.val = a then x.2 else b) (cellsRead bar4Dflt s.bar4 a)) ∧
      t.mbx = { s.mbx with fnMask := fnMask.getD s.mbx.fnMask } ∧
      Emits s t (((List.range 64).filter (fun i => s.rf oPba i i == 1 && !t.msixMasked i)).map Ev.msix ++
        ((List.range 13).filter (fun i => s.rf oIntMask i i == 1 && !bit i v.toNat && s.rf oIntStatus i i == 1 && !t.msixMasked i)).map Ev.msix) ∧
      (∀ i, i < 64 → t.rf oPba i i =
        if t.msixMasked i = false then 0
        else if i < 13 ∧ s.rf oIntMask i i = 1 ∧ bit i v.toNat = false ∧ s.rf oIntStatus i i = 1 then 1 else s.rf oPba i i) ∧
      Only [.regs, .bar4, .mbx, .out] s t ∧ OnlyRegs s t [oIntMask, oPba])

/-- The CXL port's commands (R356, R357, R359, R361, R366, R376, R459, R462): training and loss of the link with their LINK records, link-layer
replays, reads and writes of the HDM window with poison, which during an erase give zeros and leave nothing (assumption 13), and the reset of the
function. CXL_RESET (R376): both rings are empty and their registers at default, waiting STEPs and transfers that have not started are discarded
without a completion, and the other commands taken run on without completions; memory, the committed step and the programme are untouched. -/
def Obligations.CxlPortReadsWritesTrainsAndResets : Prop :=
  ((∀ (rate : Fin 3) (width : BitVec 5) (flit : Bool) (s : State),
    ∃ t, exec (.cxlLinkTrained (.trained rate) width flit) s = .next t ∧ t.rf oCxlLink 63 62 = 2 ∧ t.rf oCxlLink 61 60 = rate.val ∧
      t.rf oCxlLink 59 55 = width.toNat ∧ t.rf oCxlLink 54 54 = b2n flit ∧ t.rf oCxlLink 31 0 = s.rf oCxlLink 31 0 ∧
      t.cal = (s.linkRec srcCxl 2 0 (if rate = 2 ∧ 16 ≤ width.toNat then 2 else 4) 0 0).cal ∧
      Only [.regs, .cal] s t ∧ OnlyRegs s t [oCalLost, oCxlLink]) ∧
  (∀ (width : BitVec 5) (flit : Bool) (s : State), ∃ t, exec (.cxlLinkTrained .training width flit) s = .next t ∧ t.rf oCxlLink 63 62 = 1 ∧
      t.rf oCxlLink 61 0 = s.rf oCxlLink 61 0 ∧
      Only [.regs] s t ∧ OnlyRegs s t [oCxlLink]) ∧
  (∀ (n : BitVec 32) (width : BitVec 5) (flit : Bool) (s : State), ∃ t, exec (.cxlLinkTrained (.replays n) width flit) s = .next t ∧
      t.rf oCxlLink 63 32 = s.rf oCxlLink 63 32 ∧
      t.rf oCxlLink 31 0 = min (s.rf oCxlLink 31 0 + n.toNat) (2 ^ 32 - 1) ∧ Only [.regs] s t ∧ OnlyRegs s t [oCxlLink]) ∧
  (∀ s : State, ∃ t, exec .cxlLinkDown s = .next t ∧ t.rf oCxlLink 63 62 = 0 ∧ t.rf oCxlLink 61 0 = s.rf oCxlLink 61 0 ∧
      t.cal = (s.linkRec srcCxl 2 0 1 0 0).cal ∧ t.rf oIntStatus 7 7 = 1 ∧
      Only [.regs, .cal, .out] s t ∧ OnlyRegs s t [oCalLost, oCxlLink, oIntStatus, oPba]) ∧
  (∀ (line : Nat) (found : Found) (s : State), s.hdmBytes ≤ line * 64 → exec (.cxlMemRead line found) s = .fault .outsideHdm) ∧
  (∀ (line : Nat) (found : Found) (s : State), line * 64 < s.hdmBytes → s.erasing = true →
    ∃ t, exec (.cxlMemRead line found) s = .next t ∧ Emits s t [.cxl line (zeros 64) false] ∧ Only [.pwr, .out] s t) ∧
  (∀ (line : Nat) (found : Found) (s : State), line * 64 < s.hdmBytes → s.erasing = false → found ≠ .uncorrectable →
    s.hdmAddr (line * 64) ∉ s.bad →
    ∃ t, exec (.cxlMemRead line found) s = .next t ∧ Emits s t [.cxl line (s.peek (s.hdmAddr (line * 64)) 64) false] ∧
      Only [.pwr, .out] s t) ∧
  (∀ (line : Nat) (found : Found) (s : State), line * 64 < s.hdmBytes → s.erasing = false →
    found = .uncorrectable ∨ s.hdmAddr (line * 64) ∈ s.bad →
    ∃ t, exec (.cxlMemRead line found) s = .next t ∧ s.hdmAddr (line * 64) ∈ t.bad ∧ (∀ b ∈ s.bad, b ∈ t.bad) ∧
      (∃ e, Emits s t (.cxl line (zeros 64) true :: e)) ∧ t.rf oIntStatus 7 7 = 1 ∧
      Only [.regs, .bad, .cal, .pwr, .out] s t ∧ OnlyRegs s t [oCalLost, oIntStatus, oPba]) ∧
  (∀ (o : Nat) (d : Bytes) (s : State), s.hdmBytes < o + d.length → exec (.cxlMemWrite o d) s = .fault .outsideHdm) ∧
  (∀ (o : Nat) (d : Bytes) (s : State), o + d.length ≤ s.hdmBytes → s.erasing = false → s.MemoryOk → s.hdmAddr o + d.length ≤ hostWin →
    s.badIn (s.hdmAddr o) d.length = [] ∨ (ddrBase ≤ s.hdmAddr o ∧ d.length = 64 ∧ s.badIn (s.hdmAddr o) 64 = [s.hdmAddr o]) →
    ∃ t, exec (.cxlMemWrite o d) s = .next t ∧
      (∀ a, t.byteAt a = if s.hdmAddr o ≤ a ∧ a < s.hdmAddr o + d.length then d.getD (a - s.hdmAddr o) 0 else s.byteAt a) ∧
      (∀ b, b ∈ t.bad ↔ b ∈ s.bad ∧ b ∉ s.badIn (s.hdmAddr o) d.length) ∧ Only [.mem, .bad, .pwr] s t) ∧
  (∀ (o g : Nat) (d : Bytes) (s : State), o + d.length ≤ s.hdmBytes → s.erasing = false → s.MemoryOk → s.hdmAddr o + d.length ≤ hostWin →
    ddrBase ≤ g → s.badIn (s.hdmAddr o) d.length = [g] → g < s.hdmAddr o ∨ s.hdmAddr o + d.length < g + 64 → g + 64 ≤ hostWin →
    ∃ t, exec (.cxlMemWrite o d) s = .next t ∧ (∀ a, g ≤ a → a < g + 64 → t.byteAt a = s.byteAt a) ∧ g ∈ t.bad ∧ t.rf oIntStatus 7 7 = 1 ∧
      Only [.regs, .mem, .bad, .cal, .pwr, .out] s t ∧ OnlyRegs s t [oCalLost, oIntStatus, oPba]) ∧
  (∀ (o : Nat) (d : Bytes) (s : State), o + d.length ≤ s.hdmBytes → s.erasing = true →
    ∃ t, exec (.cxlMemWrite o d) s = .next t ∧ Only [.pwr] s t) ∧
  (∀ s : State, ∃ t, exec .hdmIdleSelfRefresh s = .next t ∧ t.pwr = { s.pwr with hdmAwake := false } ∧ Only [.pwr] s t)) ∧
  (∀ s : State, ∃ t, exec .cxlReset s = .next t ∧
    t.rf oMbxReq 15 8 = 0 ∧ t.rf oMbxReq 7 0 = 0 ∧ t.rf oMbxCpl 15 8 = 0 ∧ t.rf oMbxCpl 7 0 = 0 ∧ t.rf oMbxCpl 16 16 = 1 ∧ t.rf oMbxStatus 58 58 = 0 ∧
    t.rf oIntStatus 12 0 = 0 ∧ t.rf oIntMask 12 0 = 0x1FFF ∧ t.rf oCxlLink 63 62 = 0 ∧
    t.fwState = s.fwState ∧ t.rf oMbxStatus 59 59 = s.rf oMbxStatus 59 59 ∧ t.rw oCommitStep = s.rw oCommitStep ∧ t.rf oCommitState 1 0 = s.rf oCommitState 1 0 ∧
    t.mbx.req = [] ∧ t.mbx.cpl = [] ∧ t.mbx.wait = [] ∧ t.mbx.unreported = 0 ∧
    (∀ x ∈ t.mbx.taken, x.silent = true ∧ ∃ y ∈ s.mbx.taken, x = { y with silent := true }) ∧
    (∀ y ∈ s.mbx.taken, (∀ q ∈ s.job.queue, q.tag ≠ y.tag) → y.opcode ∉ [0x0501, 0x0201, 0x0601] ∨ y.started = true →
      { y with silent := true } ∈ t.mbx.taken) ∧
    t.job = { s.job with queue := [], staging := none } ∧ t.fw = { s.fw with staging := none } ∧
    Only [.regs, .bar4, .mbx, .job, .fw] s t)

/-- The I3C target (R476): addressing, the read offset, private reads with the queue of interrupt codes and ALERT#, and the 1 ms timer; with VIO out of
tolerance the target answers nothing. -/
def Obligations.I3cTargetAnswersTheBmc : Prop :=
  (∀ (a : BitVec 7) (s : State), s.vioOk = true →
    (∃ t, exec (.i3cSetdasa a) s = .next t ∧ t.i3c = { s.i3c with addr := some a } ∧ Only [.i3c] s t) ∧
    (∃ t, exec (.i3cEntdaa a) s = .next t ∧ t.i3c = { s.i3c with addr := some a } ∧ Only [.i3c] s t)) ∧
  (∀ (b : Byte) (s : State), s.vioOk = true →
    ∃ t, exec (.i3cPrivateWrite [b]) s = .next t ∧ t.i3c = { s.i3c with offset := b.toNat } ∧ Only [.i3c] s t) ∧
  (∀ s : State, s.vioOk = true → s.i3c.offset ≠ 0x0C →
    ∃ t, exec .i3cPrivateRead s = .next t ∧ Emits s t [.i3c (s.i3cByte s.i3c.offset)] ∧ t.i3c.offset = (s.i3c.offset + 1) % 256 ∧
      t.i3c.queue = s.i3c.queue ∧ t.i3c.alert = s.i3c.alert ∧ t.i3c.addr = s.i3c.addr ∧ Only [.i3c, .out] s t) ∧
  (∀ s : State, s.vioOk = true → s.i3c.offset = 0x0C →
    ∃ t, exec .i3cPrivateRead s = .next t ∧ t.i3c.queue = s.i3c.queue.drop 1 ∧ t.i3c.offset = 0x0D ∧
      t.i3c.alert = (s.i3c.alert && decide (1 < s.i3c.queue.length)) ∧
      Emits s t (.i3c (s.i3c.queue.headD 0) ::
        (if s.i3c.alert = true ∧ s.i3c.queue.length ≤ 1 then [.pin "ALERT#" 0] else [])) ∧ Only [.i3c, .out] s t) ∧
  (∀ s : State, 0 < s.i3c.armed → s.i3c.queue ≠ [] → s.i3c.alert = false →
    ∃ t, exec .ibiTimeout s = .next t ∧ t.i3c = { s.i3c with alert := true } ∧ Emits s t [.pin "ALERT#" 1] ∧
      Only [.i3c, .out] s t) ∧
  (∀ s : State, s.i3c.armed = 0 ∨ s.i3c.queue = [] ∨ s.i3c.alert = true → exec .ibiTimeout s = .next s) ∧
  (∀ s : State, ∃ t, exec .inBandInterruptAccepted s = .next t ∧ t.i3c = { s.i3c with armed := s.i3c.armed - 1 } ∧ Only [.i3c] s t)

/-- Calliope's own commands (R430, R433 to R436): records move from a unit's queue to the live buffer in order; a flush ends in the slot that it was writing,
and an uncorrectable word of the buffer met on the way is an engine error first; partner transmissions end in their order; the pending flush starts when the running one has ended, with the committed step of its trigger; a chunk of the
partner's buffer is kept, and the first one of another transmission replaces what stood. Posting a record (R427, R430): it takes the next sequence
number of its source; where it fits it is appended to the queue that its unit's records wait in, behind a LOST record if records of the source were dropped
since the last; where it does not, it is dropped and counted, and the queue and its records stay. Nothing but Calliope's state and the count of drops changes.
-/
def Obligations.CalliopeNumbersKeepsAndFlushesRecords : Prop :=
  ((∀ (src : BitVec 32) (s : State), s.recording = false → exec (.recordPost src) s = .next s) ∧
  (∀ (src : BitVec 32) (r : Bytes) (rest : List Bytes) (s : State), s.recording = true → SMap.get s.cal.queues (queueOf src.toNat) [] = r :: rest →
    (s.rw oCalWrite).toNat + r.length < 2 ^ 64 →
    ∃ t, exec (.recordPost src) s = .next t ∧ SMap.get t.cal.queues (queueOf src.toNat) [] = rest ∧
      (t.rw oCalWrite).toNat = (s.rw oCalWrite).toNat + r.length ∧ (∃ kept, t.cal.buf = kept ++ [r] ∧ kept <:+ s.cal.buf) ∧
      (rd 2 2 r = 2 → t.rf oIntStatus 11 11 = 1) ∧ t.cal.seqs = s.cal.seqs ∧ t.cal.slot0 = s.cal.slot0 ∧ t.cal.slot1 = s.cal.slot1 ∧
      Only [.regs, .cal, .out] s t ∧ OnlyRegs s t [oCalLost, oCalOldest, oCalWrite, oIntStatus, oPba]) ∧
  (∀ (f : Flush) (s : State), s.cal.flush = some f →
    ∃ t, exec (.flushed { toPartner := false }) s = .next t ∧ t.cal.flush = none ∧ t.cal.flushes = s.cal.flushes + 1 ∧
      (if f.slot = 0 then t.cal.slot0 else t.cal.slot1) =
        some { src := s.self, cause := f.cause, flush := s.cal.flushes + 1, step := f.step, time := f.time, firstPos := f.firstPos,
               data := f.data, good := true } ∧
      (if f.slot = 0 then t.cal.slot1 = s.cal.slot1 else t.cal.slot0 = s.cal.slot0) ∧ t.cal.buf = s.cal.buf ∧
      t.rf oIntStatus 11 11 = 1 ∧ Only [.regs, .cal, .out] s t ∧ OnlyRegs s t [oCalBbox, oCalLost, oIntStatus, oPba]) ∧
  (∀ (c n : Nat) (rest : List (Nat × Nat)) (s : State), s.cal.sending = (c, n) :: rest →
    ∃ t, exec (.flushed { toPartner := true }) s = .next t ∧ t.cal.sending = rest ∧ t.cal.slot0 = s.cal.slot0 ∧ t.cal.slot1 = s.cal.slot1 ∧
      t.cal.buf = s.cal.buf ∧ Only [.regs, .cal] s t ∧ OnlyRegs s t [oCalLost]) ∧
  (∀ (partner : Bool) (w : Fin 0x100000) (s : State),
    exec (.flushed { toPartner := partner, upset := some w }) s =
      exec (.flushed { toPartner := partner }) (s.engineError srcCal 2 0xFF 0xFF 0 (8 * w.val) 0) ∧
    ∀ t, exec (.flushed { toPartner := partner, upset := some w }) s = .next t → t.rf oIntStatus 7 7 = 1 ∧ Posted s t srcCal) ∧
  (∀ (c : Nat) (s : State), s.cal.flush = none → s.cal.pend = some c →
    ∃ t, exec .pendingFlushStart s = .next t ∧ t.cal.pend = none ∧ (∃ f, t.cal.flush = some f ∧ f.cause = c ∧
      f.step = s.cal.pendStep ∧ f.time = s.rw oTimeNow ∧ (∀ k, newerSlot s.cal = some k → f.slot = 1 - k)) ∧ (s.fw.side = false → t.cal.queues = []) ∧
      t.cal.slot0 = s.cal.slot0 ∧ t.cal.slot1 = s.cal.slot1 ∧ t.rf oCalBbox 63 62 = 2 ∧
      Only [.regs, .fabric, .cal, .out] s t ∧ OnlyRegs s t ([oCalBbox, oCalLost, oCalOldest, oCalWrite, oIntStatus, oPba] ++ portRegs)) ∧
  (∀ (c : BankChunk) (s : State), s.fw.side = false → c.src.toNat = s.partner → c.stopped = false →
    ∃ t, exec (.partnerBankReceipt c) s = .next t ∧
      t.cal.bank = (if s.rf oCalPbank 63 62 = 2 ∧ ∀ x ∈ s.cal.bank, x.flush = c.flush then s.cal.bank else []) ++ [c] ∧ t.rf oCalPbank 63 62 = (if c.last then 1 else 2) ∧
      t.rf oCalPbank 61 56 = c.cause.toNat % 64 ∧ t.rf oCalPbank 43 24 = c.src.toNat ∧ (c.last = true → t.rf oIntStatus 11 11 = 1) ∧
      (c.last = false → t.mem = s.mem) ∧ t.cal.buf = s.cal.buf ∧
      Only [.regs, .mem, .bad, .cal, .out] s t ∧ OnlyRegs s t [oCalPbank, oIntStatus, oPba])) ∧
  (∀ (u : Bool) (src typ step : Nat) (p : Bytes) (s : State),
    Only [.regs, .cal] s (s.enqueue u src typ step p) ∧ OnlyRegs s (s.enqueue u src typ step p) [oCalLost] ∧
    (∀ r ∈ SMap.get s.cal.queues (queueOf src) [], r ∈ SMap.get (s.enqueue u src typ step p).cal.queues (queueOf src) []) ∧
    (s.cal.lost.find? (fun (l : Nat × Nat × Nat) => l.1 == src) = none →
      plainBytes (SMap.get s.cal.queues (queueOf src) []) + (32 + (padTo 8 p).length) ≤ 4032 →
      allBytes (SMap.get s.cal.queues (queueOf src) []) + (32 + (padTo 8 p).length) ≤ 4096 →
      SMap.get (s.enqueue u src typ step p).cal.queues (queueOf src) [] = SMap.get s.cal.queues (queueOf src) [] ++
          [mkRecord s.replayMark u typ src (SMap.get s.cal.seqs src 0) step s.now p] ∧
        SMap.get (s.enqueue u src typ step p).cal.seqs src 0 = SMap.get s.cal.seqs src 0 + 1) ∧
    (4032 < plainBytes (SMap.get s.cal.queues (queueOf src) []) + (32 + (padTo 8 p).length) →
      (s.enqueue u src typ step p).cal.queues = s.cal.queues ∧
      SMap.get (s.enqueue u src typ step p).cal.seqs src 0 = SMap.get s.cal.seqs src 0 + 1 ∧
      (∃ l ∈ (s.enqueue u src typ step p).cal.lost, l.1 = src) ∧
      (s.enqueue u src typ step p).rf oCalLost 63 32 = min (s.rf oCalLost 63 32 + 1) (2 ^ 32 - 1)))

/-- IDENT and the attestation commands (R340, R341, R353, R382): IDENT answers inline who the device is; ATTEST_REPORT writes the report and the signature
that the identity key gives it, and refuses while the alarm is latched; ATTEST_CERT writes the certificates. -/
def Obligations.IdentityCommandsAnswerTheHost : Prop :=
  ∀ (s : State) (tag : BitVec 32) (q : Taken),
    (Runs s tag 0x0101 q →
      ∃ t, exec (.ident tag) s = .next t ∧
        Completed s t q 0 0 (le 8 (s.rw oSerial).toNat ++ [0xB0, 1, BitVec.ofNat 8 (b2n s.fw.side)] ++ le 1 (s.rf oSecStatus 63 56) ++
          le 1 (s.rf oSecStatus 31 24) ++ le 1 (s.rf oSecStatus 39 32) ++ le 1 s.fwState) ∧
        Only [.mbx, .regs, .out] s t ∧ OnlyRegs s t ringRegs) ∧
    (Runs s tag 0x0301 q → s.latched = true →
      ∃ t, exec (.attestReport tag) s = .next t ∧ Completed s t q 9 0 [] ∧ Only [.mbx, .regs, .out] s t ∧ OnlyRegs s t ringRegs) ∧
    (Runs s tag 0x0301 q → s.latched = false →
      ∃ t, exec (.attestReport tag) s = .next t ∧
        Completed s t q 0 ((s.reportBody q.payload).length + 2420) [] ∧
        t.hostMem = cellsWrite hostDflt s.hostMem q.outAddr
          (s.reportBody q.payload ++ fit 2420 (identityKey.sign (Config.signRandom s.fw.signs) (s.reportBody q.payload))) ∧
        t.fw = { s.fw with signs := s.fw.signs + 1 } ∧
        Only [.mbx, .regs, .out, .hostMem, .fw] s t ∧ OnlyRegs s t ringRegs) ∧
    (Runs s tag 0x0302 q →
      ∃ t, exec (.attestCert tag) s = .next t ∧ Completed s t q 0 16384 [] ∧
        t.hostMem = cellsWrite hostDflt s.hostMem q.outAddr (fit 16384 Config.certificates) ∧
        Only [.mbx, .regs, .out, .hostMem] s t ∧ OnlyRegs s t ringRegs)

/-- The key commands (R344 to R348, R353): a record that unwraps and that agrees with its command installs its key; KEY_OWNER spends the ML-KEM pair, KEY_SNAP
replaces the snapshot key and forgets the last SNAP_ID, KEY_CLEAR erases every key but the identity and makes a new pair; while the alarm is latched every one
of them is refused. The device's ML-KEM pair comes from random bytes that the model leaves open (log entry 2); KEY_OWNER ends by what the decapsulated secret unwraps.
KEY_GRACE_EXPIRY (R317, R319): at the receiver the previous receive key of the peer is erased with a record; at the sender the next transmit key may be
installed. No other peer changes. -/
def Obligations.KeysAreInstalledGracedAndErased : Prop :=
  (∀ (s : State) (tag : BitVec 32) (q : Taken),
    (∀ op c, (op, c) ∈ [(0x0401, Instr.keyOwner tag), (0x0402, .keyLine tag), (0x0403, .keySnap tag), (0x0404, .keyClear tag)] →
      Runs s tag op q → s.latched = true →
      ∃ t, exec c s = .next t ∧ Completed s t q 9 0 [] ∧ Only [.mbx, .regs, .out] s t ∧ OnlyRegs s t ringRegs) ∧
    (∀ n, Runs s tag 0x0401 q → s.latched = false → s.keys.owner = none → s.keys.kem = some n →
      ∃ t, exec (.keyOwner tag) s = .next t ∧
        (match unwrap ((kemPair n).decaps (slice 0 1088 q.payload)) (slice 1088 56 q.payload) with
         | none => Completed s t q 0x0404 0 [] ∧ t.keys = s.keys
         | some r =>
           if r.length = 48 ∧ allZero (r.drop 32) = true then
             Completed s t q 0 0 [] ∧ t.keys = { s.keys with owner := some (r.take 32), kem := none }
           else Completed s t q 0x0405 0 [] ∧ t.keys = s.keys) ∧
        Only [.mbx, .regs, .out, .keys] s t ∧ OnlyRegs s t ringRegs) ∧
    (∀ kek r, Runs s tag 0x0403 q → s.latched = false → s.keys.owner = some kek → unwrap kek (slice 0 56 q.payload) = some r →
      r.length = 48 → rd 32 1 r = 3 → allZero (r.drop 33) = true →
      ∃ t, exec (.keySnap tag) s = .next t ∧ Completed s t q 0 0 [] ∧
        t.keys = { s.keys with snap := some (r.take 32), lastSnap := none } ∧
        Only [.mbx, .regs, .out, .keys] s t ∧ OnlyRegs s t ringRegs) ∧
    (Runs s tag 0x0404 q → s.latched = false →
      ∃ t, exec (.keyClear tag) s = .next t ∧ Completed s t q 0 0 [] ∧
        t.keys = { s.keys with owner := none, snap := none, lastSnap := none, kem := some s.keys.kemCount, kemCount := s.keys.kemCount + 1 } ∧
        (∀ p ∈ t.rounds.peers, p.tx = none ∧ p.rx = none ∧ p.prev = none) ∧
        Only [.mbx, .regs, .out, .keys, .rounds] s t ∧ OnlyRegs s t ringRegs) ∧
    (∀ kek r p, Runs s tag 0x0402 q → s.latched = false → s.keys.owner = some kek → unwrap kek (slice 8 56 q.payload) = some r →
      s.peer? (rd 36 6 r) = some p → r.length = 48 → rd 0 1 q.payload = 2 → rd 32 1 r = 2 → rd 33 1 r = rd 1 1 q.payload →
      rd 34 1 r = rd 2 1 q.payload → p.site = rd 2 1 q.payload → rd 35 1 r = 0 → rd 42 6 r = 0 → allZero (slice 3 5 q.payload) = true →
      (∀ k, p.rx = some k → rd 1 1 q.payload = (k.epoch + 1) % 256) → p.prev = none → p.tx.isSome = true ∨ p.rx.isSome = true →
      ∃ t, exec (.keyLine tag) s = .next t ∧
        (∃ p', t.peer? (rd 36 6 r) = some p' ∧ p'.rx = some { key := r.take 32, epoch := rd 1 1 q.payload } ∧ p'.prev = p.rx) ∧
        (q.silent = true ∨ ∃ c ∈ t.mbx.wait, c.tag = q.tag ∧ c.status = 0) ∧ t.keys = s.keys)) ∧
  (∀ (peer : BitVec 48) (p : Peer) (s : State), s.peer? peer.toNat = some p →
    (∀ k, p.prev = some k → p.grace = true →
      ∃ t, exec (.keyGraceExpiry peer true) s = .next t ∧ t.peer? peer.toNat = some { p with prev := none, grace := false } ∧
        (∀ q ∈ s.rounds.peers, q.mac0 ≠ p.mac0 → q ∈ t.rounds.peers) ∧
        t.cal = (s.keyRec 2 2 k.epoch p.site (p.mac0 % 2 ^ 32) 0).cal ∧
        Only [.regs, .rounds, .cal, .out] s t ∧ OnlyRegs s t [oCalLost, oIntStatus, oPba]) ∧
    (∃ t, exec (.keyGraceExpiry peer false) s = .next t ∧ t.peer? peer.toNat = some { p with txWait := false } ∧
      (∀ q ∈ s.rounds.peers, q.mac0 ≠ p.mac0 → q ∈ t.rounds.peers) ∧ Only [.rounds] s t))

/-- A sensor trip (R353): every key is erased, the Borjan ports are down, the alarm is latched with its code and counted, SEC's vector and ALERT# are
asserted, and the record's flush runs; a restore that waits for its partner completes with ALARM and leaves no step to be accepted. The entropy source (R352): while it has failed the engines neither seal nor open and the keys stay; once it has recovered what
waited for them goes; a latched engine stays latched. -/
def Obligations.AlarmsEraseKeysAndEntropyStopsEngines : Prop :=
  (∀ (code : BitVec 8) (s : State),
    ∃ t, exec (.alarm code) s = .next t ∧
      t.keys = { s.keys with owner := none, snap := none, lastSnap := none, kem := none, identity := false } ∧
      (∀ p ∈ t.rounds.peers, p.tx = none ∧ p.rx = none ∧ p.prev = none) ∧ t.rounds.peers.length = s.rounds.peers.length ∧
      t.rf (oBjnPort 0) 63 62 = 0 ∧ t.rf (oBjnPort 1) 63 62 = 0 ∧ (∀ e ∈ [0, 1, 2], t.rf (oCiph e) 63 62 = 2) ∧
      t.rf oSecAlarm 0 0 = 1 ∧ t.rf oSecAlarm 63 56 = code.toNat ∧ t.rf oSecAlarm 55 48 = min (s.rf oSecAlarm 55 48 + 1) 255 ∧
      t.rf oIntStatus 8 8 = 1 ∧ t.i3c = { s.i3c with alert := true } ∧ (∃ e, Emits s t (e ++ [.pin "ALERT#" 1])) ∧
      (s.cal.flush.isSome = true ∨ s.cal.pend = none → t.cal.flush.isSome = true) ∧ (s.cal.flush.isSome = true → t.cal.pend.isSome = true) ∧
      (s.restore = none → Only [.regs, .fabric, .rounds, .keys, .cal, .i3c, .out] s t) ∧
      (∀ r q, s.restore = some r → s.taken? r.tag = some q → t.restore = none ∧ t.job = { s.job with noStep := true } ∧ Completed s t q 9 0 []) ∧
      Only [.regs, .mbx, .job, .restore, .fabric, .rounds, .keys, .cal, .i3c, .out] s t) ∧
  ((∀ s : State, ∃ t, exec .entropyFailure s = .next t ∧ t.rf oSecAlarm 1 1 = 1 ∧
      (∀ e ∈ [0, 1, 2], t.rf (oCiph e) 63 62 = if s.latched then s.rf (oCiph e) 63 62 else 3) ∧ t.rf oIntStatus 8 8 = 1 ∧
      t.rf oSecAlarm 0 0 = s.rf oSecAlarm 0 0 ∧ Only [.regs, .cal, .out] s t ∧
      OnlyRegs s t [oCalLost, oCiph 0, oCiph 1, oCiph 2, oIntStatus, oPba, oSecAlarm]) ∧
  (∀ s : State, s.noEntropy = true → ∃ t, exec .entropyRecovered s = .next t ∧ t.rf oSecAlarm 1 1 = 0 ∧
      (∀ e ∈ [0, 1, 2], t.rf (oCiph e) 63 62 = if s.latched then s.rf (oCiph e) 63 62 else 0) ∧
      t.rf oSecAlarm 0 0 = s.rf oSecAlarm 0 0 ∧ (s.rounds.peers = [] → Only [.regs, .cal] s t) ∧ Only [.regs, .rounds, .cal, .out] s t ∧
      OnlyRegs s t [oCalLost, oCiph 0, oCiph 1, oCiph 2, oIntStatus, oPba, oSecAlarm]))

/-- The timing unit (R309 to R313): TIME_SET is accepted at a root-site device alone and takes effect at the next second; an entered asymmetry gives LOCKED
with 50 ns, a learned one the uncertainty of the moment; a path's asymmetry is entered by TIME_CAL. Where the asymmetry in use was learned, the uncertainty
after ACQUIRE is a value the spec does not give (log entry 4). A second of the timing unit with no exchange that disciplines (R312, R313): the uncertainty in
holdover grows with the time since it began, the timebase is steered to REF10 while that is present (R474), by a correction that the spec does not give (log
entry 4), and follows REF100 otherwise; nothing but the timing unit changes. -/
def Obligations.TimingUnitSetsLocksAndHolds : Prop :=
  ((∀ (s : State) (tag : BitVec 32) (q : Taken), Runs s tag 0x0D01 q →
    ∃ t, exec (.timeSet tag) s = .next t ∧
      (if s.timeState = 5 then Completed s t q 0 0 [] ∧ t.time = { s.time with pendingSet := some (BitVec.ofNat 64 (rd 0 8 q.payload)) }
       else Completed s t q 0x000A 0 [] ∧ t.time = s.time) ∧
      Only [.mbx, .regs, .out, .time] s t ∧ OnlyRegs s t ringRegs) ∧
  (∀ (v : Word) (s : State), s.time.pendingSet = some v → s.timeState = 5 →
    ∃ t, exec .ppsEdge s = .next t ∧ t.rw oTimeNow = v ∧ t.time = { s.time with pendingSet := none } ∧
      Only [.regs, .cal, .time, .out] s t ∧ OnlyRegs s t [oCalLost, oIntStatus, oPba, oTimeNow]) ∧
  (∀ s : State, s.timeState = 1 → s.time.stepped = true → s.timeChan < 32 →
    ∃ t, exec .acquireDone s = .next t ∧ t.timeState = 2 ∧ t.rf oTimeStatus 60 55 = s.rf oTimeStatus 60 55 ∧ t.time = s.time ∧
      (s.rf (oAsym s.timeChan) 63 62 = 1 → t.uncert = 50 ∧ t.free = s.free) ∧
      (s.rf (oAsym s.timeChan) 63 62 ≠ 1 → t.uncert = (Config.freeValue s.free).toNat % 2 ^ 32 ∧ t.free = s.free + 1) ∧
      t.rf oIntStatus 12 12 = 1 ∧ Only [.regs, .cal, .free, .out] s t ∧ OnlyRegs s t [oCalLost, oIntStatus, oPba, oTimeStatus]) ∧
  (∀ (n : ChanNo) (r d : Int) (s : State), s.time.learn = some n.val → s.time.learnBest = some (r, d) → s.timeState = 4 →
    ∃ t, exec (.learnEnd n) s = .next t ∧ t.timeState = 2 ∧ t.rf oTimeStatus 60 55 = n.val ∧
      t.uncert = min (s.time.holdU + s.holdGrowth) (2 ^ 32 - 1) ∧ t.rf (oAsym n.val) 63 62 = 2 ∧
      t.rf (oAsym n.val) 31 0 = (BitVec.ofInt 32 d).toNat ∧ t.time = { s.time with learn := none, learnBest := none, added := 0 } ∧
      Only [.regs, .cal, .time, .out] s t ∧ OnlyRegs s t [oCalLost, oIntStatus, oPba, oTimeStatus, oAsym n.val]) ∧
  (∀ (s : State) (tag : BitVec 32) (q : Taken), Runs s tag 0x0D02 q →
    (32 ≤ rd 0 1 q.payload →
      ∃ t, exec (.timeCal tag) s = .next t ∧ Completed s t q 3 0 [] ∧ Only [.mbx, .regs, .out] s t ∧ OnlyRegs s t ringRegs) ∧
    (rd 0 1 q.payload < 32 → allZero (slice 1 3 q.payload) = true →
      ∃ t, exec (.timeCal tag) s = .next t ∧ Completed s t q 0 0 [] ∧ t.rf (oAsym (rd 0 1 q.payload)) 63 62 = 1 ∧
        t.rf (oAsym (rd 0 1 q.payload)) 31 0 = rd 4 4 q.payload ∧
        (s.timeState = 3 ∨ s.timeState = 4 →
          (s.rf (oChan (rd 0 1 q.payload)) 63 61 = 2 → s.rootSite = some (s.rf (oChan (rd 0 1 q.payload)) 60 57) → t.timeState = 2 ∧ t.uncert = 50) ∧
          (s.rf (oChan (rd 0 1 q.payload)) 63 61 ≠ 2 ∨ s.rootSite ≠ some (s.rf (oChan (rd 0 1 q.payload)) 60 57) → t.timeState = s.timeState)) ∧
        Only [.mbx, .regs, .cal, .time, .out] s t))) ∧
  (∀ s : State, (∀ n, n < 32 → (s.chan n).best = none) → s.timeState = 3 →
    ∃ t, exec .timeSecond s = .next t ∧ t.timeState = 3 ∧ t.uncert = min (s.time.holdU + s.time.added + s.holdGrowth) (2 ^ 32 - 1) ∧
      t.rf oTimeStatus 60 55 = (s.bestTimeChan.getD 0x3F) % 64 ∧
      (s.rf oClk 60 60 = 0 → t.time = { s.time with slew := 0, frac := 0 } ∧ t.free = s.free) ∧
      (s.rf oClk 60 60 = 1 → t.time = { s.time with slew := (Config.freeValue s.free).toInt, frac := 0 } ∧ t.free = s.free + 1) ∧
      t.rounds = s.rounds ∧ Only [.regs, .time, .free] s t ∧ OnlyRegs s t [oTimeStatus])

/-- The supply, clock and thermal alarms (R353, R446 to R448, R454, R475): the reset level and the power-fail warning flush and reset the device, which a
power-fail warning, a lost lock and a thermal trip then hold in reset; the end of each hold releases it. Device reset, PERST#, the rails and the power cycle
(R437, R464, R471, R472): an assertion below 1 µs and a device already held in reset are left alone; a power cycle loses memory and returns every field but
the fuses to its default; VIO's return does so for class PWR; a rail out of tolerance resets and holds until it is back within it, which for VIO the
power-on tells, and the BMC reads the values held before (R476). A programme stays over a reset only where a permutation between two has started (R235). -/
def Obligations.AlarmsAndResetsReturnToDefaults : Prop :=
  ((∀ (clu : Option GClu) (mv : BitVec 16) (s : State), s.inReset = false →
    ∃ t, exec (.resetLevel clu mv) s = .next t ∧ WasReset s t ∧ t.inReset = false ∧ t.rw oCommitStep = s.rw oCommitStep ∧ Only resetParts s t) ∧
  (∀ s : State, s.pwr.pfw = false → s.inReset = false →
    ∃ t, exec .powerFailWarning s = .next t ∧ WasReset s t ∧ t.pwr.pfw = true ∧ t.rw oCommitStep = s.rw oCommitStep ∧ Only resetParts s t) ∧
  (∀ s : State, s.pwr.pfw = false → s.inReset = true →
    ∃ t, exec .powerFailWarning s = .next t ∧ t.pwr = { s.pwr with pfw := true } ∧ Only [.pwr] s t) ∧
  (∀ s : State, ∃ t, exec .pfwWithdrawn s = .next t ∧ t.pwr = { s.pwr with pfw := false } ∧ Only [.pwr] s t) ∧
  (∀ s : State, s.pwr.pllHold = false →
    ∃ t, exec .pllLockLoss s = .next t ∧ (s.inReset = false → WasReset s t) ∧ t.pwr.pllHold = true ∧ t.rf oClk 63 63 = 0 ∧
      t.rf oClk 62 62 = 1 ∧ t.rf oClk 31 0 = min (s.rf oClk 31 0 + 1) (2 ^ 32 - 1) ∧ t.keys = { kemCount := s.keys.kemCount } ∧
      t.rf oSecAlarm 63 56 = 2 ∧ t.rf oSecAlarm 55 48 = min (s.rf oSecAlarm 55 48 + 1) 255 ∧ Only resetParts s t) ∧
  (∀ s : State, ∃ t, exec .pllLock s = .next t ∧ t.pwr = { s.pwr with pllHold := false } ∧ t.rf oClk 63 63 = 1 ∧ t.rf oClk 62 62 = 0 ∧
      t.rf oClk 61 0 = s.rf oClk 61 0 ∧ Only [.regs, .pwr] s t ∧ OnlyRegs s t [oClk]) ∧
  (∀ (n : Fin 136) (temp : Int) (s : State), 110 * 16 ≤ temp → s.pwr.thermHold = false →
    ∃ t, exec (.thermalTrip n temp) s = .next t ∧ (s.inReset = false → WasReset s t) ∧ t.pwr.thermHold = true ∧
      t.rf oPwrTherm 39 32 = min (s.rf oPwrTherm 39 32 + 1) 255 ∧ (∃ e, Emits s t (.pin "THERMTRIP#" 1 :: e)) ∧
      t.rw oCommitStep = s.rw oCommitStep ∧ Only resetParts s t) ∧
  (∀ s : State, s.pwr.thermHold = true →
    ∃ t, exec .thermalHoldEnd s = .next t ∧ t.pwr.thermHold = false ∧ t.pwr.pfw = s.pwr.pfw ∧ t.pwr.pllHold = s.pwr.pllHold ∧
      t.pwr.rails = s.pwr.rails ∧ Emits s t [.pin "THERMTRIP#" 0] ∧ Only [.pwr, .out] s t)) ∧
  ((∀ s : State, s.inReset = false →
    (∃ t, exec .deviceReset s = .next t ∧ WasReset s t ∧ t.rw oCommitStep = s.rw oCommitStep ∧ t.inReset = false ∧ Only resetParts s t) ∧
    (∀ ns, 1000 ≤ ns → ∃ t, exec (.perstAssert ns) s = .next t ∧ WasReset s t ∧ t.rw oCommitStep = s.rw oCommitStep ∧ Only resetParts s t) ∧
    (∀ ns, ns < 1000 → exec (.perstAssert ns) s = .next s)) ∧
  (∀ s : State, s.inReset = true → exec .deviceReset s = .next s) ∧
  (∀ s : State, ∃ t, exec .powerCycle s = .next t ∧
      (∀ o k, regKind o = some k → o ≠ oCalBbox → ∀ f ∈ regFields k, f.ret ≠ .fuse → t.rf o f.hi f.lo = f.dflt % 2 ^ (f.hi + 1 - f.lo)) ∧
      (∀ a, t.byteAt a = memDflt a) ∧ t.mbx = {} ∧ t.job = {} ∧ t.strg = {} ∧ t.mirror = {} ∧ t.rounds = {} ∧
      t.keys = { kemCount := s.keys.kemCount } ∧ t.cal.buf = [] ∧ t.cal.bank = [] ∧
      (s.cal.flush = none → t.cal.slot0 = s.cal.slot0 ∧ t.cal.slot1 = s.cal.slot1) ∧ t.pwr.pfw = false ∧ t.pwr.pllHold = false ∧
      t.pwr.rails = s.pwr.rails.filter (· == 0) ∧ Only resetParts s t) ∧
  (∀ s : State, s.vioOk = false →
    ∃ t, exec .vioPowerOn s = .next t ∧ t.vioOk = true ∧ t.i3c = {} ∧
      (∀ o k, regKind o = some k → o ≠ oCalBbox → ∀ f ∈ regFields k,
        t.rf o f.hi f.lo = if f.ret = .pwr then f.dflt % 2 ^ (f.hi + 1 - f.lo) else s.rf o f.hi f.lo) ∧
      Only [.regs, .pwr, .i3c] s t) ∧
  (∀ (r : Fin 3) (s : State), exec (.railOutOfTolerance { rail := r, back := true }) s =
      .next (if r = 0 then s else { s with pwr := { s.pwr with rails := s.pwr.rails.filter (· != r.val) } })) ∧
  (∀ (r : Fin 3) (s : State), r.val ∉ s.pwr.rails →
    ∃ t, exec (.railOutOfTolerance { rail := r }) s = .next t ∧ WasReset s t ∧ t.pwr.rails = s.pwr.rails ++ [r.val] ∧ t.inReset = true ∧
      t.i3c.latched = (if s.inReset then s.i3c.latched else s.i3cMap) ∧
      t.rw oCommitStep = s.rw oCommitStep ∧ Only resetParts s t))

/-- Core and cluster resets (R110, R408, R424): RST_STATUS names the reset, the unit reads as cleared, with its local memory, what waits for it and what it
serves, and every other core and cluster is as it was, as is every byte outside the unit's windows; a running step that the unit serves is abandoned, which
empties the queues of that step's clusters; a target out of range has no effect but a HOST record. A reset that does not complete escalates (R408, R409, R412): a core's
to its cluster's, a cluster's to a fence of the cluster, with a FENCE record and its flush, and one that has completed does not; ESCALATED tells of the most
recent reset; a fence that fails shows in RST_STATUS, raises FAULT and is put
before the BMC. -/
def Obligations.UnitResetsClearAndEscalate : Prop :=
  ((∀ (n : BitVec 17) (s : State), n.toNat < 80000 → s.MemoryOk →
    ∃ t, exec (.coreReset n) s = .next t ∧ t.rf oRstStatus 63 60 = 1 ∧ t.rf oRstStatus 16 0 = n.toNat ∧ t.rf oRstStatus 59 59 = 0 ∧
      (∀ a, t.byteAt a = if coreAddr n.toNat 0 ≤ a ∧ a < coreAddr n.toNat 0x10000 then memDflt a else s.byteAt a) ∧
      t.core n.toNat = { resErrs := (s.core n.toNat).resErrs, testDue := (s.core n.toNat).testDue } ∧
      (∀ c, c ≠ n.toNat → t.core c = s.core c) ∧
      t.clu (n.toNat / 40) = { s.clu (n.toNat / 40) with queues := (t.clu (n.toNat / 40)).queues, serving := (t.clu (n.toNat / 40)).serving } ∧
      (∀ j, SMap.get (t.clu (n.toNat / 40)).queues j [] =
        if j / 8 = n.toNat % 40 ∨ (t.rf oRstJob 61 61 = 1 ∧ s.rf oRstJob 61 61 = 0 ∧ n.toNat / 40 ∈ s.stepClusters) then []
        else SMap.get (s.clu (n.toNat / 40)).queues j []) ∧
      (∀ j, SMap.get? (t.clu (n.toNat / 40)).serving j =
        if j = n.toNat % 40 ∨ (t.rf oRstJob 61 61 = 1 ∧ s.rf oRstJob 61 61 = 0 ∧ n.toNat / 40 ∈ s.stepClusters) then none
        else SMap.get? (s.clu (n.toNat / 40)).serving j) ∧
      (∀ h, h ≠ n.toNat / 40 → t.clu h = s.clu h ∨
        (s.usesCore n.toNat = true ∧ h ∈ s.stepClusters ∧ t.clu h = { s.clu h with queues := [], serving := [] })) ∧
      t.pwr = { s.pwr with resets := s.pwr.resets.filter (· != (true, n.toNat)) ++ [(true, n.toNat)] } ∧
      (s.usesCore n.toNat = false → (∀ h, h ≠ n.toNat / 40 → t.clu h = s.clu h) ∧
        Only [.regs, .mem, .bad, .cores, .clus, .pwr] s t ∧ OnlyRegs s t [oRstStatus]) ∧
      (s.usesCore n.toNat = true → s.phase ≠ 2 → s.rf oRstJob 61 61 = 0 → t.rf oRstJob 61 61 = 1 ∧ t.rf oRstJob 60 56 = 3) ∧
      Only [.regs, .mem, .bad, .cores, .clus, .fabric, .cal, .pwr, .i3c, .out] s t) ∧
  (∀ (n : BitVec 17) (s : State), 80000 ≤ n.toNat →
    ∃ t, exec (.coreReset n) s = .next t ∧ t.cal = (s.hostRec srcRm 3 oRstCtl (2 ^ 60 + n.toNat)).cal ∧ Only [.regs, .cal] s t ∧
      OnlyRegs s t [oCalLost]) ∧
  (∀ (n : BitVec 17) (s : State), n.toNat < 2000 → s.MemoryOk →
    ∃ t, exec (.clusterReset n) s = .next t ∧ t.rf oRstStatus 63 60 = 2 ∧ t.rf oRstStatus 16 0 = n.toNat ∧ t.rf oRstStatus 59 59 = 0 ∧
      (∀ a, t.byteAt a =
        if (cluAddr n.toNat 0 ≤ a ∧ a < cluAddr n.toNat 0x400000) ∨ (coreAddr (n.toNat * 40) 0 ≤ a ∧ a < coreAddr (n.toNat * 40) 0x280000) then memDflt a
        else s.byteAt a) ∧
      (∀ i, i < 40 → t.core (n.toNat * 40 + i) =
        { resErrs := (s.core (n.toNat * 40 + i)).resErrs, testDue := (s.core (n.toNat * 40 + i)).testDue }) ∧
      (∀ c, c / 40 ≠ n.toNat → t.core c = s.core c) ∧
      t.clu n.toNat = { power := (s.clu n.toNat).power, halved := (s.clu n.toNat).halved, dipHold := (s.clu n.toNat).dipHold } ∧
      (∀ h, h ≠ n.toNat → t.clu h = s.clu h ∨
        (s.usesCluster n.toNat = true ∧ h ∈ s.stepClusters ∧ t.clu h = { s.clu h with queues := [], serving := [] })) ∧
      t.pwr = { s.pwr with resets := s.pwr.resets.filter (· != (false, n.toNat)) ++ [(false, n.toNat)] } ∧
      (∀ o k, regKind o = some k → inCluster n.toNat o = true → ∀ f ∈ regFields k, f.ret = .clu ∨ f.ret = .vol →
        t.rf o f.hi f.lo = f.dflt % 2 ^ (f.hi + 1 - f.lo)) ∧
      (s.usesCluster n.toNat = false → (∀ h, h ≠ n.toNat → t.clu h = s.clu h) ∧ Only [.regs, .mem, .bad, .cores, .clus, .pwr] s t ∧
        (∀ o, inCluster n.toNat o = false → o ≠ oRstStatus → t.rw o = s.rw o)) ∧
      (s.usesCluster n.toNat = true → s.phase ≠ 2 → s.rf oRstJob 61 61 = 0 → t.rf oRstJob 61 61 = 1 ∧ t.rf oRstJob 60 56 = 3) ∧
      Only [.regs, .mem, .bad, .cores, .clus, .fabric, .cal, .pwr, .i3c, .out] s t) ∧
  (∀ (n : BitVec 17) (s : State), 2000 ≤ n.toNat →
    ∃ t, exec (.clusterReset n) s = .next t ∧ t.cal = (s.hostRec srcRm 3 oRstCtl (2 * 2 ^ 60 + n.toNat)).cal ∧ Only [.regs, .cal] s t ∧
      OnlyRegs s t [oCalLost])) ∧
  ((∀ (n : BitVec 17) (s : State), n.toNat < 80000 → (true, n.toNat) ∈ s.pwr.resets → s.MemoryOk →
    ∃ t, exec (.resetEscalation true n) s = .next t ∧ t.rf oRstStatus 59 59 = 1 ∧ t.rf oRstStatus 63 60 = 2 ∧
      t.rf oRstStatus 16 0 = n.toNat / 40 ∧ (s.cal.flush = none → s.cal.pend = none → t.cal.flush.isSome = true) ∧ Posted s t srcRm ∧
      t.pwr.resets = (s.pwr.resets.filter (· != (true, n.toNat))).filter (· != (false, n.toNat / 40)) ++ [(false, n.toNat / 40)] ∧
      (∀ a, t.byteAt a =
        if (cluAddr (n.toNat / 40) 0 ≤ a ∧ a < cluAddr (n.toNat / 40) 0x400000) ∨
          (coreAddr (n.toNat / 40 * 40) 0 ≤ a ∧ a < coreAddr (n.toNat / 40 * 40) 0x280000) then memDflt a else s.byteAt a) ∧
      Only [.regs, .mem, .bad, .cores, .clus, .fabric, .cal, .pwr, .i3c, .out] s t) ∧
  (∀ (n : BitVec 17) (s : State), n.toNat < 2000 → (false, n.toNat) ∈ s.pwr.resets → s.cluFenced n.toNat = false →
    ∃ t, exec (.resetEscalation false n) s = .next t ∧ t.cluFenced n.toNat = true ∧
      (s.rf oRstStatus 16 0 = n.toNat → s.rf oRstStatus 63 60 = 2 → t.rf oRstStatus 59 59 = 1) ∧
      (s.rf oRstStatus 16 0 ≠ n.toNat ∨ s.rf oRstStatus 63 60 ≠ 2 → t.rf oRstStatus 59 59 = s.rf oRstStatus 59 59) ∧
      t.rf (oCoreFence n.toNat) 39 0 = 2 ^ 40 - 1 ∧ t.rf oIntStatus 7 7 = 1 ∧ t.i3c.queue.getLast? = some 3 ∧ Posted s t srcRm ∧
      (false, n.toNat) ∉ t.pwr.resets ∧ (∀ c, c / 40 ≠ n.toNat → t.core c = s.core c) ∧
      Only [.regs, .mem, .bad, .mbx, .cores, .clus, .fabric, .cal, .pwr, .i3c, .out] s t) ∧
  (∀ (core : Bool) (n : BitVec 17) (s : State), (core, n.toNat) ∉ s.pwr.resets → exec (.resetEscalation core n) s = .next s) ∧
  (∀ (dev : Bool) (u : BitVec 32) (s : State),
    ∃ t, exec (.fenceFail dev u) s = .next t ∧ t.rf oRstStatus (if dev then 57 else 58) (if dev then 57 else 58) = 1 ∧
      t.rf oIntStatus 7 7 = 1 ∧ t.i3c.queue.getLast? = some 4 ∧ (s.cal.flush = none → s.cal.pend = none → t.cal.flush.isSome = true) ∧
      t.rf oRstStatus 63 59 = s.rf oRstStatus 63 59 ∧ Only [.regs, .fabric, .cal, .i3c, .out] s t ∧
      OnlyRegs s t ([oCalBbox, oCalLost, oCalOldest, oCalWrite, oIntStatus, oPba, oRstStatus] ++ portRegs)))

/-- A Ringmaster restart, whatever brings it about (R388, R391, R464): every command taken completes with ABORTED in order, queued steps and staging are
discarded, the VOL counters of MIR_STATUS return to 0 (assumption 47), RST_STATUS names the restart, READY is 0, a running step waits for a rewind, and the device starts an image again or enters Sideshow mode. Cluster
SRAM, HBM, DDR5, programmes, keys and rounds stay. Starts that fail (R391): ten seconds without READY count one with cause 1, the third leads to Sideshow
mode, and one ages out. -/
def Obligations.RestartsAbortCommandsAndFailedStartsCount : Prop :=
  ((∀ (c : Instr) (s : State), c ∈ [.ringmasterRestart, .ringmasterFault, .firmwareWatchdog, .handoverTimeout] →
    (c = .handoverTimeout → s.fwState = 3) → s.fw.side = false → s.fw.up = true ∨ s.fw.starting = true →
    ∃ t, exec c s = .next t ∧ t.mbx.taken = [] ∧
      t.mbx.wait = s.mbx.wait ++ (s.mbx.taken.filter (fun x => !x.silent)).map (fun x => completionOf x 8 0 []) ∧
      t.job.queue = [] ∧ t.job.staging = none ∧ t.job.prog = s.job.prog ∧ t.job.staged = s.job.staged ∧ t.fw.staging = none ∧
      t.fw.activate = none ∧ t.fw.up = false ∧ (t.fw.starting = true ∨ t.fw.side = true) ∧ t.restore = none ∧
      t.rf oRstStatus 63 60 = 3 ∧ t.rw oCommitStep = s.rw oCommitStep ∧ (s.cal.flush = none → s.cal.pend = none → t.cal.flush.isSome = true) ∧
      (s.job.running ≠ none → s.phase ≠ 2 → s.rf oRstJob 61 61 = 0 → t.rf oRstJob 61 61 = 1 ∧ t.rf oRstJob 60 56 = 4) ∧
      t.rf oMir 15 0 = 0 ∧ t.rf oMir 63 16 = s.rf oMir 63 16 ∧ (s.restore.isSome = true → t.job.noStep = true) ∧
      Only [.regs, .mbx, .job, .clus, .strg, .reshard, .restore, .fabric, .fw, .cal, .pwr, .i3c, .free, .out] s t)) ∧
  ((∀ s : State, s.fw.starting = true → s.fw.side = false →
    ∃ t, exec .startTimeout s = .next t ∧ t.fw.starting = false ∧
      t.rf oBootAttempts 63 56 = min (s.rf oBootAttempts 63 56 + 1) 255 ∧ t.rf oBootAttempts 55 48 = 1 ∧ t.rf oIntStatus 10 10 = 1 ∧
      (s.rf oBootAttempts 63 56 < 2 → t.fw.side = false ∧ t.rf oSecStatus 55 55 = s.rf oSecStatus 55 55) ∧
      (2 ≤ s.rf oBootAttempts 63 56 → t.fw.side = true ∧ t.rf oSecStatus 55 55 = 1 ∧ t.rf oSecStatus 63 56 = 5) ∧
      Only [.regs, .fabric, .fw, .cal, .i3c, .out] s t ∧
      OnlyRegs s t ([oBootAttempts, oCalBbox, oCalLost, oCalOldest, oCalWrite, oIntStatus, oPba, oMbxStatus, oSecStatus] ++ portRegs)) ∧
  (∀ s : State, ∃ t, exec .failedStartAgeOut s = .next t ∧ t.rf oBootAttempts 63 56 = s.rf oBootAttempts 63 56 - 1 ∧
      t.rf oBootAttempts 55 48 = s.rf oBootAttempts 55 48 ∧ Only [.regs] s t ∧ OnlyRegs s t [oBootAttempts]))

/-- Hang recovery (R401 to R404, R412): the contexts at work are the suspects and are replayed after a cluster reset, which clears the cluster's SRAM and
shows in RST_STATUS; a recovery that replays, and a number above 1,999, leave a write of RST_HANG without effect; a verdict of a timeout is noted with its bit
in RST_HANG; HANG_VERDICT ends the recovery with a last cluster reset, its record, FAULT and the BMC's code 7, and fences what a self-test has failed. A write
of RST_JOB (R411): with no phase open it takes effect at once when it names the committed step, and reads BAD_STEP and changes nothing when it does not; with
PHASE 1 or 2 open, or in a hang recovery, it waits. -/
def Obligations.HangRecoveryJudgesAndRewindsNameTheStep : Prop :=
  ((∀ (g : BitVec 11) (s : State), s.hang = none → g.toNat < 2000 →
    ∃ t h, exec (.hangRecovery g) s = .next t ∧ t.hang = some h ∧ h.cluster = g.toNat ∧
      h.susp.map (fun x => x.ctx) = (List.range 8).filter (fun k => s.ctxState g.toNat k == 1 || s.ctxState g.toNat k == 2) ∧
      t.rf oRstHang 63 62 = 1 ∧ t.rf oRstHang 10 0 = g.toNat ∧ t.rf oRstStatus 63 60 = 2 ∧ t.rf oRstStatus 16 0 = g.toNat ∧ t.rf oRstStatus 59 59 = 0 ∧
      (false, g.toNat) ∈ t.pwr.resets ∧
      ((∀ k, k < 8 → s.ctxState g.toNat k = 1 ∨ s.ctxState g.toNat k = 2 → s.rf (oCkpt g.toNat k) 47 0 = 0) →
        (∀ i, i < 40 → t.core (g.toNat * 40 + i) = { resErrs := (s.core (g.toNat * 40 + i)).resErrs, testDue := (s.core (g.toNat * 40 + i)).testDue }) ∧
        (∀ c, c / 40 ≠ g.toNat → t.core c = s.core c) ∧
        (s.MemoryOk → ∀ a, t.byteAt a =
          if (cluAddr g.toNat 0 ≤ a ∧ a < cluAddr g.toNat 0x400000) ∨ (coreAddr (g.toNat * 40) 0 ≤ a ∧ a < coreAddr (g.toNat * 40) 0x280000) then memDflt a
          else s.byteAt a)) ∧
      t.rf oRstHang 55 48 = ((List.range 8).filter (fun k => s.ctxState g.toNat k == 1 || s.ctxState g.toNat k == 2)).foldl (fun a k => a + 2 ^ k) 0 ∧
      (s.job.running ≠ none → s.phase ≠ 2 → s.rf oRstJob 61 61 = 0 → t.rf oRstJob 61 61 = 1 ∧ t.rf oRstJob 60 56 = 1) ∧
      Only [.regs, .mem, .bad, .mbx, .job, .cores, .clus, .qs, .hang, .strg, .jug, .fabric, .cal, .pwr, .i3c, .out] s t) ∧
  (∀ (g : BitVec 11) (s : State), s.hang.isSome = true ∨ 1999 < g.toNat → exec (.hangRecovery g) s = .next s) ∧
  (∀ (h : Hang) (i : Nat) (x : Susp) (s : State), s.hang = some h → h.cur = some i → h.susp[i]? = some x → x.ctx < 8 →
    (∃ t h', exec .suspectShortTimeout s = .next t ∧ t.hang = some h' ∧ h'.cluster = h.cluster ∧
      h'.susp[i]? = some { x with verdict := some 1 } ∧ t.rf oRstHang (40 + x.ctx) (40 + x.ctx) = 1 ∧ h'.cur ≠ some i ∧
      Only [.regs, .mem, .bad, .mbx, .job, .cores, .clus, .qs, .hang, .strg, .jug, .fabric, .cal, .pwr, .i3c, .out] s t) ∧
    (∃ t h', exec .suspectLimitTimeout s = .next t ∧ t.hang = some h' ∧ h'.cluster = h.cluster ∧
      h'.susp[i]? = some { x with verdict := some 2 } ∧ t.rf oRstHang (32 + x.ctx) (32 + x.ctx) = 1 ∧ h'.cur ≠ some i ∧
      Only [.regs, .mem, .bad, .mbx, .job, .cores, .clus, .qs, .hang, .strg, .jug, .fabric, .cal, .pwr, .i3c, .out] s t)) ∧
  (∀ (h : Hang) (tests : List (CtxNo × Bool)) (s : State), s.hang = some h → h.cur = none →
    ∃ t, exec (.hangVerdict tests) s = .next t ∧ t.hang = none ∧ t.rf oRstHang 63 62 = 2 ∧ t.rf oIntStatus 7 7 = 1 ∧
      (7 : BitVec 8) ∈ t.i3c.queue ∧ Posted s t srcRm ∧ t.rf oRstStatus 63 60 = 2 ∧ t.rf oRstStatus 16 0 = h.cluster % 2 ^ 17 ∧
      ((∀ x ∈ h.susp, x.verdict = some 1 → ∀ y ∈ tests, y.1.val = x.ctx → y.2 = true) → s.job.settle = none →
        (s.job.running = none ∨ s.rf oRstJob 61 61 = 1 ∨ s.phase = 2) →
        t.cal = (s.post srcRm 0x0504 (le 2 h.cluster ++ le 1 h.susp.length ++ zeros 5 ++ h.susp.flatMap (suspBytes h.cluster tests))).cal) ∧
      (∀ x ∈ h.susp, x.verdict = some 1 → (∃ y ∈ tests, y.1.val = x.ctx ∧ y.2 = false) → h.cluster < 2000 →
        (x.unit < 40 → t.rf (oCoreFence h.cluster) x.unit x.unit = 1) ∧ (40 ≤ x.unit → t.cluFenced h.cluster = true)) ∧
      Only [.regs, .mem, .bad, .mbx, .job, .cores, .clus, .qs, .hang, .strg, .jug, .fabric, .cal, .pwr, .i3c, .out] s t)) ∧
  (∀ (v : Word) (s : State),
    (s.phase = 0 → s.hang = none → bits 47 0 v.toNat = s.committed % 2 ^ 48 →
      ∃ t, exec (.jobRewind v) s = .next t ∧ t.rf oRstJob 63 62 = 2 ∧ t.rf oRstJob 61 61 = 0 ∧ t.rf oRstJob 55 48 = bits 55 48 v.toNat ∧
        t.job.running = none ∧ t.job.queue = [] ∧ SMap.get t.job.attempts (s.committed + 1) 0 = bits 55 48 v.toNat ∧ t.qs = [] ∧
        t.rw oCommitStep = s.rw oCommitStep ∧
        Only [.regs, .mem, .bad, .mbx, .job, .clus, .qs, .strg, .jug, .fabric, .cal, .out] s t) ∧
    (s.phase = 0 → s.hang = none → bits 47 0 v.toNat ≠ s.committed % 2 ^ 48 →
      ∃ t, exec (.jobRewind v) s = .next t ∧ t.rf oRstJob 63 62 = 3 ∧ t.rf oRstJob 61 61 = s.rf oRstJob 61 61 ∧
        t.job = { s.job with settle := none } ∧ Only [.regs, .job, .cal] s t ∧ OnlyRegs s t [oRstJob, oCalLost]) ∧
    (s.phase = 2 ∨ (s.hang ≠ none ∧ s.phase ≠ 1) →
      ∃ t, exec (.jobRewind v) s = .next t ∧ t.rf oRstJob 63 62 = 1 ∧ t.job = { s.job with settle := some v } ∧ Only [.regs, .job] s t ∧
        OnlyRegs s t [oRstJob]) ∧
    (s.phase = 1 → s.strg.query.isSome = true ∨ s.hang ≠ none ∨ s.job.prog = none ∨
        (∃ p, s.job.prog = some p ∧ ∃ a ∈ p.groupMembers, rtValid (p.route.entry a) = true) →
      ∃ t, exec (.jobRewind v) s = .next t ∧ t.rf oRstJob 63 62 = 1 ∧ t.job = { s.job with settle := some v } ∧ t.rw oCommitStep = s.rw oCommitStep ∧
        (s.hang = none → t.phase = 1) ∧
        (∀ p a, s.strg.query = none → s.job.prog = some p → a ∈ p.groupMembers → rtValid (p.route.entry a) = true →
          Ev.message a (.query (BitVec.ofNat 64 (s.committed + 1))) ∈ t.out) ∧
        Only [.regs, .job, .strg, .out] s t ∧ OnlyRegs s t [oRstJob, oCommitState]))

/-- PWR_CAP, the 100 µs decision and the reference clocks (R448, R451 to R454, R473): caps within range are stored, others refused; a decision shows the three
averages, lowers the level by one for an exceeded cap or a hot sensor, and the level in force is the lower of the two requests while the Ringmaster runs;
while it does not, a level that no request names any more stays, with its limiter. Without its 156.25 MHz reference no site port, or no Borjan port, is up. The setpoint that a level brings is temperature-corrected by a value the model leaves open (log entry 4). A
supply dip (R444, R445): the warning halves the cluster's clock, a warning in the hold restarts the dip, and the end of the hold brings the full pattern back,
counts the dip and posts its record. Nothing else of the cluster, and no other cluster, changes. -/
def Obligations.CapsClocksAndDipsActOnTheDevice : Prop :=
  ((∀ (s : State) (tag : BitVec 32) (q : Taken), Runs s tag 0x0C01 q →
    (allZero (slice 6 2 q.payload) = true → (∀ o ∈ [0, 2], within 1000 5600 (rd o 2 q.payload) = true) → within 1000 4800 (rd 4 2 q.payload) = true →
      ∃ t, exec (.pwrCap tag) s = .next t ∧ Completed s t q 0 0 [] ∧ t.rf oPwrCap 47 32 = rd 0 2 q.payload ∧
        t.rf oPwrCap 31 16 = rd 2 2 q.payload ∧ t.rf oPwrCap 15 0 = rd 4 2 q.payload ∧ Only [.mbx, .regs, .out] s t ∧
        OnlyRegs s t (oPwrCap :: ringRegs)) ∧
    (allZero (slice 6 2 q.payload) = true → (∃ o ∈ [0, 2], within 1000 5600 (rd o 2 q.payload) = false) ∨ within 1000 4800 (rd 4 2 q.payload) = false →
      ∃ t, exec (.pwrCap tag) s = .next t ∧ Completed s t q 2 0 [] ∧ Only [.mbx, .regs, .out] s t ∧ OnlyRegs s t ringRegs)) ∧
  (∀ (m : PowerSample) (s : State),
    ∃ t, exec (.capDecision m) s = .next t ∧ t.rf oPwrMeas 63 48 = m.avg1ms.toNat ∧ t.rf oPwrMeas 47 32 = m.avg10ms.toNat ∧
      t.rf oPwrMeas 31 16 = m.avg1s.toNat ∧
      (s.fw.up = true → s.fwState ≠ 3 → t.rf oPwrStatus 63 60 = max t.pwr.capLevel t.pwr.thermLevel % 16) ∧
      (s.fw.up = false ∨ s.fwState = 3 → max t.pwr.capLevel t.pwr.thermLevel < s.rf oPwrStatus 63 60 →
        t.rf oPwrStatus 63 57 = s.rf oPwrStatus 63 57) ∧
      (s.rf oPwrCap 47 32 < m.avg1ms.toNat → t.pwr.capLevel = min 4 (s.pwr.capLevel + 1) ∧ t.pwr.capCause = 2) ∧
      ((∃ x ∈ m.temps, 95 * 16 ≤ x.2 ∧ m.temps.find? (fun y => y.1 = x.1) = some x ∧ m.temps.length = 1) →
        t.pwr.thermLevel = min 4 (s.pwr.thermLevel + 1) ∧ t.rf oPwrStatus 55 55 = 1) ∧
      Only [.regs, .cal, .pwr, .free, .out] s t ∧ OnlyRegs s t [oCalLost, oIntStatus, oPba, oPwrMeas, oPwrStatus, oPwrTherm]) ∧
  (∀ (i : Fin 5) (p : Bool) (s : State),
    ∃ t, exec (.refClockChange i p) s = .next t ∧ bit i.val t.pwr.refs = p ∧ (∀ j, j < 5 → j ≠ i.val → bit j t.pwr.refs = bit j s.pwr.refs) ∧
      t.rf oClk 58 58 = b2n (bit 0 t.pwr.refs) ∧ t.rf oClk 59 59 = b2n (bit 1 t.pwr.refs && bit 2 t.pwr.refs) ∧
      t.rf oClk 60 60 = b2n (bit 3 t.pwr.refs) ∧ t.rf oClk 61 61 = b2n (bit 4 t.pwr.refs) ∧
      ((i ≠ 1 ∧ i ≠ 2) ∨ p = true → Only [.regs, .pwr] s t ∧ OnlyRegs s t [oClk]) ∧
      (i = 1 → p = false → (∀ p, p < 8 → t.rf (oPortStatus p) 63 62 = 0) ∧ (∀ q, q < 2 → t.rf (oBjnPort q) 63 62 = s.rf (oBjnPort q) 63 62) ∧
        Only [.regs, .clus, .jug, .reshard, .fabric, .cal, .pwr, .out] s t) ∧
      (i = 2 → p = false → (∀ q, q < 2 → t.rf (oBjnPort q) 63 62 = 0) ∧ (∀ p, p < 8 → t.rw (oPortStatus p) = s.rw (oPortStatus p)) ∧
        Only [.regs, .cal, .pwr, .out] s t))) ∧
  ((∀ (g : GClu) (s : State), ∃ t, exec (.droopWarning g) s = .next t ∧ t.clu g.val = { s.clu g.val with halved := true, dipHold := false } ∧
      (∀ h, h ≠ g.val → t.clu h = s.clu h) ∧ Only [.clus] s t) ∧
  (∀ (g : GClu) (s : State), (s.clu g.val).halved = true →
    ∃ t, exec (.dipEnd g) s = .next t ∧ t.clu g.val = { s.clu g.val with dipHold := true } ∧ (∀ h, h ≠ g.val → t.clu h = s.clu h) ∧
      Only [.clus] s t) ∧
  (∀ (g : GClu) (ns : Word) (s : State), (s.clu g.val).halved = true → (s.clu g.val).dipHold = true →
    ∃ t, exec (.droopHoldEnd g ns) s = .next t ∧ t.clu g.val = { s.clu g.val with halved := false, dipHold := false } ∧
      (∀ h, h ≠ g.val → t.clu h = s.clu h) ∧ t.rf oPwrStatus 31 16 = min (s.rf oPwrStatus 31 16 + 1) 65535 ∧
      t.rf oPwrStatus 63 32 = s.rf oPwrStatus 63 32 ∧ t.cal = (s.power 1 g.val ns.toNat).cal ∧ t.rf oIntStatus 9 9 = 1 ∧
      Only [.regs, .clus, .cal, .out] s t ∧ OnlyRegs s t [oCalLost, oIntStatus, oPba, oPwrStatus]))

/-- Admission, nap and doze (R449, R450, R456 to R462): the head of the wake queue is admitted; a cluster that may nap loses its cores, SRAM and VOL registers
and keeps its shadows, and no other cluster changes; what waits for it at its stop goes on when it has woken; a ring that dozes shows it, drops its clusters, cores, memories and CLU registers, every other ring staying as it is, and
comes back with its clusters waiting; a memory erase ends with
MEM_ERASE clear. PWR_STATE and the end of a wake (R458 to R460): it is refused while a step runs or waits; a doze of rings is refused while a programme names
one, and a device doze while the device is paired; the rings then read as dozing and their clusters are off, in a device doze with every ring and the Borjan
ports; STATE 0 completes at once when nothing it names dozes, and otherwise waits for the rings it wakes; a ring that has its power back reads awake, with every cluster that is not fenced waiting for admission. -/
def Obligations.ClustersAndRingsNapDozeAndWake : Prop :=
  ((∀ (g : GClu) (s : State), s.hasWork g.val = true → s.cluFenced g.val = false → (s.clu g.val).power = 1 ∨ (s.clu g.val).power = 3 →
    ∃ t, exec (.admissionRequest g) s = .next t ∧ t.pwr = { s.pwr with wakes := s.pwr.wakes ++ [g.val] } ∧
      t.clu g.val = { s.clu g.val with power := if (s.clu g.val).power = 1 then 2 else 5 } ∧ (∀ h, h ≠ g.val → t.clu h = s.clu h) ∧
      Only [.clus, .pwr] s t) ∧
  (∀ (c : GCore) (s : State), (∀ k, k < 8 → SMap.get (s.clu (c.val / 40)).queues (c.val % 40 * 8 + k) [] = []) → (s.clu (c.val / 40)).power = 0 →
    ∃ t, exec (.coreIdle c) s = .next t ∧ t.core c.val = { s.core c.val with gated := true } ∧ (∀ d, d ≠ c.val → t.core d = s.core d) ∧
      ((∃ i, i < 40 ∧ c.val / 40 * 40 + i ≠ c.val ∧ (s.core (c.val / 40 * 40 + i)).gated = false) → t.clus = s.clus) ∧
      ((∀ i, i < 40 → c.val / 40 * 40 + i ≠ c.val → (s.core (c.val / 40 * 40 + i)).gated = true) → (s.clu (c.val / 40)).queues = [] →
        t.clu (c.val / 40) = { s.clu (c.val / 40) with power := 1 }) ∧
      (∀ h, h ≠ c.val / 40 → t.clu h = s.clu h) ∧ Only [.cores, .clus] s t) ∧
  (∀ (g : Nat) (rest : List Nat) (s : State), s.pwr.wakes = g :: rest →
    ∃ t, exec .admission s = .next t ∧ t.pwr.wakes = rest ∧
      t.clu g = { s.clu g with power := if (s.clu g).power = 5 then 4 else if (s.clu g).power = 2 then 0 else (s.clu g).power } ∧
      (∀ h, h ≠ g → t.clu h = s.clu h) ∧ Only [.regs, .mbx, .clus, .cal, .pwr, .out] s t) ∧
  (∀ (s : State) (tag : BitVec 32) (q : Taken), Runs s tag 0x0C03 q → allZero (slice 1 7 q.payload) = true →
    ∃ t, exec (.pwrNap tag) s = .next t ∧ Completed s t q 0 0 [] ∧ t.rf oPwrCtl 7 0 = rd 0 1 q.payload ∧ t.rf oPwrCtl 8 8 = s.rf oPwrCtl 8 8 ∧
      Only [.mbx, .regs, .out] s t ∧ OnlyRegs s t (oPwrCtl :: ringRegs)) ∧
  (∀ (g : GClu) (s : State), s.mayNap g.val = true → s.liveCtxs g.val = [] → s.MemoryOk →
    ∃ t, exec (.napEntry g) s = .next t ∧ (t.clu g.val).power = 3 ∧ (t.clu g.val).counters = (s.clu g.val).counters ∧
      (t.clu g.val).ctxs = (s.clu g.val).ctxs ∧ (t.clu g.val).halved = (s.clu g.val).halved ∧ (t.clu g.val).dipHold = (s.clu g.val).dipHold ∧
      (t.clu g.val).stall = (s.clu g.val).stall ∧ (t.clu g.val).scrub = (s.clu g.val).scrub ∧ (t.clu g.val).stop = [] ∧ (t.clu g.val).comp = [] ∧
      (∀ j, SMap.get (t.clu g.val).queues j [] = []) ∧ (∀ h, h ≠ g.val → t.clu h = s.clu h) ∧
      (∀ a, t.byteAt a =
        if (cluAddr g.val 0 ≤ a ∧ a < cluAddr g.val 0x400000) ∨ (coreAddr (g.val * 40) 0 ≤ a ∧ a < coreAddr (g.val * 40) 0x280000) then memDflt a
        else s.byteAt a) ∧
      (∀ k, k < 8 → t.ctxState g.val k = s.ctxState g.val k) ∧
      (∀ i, i < 40 → t.core (g.val * 40 + i) = { saved := (s.core (g.val * 40 + i)).saved, resErrs := (s.core (g.val * 40 + i)).resErrs,
                                                 testDue := (s.core (g.val * 40 + i)).testDue }) ∧
      (∀ c, c / 40 ≠ g.val → t.core c = s.core c) ∧ (∀ o, inCluster g.val o = false → t.rw o = s.rw o) ∧
      (∀ o k, regKind o = some k → inCluster g.val o = true → ∀ f ∈ regFields k,
        t.rf o f.hi f.lo = if f.ret = .vol then f.dflt % 2 ^ (f.hi + 1 - f.lo) else s.rf o f.hi f.lo) ∧
      Only [.regs, .mem, .bad, .cores, .clus] s t) ∧
  (∀ (g : GClu) (s : State), s.mayNap g.val = false → exec (.napEntry g) s = .next s) ∧
  (∀ (g : GClu) (s : State), (s.clu g.val).power = 4 →
    ((s.clu g.val).stop = [] →
      ∃ t, exec (.napWakeDone g) s = .next t ∧ t.clu g.val = { s.clu g.val with power := 0 } ∧ (∀ h, h ≠ g.val → t.clu h = s.clu h) ∧
        (∀ k, k < 8 → t.ctxState g.val k = s.ctxState g.val k) ∧ Only [.regs, .clus] s t ∧ OnlyRegs s t [oCtxState g.val, oProgress g.val]) ∧
    (∀ ctr n, (s.clu g.val).stop = [.count ctr n] →
      ∃ t, exec (.napWakeDone g) s = .next t ∧
        (∀ j, SMap.get (t.clu g.val).counters j 0 = if j = ctr then min (SMap.get (s.clu g.val).counters j 0 + n) 0xFFFFFFFF else SMap.get (s.clu g.val).counters j 0) ∧
        (t.clu g.val).power = 0 ∧ (t.clu g.val).stop = [] ∧ (∀ h, h ≠ g.val → t.clu h = s.clu h) ∧ Only [.regs, .clus, .cal] s t) ∧
    (∀ a b, (s.clu g.val).stop = [.write a b] → (s.store a b).2 = none → s.MemoryOk →
      ∃ t, exec (.napWakeDone g) s = .next t ∧ Wrote s t [(a, b)] ∧ t.clu g.val = { s.clu g.val with power := 0, stop := [] } ∧
        (∀ h, h ≠ g.val → t.clu h = s.clu h) ∧ Only [.regs, .mem, .hostMem, .bad, .clus] s t)) ∧
  (∀ (ms : Word) (s : State), s.erasing = true →
    ∃ t, exec (.memoryEraseDone ms) s = .next t ∧ t.erasing = false ∧ t.rf oPwrCtl 8 8 = 0 ∧ t.rf oPwrCtl 7 0 = s.rf oPwrCtl 7 0 ∧
      Only [.regs, .erasing, .cal, .out] s t ∧ OnlyRegs s t [oCalLost, oIntStatus, oPba, oPwrCtl])) ∧
  ((∀ (s : State) (tag : BitVec 32) (q : Taken), Runs s tag 0x0C02 q → rd 0 1 q.payload = 1 → allZero (slice 2 6 q.payload) = true →
    s.job.running = none → s.job.queue = [] → s.reshard = none → s.restore = none →
    ((∃ p, s.job.prog = some p ∧ p.rings.any (fun r => bit r (rd 1 1 q.payload)) = true ∧ (∀ r ∈ p.rings, r < 8)) →
      ∃ t, exec (.pwrState tag) s = .next t ∧ Completed s t q 0x000A 0 [] ∧ Only [.mbx, .regs, .out] s t ∧ OnlyRegs s t ringRegs) ∧
    ((∀ p, s.job.prog = some p ∨ s.job.staged = some p → ∀ r ∈ p.rings, r < 8 → bit r (rd 1 1 q.payload) = false) → s.MemoryOk →
      ∃ t, exec (.pwrState tag) s = .next t ∧ Completed s t q 0 0 [] ∧
        (∀ r, r < 8 → t.rf oPwrStatus (44 + r) (44 + r) = if bit r (rd 1 1 q.payload) then 1 else s.rf oPwrStatus (44 + r) (44 + r)) ∧
        (∀ r, r < 8 → bit r (rd 1 1 q.payload) = true → s.rf oPwrStatus (44 + r) (44 + r) = 0 →
          (∀ n, n < 250 → t.clu (r * 250 + n) = { power := 6 }) ∧
          (∀ c, c / 10000 = r → t.core c = { resErrs := (s.core c).resErrs, testDue := (s.core c).testDue }) ∧
          (∀ o k, regKind o = some k → inRing r o = true → ∀ f ∈ regFields k,
            t.rf o f.hi f.lo = if f.ret = .clu ∨ f.ret = .vol then f.dflt % 2 ^ (f.hi + 1 - f.lo) else s.rf o f.hi f.lo) ∧
          (∀ a, (cluBase + r * 0x40000000 ≤ a ∧ a < cluBase + (r + 1) * 0x40000000) ∨ (coreBase + r * 0x40000000 ≤ a ∧ a < coreBase + (r + 1) * 0x40000000) →
            t.byteAt a = memDflt a)) ∧
        (∀ r, r < 8 → (bit r (rd 1 1 q.payload) = false ∨ s.rf oPwrStatus (44 + r) (44 + r) = 1) →
          (∀ h, h / 250 = r → t.clu h = s.clu h) ∧ (∀ c, c / 10000 = r → t.core c = s.core c) ∧
          (∀ o, inRing r o = true → t.rw o = s.rw o)) ∧
        (∀ a, (∀ r, r < 8 → bit r (rd 1 1 q.payload) = true → s.rf oPwrStatus (44 + r) (44 + r) = 0 →
          ¬ ((cluBase + r * 0x40000000 ≤ a ∧ a < cluBase + (r + 1) * 0x40000000) ∨ (coreBase + r * 0x40000000 ≤ a ∧ a < coreBase + (r + 1) * 0x40000000))) →
          t.byteAt a = s.byteAt a) ∧
        Only [.regs, .mem, .bad, .mbx, .cores, .clus, .cal, .pwr, .out] s t)) ∧
  (∀ (s : State) (tag : BitVec 32) (q : Taken), Runs s tag 0x0C02 q → rd 0 1 q.payload ≤ 2 → (rd 0 1 q.payload = 2 → rd 1 1 q.payload = 0) →
    allZero (slice 2 6 q.payload) = true →
    ((s.job.running.isSome = true ∨ s.job.queue ≠ [] ∨ s.reshard.isSome = true ∨ s.restore.isSome = true) →
      ∃ t, exec (.pwrState tag) s = .next t ∧ Refused s t q 5) ∧
    (s.job.running = none → s.job.queue = [] → s.reshard = none → s.restore = none →
      (rd 0 1 q.payload = 2 → s.mirState ≠ 0 → ∃ t, exec (.pwrState tag) s = .next t ∧ Refused s t q 0x000A) ∧
      (rd 0 1 q.payload = 2 → s.mirState = 0 →
        ∃ t, exec (.pwrState tag) s = .next t ∧ Completed s t q 0 0 [] ∧ t.rf oPwrStatus 54 52 = 1 ∧
          (∀ r, r < 8 → t.rf oPwrStatus (44 + r) (44 + r) = 1) ∧ (∀ g, g < 2000 → t.clu g = { power := 6 }) ∧ (∀ p, p < 2 → t.rf (oBjnPort p) 63 62 = 0) ∧
          Only [.regs, .mem, .bad, .mbx, .cores, .clus, .cal, .pwr, .out] s t) ∧
      (rd 0 1 q.payload = 0 → (∀ r, r < 8 → bit r (rd 1 1 q.payload) = true → s.rf oPwrStatus (44 + r) (44 + r) = 0) →
        ∃ t, exec (.pwrState tag) s = .next t ∧ Completed s t q 0 0 [] ∧ t.clus = s.clus ∧ Only [.regs, .mbx, .pwr, .out] s t ∧ OnlyRegs s t ringRegs) ∧
      (rd 0 1 q.payload = 0 → (∃ r, r < 8 ∧ bit r (rd 1 1 q.payload) = true ∧ s.rf oPwrStatus (44 + r) (44 + r) = 1) →
        ∃ t, exec (.pwrState tag) s = .next t ∧ Started s t tag ∧ t.pwr.wakeTag = some tag ∧ t.pwr.wakeLeft = [] ∧
          (∀ r, r ∈ t.pwr.wakeRings ↔ r < 8 ∧ bit r (rd 1 1 q.payload) = true ∧ s.rf oPwrStatus (44 + r) (44 + r) = 1) ∧ Only [.mbx, .pwr] s t))) ∧
  (∀ (r : RingNo) (s : State), r.val ∈ s.pwr.wakeRings → s.rf oPwrStatus (44 + r.val) (44 + r.val) = 1 →
    ∃ t, exec (.dozeWakeDone (some r)) s = .next t ∧ t.rf oPwrStatus (44 + r.val) (44 + r.val) = 0 ∧
      (∀ n, n < 250 → (t.clu (r.val * 250 + n)).power = if s.cluFenced (r.val * 250 + n) then 0 else 2) ∧
      (∀ g, g / 250 ≠ r.val → t.clu g = s.clu g) ∧ Only [.regs, .mbx, .clus, .cal, .pwr, .out] s t))

/-- Firmware commands (R338, R339, R380, R385, R386, R389, R394, R395): staging collects the image in order and a whole image is verified; FW_ACTIVATE asks
for a verified image; FW_COMMIT writes an activated image to flash, half written until it has been read back, with FLASH_WP# released meanwhile; FW_BOARD writes the board
block; FW_BOOT starts a verified image in Sideshow mode. Whether the running image accepts a handover and what a half-written flash holds are values
the model leaves open (log entry 4), so those ends are told by them.
FW_FETCH (R393): in Sideshow mode it brings the mirror port up and takes the address and the port of the board block into SITE_ID; a refusal, or a port that
has not come up in 30 s, ends it with an error; an image whose frames have been accepted on its stream is verified. -/
def Obligations.FirmwareIsStagedFetchedActivatedAndCommitted : Prop :=
  (∀ (s : State) (tag : BitVec 32) (q : Taken),
    (Runs s tag 0x0201 q → rd 0 8 q.payload = 0 → rd 8 8 q.payload ≤ 12587008 → (q.payload.drop 16).length < rd 8 8 q.payload →
      ∃ t, exec (.fwStage tag) s = .next t ∧ Completed s t q 0 0 [] ∧
        t.fw = { s.fw with verified := none, staging := some { total := rd 8 8 q.payload, data := q.payload.drop 16 } } ∧
        t.fwState = (if s.fwState = 2 then (if s.fw.uncommitted then 4 else 1) else s.fwState) ∧
        t.mem = (if s.fw.side then s.mem else (s.put ddrBase (q.payload.drop 16)).mem) ∧
        Only [.mbx, .regs, .mem, .bad, .out, .fw] s t ∧ OnlyRegs s t ringRegs) ∧
    (∀ g, Runs s tag 0x0201 q → s.fw.staging = some g → rd 0 8 q.payload = g.data.length → g.data ≠ [] → rd 8 8 q.payload = g.total →
      g.total ≤ 12587008 → g.data.length + (q.payload.drop 16).length = g.total →
      ∃ t, exec (.fwStage tag) s = .next t ∧ Completed s t q (s.fwVerify (g.data ++ q.payload.drop 16)) 0 [] ∧ t.fw.staging = none ∧
        (if s.fwVerify (g.data ++ q.payload.drop 16) = 0 then
          t.fw.verified = some (g.data ++ q.payload.drop 16) ∧ t.rf oIntStatus 10 10 = 1 ∧
            (s.fw.side = false → s.fw.commit = none → t.fwState = 2)
         else t.fw.verified = none ∧ t.fwState = s.fwState) ∧
        t.mem = (if s.fw.side then s.mem else (s.put (ddrBase + g.data.length) (q.payload.drop 16)).mem) ∧
        t.fw.running = s.fw.running ∧ Only [.mbx, .regs, .mem, .bad, .out, .fw, .cal] s t ∧ OnlyRegs s t (oCalLost :: ringRegs)) ∧
    (Runs s tag 0x0202 q → s.fw.verified = none →
      ∃ t, exec (.fwActivate tag) s = .next t ∧ Completed s t q 0x0501 0 [] ∧ Only [.mbx, .regs, .out] s t ∧ OnlyRegs s t ringRegs) ∧
    (∀ img, Runs s tag 0x0202 q → s.fw.verified = some img → s.reshard.any (·.started) = true ∨ s.restore.isSome = true ∨ s.fw.commit.isSome = true →
      ∃ t, exec (.fwActivate tag) s = .next t ∧ Completed s t q 5 0 [] ∧ Only [.mbx, .regs, .out] s t ∧ OnlyRegs s t ringRegs) ∧
    (∀ img, Runs s tag 0x0202 q → s.fw.verified = some img → s.reshard.any (·.started) = false → s.restore = none → s.fw.commit = none →
      ∃ t, exec (.fwActivate tag) s = .next t ∧
        (if Config.handoverAccepted s.fw.running img then
          t.fw = { s.fw with activate := some tag, due := s.job.running.isNone } ∧ t.mbx.wait = s.mbx.wait
         else Completed s t q 0x0506 0 [] ∧ t.fw = s.fw) ∧
        Only [.mbx, .regs, .out, .fw] s t ∧ OnlyRegs s t ringRegs) ∧
    (Runs s tag 0x0203 q → s.fwState ≠ 4 →
      ∃ t, exec (.fwCommit tag .start) s = .next t ∧ Completed s t q 0x000A 0 [] ∧ Only [.mbx, .regs, .out] s t ∧ OnlyRegs s t ringRegs) ∧
    (Runs s tag 0x0203 q → s.fwState = 4 →
      ∃ t, exec (.fwCommit tag .start) s = .next t ∧ Started s t tag ∧ t.fwState = 5 ∧ t.fw = { s.fw with commit := some tag, torn := true } ∧
        t.flash = cellsWrite flashDflt s.flash 0 (fit s.fw.running.length (Config.freeBytes s.free s.fw.running.length)) ∧
        EmitsOf Ev.isWp s t (if s.fw.wp then [.pin "FLASH_WP#" 0] else []) ∧
        Only [.mbx, .regs, .out, .flash, .fw, .free] s t ∧ OnlyRegs s t [oMbxStatus]) ∧
    (∀ ok, s.taken? tag = some q → s.fw.commit = some tag →
      ∃ t, exec (.fwCommit tag (.readBack ok)) s = .next t ∧ Completed s t q (if ok then 0 else 0x0507) 0 [] ∧
        t.flash = (if ok then cellsWrite flashDflt s.flash 0 s.fw.running else s.flash) ∧ t.fwState = 1 ∧
        t.fw = { s.fw with commit := none, torn := false, uncommitted := false } ∧
        t.floor = (if ok ∧ bit 0 (rd 6 2 s.fw.running) ∧ s.floor < rd 8 4 s.fw.running then rd 8 4 s.fw.running % 256 else s.floor) ∧
        (ok = true → t.rf oIntStatus 10 10 = 1) ∧ EmitsOf Ev.isWp s t (if s.fw.wp then [.pin "FLASH_WP#" 1] else []) ∧
        Only [.mbx, .regs, .out, .flash, .fw, .cal] s t ∧ OnlyRegs s t ([oCalLost, oSecStatus, oFloor 0, oFloor 1] ++ ringRegs)) ∧
    (∀ n, s.fw.commit = some tag →
      ∃ t, exec (.fwCommit tag (.blown n)) s = .next t ∧ t.flash = cellsWrite flashDflt s.flash 0 s.fw.running ∧
        t.fw = { s.fw with torn := false } ∧
        t.floor = (if bit 0 (rd 6 2 s.fw.running) ∧ s.floor < min n (rd 8 4 s.fw.running) then min n (rd 8 4 s.fw.running) % 256 else s.floor) ∧
        Only [.regs, .flash, .fw] s t ∧ OnlyRegs s t [oSecStatus, oFloor 0, oFloor 1]) ∧
    (Runs s tag 0x0206 q →
      ∃ t, exec (.fwBoard tag) s = .next t ∧ Completed s t q 0 0 [] ∧
        EmitsOf Ev.isWp s t (if s.fw.wp then [.pin "FLASH_WP#" 0, .pin "FLASH_WP#" 1] else []) ∧
        t.flash = cellsWrite flashDflt s.flash 0xD00000 (fit 4096 q.payload) ∧ Only [.mbx, .regs, .out, .flash] s t ∧ OnlyRegs s t ringRegs) ∧
    (∀ img, Runs s tag 0x0204 q → s.fw.side = true → s.fw.verified = some img →
      ∃ t, exec (.fwBoot tag) s = .next t ∧ Completed s t q 0 0 [] ∧ t.fw.running = img ∧ t.fw.starting = true ∧ t.fw.side = false ∧
        t.fw.byHandover = true ∧ t.fwState = 0 ∧ t.rf oSecStatus 55 55 = 0 ∧ t.rf oSecStatus 31 24 = rd 8 4 img % 256 ∧
        Only [.mbx, .regs, .out, .fw] s t ∧ OnlyRegs s t (oSecStatus :: ringRegs))) ∧
  ((∀ (s : State) (tag : BitVec 32) (q : Taken), Runs s tag 0x0205 q → s.fw.side = true → rd 8 1 s.fw.cfg < 8 →
    ∃ t, exec (.fwFetch tag .start) s = .next t ∧ t.fw = { s.fw with fetch := some tag } ∧ t.rf (oPortStatus (rd 8 1 s.fw.cfg)) 63 62 = 1 ∧
      t.rf oSiteId 27 24 = rd 8 1 s.fw.cfg ∧ t.rf oSiteId 19 0 = rd 12 4 s.fw.cfg % 2 ^ 20 ∧
      Started s t tag ∧ Only [.mbx, .regs, .fw] s t ∧
      OnlyRegs s t [oPortStatus (rd 8 1 s.fw.cfg), oSiteId]) ∧
  (∀ (s : State) (tag : BitVec 32) (q : Taken), s.fw.fetch = some tag → s.taken? tag = some q →
    (s.mirrorUp = true → ∃ t, exec (.fwFetch tag .refusedByPartner) s = .next t ∧ Completed s t q 0x0508 0 [] ∧ t.fw = { s.fw with fetch := none } ∧
      Only [.mbx, .regs, .out, .fw] s t ∧ OnlyRegs s t ringRegs) ∧
    (∀ b, s.mirrorUp = true → s.fetched b = true → ∃ t, exec (.fwFetch tag (.image b)) s = .next t ∧ Completed s t q (s.fwVerify b) 0 [] ∧
      t.fw = { s.fw with fetch := none, staging := none, verified := if s.fwVerify b = 0 then some b else none } ∧
      Only [.mbx, .regs, .out, .fw, .cal] s t ∧ OnlyRegs s t (oCalLost :: ringRegs)) ∧
    (s.portUp (rd 8 1 s.fw.cfg) = false →
      ∃ t, exec .fwFetchTimeout s = .next t ∧ Completed s t q 0x0508 0 [] ∧ t.fw = { s.fw with fetch := none } ∧
        Only [.mbx, .regs, .out, .fw] s t ∧ OnlyRegs s t ringRegs)))

/-- Boot, handover and the start of an image (R337, R386, R391, R394, R478, R479): the ROM's checks in order, the signature's among them, give the reason of Sideshow mode or the release of the image in flash; a half-written image fails, with a reason the
model leaves open (log entry 4); HANDOVER enters its state at a boundary; the image that
declares itself started sets READY, unless the DIMMs break the rules of R478. -/
def Obligations.BootReleasesAnImageOrEntersSideshow : Prop :=
  (∀ (env : BootEnv) (s : State) (img : Bytes) (why : Nat), s.fw.up = false → s.fw.side = false → s.fw.starting = false → s.fw.running = [] →
    s.inReset = false →
    img = (if fwHeaderOk (cellsReadN flashDflt s.flash 0 4096) then
        cellsReadN flashDflt s.flash 0 (4096 + rd 16 8 (cellsReadN flashDflt s.flash 0 4096)) else cellsReadN flashDflt s.flash 0 4096) →
    why = (if env.entropyOk = false then 6
      else if s.fw.torn = true then (if (Config.freeValue s.free).toNat % 2 = 0 then 1 else 4)
      else if fwHeaderOk (cellsReadN flashDflt s.flash 0 4096) = false then 1
      else if s.keySlotOf img = none then 2
      else if rd 8 4 img < s.floor then 3
      else if env.readOk = false then 1
      else if s.fwCheck img ≠ none then 4
      else if 3 ≤ s.rf oBootAttempts 63 56 then 5
      else if (dimmFault env.dimms).isSome = true then 7
      else 0) →
    ∃ t, exec (.boot env) s = .next t ∧ t.keys = { s.keys with kem := some s.keys.kemCount, kemCount := s.keys.kemCount + 1, identity := true } ∧
      t.rf oSecStatus 63 56 = why ∧
      (why ≠ 0 → t.fw.side = true ∧ t.fw.up = false) ∧
      (why = 0 → t.fw.side = false ∧ t.fw.starting = true ∧ t.fw.running = img ∧ t.fwState = 0) ∧
      (why ∈ [0, 5, 7] → t.fw.bootDigest = fwDigest img) ∧ t.ddrBytes = dimmBytes env.dimms ∧ t.dimms = env.dimms ∧
      t.fw.cfg = (boardBlock s.flash).1 ∧ t.fw.wp = env.wpEn ∧ t.rf oCxlHdm 57 48 = t.hdmGib ∧
      t.rw oCommitStep = s.rw oCommitStep ∧ Only [.regs, .ddrBytes, .dimms, .fabric, .fw, .keys, .cal, .i3c, .free, .out] s t) ∧
  (∀ s : State, s.fw.activate.isSome = true → s.fw.due = true ∨ s.job.running = none → s.fwState ≠ 3 →
    (s.job.prog.any (·.gen) = true → s.job.running = none) →
    (s.job.prog.any (·.gen) = false → s.job.running.isSome = true ∨ s.job.queue = []) →
    ∃ t, exec .handover s = .next t ∧ t.fwState = 3 ∧ t.fw = { s.fw with byHandover := true, atStep := s.rw oCommitStep } ∧
      Only [.regs, .fw] s t ∧ OnlyRegs s t [oMbxStatus]) ∧
  (∀ (img : Bytes) (tag : BitVec 32) (q : Taken) (s : State), s.fwState = 3 → s.fw.verified = some img → s.fw.activate = some tag →
    s.taken? tag = some q →
    ∃ t, exec .imageReady s = .next t ∧ Completed s t q 0 0 (le 8 s.fw.atStep.toNat) ∧ t.fwState = 4 ∧ t.rf oMbxStatus 59 59 = 1 ∧
      t.fw.running = img ∧ t.fw.up = true ∧ t.fw.verified = none ∧ t.fw.activate = none ∧ t.fw.due = false ∧ t.fw.uncommitted = true ∧
      t.fw.activations = s.fw.activations + 1 ∧ t.rf oIntStatus 10 10 = 1 ∧
      Only [.mbx, .regs, .out, .fw, .cal] s t) ∧
  (∀ s : State, s.fwState ≠ 3 → s.fw.starting = true →
    (dimmFault s.dimms = none →
      ∃ t, exec .imageReady s = .next t ∧ t.fw.starting = false ∧ t.fw.up = true ∧ t.fwState = (if s.fw.byHandover then 4 else 1) ∧
        t.fw.uncommitted = s.fw.byHandover ∧
        t.rf oMbxStatus 59 59 = 1 ∧ t.fw.running = s.fw.running ∧ (s.eraseDue = true → t.erasing = true) ∧ t.mbx = s.mbx) ∧
    (∀ c, dimmFault s.dimms = some c →
      ∃ t, exec .imageReady s = .next t ∧ t.fw.starting = false ∧ t.fw.up = false ∧ t.fw.side = true ∧ t.rf oSecStatus 63 56 = 7 ∧ t.mbx = s.mbx))

/-- The elementwise operations, the exact sums, gather and scatter (R44, R47, R64, R65, R154 to R157): a descriptor whose operands can be read and whose
results can be written reads them all, then writes each result where it belongs and retires; every other byte of memory stays. The residue mismatch of an
engine writes nothing and stops the context (R396). A byte after VGATHER's copies (R157): an index below the bound takes the element it names, another +0. -/
def Obligations.VectorEnginesWriteTheirResults : Prop :=
  (∀ (g : GClu) (eng : Fin 2) (k : Nat) (it : QItem) (rest : List QItem) (s : State), AtHead s g (40 + eng) k it rest → s.MemoryOk →
    ∀ d n, d = vDesc it.words → n = d.rows * d.count →
    (∀ a b c out, dOp it.words = 0x10 → s.cluElems g d.a d.afmt n = .ok a →
      (d.op ≠ 6 → s.cluElems g d.b d.bfmt (if d.bcast then 1 else n) = .ok b) → (d.op = 3 → s.cluElems g d.c d.dfmt n = .ok c) →
      out = a.zipIdx.map (fun x => elemOp d.op (vFmt d.dfmt) d.rmode (s.vDraw d x.2) (decodeF (vFmt d.afmt) x.1)
        (decodeF (vFmt d.bfmt) (b.getD (if d.bcast then 0 else x.2) 0)) (decodeF (vFmt d.dfmt) (c.getD x.2 0))) →
      (s.cluStore g d.dst (vPack d.dfmt out)).2 = none →
      ∃ t, exec (.velem g eng {}) s = .next t ∧
        VecRan s t g (40 + eng) k it rest { ctx := k, tag := d.tag, status := vStatus out } [(d.dst, vPack d.dfmt out)]) ∧
    (∀ a b sums, dOp it.words = 0x11 → s.cluElems g d.a d.afmt n = .ok a →
      (d.op = 2 → s.cluElems g d.b d.bfmt (if d.bcast then 1 else n) = .ok b) →
      sums = (List.range d.rows).map (fun r => Acc.sum ((List.range d.count).map (fun i =>
        sumTerm d.op (decodeF (vFmt d.afmt) (a.getD (r * d.count + i) 0))
          (decodeF (vFmt d.bfmt) (b.getD (if d.bcast then 0 else r * d.count + i) 0))))) →
      (d.dfmt = 3 → (s.cluStore g d.dst (sums.flatMap lx32Bytes)).2 = none →
        ∃ t, exec (.vsum g eng {}) s = .next t ∧
          VecRan s t g (40 + eng) k it rest { ctx := k, tag := d.tag } [(d.dst, sums.flatMap lx32Bytes)]) ∧
      (∀ out, d.dfmt ≠ 3 → out = sums.zipIdx.map (fun x => roundAcc (vFmt d.dfmt) d.rmode (s.vDraw d x.2) u32e (s.scaleSel d.scale) x.1) →
        (s.cluStore g d.dst (vPack d.dfmt out)).2 = none →
        ∃ t, exec (.vsum g eng {}) s = .next t ∧
          VecRan s t g (40 + eng) k it rest { ctx := k, tag := d.tag, status := vStatus out } [(d.dst, vPack d.dfmt out)])) ∧
    (∀ ib idx, s.cluLoad g d.b (4 * (if d.bcast then 1 else n)) = .ok ib →
      idx = (if d.bcast then List.replicate n ((elemsLE 4 ib).headD 0) else elemsLE 4 ib) →
      (∀ b, dOp it.words = 0x12 → s.gatherElems g d idx = .ok b → (s.cluStore g d.dst b).2 = none →
        ∃ t, exec (.vgather g eng {}) s = .next t ∧
          VecRan s t g (40 + eng) k it rest { ctx := k, tag := d.tag, oob := idx.any (fun i => decide (d.p0 ≤ i)) } [(d.dst, b)]) ∧
      (∀ a live, dOp it.words = 0x13 → s.cluElems g d.a d.afmt n = .ok a → live = (idx.zip a).filter (fun p => decide (p.1 < d.p0)) →
        (∀ ws, d.op = 0 → ws = live.map (fun p => (d.dst + p.1 * vBytes d.afmt, le (vBytes d.afmt) p.2)) →
          (∀ w ∈ ws, (s.cluStore g w.1 w.2).2 = none) →
          ∃ t, exec (.vscatter g eng {}) s = .next t ∧
            VecRan s t g (40 + eng) k it rest { ctx := k, tag := d.tag, oob := idx.any (fun i => decide (d.p0 ≤ i)) } ws) ∧
        (∀ slots ws, d.op ≠ 0 → s.readSlots g d.dst ((live.map (·.1)).eraseDups) = .ok slots → slots.all (fun x => lx32Ok x.2) = true →
          ws = slots.map (fun x => (d.dst + 80 * x.1, lx32Bytes ((live.filter (fun p => p.1 == x.1)).foldl
            (fun m p => m.merge (valContrib (decodeF (vFmt d.afmt) p.2))) (lx32Of x.2)))) →
          (∀ w ∈ ws, (s.cluStore g w.1 w.2).2 = none) →
          ∃ t, exec (.vscatter g eng {}) s = .next t ∧
            VecRan s t g (40 + eng) k it rest { ctx := k, tag := d.tag, oob := idx.any (fun i => decide (d.p0 ≤ i)) } ws))) ∧
    (∀ c, (c, dOp it.words) ∈ [(Instr.velem g eng { residue := true }, 0x10), (.vsum g eng { residue := true }, 0x11), (.vgather g eng { residue := true }, 0x12),
        (.vscatter g eng { residue := true }, 0x13), (.vsoftmax g eng { residue := true }, 0x14)] → k < 8 → s.job.running = none →
      ∃ t, exec c s = .next t ∧ Halted t g k ∧ t.mem = s.mem ∧ t.rf oIntStatus 7 7 = 1 ∧ Only [.regs, .clus, .cal, .out] s t)) ∧
  (∀ (s : State) (g : Nat) (d : VDesc) (idx : List Nat) (b : Bytes), s.gatherElems g d idx = .ok b →
    b.length = idx.length * vBytes d.afmt ∧
    ∀ i, (h : i < idx.length) →
      slice (i * vBytes d.afmt) (vBytes d.afmt) b =
        if d.p0 ≤ idx[i] then zeros (vBytes d.afmt) else s.peek (d.a + idx[i] * vBytes d.afmt) (vBytes d.afmt))

/-- Softmax rows, the attention block step and its merge, and the special functions (R50, R66 to R68, R158, R159, R161, R489): each descriptor writes its
rounded results and retires; a block step whose row crosses a boundary of KV_BLOCK tokens is a context error. -/
def Obligations.SoftmaxAttentionAndSfuWriteTheirResults : Prop :=
  (∀ (g : GClu) (eng : Fin 2) (k : Nat) (it : QItem) (rest : List QItem) (s : State), AtHead s g (40 + eng) k it rest → s.MemoryOk →
    ∀ d, d = vDesc it.words →
    (∀ a out, dOp it.words = 0x14 → s.cluElems g d.a d.afmt (d.rows * d.count) = .ok a →
      out = (List.range d.rows).flatMap (fun r => softmaxRow (vFmt d.dfmt) d.rmode (fun i => s.vDraw d (r * d.count + i))
        (((a.map (decodeF (vFmt d.afmt))).drop (r * d.count)).take d.count)) →
      (s.cluStore g d.dst (vPack d.dfmt out)).2 = none →
      ∃ t, exec (.vsoftmax g eng {}) s = .next t ∧
        VecRan s t g (40 + eng) k it rest { ctx := k, tag := d.tag, status := vStatus out } [(d.dst, vPack d.dfmt out)]) ∧
    (∀ a kvb rows, dOp it.words = 0x15 → fld it.words 0 47 40 = 0 →
      kvb = (match s.job.prog with | some p => max p.kvb 1 | none => 1) →
      s.cluElems g d.a d.afmt (d.rows * d.count) = .ok a →
      rows = (List.range d.rows).map (fun r =>
        (attnRow ((((a.map (decodeF (vFmt d.afmt))).drop (r * d.count)).take (min d.count (d.p1 + r + 1 - d.p0)))),
          d.count - min d.count (d.p1 + r + 1 - d.p0))) →
      (d.p0 / kvb ≠ (d.p0 + d.count - 1) / kvb → k < 8 → s.job.running = none →
        ∃ t, exec (.vattnBlock g eng {}) s = .next t ∧ Halted t g k ∧ t.mem = s.mem ∧ t.rf oIntStatus 7 7 = 1 ∧
          Only [.regs, .clus, .cal, .out] s t) ∧
      (∀ ps parts ws, d.p0 / kvb = (d.p0 + d.count - 1) / kvb →
        ps = rows.flatMap (fun o => o.1.1 ++ List.replicate o.2 (⟨0, 0⟩ : Rounded)) →
        parts = rows.flatMap (fun o => le 4 o.1.2.1.x ++ le 4 o.1.2.2.x) →
        ws = [(d.dst, vPack 0 ps), (d.c, parts)] → (∀ w ∈ ws, (s.cluStore g w.1 w.2).2 = none) →
        ∃ t r, exec (.vattnBlock g eng {}) s = .next t ∧ r.ctx = k ∧ r.tag = d.tag ∧ VecRan s t g (40 + eng) k it rest r ws)) ∧
    (∀ a b out, dOp it.words = 0x15 → fld it.words 0 47 40 = 1 → s.cluElems g d.a 0 (2 * d.rows * d.count) = .ok a →
      s.cluElems g d.b 0 (d.rows * d.count * d.p0) = .ok b →
      out = (List.range d.rows).flatMap (fun r => mergeRow (vFmt d.dfmt) d.rmode (fun j => s.vDraw d (r * d.p0 + j))
        (fun j => rd (4 * (r * d.p0 + j)) 4 (Config.freeBytes s.free (4 * d.rows * d.p0)))
        ((List.range d.count).map (fun i => (a.getD (2 * (r * d.count + i)) 0, a.getD (2 * (r * d.count + i) + 1) 0))) d.p0
        (fun i j => b.getD ((r * d.count + i) * d.p0 + j) 0)) →
      (s.cluStore g d.dst (vPack d.dfmt out)).2 = none →
      ∃ t, exec (.vattnMerge g eng {}) s = .next t ∧
        VecRan s t g (40 + eng) k it rest { ctx := k, tag := d.tag, status := vStatus out } [(d.dst, vPack d.dfmt out)])) ∧
  (∀ (g : GClu) (k : Nat) (it : QItem) (rest : List QItem) (s : State), AtHead s g 42 k it rest → s.MemoryOk → dOp it.words = 0x20 →
    ∀ d a out, d = vDesc it.words → s.cluElems g d.a d.afmt (d.rows * d.count) = .ok a →
      out = a.map (sfu (vFmt d.afmt) (vFmt d.dfmt) (sfuFn (fld it.words 0 43 40))) → (s.cluStore g d.dst (vPack d.dfmt out)).2 = none →
      ∃ t, exec (.sfuDescriptor g {}) s = .next t ∧
        VecRan s t g 42 k it rest { ctx := k, tag := d.tag, status := vStatus out } [(d.dst, vPack d.dfmt out)])

/-- MPASS and MOUT (R44, R70 to R76, R80 to R85, R88, R89, R101, R104): a pass keeps the flags of its slots and merges every exact sum for a slot into it, those
of several users too, the old contents counting as cleared where ACC_INIT is set; MOUT writes its slots' elements in the output format and clears them where it is told to; a residue error in a core stops the context and
voids its slots. MSPILL, MRESUME and MCLEAR (R43, R90, R96, R98, R104): a save area holds the context's slots and front set with its check; the slots that
the descriptor names and the area holds (assumption 53) are restored only from an area that passes every check, and the context otherwise stops; MCLEAR returns slots to the cleared state. -/
def Obligations.MatrixCoresAccumulateSaveAndWriteOut : Prop :=
  (∀ (c : GCore) (k : Nat) (it : QItem) (rest : List QItem) (s : State), AtHead s (c / 40) (c % 40) k it rest → s.MemoryOk →
    s.badIn (coreAddr c 0x8000) 0x6000 = [] → ∀ ws, ws = it.words →
    (∀ mode u wide slots fronts r, dOp ws = 1 → mode = fld ws 0 31 30 →
      u = s.setCore c (if (s.core c).mode = some mode then s.core c else { s.core c with mode := some mode, front := none, back := none }) →
      wide = (decide (mode = 0) && (decide (fld ws 0 29 28 = 1) || decide (fld ws 0 27 26 = 1))) → slots = passSlots ws →
      (∀ i ∈ slots, slotOff wide i + slotBytes wide ≤ 0x6000) →
      u.stationary c k ws = .ok fronts →
      r = u.stream c (fld ws 0 27 26) (fld ws 2 47 0) (fld ws 2 55 48)
        ((if mode = 1 then 64 else if fld ws 0 29 28 = 1 ∨ fld ws 0 27 26 = 1 then 8 else 16) * fld ws 3 47 32) →
      r.err = none → r.dmg = none →
      (∀ start new, start = slots.map (fun i => if fld ws 0 35 35 = 1 then ({} : Acc) else accOf wide (s.slotGet c wide i)) →
        new = List.zipWith (fun i a => a.merge (Acc.sum (((slots.zip (passSums ws r.elems fronts)).filter (fun p => p.1 == i)).map (·.2)))) slots start →
        (fld ws 0 35 35 = 1 ∨ slots.all (fun i => slotOk wide (s.slotGet c wide i)) = true) →
        ∃ t e x, exec (.mpass c none) s = .next t ∧ x.lastTag = BitVec.ofNat 16 (dTag ws) ∧ x.mode = some mode ∧
          (fld ws 0 34 34 = 0 → x.back = (u.core c).front ∧
            x.front = some { ctx := k, mode := mode, sfmt := fld ws 0 29 28, vals := (fronts.getLastD []).map (BitVec.ofNat 32) }) ∧
          (fld ws 0 34 34 = 1 → x.front = (s.core c).front ∧ x.back = (s.core c).back) ∧ x.saved = (s.core c).saved ∧ x.void = (s.core c).void ∧
          x.snapshot = start.map (fun a => BitVec.ofNat 4 a.flagBits) ∧
          CoreRan s t c k it rest { ctx := k, tag := dTag ws, extra := e } x
            ((slots.zip new).map (fun p => (coreAddr c 0x8000 + slotOff wide p.1, slotOfAcc wide p.2)))) ∧
      (∀ f : CircuitFault, k < 8 → s.job.running = none →
        ∃ t, exec (.mpass c (some (.residue f))) s = .next t ∧ Halted t (c / 40) k ∧ t.rf oIntStatus 7 7 = 1 ∧
          (t.core c).void = (s.core c).void ++ [k] ∧ (t.core c).resErrs = (s.core c).resErrs + 1 ∧ (t.core c).back = none ∧
          (∀ d, d ≠ c.val → t.core d = s.core d) ∧ (0 < (s.core c).resErrs → t.rf (oCoreFence (c / 40)) (c % 40) (c % 40) = 1) ∧
          ((s.core c).resErrs = 0 → (t.core c).testDue = true ∧
            (∀ x, x < coreAddr c 0x8000 ∨ coreAddr c 0xE000 ≤ x → t.byteAt x = s.byteAt x) ∧
            Only [.regs, .mem, .bad, .cores, .clus, .cal, .free, .out] s t))) ∧
    (∀ h, dOp ws ∈ [2, 3, 4] → s.napping (fld ws 1 47 0) = some h → (s.clu h).power = 3 → s.cluFenced h = false →
      ∀ x ∈ [Instr.mout c, .mspill c, .mresume c], ∃ t, exec x s = .next t ∧ Asks s t h) ∧
    (∀ cells wide raw ofmt dst items elems writes lxp, dOp ws = 2 → s.napping (fld ws 1 47 0) = none → cells = moutCells ws → wide = (fld ws 0 28 28 == 1) →
      s.anyVoid c wide (cells.map (·.2.2)) = false → raw = cells.map (fun x => s.slotGet c wide x.2.2) → raw.all (slotOk wide) = true →
      (∀ x ∈ cells, slotOff wide x.2.2 + slotBytes wide ≤ 0x6000) →
      ofmt = fld ws 0 35 32 → dst = fld ws 1 47 0 →
      items = (cells.zip raw).map (fun p => (p.1.1 * fld ws 4 47 0 + p.1.2.1, p.2)) →
      elems = items.map (fun i => s.moutElem ws ((fld ws 2 47 0 + i.1) % 2 ^ 48) (accOf wide i.2)) →
      lxp = lxpRuns (fld ws 2 63 48) (match s.job.prog with | some p => p.epoch | none => 0)
        (items.map (fun i => ((fld ws 2 47 0 + i.1) % 2 ^ 48, accOf wide i.2))) 0 [] →
      writes = (if ofmt = 0 then List.zipWith (fun i r => (dst + i.1 * 2, le 2 r.x)) items elems
        else if ofmt = 1 then List.zipWith (fun i r => (dst + i.1 * 4, le 4 r.x)) items elems
        else if ofmt = 2 then items.map (fun i => (dst + i.1 * 16, i.2))
        else if ofmt = 3 then [(dst, lxp)]
        else items.map (fun i => (dst + i.1 * 80, if wide then i.2 else lx32Bytes (accOf false i.2).widen))) →
      (∀ w ∈ writes, (s.store w.1 w.2).2 = none) →
      ∃ t r, exec (.mout c) s = .next t ∧ r.ctx = k ∧ r.tag = dTag ws ∧ (ofmt < 2 → r.status = vStatus elems) ∧ (2 ≤ ofmt → r.status = 0) ∧
        r.bytes = (if ofmt = 3 then lxp.length else 0) ∧
        CoreRan s t c k it rest r { s.core c with lastTag := BitVec.ofNat 16 (dTag ws) }
          (writes ++ if fld ws 0 36 36 = 1 then
            cells.map (fun x => (coreAddr c 0x8000 + slotOff wide x.2.2, slotOfAcc wide {})) else []))) ∧
  (∀ (c : GCore) (k : Nat) (it : QItem) (rest : List QItem) (s : State), AtHead s (c / 40) (c % 40) k it rest → s.MemoryOk →
    s.badIn (coreAddr c 0x8000) 0x6000 = [] → ∀ ws wide first n, ws = it.words → wide = s.lxOf (c / 40) k → first = fld ws 3 31 16 →
    n = fld ws 3 47 32 →
    (dOp ws = 3 → s.napping (fld ws 1 47 0) = none → s.anyVoid c wide ((List.range n).map (first + ·)) = false →
      s.slotErr c wide ((List.range n).map (first + ·)) = none → s.rangeOk c first n wide = true →
      (s.store (fld ws 1 47 0) (s.saveArea c k first n wide)).2 = none →
      ∃ t, exec (.mspill c) s = .next t ∧
        CoreRan s t c k it rest { ctx := k, tag := dTag ws } { s.core c with lastTag := BitVec.ofNat 16 (dTag ws), back := none }
          [(fld ws 1 47 0, s.saveArea c k first n wide)]) ∧
    (∀ b, dOp ws = 4 → s.napping (fld ws 1 47 0) = none → s.readArea (fld ws 1 47 0) wide = .ok b →
      (areaOk c k wide b = true → slotOff wide (first + n) ≤ 0x6000 →
        ∃ t, exec (.mresume c) s = .next t ∧
          CoreRan s t c k it rest { ctx := k, tag := dTag ws }
            { s.core c with
              lastTag := BitVec.ofNat 16 (dTag ws), mode := some (rd 7 1 b % 4), back := none,
              front := if bit 4 (rd 7 1 b) then some (frontOf k (rd 7 1 b % 4) (b2n (bit 5 (rd 7 1 b))) (slice 0x40 128 b)) else none }
            (((List.range (rd 14 2 b)).filter (fun i => decide (first ≤ rd 12 2 b + i ∧ rd 12 2 b + i < first + n))).map (fun i =>
              (coreAddr c 0x8000 + slotOff wide (rd 12 2 b + i), slice (0xC0 + slotOff wide i) (slotBytes wide) b)))) ∧
      (areaOk c k wide b = false → k < 8 → s.job.running = none →
        ∃ t, exec (.mresume c) s = .next t ∧ Halted t (c / 40) k ∧ t.rf oIntStatus 7 7 = 1 ∧ t.bad = s.bad ∧
          Only [.regs, .bad, .clus, .cal, .out] s t)) ∧
    (dOp ws = 5 → (∀ i, i < n → slotOff wide (first + i) + slotBytes wide ≤ 0x6000) →
      ∃ t, exec (.mclear c) s = .next t ∧
        CoreRan s t c k it rest { ctx := k, tag := dTag ws } { s.core c with lastTag := BitVec.ofNat 16 (dTag ws) }
          ((List.range n).map (fun i => (coreAddr c 0x8000 + slotOff wide (first + i), slotOfAcc wide {})))))

/-- Control descriptors (R147, R148, R151, R153): DISPATCH hands the next entries in order to a unit, the last with its signal; WAIT holds until its counter
has reached VALUE and all that was dispatched has retired; SIGNAL adds; LOOP jumps back TIMES times; END ends the context; an add over the Midway waits at a
cluster in nap. The switch of contexts (R96, R97, R149): a unit whose context has nothing ready serves the next context in ascending order that has; a core
saves the context that has run on it in the step and whose range overlaps the incoming one's, and restores the incoming one where it was saved; its back set goes. -/
def Obligations.ContextsRunTheirListsAndUnitsSwitch : Prop :=
  ((∀ (g : GClu) (k : CtxNo) (s : State) (c : Ctx) (b : Bytes) (ws : List Word), AtEntry s g k c b → ws = mkWords b →
    (∀ n es, dOp ws = 0x40 → n = fld ws 0 39 32 → s.fetchN n (c.pos + 64) = .ok es →
      ∃ t, exec (.dispatch g k) s = .next t ∧ GoesOn s t g k c (c.pos + 64 * (n + 1)) ∧
        (∀ j, SMap.get (t.clu g).queues j [] = if j = fld ws 0 47 40 * 8 + k then
            SMap.get (s.clu g).queues j [] ++ (es.zipIdx.map (fun e => QItem.mk e.1.1 e.1.2
              (if fld ws 0 31 31 = 1 ∧ e.2 + 1 = n then some (fld ws 1 47 32, fld ws 0 28 24, fld ws 1 31 0) else none)
              ((s.clu g).sent + e.2)))
          else SMap.get (s.clu g).queues j []) ∧
        (t.clu g).counters = (s.clu g).counters ∧ (fld ws 0 47 40 < 40 → (t.core (g * 40 + fld ws 0 47 40)).gated = false) ∧
        Only [.regs, .bad, .clus, .cores] s t ∧ OnlyRegs s t ([oCtxState g, oProgress g] ++ s.eccRegs)) ∧
    (dOp ws = 0x41 → (fld ws 1 31 0 ≤ SMap.get (s.clu g).counters (fld ws 0 28 24) 0 ∧ s.drained g k = true) →
      ∃ t, exec (.wait g k) s = .next t ∧ GoesOn s t g k c (c.pos + 64) ∧ SameWork s t g ∧ Only [.regs, .bad, .clus] s t ∧
        OnlyRegs s t ([oCtxState g, oProgress g] ++ s.eccRegs)) ∧
    (dOp ws = 0x41 → ¬(fld ws 1 31 0 ≤ SMap.get (s.clu g).counters (fld ws 0 28 24) 0 ∧ s.drained g k = true) →
      ∃ t, exec (.wait g k) s = .next t ∧ t.ctxState g k = (if fld ws 0 23 23 = 1 then 3 else 2) ∧ Only [.regs, .bad] s t ∧
        OnlyRegs s t (oCtxState g :: s.eccRegs)) ∧
    (∀ cl ctr add, dOp ws = 0x42 → s.drained g k = true → cl = fld ws 1 47 32 → ctr = fld ws 0 28 24 → add = fld ws 1 31 0 →
      ∃ t, exec (.signal g k) s = .next t ∧ GoesOn s t g k c (c.pos + 64) ∧ (t.clu g).queues = (s.clu g).queues ∧
        (cl = g ∨ cl = 0xFFFF → ∀ j, SMap.get (t.clu g).counters j 0 =
          if j = ctr then min (SMap.get (s.clu g).counters j 0 + add) 0xFFFFFFFF else SMap.get (s.clu g).counters j 0) ∧
        (cl ≠ g → cl ≠ 0xFFFF → (t.clu g).counters = (s.clu g).counters ∧ Emits s t [.counter cl ctr add]) ∧
        Only [.regs, .bad, .clus, .cal, .out] s t ∧ OnlyRegs s t ([oCtxState g, oProgress g, oCalLost] ++ s.eccRegs)) ∧
    (∀ left, dOp ws = 0x44 → left = SMap.get c.loops c.pos (fld ws 1 31 0) →
      ∃ t, exec (.loop g k) s = .next t ∧
        GoesOn s t g k { c with loops := if left = 0 then SMap.erase c.loops c.pos else SMap.set c.loops c.pos (left - 1) }
          (if left = 0 then c.pos + 64 else c.pos - 64 * fld ws 0 47 32) ∧
        SameWork s t g ∧ Only [.regs, .bad, .clus] s t ∧ OnlyRegs s t ([oCtxState g, oProgress g] ++ s.eccRegs)) ∧
    (dOp ws = 0x45 →
      ∃ t, exec (.endCtx g k) s = .next t ∧ t.ctxState g k = 4 ∧ (∀ j, j < 8 → j ≠ k → t.ctxState g j = s.ctxState g j) ∧
        SMap.get? (t.clu g).ctxs k = some { c with pos := c.pos + 64 } ∧ t.rf (oProgress g) 47 0 = (s.rf (oProgress g) 47 0 + 1) % 2 ^ 48 ∧
        SameWork s t g ∧ Only [.regs, .bad, .clus] s t ∧ OnlyRegs s t ([oCtxState g, oProgress g] ++ s.eccRegs)) ∧
    (∀ e : CtxE, dOp ws = 0x43 → s.drained g k = true → s.ctxE? g k = some e →
      (∀ i, i < 40 → bit i e.cores = true → k.val ∉ (s.core (g * 40 + i)).saved ∧ s.slotErr (g * 40 + i) e.lx32 e.range = none ∧
        s.rangeOk (g * 40 + i) e.firstSlot e.slots e.lx32 = true ∧
        (s.store (fld ws 1 47 0 + i * 0x60C0) (s.saveArea (g * 40 + i) k e.firstSlot e.slots e.lx32)).2 = none ∧
        ∀ j, j < 40 → coreAddr (g * 40 + j) 0x10000 ≤ fld ws 1 47 0 ∨ fld ws 1 47 0 + 40 * 0x60C0 ≤ coreAddr (g * 40 + j) 0) → s.MemoryOk →
      e.firstSlot + e.slots ≤ (if e.lx32 then 307 else 1536) →
      ∃ t, exec (.checkpoint g k) s = .next t ∧ GoesOn s t g k c (c.pos + 64) ∧ SameWork s t g ∧
        t.rf (oCkpt g k) 47 0 = (c.pos + 64) % 2 ^ 48 ∧
        Wrote s t (((List.range 40).filter (fun i => bit i e.cores)).map (fun i =>
          (fld ws 1 47 0 + i * 0x60C0, s.saveArea (g * 40 + i) k e.firstSlot e.slots e.lx32))) ∧
        Only [.regs, .mem, .hostMem, .bad, .clus] s t ∧ OnlyRegs s t ([oCtxState g, oProgress g, oCkpt g k] ++ s.eccRegs))) ∧
  (∀ (g : GClu) (ctr : Fin 32) (add : BitVec 32) (s : State), s.cluFenced g = false →
    ((s.clu g).power ≤ 2 →
      ∃ t, exec (.counterAdd g ctr add) s = .next t ∧
        (∀ j, SMap.get (t.clu g).counters j 0 =
          if j = ctr then min (SMap.get (s.clu g).counters j 0 + add.toNat) 0xFFFFFFFF else SMap.get (s.clu g).counters j 0) ∧
        (t.clu g).queues = (s.clu g).queues ∧ (t.clu g).ctxs = (s.clu g).ctxs ∧ (∀ h, h ≠ g.val → t.clu h = s.clu h) ∧
        (SMap.get (s.clu g).counters ctr 0 + add.toNat ≤ 0xFFFFFFFF → Only [.clus] s t) ∧ Only [.regs, .clus, .cal] s t ∧
        OnlyRegs s t [oCalLost]) ∧
    ((s.clu g).power ∈ [3, 4, 5] → ∃ t, exec (.counterAdd g ctr add) s = .next t ∧ Waits s t g (.count ctr add.toNat)))) ∧
  (∀ (g : GClu) (u : Fin 44) (s : State) (k0 k1 : Nat) (ready : Nat → Bool), s.hang = none → s.runs g = true →
    (∀ k, ready k = (!(SMap.get (s.clu g).queues (u.val * 8 + k) []).isEmpty && s.ctxState g k != 5)) →
    SMap.get? (s.clu g).serving u = some k0 → ready k0 = false → ((List.range 8).map (fun i => (k0 + 1 + i) % 8)).find? ready = some k1 →
    (40 ≤ u.val →
      ∃ t, exec (.contextSwitch g u) s = .next t ∧ t.clu g = { s.clu g with serving := SMap.set (s.clu g).serving u k1 } ∧
        (∀ h, h ≠ g.val → t.clu h = s.clu h) ∧ Only [.clus] s t) ∧
    (∀ c live gone e1, u.val < 40 → c = g.val * 40 + u.val → s.ctxE? g k1 = some e1 →
      live = (if (s.core c).live.contains k0 then (s.core c).live else (s.core c).live ++ [k0]) →
      gone = live.filter (fun k => k != k1 && !(s.core c).saved.contains k && !(s.core c).void.contains k &&
        (match s.ctxE? g k with | some e => overlap e e1 && decide (0 < e.slots) | none => false)) →
      (gone = [] → k1 ∉ (s.core c).saved →
        ∃ t, exec (.contextSwitch g u) s = .next t ∧ t.clu g = { s.clu g with serving := SMap.set (s.clu g).serving u k1 } ∧
          t.core c = { s.core c with back := none, live := live } ∧ (∀ d, d ≠ c → t.core d = s.core d) ∧ (∀ h, h ≠ g.val → t.clu h = s.clu h) ∧
          Only [.clus, .cores] s t) ∧
      (∀ kv ev, gone = [kv] → s.ctxE? g kv = some ev → k1 ∉ (s.core c).saved → s.MemoryOk → s.slotErr c ev.lx32 ev.range = none →
        s.rangeOk c ev.firstSlot ev.slots ev.lx32 = true →
        (s.store (ev.save + u.val * 0x60C0) (s.saveArea c kv ev.firstSlot ev.slots ev.lx32)).2 = none →
        ∃ t, exec (.contextSwitch g u) s = .next t ∧ t.clu g = { s.clu g with serving := SMap.set (s.clu g).serving u k1 } ∧
          t.core c = { s.core c with back := none, live := live, saved := (s.core c).saved ++ [kv] } ∧
          Wrote s t [(ev.save + u.val * 0x60C0, s.saveArea c kv ev.firstSlot ev.slots ev.lx32)] ∧ (∀ d, d ≠ c → t.core d = s.core d) ∧
          Only [.clus, .cores, .mem, .hostMem, .bad] s t) ∧
      (∀ b, gone = [] → k1 ∈ (s.core c).saved → slotOff e1.lx32 (e1.firstSlot + e1.slots) ≤ 0x6000 → s.MemoryOk → s.badIn (coreAddr c 0x8000) 0x6000 = [] →
        s.readArea (e1.save + u.val * 0x60C0) e1.lx32 = .ok b → areaOk c k1 e1.lx32 b = true →
        ∃ t, exec (.contextSwitch g u) s = .next t ∧ t.clu g = { s.clu g with serving := SMap.set (s.clu g).serving u k1 } ∧
          (t.core c).saved = (s.core c).saved.erase k1 ∧ (t.core c).back = none ∧ (t.core c).mode = some (rd 7 1 b % 4) ∧
          (t.core c).front = (if bit 4 (rd 7 1 b) then some (frontOf k1 (rd 7 1 b % 4) (b2n (bit 5 (rd 7 1 b))) (slice 0x40 128 b)) else none) ∧
          Wrote s t (((List.range (rd 14 2 b)).filter (fun i =>
              decide (e1.firstSlot ≤ rd 12 2 b + i ∧ rd 12 2 b + i < e1.firstSlot + e1.slots))).map (fun i =>
            (coreAddr c 0x8000 + slotOff e1.lx32 (rd 12 2 b + i), slice (0xC0 + slotOff e1.lx32 i) (slotBytes e1.lx32) b))) ∧
          (∀ d, d ≠ c → t.core d = s.core d) ∧ Only [.regs, .clus, .cores, .mem, .bad] s t ∧ OnlyRegs s t s.eccRegs)))

/-- Inter-act queues (R221 to R224, R258, R457): a push waits for its slot's credit, sends the micro-batch once and retires on the acknowledgement; a pop
retires when the slot holds the micro-batch; grants and returns give credits; a transfer is taken into the slot that expects it, and otherwise refused with an
engine error. -/
def Obligations.QueuesCarryMicroBatchesByCredit : Prop :=
  (∀ (g : GClu) (k : CtxNo) (s : State) (c : Ctx) (ws : List Word) (p : Prog) (q : QueueE) (mb : Nat), mb = fld ws 3 31 0 →
    (AtQueue s g k c ws 0x48 p q →
      (∀ b x, mb ∉ (s.q q.queue).acked → mb ∉ (s.q q.queue).inFlight → (mb < q.slots ∨ mb - q.slots ∈ (s.q q.queue).returned) →
        s.load (fld ws 1 47 0) (fld ws 2 31 0) = .ok b →
        x = { queue := BitVec.ofNat 16 q.queue, mb := BitVec.ofNat 32 mb, stepTag := BitVec.ofNat 16 s.tagNow, data := b } →
        ∃ t, exec (.qpush g k) s = .next t ∧ QueueIs s t q.queue { s.q q.queue with inFlight := (s.q q.queue).inFlight ++ [mb] } ∧
          (∃ es, Emits s t (.queue q.recvPos q.recvCluster x :: es)) ∧
          Streamed s t (p.atPosition q.recvPos) (0xC000 + q.queue % 0x2000) (queueBytes x) ∧
          Only [.regs, .bad, .qs, .fabric, .cal, .out] s t ∧ OnlyRegs s t (oCalLost :: portRegs ++ s.eccRegs)) ∧
      (mb ∉ (s.q q.queue).acked → (mb ∈ (s.q q.queue).inFlight ∨ ¬(mb < q.slots ∨ mb - q.slots ∈ (s.q q.queue).returned)) →
        ∃ t, exec (.qpush g k) s = .next t ∧ Idles s t) ∧
      (mb ∈ (s.q q.queue).acked → (q.dir = 0 → ∀ o ∈ p.offload, o.act ≠ q.sender) →
        ∃ t, exec (.qpush g k) s = .next t ∧ GoesOn s t g k c (c.pos + 64) ∧ SameWork s t g ∧
          QueueIs s t q.queue { s.q q.queue with acked := (s.q q.queue).acked.erase mb, inFlight := (s.q q.queue).inFlight.erase mb } ∧
          Only [.regs, .bad, .clus, .qs] s t ∧ OnlyRegs s t ([oCtxState g, oProgress g] ++ s.eccRegs))) ∧
    (AtQueue s g k c ws 0x49 p q →
      (SMap.get? (s.q q.queue).held (mb % q.slots) = some mb → (q.dir = 1 → ∀ o ∈ p.offload, o.act ≠ q.receiver) →
        ∃ t, exec (.qpop g k) s = .next t ∧ GoesOn s t g k c (c.pos + 64) ∧ SameWork s t g ∧ Only [.regs, .bad, .clus] s t ∧
          OnlyRegs s t ([oCtxState g, oProgress g] ++ s.eccRegs)) ∧
      (SMap.get? (s.q q.queue).held (mb % q.slots) ≠ some mb → ∃ t, exec (.qpop g k) s = .next t ∧ Idles s t)) ∧
    (AtQueue s g k c ws 0x4A p q →
      ∃ t, exec (.qgrant g k) s = .next t ∧ GoesOn s t g k c (c.pos + 64) ∧ SameWork s t g ∧
        (senderHere p q = true → QueueIs s t q.queue { s.q q.queue with credits := fld ws 1 7 0 } ∧ t.out = s.out) ∧
        (senderHere p q = false → t.qs = s.qs ∧ Sends s t (p.senderAddr q) (.credit q.queue (fld ws 1 7 0))) ∧
        Only [.regs, .bad, .clus, .qs, .fabric, .cal, .out] s t ∧ OnlyRegs s t ([oCtxState g, oProgress g, oCalLost] ++ portRegs ++ s.eccRegs)) ∧
    (AtQueue s g k c ws 0x4B p q →
      (q.dir = 0 → q.receiver + 1 = p.acts → q.recvPos = p.position → ∀ o ∈ p.offload, o.act ≠ q.receiver) →
      ∃ t, exec (.qreturn g k) s = .next t ∧ GoesOn s t g k c (c.pos + 64) ∧ SameWork s t g ∧
        SMap.get? (t.q q.queue).held (mb % q.slots) = none ∧ SMap.get (t.q q.queue).expect (mb % q.slots) (mb % q.slots) = mb + q.slots ∧
        (∀ j, j ≠ mb % q.slots → SMap.get? (t.q q.queue).held j = SMap.get? (s.q q.queue).held j) ∧ (∀ m, m ≠ q.queue → t.q m = s.q m) ∧
        (senderHere p q = true → (t.q q.queue).returned = (s.q q.queue).returned ++ [mb] ∧ t.out = s.out) ∧
        (senderHere p q = false → (t.q q.queue).returned = (s.q q.queue).returned ∧
          Sends s t (p.senderAddr q) (.returnCredit q.queue mb)) ∧
        Only [.regs, .bad, .clus, .qs, .fabric, .cal, .out] s t ∧ OnlyRegs s t ([oCtxState g, oProgress g, oCalLost] ++ portRegs ++ s.eccRegs))) ∧
  (∀ (x : QueueXfer) (s : State) (p : Prog) (q : QueueE) (mb slot : Nat), s.job.prog = some p → x.stepTag.toNat = s.tagNow →
    p.queue? x.queue.toNat = some q → q.recvPos = p.position → mb = x.mb.toNat → slot = mb % q.slots →
    ((s.clu q.recvCluster).power ≤ 2 → SMap.get (s.q q.queue).expect slot slot = mb → SMap.get? (s.q q.queue).held slot = none →
      x.data.length ≤ q.slotBytes → (s.store (q.base + slot * q.slotBytes) x.data).2 = none → s.MemoryOk →
      ∃ t, exec (.queueTransfer x) s = .next t ∧ Wrote s t [(q.base + slot * q.slotBytes, x.data)] ∧ SMap.get? (t.q q.queue).held slot = some mb ∧
        (∀ j, j ≠ slot → SMap.get? (t.q q.queue).held j = SMap.get? (s.q q.queue).held j) ∧ (∀ m, m ≠ q.queue → t.q m = s.q m) ∧
        (senderHere p q = true → (t.q q.queue).acked = (s.q q.queue).acked ++ [mb] ∧ t.out = s.out) ∧
        (senderHere p q = false → (t.q q.queue).acked = (s.q q.queue).acked ∧ Sends s t (p.senderAddr q) (.queueAck q.queue mb)) ∧
        Only [.regs, .mem, .hostMem, .bad, .qs, .fabric, .cal, .out] s t ∧ OnlyRegs s t (oCalLost :: portRegs)) ∧
    ((s.clu q.recvCluster).power ≤ 2 → SMap.get (s.q q.queue).expect slot slot ≠ mb → s.job.running = none →
      ∃ t, exec (.queueTransfer x) s = .next t ∧ t.rf oIntStatus 7 7 = 1 ∧ t.qs = s.qs ∧ Only [.regs, .cal, .out] s t ∧
        OnlyRegs s t [oCalLost, oIntStatus, oPba]) ∧
    ((s.clu q.recvCluster).power ∈ [3, 4, 5] → s.cluFenced q.recvCluster = false →
      ∃ t, exec (.queueTransfer x) s = .next t ∧ Waits s t q.recvCluster (.transfer x)))

/-- CLUSTER_DMA (R117, R123, R132, R162 to R164, R457): a copy of bytes, the compression of raw elements into blocks with their index table, the copy of
blocks, their expansion and their raw re-coding; damaged blocks stop it behind the blocks before; a cluster in nap is woken first. -/
def Obligations.ClusterDmaMovesBytesAndBlocks : Prop :=
  ∀ (g : GClu) (k : Nat) (it : QItem) (rest : List QItem) (s : State) (ws : List Word) (mode fmt src dst n index : Nat),
    AtHead s g 43 k it rest → s.MemoryOk → ws = it.words → dOp ws = 0x30 → mode = fld ws 0 43 40 → fmt = fld ws 0 36 36 → src = fld ws 1 47 0 →
    dst = fld ws 2 47 0 → n = fld ws 6 47 0 → index = fld ws 4 47 0 →
    (∀ h, (s.napping src = some h ∨ (s.napping src = none ∧ s.napping dst = some h)) → (s.clu h).power = 3 → s.cluFenced h = false →
      ∃ t, exec (.clusterDma g) s = .next t ∧ Asks s t h) ∧
    (s.napping src = none → s.napping dst = none →
      (∀ b, mode = 0 → s.load src n = .ok b → (s.store dst b).2 = none →
        ∃ t, exec (.clusterDma g) s = .next t ∧ DmaRan s t g k it rest { ctx := k, tag := dTag ws } [(dst, b)]) ∧
      (∀ b bs, mode = 3 → s.load src (elemBytes fmt * n) = .ok b → bs = blocksOf fmt (n / 256 + 1) (elemsLE (elemBytes fmt) b) →
        s.badIn dst bs.flatten.length = [] → (s.store dst bs.flatten).2 = none → (s.store index (indexTable bs)).2 = none →
        ∃ t, exec (.clusterDma g) s = .next t ∧
          DmaRan s t g k it rest { ctx := k, tag := dTag ws } [(dst, bs.flatten), (index, indexTable bs)]) ∧
      (∀ r out, mode ≠ 0 → mode ≠ 3 →
        r = s.readBlocks src (fld ws 3 47 0) fmt ((s.job.prog.bind (fun p => p.tensor? (fld ws 7 15 0))).map (·.elems)) (fld ws 5 31 0) (fld ws 5 63 32) →
        out = (if mode = 1 then r.blocks else if mode = 2 then r.blocks.map (fun b => (blockElems fmt b).flatMap (le (elemBytes fmt)))
          else r.blocks.map (fun b => rawBlock fmt (blockElems fmt b))) →
        s.badIn dst out.flatten.length = [] → (s.store dst out.flatten).2 = none → r.err = none →
        (r.dmg = none → (mode ≠ 2 → (s.store index (indexTable out)).2 = none) →
          ∃ t, exec (.clusterDma g) s = .next t ∧ DmaRan s t g k it rest { ctx := k, tag := dTag ws }
            ((dst, out.flatten) :: if mode = 2 then [] else [(index, indexTable out)])) ∧
        (∀ d, r.dmg = some d → k < 8 → s.job.running = none →
          ∃ t, exec (.clusterDma g) s = .next t ∧ Halted t g k ∧ Wrote s t [(dst, out.flatten)] ∧ t.rf oIntStatus 7 7 = 1 ∧
            t.rf (oBlkErr g) 63 56 = d.1 % 256 ∧ t.rf (oBlkErr g) 55 40 = fld ws 7 15 0 ∧ t.rf (oBlkErr g) 31 0 = d.2.2 % 2 ^ 32 ∧
            Only [.regs, .mem, .hostMem, .bad, .clus, .cal, .out] s t)))

/-- Scrubs, the parity sweep, the Midway, the host window and the core self-test (R18, R106, R145, R358, R396, R409): what each finds is counted, recorded or
fenced, and nothing else changes. RAW_RESTORAGE (R135, R328): a tensor whose extra cycles pass its ring's threshold has its slow blocks rewritten raw once
every block has been verified and the region holds the new length; a damaged block leaves it as it was. -/
def Obligations.ScrubsSweepsAndSlowTensorsReport : Prop :=
  ((∀ (g : GClu) (f : Found) (s : State) (a : Nat), (s.clu g).power < 3 → s.cluFenced g = false → a = cluAddr g (8 * (s.clu g).scrub) →
    ∃ t, exec (.patrolScrub g f) s = .next t ∧
      (s.job.running = none → t.clu g = { s.clu g with scrub := ((s.clu g).scrub + 1) % 0x60000 } ∧ ∀ h, h ≠ g.val → t.clu h = s.clu h) ∧
      (a ∉ s.bad → s.softIn a 8 = [] → f = .clean → Only [.clus] s t) ∧
      (a ∉ s.bad → s.softIn a 8 = [a] → f = .clean → (s.clu g).scrub < 0x60000 → a ∉ t.soft ∧
        t.rf (oSramEcc g) 31 0 = min (s.rf (oSramEcc g) 31 0 + 1) 0xFFFFFFFF ∧ t.rf (oSramEcc g) 63 40 = 8 * (s.clu g).scrub ∧
        t.bad = s.bad ∧ Only [.clus, .regs, .bad] s t ∧ OnlyRegs s t [oSramEcc g]) ∧
      (a ∉ s.bad → s.softIn a 8 = [] → f = .corrected → t.rf (oSramEcc g) 31 0 = min (s.rf (oSramEcc g) 31 0 + 1) 0xFFFFFFFF ∧
        t.rf (oSramEcc g) 63 40 = 8 * (s.clu g).scrub % 2 ^ 24 ∧ Only [.clus, .regs] s t ∧ OnlyRegs s t [oSramEcc g]) ∧
      (a ∈ s.bad ∨ f = .uncorrectable → s.softIn a 8 = [] → s.job.running = none → (s.clu g).scrub < 0x60000 → a ∈ t.bad ∧ t.rf oIntStatus 7 7 = 1 ∧
        t.rf (oSramEcc g) 39 32 = min (s.rf (oSramEcc g) 39 32 + 1) 255 ∧ t.rf (oSramEcc g) 63 40 = 8 * (s.clu g).scrub ∧
        t.mem = s.mem ∧ Only [.clus, .regs, .bad, .cal, .out] s t ∧ OnlyRegs s t [oSramEcc g, oCalLost, oIntStatus, oPba])) ∧
  (∀ (addr : Nat) (f : Found) (s : State) (a : Nat), a = addr / grain addr * grain addr → addr < hbmEnd ∨ (ddrBase ≤ addr ∧ addr < ddrBase + s.ddrBytes ∧ addr < hostWin) →
    (a ∉ s.bad → f ≠ .uncorrectable → exec (.memoryPatrolScrub addr f) s = .next s) ∧
    (a ∈ s.bad ∨ f = .uncorrectable → s.job.running = none → s.mirror.regionBytes = 0 →
      ∃ t, exec (.memoryPatrolScrub addr f) s = .next t ∧ a ∈ t.bad ∧ t.rf oIntStatus 7 7 = 1 ∧ (∀ b ∈ s.bad, b ∈ t.bad) ∧
        Only [.regs, .bad, .strg, .cal, .out] s t ∧ OnlyRegs s t [oCalLost, oIntStatus, oPba])) ∧
  (∀ s : State, exec (.registerParitySweep none) s = .next s ∧
    (∀ o k, regKind o = some k → (∃ f ∈ regFields k, f.acc = .rw) → s.job.running = none →
      ∃ t, exec (.registerParitySweep (some o)) s = .next t ∧ (o ≠ oCalLost → t.rw o = s.rw o) ∧ t.cal ≠ s.cal ∧ Only [.regs, .cal] s t ∧ OnlyRegs s t [oCalLost])) ∧
  (∀ (p : MidwayPkt) (s : State) (n : Nat), n = p.stream.toNat →
    (p.seq.toNat ≠ SMap.get s.midSeq n 0 → exec (.midwayPacket p) s = .next s) ∧
    (p.seq.toNat = SMap.get s.midSeq n 0 → p.crcOk = true →
      ∃ t, exec (.midwayPacket p) s = .next t ∧ (∀ m, SMap.get t.midSeq m 0 = if m = n then (p.seq.toNat + 1) % 2 ^ 32 else SMap.get s.midSeq m 0) ∧
        SMap.get t.midRetry n 0 = 0 ∧ Only [.midSeq, .midRetry] s t) ∧
    (p.seq.toNat = SMap.get s.midSeq n 0 → p.crcOk = false →
      ∃ t, exec (.midwayPacket p) s = .next t ∧ t.midSeq = s.midSeq ∧
        (∀ m, SMap.get t.midRetry m 0 = SMap.get s.midRetry m 0 + if m = n then 1 else 0) ∧
        (SMap.get s.midRetry n 0 < 16 → Only [.midRetry] s t) ∧
        (16 ≤ SMap.get s.midRetry n 0 → t.rf oRstStatus 57 57 = 1 ∧ t.rf oIntStatus 7 7 = 1))) ∧
  (∀ (g : GClu) (u : Fin 44) (addr : Nat) (s : State), hostWin ≤ addr → addr < cluBase → s.serving g u = none →
    ∃ t, exec (.hostWindowTimeout g u addr) s = .next t ∧ (∀ b, b ∈ t.bad ↔ b ∈ s.bad ∨ b = addr / 64 * 64) ∧ t.soft = s.soft ∧
      Only [.bad] s t) ∧
  (∀ (g : GClu) (u : Fin 44) (addr : Nat) (s : State) (k : Nat) (it : QItem) (rest : List QItem), hostWin ≤ addr → addr < cluBase →
    s.serving g u = some k → SMap.get (s.clu g).queues (u.val * 8 + k) [] = it :: rest → k < 8 → s.hang = none → s.job.running = none →
    ∃ t, exec (.hostWindowTimeout g u addr) s = .next t ∧ Halted t g k ∧ t.rf oIntStatus 7 7 = 1 ∧ (∀ h, h ≠ g.val → t.clu h = s.clu h) ∧
      t.bad = s.bad.filter (· != addr) ∧ Only [.regs, .bad, .clus, .cal, .out] s t ∧ OnlyRegs s t [oCtxState g, oCalLost, oIntStatus, oPba]) ∧
  (∀ (c : GCore) (s : State), (s.core c).testDue = true → s.job.running = none →
    (∃ t, exec (.coreSelftest c true) s = .next t ∧ t.core c = { s.core c with testDue := false } ∧ (∀ d, d ≠ c.val → t.core d = s.core d) ∧
      Only [.cores] s t) ∧
    (∃ t, exec (.coreSelftest c false) s = .next t ∧ t.core c = { s.core c with testDue := false } ∧
      (s.coreFenced c = false → t.rf (oCoreFence (c / 40)) (c % 40) (c % 40) = 1 ∧
        t.rf (oCoreCount (c / 10000)) 13 0 = (s.rf (oCoreCount (c / 10000)) 13 0 - 1) ∧ t.rf oIntStatus 7 7 = 1)))) ∧
  (∀ (tensor : BitVec 16) (s : State) (p : Prog) (d : TensorDecl) (g r : Nat) (cyc : Nat × Nat) (run : BlockRun), s.job.prog = some p →
    p.tensor? tensor.toNat = some d → (∃ o, s.area d.base = .clu g o) → r = g / 250 → s.job.running = none → d.form = 0 →
    s.rf (oRestore r) 8 8 = 1 →
    cyc = s.clus.foldl (fun (n : Nat × Nat) kv => if kv.1 / 250 = r then (n.1 + (SMap.get kv.2.stall tensor.toNat (0, 0)).1,
      n.2 + (SMap.get kv.2.stall tensor.toNat (0, 0)).2) else n) (0, 0) →
    s.rf (oRestore r) 7 0 * cyc.2 < 1000 * cyc.1 → run = s.readBlocks d.base d.index d.fmt (some d.elems) ((d.elems + 255) / 256) 0 →
    run.err = none →
    (∀ x, run.dmg = some x →
      ∃ t, exec (.rawRestorage tensor) s = .next t ∧ t.mem = s.mem ∧ t.rf oIntStatus 7 7 = 1 ∧ t.rf (oBlkErr g) 63 56 = x.1 % 256 ∧
        t.rf (oBlkErr g) 31 0 = x.2.2 % 2 ^ 32 ∧ Only [.regs, .clus, .cal, .out] s t) ∧
    (∀ out, run.dmg = none → run.blocks.any slowBlock = true →
      out = run.blocks.map (fun b => if slowBlock b then rawBlock d.fmt (blockElems d.fmt b) else b) →
      d.base + out.flatten.length ≤ p.regionEnd g d.tensor d.base → (s.store d.base out.flatten).2 = none →
      (s.store d.index (indexTable out)).2 = none → s.MemoryOk →
      ∃ t, exec (.rawRestorage tensor) s = .next t ∧ Wrote s t [(d.base, out.flatten), (d.index, indexTable out)] ∧
        t.cal ≠ s.cal ∧ (∀ h, h / 250 = r → SMap.get (t.clu h).stall tensor.toNat (0, 0) = (0, 0)) ∧ t.rf oIntStatus 7 7 = s.rf oIntStatus 7 7 ∧
        Only [.regs, .mem, .hostMem, .bad, .clus, .cal] s t ∧ OnlyRegs s t [oCalLost]))

/-- PROG_LOAD and PROG_DISCARD (R207, R211, R380, R381): pieces are taken in order, the last starts validation, and only an image that meets no status is
staged; a discard drops what is staged. PROG_RUN (R191, R208, R257, R261, R381, R423): without a staged image it is refused; while steps run or wait it waits;
then the staged image runs, its sections are copied, its site address is the device's, and the queues, streams, attempts and the variant start afresh; in
PHASE 1 the group is asked for the merged record first. -/
def Obligations.ProgrammesAreStagedAndRun : Prop :=
  (∀ (s : State) (tag : BitVec 32) (q : Taken),
    (∀ r, Runs s tag 0x0501 q → s.reshard = some r → r.forced = false → ∃ t, exec (.progLoad tag) s = .next t ∧ Refused s t q 5) ∧
    (∀ off total piece, Runs s tag 0x0501 q → (∀ r, s.reshard = some r → r.forced = true) → off = rd 0 8 q.payload → total = rd 8 8 q.payload → piece = q.payload.drop 16 →
      (1073741824 < total → ∃ t, exec (.progLoad tag) s = .next t ∧ Refused s t q 2) ∧
      (∀ have_, total ≤ 1073741824 → (off = 0 ∧ have_ = [] ∨ off ≠ 0 ∧ ∃ g, s.job.staging = some g ∧ g.total = total ∧ g.data = have_) →
        have_.length = off →
        (total < off + piece.length → ∃ t, exec (.progLoad tag) s = .next t ∧ Refused s t q 2) ∧
        (off + piece.length < total →
          ∃ t, exec (.progLoad tag) s = .next t ∧ Completed s t q 0 0 [] ∧
            t.job = { s.job with staging := some { total := total, data := have_ ++ piece }, staged := if off = 0 then none else s.job.staged } ∧
            Only [.mbx, .regs, .out, .job] s t ∧ OnlyRegs s t ringRegs) ∧
        (off + piece.length = total →
          ∃ t, exec (.progLoad tag) s = .next t ∧ Completed s t q (s.validate (have_ ++ piece)) 0 [] ∧
            t.job = { s.job with staging := none, staged := if s.validate (have_ ++ piece) = 0 then some (mkProg (have_ ++ piece)) else none } ∧
            Only [.mbx, .regs, .out, .job] s t ∧ OnlyRegs s t ringRegs))) ∧
    (Runs s tag 0x0503 q → s.reshard = none →
      ∃ t, exec (.progDiscard tag) s = .next t ∧ Completed s t q 0 0 [] ∧ t.job = { s.job with staging := none, staged := none } ∧
        Only [.mbx, .regs, .out, .job] s t ∧ OnlyRegs s t ringRegs) ∧
    (Runs s tag 0x0503 q → s.reshard.isSome = true → ∃ t, exec (.progDiscard tag) s = .next t ∧ Refused s t q 5)) ∧
  (∀ (s : State) (tag : BitVec 32) (q : Taken),
    (Runs s tag 0x0502 q → s.job.runWait ≠ some tag → s.job.staged = none → ∃ t, exec (.progRun tag) s = .next t ∧ Refused s t q 0x0501) ∧
    (∀ p, Runs s tag 0x0502 q → s.job.runWait ≠ some tag → s.job.staged = some p → s.reshard = none →
      (s.namesDozing p = true ∨ ∃ r, s.job.prog = some r ∧ s.namesDozing r = true) →
      ∃ t, exec (.progRun tag) s = .next t ∧ Refused s t q 0x000A) ∧
    (∀ p, Runs s tag 0x0502 q → s.job.runWait ≠ some tag → s.job.staged = some p → s.reshard = none → s.namesDozing p = false →
      (∃ r, s.job.prog = some r ∧ s.namesDozing r = false ∧ r.epoch ≠ p.epoch) → ∃ t, exec (.progRun tag) s = .next t ∧ Refused s t q 0x0108) ∧
    (∀ p, Runs s tag 0x0502 q → s.job.runWait ≠ some tag → s.job.staged = some p → s.reshard = none → s.namesDozing p = false →
      (∀ r, s.job.prog = some r → s.namesDozing r = false ∧ r.epoch = p.epoch) →
      (s.job.running.isSome = true ∨ s.job.queue ≠ [] ∨
        ∃ x ∈ s.mbx.taken.takeWhile (fun x => x.tag != tag), x.opcode = 0x0601 ∧ x.started = false) →
      ∃ t, exec (.progRun tag) s = .next t ∧ Started s t tag ∧ t.job = { s.job with runWait := some tag } ∧ Only [.mbx, .job] s t) ∧
    (∀ p, (Runs s tag 0x0502 q ∧ s.job.runWait ≠ some tag ∧ s.reshard = none ∧ s.namesDozing p = false ∧
        (∀ r, s.job.prog = some r → s.namesDozing r = false ∧ r.epoch = p.epoch) ∨ s.job.runWait = some tag ∧ s.taken? tag = some q) →
      s.job.staged = some p → s.job.running = none → s.job.queue = [] →
      (∀ x ∈ s.mbx.taken.takeWhile (fun x => x.tag != tag), x.opcode = 0x0601 → x.started = true) → s.mirState ≠ 1 → s.strg.query = none →
      ∃ t, exec (.progRun tag) s = .next t ∧ t.job.prog = some p ∧ t.job.staged = none ∧ t.job.everRun = true ∧ t.job.variant = 0 ∧
        t.job.attempts = [] ∧ t.job.queue = [] ∧ t.job.running = none ∧ t.qs = [] ∧ t.fabric.tx = [] ∧ t.fabric.rx = [] ∧
        t.rf oSiteId 19 0 = p.route.addr % 2 ^ 20 ∧ t.rf oSiteId 27 24 = p.route.mirrorPort % 16 ∧
        (s.MemoryOk → (∀ x ∈ p.sections, x.addr ≠ 0 → s.badIn x.addr x.data.length = [] ∧ (s.store x.addr x.data).2 = none) →
          Wrote s t ((p.sections.filter (fun x => decide (x.addr ≠ 0))).map (fun x => (x.addr, x.data)))) ∧
        ((s.phase ≠ 1 ∨ ∀ a ∈ p.groupMembers, rtValid (p.route.entry a) = false) →
          Completed s t q 0 0 [] ∧ t.job.runWait = none ∧ (s.phase = 1 → t.phase = 0) ∧ (s.phase ≠ 1 → t.phase = s.phase) ∧ t.strg.query = none) ∧
        (∀ ms, s.phase = 1 → ms = p.groupMembers.filter (fun a => rtValid (p.route.entry a)) → ms ≠ [] →
          t.strg.query = some { step := BitVec.ofNat 64 (s.committed + 1), members := ms, answered := [] } ∧ t.job.runWait = some tag ∧
          t.mbx.wait = s.mbx.wait ∧ (∀ a ∈ ms, Ev.message a (.query (BitVec.ofNat 64 (s.committed + 1))) ∈ t.out)) ∧
        Only [.regs, .mem, .hostMem, .bad, .mbx, .job, .cores, .qs, .strg, .jug, .fabric, .rounds, .cal, .time, .out] s t ∧
        OnlyRegs s t ([oBjnRoundState, oCalLost, oCommitState, oSiteId, oTimeStatus] ++ ringRegs)))

/-- STEP (R24, R212, R215, R241): a descriptor that meets no status joins the queue behind the running step and completes when the step ends; any other
completes at once with the lowest status that it meets. STEP_RELEASE (R25, R146, R148, R216, R258, R332): the head of the queue waits while the boundary is
not settled (at k × H + APPLY_MAX without a sealed manifest BJN_ROUND_STATE says so), ends with the queue where the programme names a fenced unit or the batch does not match its hashes, and
otherwise runs: its clusters are fresh, its contexts start at their lists, the prompt of a generation batch's first user lies where its slot says (assumption
41), its attempt is counted. -/
def Obligations.StepsQueueAndAreReleasedAtTheBoundary : Prop :=
  (∀ (s : State) (tag : BitVec 32) (q : Taken), Runs s tag 0x0601 q →
    (∀ st, s.stepRefused = some st → ∃ t, exec (.step tag) s = .next t ∧ Refused s t q st) ∧
    (∀ p, s.stepRefused = none → s.job.prog = some p →
      (descBytes p q.payload = none → ∃ t, exec (.step tag) s = .next t ∧ Refused s t q 2) ∧
      (∀ n, descBytes p q.payload = some n → q.payload.length ≠ n → ∃ t, exec (.step tag) s = .next t ∧ Refused s t q 3) ∧
      (∀ bad, descBytes p q.payload = some q.payload.length →
        bad = ((if p.gen then checkGen p q.payload else checkStep p q.payload) ++
          stIf stFenced (s.namesFenced p || s.job.staged.any s.namesFenced) ++ stIf 0x0201 (dStep q.payload != s.nextStep p || decide (5 ≤ s.job.queue.length + b2n s.job.running.isSome))) →
        (∀ st, st ∈ bad → (∀ x ∈ bad, st ≤ x) → ∃ t, exec (.step tag) s = .next t ∧ Refused s t q st) ∧
        (bad = [] → ∃ t, exec (.step tag) s = .next t ∧ Started s t tag ∧
          t.job = { s.job with queue := s.job.queue ++ [{ tag := tag, n := BitVec.ofNat 64 (dStep q.payload), desc := q.payload }] } ∧
          Only [.mbx, .job] s t)))) ∧
  (∀ (peers : List PeerShard) (touched : List (Nat × List Nat)) (s : State) (p : Prog) (j : StepJob) (rest : List StepJob), s.job.prog = some p →
    s.job.queue = j :: rest →
    (s.releaseHeld p j = true → (s.atMax p j.n.toNat = false ∨ s.job.running.isSome = true) → exec (.stepRelease peers touched) s = .next s) ∧
    (s.releaseHeld p j = true → s.atMax p j.n.toNat = true → s.job.running = none →
      ∃ t, exec (.stepRelease peers touched) s = .next t ∧ t.rf oBjnRoundState 63 61 = 4 ∧ Only [.regs] s t ∧ OnlyRegs s t [oBjnRoundState]) ∧
    (s.releaseHeld p j = false → s.namesFenced p = true →
      ∃ t, exec (.stepRelease peers touched) s = .next t ∧ t.job = { s.job with queue := [] } ∧ (∀ x ∈ s.job.queue, t.taken? x.tag = none) ∧
        (∀ q, rest = [] → s.taken? j.tag = some q → Completed s t q 0x010E 0 []) ∧ Only [.mbx, .regs, .out, .job] s t ∧ OnlyRegs s t ringRegs) ∧
    (s.releaseHeld p j = false → s.namesFenced p = false → s.batchOk p j.desc = false →
      ∃ t, exec (.stepRelease peers touched) s = .next t ∧ t.job = { s.job with queue := [] } ∧ (∀ x ∈ s.job.queue, t.taken? x.tag = none) ∧
        (∀ q, rest = [] → s.taken? j.tag = some q → Completed s t q 0x0204 0 []) ∧ Only [.mbx, .regs, .out, .job] s t ∧ OnlyRegs s t ringRegs) ∧
    (s.releaseHeld p j = false → s.namesFenced p = false → s.batchOk p j.desc = true → s.importsLack j.n.toNat = true →
      ((s.replay.waiting = true ∨ s.replay.on = false) → exec (.stepRelease peers touched) s = .next s) ∧
      (s.replay.waiting = false → s.replay.on = true →
        ∃ t, exec (.stepRelease peers touched) s = .next t ∧ t.replay = { s.replay with waiting := true } ∧ t.rf oIntStatus 4 4 = 1 ∧ t.cal ≠ s.cal ∧
          Only [.regs, .replay, .cal, .out] s t ∧ OnlyRegs s t [oCalLost, oIntStatus, oPba])) ∧
    (∀ n sl r toks, n = j.n.toNat → sl = p.users.getD 0 {} → r = gUser j.desc 0 →
      (p.gen = true → sl.tokens = 0 ∧ toks = [] ∨ sl.tokens ≠ 0 ∧ ∃ b, s.load (rd 8 8 r) (4 * rd 16 4 r) = .ok b ∧
        s.badIn sl.tokens b.length = [] ∧ (s.store sl.tokens b).2 = none ∧ toks = [(sl.tokens, b)]) → (p.gen = false → toks = []) →
      s.releaseHeld p j = false → s.namesFenced p = false → s.batchOk p j.desc = true → s.importsLack n = false → s.strg.unreadable = [] → s.carrying = false →
      (∀ e ∈ p.smap, e.cold = false) → (∀ e ∈ p.ctxE, e.cluster < 2000 ∧ e.ctx < 8) → (∀ g ∈ p.clusters s.job.variant, g < 2000) →
      (∀ x ∈ p.rrecvs, ∀ sh ∈ s.shardsIn p x.1.tensor x.1.first x.1.count,
        SMap.get (s.accSet x.2 p.epoch).counts sh.2.2.1 0 ≠ x.1.contrib * sh.2.2.2) →
      ∃ t, exec (.stepRelease peers touched) s = .next t ∧
        t.job.running = some { j with attempt := SMap.get s.job.attempts n 0, releaseNs := s.rw oTimeNow } ∧ t.job.queue = rest ∧
        SMap.get t.job.attempts n 0 = SMap.get s.job.attempts n 0 + 1 ∧ t.job.prog = s.job.prog ∧ t.job.variant = s.job.variant ∧
        (∀ g ∈ p.clusters s.job.variant, (t.clu g).counters = [] ∧ (t.clu g).queues = [] ∧ (t.clu g).serving = [] ∧ (t.clu g).power = (s.clu g).power) ∧
        (s.MemoryOk → Wrote s t toks) ∧
        ((p.gen = true ∨ s.strg.phaseOne = false) → ∀ e ∈ p.ctxE, e.variant = s.job.variant →
          (p.gen = true → sl.promptCtx = 0 ∨ bit e.ctx sl.promptCtx = true) →
          (∀ f ∈ p.ctxE, f.variant = e.variant → f.cluster = e.cluster → f.ctx = e.ctx → f.list = e.list) →
          t.ctxState e.cluster e.ctx = 1 ∧ SMap.get? (t.clu e.cluster).ctxs e.ctx = some { pos := e.list }) ∧
        (p.gen = false → s.strg.phaseOne = true → t.strg = s.strg ∧ ∀ g ∈ p.clusters s.job.variant, ∀ k, k < 8 → t.ctxState g k = 0) ∧
        (p.gen = false → s.strg.phaseOne = false → t.strg.touched = rowsTouched p.smap touched) ∧
        (p.gen = true → t.job.genUsers = List.replicate (gUsers j.desc) {}) ∧ t.replay.waiting = false ∧
        (∀ o, (∀ g, g < 2000 → inCluster g o = false) → t.rw o = s.rw o) ∧ Only [.regs, .mem, .hostMem, .bad, .job, .clus, .cores, .strg, .replay] s t))

/-- SNAP (R205, R206, R350, R353): the snapshot of the committed state goes to the host's buffer, in the clear or sealed chunk by chunk under the snapshot
key; a SNAP_ID not above the last sealed one, a short buffer or a missing key writes nothing. SNAP_RESTORE and its time limit (R185, R205, R351): refused
while a step runs or waits; a snapshot of another layout or one that does not open is refused, and after one that opens only in part no step runs; a whole snapshot sets the committed step and its commit record;
a restore of owned shards waits for the other owners, and after 60 s without them no step runs until a restore has completed. -/
def Obligations.SnapshotsAndRestoresCarryTheCommittedState : Prop :=
  (∀ (s : State) (tag : BitVec 32) (q : Taken) (b : Bytes) (part id : Nat) (sealed_ : Bool), Runs s tag 0x0E01 q → b = q.payload → part = rd 0 1 b →
    sealed_ = (rd 1 1 b == 1) → id = rd 4 4 b → (s.noEntropy = false ∨ sealed_ = false) →
    (s.job.prog = none → ∃ t, exec (.snap tag) s = .next t ∧ Refused s t q 0x000A) ∧
    (∀ p len need, s.job.prog = some p → len = s.snapLength p part s.committed → need = (if sealed_ then len + 16 * snapCount len else len) → snapForm b = true →
      s.reshard.any (·.started) = false → (sealed_ = true → s.latched = false) →
      (sealed_ = true → s.keys.snap = none → ∃ t, exec (.snap tag) s = .next t ∧ Refused s t q 0x000A) ∧
      ((sealed_ = true → s.keys.snap.isSome = true) → (∃ k, s.keys.lastSnap = some k ∧ id ≤ k) →
        ∃ t, exec (.snap tag) s = .next t ∧ Refused s t q 0x0602) ∧
      ((sealed_ = true → s.keys.snap.isSome = true) → (∀ k, s.keys.lastSnap = some k → k < id) → rd 16 8 b < need →
        ∃ t, exec (.snap tag) s = .next t ∧ Refused s t q 3) ∧
      (∀ x out, (∀ k, s.keys.lastSnap = some k → k < id) → need ≤ rd 16 8 b → s.snapshot p part = .ok x →
        (sealed_ = true → ∃ key, s.keys.snap = some key ∧ out = sealSnap key id x) → (sealed_ = false → out = x) → s.MemoryOk →
        ∃ t, exec (.snap tag) s = .next t ∧ Completed s t q 0 0 [] ∧
          t.keys = (if sealed_ then { s.keys with lastSnap := some id } else s.keys) ∧
          (∀ y, cellsRead hostDflt t.hostMem y =
            if rd 8 8 b ≤ y ∧ y < rd 8 8 b + out.length then out.getD (y - rd 8 8 b) 0 else cellsRead hostDflt s.hostMem y) ∧
          Only [.mbx, .regs, .out, .keys, .hostMem] s t ∧ OnlyRegs s t ringRegs))) ∧
  ((∀ (s : State) (tag : BitVec 32) (q : Taken) (b x : Bytes) (part : Nat) (p : Prog) (n : Nat), Runs s tag 0x0E02 q → s.restore = none → s.job.prog = some p →
    b = q.payload → part = rd 0 1 b → snapForm b = true → (s.noEntropy = false ∨ rd 1 1 b ≠ 1) → n = rd 4 8 x →
    ((s.job.running.isSome = true ∨ s.job.queue ≠ [] ∨ s.phase ≠ 0 ∨ s.reshard.isSome = true) →
      ∃ t, exec (.snapRestore tag none) s = .next t ∧ Refused s t q 5) ∧
    (s.job.running = none → s.job.queue = [] → s.phase = 0 → s.reshard = none →
      (∀ len cnt raw, len = s.snapLength p part 0 → cnt = snapCount len → raw = s.hostGet (rd 8 8 b) (if rd 1 1 b = 1 then len + 16 * cnt else len) →
      (rd 16 8 b < (if rd 1 1 b = 1 then len + 16 * cnt else len) → ∃ t, exec (.snapRestore tag none) s = .next t ∧ Refused s t q 3) ∧
      ((if rd 1 1 b = 1 then len + 16 * cnt else len) ≤ rd 16 8 b →
      (rd 1 1 b = 1 → s.keys.snap = none → ∃ t, exec (.snapRestore tag none) s = .next t ∧ Refused s t q 0x0603) ∧
      (∀ key, rd 1 1 b = 1 → s.keys.snap = some key → openSnap key (rd 4 4 b) cnt cnt 0 raw = ([], false) →
        ∃ t, exec (.snapRestore tag none) s = .next t ∧ Completed s t q 0x0603 0 [] ∧
          t.rf (oCiph 2) 47 32 = min (s.rf (oCiph 2) 47 32 + 1) 0xFFFF ∧ Only [.mbx, .regs, .out] s t ∧ OnlyRegs s t (oCiph 2 :: ringRegs)) ∧
      (∀ key, rd 1 1 b = 1 → s.keys.snap = some key → openSnap key (rd 4 4 b) cnt cnt 0 raw = (x, false) → x ≠ [] → snapMatches p part x = true →
        ∃ t, exec (.snapRestore tag none) s = .next t ∧ Completed s t q 0x0603 0 [] ∧ t.job = { s.job with noStep := true } ∧
          t.rw oCommitStep = s.rw oCommitStep ∧ t.rf (oCiph 2) 47 32 = min (s.rf (oCiph 2) 47 32 + 1) 0xFFFF ∧
          Only [.regs, .mem, .hostMem, .bad, .mbx, .job, .strg, .fabric, .cal, .out] s t) ∧
      ((rd 1 1 b = 0 → x = raw) →
       (rd 1 1 b = 1 → ∃ key, s.keys.snap = some key ∧ openSnap key (rd 4 4 b) cnt cnt 0 raw = (x, true)) → x ≠ [] →
      (snapMatches p part x = false → ∃ t, exec (.snapRestore tag none) s = .next t ∧ Refused s t q 0x0601) ∧
      (snapMatches p part x = true →
        ∃ t, exec (.snapRestore tag none) s = .next t ∧ t.rw oCommitStep = BitVec.ofNat 64 n ∧ t.rf oCommitState 63 48 = p.epoch % 65536 ∧
          t.rf oCommitState 5 5 = 0 ∧ t.rf oCommitState 6 6 = 0 ∧ t.rf oCommitState 7 7 = 0 ∧ t.phase = 0 ∧ t.job.attempts = s.job.attempts ∧ t.cal ≠ s.cal ∧
          t.job.prog = s.job.prog ∧ t.keys = s.keys ∧ (p.round = none → t.rounds = s.rounds) ∧
          (s.bad = [] → t.mirState = if s.mirState = 2 then 1 else s.mirState) ∧
          (part = 0 → Completed s t q 0 0 [] ∧ t.job.noStep = false ∧ t.restore = none) ∧
          (∀ left, part = 1 → left = (s.allShards p).filter (fun y => !(s.snapPairs p 1).contains y) → left ≠ [] →
            t.restore = some { tag := tag, step := BitVec.ofNat 64 n, left := left } ∧ t.job.noStep = true ∧ t.mbx.wait = s.mbx.wait) ∧
          (part = 1 → (s.allShards p).all (fun y => (s.snapPairs p 1).contains y) = true → p.groupDone = false →
            Completed s t q 0 0 [] ∧ t.job.noStep = false ∧ t.restore = none) ∧
          Only [.regs, .mem, .hostMem, .bad, .mbx, .job, .strg, .restore, .fabric, .rounds, .cal, .out] s t ∧
          (s.bad = [] → OnlyRegs s t ([oBjnRound, oBjnRoundState, oCalLost, oCommitState, oCommitStep, oMir] ++ ringRegs)))))))) ∧
  (∀ (s : State) (r : Restore) (p : Prog) (x : PeerShard) (q : Taken), s.restore = some r → s.job.prog = some p → s.taken? r.tag = some q →
    s.job.running = none →
    (∀ left, x.step = r.step → (x.entry, x.shard) ∈ r.left → (s.home p x.entry r.step.toNat).isSome = true →
      left = r.left.filter (· != (x.entry, x.shard)) →
      ∃ t, exec (.snapRestore r.tag (some [x])) s = .next t ∧
        (if left = [] ∧ p.groupDone = false then Completed s t q 0 0 [] ∧ t.restore = none ∧ t.job.noStep = false
         else t.restore = some { r with left := left } ∧ t.mbx = s.mbx ∧ t.job = s.job) ∧
        Only [.regs, .mem, .hostMem, .bad, .mbx, .job, .strg, .restore, .fabric, .cal, .out] s t) ∧
    (∀ tag ps, tag ≠ r.tag → exec (.snapRestore tag (some ps)) s = .next s) ∧
    (∃ t, exec .snapRestoreTimeout s = .next t ∧ Completed s t q 0x000A 0 [] ∧ t.restore = none ∧ t.job = { s.job with noStep := true } ∧
      Only [.mbx, .regs, .out, .job, .restore] s t ∧ OnlyRegs s t ringRegs)))

/-- STEP_REPLAY (R328, R330, R332, R382): a log that meets a status starts nothing; a good one starts replay mode with its steps, variants, manifests and
resets, takes the variant that it logs at the committed step, and puts the rounds where that step stands in the log (log entry 76): a round whose logged manifest
applies later is open and sealed with it, which is recorded, and of one applied by then the manifest is the last; its end records the end,
and keeps of the log only the manifest of a round that is still open. -/
def Obligations.ReplayModeFollowsALog : Prop :=
  ∀ (s : State) (tag : BitVec 32) (q : Taken),
    (Runs s tag 0x0602 q → s.job.prog = none → ∃ t, exec (.stepReplayBegin tag) s = .next t ∧ Refused s t q 5) ∧
    (∀ p b rs, Runs s tag 0x0602 q → s.job.prog = some p → p.gen = false → b = q.payload →
      rs = logRecs (rd 24 8 b / 32 + 1) (s.hostGet (rd 16 8 b) (rd 24 8 b)) →
      ((s.job.running.isSome = true ∨ s.job.queue ≠ [] ∨ s.reshard.isSome = true) → ∃ t, exec (.stepReplayBegin tag) s = .next t ∧ Refused s t q 5) ∧
      (s.job.running = none → s.job.queue = [] → s.reshard = none →
        (s.logStatus b rs ≠ 0 → ∃ t, exec (.stepReplayBegin tag) s = .next t ∧ Refused s t q (s.logStatus b rs)) ∧
        (s.logStatus b rs = 0 →
          ∃ t, exec (.stepReplayBegin tag) s = .next t ∧ Completed s t q 0 0 [] ∧ t.rf oReplay 63 62 = 1 ∧ t.rw oReplayDiv = 0 ∧
            t.replay.on = true ∧ t.replay.first = BitVec.ofNat 64 (rd 0 8 b) ∧ t.replay.last = BitVec.ofNat 64 (rd 8 8 b) ∧
            t.replay.cont = (rd 32 1 b == 1) ∧ t.replay.steps = logSteps rs ∧ t.replay.waiting = false ∧
            t.replay.variants = (logDecisions rs 1).map (fun d => (BitVec.ofNat 64 (rd 0 8 d), rd 8 1 d)) ∧
            t.replay.manifests = (logDecisions rs 5).map logManifest ∧
            (∀ d ∈ logDecisions rs 6, ∀ i, i < (d.length - 8) / 16 →
              (BitVec.ofNat 64 (rd 0 8 d), rd (8 + 16 * i) 8 d, rd (16 + 16 * i) 8 d) ∈ t.replay.resets) ∧
            (∀ v, t.replay.variants.find? (fun x => x.1.toNat == s.committed) = some v → t.job = { s.job with diverged := false, variant := v.2 }) ∧
            (t.replay.variants.find? (fun x => x.1.toNat == s.committed) = none → t.job = { s.job with diverged := false }) ∧
            ((∀ x ∈ t.replay.resets, x.1.toNat ≠ s.committed) → t.mem = s.mem ∧ t.bad = s.bad) ∧
            (p.round = none → t.rounds = s.rounds) ∧
            (∀ c k m hs, p.round = some c → k = BitVec.ofNat 64 (s.committed / max c.h 1) → k ≠ 0 →
              t.replay.manifests.find? (fun x => x.1.round == k) = some (m, hs) →
              ((s.rounds.open_ = some k ∧ s.rounds.applied = false ∧ s.rounds.sealed_ = some m) → t.rounds = s.rounds) ∧
              (¬(s.rounds.open_ = some k ∧ s.rounds.applied = false ∧ s.rounds.sealed_ = some m) → t.rounds.open_ = some k ∧
                (m.step.toNat ≤ s.committed → t.rounds.last = some m ∧ t.rounds.applied = true ∧ t.rounds.sealed_ = none) ∧
                (s.committed < m.step.toNat → t.rounds.sealed_ = some m ∧ t.rounds.held = some m ∧ t.rounds.attempt = m.attempt ∧
                  t.rounds.applied = false ∧ t.cal ≠ s.cal ∧
                  (bit s.site m.members = true → t.rf oBjnRoundState 63 61 = 3 ∧ t.rounds.dropped = s.rounds.dropped) ∧
                  (bit s.site m.members = false → t.rf oBjnRoundState 63 61 = 5 ∧ t.rounds.dropped = true)))) ∧
            (∀ c k, p.round = some c → k = BitVec.ofNat 64 (s.committed / max c.h 1) →
              t.replay.manifests.find? (fun x => x.1.round == k) = none →
              ((s.rounds.open_ = some k ∨ k = 0 ∧ s.rounds.open_ = none) → t.rounds = s.rounds) ∧
              (k ≠ 0 → s.rounds.open_ ≠ some k → t.rounds.open_ = some k ∧ t.rounds.applied = true ∧ t.rounds.sealed_ = none)) ∧
            Only [.mem, .hostMem, .bad, .mbx, .regs, .out, .job, .strg, .fabric, .rounds, .replay, .cal] s t ∧
            (s.bad = [] → OnlyRegs s t ([oBjnRound, oBjnRoundState, oCalLost, oReplay, oReplayDiv] ++ ringRegs))))) ∧
    (Runs s tag 0x0603 q → s.replay.on = true →
      ∃ t, exec (.stepReplayEnd tag) s = .next t ∧ Completed s t q 0 0 [] ∧ t.rf oReplay 63 62 = 0 ∧ t.rf oIntStatus 4 4 = 1 ∧
        t.replay = { manifests := if s.rounds.applied then [] else s.replay.manifests.filter (fun x => s.rounds.open_ == some x.1.round) } ∧
        t.job = { s.job with diverged := false } ∧ t.cal ≠ s.cal ∧ Only [.mbx, .regs, .out, .job, .replay, .cal] s t ∧
        OnlyRegs s t ([oReplay, oCalLost] ++ ringRegs)) ∧
    (Runs s tag 0x0603 q → s.replay.on = false → ∃ t, exec (.stepReplayEnd tag) s = .next t ∧ Refused s t q 0)

/-- The MIRROR commands (R414 to R422): PAIR declares the partner with every tag invalid; CARRY takes the lost partner's role when every shard can be had, and
derives the carried working weights into SCRATCH, the residuals at +0 where nobody holds them; CLEAR ends the pair but not a carried state; ADMIT pairs a spare once nothing carried is left here. A payload of another form, a region or reserve without a
place, and a partner that MIRROR_PORT does not reach are refused. -/
def Obligations.MirrorCommandsDeclareCarryAndClear : Prop :=
  ∀ (s : State) (tag : BitVec 32) (q : Taken) (peers : List PeerShard) (b : Bytes), b = q.payload →
    (Runs s tag 0x0901 q → mirrorForm b = false → ∃ t, exec (.mirrorSet tag peers) s = .next t ∧ Refused s t q 3) ∧
    (Runs s tag 0x0903 q → mirrorForm b = false → ∃ t, exec (.mirrorAdmit tag) s = .next t ∧ Refused s t q 3) ∧
    (Runs s tag 0x0901 q → mirrorForm b = true → s.job.running = none → rd 5 1 b = 0 → s.mirState = 0 →
      (s.mirrorPlaces b false = false → ∃ t, exec (.mirrorSet tag peers) s = .next t ∧ Refused s t q 0x0109) ∧
      (s.mirrorPlaces b false = true → s.mirrorRoute b = false → ∃ t, exec (.mirrorSet tag peers) s = .next t ∧ Refused s t q 0x0110)) ∧
    (Runs s tag 0x0901 q → mirrorForm b = true →
      (s.job.running.isSome = true → ∃ t, exec (.mirrorSet tag peers) s = .next t ∧ Refused s t q 5) ∧
      (s.job.running = none → (1 < rd 5 1 b ∨ rd 5 1 b = 1 ∧ s.mirState ≠ 2 ∧ s.mirState ≠ 3 ∨
          rd 5 1 b = 1 ∧ s.mirState = 2 ∧ ∃ x ∈ s.mirror.shards, s.tagStep x.1 x.2 ≠ s.committed) →
        ∃ t, exec (.mirrorSet tag peers) s = .next t ∧ Refused s t q 0x000A) ∧
      (∀ p e m h ws, s.job.running = none → rd 5 1 b = 1 → s.job.prog = some p → s.mirState = 3 → rd 8 8 b = s.mirror.region →
        mirrorEntries b = s.mirror.map → s.mirrorPlaces b true = true → s.mirrorRoute b = true → peers = [] → p.round = none → s.mirror.map = [e] →
        e.shards = 1 → s.tagValid 0 0 = true → s.tagStep 0 0 = s.committed →
        m = { s.mirror with regionBytes := rd 16 8 b, reserve := rd 24 8 b, reserveBytes := rd 32 8 b, scratch := rd 40 8 b, carryParity := s.committed % 2, adopt := [] } →
        h = m.homeIn 0 e → s.read32 h.mas (e.shardLen 0) = .ok ws → s.MemoryOk → s.bad = [] → h.resid + 4 * e.shardLen 0 ≤ hostWin →
        h.w + 2 * e.shardLen 0 ≤ hostWin → (h.mas + 4 * e.shardLen 0 ≤ h.resid ∨ h.resid + 4 * e.shardLen 0 ≤ h.mas) →
        ∃ t, exec (.mirrorSet tag peers) s = .next t ∧ Completed s t q 0 0 [] ∧ t.mirState = 4 ∧ t.mirror = m ∧
          Wrote s t [(h.resid, zeros (4 * e.shardLen 0)), (h.w, workBytes ws)] ∧ Posted s t srcRm) ∧
      (s.job.running = none → rd 5 1 b = 0 → s.mirState ≠ 0 → ∃ t, exec (.mirrorSet tag peers) s = .next t ∧ Refused s t q 0x000A) ∧
      (s.job.running = none → rd 5 1 b = 0 → s.mirState = 0 → s.mirrorPlaces b false = true → s.mirrorRoute b = true →
        ∃ t, exec (.mirrorSet tag peers) s = .next t ∧ Completed s t q 0 0 [] ∧ Paired s t b) ∧
      (∀ p, s.job.running = none → rd 5 1 b = 1 → p = s.job.prog.getD (mkProg []) →
        (s.mirState = 3 ∨ s.mirState = 2 ∧ ∀ x ∈ s.mirror.shards, s.tagStep x.1 x.2 = s.committed) →
        s.mirrorPlaces b true = true → s.mirrorRoute b = true →
        ((s.carryPair b).carry p b peers = none → ∃ t, exec (.mirrorSet tag peers) s = .next t ∧ Refused s t q 0x0207) ∧
        (((s.carryPair b).carry p b peers).isSome = true →
          ∃ t, exec (.mirrorSet tag peers) s = .next t ∧ Completed s t q 0 0 [] ∧ t.mirState = 4 ∧ t.partner = rd 0 4 b % 2 ^ 20 ∧
            t.rf oCommitState 7 7 = 0 ∧ t.mirror.region = rd 8 8 b ∧ t.mirror.regionBytes = rd 16 8 b ∧ t.mirror.map = mirrorEntries b ∧
            t.mirror.reserve = rd 24 8 b ∧ t.mirror.reserveBytes = rd 32 8 b ∧
            t.mirror.scratch = rd 40 8 b ∧ t.mirror.carryParity = s.committed % 2 ∧ t.rf oIntStatus 6 6 = 1 ∧
            Only [.regs, .mem, .hostMem, .bad, .mbx, .strg, .mirror, .cal, .out] s t ∧
            (s.bad = [] → OnlyRegs s t ([oCalLost, oCommitState, oMir] ++ ringRegs))))) ∧
    (Runs s tag 0x0902 q → s.mirState = 4 → ∃ t, exec (.mirrorClear tag) s = .next t ∧ Refused s t q 0x000A) ∧
    (Runs s tag 0x0902 q → s.mirState ≠ 4 →
      ∃ t, exec (.mirrorClear tag) s = .next t ∧ Completed s t q 0 0 [] ∧ t.mirState = 0 ∧ t.rf oMir 60 50 = 0 ∧ t.partner = 0xFFFFF ∧
        t.rf oCommitState 7 7 = 0 ∧ t.mirror = {} ∧ t.strg = { s.strg with mirrored := [], acked := [], restream := [] } ∧
        (s.mirState ≠ 0 → t.rf oIntStatus 6 6 = 1) ∧ Only [.regs, .mbx, .strg, .mirror, .cal, .out] s t ∧
        OnlyRegs s t ([oCalLost, oCommitState, oMir] ++ ringRegs)) ∧
    (Runs s tag 0x0903 q → mirrorForm b = true →
      (rd 5 1 b = 0 → s.mirState = 4 → s.holdsCarried = false → (s.mirrorPlaces b false = false → ∃ t, exec (.mirrorAdmit tag) s = .next t ∧ Refused s t q 0x0109) ∧
        (s.mirrorPlaces b false = true → s.mirrorRoute b = false → ∃ t, exec (.mirrorAdmit tag) s = .next t ∧ Refused s t q 0x0110)) ∧
      ((rd 5 1 b ≠ 0 ∨ s.mirState ≠ 4 ∨ s.holdsCarried = true) → ∃ t, exec (.mirrorAdmit tag) s = .next t ∧ Refused s t q 0x000A) ∧
      (rd 5 1 b = 0 → s.mirState = 4 → s.holdsCarried = false → s.mirrorPlaces b false = true → s.mirrorRoute b = true →
        (∃ t, exec (.mirrorAdmit tag) s = .next t ∧ t.taken? tag = none) ∧
        ((s.job.running = none ∨ s.strg.done = [] ∧ s.bad = []) →
          ∃ t, exec (.mirrorAdmit tag) s = .next t ∧ Completed s t q 0 0 [] ∧ Paired s t b)))

/-- Diagnosis and calibration (R382, R405 to R408, R432): DIAG_REC_CLEAR empties what it names and records that; DIAG_DUMP writes the dump; a failing
self-test fences; CAL_PORT trains a port from its first step; CAL_MEM changes nothing visible. -/
def Obligations.DiagnosticCommandsReportAndClear : Prop :=
  ∀ (s : State) (tag : BitVec 32) (q : Taken) (b : Bytes), b = q.payload →
    (Runs s tag 0x0A01 q → (s.cal.flush.isSome = true ∨ s.cal.sending ≠ [] ∨ s.rf oCalPbank 63 62 = 2) →
      ∃ t, exec (.diagRecClear tag) s = .next t ∧ Refused s t q 5) ∧
    (Runs s tag 0x0A01 q → s.cal.flush = none → s.cal.sending = [] → s.rf oCalPbank 63 62 ≠ 2 → s.MemoryOk →
      ∃ t, exec (.diagRecClear tag) s = .next t ∧ Completed s t q 0 0 [] ∧
        (bit 0 (rd 0 1 b) = true → t.cal.buf.length = 1) ∧ (bit 1 (rd 0 1 b) = true → t.cal.slot0 = none ∧ t.cal.slot1 = none) ∧
        (bit 1 (rd 0 1 b) = false → t.cal.slot0 = s.cal.slot0 ∧ t.cal.slot1 = s.cal.slot1) ∧
        (bit 2 (rd 0 1 b) = true → t.rw oCalPbank = 0 ∧ t.cal.bank = [] ∧ ∀ x, bankBase ≤ x → x < bankBase + 0x801000 → t.byteAt x = 0) ∧
        (bit 2 (rd 0 1 b) = false → t.rw oCalPbank = s.rw oCalPbank ∧ t.cal.bank = s.cal.bank) ∧
        (∀ x, (x < bankBase ∨ bankBase + 0x801000 ≤ x ∨ bit 2 (rd 0 1 b) = false) → t.byteAt x = s.byteAt x) ∧
        Only [.regs, .mem, .bad, .mbx, .cal, .out] s t ∧
        OnlyRegs s t ([oCalBbox, oCalLost, oCalOldest, oCalPbank, oCalWrite] ++ ringRegs)) ∧
    (∀ answers scope sram target recs, Runs s tag 0x0A02 q → scope = rd 0 1 b → sram = bit 0 (rd 1 1 b) → target = rd 4 4 b →
      scope ≤ 2 → rd 1 1 b ≤ 1 → dumpMax scope sram ≤ rd 8 8 b → (scope = 1 → target < 2000) → (scope = 2 → target < 80000) →
      recs = s.dumpRecs scope sram target → s.MemoryOk →
      ∃ t, exec (.diagDump tag answers) s = .next t ∧ t.free = s.free + recs.length ∧
        Completed s t q 0 (s.dump scope recs answers).length [] ∧
        (∀ y, cellsRead hostDflt t.hostMem y = if q.outAddr ≤ y ∧ y < q.outAddr + (s.dump scope recs answers).length then
            (s.dump scope recs answers).getD (y - q.outAddr) 0 else cellsRead hostDflt s.hostMem y) ∧
        Only [.mbx, .regs, .out, .hostMem, .free] s t ∧ OnlyRegs s t ringRegs) ∧
    (∀ kind n, Runs s tag 0x0A03 q → kind = rd 0 1 b → n = rd 4 4 b → kind ≤ 1 → n < (if kind = 0 then 80000 else 2000) →
      ((if kind = 0 then s.usesCore n else s.usesCluster n) = true → ∃ t, exec (.diagSelftest tag true) s = .next t ∧ Refused s t q 5) ∧
      ((if kind = 0 then s.usesCore n else s.usesCluster n) = false →
        (∃ t, exec (.diagSelftest tag true) s = .next t ∧ Completed s t q 0 0 [0] ∧ Only [.mbx, .regs, .out] s t ∧ OnlyRegs s t ringRegs) ∧
        (∃ t, exec (.diagSelftest tag false) s = .next t ∧ Completed s t q 0 0 [1] ∧
          (kind = 0 → s.coreFenced n = false → t.rf (oCoreFence (n / 40)) (n % 40) (n % 40) = 1) ∧
          (kind = 1 → s.cluFenced n = false → t.cluFenced n = true)))) ∧
    (∀ p, Runs s tag 0x0B01 q → p = rd 1 1 b →
      (rd 0 1 b = 0 → p < 8 → ∃ t, exec (.calPort tag) s = .next t ∧ Completed s t q 0 0 [] ∧ t.rf (oPortStatus p) 63 62 = 1 ∧
        ((s.sport p).queue = [] → t.sport p = {} ∧ (∀ k, k ≠ p → t.sport k = s.sport k) ∧ Only [.mbx, .regs, .out, .fabric] s t) ∧
        Only [.mbx, .regs, .out, .clus, .jug, .reshard, .fabric, .cal] s t) ∧
      (rd 0 1 b = 1 → p < 2 → s.latched = false → ∃ t, exec (.calPort tag) s = .next t ∧ Completed s t q 0 0 [] ∧ t.rf (oBjnPort p) 63 62 = 1 ∧
        Only [.mbx, .regs, .out] s t ∧ OnlyRegs s t (oBjnPort p :: ringRegs)) ∧
      (rd 0 1 b = 1 → p < 2 → s.latched = true → ∃ t, exec (.calPort tag) s = .next t ∧ Refused s t q 0x000A)) ∧
    (Runs s tag 0x0B02 q → rd 0 4 b < 2 ^ 20 →
      ∃ t, exec (.calMem tag) s = .next t ∧ Refused s t q (if s.job.running.isSome then 5 else 0))

/-- ROUND_MAP and ROUND_CHAN (R283, R284, R305, R306, R347): a map that does not cover the owned parameters is refused; between rounds it takes effect at
once, a peer that stays keeping what it has and a new one starting without keys, and otherwise it waits; an admitted channel probes at its full rate, a
retired one drains. ROUND_JOIN, ROUND_ARCHIVE and ROUND_IMPORT (R302, R329, R332, R382): a joiner asks to be let in and pairs as its map says, a sponsor adds
its map; the archive buffer is armed or disarmed; an imported delta is kept where a logged manifest lists it with this hash. -/
def Obligations.RangeMapsChannelsAndRoundsArePrepared : Prop :=
  (∀ (s : State) (tag : BitVec 32) (q : Taken) (b : Bytes), b = q.payload →
    (∀ p m, Runs s tag 0x0801 q → s.job.prog = some p → p.round.isSome = true → (s.reshard = none ∨ s.job.staged = none) → b.length % 32 = 0 →
      m = (chunks 32 (b.length / 32) b).map mkRMap →
      (s.rmapOk p b = false → ∃ t, exec (.roundMap tag) s = .next t ∧ Refused s t q 0x0301) ∧
      (s.rmapOk p b = true → s.rounds.applied = false → (s.rounds.stuck = false ∨ s.rounds.newCfg = false) →
        ∃ t, exec (.roundMap tag) s = .next t ∧ Completed s t q 0 0 [] ∧ t.rounds = { s.rounds with nextMap := some m } ∧
          Only [.mbx, .regs, .out, .rounds] s t ∧ OnlyRegs s t ringRegs) ∧
      (s.rmapOk p b = true → (s.rounds.applied = true ∨ s.rounds.stuck = true ∧ s.rounds.newCfg = true) →
        ∃ t, exec (.roundMap tag) s = .next t ∧ Completed s t q 0 0 [] ∧ t.rounds.map = m ∧ t.rounds.nextMap = none ∧
          (∀ x ∈ s.rounds.peers, ∀ e, m.find? (fun e => e.mac0 == x.mac0) = some e → { x with mac1 := e.mac1, site := e.site } ∈ t.rounds.peers) ∧
          (∀ x ∈ t.rounds.peers, (∃ y ∈ s.rounds.peers, x = { y with mac1 := x.mac1, site := x.site }) ∨
            x = { mac0 := x.mac0, mac1 := x.mac1, site := x.site }) ∧
          (∀ x ∈ t.rounds.peers, ∃ e ∈ m, e.mac0 = x.mac0) ∧ t.rounds.chans = s.rounds.chans ∧
          (s.rounds.stuck = true → s.rounds.newCfg = true → t.rounds.stuck = false ∧ t.rounds.applied = true ∧ t.rf oBjnRoundState 63 61 = 0) ∧
          ((s.rounds.stuck = false ∨ s.rounds.newCfg = false) →
            t.rounds.stuck = s.rounds.stuck ∧ t.rounds.applied = s.rounds.applied ∧ t.rw oBjnRoundState = s.rw oBjnRoundState) ∧
          Only [.mbx, .regs, .out, .rounds] s t ∧ OnlyRegs s t (oBjnRoundState :: ringRegs))) ∧
    (∀ p r n, Runs s tag 0x0801 q → s.job.prog = some p → p.round.isSome = true → s.reshard = some r → s.job.staged = some n → b.length % 32 = 0 →
      s.rmapOk n b = true →
      ∃ t, exec (.roundMap tag) s = .next t ∧ Completed s t q 0 0 [] ∧
        t.rounds = { s.rounds with layoutMap := some ((chunks 32 (b.length / 32) b).map mkRMap) } ∧ Only [.mbx, .regs, .out, .rounds] s t) ∧
    (Runs s tag 0x0801 q → s.cfg? = none → ∃ t, exec (.roundMap tag) s = .next t ∧ Refused s t q 0x000A) ∧
    (∀ n used, Runs s tag 0x0802 q → n = rd 0 1 b → n < 32 → rd 6 1 b = 1 → rd 7 1 b = 0 → rd 1 1 b ≤ 1 → 0 < rd 2 2 b → rd 2 2 b ≤ 4094 →
      rd 4 1 b ≤ 7 → rd 5 1 b ≤ 15 → 0 < rd 8 4 b → rd 8 4 b ≤ 400000 → used = (List.range 32).filter (fun k => s.chanState k != 0) →
      (s.chanState n ≠ 0 → ∃ t, exec (.roundChan tag) s = .next t ∧ Refused s t q 5) ∧
      (s.chanState n = 0 → (∃ k ∈ used, (s.chan k).port = rd 1 1 b ∧ (s.chan k).vid = rd 2 2 b) →
        ∃ t, exec (.roundChan tag) s = .next t ∧ Refused s t q 0x0303) ∧
      (s.chanState n = 0 → (∀ k ∈ used, ¬((s.chan k).port = rd 1 1 b ∧ (s.chan k).vid = rd 2 2 b)) →
        400000 < rd 8 4 b + ((used.filter (fun k => (s.chan k).port == rd 1 1 b)).map (fun k => (s.chan k).rate)).sum →
        ∃ t, exec (.roundChan tag) s = .next t ∧ Refused s t q 0x0302) ∧
      (s.chanState n = 0 → (∀ k ∈ used, ¬((s.chan k).port = rd 1 1 b ∧ (s.chan k).vid = rd 2 2 b)) →
        rd 8 4 b + ((used.filter (fun k => (s.chan k).port == rd 1 1 b)).map (fun k => (s.chan k).rate)).sum ≤ 400000 →
        ∃ t, exec (.roundChan tag) s = .next t ∧ Completed s t q 0 0 [] ∧ t.chanState n = 1 ∧ t.chanSite n = rd 5 1 b ∧
          t.chan n = { port := rd 1 1 b, vid := rd 2 2 b, pcp := rd 4 1 b, site := rd 5 1 b, rate := rd 8 4 b, cap := rd 8 4 b * 1000 } ∧
          t.rf (oChan n) 51 32 = rd 8 4 b * 1024000 / 10 ^ 6 ∧ t.rf (oChan n) 31 0 = 0 ∧ (∀ k, k ≠ n → t.chan k = s.chan k) ∧
          Only [.mbx, .regs, .out, .rounds, .cal, .time] s t)) ∧
    (∀ n, Runs s tag 0x0802 q → n = rd 0 1 b → n < 32 → rd 6 1 b = 0 → rd 7 1 b = 0 →
      ∃ t, exec (.roundChan tag) s = .next t ∧ Completed s t q 0 0 [] ∧
        (s.chanState n = 2 → t.chanState n = if s.rounds.peers.any (fun p => p.sent.any (fun x => x.via.contains n)) then 3 else 0) ∧
        (s.chanState n = 1 → t.chanState n = 0) ∧ (s.chanState n = 0 ∨ s.chanState n = 3 → t.chanState n = s.chanState n) ∧
        t.rounds = s.rounds ∧ Only [.mbx, .regs, .out, .cal, .time] s t)) ∧
  (∀ (s : State) (tag : BitVec 32) (q : Taken) (b : Bytes), b = q.payload →
    (∀ p m, Runs s tag 0x0803 q → s.job.prog = some p → p.round.isSome = true → 8 ≤ b.length → (b.length - 8) % 32 = 0 → rd 1 1 b ≤ 15 →
      allZero (slice 2 6 b) = true → s.rmapOk p (b.drop 8) = true → m = (chunks 32 ((b.length - 8) / 32) (b.drop 8)).map mkRMap →
      (rd 0 1 b = 0 → (s.job.running.isSome = true ∨ s.job.queue ≠ []) → ∃ t, exec (.roundJoin tag) s = .next t ∧ Refused s t q 5) ∧
      (rd 0 1 b = 0 → s.job.running = none → s.job.queue = [] → s.rounds.coord = false →
        ∃ t, exec (.roundJoin tag) s = .next t ∧ Completed s t q 0 0 [] ∧ t.rounds.joiner = some (rd 1 1 b) ∧ t.rounds.joinGot = [] ∧
          t.rounds.joinHeld = [] ∧ t.rounds.joinRound = none ∧ t.rounds.map = m ∧ t.rounds.sponsorOf = s.rounds.sponsorOf ∧ Only [.mbx, .regs, .out, .rounds] s t ∧
          OnlyRegs s t (oBjnRoundState :: ringRegs)) ∧
      (∀ lead dest u, rd 0 1 b = 0 → s.job.running = none → s.job.queue = [] → s.rounds.coord = true → lead = s.rf oBjnRoundState 60 56 →
        (lead ≠ s.site → (∃ e ∈ m, e.site = lead) → dest = lead) → ((lead = s.site ∨ ∀ e ∈ m, e.site ≠ lead) → dest = rd 1 1 b) →
        u = ({ s with rounds := { s.rounds with joiner := some (rd 1 1 b), joinGot := [], joinHeld := [], joinRound := none } }).installMap m →
        ∃ t, exec (.roundJoin tag) s = .next t ∧ Completed s t q 0 0 [] ∧ t.rounds = (u.toSite dest 0x0C (le 1 0 ++ le 1 s.site ++ zeros 6)).rounds ∧ t.rounds.joiner = some (rd 1 1 b) ∧ t.rounds.map = m ∧
          Only [.mbx, .regs, .out, .rounds, .cal] s t) ∧
      (rd 0 1 b = 1 →
        ∃ t, exec (.roundJoin tag) s = .next t ∧ Completed s t q 0 0 [] ∧ t.rounds.sponsorOf = some (rd 1 1 b) ∧ t.rounds.sponsorSent = none ∧
          t.rounds.joiner = s.rounds.joiner ∧ t.rounds.map = s.rounds.map.filter (fun e => e.site != rd 1 1 b) ++ m ∧
          Only [.mbx, .regs, .out, .rounds] s t ∧ OnlyRegs s t (oBjnRoundState :: ringRegs))) ∧
    (Runs s tag 0x0804 q → s.rounds.archWait = [] →
      ∃ t, exec (.roundArchive tag) s = .next t ∧ Completed s t q 0 0 [] ∧
        t.rounds = { s.rounds with archive := if rd 8 8 b = 0 then none else some (rd 0 8 b, rd 8 8 b, 0) } ∧
        Only [.mbx, .regs, .out, .rounds] s t ∧ OnlyRegs s t ringRegs) ∧
    (∀ c, Runs s tag 0x0804 q → s.rounds.archWait ≠ [] → s.cfg? = some c → rd 8 8 b = 0 →
      ∃ t, exec (.roundArchive tag) s = .next t ∧ Completed s t q 0 0 [] ∧ t.rounds.archWait = [] ∧ t.rounds.archive = none ∧
        (∀ d, d ∈ t.rounds.rx ↔ d ∈ s.rounds.rx ∧ ∀ m ∈ s.rounds.archWait,
          ¬((∃ e ∈ m.entries, e.1 = d.site) ∧ d.round.toNat ≤ m.round.toNat ∨ d.round.toNat + c.stale < m.round.toNat)) ∧
        Only [.mbx, .regs, .out, .rounds] s t ∧ OnlyRegs s t (oBjnRoundState :: ringRegs)) ∧
    (∀ x, Runs s tag 0x0805 q → x = s.hostGet (rd 0 8 b) (rd 8 8 b) → 64 + rd 24 8 x ≤ x.length →
      (∀ m ∈ s.replay.manifests, m.1.round = BitVec.ofNat 64 (rd 0 8 x) → ∀ e ∈ m.1.entries, ¬(e.1 = rd 8 1 x ∧ e.2.2 = BitVec.ofNat 64 (rd 16 8 x))) →
      ∃ t, exec (.roundImport tag) s = .next t ∧ Refused s t q 0x000A) ∧
    (∀ x d m hs i, Runs s tag 0x0805 q → x = s.hostGet (rd 0 8 b) (rd 8 8 b) → d = slice 64 (rd 24 8 x) x →
      64 + rd 24 8 x ≤ x.length → s.replay.manifests.find? (fun m => m.1.round == BitVec.ofNat 64 (rd 0 8 x)) = some (m, hs) →
      m.entries.findIdx? (fun e => e.1 == rd 8 1 x && e.2.2 == BitVec.ofNat 64 (rd 16 8 x)) = some i →
      (sha3 d = hs.getD i [] →
        ∃ t, exec (.roundImport tag) s = .next t ∧ Completed s t q 0 0 [] ∧
          t.rounds = { s.rounds with rx := s.rounds.rx.filter (fun y => y.site != rd 8 1 x || y.round != BitVec.ofNat 64 (rd 16 8 x)) ++
            [{ site := rd 8 1 x, round := BitVec.ofNat 64 (rd 16 8 x), mac := 0, total := d.length, data := putData [] 0 d, complete := true }] } ∧
          Only [.mbx, .regs, .out, .rounds] s t ∧ OnlyRegs s t (oBjnRoundState :: ringRegs)) ∧
      (sha3 d ≠ hs.getD i [] →
        ∃ t, exec (.roundImport tag) s = .next t ∧ Completed s t q 0x0208 0 [] ∧ t.replay = { s.replay with bad := s.replay.bad ++ [m.step] } ∧
          Only [.mbx, .regs, .out, .replay] s t ∧ OnlyRegs s t ringRegs)))

/-- RSEND, reduction contributions, RRECV and RHOLD (R60, R166, R167, R187, R237, R238, R257, R271 to R273): a partial leaves as contributions in the form of
its mode on a numbered stream; a contribution is taken once, when all its frames have been accepted; one of the plan's epoch merges exactly into its slots
in the region that the plan declares, and the last one rounds the shard; entries complete and signal with their last shard, those that send with the
acknowledgement of their last frame. -/
def Obligations.PartialsReduceToTheirOwners : Prop :=
  (∀ (op mb : Nat) (s : State) (j : StepJob) (p : Prog) (o : PlanOp) (b : Bytes) (wide : Bool) (cs : List Contribution), InPlan s j p op 1 o →
    (op, mb) ∉ s.jug.ran → s.triggered o mb = true → (if o.perMb then mb < dMicro j.desc else mb = 0) → wide = bit 0 o.arg →
    (∀ h, s.napping (o.loc + o.mbOff mb) = some h → (s.clu h).power = 3 → s.cluFenced h = false → ∃ t, exec (.rsend op mb) s = .next t ∧ Asks s t h) ∧
    (s.napping (o.loc + o.mbOff mb) = none → s.load (o.loc + o.mbOff mb) ((if wide then 80 else 16) * o.count) = .ok b → (wide = true → (chunks 80 o.count b).all lx32Ok = true) →
    cs = (if dMode j.desc = 1 then [contributionOf s.self .fp32 o.tensor o.first o.count p.plan.epoch
            ((accsOf wide b).flatMap (fun a => le 4 (roundAcc fp32 0 0 (if wide then u32e else u16) one32 a).x))]
          else if wide then [contributionOf s.self .lx32 o.tensor o.first o.count p.plan.epoch b]
          else lxpContribs s.self o p.plan.epoch (o.count / 256 + 1) o.first (accsOf wide b)) →
    ∃ t, exec (.rsend op mb) s = .next t ∧ t.jug.ran = s.jug.ran ++ [(op, mb)] ∧
      EmitsOf Ev.isContribution s t (cs.zipIdx.map (fun x => .contribution o.peer { x.1 with
        stream := BitVec.ofNat 16 o.stream
        seq := (s.txOf o.peer o.stream).next + BitVec.ofNat 64 ((cs.take x.2).map (fun y => frameCount y.data)).sum })) ∧
      (t.txOf o.peer o.stream).next = (s.txOf o.peer o.stream).next + BitVec.ofNat 64 (cs.map (fun y => frameCount y.data)).sum ∧
      (∃ h, (t.txOf o.peer o.stream).held = (s.txOf o.peer o.stream).held ++ h ∧ ∀ x ∈ h, x.2.1 = op ∧ x.2.2.1 = mb) ∧
      (cs ≠ [] → t.jug.due = s.jug.due ++ [(op, mb)] ∧ t.clus = s.clus) ∧
      (cs = [] → s.unackedOp op (some mb) = false → t.jug.due = s.jug.due ∧ Signalled s t o) ∧
      t.bad = s.bad ∧ Only [.regs, .bad, .clus, .jug, .fabric, .cal, .out] s t ∧ OnlyRegs s t (oCalLost :: portRegs ++ s.eccRegs))) ∧
  (∀ (jug : Fin 16) (c : Contribution) (fault : Bool) (s : State), s.takeFrames c.src.toNat c.stream.toNat c.seq (frameCount c.data) = none →
    exec (.reductionContribution jug c fault) s = .next s) ∧
  (∀ (jug : Fin 16) (c : Contribution) (fault : Bool) (s u : State) (p : Prog), s.job.prog = some p → p.gen = false → s.rf oRstJob 61 61 = 1 → s.hang = none →
    s.takeFrames c.src.toNat c.stream.toNat c.seq (frameCount c.data) = some u →
    ∃ t, exec (.reductionContribution jug c fault) s = .next t ∧ t.jug = { s.jug with discarded := s.jug.discarded + 1 } ∧ t.fabric = u.fabric ∧
      Only [.jug, .fabric] s t) ∧
  (∀ (jug : Fin 16) (c : Contribution) (s u : State) (p : Prog), s.job.prog = some p → p.gen = false → s.rf oRstJob 61 61 = 0 → s.hang = none →
    s.takeFrames c.src.toNat c.stream.toNat c.seq (frameCount c.data) = some u →
    Only [.fabric] s u ∧ u.takeFrames c.src.toNat c.stream.toNat c.seq (frameCount c.data) = none ∧
    (c.epoch.toNat ≠ p.plan.epoch → s.jug.newEpochCommit = false →
      ∃ t, exec (.reductionContribution jug c false) s = .next t ∧ t.jug = { s.jug with discarded := s.jug.discarded + 1 } ∧ t.fabric = u.fabric ∧
        Only [.jug, .fabric] s t) ∧
    (s.job.running = none → (c.epoch.toNat ≠ p.plan.epoch ∧ s.jug.newEpochCommit = true ∨ c.epoch.toNat = p.plan.epoch ∧ c.count = 0) →
      ∃ t, exec (.reductionContribution jug c false) s = .next t ∧ t.rf oIntStatus 7 7 = 1 ∧ t.jug = s.jug ∧ t.fabric = u.fabric ∧
        Only [.regs, .fabric, .cal, .out] s t) ∧
    (c.epoch.toNat = p.plan.epoch → s.job.running = none →
      ∃ t, exec (.reductionContribution jug c true) s = .next t ∧ t.rf oIntStatus 7 7 = 1 ∧ t.jug = s.jug ∧ t.fabric = u.fabric ∧
        Only [.regs, .fabric, .cal, .out] s t) ∧
    (∀ j o op as a parts, c.epoch.toNat = p.plan.epoch → s.job.running = some j → 0 < c.count → (c.form = .fp32 → dMode j.desc = 1) →
      p.rrecvs.find? (fun x => x.1.jug == jug.val && x.1.tensor == c.tensor.toNat && decide (x.1.first ≤ c.first.toNat) &&
        decide (c.first.toNat + c.count ≤ x.1.first + x.1.count)) = some (o, op) →
      carriedOf o.slot32 c = .ok as → a = s.accSet op c.epoch.toNat →
      parts = (s.shardsIn p c.tensor.toNat c.first.toNat c.count).map (fun sh =>
        (sh.2.2.1, sh.2.2.2, min (c.first.toNat + c.count) (sh.2.2.1 + sh.2.2.2) - max c.first.toNat sh.2.2.1)) →
      (∀ x ∈ parts, SMap.get a.counts x.1 0 + x.2.2 < o.contrib * x.2.1) → parts.Pairwise (fun x y => x.1 ≠ y.1) →
      (∀ sh ∈ s.shardsIn p o.tensor o.first o.count, sh.2.2.1 ∉ parts.map (·.1) →
        SMap.get a.counts sh.2.2.1 0 = o.contrib * sh.2.2.2 → (op, 1 + sh.2.1 + sh.1 * 2 ^ 32) ∈ s.jug.ran) →
      s.MemoryOk →
      (∀ old, (∀ x ∈ parts, (SMap.get? a.counts x.1).isSome = true) → s.readAccs o c.first.toNat as.length = .ok old →
        (s.store (o.slotAt c.first.toNat) ((List.zipWith Acc.merge old as).flatMap o.slotBits)).2 = none →
        ∃ t, exec (.reductionContribution jug c false) s = .next t ∧
          Wrote s t [(o.slotAt c.first.toNat, (List.zipWith Acc.merge old as).flatMap o.slotBits)] ∧
          (∀ x ∈ parts, SMap.get (t.accSet op c.epoch.toNat).counts x.1 0 = SMap.get a.counts x.1 0 + x.2.2) ∧
          (∀ e n, (e ≠ op ∨ n ≠ c.epoch.toNat) → t.accSet e n = s.accSet e n) ∧ t.jug.ran = s.jug.ran ∧ t.fabric = u.fabric ∧
          Only [.mem, .hostMem, .bad, .jug, .fabric] s t) ∧
      (∀ f n d clear, parts = [(f, n, d)] → SMap.get? a.counts f = none → clear = (List.replicate n (o.slotBits {})).flatten → as.length = c.count →
        (∃ b, s.load (o.slotAt f) (o.slotWidth * n) = .ok b) → f ≤ c.first.toNat → c.first.toNat + c.count ≤ f + n →
        (s.store (o.slotAt f) clear).2 = none →
        ((s.store (o.slotAt f) clear).1.store (o.slotAt c.first.toNat) ((as.map (Acc.merge {})).flatMap o.slotBits)).2 = none →
        ∃ t, exec (.reductionContribution jug c false) s = .next t ∧
          Wrote s t [(o.slotAt f, clear), (o.slotAt c.first.toNat, (as.map (Acc.merge {})).flatMap o.slotBits)] ∧
          SMap.get (t.accSet op c.epoch.toNat).counts f 0 = d ∧ t.jug.ran = s.jug.ran ∧ t.fabric = u.fabric ∧
          Only [.mem, .hostMem, .bad, .jug, .fabric] s t)) ∧
    (∀ j o op as old a i k first n v, c.epoch.toNat = p.plan.epoch → s.job.running = some j → s.triggered o 0 = true → 0 < c.count → (c.form = .fp32 → dMode j.desc = 1) →
      p.rrecvs.find? (fun x => x.1.jug == jug.val && x.1.tensor == c.tensor.toNat && decide (x.1.first ≤ c.first.toNat) &&
        decide (c.first.toNat + c.count ≤ x.1.first + x.1.count)) = some (o, op) →
      carriedOf o.slot32 c = .ok as → a = s.accSet op c.epoch.toNat → s.shardsIn p c.tensor.toNat c.first.toNat c.count = [(i, k, first, n)] →
      SMap.get a.counts first 0 + (min (c.first.toNat + c.count) (first + n) - max c.first.toNat first) = o.contrib * n →
      s.shardsIn p o.tensor o.first o.count = [(i, k, first, n)] → (op, 1 + k + i * 2 ^ 32) ∉ s.jug.ran →
      (SMap.get? a.counts first).isSome = true → u.readAccs o c.first.toNat as.length = .ok old →
      u.store (o.slotAt c.first.toNat) ((List.zipWith Acc.merge old as).flatMap o.slotBits) = (v, none) →
      exec (.reductionContribution jug c false) s =
        let b : AccSet := { a with counts := SMap.upd a.counts first 0 (fun _ => o.contrib * n) }
        .next ((v.setAccSet b).reduceShard p op o b (i, k, first, n)))) ∧
  (∀ (s : State) (p : Prog) (op : Nat) (o : PlanOp) (a : AccSet) (i k first n : Nat) (as : List Acc) (vals : List (BitVec 32)) (layer : Nat),
    layer = (((s.held p)[i]?).map (·.layer)).getD 0 → p.plan.listOf o = [] → s.MemoryOk → (SMap.get? a.counts first).isSome = true →
    s.readAccs o first n = .ok as → (s.store (o.slotAt first) ((List.replicate n (o.slotBits {})).flatten)).2 = none →
    vals = as.map (fun x => BitVec.ofNat 32 (roundAcc fp32 0 0 (if o.slot32 then u32e else u16) (s.scaleSel (bits 23 16 o.arg)) x).x) →
    (s.reduceShard p op o a (i, k, first, n)).strg.reduced =
        s.strg.reduced ++ [{ entry := i, shard := k, vals := vals, digest := fpSum 0 1 layer first vals, owned := true }] ∧
      (s.reduceShard p op o a (i, k, first, n)).jug.ran = s.jug.ran ++ [(op, 1 + k + i * 2 ^ 32)] ∧
      Wrote s (s.reduceShard p op o a (i, k, first, n)) [(o.slotAt first, (List.replicate n (o.slotBits {})).flatten)] ∧
      Only [.mem, .hostMem, .bad, .jug, .strg] s (s.reduceShard p op o a (i, k, first, n))) ∧
  (∀ (op : Nat) (s : State) (j : StepJob) (p : Prog) (o : PlanOp), InPlan s j p op 2 o → (op, 0) ∉ s.jug.ran → s.triggered o 0 = true →
    (∀ sh ∈ s.shardsIn p o.tensor o.first o.count, (op, 1 + sh.2.1 + sh.1 * 2 ^ 32) ∈ s.jug.ran) →
    ∃ t, exec (.rrecv op) s = .next t ∧ t.jug.ran = s.jug.ran ++ [(op, 0)] ∧
      (s.unackedOp op (some 0) = false → t.jug.due = s.jug.due ∧ Signalled s t o) ∧
      (s.unackedOp op (some 0) = true → t.jug.due = s.jug.due ++ [(op, 0)] ∧ t.clus = s.clus) ∧ Only [.regs, .clus, .jug, .cal] s t ∧
      OnlyRegs s t [oCalLost]) ∧
  (∀ (op shard : Nat) (values : List (BitVec 32)) (digest : Word) (s : State) (j : StepJob) (p : Prog) (o : PlanOp) (sh : Nat × Nat × Nat × Nat),
    InPlan s j p op 3 o → (s.shardsIn p o.tensor o.first o.count)[shard]? = some sh → (op, 1 + shard) ∉ s.jug.ran → s.triggered o 0 = true →
    values.length = sh.2.2.2 →
    ∃ t, exec (.rhold op shard values digest) s = .next t ∧ t.jug = { s.jug with ran := s.jug.ran ++ [(op, 1 + shard)] } ∧
      t.strg = { s.strg with reduced := s.strg.reduced ++ [{ entry := sh.1, shard := sh.2.1, vals := values, digest := digest, owned := false }] } ∧
      (if ∀ k, k < (s.shardsIn p o.tensor o.first o.count).length → k = shard ∨ (op, 1 + k) ∈ s.jug.ran then Signalled s t o else t.clus = s.clus) ∧
      Only [.regs, .clus, .strg, .jug, .cal] s t ∧ OnlyRegs s t [oCalLost])

/-- GATHER and its requests (R218, R274): the request goes to the owner once; what arrives is coded into blocks with their index table; an owner streams its
committed working weights, and a range that lies in no entry of its own is an error. Both travel on streams (assumption 6), and the entry completes once its
request is acknowledged and what it asked for has arrived. -/
def Obligations.GathersFetchCommittedWeights : Prop :=
  (∀ (op mb : Nat) (s : State) (j : StepJob) (p : Prog) (o : PlanOp), InPlan s j p op 4 o → s.triggered o mb = true → (op, mb) ∉ s.jug.ran →
    (if o.perMb then mb < dMicro j.desc else mb = 0) →
    ((op, mb) ∉ s.jug.asked →
      ∃ t, exec (.gather op mb none) s = .next t ∧ t.jug = { s.jug with asked := s.jug.asked ++ [(op, mb)] } ∧
        (∃ es, Emits s t (.message o.peer (.gatherRequest o.tensor o.first o.count) :: es)) ∧ Streamed s t o.peer o.stream (gatherBytes o) ∧
        Only [.regs, .jug, .fabric, .cal, .out] s t ∧ OnlyRegs s t (oCalLost :: portRegs)) ∧
    (∀ b bs h, (op, mb) ∈ s.jug.asked → b.length = 2 * o.count → bs = blocksOf 0 (o.count / 256 + 1) (elemsLE 2 b) →
      s.napping (o.loc + o.mbOff mb) = some h → s.napping (o.aux + o.mbOff mb) = some h → s.unackedOp op (some mb) = true →
      ∃ t, exec (.gather op mb (some b)) s = .next t ∧ t.jug = { s.jug with ran := s.jug.ran ++ [(op, mb)], due := s.jug.due ++ [(op, mb)] } ∧
        t.clu h = { s.clu h with stop := (s.clu h).stop ++ [.write (o.loc + o.mbOff mb) bs.flatten, .write (o.aux + o.mbOff mb) (indexTable bs)] } ∧
        (∀ g, g ≠ h → t.clu g = s.clu g) ∧ Only [.clus, .jug] s t) ∧
    (∀ b bs, (op, mb) ∈ s.jug.asked → b.length = 2 * o.count → bs = blocksOf 0 (o.count / 256 + 1) (elemsLE 2 b) → s.MemoryOk →
      s.napping (o.loc + o.mbOff mb) = none → s.napping (o.aux + o.mbOff mb) = none →
      (s.store (o.loc + o.mbOff mb) bs.flatten).2 = none → (s.store (o.aux + o.mbOff mb) (indexTable bs)).2 = none →
      ∃ t, exec (.gather op mb (some b)) s = .next t ∧ t.jug.ran = s.jug.ran ++ [(op, mb)] ∧
        (s.unackedOp op (some mb) = false → t.jug.due = s.jug.due ∧ Signalled s t o) ∧
        (s.unackedOp op (some mb) = true → t.jug.due = s.jug.due ++ [(op, mb)] ∧ t.clus = s.clus) ∧
        Wrote s t [(o.loc + o.mbOff mb, bs.flatten), (o.aux + o.mbOff mb, indexTable bs)] ∧
        Only [.regs, .mem, .hostMem, .bad, .clus, .jug, .cal] s t ∧ OnlyRegs s t [oCalLost])) ∧
  (∀ (src : BitVec 20) (tensor : BitVec 16) (first : BitVec 48) (count : BitVec 32) (s : State) (p : Prog), s.job.prog = some p →
    (∀ e i h b, (s.held p).zipIdx.find? (fun x => x.1.tensor == tensor.toNat && decide (x.1.first ≤ first.toNat) &&
        decide (first.toNat + count.toNat ≤ x.1.first + x.1.count)) = some (e, i) → s.home p i s.committed = some h →
      s.load (h.w + 2 * (first.toNat - e.first)) (2 * count.toNat) = .ok b →
      ∃ t, exec (.gatherRequest src tensor first count) s = .next t ∧ (∃ es, Emits s t (.gathered src.toNat tensor.toNat first.toNat b :: es)) ∧
        Streamed s t src.toNat gatherStream b ∧ Only [.regs, .fabric, .cal, .out] s t ∧ OnlyRegs s t (oCalLost :: portRegs)) ∧
    ((∀ e ∈ s.held p, ¬(e.tensor = tensor.toNat ∧ e.first ≤ first.toNat ∧ first.toNat + count.toNat ≤ e.first + e.count)) → s.job.running = none →
      ∃ t, exec (.gatherRequest src tensor first count) s = .next t ∧ t.cal ≠ s.cal ∧ Only [.regs, .cal] s t ∧ OnlyRegs s t [oCalLost]))

/-- Token dispatch (R227, R228, R272, R275): the rows of the kept choices leave in chunks for their experts' homes with a count for every group and expert; at
a home a chunk goes to its slot and, with the row's last chunk, its origin is kept; rows return to their origin; an entry completes once its own rows have
gone and are acknowledged and it holds those it expects. -/
def Obligations.TokensTravelToTheirExpertsAndBack : Prop :=
  (∀ (op mb : Nat) (scores : List (Nat × List (BitVec 32))) (s : State) (j : StepJob) (p : Prog) (o : PlanOp), InPlan s j p op 5 o →
    (op, mb) ∉ s.jug.ran → s.triggered o mb = true → (if o.perMb then mb < dMicro j.desc else mb = 0) →
    (∀ h, s.napping (o.loc + o.mbOff mb) = some h → (s.clu h).power = 3 → s.cluFenced h = false →
      ∃ t, exec (.tokenDispatch op mb scores) s = .next t ∧ Asks s t h) ∧
    (s.napping (o.loc + o.mbOff mb) = none → (∀ es g t0 cap kept l (row : Nat → Bytes), o.dir = false → es = p.layerExperts o.layer → g = max p.routeGroup 1 → t0 = p.mbToken j.desc mb →
      cap = (fun e => ((es[e]?).map (·.cap)).getD 0) →
      kept = keptChoices (((es[0]?).map (·.active)).getD 0) g cap (scores.insertionSort (fun a b => a.1 ≤ b.1)) →
      (∀ x ∈ kept, s.load (o.loc + o.mbOff mb + (x.1 - t0) * o.rowBytes) o.rowBytes = .ok (row x.1)) →
      l = kept.flatMap (fun x => (chunks 4080 ((o.rowBytes + 4079) / 4080) (row x.1)).zipIdx.map (fun y =>
            Ev.rows (p.atPosition (((es[x.2.1]?).map (·.home)).getD 0)) (.chunk (BitVec.ofNat 16 o.layer) (BitVec.ofNat 20 s.self) (BitVec.ofNat 48 x.1)
              (BitVec.ofNat 16 x.2.1) (BitVec.ofNat 32 ((x.1 - t0) / g * cap x.2.1 + x.2.2.2)) (BitVec.ofNat 16 (510 * y.2))
              (BitVec.ofNat 8 x.2.2.1) y.1))) ++
          (List.range (o.count / g)).flatMap (fun k => (List.range es.length).map (fun e =>
            Ev.rows (p.atPosition (((es[e]?).map (·.home)).getD 0)) (.count (BitVec.ofNat 16 o.layer) (BitVec.ofNat 20 s.self) (BitVec.ofNat 16 e)
              (t0 / g + k) (BitVec.ofNat 32 (kept.filter (fun x => x.2.1 == e && x.1 / g == t0 / g + k)).length)))) →
      ∃ t, exec (.tokenDispatch op mb scores) s = .next t ∧ (op, mb) ∈ t.jug.ran ∧ t.jug.kept = s.jug.kept ++ [(o.layer, mb, kept.length)] ∧
        EmitsOf Ev.isRows s t l ∧
        (s.homeFull p j o mb = true → (op, mb + 65536) ∉ s.jug.ran → (op, mb + 65536) ∈ t.jug.ran ∧
          (l ≠ [] → t.jug.due = s.jug.due ++ [(op, mb)] ∧ t.clus = s.clus) ∧
          (l = [] → s.unackedOp op (some mb) = false → t.jug.due = s.jug.due ∧ Signalled s t o)) ∧
        (s.homeFull p j o mb = false → t.jug.due = s.jug.due ∧ t.clus = s.clus) ∧ Only [.regs, .clus, .jug, .fabric, .cal, .out] s t ∧
        OnlyRegs s t (oCalLost :: portRegs)) ∧
    (∀ mine here got (row : Nat × Nat × Nat × Nat × Nat × Nat → Bytes), o.dir = true → mine = (p.layerExperts o.layer).filter (fun e => e.home == p.position) →
      here = s.jug.origin.filter (fun r => r.1 == o.layer && decide (p.mbToken j.desc mb ≤ r.2.2.2.2.1) && decide (r.2.2.2.2.1 < p.mbToken j.desc (mb + 1))) →
      (∀ x ∈ here, s.load (o.loc + o.mbOff mb + (((mine.takeWhile (fun e => e.expert != x.2.1)).map (fun e => p.plan.rows o e.expert)).sum + x.2.2.1) * o.rowBytes)
        o.rowBytes = .ok (row x)) →
      got = (s.jug.returned.filter (fun x => x.1 == o.layer && x.2.1 == mb)).length → (op, mb + 65536) ∉ s.jug.ran →
      ∃ t, exec (.tokenDispatch op mb scores) s = .next t ∧
        EmitsOf Ev.isRows s t (here.map (fun x => Ev.rows x.2.2.2.1 (.returned (BitVec.ofNat 16 o.layer) mb (x.2.2.2.2.1 - p.mbToken j.desc mb)
          (BitVec.ofNat 8 x.2.2.2.2.2) (row x)))) ∧
        ((o.layer, mb, got) ∉ s.jug.kept → t.jug = { s.jug with ran := s.jug.ran ++ [(op, mb)] } ∧ t.clus = s.clus) ∧
        ((o.layer, mb, got) ∈ s.jug.kept → t.jug.ran = s.jug.ran ++ [(op, mb), (op, mb + 65536)] ∧
          (here ≠ [] → t.jug.due = s.jug.due ++ [(op, mb)] ∧ t.clus = s.clus) ∧
          (here = [] → s.unackedOp op (some mb) = false → t.jug.due = s.jug.due ∧ Signalled s t o)) ∧
        Only [.regs, .clus, .jug, .fabric, .cal, .out] s t ∧ OnlyRegs s t (oCalLost :: portRegs)))) ∧
  (∀ (s : State) (j : StepJob) (p : Prog), s.job.running = some j → s.job.prog = some p → p.gen = false → s.rf oRstJob 61 61 = 0 → s.hang = none → s.MemoryOk →
    (∀ l src tok e slot off ch data o op r key cs at_, p.dispatchOp (BitVec.toNat l) false = some (o, op) →
      at_ = p.plan.recvBase o (BitVec.toNat e) + (BitVec.toNat slot) * o.rowBytes + (BitVec.toNat off) * 8 →
      r = (l.toNat, e.toNat, slot.toNat, BitVec.toNat src, BitVec.toNat tok, BitVec.toNat ch) →
      key = (l.toNat, e.toNat, slot.toNat, tok.toNat, off.toNat) → cs = s.jug.chunks ++ [key] →
      (key ∈ s.jug.chunks → exec (.dispatchRecord (.chunk l src tok e slot off ch data)) s = .next s) ∧
      (∀ h, key ∉ s.jug.chunks → s.napping at_ = some h →
        ∃ t, exec (.dispatchRecord (.chunk l src tok e slot off ch data)) s = .next t ∧ t.jug.chunks = cs ∧ t.mem = s.mem ∧
          (∃ w, (t.clu h).stop = (s.clu h).stop ++ .write at_ data :: w) ∧ Only [.regs, .clus, .jug, .cal] s t) ∧
      (key ∉ s.jug.chunks → s.napping at_ = none → (s.store at_ data).2 = none →
        ∃ t, exec (.dispatchRecord (.chunk l src tok e slot off ch data)) s = .next t ∧ Wrote s t [(at_, data)] ∧ t.jug.chunks = cs ∧
          t.jug.origin = (if (cs.filter (fun x => x.1 == l.toNat && x.2.1 == e.toNat && x.2.2.1 == slot.toNat && x.2.2.2.1 == tok.toNat)).length =
              (o.rowBytes + 4079) / 4080 ∧ r ∉ s.jug.origin then s.jug.origin ++ [r] else s.jug.origin) ∧ t.jug.counts = s.jug.counts ∧
          Only [.regs, .mem, .hostMem, .bad, .clus, .jug, .cal] s t ∧ OnlyRegs s t [oCalLost])) ∧
    (∀ l src e g n o op, p.dispatchOp (BitVec.toNat l) false = some (o, op) → (∃ c ∈ s.jug.counts, c.1 = l.toNat ∧ c.2.1 = BitVec.toNat e ∧ c.2.2.1 = g) →
      exec (.dispatchRecord (.count l src e g n)) s = .next s) ∧
    (∀ l src e g n o op, p.dispatchOp (BitVec.toNat l) false = some (o, op) → (∀ c ∈ s.jug.counts, ¬(c.1 = l.toNat ∧ c.2.1 = BitVec.toNat e ∧ c.2.2.1 = g)) →
      ∃ t, exec (.dispatchRecord (.count l src e g n)) s = .next t ∧ t.jug.counts = s.jug.counts ++ [(l.toNat, e.toNat, g, n.toNat)] ∧
        t.jug.origin = s.jug.origin ∧ Only [.regs, .clus, .jug, .cal] s t ∧ OnlyRegs s t [oCalLost]) ∧
    (∀ l mb tok ch data o op place, p.dispatchOp (BitVec.toNat l) true = some (o, op) →
      place = tok * (((p.layerExperts l.toNat)[0]?).map (·.active)).getD 0 + BitVec.toNat ch →
      ((l.toNat, mb, place) ∈ s.jug.returned → exec (.dispatchRecord (.returned l mb tok ch data)) s = .next s) ∧
      (s.napping (o.loc + o.mbOff mb + place * o.rowBytes) = none →
      (s.store (o.loc + o.mbOff mb + place * o.rowBytes) data).2 = none → (l.toNat, mb, place) ∉ s.jug.returned →
      ∃ t, exec (.dispatchRecord (.returned l mb tok ch data)) s = .next t ∧ Wrote s t [(o.loc + o.mbOff mb + place * o.rowBytes, data)] ∧
        t.jug.returned = s.jug.returned ++ [(l.toNat, mb, place)] ∧
        (if (op, mb) ∈ s.jug.ran ∧ (op, mb + 65536) ∉ s.jug.ran ∧
            (o.layer, mb, ((s.jug.returned ++ [(l.toNat, mb, place)]).filter (fun x => x.1 == o.layer && x.2.1 == mb)).length) ∈ s.jug.kept then
           t.jug.ran = s.jug.ran ++ [(op, mb + 65536)] ∧ (s.unackedOp op (some mb) = false → t.jug.due = s.jug.due ∧ Signalled s t o) ∧
             (s.unackedOp op (some mb) = true → t.jug.due = s.jug.due ++ [(op, mb)] ∧ t.clus = s.clus)
         else t.jug.ran = s.jug.ran ∧ t.jug.due = s.jug.due ∧ t.clus = s.clus) ∧
        Only [.regs, .mem, .hostMem, .bad, .clus, .jug, .cal] s t ∧ OnlyRegs s t [oCalLost])))

/-- A frame sealed under a key opens under it to its plaintext, at every value of its header's fields, and so does the same frame sent again with FLAGS.RESEND
set (R287, R304, R315 to R317, R350). That the additional data reads FLAGS.RESEND as 0 is the model's choice (assumption 34). -/
def Obligations.SealedFramesOpenToTheirPlaintext : Prop :=
  ∀ (s : State) (f : BjnFrame) (p : Peer) (k : LineKey) (typ c flags site dst seq ctr gidx gk gm : Nat) (plain b pad : Bytes), Admitted s f typ p →
    p.rx = some k → p.prev = none → k.epoch < 256 → c < 256 → flags < 256 → ctr < 2 ^ 64 → plain.length ≤ 16384 →
    b = sealedBytes k site dst c typ gidx gk gm flags seq ctr plain →
    (f.bytes = b ++ pad ∨ f.bytes = b.take 3 ++ le 1 (flags ||| 2) ++ b.drop 4 ++ pad) →
    s.openFrame f typ = (s.setPeer p, some (p, plain))

/-- Which Borjan frames are discarded (R286, R287, R316 to R318, R320): without exactly one C-tag, with another EtherType, at a port that is down, from no
peer of the range map, or while entropy has failed or the alarm is latched, nothing happens; a bad length, an unknown epoch and a failed tag are counted; a
frame under the previous key opens until its grace ends. -/
def Obligations.BorjanDiscardsWhatDoesNotOpen : Prop :=
  ∀ (f : BjnFrame) (chan : ChanNo) (rxTime : Word) (s : State) (c : Instr) (typ : Nat),
    (c, typ) ∈ [(Instr.drun f, 1), (.parity f, 2), (.back f, 3), (.req f, 4), (.haveFrame f, 5), (.manifest f, 6), (.mack f, 7), (.seal f, 8), (.mquery f, 9),
      (.mreply f, 10), (.tt f chan rxTime, 11), (.epochGone f, 13)] →
    ((f.ctags ≠ 0 ∨ f.srcMac ≠ 0) →
      (f.ctags ≠ 1 ∨ f.stag = true ∨ f.ether.toNat ≠ s.rf oBjnCtl 63 48 ∨ s.rf (oBjnPort f.port) 63 62 ≠ 2 ∨ rd 0 1 f.bytes ≠ typ ∨ s.noEntropy = true ∨
        s.latched = true ∨ s.peerOf f = none) → exec c s = .next s) ∧
    (∀ p, Admitted s f typ p →
      (16384 < rd 4 2 f.bytes ∨ f.bytes.length < rd 4 2 f.bytes + 48 →
        ∃ t, exec c s = .next t ∧ t.rf (oCiph f.port) 31 16 = min (s.rf (oCiph f.port) 31 16 + 1) 0xFFFF ∧ Only [.regs] s t ∧ OnlyRegs s t [oCiph f.port]) ∧
      (rd 4 2 f.bytes ≤ 16384 → rd 4 2 f.bytes + 48 ≤ f.bytes.length →
        (p.rx = none → p.prev = none →
          ∃ t, exec c s = .next t ∧ t.rf (oCiph f.port) 15 0 = min (s.rf (oCiph f.port) 15 0 + 1) 0xFFFF ∧ Only [.regs] s t ∧ OnlyRegs s t [oCiph f.port]) ∧
        (∀ k, p.rx = some k → k.epoch = rd 1 1 f.bytes →
          gcmOpen k.key (bjnIv k.epoch (rd 2 1 f.bytes) (rd 16 8 f.bytes)) (bjnAad f.bytes) (slice 32 (rd 4 2 f.bytes + 16) f.bytes) = none →
          ∃ t, exec c s = .next t ∧ t.rf (oCiph f.port) 47 32 = min (s.rf (oCiph f.port) 47 32 + 1) 0xFFFF ∧ Only [.regs] s t ∧
            OnlyRegs s t [oCiph f.port]) ∧
        (∀ k o pt, p.rx = some k → p.prev = some o → k.epoch ≠ rd 1 1 f.bytes → o.epoch = rd 1 1 f.bytes →
          gcmOpen o.key (bjnIv o.epoch (rd 2 1 f.bytes) (rd 16 8 f.bytes)) (bjnAad f.bytes) (slice 32 (rd 4 2 f.bytes + 16) f.bytes) = some pt →
          ∃ q u, s.openFrame f typ = (u, some (q, pt)) ∧ q = { p with grace := q.grace } ∧ PeerIs s u p q ∧ Only [.rounds] s u)))

/-- Data and parity frames, acknowledgement and re-sending (R287, R289, R290, R303, R304, R306, R308, R316, R318): a new segment is kept by round and offset
and its SEQ acknowledged; what an acknowledgement covers leaves the store, and with it groups that are whole; a frame that is still needed goes out again as
it was, and counts as re-sent on the channel that carried it; a requested range is cut into new frames; a short group leaves with its parity, unless the
parity would be longer than a frame may be (assumption 62); what an erased epoch lost is sealed anew under the same SEQ. -/
def Obligations.DeltaFramesAreKeptAndAcknowledged : Prop :=
  (∀ (f : BjnFrame) (s : State) (p : Peer) (pt : Bytes) (seq : Word), seq = BitVec.ofNat 64 (rd 8 8 f.bytes) →
    (∀ c typ, (c, typ) ∈ [(Instr.drun f, 1), (.parity f, 2)] → Opened s f typ p pt → (seq < p.cum ∨ seq ∈ p.got) →
      ∃ t, exec c s = .next t ∧ PeerIs s t p { p with owesBack := true } ∧ t.rounds.rx = s.rounds.rx ∧ Only [.rounds] s t) ∧
    (∀ c typ k, (c, typ) ∈ [(Instr.drun f, 1), (.parity f, 2)] → Opened s f typ p pt → p.cum ≤ seq → seq ∉ p.got →
      k = ({ seq := seq, typ := typ, gidx := rd 24 1 f.bytes, gk := rd 25 1 f.bytes, gm := rd 26 1 f.bytes, plain := pt } : Kept) →
      (p.kept.filter (fun x => x.seq - BitVec.ofNat 64 x.gidx == seq - BitVec.ofNat 64 k.gidx)).length + 1 < k.gk →
      (typ = 2 →
        ∃ t, exec c s = .next t ∧ PeerIs s t p { p.mark seq with kept := p.kept ++ [k], owesBack := true } ∧ t.rounds.rx = s.rounds.rx ∧ Only [.rounds] s t) ∧
      (∀ d, typ = 1 → 24 ≤ pt.length → rd 8 8 pt + (pt.length - 24) < rd 16 8 pt → s.rounds.storeUsed + rd 16 8 pt ≤ s.storeBytes →
        BitVec.ofNat 64 (rd 0 8 pt) ∉ s.rounds.full →
        s.rounds.rx.find? (fun x => x.site == p.site && x.round == BitVec.ofNat 64 (rd 0 8 pt) && x.mac == p.mac0) = none →
        d = ({ site := p.site, round := BitVec.ofNat 64 (rd 0 8 pt), mac := p.mac0, total := rd 16 8 pt, data := putData [] (rd 8 8 pt) (pt.drop 24),
               complete := false } : RxDelta) →
        ∃ t, exec c s = .next t ∧ PeerIs s t p { p.mark seq with kept := p.kept ++ [k], owesBack := true } ∧ t.rounds.rx = s.rounds.rx ++ [d] ∧
          Only [.rounds, .regs] s t ∧ OnlyRegs s t [oBjnRoundState])) ∧
    (∀ k new, Opened s f 2 p pt → p.cum ≤ seq → seq ∉ p.got → Keyless s p →
      k = ({ seq := seq, typ := 2, gidx := rd 24 1 f.bytes, gk := rd 25 1 f.bytes, gm := rd 26 1 f.bytes, plain := pt } : Kept) →
      k.gk ≤ (p.kept.filter (fun x => x.seq - BitVec.ofNat 64 x.gidx == seq - BitVec.ofNat 64 k.gidx)).length + 1 →
      new = ecRebuild k.gk (((p.kept ++ [k]).filter (fun x => x.seq - BitVec.ofNat 64 x.gidx == seq - BitVec.ofNat 64 k.gidx)).map (fun x => (x.gidx, x.plain))) →
      ∃ t q, exec (.parity f) s = .next t ∧ t.peer? p.mac0 = some q ∧
        (∀ x, x ∈ q.kept ↔ x ∈ p.kept ∧ x.seq - BitVec.ofNat 64 x.gidx ≠ seq - BitVec.ofNat 64 k.gidx) ∧ q.owesBack = true ∧
        t.rounds.rx = (new.foldl (fun u x => u.placeSeg { p.mark seq with kept := p.kept ++ [k], owesBack := true } x.2)
          (s.setPeer { p.mark seq with kept := p.kept ++ [k], owesBack := true })).rounds.rx) ∧
    (∀ cum map left, Opened s f 3 p pt → (∀ n, s.chanState n ≠ 3) → cum = rd 0 8 pt → map = rd 8 32 pt →
      left = p.sent.filter (fun x => !(decide (x.seq.toNat < cum) || (decide (x.seq.toNat < cum + 256) && bit (x.seq.toNat - cum) map))) →
      ∃ t q, exec (.back f) s = .next t ∧ PeerIs s t p q ∧ q = { p.mark seq with sent := q.sent } ∧
        (∀ x, x ∈ q.sent ↔ x ∈ left ∧ x.gm < (left.filter (fun y => y.seq - BitVec.ofNat 64 y.gidx == x.seq - BitVec.ofNat 64 x.gidx)).length) ∧
        Only [.rounds] s t) ∧
    (∀ x segs, Opened s f 4 p pt → p.cum ≤ seq → seq ∉ p.got → Keyless s p → s.replay.on = false →
      s.rounds.store.find? (fun x => x.mac == p.mac0 && x.round.toNat == rd 0 8 pt) = some x →
      segs = segments (s.rf oBjnCtl 46 32 - 24) x.round x.data.length (rd 16 8 pt / (s.rf oBjnCtl 46 32 - 24) + 1) (rd 8 8 pt)
        ((x.data.drop (rd 8 8 pt)).take (rd 16 8 pt)) →
      ∃ t, exec (.req f) s = .next t ∧ PeerIs s t p { p.mark seq with waiting := p.waiting ++ segs.map (fun b => (1, b)), owesBack := true } ∧
        Only [.rounds] s t) ∧
    (∀ n x k c, Opened s f 13 p pt → elemsLE 8 pt = [n] → p.sent.find? (fun x => x.seq.toNat == n) = some x → Sendable s p k c → k.epoch ≠ rd 1 1 x.bytes →
      x.bytes ≠ [] →
      ∃ t, exec (.epochGone f) s = .next t ∧
        Emits s t [onChan s p c (sealedBytes k s.site p.site c x.typ x.gidx x.gk x.gm (4 + b2n (x.typ == 2)) x.seq.toNat (SMap.get p.counters c 0) x.plain)] ∧
        Only [.rounds, .out] s t)) ∧
  (∀ (peer : BitVec 48) (s : State) (p : Peer), s.peer? peer.toNat = some p →
    (p.owesBack = false → exec (.backTimer peer) s = .next s) ∧
    (∀ k c, p.owesBack = true → Sendable s p k c →
      ∃ t, exec (.backTimer peer) s = .next t ∧
        Emits s t [onChan s p c (sealedBytes k s.site p.site c 3 0 1 0 0 p.seq.toNat (SMap.get p.counters c 0) p.backBytes)] ∧
        PeerIs s t p { p with owesBack := !p.kept.isEmpty, seq := p.seq + 1, counters := SMap.set p.counters c (SMap.get p.counters c 0 + 1),
                              txUsed := p.txUsed + 1 } ∧ Only [.rounds, .out] s t) ∧
    (∀ seq x k c, Sendable s p k c → p.sent.find? (fun y => y.seq == seq) = some x →
      (∃ y ∈ (p.missing x).take ((p.missing x).length - x.gm), y.seq = seq) → x.bytes ≠ [] →
      ∃ t, exec (.borjanResend peer seq) s = .next t ∧ Emits s t [onChan s p c (x.bytes.take 3 ++ le 1 (rd 3 1 x.bytes ||| 2) ++ x.bytes.drop 4)] ∧
        PeerIs s t p { p with sent := p.sent.map (fun y => if y.seq == seq then { y with due := false, chan := c, at_ := s.rw oTimeNow, via := c :: y.via } else y) } ∧
        (x.chan = c → t.chan c = { s.chan c with resent := (s.chan c).resent + 1, frames := (s.chan c).frames + 1 }) ∧
        (x.chan ≠ c → t.chan c = { s.chan c with frames := (s.chan c).frames + 1 } ∧
          t.chan x.chan = { s.chan x.chan with resent := (s.chan x.chan).resent + 1 }) ∧
        (∀ n, n ≠ c → n ≠ x.chan → t.chan n = s.chan n) ∧
        Only [.rounds, .out] s t) ∧
    (∀ seq, (s.replay.on = true ∨ s.noEntropy = true ∨ p.sent.find? (fun y => y.seq == seq) = none) → exec (.borjanResend peer seq) s = .next s) ∧
    (∀ b k c cfg m, p.waiting = [(1, b)] → 0 < cfg.ecK → cfg.ecM < 256 → s.cfg? = some cfg → Sendable s p k c →
      m = (if 16384 < b.length + 2 then 0 else cfg.ecM) →
      ∃ t, exec (.groupCloseShort peer) s = .next t ∧
        Emits s t ((List.range (1 + m)).map (fun j => onChan s p c (sealedBytes k s.site p.site c (if j = 0 then 1 else 2) j 1 m (b2n (j != 0))
          (p.seq + BitVec.ofNat 64 j).toNat (SMap.get p.counters c 0 + j) (if j = 0 then b else ecParity (j - 1) [b])))) ∧
        (∃ q, t.peer? p.mac0 = some q ∧ q.waiting = [] ∧ q.seq = p.seq + BitVec.ofNat 64 (1 + m)) ∧ Only [.rounds, .out] s t))

/-- Time-transfer frames, the life of channels and the links of the Borjan ports (R286, R305 to R308, R310, R311, R321, R353): a frame carries the four values
of the exchange; an exchange yields a round trip and a difference, and eight in a row make a probing channel live; a lost channel probes again and its frames
leave on another, or wait while an entropy test fails, an alarm is latched or a replay runs; a draining channel without acknowledgements hands its frames over and stays until what it sent is acknowledged (assumption 64); capacity
follows the share of re-sent frames; no port comes up while the alarm is latched. The order of the four values in a frame is the model's (assumption 37), and fractions of a kb/s are dropped (assumption 33). -/
def Obligations.ChannelsCarryTimeAndFailOver : Prop :=
  (∀ (chan : ChanNo) (txTime : Word) (s : State) (p : Peer) (k : LineKey) (mac : Nat), s.ttPeer chan = some mac → s.peer? mac = some p → s.chanState chan ≠ 0 →
    s.rf (oBjnPort (s.chan chan).port) 63 62 = 2 → p.tx = some k → p.txUsed + 1 < 2 ^ 31 → s.noEntropy = false → s.latched = false → s.replay.on = false →
    ∃ t, exec (.ttSend chan txTime) s = .next t ∧
      Emits s t [onChan s p chan (sealedBytes k s.site p.site chan 0x0B 0 1 0 0 p.seq.toNat (SMap.get p.counters chan 0)
        (le 8 ((s.chan chan).txIdx + 1) ++ le 8 (s.chan chan).txPrev.toNat ++ le 8 (s.chan chan).rxIdx ++ le 8 (s.chan chan).rxTime.toNat))] ∧
      t.chan chan = { s.chan chan with txIdx := (s.chan chan).txIdx + 1, txPrev := txTime, pend := (s.chan chan).pend ++ [((s.chan chan).txIdx + 1, txTime)],
                                       frames := (s.chan chan).frames + 1 } ∧
      (∀ n, n ≠ chan → t.chan n = s.chan n) ∧
      PeerIs s t p { p with seq := p.seq + 1, counters := SMap.set p.counters chan (SMap.get p.counters chan 0 + 1), txUsed := p.txUsed + 1 } ∧
      Only [.rounds, .out] s t) ∧
  (∀ (chan : ChanNo) (txTime : Word) (s : State), (s.ttPeer chan = none ∨ s.chanState chan = 0 ∨ s.noEntropy = true ∨ s.latched = true ∨ s.replay.on = true) →
    exec (.ttSend chan txTime) s = .next s) ∧
  (∀ (f : BjnFrame) (chan : ChanNo) (rxTime : Word) (s : State) (p : Peer) (pt : Bytes) (c : Chan), Opened s f 11 p pt → c = s.chan chan →
    (s.chanState chan = 0 ∨ s.ttPeer chan ≠ some p.mac0 →
      ∃ t, exec (.tt f chan rxTime) s = .next t ∧ PeerIs s t p (p.mark (BitVec.ofNat 64 (rd 8 8 f.bytes))) ∧ t.rounds.chans = s.rounds.chans ∧ Only [.rounds] s t) ∧
    (s.chanState chan ≠ 0 → s.ttPeer chan = some p.mac0 → pt.length = 32 →
      ∃ t d, exec (.tt f chan rxTime) s = .next t ∧ d = t.chan chan ∧ d.rxIdx = rd 0 8 pt ∧ d.rxTime = rxTime ∧
        d.half = ((c.pend.find? (fun x => x.1 == rd 16 8 pt)).map (fun x => (rd 0 8 pt, x.2, BitVec.ofNat 64 (rd 24 8 pt), rxTime))) ∧
        (c.half = none → d.good = c.good ∧ d.best = c.best) ∧
        (∀ j t1 t2 t4, c.half = some (j, t1, t2, t4) → j + 1 ≠ rd 0 8 pt → d.good = 0 ∧ d.best = c.best) ∧
        (∀ j t1 t2 t4 t3 rtt diff, c.half = some (j, t1, t2, t4) → j + 1 = rd 0 8 pt → t3 = BitVec.ofNat 64 (rd 8 8 pt) →
          rtt = (t4 - t1 - (t3 - t2)).toInt → diff = (t2 - t1 - (t4 - t3)).toInt →
          d.good = (if (rxTime - t1).toNat ≤ 100000000 then c.good + 1 else 0) ∧
          (c.best = none → d.best = some (rtt, diff)) ∧ (∀ b, c.best = some b → d.best = if b.1 ≤ rtt then some b else some (rtt, diff))) ∧
        t.chanState chan = (if s.chanState chan = 1 ∧ 8 ≤ d.good then 2 else s.chanState chan) ∧ (∀ n, n ≠ chan.val → t.chanState n = s.chanState n) ∧
        (s.chanState chan ≠ 1 ∨ d.good < 8 → PeerIs s t p (p.mark (BitVec.ofNat 64 (rd 8 8 f.bytes))) ∧ (∀ n, n ≠ chan.val → t.chan n = s.chan n) ∧
          Only [.rounds] s t) ∧
        Only [.rounds, .regs, .out, .cal, .time] s t)) ∧
  (∀ (chan : ChanNo) (s : State),
    (s.chanState chan = 0 → exec (.channelLost chan) s = .next s ∧ exec (.capacityWindow chan) s = .next s) ∧
    (s.chanState chan ≠ 3 → exec (.drainTimeout chan) s = .next s) ∧
    (s.chanState chan ≠ 0 →
      ∃ t, exec (.channelLost chan) s = .next t ∧ (s.chanState chan ≠ 3 → t.chanState chan = 1) ∧
        (s.chanState chan = 3 → (∃ p ∈ t.rounds.peers, ∃ x ∈ p.sent, chan.val ∈ x.via) → t.chanState chan = 3) ∧
        (s.chanState chan = 3 → (∀ p ∈ t.rounds.peers, ∀ x ∈ p.sent, chan.val ∉ x.via) → t.chanState chan = 0) ∧
        (t.chan chan).half = none ∧ (t.chan chan).pend = [] ∧ (t.chan chan).best = none ∧ (t.chan chan).good = 0 ∧
        (∀ n, n ≠ chan.val → t.chanState n = s.chanState n) ∧ t.rounds.rx = s.rounds.rx ∧ Only [.rounds, .regs, .out, .cal, .time] s t) ∧
    (∀ p x, s.rounds.peers = [p] → p.sent = [x] → x.chan = chan.val → (s.chanState chan = 1 ∨ s.chanState chan = 2) →
      (s.noEntropy = true ∨ s.latched = true ∨ s.replay.on = true) →
      ∃ t, exec (.channelLost chan) s = .next t ∧ PeerIs s t p { p with sent := [{ x with due := true }] }) ∧
    (∀ p x c, s.rounds.peers = [p] → p.sent = [x] → x.bytes ≠ [] → x.chan = chan.val → s.replay.on = false → s.noEntropy = false → s.latched = false →
      c ≠ chan.val → c < 32 → s.chanState c = 2 → s.chanSite c = p.site →
      s.rf (oBjnPort (s.chan c).port) 63 62 = 2 → (∀ m, m ≠ c → m ≠ chan.val → s.chanState m ≠ 2) →
      (s.chanState chan = 1 ∨ s.chanState chan = 2 →
        ∃ t l, exec (.channelLost chan) s = .next t ∧
          t.out = s.out ++ l ++ [onChan s p c (x.bytes.take 3 ++ le 1 (rd 3 1 x.bytes ||| 2) ++ x.bytes.drop 4)] ∧
          PeerIs s t p { p with sent := [{ x with due := false, chan := c, at_ := t.rw oTimeNow, via := c :: x.via }] }) ∧
      (s.chanState chan = 3 →
        ∃ t l, exec (.drainTimeout chan) s = .next t ∧
          t.out = s.out ++ [onChan s p c (x.bytes.take 3 ++ le 1 (rd 3 1 x.bytes ||| 2) ++ x.bytes.drop 4)] ++ l ∧
          t.chanState chan = (if chan.val ∈ x.via then 3 else 0) ∧
          PeerIs s t p { p with sent := [{ x with due := false, chan := c, at_ := t.rw oTimeNow, via := c :: x.via }] })) ∧
    (∀ c, s.chanState chan ≠ 0 → c = s.chan chan →
      ∃ t d, exec (.capacityWindow chan) s = .next t ∧ d = t.chan chan ∧
        d = { c with cap := (if c.frames < 100 * c.resent then max (c.cap * 3 / 4) (c.rate * 1000 / 100) else min (c.cap + c.rate * 1000 / 20) (c.rate * 1000)),
                     frames := 0, resent := 0 } ∧
        t.rf (oChan chan) 51 32 = min (d.cap * 1024 / 10 ^ 6) (2 ^ 20 - 1) ∧ t.chanState chan = s.chanState chan ∧ (∀ n, n ≠ chan.val → t.chan n = s.chan n) ∧
        Only [.rounds, .regs] s t ∧ OnlyRegs s t [oChan chan])) ∧
  (∀ (port : Fin 2) (s : State),
    (s.latched = true → exec (.borjanPortLinkChange port true) s = .next s) ∧
    (∃ t, exec (.borjanPortLinkChange port false) s = .next t ∧ t.rf (oBjnPort port) 63 62 = 0 ∧ Posted s t (srcBjn port) ∧ t.rf oIntStatus 7 7 = 1 ∧
      Only [.regs, .cal, .out] s t ∧ OnlyRegs s t [oCalLost, oIntStatus, oPba, oBjnPort port]) ∧
    (s.latched = false →
      ∃ t, exec (.borjanPortLinkChange port true) s = .next t ∧ t.rf (oBjnPort port) 63 62 = 2 ∧ Posted s t (srcBjn port) ∧
        Only [.regs, .cal, .rounds, .out] s t))

/-- Control frames reach the coordinator, and the coordinators agree on a manifest (R282, R288, R291 to R297): a frame from outside is acknowledged once and
handed on to the coordinator; devices report what they hold, the coordinator combines it and sends it to the lead; the lead issues a manifest of the deltas
every member holds, with a step none has released; a member accepts or refuses; with every acceptance the lead seals, and a member seals what it holds; after
a refusal the lead issues its next attempt. A frame relayed inside the site arrives without tags, from address 0 (assumption 38), and the payloads follow
assumption 37. -/
def Obligations.CoordinatorsAgreeOnAManifest : Prop :=
  (∀ (f : BjnFrame) (s : State) (c : Instr) (typ : Nat),
    (c, typ) ∈ [(Instr.haveFrame f, 5), (.manifest f, 6), (.mack f, 7), (.seal f, 8), (.mquery f, 9), (.mreply f, 10)] →
    (f.ctags = 0 → f.srcMac = 0 → rd 0 1 f.bytes = typ → s.openCtl f typ = (s, some (rd 6 1 f.bytes % 16, (f.bytes.drop 32).take (rd 4 2 f.bytes)))) ∧
    (f.ctags = 0 → f.srcMac = 0 → rd 0 1 f.bytes ≠ typ → exec c s = .next s) ∧
    (∀ p pt seq, Opened s f typ p pt → seq = BitVec.ofNat 64 (rd 8 8 f.bytes) → Keyless s p →
      ((seq < p.cum ∨ seq ∈ p.got) → ∃ t, exec c s = .next t ∧ PeerIs s t p { p with owesBack := true } ∧ Only [.rounds] s t) ∧
      (p.cum ≤ seq → seq ∉ p.got → s.rounds.coord = true →
        ∃ u, s.openCtl f typ = (u, some (p.site, pt)) ∧ PeerIs s u p { p.mark seq with owesBack := true } ∧ Only [.rounds] s u) ∧
      (p.cum ≤ seq → seq ∉ p.got → s.rounds.coord = false →
        ∃ t, exec c s = .next t ∧ PeerIs s t p { p.mark seq with owesBack := true } ∧ Emits s t [.message s.rounds.coordNow (.relay typ pt)] ∧
          Only [.rounds, .out] s t))) ∧
  (∀ (s : State),
    (s.ownReport.closed = s.rounds.open_.getD 0 ∧ s.ownReport.released = BitVec.ofNat 64 s.released ∧
      ∀ y a, (y, a) ∈ s.ownReport.complete ↔
        y ∈ s.rotation ∧ a < 4 ∧ a < (s.rounds.open_.getD 0).toNat ∧ s.holdsDelta y (s.rounds.open_.getD 0 - BitVec.ofNat 64 a) = true) ∧
    (s.cfg? = none → exec (.deviceReport none) s = .next s) ∧
    (s.cfg?.isSome = true → s.rounds.coord = false →
      ∃ t, exec (.deviceReport none) s = .next t ∧ Emits s t [.message s.rounds.coordNow (.report s.ownReport)] ∧ Only [.out] s t) ∧
    (∀ r, s.rounds.coord = false → exec (.deviceReport (some r)) s = .next s) ∧
    (∀ r, s.rounds.coord = true → s.openK = none →
      ∃ t, exec (.deviceReport (some r)) s = .next t ∧
        t.rounds = { s.rounds with reports := s.rounds.reports.filter (fun x => x.src != r.src) ++ [r] } ∧ Only [.rounds] s t) ∧
    ((s.rounds.coord = false ∨ s.openK = none ∨ s.rounds.sealed_.isSome = true) → exec .haveTimer s = .next s) ∧
    (∀ k c, Leading s k c →
      (s.rf oBjnRoundState 60 56 = s.site →
        ∃ t, exec .haveTimer s = .next t ∧ t.rounds = { s.rounds with haves := SMap.set s.rounds.haves s.site s.combined } ∧ Only [.rounds] s t) ∧
      (∀ p, s.rf oBjnRoundState 60 56 ≠ s.site → Awaits s (s.rf oBjnRoundState 60 56) p →
        ∃ t, exec .haveTimer s = .next t ∧ PeerIs s t p { p with waiting := p.waiting ++ [(5, s.combined.bytes)] } ∧
          SMap.get? t.rounds.haves s.site = some s.combined ∧ Only [.rounds] s t)) ∧
    (∀ y a, (y, a) ∈ s.combined.complete ↔ y ∈ s.rotation ∧ a < 4 ∧ a < (s.rounds.open_.getD 0).toNat ∧
      ∀ r ∈ s.siteReports, ∃ x, r = some x ∧ reportHas x y ((s.rounds.open_.getD 0).toNat - a) = true) ∧
    (∀ c k ms y a, y ∈ ms → a ≤ c.stale → a < k → (∀ z ∈ ms, ∃ h, s.haveOf z = some h ∧ h.has y (k - a) = true) →
      (∀ b, b < a → ∃ z ∈ ms, ∀ h, s.haveOf z = some h → h.has y (k - b) = false) →
      ∃ w, (y, w, BitVec.ofNat 64 (k - a)) ∈ s.manifestEntries c k ms) ∧
    (∀ c k ms, k * c.h + c.applyMin ≤ s.manifestStep c k ms ∧ ∀ z ∈ ms, ∀ h, s.haveOf z = some h → h.released.toNat < s.manifestStep c k ms)) ∧
  (∀ (f : BjnFrame) (s u : State) (site : Nat) (b : Bytes), s.openCtl f 5 = (u, some (site, b)) → u.rounds.coord = true →
    ∃ t, exec (.haveFrame f) s = .next t ∧ t.rounds = { u.rounds with haves := SMap.set u.rounds.haves site (mkHave b) } ∧ Only [.rounds] u t) ∧
  (∀ (s : State) (k : Nat) (c : RoundCfg) (m : Manifest), Leading s k c → s.rounds.issued = none → s.rounds.stuck = false → s.replay.on = false → Addressed s →
    s.leadOf k 0 = s.site → s.rounds.attempt = 0 →
    m = { round := BitVec.ofNat 64 k, step := BitVec.ofNat 64 (s.manifestStep c k s.members), lead := s.site, attempt := 0, members := maskOf s.members,
          cfg := fit 32 c.hash, entries := s.manifestEntries c k s.members } →
    (∃ z ∈ sitesOf m.members, z ≠ s.site) →
    ∃ t, exec .manifestIssue s = .next t ∧ t.rounds.issued = some m ∧ Told s t ((sitesOf m.members).filter (· != s.site)) 6 m.bytes ∧ t.rounds.sealed_ = none ∧
      (s.refusal m = 0 → t.rounds.held = some m ∧ t.rounds.coordHeld = some m ∧ t.rounds.accepts = [s.site] ∧ Ev.message toGroup (.relay 6 m.bytes) ∈ t.out) ∧
      (s.refusal m ≠ 0 → t.rounds.held = s.rounds.held ∧ t.rounds.accepts = []) ∧ t.rounds.rx = s.rounds.rx ∧ t.rounds.store = s.rounds.store) ∧
  (∀ (s : State), (s.rounds.coord = false ∨ s.openK = none ∨ s.rounds.sealed_.isSome = true ∨ s.rounds.issued.isSome = true ∨ s.replay.on = true) →
    exec .manifestIssue s = .next s) ∧
  (∀ (s : State) (m : Manifest) (c : RoundCfg), s.cfg? = some c →
    (s.refusal m = 0 ↔ m.cfg = fit 32 c.hash ∧ (∀ x, s.rounds.sealed_ = some x → x.round ≠ m.round) ∧
      (∀ x, s.rounds.coordHeld = some x → x.round = m.round → x.attempt ≤ m.attempt) ∧ (∀ e ∈ m.entries, s.combined.has e.1 e.2.2.toNat = true) ∧
      s.combined.released.toNat < m.step.toNat)) ∧
  (∀ (f : BjnFrame) (s u : State) (site : Nat) (b : Bytes) (m : Manifest), s.openCtl f 6 = (u, some (site, b)) → m = mkManifest b →
    (u.rounds.coord = false → (∀ x, u.rounds.sealed_ = some x → x.round ≠ m.round) →
      ∃ t, exec (.manifest f) s = .next t ∧ t.rounds.held = some m ∧ t.rounds.attempt = max u.rounds.attempt m.attempt ∧ t.rf oBjnRoundState 63 61 = 2 ∧
        t.rf oBjnRoundState 60 56 = m.lead % 32 ∧ t.rf oBjnRoundState 55 48 = m.attempt % 256 ∧ t.rf oBjnRoundState 47 32 = m.members % 65536 ∧
        (Whole u m → t.rounds = { u.rounds with held := some m, attempt := max u.rounds.attempt m.attempt } ∧ Only [.rounds, .regs] u t ∧
          OnlyRegs u t [oBjnRoundState]) ∧ Only [.rounds, .regs, .cal, .out] u t ∧ OnlyRegs u t [oBjnRoundState, oCalLost, oIntStatus, oPba]) ∧
    (∀ p why, u.rounds.coord = true → why = u.refusal m → why ≠ 2 → Awaits u site p →
      ∃ t, exec (.manifest f) s = .next t ∧
        t.rounds.peers = u.rounds.peers.map (fun x => if x.mac0 == p.mac0 then { p with waiting := p.waiting ++ [(7, u.mackBytes m why)] } else x) ∧
        (why = 0 → t.rounds.held = some m ∧ t.rounds.coordHeld = some m ∧ t.rf oBjnRoundState 63 61 = 2 ∧ t.rf oBjnRoundState 55 48 = m.attempt % 256 ∧
          Emits u t [.message toGroup (.relay 6 m.bytes)]) ∧
        (why ≠ 0 → t.rounds.held = u.rounds.held ∧ t.rounds.coordHeld = u.rounds.coordHeld ∧ t.regs = u.regs ∧ Emits u t []) ∧
        (u.openK = some m.round.toNat → t.rounds.attempt = max u.rounds.attempt m.attempt) ∧
        Only [.rounds, .regs, .out] u t ∧ OnlyRegs u t [oBjnRoundState]) ∧
    (∀ p, u.rounds.coord = true → u.refusal m = 2 → Awaits u site p →
      ∃ t, exec (.manifest f) s = .next t ∧ (∃ q, t.peer? p.mac0 = some q ∧ (7, u.mackBytes m 2) ∈ q.waiting) ∧ t.rounds.held = u.rounds.held ∧
        t.rounds.coordHeld = u.rounds.coordHeld ∧ Only [.rounds, .regs, .cal, .out] u t ∧ OnlyRegs u t [oCalLost, oIntStatus, oPba])) ∧
  (∀ (f : BjnFrame) (s u : State) (site : Nat) (b : Bytes) (k : Nat) (c : RoundCfg) (m : Manifest) (acc : List Nat), s.openCtl f 7 = (u, some (site, b)) →
    Leading u k c → u.rounds.issued = some m → rd 0 8 b = k → rd 8 1 b = m.attempt → bit site m.members = true →
    acc = (if site ∈ u.rounds.accepts then u.rounds.accepts else u.rounds.accepts ++ [site]) →
    (rd 9 1 b = 1 → (∃ z ∈ sitesOf m.members, z ∉ acc) →
      ∃ t, exec (.mack f) s = .next t ∧ t.rounds = { u.rounds with accepts := acc } ∧ Only [.rounds] u t) ∧
    (rd 9 1 b = 1 → (∀ z ∈ sitesOf m.members, z ∈ acc) → Addressed u →
      ∃ t l, exec (.mack f) s = .next t ∧ t.rounds.sealed_ = some m ∧ t.rounds.held = some m ∧ t.out = u.out ++ l ∧
        Ev.message toGroup (.relay 8 (sealBytes m)) ∈ l ∧ Told u t ((sitesOf m.members).filter (· != u.site)) 8 (sealBytes m) ∧
        t.rf oBjnRoundState 63 61 = (if bit u.site m.members then 3 else 5) ∧ t.rf oIntStatus 5 5 = 1 ∧ Posted u t srcRm) ∧
    (∀ h v, rd 9 1 b = 0 → rd 11 1 b = 0 → b.length ≤ 24 →
      (∀ o, u.haveOf site = some o → h = { round := BitVec.ofNat 64 k, released := BitVec.ofNat 64 (rd 16 8 b), complete := o.complete.filterMap (fun x =>
        if x.2 + (k - o.round.toNat) < 4 then some (x.1, x.2 + (k - o.round.toNat)) else none) }) →
      (u.haveOf site = none → h = { round := BitVec.ofNat 64 k, released := BitVec.ofNat 64 (rd 16 8 b), complete := [] }) →
      v = { u with rounds := { u.rounds with haves := SMap.set u.rounds.haves site h } } →
      (∀ a, v.nextOwn k m.attempt = some a →
        ∃ t m', exec (.mack f) s = .next t ∧ t.rounds.issued = some m' ∧ m'.attempt = a ∧ m'.lead = u.site ∧ m'.round = BitVec.ofNat 64 k ∧
          m'.step = BitVec.ofNat 64 (v.manifestStep c k (sitesOf m.members)) ∧ m'.entries = v.manifestEntries c k (sitesOf m.members)) ∧
      (v.nextOwn k m.attempt = none → m.attempt < 255 →
        ∃ t, exec (.mack f) s = .next t ∧ t.rounds = { v.rounds with issued := none } ∧ Only [.rounds] u t) ∧
      (v.nextOwn k m.attempt = none → 255 ≤ m.attempt →
        ∃ t, exec (.mack f) s = .next t ∧ t.rounds = { v.rounds with stuck := true } ∧ t.rf oBjnRoundState 63 61 = 6 ∧ t.rf oIntStatus 5 5 = 1 ∧
          Posted u t srcRm ∧ Only [.rounds, .regs, .cal, .out] u t ∧ OnlyRegs u t [oBjnRoundState, oIntStatus, oPba, oCalLost]))) ∧
  (∀ (f : BjnFrame) (s u : State) (site : Nat) (b : Bytes) (x : Option Manifest), s.openCtl f 8 = (u, some (site, b)) →
    x = (if u.rounds.coord then u.rounds.coordHeld.orElse (fun _ => u.rounds.held) else u.rounds.held) →
    ((∀ m, x = some m → u.rounds.sealed_.isSome = true ∨ sealBytes m ≠ b) → exec (.seal f) s = .next u) ∧
    (∀ m, x = some m → u.rounds.sealed_ = none → sealBytes m = b →
      ∃ t l, exec (.seal f) s = .next t ∧ t.rounds.sealed_ = some m ∧ t.rounds.held = some m ∧ t.rounds.attempt = m.attempt ∧
        t.rounds.dropped = (u.rounds.dropped || !bit u.site m.members) ∧
        (Whole u m → t.rounds.peers = u.rounds.peers) ∧ t.rf oBjnRoundState 55 48 = m.attempt % 256 ∧
        t.rf oBjnRoundState 63 61 = (if bit u.site m.members then 3 else 5) ∧ t.rf oIntStatus 5 5 = 1 ∧ Posted u t srcRm ∧ t.out = u.out ++ l ∧
        (Ev.message toGroup (.relay 8 b) ∈ l ↔ u.rounds.coord = true) ∧ Only [.rounds, .regs, .cal, .out] u t ∧
        OnlyRegs u t [oBjnRoundState, oIntStatus, oPba, oCalLost]))

/-- The silence of a lead and of members, dropped sites, late joiners and the coordinator's role (R282, R292, R298, R299, R302, R423): the owner of the next
attempt queries the members and proceeds with their replies, sealing a sealed manifest unchanged, re-issuing the highest attempt, or building a new one; after the last attempt
without a seal every device finds the round stuck; a member without an answer is left out; a joiner is told of and let in (a coordinator that does not lead hands the request on, assumption 65), gets the
manifest and its ranges, those that come before their manifest being kept for it, and has joined when every owned parameter is in; the alternate takes the role of a silent coordinator, holding no manifest and asking
every member for one, and a former one that hears of it stops. -/
def Obligations.RoundsSurviveSilenceAndTakeJoiners : Prop :=
  (∀ (s : State) (k a : Nat) (c : RoundCfg), s.openK = some k → s.cfg? = some c → s.rounds.coord = false → s.rounds.sealed_ = none →
    s.rounds.stuck = false → s.replay.on = false → a = s.rounds.attempt + 1 → a ≤ 255 →
    (∀ m, s.rounds.held = some m → m.round.toNat = k → m.attempt ≠ s.rounds.attempt) →
    ∃ t, exec .leadSilence s = .next t ∧ t.rounds = { s.rounds with attempt := a, querying := false } ∧ t.rf oBjnRoundState 60 56 = s.leadOf k a % 32 ∧
      Only [.regs, .rounds] s t ∧ OnlyRegs s t [oBjnRoundState]) ∧
  (∀ (s : State) (k : Nat) (c : RoundCfg), s.openK = some k → s.cfg? = some c → s.rounds.sealed_ = none → s.rounds.stuck = false → s.replay.on = false →
    (255 ≤ s.rounds.attempt → ∃ t, exec .leadSilence s = .next t ∧ t.rounds = { s.rounds with stuck := true } ∧ t.rf oBjnRoundState 63 61 = 6 ∧
      t.rf oIntStatus 5 5 = 1 ∧ Only [.rounds, .regs, .cal, .out] s t ∧ OnlyRegs s t [oBjnRoundState, oIntStatus, oPba, oCalLost]) ∧
    (∀ m, s.rounds.attempt < 255 → (if s.rounds.coord then s.rounds.coordHeld else s.rounds.held) = some m → m.round.toNat = k →
      m.attempt = s.rounds.attempt → exec .leadSilence s = .next s)) ∧
  (∀ (s : State) (k a : Nat) (c : RoundCfg), Leading s k c → s.rounds.stuck = false → s.replay.on = false → a = s.rounds.attempt + 1 →
    (∀ m, s.rounds.coordHeld = some m → m.round.toNat = k → m.attempt ≠ s.rounds.attempt) →
    (a ≤ 255 → s.leadOf k a ≠ s.site →
      ∃ t, exec .leadSilence s = .next t ∧ t.rounds = { s.rounds with attempt := a, querying := false } ∧ t.rf oBjnRoundState 60 56 = s.leadOf k a % 32 ∧
        Only [.regs, .rounds] s t ∧ OnlyRegs s t [oBjnRoundState]) ∧
    (a ≤ 255 → s.leadOf k a = s.site → (∃ z ∈ s.rotation, z ≠ s.site) → Addressed s →
      ∃ t, exec .leadSilence s = .next t ∧ t.rounds.attempt = a ∧ t.rf oBjnRoundState 60 56 = s.site % 32 ∧ t.rounds.querying = true ∧ t.rounds.queryAt = a ∧ t.rounds.replies = [] ∧ t.rounds.issued = none ∧
        t.rounds.accepts = [] ∧ t.rounds.held = s.rounds.held ∧ Told s t (s.rotation.filter (· != s.site)) 9 (le 8 k ++ le 1 a))) ∧
  (∀ (s : State), (s.openK = none ∨ s.rounds.sealed_.isSome = true ∨ s.rounds.stuck = true ∨ s.replay.on = true) →
    exec .leadSilence s = .next s) ∧
  (∀ (f : BjnFrame) (s u : State) (site : Nat) (b : Bytes) (p : Peer) (m : Option Manifest), s.openCtl f 9 = (u, some (site, b)) → u.rounds.coord = true →
    Awaits u site p → m = (u.rounds.sealed_.orElse (fun _ => u.rounds.coordHeld)).filter (fun x => x.round.toNat == rd 0 8 b) →
    ∃ t, exec (.mquery f) s = .next t ∧
      PeerIs u t p { p with waiting := p.waiting ++ [(0x0A, le 8 (rd 0 8 b) ++ le 1 (b2n m.isSome) ++ le 1 (b2n (m.isSome && u.rounds.sealed_.isSome)) ++ zeros 6 ++
        (match m with | some x => x.bytes | none => []))] } ∧
      t.rounds.held = u.rounds.held ∧ t.rounds.sealed_ = u.rounds.sealed_ ∧ Only [.rounds] u t) ∧
  (∀ (s : State) (k a : Nat) (c : RoundCfg) (all : List (Manifest × Bool)), Leading s k c → s.rounds.querying = true → a = s.rounds.queryAt →
    all = (s.rounds.coordHeld.toList.filter (fun m => m.round.toNat == k)).map (fun m => (m, false)) ++ s.rounds.replies.filterMap (fun r => r.2) →
    (∀ m, (m, true) ∈ all → (∀ x, (x, true) ∈ all → x = m) →
      ∃ t, exec .memberSilence s = .next t ∧ t.rounds.sealed_ = some m ∧ t.rounds.held = some m ∧ t.rounds.querying = false) ∧
    (∀ m, (∀ x ∈ all, x.2 = false) → (m, false) ∈ all → (∀ x ∈ all, x.1 ≠ m → x.1.attempt < m.attempt) →
      s.refusal { m with lead := s.site, attempt := a } = 0 →
      ∃ t, exec .memberSilence s = .next t ∧ t.rounds.issued = some { m with lead := s.site, attempt := a } ∧ t.rounds.querying = false) ∧
    (∀ m : Manifest, all = [] →
      m = { round := BitVec.ofNat 64 k, step := BitVec.ofNat 64 (s.manifestStep c k s.members), lead := s.site, attempt := a,
            members := maskOf s.members, cfg := fit 32 c.hash, entries := s.manifestEntries c k s.members } →
      ∃ t, exec .memberSilence s = .next t ∧ t.rounds.issued = some m ∧ t.rounds.querying = false)) ∧
  (∀ (s : State), s.rounds.querying = false → exec .memberSilence s = .next s) ∧
  (∀ (f : BjnFrame) (s u : State) (site : Nat) (b : Bytes) (k : Nat) (c : RoundCfg), s.openCtl f 0x0A = (u, some (site, b)) → Leading u k c →
    (rd 0 8 b ≠ k → exec (.mreply f) s = .next u) ∧
    (u.rounds.querying = false → rd 0 8 b = k → rd 8 1 b ≠ 1 → exec (.mreply f) s = .next u) ∧
    (∀ x, u.rounds.querying = false → rd 0 8 b = k → rd 8 1 b = 1 → x = mkManifest (b.drop 16) → x.round.toNat = k →
      (rd 9 1 b = 1 → ∃ t, exec (.mreply f) s = .next t ∧ t.rounds.sealed_ = some x ∧ t.rounds.held = some x ∧
        t.rounds.dropped = (u.rounds.dropped || !bit u.site x.members)) ∧
      (rd 9 1 b ≠ 1 → (∀ y, u.rounds.coordHeld = some y → y.attempt < x.attempt) → ∃ t, exec (.mreply f) s = .next t ∧
        t.rounds = { u.rounds with coordHeld := some x, attempt := max u.rounds.attempt x.attempt } ∧ Only [.rounds] u t) ∧
      (rd 9 1 b ≠ 1 → (∃ y, u.rounds.coordHeld = some y ∧ x.attempt ≤ y.attempt) → exec (.mreply f) s = .next u)) ∧
    (∀ v, u.rounds.querying = true → rd 0 8 b = k →
      v = { u with rounds := { u.rounds with replies := u.rounds.replies.filter (fun x => x.1 != site) ++
        [(site, if rd 8 1 b = 1 then some (mkManifest (b.drop 16), rd 9 1 b == 1) else none)] } } →
      ((∃ z ∈ u.rotation, z ≠ u.site ∧ z ≠ site ∧ ∀ r ∈ u.rounds.replies, r.1 ≠ z) → exec (.mreply f) s = .next v) ∧
      ((∀ z ∈ u.rotation, z ≠ u.site → z = site ∨ ∃ r ∈ u.rounds.replies, r.1 = z) → exec (.mreply f) s = exec .memberSilence v))) ∧
  (∀ (site : SiteNo) (s : State) (k : Nat) (c : RoundCfg) (m : Manifest) (a : Nat), Leading s k c → s.rounds.issued = some m → site.val ∉ s.rounds.accepts →
    bit site.val m.members = true → site.val ≠ s.site → s.nextOwn k m.attempt = some a →
    ∃ t m', exec (.memberDrop site) s = .next t ∧ t.rounds.issued = some m' ∧ m'.attempt = a ∧ m'.lead = s.site ∧ bit site.val m'.members = false ∧
      (∀ z, z < 16 → z ≠ site.val → bit z m'.members = bit z m.members) ∧
      m'.step = BitVec.ofNat 64 (s.manifestStep c k ((sitesOf m.members).filter (· != site.val)))) ∧
  (∀ (site : SiteNo) (s : State), (s.rounds.issued = none ∨ s.rounds.coord = false ∨ site.val ∈ s.rounds.accepts ∨ site.val = s.site) →
    exec (.memberDrop site) s = .next s) ∧
  (∀ (f : BjnFrame) (s : State), f.ctags = 0 → f.srcMac = 0 → rd 0 1 f.bytes = 0x0C → s.rounds.coord = true →
    rd 32 1 f.bytes = 0 → 2 ≤ rd 4 2 f.bytes →
    ((s.rf oBjnRoundState 60 56 = s.site ∨ bit (rd 33 1 f.bytes % 16) s.rounds.joinReqs = true) →
      ∃ t, exec (.join f) s = .next t ∧ t.rounds = { s.rounds with joinReqs := s.rounds.joinReqs ||| 2 ^ (rd 33 1 f.bytes % 16) } ∧ Only [.rounds] s t) ∧
    (∀ p, s.rf oBjnRoundState 60 56 ≠ s.site → bit (rd 33 1 f.bytes % 16) s.rounds.joinReqs = false → Awaits s (s.rf oBjnRoundState 60 56) p →
      ∃ t, exec (.join f) s = .next t ∧ t.rounds.joinReqs = s.rounds.joinReqs ||| 2 ^ (rd 33 1 f.bytes % 16) ∧
        PeerIs s t p { p with waiting := p.waiting ++ [(0x0C, (f.bytes.drop 32).take (rd 4 2 f.bytes))] } ∧ Only [.rounds] s t)) ∧
  (∀ (f : BjnFrame) (s : State) (g : Prog) (p q : Peer) (pt : Bytes) (seq : Word), Opened s f 0x0C p pt → Keyless s p → seq = BitVec.ofNat 64 (rd 8 8 f.bytes) →
    p.cum ≤ seq → seq ∉ p.got → s.rounds.joiner = some p.site → s.job.prog = some g → q = { p.mark seq with owesBack := true } →
    (∀ m, rd 0 1 pt = 1 → m = mkManifest (pt.drop 8) → (s.rounds.joinRound = none ∨ ∃ r, s.rounds.joinRound = some r ∧ r < m.round ∧ s.rounds.coord = false) →
      ∃ u, exec (.join f) s = .next ((s.rounds.joinHeld.filter (fun x => x.1 == m.round)).foldl (fun v x => v.joinTake g m x.2) u) ∧
        u.rounds.last = some m ∧ u.rounds.joinGot = [] ∧ u.rounds.joinRound = some m.round ∧
        (∀ x, x ∈ u.rounds.joinHeld ↔ x ∈ s.rounds.joinHeld ∧ m.round < x.1) ∧ PeerIs s u p q ∧ Only [.rounds] s u) ∧
    (∀ r, rd 0 1 pt = 1 → s.rounds.joinRound = some r → (mkManifest (pt.drop 8)).round ≤ r →
      ∃ t, exec (.join f) s = .next t ∧ t.rounds.last = s.rounds.last ∧ t.rounds.joinGot = s.rounds.joinGot ∧ PeerIs s t p q ∧ Only [.rounds] s t) ∧
    (rd 0 1 pt = 2 → (s.rounds.last = none ∨ s.rounds.joinRound = none ∨ ∃ r, s.rounds.joinRound = some r ∧ r < BitVec.ofNat 64 (rd 8 8 pt)) →
      ∃ t, exec (.join f) s = .next t ∧ t.rounds.joinHeld = s.rounds.joinHeld ++ [(BitVec.ofNat 64 (rd 8 8 pt), pt)] ∧
        t.rounds.joinGot = s.rounds.joinGot ∧ PeerIs s t p q ∧ Only [.rounds] s t) ∧
    (∀ m r, rd 0 1 pt = 2 → s.rounds.last = some m → s.rounds.joinRound = some r → BitVec.ofNat 64 (rd 8 8 pt) < r →
      ∃ t, exec (.join f) s = .next t ∧ t.rounds.joinHeld = s.rounds.joinHeld ∧ t.rounds.joinGot = s.rounds.joinGot ∧ PeerIs s t p q ∧ Only [.rounds] s t) ∧
    (∀ m n u got, rd 0 1 pt = 2 → s.rounds.last = some m → s.rounds.joinRound = some (BitVec.ofNat 64 (rd 8 8 pt)) → n = rd 24 8 pt →
      pt.length = 32 + 8 * n →
      u = s.joinRange g m.step.toNat (rd 16 8 pt) (words32 (slice 32 (4 * n) pt)) (words32 (slice (32 + 4 * n) (4 * n) pt)) →
      got = s.rounds.joinGot ++ [(rd 16 8 pt, n)] →
      (u.coversOwned got = false →
        ∃ t, exec (.join f) s = .next t ∧ t.mem = u.mem ∧ t.rounds.joinGot = got ∧ t.rounds.joiner = some p.site ∧ t.rw oCommitStep = s.rw oCommitStep ∧
          PeerIs s t p q ∧
          Only [.rounds, .regs, .mem, .hostMem, .bad, .mbx, .job, .clus, .qs, .strg, .jug, .fabric, .cal, .out] s t) ∧
      (u.coversOwned got = true →
        ∃ t, exec (.join f) s = .next t ∧ t.mem = (u.joinStats g m.step.toNat).mem ∧ t.rounds.joiner = none ∧ t.rounds.open_ = some m.round ∧
          t.rounds.applied = true ∧ t.rounds.dropped = false ∧ t.rounds.sealed_ = none ∧ t.rounds.joinHeld = [] ∧ t.rw oCommitStep = m.step ∧ t.rw oBjnRound = m.round ∧ t.rf oBjnRoundState 63 61 = 0 ∧
          Posted s t srcRm ∧ PeerIs s t p q ∧
          Only [.rounds, .regs, .mem, .hostMem, .bad, .mbx, .job, .clus, .qs, .strg, .jug, .fabric, .cal, .out] s t))) ∧
  (∀ (s : State) (site : Nat) (m : Manifest) (g : Prog) (e : RMapE) (x : SEntry) (i : Nat) (h : Home) (p : Peer) (a o : List (BitVec 32)),
    s.rounds.sponsorOf = some site → s.rounds.last = some m → s.job.prog = some g →
    (((s.rounds.applied = false ∧ s.rounds.sealed_.isSome = true) ∨ s.rounds.sponsorSent = some m.round) → exec .joinSponsorSend s = .next s) ∧
    ((s.rounds.applied = true ∨ s.rounds.sealed_ = none) → s.rounds.sponsorSent ≠ some m.round → bit site m.members = true →
      ∃ t, exec .joinSponsorSend s = .next t ∧ t.rounds = { s.rounds with sponsorOf := none } ∧ Only [.rounds] s t) ∧
    ((s.rounds.applied = true ∨ s.rounds.sealed_ = none) → s.rounds.sponsorSent ≠ some m.round → bit site m.members = false → s.rounds.map.filter (fun e => e.site == site) = [e] → s.peer? e.mac0 = some p → Keyless s p → s.replay.on = false →
      (s.held g).zipIdx.find? (fun x => decide (x.1.first ≤ e.first) && decide (e.first < x.1.first + x.1.count)) = some (x, i) →
      s.home g i s.committed = some h → 0 < e.count → e.count ≤ 1024 →
      s.elems g h i s.committed 2 (e.first - x.first) e.count = .ok a → s.elems g h i s.committed 3 (e.first - x.first) e.count = .ok o →
      ∃ t, exec .joinSponsorSend s = .next t ∧ t.rounds.sponsorOf = some site ∧ t.rounds.sponsorSent = some m.round ∧
        PeerIs s t p { p with waiting := p.waiting ++ [(0x0C, le 1 1 ++ zeros 7 ++ m.bytes),
          (0x0C, le 1 2 ++ zeros 7 ++ le 8 m.round.toNat ++ le 8 (h.e.first + (e.first - x.first)) ++ le 8 e.count ++ le32s a ++ le32s o)] } ∧ Only [.rounds] s t)) ∧
  (∀ (s : State) (c : RoundCfg), s.cfg? = some c →
    (exec (.coordBeacon true) s = .next s) ∧
    (s.rounds.coord = true → ∃ t, exec (.coordBeacon false) s = .next t ∧ Emits s t [.message c.coordAlt .beacon] ∧ Only [.out] s t) ∧
    (s.rounds.coord = false → exec (.coordBeacon false) s = .next s) ∧
    (∀ ev, (ev = .silence ∨ ev = .partnerLost ∧ s.partner = c.coord ∧ s.mirState = 3) →
      (s.self = c.coordAlt → s.rounds.coord = false → (s.openK = none ∨ s.rounds.sealed_.isSome = true ∨ s.replay.on = true) →
        ∃ t, exec (.coordTakeover ev) s = .next t ∧ t.rounds = { s.rounds with coord := true, coordNow := s.self, coordHeld := none } ∧
          Emits s t [.message toGroup (.takeover s.self)] ∧ Only [.rounds, .out] s t) ∧
      (∀ k, s.self = c.coordAlt → s.rounds.coord = false → s.openK = some k → s.rounds.sealed_ = none → s.replay.on = false → Addressed s →
        ∃ t l, exec (.coordTakeover ev) s = .next t ∧ t.rounds.coord = true ∧ t.rounds.coordNow = s.self ∧ t.rounds.coordHeld = none ∧
          t.rounds.held = s.rounds.held ∧ Emits s t (.message toGroup (.takeover s.self) :: l) ∧
          Told s t (s.rotation.filter (· != s.site)) 9 (le 8 k ++ le 1 s.rounds.attempt) ∧ Only [.regs, .rounds, .cal, .out] s t ∧
          OnlyRegs s t [oCalLost, oIntStatus, oPba]) ∧
      (s.self ≠ c.coordAlt ∨ s.rounds.coord = true → exec (.coordTakeover ev) s = .next s)) ∧
    (∀ a : BitVec 20, ∃ t, exec (.coordTakeover (.announced a)) s = .next t ∧
      t.rounds = { s.rounds with coordNow := a.toNat, coord := s.rounds.coord && a.toNat == s.self } ∧ Only [.rounds] s t))

/-- Site ports and pairs (R248, R251, R256, R266, R267, R413, R414, R417): a time that comes back is an echo and any other is echoed; a bring-up ends UP when
the neighbour and the largest of five echoes are right (at most 4,800 ns), and in FAULT with its cause otherwise (that 16 bits of the time travel is assumption 56); a port that goes down is recorded and trains again where it may; heartbeats leave by link and by route, are counted when
they are missed, and bring a lost partner back; a partner declared lost stops the mirror stream, and a permutation sends nothing more to it (assumption
60). -/
def Obligations.PortsComeUpAndPartnersBeat : Prop :=
  (∀ (port : PortNo) (addr : BitVec 20) (s : State) (rtt : List Nat → Nat), rtt = (fun l => (l.take 5).foldl max 0) →
    (∀ trained aligned echoes, (2 ≤ s.rf (oPortStatus port) 63 62 ∨ s.rf (oPortCtl port) 25 25 = 1) →
      exec (.portBringUp port trained aligned addr echoes) s = .next s) ∧
    (∀ trained aligned echoes cause, s.rf (oPortStatus port) 63 62 < 2 → s.rf (oPortCtl port) 25 25 = 0 →
      (trained = false ∧ cause = 6 ∨ trained = true ∧ aligned = false ∧ cause = 5 ∨
        trained = true ∧ aligned = true ∧ 5 ≤ echoes.length ∧ (addr.toNat ≠ s.neighbour port ∨ addr.toNat = 0xFFFFF) ∧ cause = 1 ∨
        trained = true ∧ aligned = true ∧ 5 ≤ echoes.length ∧ addr.toNat = s.neighbour port ∧ addr.toNat ≠ 0xFFFFF ∧ 4800 < rtt echoes ∧ cause = 2) →
      ∃ t, exec (.portBringUp port trained aligned addr echoes) s = .next t ∧ t.rf (oPortStatus port) 63 62 = 3 ∧ t.rf (oPortStatus port) 61 58 = cause ∧
        t.sport port = {} ∧ (∀ q, q ≠ port.val → t.sport q = s.sport q) ∧ Posted s t srcRouter ∧ t.rf oIntStatus 7 7 = 1 ∧
        Only [.regs, .fabric, .cal, .out] s t ∧ OnlyRegs s t [oPortStatus port, oCalLost, oIntStatus, oPba]) ∧
    (∀ echoes, s.rf (oPortStatus port) 63 62 < 2 → s.rf (oPortCtl port) 25 25 = 0 → echoes.length < 5 →
      ∃ t, exec (.portBringUp port true true addr echoes) s = .next t ∧ t.rf (oPortStatus port) 63 62 = 1 ∧
        t.sport port = { peer := addr.toNat, echoes := echoes, stamp := some s.now } ∧
        Emits s t [.link port (linkFrame 0x85 (s.self + s.now % 65536 * 2 ^ 32))] ∧ Only [.regs, .fabric, .out] s t ∧ OnlyRegs s t [oPortStatus port]) ∧
    (∀ echoes, s.rf (oPortStatus port) 63 62 < 2 → s.rf (oPortCtl port) 25 25 = 0 → 5 ≤ echoes.length → addr.toNat = s.neighbour port →
      addr.toNat ≠ 0xFFFFF → rtt echoes ≤ 4800 → (s.fw.side = false ∨ s.fw.fetch = none) →
      ∃ t, exec (.portBringUp port true true addr echoes) s = .next t ∧ t.rf (oPortStatus port) 63 62 = 2 ∧ t.rf (oPortStatus port) 47 32 = rtt echoes ∧
        (t.sport port).peer = addr.toNat ∧ (∀ k, k < 8 → SMap.get (t.sport port).credits k 0 = fullCredits (k / 2)) ∧
        (t.sport port).carries = s.job.running.isNone ∧ (t.sport port).txSeq = 0 ∧ (t.sport port).rxSeq = 0 ∧ (t.sport port).replay = [] ∧
        Posted s t srcRouter ∧ Only [.regs, .fabric, .cal] s t ∧ OnlyRegs s t [oPortStatus port, oCalLost]) ∧
    (∀ echo, s.rf (oPortStatus port) 63 62 ≠ 1 → exec (.identFrame port addr echo) s = .next s) ∧
    (∀ (echo : BitVec 32), s.rf (oPortStatus port) 63 62 = 1 → (s.sport port).stamp.map (· % 65536) ≠ some (echo.toNat % 65536) →
      ∃ t, exec (.identFrame port addr echo) s = .next t ∧ SportIs s t port { s.sport port with peer := addr.toNat } ∧
        Emits s t [.link port (linkFrame 0x85 (s.self + echo.toNat % 65536 * 2 ^ 32))] ∧ Only [.fabric, .out] s t) ∧
    (∀ (echo : BitVec 32) l sent, s.rf (oPortStatus port) 63 62 = 1 → (s.sport port).stamp = some sent → sent % 65536 = echo.toNat % 65536 →
      (s.sport port).echoes.length < 4 → l = (s.sport port).echoes ++ [s.now - sent] →
      ∃ t, exec (.identFrame port addr echo) s = .next t ∧
        SportIs s t port { s.sport port with peer := addr.toNat, echoes := l, stamp := some s.now } ∧
        Emits s t [.link port (linkFrame 0x85 (s.self + s.now % 65536 * 2 ^ 32))] ∧ Only [.fabric, .out] s t) ∧
    (∀ (echo : BitVec 32) l sent, s.rf (oPortStatus port) 63 62 = 1 → (s.sport port).stamp = some sent → sent % 65536 = echo.toNat % 65536 →
      (s.sport port).echoes.length = 4 → l = (s.sport port).echoes ++ [s.now - sent] →
      (addr.toNat = s.neighbour port → addr.toNat ≠ 0xFFFFF → rtt l ≤ 4800 → (s.fw.side = false ∨ s.fw.fetch = none) →
        ∃ t, exec (.identFrame port addr echo) s = .next t ∧ t.rf (oPortStatus port) 63 62 = 2 ∧ (t.sport port).peer = addr.toNat ∧
          (t.sport port).carries = s.job.running.isNone ∧ Posted s t srcRouter ∧ Only [.regs, .fabric, .cal] s t) ∧
      (addr.toNat ≠ s.neighbour port →
        ∃ t, exec (.identFrame port addr echo) s = .next t ∧ t.rf (oPortStatus port) 63 62 = 3 ∧ t.rf (oPortStatus port) 61 58 = 1 ∧
          Only [.regs, .fabric, .cal, .out] s t) ∧
      (addr.toNat = s.neighbour port → addr.toNat ≠ 0xFFFFF → 4800 < rtt l →
        ∃ t, exec (.identFrame port addr echo) s = .next t ∧ t.rf (oPortStatus port) 63 62 = 3 ∧ t.rf (oPortStatus port) 61 58 = 2 ∧
          Only [.regs, .fabric, .cal, .out] s t)) ∧
    (∀ cause, s.portUp port = false → exec (.portDown port cause) s = .next s) ∧
    (∀ cause : Fin 3, s.portUp port = true → (s.sport port).queue = [] →
      ∃ t, exec (.portDown port cause) s = .next t ∧ t.rf (oPortStatus port) 63 62 = s.rf (oPortCtl port) 24 24 ∧
        t.rf (oPortStatus port) 61 58 = 3 + cause.val ∧ t.sport port = {} ∧ (∀ q, q ≠ port.val → t.sport q = s.sport q) ∧ Posted s t srcRouter ∧
        t.rf oIntStatus 7 7 = 1 ∧ Only [.regs, .fabric, .cal, .out] s t ∧ OnlyRegs s t [oPortStatus port, oCalLost, oIntStatus, oPba])) ∧
  (∀ s : State,
    (s.mirState ∉ [1, 2, 3] → exec .heartbeatSend s = .next s) ∧
    (s.mirState ∈ [1, 2, 3] →
      ∃ t l, exec .heartbeatSend s = .next t ∧
        Emits s t ((if s.mirrorUp then [Ev.link (s.rf oSiteId 27 24) (linkFrame 0x84 s.committed)] else []) ++
          .message s.partner (.heartbeat (s.rw oCommitStep)) :: l) ∧
        Streamed s t s.partner ctrlStream (ctrlBytes 0x21 0 0 0 s.committed []) ∧
        t.rf oMir 4 0 = (if s.mirror.seen then s.rf oMir 4 0 else if s.rf oMir 4 0 < 20 then s.rf oMir 4 0 + 1 else s.rf oMir 4 0) ∧
        t.mirror = { s.mirror with seen := false } ∧ Only [.regs, .mirror, .fabric, .cal, .out] s t ∧ OnlyRegs s t (oMir :: oCalLost :: portRegs)) ∧
    (∀ link src step, (BitVec.toNat src ≠ s.partner ∨ link = true ∧ s.mirrorUp = false) → exec (.heartbeat link src step) s = .next s) ∧
    (∀ link src step, BitVec.toNat src = s.partner → (link = true → s.mirrorUp = true) →
      (s.mirState = 1 ∨ s.mirState = 2 →
        ∃ t, exec (.heartbeat link src step) s = .next t ∧ t.rf oMir 4 0 = 0 ∧ t.mirror = { s.mirror with seen := true } ∧ Only [.regs, .mirror] s t ∧
          OnlyRegs s t [oMir]) ∧
      (s.mirState = 3 →
        ∃ t, exec (.heartbeat link src step) s = .next t ∧ t.mirState = 1 ∧ t.rf oMir 4 0 = 0 ∧ t.rf oCommitState 7 7 = 0 ∧ Posted s t srcRm ∧
          t.rf oIntStatus 6 6 = 1 ∧ t.mirror = { s.mirror with seen := true } ∧
          (∀ p, s.job.prog = some p → ∀ i k, (i, k) ∈ t.strg.restream ↔ ∃ e, p.smap[i]? = some e ∧ k < e.shards) ∧
          Only [.regs, .mirror, .strg, .cal, .i3c, .out] s t ∧ OnlyRegs s t [oMir, oCommitState, oCalLost, oIntStatus, oPba]) ∧
      (s.mirState = 4 →
        ∃ t, exec (.heartbeat link src step) s = .next t ∧ t.rf oMir 11 5 = min (s.rf oMir 11 5 + 1) 127 ∧ Only [.regs] s t ∧ OnlyRegs s t [oMir])) ∧
    (s.mirState ≠ 1 → s.mirState ≠ 2 → exec .partnerLoss s = .next s) ∧
    (s.mirState = 1 ∨ s.mirState = 2 → s.job.running = none →
      ∃ t, exec .partnerLoss s = .next t ∧ t.mirState = 3 ∧ t.rf oCommitState 7 7 = 0 ∧ t.rf oMir 15 12 = min (s.rf oMir 15 12 + 1) 15 ∧ t.rf oMir 4 0 = 20 ∧
        t.strg = { s.strg with restream := [] } ∧ Posted s t srcRm ∧ t.rf oIntStatus 6 6 = 1 ∧ t.mirror = s.mirror ∧
        (s.reshard = none → t.reshard = none) ∧
        (∀ r, s.reshard = some r → ∃ d, t.reshard = some { r with forced := true, done := r.done ++ d } ∧
          ∀ n, n ∈ d ↔ ∃ o, r.plan.ops[n]? = some o ∧ o.typ = 6 ∧ o.incoming = false ∧ o.peer = s.partner ∧ n ∉ r.done) ∧
        Only [.regs, .strg, .reshard, .cal, .i3c, .out] s t ∧ OnlyRegs s t [oMir, oCommitState, oCalLost, oIntStatus, oPba]) ∧
    (∀ j, s.mirState = 1 ∨ s.mirState = 2 → s.job.running = some j → s.rf oRstJob 61 61 = 0 → s.phase ≠ 2 →
      ∃ t, exec .partnerLoss s = .next t ∧ t.mirState = 3 ∧ t.rf oRstJob 61 61 = 1 ∧ t.rf oRstJob 60 56 = 2 ∧ t.strg.restream = []))

/-- Frames on the site fabric (R249, R252 to R258, R262, R264): a port takes whole frames in LSEQ order and asks for a replay of anything else; a frame that
fails at its end may have been sent on already, and its copy ends with the error character, which the next port discards; a frame goes on by its route with one hop more, is delivered here, or is discarded and recorded; LACK, LNAK and credits keep the link; a stream accepts its next SEQ
and acknowledges what it had; the acknowledgement of a run's last frame completes the run; without progress the sender sends again, eight times, and then the
stream has failed. A SACK's payload and the messages of queues follow assumption 6. -/
def Obligations.FramesArriveInOrderOrAreSentAgain : Prop :=
  (∀ (port : PortNo) (b : List Byte) (s : State) (key : Nat), key = port.val * 8 + frVc b * 2 + rd 0 1 b % 2 →
    (s.linkUp port = false → exec (.routedFrame port b) s = .next s) ∧
    (s.linkUp port = true → headOk b = false →
      ∃ t, exec (.routedFrame port b) s = .next t ∧ t.rf (oPortStatus port) 15 0 = min (s.rf (oPortStatus port) 15 0 + 1) 0xFFFF ∧
        SportIs s t port { s.sport port with waiting := true } ∧
        Emits s t (if (s.sport port).waiting = true ∧ rd 2 2 b ≠ (s.sport port).rxSeq.toNat then [] else
          [.link port (linkFrame 0x82 (s.sport port).rxSeq.toNat)]) ∧ Only [.regs, .fabric, .out] s t ∧ OnlyRegs s t [oPortStatus port]) ∧
    (s.linkUp port = true → headOk b = true → rd 2 2 b ≠ (s.sport port).rxSeq.toNat →
      ∃ t, exec (.routedFrame port b) s = .next t ∧ SportIs s t port { s.sport port with waiting := true } ∧
        Emits s t (if (s.sport port).waiting then [] else [.link port (linkFrame 0x82 (s.sport port).rxSeq.toNat)]) ∧ Only [.fabric, .out] s t) ∧
    (s.linkUp port = true → headOk b = true → rd 2 2 b = (s.sport port).rxSeq.toNat → cutOff b = true →
      ∃ t, exec (.routedFrame port b) s = .next t ∧ t.rf (oPortStatus port) 15 0 = min (s.rf (oPortStatus port) 15 0 + 1) 0xFFFF ∧
        SportIs s t port { accepted s port with owes := SMap.upd (s.sport port).owes (key % 8) 0 (· + frCredits b) } ∧
        Emits s t (if (s.sport port).owed + 1 = 32 then [.link port (linkFrame 0x81 ((s.sport port).rxSeq + 1).toNat)] else []) ∧
        Only [.regs, .fabric, .out] s t ∧ OnlyRegs s t [oPortStatus port]) ∧
    (s.linkUp port = true → headOk b = true → rd 2 2 b = (s.sport port).rxSeq.toNat → cutOff b = false → bodyOk b = false →
      ((∀ q d, s.routeOf (frDest b) = some (q, d) → q = 8 ∨ 63 ≤ rd 1 1 b ∨ (s.sport q).queue ≠ []) →
        ∃ t, exec (.routedFrame port b) s = .next t ∧ SportIs s t port { s.sport port with waiting := true } ∧
          Emits s t [.link port (linkFrame 0x82 (s.sport port).rxSeq.toNat)] ∧ Only [.fabric, .out] s t) ∧
      (∀ q d lane out, s.routeOf (frDest b) = some (q, d) → q ≠ 8 → q ≠ port.val → rd 1 1 b < 63 → lane = (if d then 1 else rd 0 1 b % 2) →
        (s.sport q).queue = [] → frCredits b ≤ SMap.get (s.sport q).credits (frVc b * 2 + lane) 0 →
        ((s.sport q).replay.map (·.2.length)).sum + 32 + rd 6 2 b ≤ 2 ^ 20 →
        out = rehop lane (rd 1 1 b + 1) (s.sport q).txSeq (b.take (32 + rd 6 2 b)) →
        ∃ t, exec (.routedFrame port b) s = .next t ∧ Emits s t [.frame q out, .link port (linkFrame 0x82 (s.sport port).rxSeq.toNat)] ∧
          (t.sport q).txSeq = (s.sport q).txSeq + 1 ∧ (t.sport q).replay = (s.sport q).replay ++ [((s.sport q).txSeq, out)] ∧
          t.sport port = { s.sport port with waiting := true } ∧ Only [.fabric, .out] s t)) ∧
    (InOrder s port b →
      (s.routeOf (frDest b) = none →
        ∃ t, exec (.routedFrame port b) s = .next t ∧
          SportIs s t port { accepted s port with owes := SMap.upd (s.sport port).owes (key % 8) 0 (· + frCredits b) } ∧
          t.fabric.arrived = s.fabric.arrived ∧ t.rf (oPortStatus port) 15 0 = min (s.rf (oPortStatus port) 15 0 + 1) 0xFFFF ∧ Posted s t srcRouter ∧
          Only [.regs, .fabric, .cal, .out] s t ∧ OnlyRegs s t [oPortStatus port, oCalLost]) ∧
      (∀ d x next, s.routeOf (frDest b) = some (8, d) → frType b = 4 → x = s.txOf (frSrc b) (frStream b) → next = BitVec.ofNat 64 (rd 32 8 b) →
        ∃ t, exec (.routedFrame port b) s = .next t ∧
          SportIs s t port { accepted s port with owes := SMap.upd (s.sport port).owes (key % 8) 0 (· + frCredits b) } ∧
          t.fabric.arrived = s.fabric.arrived ∧
          (next ≤ x.next → (∃ h ∈ x.held, h.1 < next) →
            t.txOf (frSrc b) (frStream b) = { x with held := x.held.filter (fun h => !decide (h.1 < next)), resends := 0 }) ∧
          Only [.regs, .clus, .jug, .reshard, .fabric, .cal, .out] s t) ∧
      (∀ d, s.routeOf (frDest b) = some (8, d) → frType b ≠ 4 →
        ∃ t, exec (.routedFrame port b) s = .next t ∧
          SportIs s t port { accepted s port with owes := SMap.upd (s.sport port).owes (key % 8) 0 (· + frCredits b) } ∧
          t.fabric.arrived = s.fabric.arrived ++ [(port.val, b)] ∧
          Emits s t (if (s.sport port).owed + 1 = 32 then [.link port (linkFrame 0x81 ((s.sport port).rxSeq + 1).toNat)] else []) ∧
          Only [.fabric, .out] s t) ∧
      (∀ q d, s.routeOf (frDest b) = some (q, d) → q ≠ 8 → 63 ≤ rd 1 1 b →
        ∃ t, exec (.routedFrame port b) s = .next t ∧ t.fabric.arrived = s.fabric.arrived ∧ (∀ n, n ≠ port.val → t.sport n = s.sport n) ∧
          t.rf (oPortStatus port) 15 0 = min (s.rf (oPortStatus port) 15 0 + 1) 0xFFFF ∧ Posted s t srcRouter ∧ Only [.regs, .fabric, .cal, .out] s t) ∧
      (∀ q d lane out, s.routeOf (frDest b) = some (q, d) → q ≠ 8 → q ≠ port.val → rd 1 1 b < 63 → lane = (if d then 1 else rd 0 1 b % 2) → (s.sport q).queue = [] →
        out = rehop lane (rd 1 1 b + 1) (s.sport q).txSeq b →
        ((s.sport q).replay.map (·.2.length)).sum + b.length ≤ 2 ^ 20 →
        (frCredits b ≤ SMap.get (s.sport q).credits (frVc b * 2 + lane) 0 →
          ∃ t l, exec (.routedFrame port b) s = .next t ∧ t.out = s.out ++ l ++ [.frame q out] ∧ (t.sport q).queue = [] ∧
            (t.sport q).txSeq = (s.sport q).txSeq + 1 ∧ (t.sport q).replay = (s.sport q).replay ++ [((s.sport q).txSeq, out)] ∧
            SMap.get (t.sport q).credits (frVc b * 2 + lane) 0 = SMap.get (s.sport q).credits (frVc b * 2 + lane) 0 - frCredits b ∧
            SMap.get (t.sport port).owes (key % 8) 0 = SMap.get (s.sport port).owes (key % 8) 0 + frCredits b ∧ Only [.fabric, .out] s t) ∧
        (SMap.get (s.sport q).credits (frVc b * 2 + lane) 0 < frCredits b →
          ∃ t, exec (.routedFrame port b) s = .next t ∧
            (t.sport q).queue = [(frVc b, lane, key, b)] ∧ t.sport port = accepted s port ∧ Only [.fabric, .out] s t)))) ∧
  (∀ (port : PortNo) (lseq : BitVec 16) (s : State) (x : SPort), x = s.sport port →
    ((∀ r ∈ x.replay, lseqBefore r.1 lseq = false) → exec (.lack port lseq) s = .next s) ∧
    (s.linkUp port = true → (∃ r ∈ x.replay, lseqBefore r.1 lseq = true) → x.queue = [] →
      ∃ t, exec (.lack port lseq) s = .next t ∧ SportIs s t port { x with
          replay := x.replay.filter (fun r => !lseqBefore r.1 lseq), replays := if lseqBefore x.replayed lseq then 0 else x.replays } ∧
        Only [.fabric] s t) ∧
    (s.linkUp port = false → exec (.lack port lseq) s = .next s ∧ exec (.lnak port lseq) s = .next s ∧ exec (.lackTimer port) s = .next s ∧ exec (.creditTimer port) s = .next s ∧
      ∀ vc lane n, exec (.credit port vc lane n) s = .next s) ∧
    (∀ n, s.linkUp port = true → n = (if x.replayed = lseq then x.replays + 1 else 1) →
      (n < 16 →
        ∃ t, exec (.lnak port lseq) s = .next t ∧ SportIs s t port { x with replayed := lseq, replays := n } ∧
          t.rf (oPortStatus port) 31 16 = min (s.rf (oPortStatus port) 31 16 + 1) 0xFFFF ∧
          Emits s t ((x.replay.filter (fun r => !lseqBefore r.1 lseq)).map (fun r => Ev.frame port r.2)) ∧ Only [.regs, .fabric, .out] s t ∧
          OnlyRegs s t [oPortStatus port]) ∧
      (16 ≤ n → x.queue = [] →
        ∃ t, exec (.lnak port lseq) s = .next t ∧ t.portUp port = false ∧ t.rf (oPortStatus port) 61 58 = 3 ∧ SportIs s t port {} ∧
          t.rf oIntStatus 7 7 = 1 ∧ Posted s t srcRouter)) ∧
    (s.linkUp port = true →
      (x.owed = 0 → exec (.lackTimer port) s = .next s) ∧
      (x.owed ≠ 0 →
        ∃ t, exec (.lackTimer port) s = .next t ∧ SportIs s t port { x with owed := 0 } ∧ Emits s t [.link port (linkFrame 0x81 x.rxSeq.toNat)] ∧
          Only [.fabric, .out] s t) ∧
      (∃ t, exec (.creditTimer port) s = .next t ∧ SportIs s t port { x with owes := [] } ∧
        Emits s t ((x.owes.filter (fun o => o.2 != 0)).map (fun o => Ev.link port (linkFrame 0x83 (o.1 / 2 + o.1 % 2 * 4 + o.2 * 65536)))) ∧
        Only [.fabric, .out] s t) ∧
      (∀ vc lane n, x.queue = [] →
        ∃ t, exec (.credit port vc lane n) s = .next t ∧ (∀ k, SMap.get (t.sport port).credits k 0 =
            if k = vc.val * 2 + lane.val then min (fullCredits vc) (SMap.get x.credits k 0 + BitVec.toNat n) else SMap.get x.credits k 0) ∧
          t.sport port = { x with credits := (t.sport port).credits } ∧ (∀ q, q ≠ port.val → t.sport q = s.sport q) ∧ Only [.fabric] s t))) ∧
  (∀ (s : State), s.fabric.arrived = [] → exec .streamFrame s = .next s) ∧
  (∀ (s u : State) (p : Nat) (b : Bytes) (rest : List (Nat × Bytes)) (x : RxStream), s.fabric.arrived = (p, b) :: rest → p < 8 →
    u = { s with fabric := { s.fabric with arrived := rest } } → x = s.rxOf (frSrc b) (frStream b) →
    (frType b ∈ [1, 2, 3, 6] → frTag b ≠ s.tagNow → fetchFrame b = false → ∃ t, exec .streamFrame s = .next t ∧ t.fabric = u.fabric ∧
      t.rf (oPortStatus p) 15 0 = min (s.rf (oPortStatus p) 15 0 + 1) 0xFFFF ∧ Only [.regs, .fabric] s t ∧ OnlyRegs s t [oPortStatus p]) ∧
    ((frType b ∉ [1, 2, 3, 6] ∨ frTag b = s.tagNow) →
      (frSeq b = x.next → x.since + 1 ≠ 16 → frType b ≠ 5 → (fetchFrame b = false ∨ s.fw.up = false) →
        ∃ t, exec .streamFrame s = .next t ∧ t.fabric = (u.setRx { x with next := x.next + 1, since := x.since + 1, owes := true }).fabric ∧ Only [.fabric] s t) ∧
      (frSeq b = x.next → x.since = 15 → frType b ≠ 5 → (fetchFrame b = false ∨ s.fw.up = false) → x.src ≠ s.self →
        ∃ t, exec .streamFrame s = .next t ∧ t.rxOf x.src x.stream = { x with next := x.next + 1, since := 0, owes := false } ∧
          t.fabric = ((u.setRx { x with next := x.next + 1, since := 0, owes := false }).launch
            (routedFrameOf 4 x.src s.self 0 x.stream 0 0 (le 8 (x.next + 1).toNat))).fabric) ∧
      (∀ q n, frSeq b = x.next → x.since + 1 ≠ 16 → frType b = 5 → q = rd 34 2 b → n = rd 36 4 b →
        (rd 40 8 b ≠ s.stepNow → ∃ t, exec .streamFrame s = .next t ∧ t.fabric = (u.setRx { x with next := x.next + 1, since := x.since + 1, owes := true }).fabric ∧
          Only [.fabric] s t) ∧
        (rd 40 8 b = s.stepNow → ∃ t, exec .streamFrame s = .next t ∧ (∀ m, m ≠ q → t.q m = s.q m) ∧
          (rd 32 1 b = 0x10 → t.q q = { s.q q with credits := n }) ∧ (rd 32 1 b = 0x11 → t.q q = { s.q q with returned := (s.q q).returned ++ [n] }) ∧
          (rd 32 1 b = 0x12 → t.q q = { s.q q with acked := (s.q q).acked ++ [n] }) ∧ Only [.fabric, .qs] s t)) ∧
      (x.next < frSeq b →
        ∃ t, exec .streamFrame s = .next t ∧ t.fabric = u.fabric ∧ t.rf (oPortStatus p) 15 0 = min (s.rf (oPortStatus p) 15 0 + 1) 0xFFFF ∧
          Only [.regs, .fabric] s t) ∧
      (frSeq b < x.next → x.src ≠ s.self → (s.routeOf x.src).isSome = true →
        ∃ t, exec .streamFrame s = .next t ∧ t.rf (oPortStatus p) 15 0 = min (s.rf (oPortStatus p) 15 0 + 1) 0xFFFF ∧
          t.fabric = ((u.setRx { x with since := 0, owes := false }).launch
            (routedFrameOf 4 x.src s.self 0 x.stream 0 0 (le 8 x.next.toNat))).fabric))) ∧
  (∀ (dev : BitVec 20) (stream : BitVec 16) (s : State),
    (∀ x next, x = s.txOf dev.toNat stream.toNat → x.next < next ∨ (∀ h ∈ x.held, ¬h.1 < next) → exec (.sack dev stream next) s = .next s) ∧
    (∀ x next, x = s.txOf dev.toNat stream.toNat → next ≤ x.next → (∃ h ∈ x.held, h.1 < next) → s.reshard = none →
      (∀ h ∈ x.held, h.1 < next → (h.2.1, h.2.2.1) ∉ s.jug.due) →
      ∃ t, exec (.sack dev stream next) s = .next t ∧
        t.txOf dev.toNat stream.toNat = { x with held := x.held.filter (fun h => !decide (h.1 < next)), resends := 0 } ∧ Only [.fabric] s t) ∧
    (∀ x y next op run p o, x = s.txOf dev.toNat stream.toNat → next ≤ x.next → (∃ h ∈ x.held, h.1 < next) →
      (∀ h ∈ x.held, h.1 < next → (h.2.1, h.2.2.1) = (op, run)) → op < 2 ^ 32 → (op, run) ∈ s.jug.due → s.job.prog = some p → p.plan.ops[op]? = some o →
      y = { x with held := x.held.filter (fun h => !decide (h.1 < next)), resends := 0 } → (s.setTx y).unackedOp op (some run) = false →
      ∃ t, exec (.sack dev stream next) s = .next t ∧ t.txOf dev.toNat stream.toNat = y ∧ t.jug = { s.jug with due := s.jug.due.filter (· != (op, run)) } ∧
        Signalled s t o ∧ Only [.regs, .clus, .jug, .fabric, .cal] s t ∧ OnlyRegs s t [oCalLost]) ∧
    ((s.rxOf dev.toNat stream.toNat).owes = false → exec (.sackTimer dev stream) s = .next s) ∧
    ((s.rxOf dev.toNat stream.toNat).owes = true → dev.toNat ≠ s.self →
      ∃ t, exec (.sackTimer dev stream) s = .next t ∧
        t.fabric = ((s.setRx { s.rxOf dev.toNat stream.toNat with since := 0, owes := false }).launch
          (routedFrameOf 4 dev.toNat s.self 0 stream.toNat 0 0 (le 8 (s.rxOf dev.toNat stream.toNat).next.toNat))).fabric) ∧
    ((s.txOf dev.toNat stream.toNat).held = [] → exec (.e2eResend dev stream) s = .next s) ∧
    (∀ x, x = s.txOf dev.toNat stream.toNat → x.held ≠ [] → x.resends < 8 →
      ∃ t, exec (.e2eResend dev stream) s = .next t ∧ t.txOf dev.toNat stream.toNat = { x with resends := x.resends + 1 } ∧
        t.fabric = (x.held.foldl (fun v h => v.launch h.2.2.2) (s.setTx { x with resends := x.resends + 1 })).fabric ∧ Only [.regs, .fabric, .cal, .out] s t) ∧
    (∀ x, x = s.txOf dev.toNat stream.toNat → x.held ≠ [] → 8 ≤ x.resends → s.job.running = none →
      ∃ t, exec (.e2eResend dev stream) s = .next t ∧ t.txOf dev.toNat stream.toNat = { x with held := [], resends := 0 } ∧ Posted s t srcRouter ∧
        t.rf oIntStatus 7 7 = 1 ∧ Only [.regs, .fabric, .cal, .out] s t) ∧
    (∀ x j p, x = s.txOf dev.toNat stream.toNat → x.held ≠ [] → 8 ≤ x.resends → s.job.running = some j → s.job.prog = some p → s.phase ≠ 2 →
      s.rf oRstJob 61 61 = 0 → s.hang = none →
      ∃ t, exec (.e2eResend dev stream) s = .next t ∧ t.job.running = none ∧ t.rf oCommitState 47 40 = 7 ∧
        Ev.message toGroup (.veto 7 j.n) ∈ t.out))

/-- SHARD_UPDATE (R177 to R182, R184, R186, R190, R192, R198, R201, R202): the Strongman takes its oldest reduced shard; a check block that fails vetoes the
step with its kind; otherwise the new masters, moments and working weights go to the uncommitted slots and the shard is counted, or, in two-phase mode, its
gradient is parked; a held shard waits for its owner's outer application, a held-back step for its hold to end, and a residue failure, in the committed norm
that clips the step too (R42, R179), vetoes. PHASE_TWO (R183, R184): once the phase-one record has passed, a parked gradient is read back and the update computed from it with the statistics of the step and its clip
factor; before, and while merged sums or an owner's values are awaited, nothing happens. -/
def Obligations.ShardUpdateFillsTheUncommittedSlots : Prop :=
  ((∀ (sm : StrongNo) (fault : Bool) (owner : Option PeerShard) (s : State) (j : StepJob) (p : Prog), AtStrongman s sm.val j p →
    ((∀ r ∈ s.strg.reduced, ∀ e, (s.held p)[r.entry]? = some e → e.strong ≠ sm.val) → exec (.shardUpdate sm fault owner) s = .next s) ∧
    (∀ r e, s.strg.reduced.find? (fun r => ((s.held p)[r.entry]?).any (fun e => e.strong == sm.val)) = some r → (s.held p)[r.entry]? = some e →
      (fault = true → ∃ t, exec (.shardUpdate sm fault owner) s = .next t ∧ Vetoed t 7 j ∧ t.rf oIntStatus 7 7 = 1 ∧ t.rf (oStrgVeto sm.val) 63 56 = 7 ∧
        t.rf (oStrgVeto sm.val) 55 40 = e.tensor % 65536 ∧ t.rf (oStrgVeto sm.val) 31 0 = 65536 * r.shard % 2 ^ 32) ∧
      (fault = false → p.twoPhase = false → s.awaitsOwner j.n.toNat r owner = true → exec (.shardUpdate sm fault owner) s = .next s) ∧
      (∀ old new ws ms avg, ShardAt s p j.n.toNat r old new ws ms avg → fault = false → (p.twoPhase = true ∨ s.awaitsOwner j.n.toNat r owner = false) →
        r.vals.length = old.e.shardLen r.shard → new.e.strong = sm.val →
        (∀ x, x < r.vals.length → s.rowLive old.e r.entry (65536 * r.shard + x) = false → r.vals.getD x 0 ≠ 0x80000000 →
          (∀ y, y < x → s.rowLive old.e r.entry (65536 * r.shard + y) = true ∨ r.vals.getD y 0 = 0x80000000) →
          ∃ t, exec (.shardUpdate sm fault owner) s = .next t ∧ Vetoed t 4 j ∧ t.rf (oStrgVeto sm.val) 63 56 = 4 ∧
            t.rf (oStrgVeto sm.val) 31 0 = (65536 * r.shard + x) % 2 ^ 32) ∧
        ((∀ x, x < r.vals.length → s.rowLive old.e r.entry (65536 * r.shard + x) = true ∨ r.vals.getD x 0 = 0x80000000) →
          (∀ b kind i, gradCheck (p.hp old.e) (BitVec.ofNat 32 (leNat avg)) ((r.vals.drop (256 * b)).take 256) = some (kind, i) → 256 * b < r.vals.length →
            (∀ a, a < b → gradCheck (p.hp old.e) (BitVec.ofNat 32 (leNat avg)) ((r.vals.drop (256 * a)).take 256) = none) → p.twoPhase = true →
            ∃ t, exec (.shardUpdate sm fault owner) s = .next t ∧ Vetoed t kind j ∧ t.rf (oStrgVeto sm.val) 63 56 = kind ∧
              t.rf (oStrgVeto sm.val) 31 0 = (65536 * r.shard + 256 * b + i) % 2 ^ 32) ∧
          (∀ kind i, gradCheck (p.hp old.e) (BitVec.ofNat 32 (leNat avg)) (r.vals.take 256) = some (kind, i) → r.vals ≠ [] → p.twoPhase = false →
            s.mirror.adopt = [] →
            ∃ t, exec (.shardUpdate sm fault owner) s = .next t ∧ Vetoed t kind j ∧ t.rf (oStrgVeto sm.val) 63 56 = kind ∧
              t.rf (oStrgVeto sm.val) 31 0 = (65536 * r.shard + i) % 2 ^ 32) ∧
          ((∀ b, 256 * b < r.vals.length → gradCheck (p.hp old.e) (BitVec.ofNat 32 (leNat avg)) ((r.vals.drop (256 * b)).take 256) = none) →
            (p.twoPhase = true → (∀ x ∈ r.vals, fin32 x = true) →
              ∃ t, exec (.shardUpdate sm fault owner) s = .next t ∧ Wrote s t [(new.mom + 4 * (65536 * r.shard), le32s r.vals)] ∧
                t.strg.parked = s.strg.parked ++ [{ r with vals := [] }] ∧ t.strg.done = s.strg.done ∧
                t.strg.reduced = s.strg.reduced.filter (fun x => x.entry != r.entry || x.shard != r.shard) ∧
                t.strg.norm2 = (if r.owned then s.strg.norm2.merge (sumSquares r.vals) else s.strg.norm2) ∧ Only [.mem, .bad, .strg] s t) ∧
            (∀ w m, p.twoPhase = false → s.mirror.adopt = [] → old.e.rule ≠ 3 → s.mirroring = false → SMap.get? s.strg.r3mine old.e.tensor = none →
              AvgApart j.n.toNat r old new → NewValues s p j r old old ws ms r.vals w m →
              (∀ mf cfg, s.applyNow j.n.toNat = some mf → p.round = some cfg → ∃ x, s.outerShard p cfg mf new r.entry r.shard r.owned owner w = .ok x) →
              ∃ t, exec (.shardUpdate sm fault owner) s = .next t ∧
                (s.applyNow j.n.toNat = none ∨ p.round.isSome = true →
                  ShardDone s t p j.n.toNat r old new w m owner ((SMap.get s.strg.sumSq r.entry {}).merge (sumSquares r.vals))) ∧
                t.strg.reduced = s.strg.reduced.filter (fun x => x.entry != r.entry || x.shard != r.shard) ∧
                t.strg.norm2 = (if r.owned then s.strg.norm2.merge (sumSquares r.vals) else s.strg.norm2) ∧
                t.strg.sumSq = SMap.upd s.strg.sumSq r.entry {} (·.merge (sumSquares r.vals)) ∧ t.strg.parked = s.strg.parked ∧
                Only [.mem, .bad, .strg, .out] s t)))))) ∧
  (∀ (sm : StrongNo) (s : State) (j : StepJob) (p : Prog) (fault : Bool) (owner : Option PeerShard), s.job.running = some j → s.job.prog = some p → p.gen = false →
    s.rf oRstJob 61 61 = 0 → s.phase = 0 → s.hang = none →
    (((s.mirroring = true ∧ ∃ x ∈ s.strg.restream, x ∈ s.strg.vetoed) ∨ s.heldBack j.n.toNat = true ∧ s.strg.holdFrom.isSome = true) →
      exec (.shardUpdate sm fault owner) s = .next s ∧ exec (.phaseTwo sm owner) s = .next s) ∧
    (Unvetoed s → s.heldBack j.n.toNat = true → s.strg.holdFrom = none →
      ∃ t, exec (.shardUpdate sm fault owner) s = .next t ∧ t.strg = { s.strg with holdFrom := some (s.rw oTimeNow) } ∧ Only [.strg] s t) ∧
    (Unvetoed s → s.heldBack j.n.toNat = false → s.strg.holdFrom = none → sm.val ∈ s.strg.audited → s.normFault p j = some none →
      ∃ t, exec (.shardUpdate sm fault owner) s = .next t ∧ Vetoed t 7 j ∧ t.rf oIntStatus 7 7 = 1 ∧ t.rf (oStrgVeto sm.val) 63 56 = 7)) ∧
  (∀ (s : State) (p : Prog) (j : StepJob) (i k x : Nat) (h : Home) (ws : List (BitVec 32)) (b : Bytes), s.job.running = some j → s.job.prog = some p → s.phase ≠ 2 →
    s.rf oRstJob 61 61 = 0 → s.hang = none → s.home p i s.committed = some h → h.e.cold = false →
    s.read32 (h.mas + 4 * (65536 * k)) (h.e.shardLen k) = .ok ws → s.load (h.w + 2 * (65536 * k)) (2 * h.e.shardLen k) = .ok b → s.MemoryOk → s.bad = [] →
    h.w + 2 * (65536 * k) + 131072 ≤ hostWin → x < h.e.shardLen k → workOf (ws.getD x 0) ≠ (elemsLE 2 b).getD x 0 →
    (∀ y, y < x → workOf (ws.getD y 0) = (elemsLE 2 b).getD y 0) →
    Vetoed (s.auditShard p i k) 6 j ∧ (s.auditShard p i k).rf (oStrgVeto h.e.strong) 31 0 = (65536 * k + x) % 2 ^ 32 ∧
      (s.auditShard p i k).rf (oAudit h.e.strong) 31 0 = min (s.rf (oAudit h.e.strong) 31 0 + 1) 0xFFFFFFFF ∧
      ∀ y, y < 2 * h.e.shardLen k → (s.auditShard p i k).byteAt (h.w + 2 * (65536 * k) + y) = (workBytes ws).getD y 0)) ∧
  (∀ (sm : StrongNo) (owner : Option PeerShard) (s : State) (j : StepJob) (p : Prog), AtStrongman s sm.val j p →
    (s.strg.phaseOne = false → exec (.phaseTwo sm owner) s = .next s) ∧
    (∀ r e old new ws ms gs avg, s.strg.phaseOne = true →
      s.strg.parked.find? (fun r => !s.strg.done.contains (r.entry, r.shard) && ((s.held p)[r.entry]?).any (fun e => e.strong == sm.val)) = some r →
      (s.held p)[r.entry]? = some e → ShardAt s p j.n.toNat r old new ws ms avg → old.e = e →
      s.read32 (new.mom + 4 * (65536 * r.shard)) (e.shardLen r.shard) = .ok gs →
      ((e.rule = 3 ∧ SMap.get? s.strg.r3 e.tensor = none ∨ s.awaitsOwner j.n.toNat r owner = true) → exec (.phaseTwo sm owner) s = .next s) ∧
      (∀ w m, (e.rule = 3 → (SMap.get? s.strg.r3 e.tensor).isSome = true) → s.awaitsOwner j.n.toNat r owner = false → s.mirror.adopt = [] → s.mirroring = false →
        p.twoPhase = true → AvgApart j.n.toNat r old new → NewValues s p j r old new ws ms gs w m →
        (∀ mf cfg, s.applyNow j.n.toNat = some mf → p.round = some cfg → ∃ x, s.outerShard p cfg mf new r.entry r.shard r.owned owner w = .ok x) →
        (s.applyNow j.n.toNat = none ∨ p.round.isSome = true) →
        ∃ t, exec (.phaseTwo sm owner) s = .next t ∧ ShardDone s t p j.n.toNat r old new w m owner (SMap.get s.strg.sumSq r.entry {}) ∧
          t.strg.parked = s.strg.parked ∧ t.strg.norm2 = s.strg.norm2 ∧ t.strg.sumSq = s.strg.sumSq ∧ Only [.mem, .bad, .strg, .out] s t)))

/-- READY, the merged record, vetoes from other devices and the commit query (R28, R183, R187 to R191): a device reports once every shard is written and
acknowledged; a passing final record commits the step, a failing one vetoes it with its kind; a veto of the step that runs, waits or comes next is taken; a
device left in PHASE 1 asks its group, commits when one holds the record, and otherwise does not. -/
def Obligations.StepsCommitOnOneRecord : Prop :=
  (∀ (s : State) (j : StepJob) (p : Prog) (one : Bool), s.job.running = some j → s.job.prog = some p → p.gen = false → s.rf oRstJob 61 61 = 0 → s.phase = 0 → s.hang = none →
    (s.strg.readySent = true → exec .ready s = .next s) ∧
    (s.strg.readySent = false → one = (p.twoPhase && !s.strg.phaseOne) →
      (one = true → (∃ x ∈ s.allShards p, ∀ r ∈ s.strg.parked, (r.entry, r.shard) ≠ x) → exec .ready s = .next s) ∧
      (one = false → (∃ x ∈ s.allShards p, x ∉ s.strg.done) → exec .ready s = .next s) ∧
      (one = false → s.waitsMirror j.n.toNat = true → (∃ e i k, p.smap[i]? = some e ∧ k < e.shards ∧ (i, k) ∉ s.strg.acked) → exec .ready s = .next s) ∧
      ((one = true ∧ (∀ x ∈ s.allShards p, ∃ r ∈ s.strg.parked, (r.entry, r.shard) = x) ∨
          one = false ∧ (∀ x ∈ s.allShards p, x ∈ s.strg.done) ∧ (∀ e ∈ s.held p, e.rule = 3 → (SMap.get? s.strg.r3 e.tensor).isSome = true) ∧
            (s.waitsMirror j.n.toNat = true → ∀ i k e, p.smap[i]? = some e → k < e.shards → (i, k) ∈ s.strg.acked)) →
        ∃ t r, exec .ready s = .next t ∧ t.strg = { s.strg with readySent := true, sentRec := some r } ∧
          r = { step := BitVec.ofNat 64 j.n.toNat, epoch := BitVec.ofNat 16 p.epoch, veto := 0, flags := if one then 1 else 0, devices := 1,
                norm2 := wordOfAcc s.strg.norm2, gfp := fpList p.layers s.strg.gfp, wfp := fpList p.layers s.strg.wfp } ∧
          t.phase = (if one then 0 else 1) ∧
          (p.group = 1 ∨ (∃ o ∈ p.plan.ops, o.typ = 7 ∧ o.arg % 256 = if one then 1 else 0) → Only [.regs, .strg] s t ∧ OnlyRegs s t [oCommitState]) ∧
          (p.group ≠ 1 → (∀ o ∈ p.plan.ops, o.typ = 7 → o.arg % 256 ≠ if one then 1 else 0) →
            (∃ es, Emits s t (.message toGroup (.ready r) :: es)) ∧
            (p.groupAddrs.Nodup → ∀ a ∈ p.groupAddrs, Streamed s t a ctrlStream (ctrlBytes 0x30 0 0 0 j.n.toNat (recBytes r)))) ∧
          Only [.regs, .strg, .fabric, .cal, .out] s t ∧ OnlyRegs s t (oCommitState :: oCalLost :: portRegs)))) ∧
  (∀ (r : ReadyRec) (s : State) (j : StepJob) (p : Prog) (own : ReadyRec), s.job.running = some j → s.job.prog = some p → p.gen = false → s.hang = none →
    s.strg.readySent = true → s.strg.sentRec = some own → 1 < p.group → s.phase ≠ 2 → s.rf oRstJob 61 61 = 0 →
    ((isPhaseOne r ≠ isPhaseOne own ∨ r.veto = 0 ∧ r.step ≠ j.n) → exec (.mergedReadyRecord r) s = .next s) ∧
    (isPhaseOne r = isPhaseOne own → r.step = j.n →
      (wordOk r.norm2 = false → ∃ t, exec (.mergedReadyRecord r) s = .next t ∧ Vetoed t 7 j) ∧
      (wordOk r.norm2 = true → (r.veto ≠ 0 ∨ r.epoch.toNat ≠ p.epoch ∨ r.devices.toNat ≠ p.group) → s.job.settle = none →
        ∃ t, exec (.mergedReadyRecord r) s = .next t ∧ Vetoed t (if r.veto = 0 then 8 else r.veto.toNat) j ∧ t.phase = 0 ∧
          t.rw oCommitStep = s.rw oCommitStep) ∧
      (wordOk r.norm2 = true → r.veto = 0 → r.epoch.toNat = p.epoch → r.devices.toNat = p.group →
        (isPhaseOne r = true → (∀ e ∈ s.held p, e.rule ≠ 3) →
          ∃ t, exec (.mergedReadyRecord r) s = .next t ∧
            t.strg = { s.strg with phaseOne := true, p1norm := some (accOfWord r.norm2), latest := some r, readySent := false, sentRec := none } ∧ Only [.strg] s t) ∧
        (∀ q, isPhaseOne r = false → p.round = none → p.variants ≤ 1 → s.replay.on = false → s.replay.resets = [] → s.job.settle = none → s.job.runWait = none → s.MemoryOk → s.bad = [] →
          s.strg.outerDone = [] → s.taken? j.tag = some q → p.commitRec + 8192 ≤ hostWin → s.coldRows p false = [] →
          ∃ t, exec (.mergedReadyRecord r) s = .next t ∧ t.rw oCommitStep = j.n ∧ t.phase = 0 ∧ t.rf oCommitState 63 48 = p.epoch % 65536 ∧
            t.job.running = none ∧ t.job.queue = s.job.queue ∧ t.job.prog = some p ∧
            t.mbx.taken = s.mbx.taken.filter (fun x => x.tag != q.tag) ∧
            (q.silent = false → t.mbx.wait = s.mbx.wait ++ [completionOf q 0 0 []]) ∧ t.rf oIntStatus 2 2 = 1 ∧
            (∀ y, t.byteAt y = if p.commitRec + 4096 * (j.n.toNat % 2) ≤ y ∧ y < p.commitRec + 4096 * (j.n.toNat % 2) + 4096 then
              (fit 4096 (recBytes r)).getD (y - (p.commitRec + 4096 * (j.n.toNat % 2))) 0 else s.byteAt y) ∧
            t.strg.merged = (s.strg.merged ++ [r]).drop (s.strg.merged.length - 1) ∧ t.strg.done = [] ∧ t.strg.reduced = [] ∧ t.strg.parked = [] ∧ t.qs = [] ∧
            t.jug.ran = [] ∧ Posted s t srcRm ∧ t.job.attempts = s.job.attempts ∧ t.strg.writeback = s.strg.writeback)))) ∧
  (∀ (src : BitVec 20) (kind : BitVec 8) (step : Word) (s : State) (p : Prog), s.hang = none → s.job.prog = some p → src.toNat ≠ s.self →
    (∀ j, s.job.running = some j → j.n ≠ step → exec (.vetoFrame src kind step) s = .next s) ∧
    (∀ j, s.job.running = some j → j.n = step → s.phase = 2 → exec (.vetoFrame src kind step) s = .next s) ∧
    (∀ j, s.phase ≠ 2 → s.rf oRstJob 61 61 = 0 →
      (s.job.running = some j ∨ s.job.running = none ∧ ∃ rest, s.job.queue = j :: rest) → j.n = step →
      ∃ t, exec (.vetoFrame src kind step) s = .next t ∧ t.rf oCommitState 47 40 = 9 ∧ t.phase = 0 ∧ t.job.running = none ∧ t.job.queue = [] ∧
        t.rf oIntStatus 3 3 = 1 ∧ Posted s t srcRm ∧ t.rw oCommitStep = s.rw oCommitStep) ∧
    (s.job.running = none → s.job.queue = [] → step.toNat = s.committed + 1 →
      ∃ t, exec (.vetoFrame src kind step) s = .next t ∧ t.rf oCommitState 47 40 = 9 ∧ t.rf oIntStatus 3 3 = 1 ∧ Posted s t srcRm ∧
        Only [.regs, .cal, .out] s t ∧ OnlyRegs s t [oCommitState, oCalLost, oIntStatus, oPba]) ∧
    (s.job.running = none → s.job.queue = [] → step.toNat ≠ s.committed + 1 → exec (.vetoFrame src kind step) s = .next s)) ∧
  (∀ (src : BitVec 20) (step : Word) (s : State),
    ∃ t, exec (.commitQuery src step) s = .next t ∧ Only [.out] s t ∧
      ((∀ r ∈ s.strg.merged, r.step ≠ step) → Emits s t [.message src.toNat (.answer none)]) ∧
      (∀ r, s.strg.merged = [r] → r.step = step → Emits s t [.message src.toNat (.answer (some r))]) ∧
      (∀ p a b, s.job.prog = some p → s.strg.merged = [a, b] → a.step = step → b.step = step →
        Emits s t [.message src.toNat (.answer (some (if recPasses p step.toNat a then a else b)))])) ∧
  (∀ (s : State), s.strg.query = none → exec .commitQueryRetry s = .next s ∧ ∀ a r, exec (.commitQueryAnswer a r) s = .next s) ∧
  (∀ (s : State) (q : Query) (p : Prog), s.strg.query = some q → s.job.prog = some p →
    (∃ t, exec .commitQueryRetry s = .next t ∧
      Emits s t ((q.members.filter (fun a => !q.answered.contains a)).map (fun a => Ev.message a (.query q.step))) ∧ Only [.out] s t) ∧
    (∀ a r, (BitVec.toNat a ∉ q.members ∨ BitVec.toNat a ∈ q.answered) → exec (.commitQueryAnswer a r) s = .next s) ∧
    (∀ a, BitVec.toNat a ∈ q.members → BitVec.toNat a ∉ q.answered →
      ((∃ m ∈ q.members, m ≠ a.toNat ∧ m ∉ q.answered) →
        ∃ t, exec (.commitQueryAnswer a none) s = .next t ∧ t.strg = { s.strg with query := some { q with answered := q.answered ++ [a.toNat] } } ∧
          Only [.strg] s t) ∧
      ((∀ m ∈ q.members, m = a.toNat ∨ m ∈ q.answered) → s.job.settle = none →
        ∃ t, exec (.commitQueryAnswer a none) s = .next t ∧ t.phase = 0 ∧ t.strg.query = none ∧ t.rw oCommitStep = s.rw oCommitStep ∧
          (∀ tag w, s.job.runWait = some tag → s.job.staged = none → s.taken? tag = some w → Completed s t w 0 0 [])) ∧
      (∀ r, recPasses p q.step.toNat r = true → isPhaseOne r = false → wordOk r.norm2 = true → s.job.settle = none → s.job.staged = none →
        ∃ t, exec (.commitQueryAnswer a (some r)) s = .next t ∧ t.phase = 0 ∧ t.strg.query = none ∧ t.rw oCommitStep = q.step)))

/-- The mirror's messages, the write-back and the outer close (R193 to R197, R199, R203, R279, R285, R301): a whole shard is stored, tagged and acknowledged,
any other asked for again; an acknowledgement of the newest data counts, a request sends the shard again, and every shard that is due is streamed; the staged
rows of a commit go to the cold window; after a closing step the residuals are written, the round opens, and the streams are kept and sent. That rows of a commit
later than a close that is due wait for it is the model's choice (assumption 61). -/
def Obligations.MirrorWriteBackAndCloseFollowTheCommit : Prop :=
  (∀ (msg : List Byte) (s : State) (ack : Bool → Msg), ack = (fun ok => .mirrorAck (rd 16 4 msg) (rd 20 4 msg) (BitVec.ofNat 64 (rd 8 8 msg)) ok) →
    (s.mirroring = false → exec (.mirrorData msg) s = .next s) ∧
    (s.mirroring = true → mirrorOk s.mirror.map msg = false →
      ∃ t, exec (.mirrorData msg) s = .next t ∧ Sends s t s.partner (ack false) ∧ Only [.regs, .fabric, .cal, .out] s t ∧ OnlyRegs s t (oCalLost :: portRegs)) ∧
    (∀ e h j k n ws, s.mirState = 2 → mirrorOk s.mirror.map msg = true → j = rd 16 4 msg → k = rd 20 4 msg → s.mirror.map[j]? = some e → h = s.mirror.homeIn j e →
      n = e.shardLen k → s.MemoryOk → s.bad = [] → h.tot + 4 ≤ hostWin → s.mirror.tagAddr j k + 32 ≤ hostWin →
      h.mas + 262144 * (k + 1) ≤ hostWin → h.mom + 262144 * (k + 1) ≤ hostWin →
      ws = [(h.mas + 262144 * k, slice 64 (4 * n) msg), (h.mom + 262144 * k, slice (64 + 4 * n) (4 * n) msg)] ++
        (if k + 1 = e.shards then
          (h.rcd, slice (64 + 8 * n) 64 msg) :: (if e.rule = 3 then
            [(h.row, slice (128 + 8 * n) (4 * e.rows) msg), (h.col, slice (128 + 8 * n + 4 * e.rows) (4 * e.rowLen) msg),
             (h.tot, slice (128 + 8 * n + 4 * e.rows + 4 * e.rowLen) 4 msg)] else []) else []) ++
        [(s.mirror.tagAddr j k, slice 8 8 msg ++ slice 32 8 msg ++ slice 4 2 msg ++ [1] ++ zeros 13)] →
      (∀ w ∈ ws, w.2 = [] ∨ s.reach w.1 w.2.length = true) →
      ∃ t, exec (.mirrorData msg) s = .next t ∧ Sends s t s.partner (ack true) ∧ Wrote s t ws ∧
        Only [.regs, .mem, .bad, .fabric, .cal, .out] s t ∧ OnlyRegs s t (oCalLost :: portRegs)) ∧
    (mirrorOk s.mirror.map msg = true → crc32c (msg.take (msg.length - 4)) = rd (msg.length - 4) 4 msg ∧ rd 0 4 msg = 0x4452494D ∧
      ∃ e, s.mirror.map[rd 16 4 msg]? = some e ∧ rd 20 4 msg < e.shards ∧ rd 24 4 msg = e.shardLen (rd 20 4 msg))) ∧
  (∀ (entry shard : Nat) (step : Word) (s : State) (p : Prog) (e : SEntry), s.job.prog = some p → p.smap[entry]? = some e →
    (∀ ok, (s.mirroring = false ∨ e.shards ≤ shard) → exec (.mirrorAck entry shard step ok) s = .next s) ∧
    (step.toNat ≠ s.mirrorStep (entry, shard) → exec (.mirrorAck entry shard step true) s = .next s) ∧
    (s.mirState = 2 → shard < e.shards → step.toNat = s.mirrorStep (entry, shard) →
      ∃ t, exec (.mirrorAck entry shard step true) s = .next t ∧
        t.strg = { s.strg with
          acked := if (entry, shard) ∈ s.strg.mirrored ∧ (entry, shard) ∉ s.strg.acked then s.strg.acked ++ [(entry, shard)] else s.strg.acked
          restream := s.strg.restream.filter (· != (entry, shard)) } ∧ Only [.strg] s t) ∧
    (∀ h m, s.mirroring = true → shard < e.shards → s.job.running = none → s.home p entry s.committed = some h →
      (∀ d, SMap.get? s.strg.digC (pairKey entry shard) = some d → s.mirrorMsg p h entry shard s.committed d = .ok m →
        ∃ t, exec (.mirrorAck entry shard step false) s = .next t ∧ (∃ es, Emits s t (.mirror s.partner m :: es)) ∧ t.strg = s.strg ∧
          ((∀ x ∈ (s.txOf s.partner mirrorStream).held, x.2.2.1 ≠ pairKey entry shard + 1) → Streamed s t s.partner mirrorStream m) ∧
          Only [.regs, .fabric, .cal, .out] s t)) ∧
    (∀ h m d x, s.mirState = 2 → s.strg.restream = [(entry, shard)] → shard < e.shards → s.home p entry s.committed = some h →
      x = SMap.get? s.strg.digC (pairKey entry shard) → d = x.getD (Config.freeValue s.free) → s.mirrorMsg p h entry shard s.committed d = .ok m →
      ∃ t, exec .mirrorRestream s = .next t ∧ (∃ es, Emits s t (.mirror s.partner m :: es)) ∧ t.strg = s.strg ∧
        ((∀ x ∈ (s.txOf s.partner mirrorStream).held, x.2.2.1 ≠ pairKey entry shard + 1) → Streamed s t s.partner mirrorStream m) ∧
        t.free = (if x = none then s.free + 1 else s.free) ∧ Only [.regs, .fabric, .cal, .out, .free] s t)) ∧
  (∀ (s : State), (s.job.prog = none ∨ s.mirroring = false) → exec .mirrorRestream s = .next s) ∧
  (∀ (s : State), s.job.prog = none → exec .writeback s = .next s) ∧
  (∀ (s : State) (p : Prog), s.job.prog = some p →
    (s.strg.writeback = [] → ∃ t, exec .writeback s = .next t ∧ t.rf oCommitState 5 5 = 0 ∧ Only [.regs] s t ∧ OnlyRegs s t [oCommitState]) ∧
    (∀ c, s.strg.closeDue = some c → s.strg.writeback ≠ [] → (∀ x ∈ s.strg.writeback, c < x.2.2) → exec .writeback s = .next s) ∧
    (∀ i r st h n (vs : Nat → List (BitVec 32)), s.strg.writeback = [(i, r, st)] → (∀ c, s.strg.closeDue = some c → st ≤ c) → s.home p i st = some h →
      n = max h.e.rowLen 1 → h.e.coldBase + 20 * h.e.count ≤ hostWin → s.MemoryOk → s.bad = [] → (∀ a, a < 5 → s.read32 (h.arr a + 4 * (r * n)) n = .ok (vs a)) →
      (∀ a, a < 5 → ∀ b, s.reach (h.e.coldBase + 4 * (a * h.e.count + r * n)) (4 * n) = true ∧
        (b < 5 → h.arr b + 4 * (r * n) + 4 * n ≤ h.e.coldBase + 4 * (a * h.e.count + r * n) ∨
          h.e.coldBase + 4 * (a * h.e.count + r * n) + 4 * n ≤ h.arr b + 4 * (r * n))) → r * n + n ≤ h.e.count →
      ∃ t, exec .writeback s = .next t ∧ t.strg = { s.strg with writeback := [] } ∧ t.rf oCommitState 5 5 = 0 ∧
        Wrote s t ((List.range 5).map (fun a => (h.e.coldBase + 4 * (a * h.e.count + r * n), le32s (vs a)))) ∧ Only [.regs, .mem, .bad, .strg] s t ∧
        OnlyRegs s t [oCommitState])) ∧
  (∀ (s : State), (s.strg.closeDue = none ∨ s.cfg? = none) → exec .outerClose s = .next s) ∧
  (∀ (s : State) (p : Prog) (c : Nat) (cfg : RoundCfg) (runs : List (Nat × Nat × List RunOut)) (mac : Nat) (b : Bytes) (q : Peer), s.strg.closeDue = some c →
    s.job.prog = some p → p.round = some cfg → s.rounds.nextMap = none → s.closeRuns p c = .ok runs → s.roundStreams p c runs = .ok [(mac, b)] →
    s.replay.on = false → s.job.running = none → s.peer? mac = some q → Keyless s q → s.rounds.storeUsed + b.length ≤ s.storeBytes → s.rounds.joinReqs = 0 →
    BitVec.ofNat 64 (c / cfg.h) ∉ s.rounds.full →
    ∃ t u, exec .outerClose s = .next t ∧
      u = runs.foldl (fun u x => match u.home p x.1 c with | some h => u.putElems p h x.1 c 4 x.2.1 (x.2.2.flatMap (·.resid)) | none => u) s ∧
      t.mem = u.mem ∧ t.hostMem = u.hostMem ∧ t.strg = { u.strg with closeDue := none } ∧ t.rf oCommitState 6 6 = 0 ∧ t.rounds.open_ = some (BitVec.ofNat 64 (c / cfg.h)) ∧
      t.rounds.applied = false ∧ t.rounds.held = none ∧ t.rounds.coordHeld = none ∧ t.rounds.sealed_ = none ∧ t.rounds.issued = none ∧ t.rw oBjnRound = BitVec.ofNat 64 (c / cfg.h) ∧
      t.rf oBjnRoundState 63 61 = 1 ∧ t.rf oBjnRoundState 60 56 = s.leadOf (c / cfg.h) 0 % 32 ∧ t.rf oBjnRoundState 55 48 = 0 ∧
      t.rf oBjnRoundState 47 32 = 0 ∧ t.rounds.store = s.rounds.store ++ [{ round := BitVec.ofNat 64 (c / cfg.h), mac := mac, data := b }] ∧
      (∃ x, t.peer? mac = some x ∧ x.waiting = q.waiting ++ (segments (s.rf oBjnCtl 46 32 - 24) (BitVec.ofNat 64 (c / cfg.h)) b.length
        (b.length / (s.rf oBjnCtl 46 32 - 24) + 1) 0 b).map (fun y => (1, y))) ∧
      Posted s t srcRm)

/-- LAYOUT, PERMUTATION_START and PERMUTE (R234, R235, R277, R382): a re-shard is accepted with a staged image, at the commit it names and with a plan that
passes; the steps behind it end with EPOCH; the permutation begins between steps, in its lowest phase; an outgoing entry sends its bytes, with the delta runs of
an open round, and is done once they are acknowledged; an incoming one takes them once, whenever its phase has come, and a frame that no incoming entry expects
ends the command; after a veto of the step that it names the ranges are those of the commit before; a forced re-shard takes a new plan (assumption 60).
That the permutation waits for the outer close and the write-back is the model's
choice (assumption 42). -/
def Obligations.ReshardsPermuteStateBetweenSteps : Prop :=
  (∀ (s : State) (tag : BitVec 32) (q : Taken) (c : Nat) (b : Bytes), Runs s tag 0x0701 q → c = rd 0 8 q.payload →
    b = s.hostGet (rd 8 8 q.payload) (rd 16 8 q.payload) →
    (((∃ r, s.reshard = some r ∧ r.forced = false) ∨ s.restore.isSome = true) → ∃ t, exec (.layout tag) s = .next t ∧ Refused s t q 5) ∧
    (s.reshard = none → s.restore = none → s.job.staged = none → ∃ t, exec (.layout tag) s = .next t ∧ Refused s t q 0x0501) ∧
    (∀ p, s.reshard = none → s.restore = none → s.job.staged = some p →
      ((s.job.running = none → c ≠ s.committed) → (∀ j, s.job.running = some j → c ≠ s.committed + 1 ∨ j.n.toNat ≠ c) →
        ∃ t, exec (.layout tag) s = .next t ∧ Refused s t q 0x0209) ∧
      ((s.job.running = none ∧ c = s.committed ∨ ∃ j, s.job.running = some j ∧ j.n.toNat = c ∧ c = s.committed + 1) →
        planBytes (s.hostGet (rd 8 8 q.payload) 64) = rd 16 8 q.payload →
        (∀ st rest, checkPlan p 1 (fun x => rtValid (p.route.entry x)) b = st :: rest → (∀ x ∈ rest, st ≤ x) →
          ∃ t, exec (.layout tag) s = .next t ∧ Refused s t q st) ∧
        (checkPlan p 1 (fun x => rtValid (p.route.entry x)) b = [] → planOrdered (mkPlan b) = false →
          ∃ t, exec (.layout tag) s = .next t ∧ Refused s t q stOrder) ∧
        (checkPlan p 1 (fun x => rtValid (p.route.entry x)) b = [] → planOrdered (mkPlan b) = true → s.job.queue = [] →
          ∃ t, exec (.layout tag) s = .next t ∧ t.reshard = some { tag := tag, commit := BitVec.ofNat 64 c, plan := mkPlan b } ∧
            Started s t tag ∧ t.job = s.job ∧ Only [.mbx, .job, .reshard] s t) ∧
        (∀ j w, checkPlan p 1 (fun x => rtValid (p.route.entry x)) b = [] → planOrdered (mkPlan b) = true → s.job.queue = [j] → s.taken? j.tag = some w →
          j.tag ≠ tag → w.silent = false →
          ∃ t, exec (.layout tag) s = .next t ∧ t.job.queue = [] ∧ t.mbx.wait = s.mbx.wait ++ [completionOf w stEpoch 0 []] ∧
            t.reshard = some { tag := tag, commit := BitVec.ofNat 64 c, plan := mkPlan b }))) ∧
    (∀ p r w, s.reshard = some r → r.forced = true → s.restore = none → s.job.staged = some p → s.job.running = none → c = s.committed →
      planBytes (s.hostGet (rd 8 8 q.payload) 64) = rd 16 8 q.payload → checkPlan p 1 (fun x => rtValid (p.route.entry x)) b = [] →
      planOrdered (mkPlan b) = true → s.job.queue = [] → s.taken? r.tag = some w → r.tag ≠ tag → w.silent = false →
      ∃ t, exec (.layout tag) s = .next t ∧ t.mbx.wait = s.mbx.wait ++ [completionOf w 8 0 []] ∧
        t.reshard = some { tag := tag, commit := BitVec.ofNat 64 c, plan := mkPlan b, forced := true, done := r.doneIn (mkPlan b) } ∧
        Only [.mbx, .regs, .reshard, .out] s t)) ∧
  (∀ (s : State) (r : Reshard) (e : SEntry) (o : PlanOp) (k x : Nat), k = r.commit.toNat % 2 → k ≠ s.committed % 2 →
    o.loc = e.masAddr k + 4 * x → 4 * x + o.count ≤ 4 * e.count → (o.loc < e.wAddr k ∨ e.wAddr k + 2 * e.count < o.loc + o.count) →
    (o.loc < e.momAddr k ∨ e.momAddr k + 4 * e.count < o.loc + o.count) → s.permAddr r [e] o = e.masAddr (s.committed % 2) + 4 * x) ∧
  (∀ (s : State),
    ((s.reshard = none ∨ (∃ r, s.reshard = some r ∧ r.started = true) ∨ s.job.running.isSome = true ∨ s.phase ≠ 0 ∨ s.strg.closeDue.isSome = true ∨
      s.strg.writeback ≠ []) → exec .permutationStart s = .next s) ∧
    (∀ r, s.reshard = some r → r.started = false → s.job.running = none → s.phase = 0 → s.strg.closeDue = none → s.strg.writeback = [] →
      (r.early = [] → ∃ t k, exec .permutationStart s = .next t ∧ t.reshard = some { r with started := true, phase := k } ∧ t.jug = { s.jug with allred := [] } ∧
        (∀ o ∈ r.plan.ops, (o.typ = 6 ∨ o.typ = 7 ∧ o.arg % 256 = 3) → k ≤ o.phaseOf) ∧ Only [.reshard, .jug] s t) ∧
      (∀ op b o, r.early = [(op, b)] → r.plan.ops[op]? = some o → op ∉ r.done → s.triggered o 0 = true → o.phaseOf ≤ 255 →
        (∀ y ∈ r.plan.ops, (y.typ = 6 ∨ y.typ = 7 ∧ y.arg % 256 = 3) → o.phaseOf ≤ y.phaseOf) → (s.store (s.permAddr r s.mapTo o) b).2 = none → s.MemoryOk →
        ∃ t k, exec .permutationStart s = .next t ∧ Wrote s t [(s.permAddr r s.mapTo o, b)] ∧ Signalled s t o ∧
          t.reshard = some { r with started := true, phase := k, early := [], done := r.done ++ [op] }))) ∧
  (∀ (op : Nat) (s : State),
    (s.reshard = none → exec (.permute op none) s = .next s) ∧
    (∀ r o, s.reshard = some r → r.early = [] → r.plan.ops[op]? = some o → o.typ = 6 →
      (o.incoming = false → (r.started = false ∨ op ∈ r.done ∨ s.unackedOp (permKey op) none = true ∨ r.phase < o.phaseOf ∨ s.triggered o 0 = false) →
        exec (.permute op none) s = .next s) ∧
      (∀ b, o.incoming = true → b.bytes.length = o.count → b.deltas = [] →
        (op ∈ r.done → exec (.permute op (some b)) s = .next s) ∧
        (op ∉ r.done → (r.started = false ∨ r.phase < o.phaseOf ∨ s.triggered o 0 = false) →
          ∃ t, exec (.permute op (some b)) s = .next t ∧ t.reshard = some { r with early := [(op, b.bytes)] } ∧ Only [.reshard] s t)) ∧
      (∀ a b, r.started = true → op ∉ r.done → o.phaseOf ≤ r.phase → o.incoming = false → s.triggered o 0 = true → s.unackedOp (permKey op) none = false →
        a = s.permAddr r s.mapFrom o → s.load a o.count = .ok b →
        ∃ t, exec (.permute op none) s = .next t ∧ (∃ es, Emits s t (.permuted o.peer o.aux { bytes := b, deltas := s.movedRuns a o.count } :: es)) ∧
          Streamed s t o.peer o.stream b ∧ Only [.regs, .fabric, .cal, .out] s t ∧ OnlyRegs s t (oCalLost :: portRegs)) ∧
      (∀ dev x y next run, o.incoming = false → x = s.txOf dev o.stream → dev = o.peer → next ≤ x.next → (∃ h ∈ x.held, h.1 < next) →
        (∀ h ∈ x.held, h.1 < next → (h.2.1, h.2.2.1) = (permKey op, run)) → op ∉ r.done → dev < 2 ^ 20 → o.stream < 2 ^ 16 →
        y = { x with held := x.held.filter (fun h => !decide (h.1 < next)), resends := 0 } → (s.setTx y).unackedOp (permKey op) (some run) = false →
        ∃ t, exec (.sack (BitVec.ofNat 20 dev) (BitVec.ofNat 16 o.stream) next) s = .next t ∧ t.txOf dev o.stream = y ∧
          t.reshard = some { r with done := r.done ++ [op] } ∧ Signalled s t o ∧ Only [.regs, .clus, .reshard, .fabric, .cal] s t ∧ OnlyRegs s t [oCalLost]) ∧
      (∀ b, r.started = true → op ∉ r.done → o.phaseOf ≤ r.phase → o.incoming = true → s.triggered o 0 = true → b.bytes.length = o.count →
        (s.store (s.permAddr r s.mapTo o) b.bytes).2 = none → s.MemoryOk →
        (b.deltas = [] → ∃ t, exec (.permute op (some b)) s = .next t ∧ Wrote s t [(s.permAddr r s.mapTo o, b.bytes)] ∧ t.reshard = some { r with done := r.done ++ [op] } ∧
          Signalled s t o ∧ Only [.regs, .mem, .hostMem, .bad, .clus, .reshard, .cal] s t) ∧
        (∀ z k run, b.deltas = [(z, k, run)] → run ≠ [] → run.length = runLen run → s.rounds.storeUsed + run.length ≤ s.storeBytes → k ∉ s.rounds.full →
          (∀ d ∈ s.rounds.rx, (d.site, d.round, d.mac) ≠ (z, k, movedMac)) →
          ∃ t, exec (.permute op (some b)) s = .next t ∧ t.reshard = some { r with done := r.done ++ [op] } ∧
            ∃ d ∈ t.rounds.rx, d.site = z ∧ d.round = k ∧ d.complete = true ∧ d.bytes = run))) ∧
    (∀ r b w, s.reshard = some r → r.early = [] →
      (r.plan.ops[op]? = none ∨ (∃ o, r.plan.ops[op]? = some o ∧ (o.typ ≠ 6 ∨ o.incoming = false ∨ b.bytes.length ≠ o.count))) →
      s.taken? r.tag = some w →
      ∃ t, exec (.permute op (some b)) s = .next t ∧ t.reshard = none ∧ Completed s t w stOrder 0 [] ∧ Posted s t srcRouter ∧
        t.rounds = { s.rounds with layoutMap := none } ∧ Only [.regs, .reshard, .rounds, .mbx, .cal, .out] s t))

/-- ALLRED (R42, R43, R181, R187 to R189, R205, R235, R271, R272, R276): an entry merges its device's record with its children's, each once and each checked, in
its record buffer, and, with all of them in, sends up or ends at the root; the final record goes to the children and takes effect: a RULE 3 record gives a tensor its sums, the last
completion ends a permutation or a restore. -/
def Obligations.RecordsMergeUpTheTree : Prop :=
  ∀ (op : Nat) (s : State) (pl : Plan) (o : PlanOp) (x : AllredSt), s.redPlan = some pl → pl.ops[op]? = some o → s.hang = none → x = SMap.get s.jug.allred op {} →
    (o.typ ≠ 7 → ∀ ev, exec (.allred op ev) s = .next s) ∧
    (o.typ = 7 → (o.arg % 256 = 1 ∨ o.arg % 256 = 2) → s.rf oRstJob 61 61 = 1 → ∀ ev, exec (.allred op ev) s = .next s) ∧
    (o.typ = 7 → (o.arg % 256 = 0 ∨ o.arg % 256 = 3 ∨ s.rf oRstJob 61 61 = 0) →
      (x.own = true ∨ s.ownRecord o = none ∨ s.triggered o 0 = false → exec (.allred op .own) s = .next s) ∧
      (∀ a r, (recKind o r = false ∨ BitVec.toNat a ∉ pl.listOf o ∨ a.toNat ∈ x.kids) → exec (.allred op (.child a r)) s = .next s) ∧
      (∀ r, (recKind o r = false ∨ o.peer = 0xFFFFF ∨ x.sent = false) → exec (.allred op (.final r)) s = .next s) ∧
      (∀ a r, recKind o r = true → BitVec.toNat a ∈ pl.listOf o → a.toNat ∉ x.kids → recWordsOk r = false → s.job.running = none →
        ∃ t, exec (.allred op (.child a r)) s = .next t ∧ t.jug = s.jug ∧ t.rf oIntStatus 7 7 = 1 ∧ Only [.regs, .cal, .out] s t) ∧
      (∀ a r y, recKind o r = true → BitVec.toNat a ∈ pl.listOf o → a.toNat ∉ x.kids → recWordsOk r = true →
        y = { x with kids := x.kids ++ [a.toNat], rec_ := some (match x.rec_ with | some z => mergeRecs z r | none => r) } →
        (∀ z, y.rec_ = some z → Buffered s o z →
          (x.own = false ∨ x.kids.length + 1 < (pl.listOf o).length ∨ x.sent = true →
            ∃ t, exec (.allred op (.child a r)) s = .next t ∧ t.jug = { s.jug with allred := SMap.set s.jug.allred op y } ∧
              Wrote s t [(o.loc, fit o.count (allredBytes z))] ∧ Only [.mem, .hostMem, .bad, .jug] s t) ∧
          (x.own = true → (pl.listOf o).length ≤ x.kids.length + 1 → x.sent = false → o.peer ≠ 0xFFFFF →
            ∃ t, exec (.allred op (.child a r)) s = .next t ∧ t.jug = { s.jug with allred := SMap.set s.jug.allred op { y with sent := true } } ∧
              (∃ es, Emits s t (.message o.peer (recMsg false z) :: es)) ∧ Wrote s t [(o.loc, fit o.count (allredBytes z))] ∧
              Streamed s t o.peer o.stream (((recMsg false z).ctrl s.stepNow).getD (allredBytes z)) ∧
              Only [.regs, .mem, .hostMem, .bad, .jug, .fabric, .cal, .out] s t))) ∧
      (∀ r z, x.own = false → s.ownRecord o = some r → s.triggered o 0 = true → z = (match x.rec_ with | some w => mergeRecs w r | none => r) → Buffered s o z →
        (x.kids.length < (pl.listOf o).length →
          ∃ t, exec (.allred op .own) s = .next t ∧ t.jug = { s.jug with allred := SMap.set s.jug.allred op { x with own := true, rec_ := some z } } ∧
            Wrote s t [(o.loc, fit o.count (allredBytes z))] ∧ Only [.mem, .hostMem, .bad, .jug] s t) ∧
        ((pl.listOf o).length ≤ x.kids.length → x.sent = false → o.peer ≠ 0xFFFFF →
          ∃ t, exec (.allred op .own) s = .next t ∧ t.jug = { s.jug with allred := SMap.set s.jug.allred op { x with own := true, rec_ := some z, sent := true } } ∧
            (∃ es, Emits s t (.message o.peer (recMsg false z) :: es)) ∧ Wrote s t [(o.loc, fit o.count (allredBytes z))] ∧
            Streamed s t o.peer o.stream (((recMsg false z).ctrl s.stepNow).getD (allredBytes z)) ∧
            Only [.regs, .mem, .hostMem, .bad, .jug, .fabric, .cal, .out] s t)) ∧
      (∀ ev e c v j p, recKind o (.rule3 e c v) = true → Ends s pl o x ev (.rule3 e c v) → Buffered s o (.rule3 e c v) → recWordsOk (.rule3 e c v) = true →
        s.job.running = some j → s.job.prog = some p → SMap.get? s.strg.r3 e = none → (∀ y ∈ s.held p, y.rule = 3 → y.tensor ≠ e) → s.mirroring = false →
        ∃ t, exec (.allred op ev) s = .next t ∧
          SMap.get? t.strg.r3 e = some { cols := c.map accOfWord, tot := accOfWord v, got := 0 } ∧ RedSignals s t pl op o ∧
          (∀ a ∈ pl.listOf o, Ev.message a (.rule3 e (c.map accOfWord) (accOfWord v)) ∈ t.out) ∧ (pl.listOf o ≠ [] → (s.redKey op, 0) ∈ t.jug.due) ∧
          Wrote s t [(o.loc, fit o.count (allredBytes (.rule3 e c v)))] ∧ Only [.regs, .mem, .hostMem, .bad, .clus, .strg, .jug, .fabric, .cal, .out] s t) ∧
      (∀ ev k n q, recKind o (.completion k n) = true → Ends s pl o x ev (.completion k n) → Buffered s o (.completion k n) → s.job.running = none →
        s.reshard = some q →
        (∀ m, q.early = [] → (∃ y ∈ q.plan.ops, (y.typ = 6 ∨ y.typ = 7 ∧ y.arg % 256 = 3) ∧ y.phaseOf = m) → o.phaseOf < m →
          (∀ y ∈ q.plan.ops, (y.typ = 6 ∨ y.typ = 7 ∧ y.arg % 256 = 3) → o.phaseOf < y.phaseOf → m ≤ y.phaseOf) →
          ∃ t, exec (.allred op ev) s = .next t ∧ t.reshard = some { q with phase := m } ∧ RedSignals s t pl op o ∧
            (∀ a ∈ pl.listOf o, Ev.message a (.completion k.toNat n.toNat) ∈ t.out) ∧
            Only [.regs, .mem, .hostMem, .bad, .clus, .jug, .reshard, .fabric, .cal, .out] s t) ∧
        (∀ p w, (∀ y ∈ q.plan.ops, (y.typ = 6 ∨ y.typ = 7 ∧ y.arg % 256 = 3) → y.phaseOf ≤ o.phaseOf) → s.job.staged = some p → s.taken? q.tag = some w →
          s.mirState ≠ 2 →
          ∃ t, exec (.allred op ev) s = .next t ∧ t.reshard = none ∧ t.job.prog = some p ∧ t.job.staged = none ∧
            t.rf oCommitState 63 48 = p.epoch % 65536 ∧ t.mbx.taken = s.mbx.taken.filter (fun y => y.tag != w.tag) ∧
            (w.silent = false → completionOf w 0 0 [] ∈ t.mbx.wait) ∧
            (∀ m, s.rounds.layoutMap = some m → t.rounds.map = m ∧ t.rounds.layoutMap = none) ∧ Posted s t srcRm)) ∧
      (∀ ev k n v w, recKind o (.completion k n) = true → Ends s pl o x ev (.completion k n) → Buffered s o (.completion k n) → s.job.running = none →
        s.reshard = none → s.restore = some v → s.taken? v.tag = some w →
        ∃ t, exec (.allred op ev) s = .next t ∧ t.restore = none ∧ t.job = { s.job with noStep := false } ∧ Completed s t w 0 0 [] ∧
          RedSignals s t pl op o ∧ Only [.regs, .mem, .hostMem, .bad, .clus, .jug, .restore, .fabric, .job, .mbx, .cal, .out] s t))
end

