-- ==== Sys2Proof/Laws/Memory.lean ====
section
/-!
SUPPORT. The sparse memories: a write is read back, leaves every other address alone and keeps the canonical form.
-/

namespace Sys2Proof.Machine

/-! ### One byte -/

/-- Sorted from a bound, sorted from a lower one. -/
theorem cellsSorted_mono {lo hi : Nat} (h : lo ≤ hi) : ∀ {m : List Host.Cell}, cellsSorted hi m = true → cellsSorted lo m = true
  | [], _ => rfl
  | (k, _) :: m, g => by
    simp only [cellsSorted, Bool.and_eq_true, decide_eq_true_eq] at g ⊢
    exact ⟨by omega, g.2⟩

/-- Below its bound a sorted memory lists nothing. -/
theorem cellsRead_below (d : Nat → Byte) {lo a : Nat} (h : a < lo) : ∀ {m : List Host.Cell}, cellsSorted lo m = true → cellsRead d m a = d a
  | [], _ => rfl
  | (k, v) :: m, g => by
    simp only [cellsSorted, Bool.and_eq_true, decide_eq_true_eq] at g
    have : k ≠ a := by omega
    simp only [cellsRead, this, if_false]
    exact cellsRead_below d (lo := k + 1) (by omega) g.2

/-- A byte written is read back, and every other address reads as before. -/
theorem cellsRead_put (d : Nat → Byte) (a b : Nat) (v : Byte) : ∀ {lo : Nat} {m : List Host.Cell}, cellsSorted lo m = true →
    cellsRead d (cellsPut d m a v) b = if b = a then v else cellsRead d m b
  | _, [], _ => by
    by_cases h : v = d a <;> by_cases e : a = b
    · subst e; simp [cellsPut, cellsRead, h]
    · simp [cellsPut, cellsRead, h, Ne.symm e]
    · subst e; simp [cellsPut, cellsRead, h]
    · simp [cellsPut, cellsRead, h, e, Ne.symm e]
  | lo, (k, w) :: m, g => by
    have g' := g
    simp only [cellsSorted, Bool.and_eq_true, decide_eq_true_eq] at g
    simp only [cellsPut]
    split
    · rename_i hk
      have hd : cellsRead d ((k, w) :: m) a = d a := by
        have : cellsSorted k ((k, w) :: m) = true := by simp [cellsSorted, g.2]
        exact cellsRead_below d hk this
      by_cases h : v = d a <;> by_cases e : a = b
      · subst e; simp [h, hd]
      · simp [h, Ne.symm e]
      · subst e; simp [h, cellsRead]
      · simp [h, cellsRead, e, Ne.symm e]
    · split
      · rename_i hk
        subst hk
        by_cases h : v = d a <;> by_cases e : a = b
        · subst e; simp [h, cellsRead_below d (Nat.lt_succ_self a) g.2]
        · simp [h, cellsRead, e, Ne.symm e]
        · subst e; simp [h, cellsRead]
        · simp [h, cellsRead, e, Ne.symm e]
      · rename_i hk
        by_cases e : k = b
        · subst e
          have : k ≠ a := by omega
          simp [cellsRead, this]
        · simp only [cellsRead, e, if_false]
          exact cellsRead_put d a b v g.2

/-- A write keeps the order. -/
theorem cellsSorted_put (d : Nat → Byte) (a : Nat) (v : Byte) : ∀ {lo : Nat} {m : List Host.Cell}, lo ≤ a → cellsSorted lo m = true →
    cellsSorted lo (cellsPut d m a v) = true
  | lo, [], h, _ => by by_cases e : v = d a <;> simp [cellsPut, e, cellsSorted, h]
  | lo, (k, w) :: m, h, g => by
    have g' := g
    simp only [cellsSorted, Bool.and_eq_true, decide_eq_true_eq] at g
    simp only [cellsPut]
    split
    · split
      · exact g'
      · simp only [cellsSorted, Bool.and_eq_true, decide_eq_true_eq]
        exact ⟨h, by omega, g.2⟩
    · split
      · rename_i hk
        subst hk
        split
        · exact cellsSorted_mono (by omega) g.2
        · simp only [cellsSorted, Bool.and_eq_true, decide_eq_true_eq]
          exact ⟨h, g.2⟩
      · simp only [cellsSorted, Bool.and_eq_true, decide_eq_true_eq]
        exact ⟨g.1, cellsSorted_put d a v (by omega) g.2⟩

/-- A write lists nothing that reads the same unlisted. -/
theorem cellsAll_put (d : Nat → Byte) (a : Nat) (v : Byte) : ∀ {m : List Host.Cell}, m.all (fun c => decide (c.2 ≠ d c.1)) = true →
    (cellsPut d m a v).all (fun c => decide (c.2 ≠ d c.1)) = true
  | [], _ => by by_cases e : v = d a <;> simp [cellsPut, e]
  | (k, w) :: m, g => by
    have g' := g
    simp only [List.all_cons, Bool.and_eq_true] at g
    simp only [cellsPut]
    split
    · split
      · exact g'
      · rename_i e; simp only [List.all_cons, Bool.and_eq_true]; exact ⟨by simpa using e, g⟩
    · split
      · split
        · exact g.2
        · rename_i e; simp only [List.all_cons, Bool.and_eq_true]; exact ⟨by simpa using e, g.2⟩
      · simp only [List.all_cons, Bool.and_eq_true]
        exact ⟨g.1, cellsAll_put d a v g.2⟩

/-- A write keeps the canonical form. -/
theorem cellsWf_put (d : Nat → Byte) (m : List Host.Cell) (a : Nat) (v : Byte) (h : cellsWf d m = true) :
    cellsWf d (cellsPut d m a v) = true := by
  simp only [cellsWf, Bool.and_eq_true] at h ⊢
  exact ⟨cellsSorted_put d a v (Nat.zero_le a) h.1, cellsAll_put d a v h.2⟩

/-- A memory in canonical form is sorted. -/
theorem cellsWf_sorted {d : Nat → Byte} {m : List Host.Cell} (h : cellsWf d m = true) : cellsSorted 0 m = true := by
  simp only [cellsWf, Bool.and_eq_true] at h
  exact h.1

/-! ### Byte strings -/

/-- A write of bytes keeps the canonical form. -/
theorem cellsWf_write (d : Nat → Byte) : ∀ (b : Bytes) (m : List Host.Cell) (a : Nat), cellsWf d m = true → cellsWf d (cellsWrite d m a b) = true
  | [], _, _, h => h
  | x :: b, m, a, h => cellsWf_write d b _ _ (cellsWf_put d m a x h)

/-- Dropping cells keeps the order. -/
theorem cellsSorted_filter (p : Host.Cell → Bool) : ∀ {lo : Nat} {m : List Host.Cell}, cellsSorted lo m = true → cellsSorted lo (m.filter p) = true
  | _, [], _ => rfl
  | lo, (k, v) :: m, g => by
    simp only [cellsSorted, Bool.and_eq_true, decide_eq_true_eq] at g
    rw [List.filter_cons]
    split
    · simp only [cellsSorted, Bool.and_eq_true, decide_eq_true_eq]
      exact ⟨g.1, cellsSorted_filter p g.2⟩
    · exact cellsSorted_mono (by omega) (cellsSorted_filter p g.2)

/-- Dropping cells keeps the canonical form. -/
theorem cellsWf_filter (d : Nat → Byte) (m : List Host.Cell) (p : Host.Cell → Bool) (h : cellsWf d m = true) : cellsWf d (m.filter p) = true := by
  simp only [cellsWf, Bool.and_eq_true] at h ⊢
  refine ⟨cellsSorted_filter p h.1, ?_⟩
  rw [List.all_eq_true] at h ⊢
  exact fun c hc => h.2 c (List.mem_of_mem_filter hc)

/-- Clearing a range keeps the canonical form. -/
theorem cellsWf_clear (d : Nat → Byte) (m : List Host.Cell) (a n : Nat) (h : cellsWf d m = true) : cellsWf d (cellsClear m a n) = true :=
  cellsWf_filter d m _ h

/-- Reading after a write of bytes: inside the range the byte written, outside it what was there. -/
theorem cellsRead_write (d : Nat → Byte) (x : Nat) : ∀ (b : Bytes) (m : List Host.Cell) (a : Nat), cellsSorted 0 m = true →
    cellsRead d (cellsWrite d m a b) x = if a ≤ x ∧ x < a + b.length then b.getD (x - a) 0 else cellsRead d m x
  | [], m, a, _ => by simp only [cellsWrite, List.length_nil]; rw [if_neg (by omega)]
  | y :: b, m, a, h => by
    have ih := cellsRead_write d x b (cellsPut d m a y) (a + 1) (cellsSorted_put d a y (Nat.zero_le a) h)
    simp only [cellsWrite]
    rw [ih, cellsRead_put d a x y h]
    by_cases hx : x = a
    · subst hx; simp
    · by_cases hr : a ≤ x ∧ x < a + (b.length + 1)
      · have h1 : a + 1 ≤ x ∧ x < a + 1 + b.length := ⟨by omega, by omega⟩
        have h2 : x - a = (x - (a + 1)) + 1 := by omega
        simp [h1, hr, h2, List.getD_cons_succ]
      · have h1 : ¬ (a + 1 ≤ x ∧ x < a + 1 + b.length) := by omega
        have h2 : ¬ (a ≤ x ∧ x < a + (y :: b).length) := by simpa using hr
        rw [if_neg h1, if_neg hx, if_neg h2]

/-- Reading after a range was cleared. -/
theorem cellsRead_clear (d : Nat → Byte) (a n x : Nat) : ∀ (m : List Host.Cell),
    cellsRead d (cellsClear m a n) x = if a ≤ x ∧ x < a + n then d x else cellsRead d m x
  | [] => by simp [cellsClear, cellsRead]
  | (k, v) :: m => by
    have ih := cellsRead_clear d a n x m
    simp only [cellsClear] at ih ⊢
    rw [List.filter_cons]
    by_cases hk : k < a ∨ a + n ≤ k
    · simp only [hk, decide_true, if_true, cellsRead]
      by_cases e : k = x
      · subst e
        have : ¬ (a ≤ k ∧ k < a + n) := by omega
        simp [this]
      · simp only [e, if_false, ih]
    · simp only [hk, decide_false, Bool.false_eq_true, if_false, ih, cellsRead]
      by_cases e : k = x
      · subst e
        have : a ≤ k ∧ k < a + n := by omega
        simp [this]
      · simp [e]

/-- How many bytes a read gives. -/
@[simp] theorem cellsReadN_length (d : Nat → Byte) (m : List Host.Cell) : ∀ (n a : Nat), (cellsReadN d m a n).length = n
  | 0, _ => rfl
  | n + 1, a => by simp [cellsReadN, cellsReadN_length d m n (a + 1)]

/-! ### Device memory -/

/-- A write of device memory keeps the canonical form. -/
theorem memWf_put (m : List Host.Cell) (a : Nat) (v : Byte) (h : cellsWf memDflt m = true) : cellsWf memDflt (memPut m a v) = true := by
  unfold memPut
  split
  · exact h
  · exact cellsWf_put memDflt m a v h

/-- A write of bytes of device memory keeps the canonical form. -/
theorem memWf_write : ∀ (b : Bytes) (m : List Host.Cell) (a : Nat), cellsWf memDflt m = true → cellsWf memDflt (memWrite m a b) = true
  | [], _, _, h => h
  | x :: b, m, a, h => memWf_write b _ _ (memWf_put m a x h)

/-- Reading device memory after a write of bytes: inside the range the byte written, but for the reserved bytes of a core window, which
discard it (R92). -/
theorem memRead_write (x : Nat) : ∀ (b : Bytes) (m : List Host.Cell) (a : Nat), cellsWf memDflt m = true →
    cellsRead memDflt (memWrite m a b) x =
      if a ≤ x ∧ x < a + b.length ∧ reservedCore x = false then b.getD (x - a) 0 else cellsRead memDflt m x
  | [], m, a, _ => by simp only [memWrite, List.length_nil]; rw [if_neg (by omega)]
  | y :: b, m, a, h => by
    have ih := memRead_write x b (memPut m a y) (a + 1) (memWf_put m a y h)
    simp only [memWrite]
    rw [ih]
    have hp : cellsRead memDflt (memPut m a y) x = if x = a ∧ reservedCore x = false then y else cellsRead memDflt m x := by
      unfold memPut
      by_cases r : reservedCore a = true
      · simp only [r, if_true]
        by_cases e : x = a
        · subst e; simp [r]
        · simp [e]
      · simp only [r, Bool.false_eq_true, if_false]
        rw [cellsRead_put memDflt a x y (cellsWf_sorted h)]
        by_cases e : x = a
        · subst e; simp [Bool.eq_false_iff.mpr r]
        · simp [e]
    rw [hp]
    by_cases hx : x = a
    · subst hx; simp
    · by_cases hr : a ≤ x ∧ x < a + (b.length + 1)
      · have h1 : a + 1 ≤ x ∧ x < a + 1 + b.length := ⟨by omega, by omega⟩
        have h2 : x - a = (x - (a + 1)) + 1 := by omega
        by_cases r : reservedCore x = false <;> simp [h1.1, h1.2, hr.1, hr.2, h2, r, hx, List.getD_cons_succ]
      · have h1 : ¬ (a + 1 ≤ x ∧ x < a + 1 + b.length) := by omega
        have h3 : ¬ (a + 1 ≤ x ∧ x < a + 1 + b.length ∧ reservedCore x = false) := by tauto
        have h4 : ¬ (a ≤ x ∧ x < a + (y :: b).length ∧ reservedCore x = false) := by simp only [List.length_cons]; tauto
        rw [if_neg h3, if_neg (by tauto), if_neg h4]

/-- Writing several pieces of fixed bytes keeps the canonical form. -/
theorem memWf_restore (f : Nat → Bytes) : ∀ (l : List Nat) (m : List Host.Cell), cellsWf memDflt m = true →
    cellsWf memDflt (l.foldl (fun m g => memWrite m g (f g)) m) = true
  | [], _, h => h
  | g :: l, m, h => memWf_restore f l _ (memWf_write (f g) m g h)

end Sys2Proof.Machine
end

