-- ==== Sys2Proof/Laws/Crypto.lean ====
section
/-!
SUPPORT. Sealing and opening (R335, R350): AES-256-GCM opens what it sealed, and a snapshot of one chunk opens whole.
-/

namespace Sys2Proof.Machine

/-- A block under a key schedule of whole round keys has 16 bytes. -/
theorem aesEnc_length {ks : List (List Nat)} (b : List Nat) (h : (ks.getD 14 []).length = 16) : (aesEnc ks b).length = 16 := by
  simp only [aesEnc, xorL, subShift, List.length_zipWith, List.length_map, List.length_range, h, Nat.min_self]

/-- Adding a key stream of at least its length twice leaves a text. -/
theorem stream_twice : ∀ (b : Bytes) (k : List Nat), b.length ≤ k.length →
    List.zipWith (fun (x : Byte) y => x ^^^ BitVec.ofNat 8 y) (List.zipWith (fun (x : Byte) y => x ^^^ BitVec.ofNat 8 y) b k) k = b
  | [], _, _ => rfl
  | x :: b, [], h => absurd h (by simp)
  | x :: b, y :: k, h => by
    simp only [List.zipWith_cons_cons, BitVec.xor_assoc, BitVec.xor_self, BitVec.xor_zero]
    rw [stream_twice b k (by simpa using h)]

/-- The counter mode twice over a text that its blocks hold, from one counter value, leaves the text; and it keeps the length. -/
theorem gctr_twice {ks : List (List Nat)} (v : List Nat) (h : (ks.getD 14 []).length = 16) : ∀ (m c : Nat) (p : Bytes), p.length ≤ 16 * m →
    (gctr ks v c (chunks 16 m p)).length = p.length ∧ gctr ks v c (chunks 16 m (gctr ks v c (chunks 16 m p))) = p
  | 0, c, p, hp => by
    have : p = [] := List.length_eq_zero_iff.mp (by omega)
    subst this; simp [chunks, gctr]
  | m + 1, c, [], _ => by simp [chunks, gctr]
  | m + 1, c, x :: p, hp => by
    have hk : (List.take 16 (x :: p)).length ≤ (aesEnc ks (v ++ be 4 c)).length := by
      rw [aesEnc_length _ h, List.length_take]; omega
    obtain ⟨l, e⟩ := gctr_twice v h m (c + 1) ((x :: p).drop 16) (by rw [List.length_drop]; omega)
    have hc : chunks 16 (m + 1) (x :: p) = (x :: p).take 16 :: chunks 16 m ((x :: p).drop 16) := rfl
    rw [hc]
    simp only [gctr]
    generalize hB : List.zipWith (fun (x : Byte) k => x ^^^ BitVec.ofNat 8 k) ((x :: p).take 16) (aesEnc ks (v ++ be 4 c)) = B
    generalize hR : gctr ks v (c + 1) (chunks 16 m ((x :: p).drop 16)) = R at l e
    have lB : B.length = ((x :: p).take 16).length := by rw [← hB, List.length_zipWith, Nat.min_eq_left hk]
    have split : (B ++ R).take 16 = B ∧ (B ++ R).drop 16 = R := by
      rw [List.length_drop] at l
      rw [List.length_take] at lB
      by_cases s : 16 ≤ (x :: p).length
      · have : B.length = 16 := by omega
        exact ⟨by rw [List.take_append_of_le_length (by omega), List.take_of_length_le (by omega)], by rw [List.drop_append, this]; simp [this]⟩
      · have : R = [] := List.length_eq_zero_iff.mp (by omega)
        subst this
        exact ⟨by rw [List.append_nil, List.take_of_length_le (by omega)], by rw [List.append_nil, List.drop_of_length_le (by omega)]⟩
    have ne : (B ++ R).isEmpty = false := by
      have : 0 < B.length := by rw [lB, List.length_take]; simp
      cases hB' : B with
      | nil => rw [hB'] at this; simp at this
      | cons _ _ => rfl
    have hc' : chunks 16 (m + 1) (B ++ R) = B :: chunks 16 m R := by
      simp only [chunks, ne, split.1, split.2]; rfl
    refine ⟨?_, ?_⟩
    · rw [List.length_append, lB, l, ← List.length_append, List.take_append_drop]
    · rw [hc']
      simp only [gctr]
      rw [e, ← hB, stream_twice _ _ hk, List.take_append_drop]

/-- A tag has 16 bytes. -/
theorem gcmTag_length (ks : List (List Nat)) (v : List Nat) (aad ct : Bytes) (h : (ks.getD 14 []).length = 16) : (gcmTag ks v aad ct).length = 16 := by
  simp only [gcmTag, xorL, List.length_map, List.length_zipWith, aesEnc_length _ h]
  simp [be, le]

/-- A ciphertext behind which its tag stands opens to its counter mode. -/
theorem gcmOpen_tagged (key iv aad ct : Bytes) (h : ((aesKeys key).getD 14 []).length = 16) :
    gcmOpen key iv aad (ct ++ gcmTag (aesKeys key) (iv.map BitVec.toNat) aad ct) =
      some (gctr (aesKeys key) (iv.map BitVec.toNat) 2 (chunks 16 (ct.length / 16 + 1) ct)) := by
  have L : (ct ++ gcmTag (aesKeys key) (iv.map BitVec.toNat) aad ct).length = ct.length + 16 := by rw [List.length_append, gcmTag_length _ _ _ _ h]
  simp only [gcmOpen, L, Nat.add_sub_cancel, List.take_left, List.drop_left, if_true]
  rw [if_neg (by omega)]

/-- A ciphertext behind which something else stands does not open. -/
theorem gcmOpen_untagged (key iv aad ct w : Bytes) (l : w.length = 16) (h : w ≠ gcmTag (aesKeys key) (iv.map BitVec.toNat) aad ct) :
    gcmOpen key iv aad (ct ++ w) = none := by
  have L : (ct ++ w).length = ct.length + 16 := by rw [List.length_append, l]
  simp only [gcmOpen, L, Nat.add_sub_cancel, List.take_left, List.drop_left]
  rw [if_neg (by omega), if_neg (fun e => h e.symm)]

/-- AES-256-GCM opens what it sealed under the same key, nonce and additional data. -/
theorem gcmOpen_seal (key iv aad pt : Bytes) (h : ((aesKeys key).getD 14 []).length = 16) :
    gcmOpen key iv aad (gcmSeal key iv aad pt) = some pt := by
  obtain ⟨l, e⟩ := gctr_twice (ks := aesKeys key) (iv.map BitVec.toNat) h (pt.length / 16 + 1) 2 pt (by omega)
  rw [gcmSeal, gcmOpen_tagged _ _ _ _ h, l, e]

/-- What sealing adds to a text: its tag. -/
theorem gcmSeal_length (key iv aad pt : Bytes) (h : ((aesKeys key).getD 14 []).length = 16) : (gcmSeal key iv aad pt).length = pt.length + 16 := by
  obtain ⟨l, -⟩ := gctr_twice (ks := aesKeys key) (iv.map BitVec.toNat) h (pt.length / 16 + 1) 2 pt (by omega)
  simp only [gcmSeal, List.length_append, l, gcmTag_length _ _ _ _ h]

/-- A read of two ranges one behind the other. -/
theorem cellsReadN_add (d : Nat → Byte) (m : List Host.Cell) : ∀ (n k a : Nat), cellsReadN d m a (n + k) = cellsReadN d m a n ++ cellsReadN d m (a + n) k
  | 0, k, a => by simp [cellsReadN]
  | n + 1, k, a => by
    rw [show n + 1 + k = (n + k) + 1 by omega, cellsReadN, cellsReadN_add d m n k (a + 1), cellsReadN, List.cons_append, show a + 1 + n = a + (n + 1) by omega]

/-- A read behind what was written gives what stood there. -/
theorem cellsReadN_behind (d : Nat → Byte) (m : List Host.Cell) (a : Nat) (b : Bytes) (h : cellsSorted 0 m = true) : ∀ (k x : Nat), a + b.length ≤ x →
    cellsReadN d (cellsWrite d m a b) x k = cellsReadN d m x k
  | 0, _, _ => rfl
  | k + 1, x, hx => by rw [cellsReadN, cellsReadN, cellsRead_write d x b m a h, if_neg (by omega), cellsReadN_behind d m a b h k (x + 1) (by omega)]

/-- Bytes read back from where they were written. -/
theorem cellsReadN_write (d : Nat → Byte) (m : List Host.Cell) (a : Nat) (b : Bytes) (h : cellsSorted 0 m = true) :
    cellsReadN d (cellsWrite d m a b) a b.length = b := by
  have go : ∀ (n o : Nat), o + n = b.length → cellsReadN d (cellsWrite d m a b) (a + o) n = b.drop o := by
    intro n
    induction n with
    | zero => intro o e; rw [List.drop_of_length_le (by omega)]; rfl
    | succ n ih =>
      intro o e
      have lt : o < b.length := by omega
      rw [cellsReadN, show a + o + 1 = a + (o + 1) by omega, ih (o + 1) (by omega), cellsRead_write d _ b m a h, if_pos ⟨by omega, by omega⟩,
        List.drop_eq_getElem_cons lt, show a + o - a = o by omega]
      simp [List.getD, lt]
  simpa using go b.length 0 (by omega)

/-- What host memory holds where something was written. -/
theorem hostGet_written {s : State} {a n : Nat} {z : Bytes} (h : s.hostMem = cellsWrite hostDflt [] a z) (l : z.length = n) : s.hostGet a n = z := by
  subst l; rw [State.hostGet, h]; exact cellsReadN_write _ _ _ _ rfl

/-- And what a longer read finds behind it. -/
theorem hostGet_behind {s : State} {a n : Nat} (k : Nat) {z : Bytes} (h : s.hostMem = cellsWrite hostDflt [] a z) (l : z.length = n) :
    s.hostGet a (n + k) = z ++ cellsReadN hostDflt [] (a + n) k := by
  have e := hostGet_written h l
  rw [State.hostGet] at e
  rw [State.hostGet, cellsReadN_add, e, h, cellsReadN_behind _ _ _ _ rfl _ _ (by omega)]

/-- A snapshot of one chunk opens whole under its key and SNAP_ID. -/
theorem openSnap_seal (key : Bytes) (id : Nat) (b : Bytes) (h : ((aesKeys key).getD 14 []).length = 16) (hn : b ≠ []) (hl : b.length ≤ snapChunk) :
    openSnap key id 1 1 0 (sealSnap key id b) = (b, true) ∧ (sealSnap key id b).length = b.length + 16 := by
  have hp : 0 < b.length := List.length_pos_iff.mpr hn
  have c1 : snapCount b.length = 1 := by
    unfold snapCount snapChunk at *
    omega
  have hc : chunks snapChunk 1 b = [b] := by
    have : b.isEmpty = false := by simpa using hn
    simp only [chunks, this, List.take_of_length_le hl]; rfl
  have hs : sealSnap key id b = gcmSeal key (snapIv id 0) (le 8 1) b := by
    simp only [sealSnap, c1, hc]
    simp
  have lg := gcmSeal_length key (snapIv id 0) (le 8 1) b h
  rw [hs]
  refine ⟨?_, lg⟩
  rw [openSnap, List.take_of_length_le (by omega), gcmOpen_seal key _ _ b h]
  simp [openSnap]

/-- A snapshot of two chunks whose second does not open gives the first (R351). -/
theorem openSnap_cut (key : Bytes) (id : Nat) (x rest : Bytes) (h : ((aesKeys key).getD 14 []).length = 16) (hx : x.length = snapChunk)
    (hl : rest.length ≤ snapChunk + 16) (hr : gcmOpen key (snapIv id 1) (le 8 2) rest = none) :
    openSnap key id 2 2 0 (gcmSeal key (snapIv id 0) (le 8 2) x ++ rest) = (x, false) := by
  have l : (gcmSeal key (snapIv id 0) (le 8 2) x).length = snapChunk + 16 := by rw [gcmSeal_length _ _ _ _ h, hx]
  rw [openSnap, ← l, List.take_left, gcmOpen_seal key _ _ x h]
  simp only [List.drop_left]
  rw [openSnap, List.take_of_length_le hl, hr]
  simp

end Sys2Proof.Machine
end

