-- ==== Sys2Proof/Laws/Effect.lean ====
section
/-!
SUPPORT. What a function on states may touch: the parts it may change, the memories kept canonical, and what left the package still at
the front of what leaves it.
-/

namespace Sys2Proof.Machine

/-- Nothing outside a list changes, the memories stay canonical and nothing that left is taken back. -/
structure Touches (l : List Part) (s t : State) : Prop where
  only : Only l s t
  mem : cellsWf memDflt s.mem = true → cellsWf memDflt t.mem = true
  hostMem : cellsWf hostDflt s.hostMem = true → cellsWf hostDflt t.hostMem = true
  flash : cellsWf flashDflt s.flash = true → cellsWf flashDflt t.flash = true
  out : s.out <+: t.out

/-- One list of parts is within another. -/
theorem Part.sub {m l : List Part} (h : m.all (fun p => l.contains p) = true) : ∀ p ∈ m, p ∈ l := by
  intro p hp
  have := List.all_eq_true.mp h p hp
  simpa using this

theorem Only.refl (l : List Part) (s : State) : Only l s s := fun p _ => by cases p <;> first | rfl | exact ⟨rfl, rfl⟩

theorem Part.same_trans {s t u : State} {p : Part} (h : p.same s t) (k : p.same t u) : p.same s u := by
  cases p <;> first | exact Eq.trans k h | exact ⟨k.1.trans h.1, k.2.trans h.2⟩

theorem Only.trans {l : List Part} {s t u : State} (h : Only l s t) (k : Only l t u) : Only l s u :=
  fun p hp => Part.same_trans (h p hp) (k p hp)

theorem Only.mono {l m : List Part} {s t : State} (h : Only m s t) (sub : ∀ p ∈ m, p ∈ l) : Only l s t :=
  fun p hp => h p (fun e => hp (sub p e))

theorem Touches.refl {l : List Part} (s : State) : Touches l s s := ⟨Only.refl l s, id, id, id, List.prefix_refl _⟩

/-- Effects compose. -/
theorem Touches.trans {l m : List Part} {s t u : State} (h : Touches l s t) (k : Touches m t u) (sub : ∀ p ∈ m, p ∈ l) : Touches l s u :=
  ⟨h.only.trans (k.only.mono sub), k.mem ∘ h.mem, k.hostMem ∘ h.hostMem, k.flash ∘ h.flash, h.out.trans k.out⟩

theorem Touches.tail {l : List Part} {s t u : State} (h : Touches l s t) (k : Touches l t u) : Touches l s u := h.trans k (fun _ e => e)

theorem Touches.mono {l m : List Part} {s t : State} (h : Touches m s t) (sub : ∀ p ∈ m, p ∈ l) : Touches l s t :=
  ⟨h.only.mono sub, h.mem, h.hostMem, h.flash, h.out⟩

theorem Touches.ite {l : List Part} {s a b : State} {c : Prop} {_ : Decidable c} (h : Touches l s a) (k : Touches l s b) : Touches l s (if c then a else b) := by
  split
  · exact h
  · exact k

/-- A local definition is reached first; what follows may start from it. -/
theorem Touches.cut {l : List Part} {s t u : State} (h : Touches l s t) (k : ∀ w, Touches l s w → w = t → Touches l s u) : Touches l s u := k t h rfl

theorem Touches.cutFst {β : Type} {l : List Part} {s u : State} {t : State × β} (h : Touches l s t.1)
    (k : ∀ w : State × β, Touches l s w.1 → w = t → Touches l s u) : Touches l s u := k t h rfl
theorem Touches.cutSnd {β : Type} {l : List Part} {s u : State} {t : β × State} (h : Touches l s t.2)
    (k : ∀ w : β × State, Touches l s w.2 → w = t → Touches l s u) : Touches l s u := k t h rfl

theorem Touches.foldl {α : Type} {l : List Part} {s : State} {g : State → α → State} (hg : ∀ t x, Touches l t (g t x)) :
    ∀ (xs : List α) (t : State), Touches l s t → Touches l s (xs.foldl g t)
  | [], _, h => h
  | x :: xs, t, h => Touches.foldl hg xs (g t x) (h.trans (hg t x) (fun _ e => e))

theorem Touches.foldlFst {α β : Type} {l : List Part} {s : State} {g : State × β → α → State × β} (hg : ∀ t x, Touches l t.1 (g t x).1) :
    ∀ (xs : List α) (t : State × β), Touches l s t.1 → Touches l s (xs.foldl g t).1
  | [], _, h => h
  | x :: xs, t, h => Touches.foldlFst hg xs (g t x) (h.trans (hg t x) (fun _ e => e))

theorem Touches.foldlSnd {α β : Type} {l : List Part} {s : State} {g : β × State → α → β × State} (hg : ∀ t x, Touches l t.2 (g t x).2) :
    ∀ (xs : List α) (t : β × State), Touches l s t.2 → Touches l s (xs.foldl g t).2
  | [], _, h => h
  | x :: xs, t, h => Touches.foldlSnd hg xs (g t x) (h.trans (hg t x) (fun _ e => e))

theorem Touches.fst {β : Type} {l : List Part} {s a : State} {b : β} {p : State × β} (e : p = (a, b)) (h : Touches l s p.1) : Touches l s a := by
  rw [e] at h; exact h

theorem Touches.snd {β : Type} {l : List Part} {s a : State} {b : β} {p : β × State} (e : p = (b, a)) (h : Touches l s p.2) : Touches l s a := by
  rw [e] at h; exact h

/-- The effect of what an optional state holds. -/
def TouchesO (l : List Part) (s : State) (o : Option State) : Prop := ∀ t, o = some t → Touches l s t

theorem TouchesO.none {l : List Part} {s : State} : TouchesO l s none := fun _ h => by cases h
theorem TouchesO.some {l : List Part} {s t : State} (h : Touches l s t) : TouchesO l s (some t) := fun _ e => by cases e; exact h
theorem TouchesO.get {l : List Part} {s t : State} {o : Option State} (e : o = Option.some t) (h : TouchesO l s o) : Touches l s t := h t e
theorem TouchesO.foldl {α : Type} {l : List Part} {s : State} {g : Option State → α → Option State} (hg : ∀ o x, TouchesO l s o → TouchesO l s (g o x)) :
    ∀ (xs : List α) (o : Option State), TouchesO l s o → TouchesO l s (xs.foldl g o)
  | [], _, h => h
  | x :: xs, o, h => TouchesO.foldl hg xs (g o x) (hg o x h)

theorem TouchesO.cut {l : List Part} {s t : State} {o : Option State} (h : Touches l s t) (k : ∀ w, Touches l s w → w = t → TouchesO l s o) : TouchesO l s o := k t h rfl
theorem TouchesO.ite {l : List Part} {s : State} {a b : Option State} {c : Prop} {_ : Decidable c} (h : TouchesO l s a) (k : TouchesO l s b) :
    TouchesO l s (if c then a else b) := by
  split
  · exact h
  · exact k
theorem TouchesO.trans {l m : List Part} {s t : State} {o : Option State} (h : Touches l s t) (k : TouchesO m t o) (sub : ∀ p ∈ m, p ∈ l) :
    TouchesO l s o := fun u e => h.trans (k u e) sub

/-- The effect of a command that goes on. -/
def TouchesX (l : List Part) (s : State) (o : Out) : Prop := ∀ t, o = .next t → Touches l s t

theorem TouchesX.go {l : List Part} {s t : State} (h : Touches l s t) : TouchesX l s (Sys2Proof.Machine.go t) := fun _ e => by cases e; exact h
theorem TouchesX.next {l : List Part} {s t : State} (h : Touches l s t) : TouchesX l s (.next t) := fun _ e => by cases e; exact h
theorem TouchesX.fault {l : List Part} {s : State} {f : Fault} : TouchesX l s (.fault f) := fun _ h => by cases h
theorem TouchesX.refused {l : List Part} {s : State} {f : Refusal} : TouchesX l s (.refused f) := fun _ h => by cases h
theorem TouchesX.cut {l : List Part} {s t : State} {o : Out} (h : Touches l s t) (k : ∀ w, Touches l s w → w = t → TouchesX l s o) : TouchesX l s o := k t h rfl
theorem TouchesX.cutFst {β : Type} {l : List Part} {s : State} {o : Out} {t : State × β} (h : Touches l s t.1)
    (k : ∀ w : State × β, Touches l s w.1 → w = t → TouchesX l s o) : TouchesX l s o := k t h rfl
theorem TouchesX.cutSnd {β : Type} {l : List Part} {s : State} {o : Out} {t : β × State} (h : Touches l s t.2)
    (k : ∀ w : β × State, Touches l s w.2 → w = t → TouchesX l s o) : TouchesX l s o := k t h rfl
theorem TouchesX.ite {l : List Part} {s : State} {a b : Out} {c : Prop} {_ : Decidable c} (h : TouchesX l s a) (k : TouchesX l s b) :
    TouchesX l s (if c then a else b) := by
  split
  · exact h
  · exact k
theorem TouchesX.trans {l m : List Part} {s t : State} {o : Out} (h : Touches l s t) (k : TouchesX m t o) (sub : ∀ p ∈ m, p ∈ l) : TouchesX l s o :=
  fun u e => h.trans (k u e) sub
theorem TouchesX.mono {l m : List Part} {s : State} {o : Out} (k : TouchesX m s o) (sub : ∀ p ∈ m, p ∈ l) : TouchesX l s o :=
  fun u e => (k u e).mono sub

/-- A record update: the fields outside the list are the old ones, and the memories and what left are untouched. -/
theorem Touches.upd {l : List Part} {x : State}
    {a_pending : List Instr}
    {a_regs : SMap Word}
    {a_bar4 : List Host.Cell}
    {a_mem : List Host.Cell}
    {a_hostMem : List Host.Cell}
    {a_flash : List Host.Cell}
    {a_bad : List Nat}
    {a_soft : List Nat}
    {a_ddrBytes : Nat}
    {a_dimms : List Dimm}
    {a_erasing : Bool}
    {a_eraseDue : Bool}
    {a_mbx : Mbx}
    {a_job : Job}
    {a_cores : SMap Core}
    {a_clus : SMap Clu}
    {a_qs : SMap QState}
    {a_hang : Option Hang}
    {a_strg : Strg}
    {a_mirror : Mirror}
    {a_jug : Jug}
    {a_reshard : Option Reshard}
    {a_restore : Option Restore}
    {a_fabric : Fabric}
    {a_rounds : Rounds}
    {a_replay : Replay}
    {a_fw : Fw}
    {a_keys : Keys}
    {a_cal : Cal}
    {a_time : TimeS}
    {a_pwr : Pwr}
    {a_i3c : I3c}
    {a_midSeq : SMap Nat}
    {a_midRetry : SMap Nat}
    {a_free : Nat}
    {a_out : List Ev}
    (h_pending : a_pending = x.pending)
    (h_regs : a_regs = x.regs ∨ Part.regs ∈ l := by first | exact .inl rfl | exact .inr (by decide))
    (h_bar4 : a_bar4 = x.bar4 ∨ Part.bar4 ∈ l := by first | exact .inl rfl | exact .inr (by decide))
    (h_mem : a_mem = x.mem := by rfl)
    (h_hostMem : a_hostMem = x.hostMem := by rfl)
    (h_flash : a_flash = x.flash := by rfl)
    (h_bad : a_bad = x.bad ∨ Part.bad ∈ l := by first | exact .inl rfl | exact .inr (by decide))
    (h_soft : a_soft = x.soft ∨ Part.bad ∈ l := by first | exact .inl rfl | exact .inr (by decide))
    (h_ddrBytes : a_ddrBytes = x.ddrBytes ∨ Part.ddrBytes ∈ l := by first | exact .inl rfl | exact .inr (by decide))
    (h_dimms : a_dimms = x.dimms ∨ Part.dimms ∈ l := by first | exact .inl rfl | exact .inr (by decide))
    (h_erasing : a_erasing = x.erasing ∨ Part.erasing ∈ l := by first | exact .inl rfl | exact .inr (by decide))
    (h_eraseDue : a_eraseDue = x.eraseDue ∨ Part.eraseDue ∈ l := by first | exact .inl rfl | exact .inr (by decide))
    (h_mbx : a_mbx = x.mbx ∨ Part.mbx ∈ l := by first | exact .inl rfl | exact .inr (by decide))
    (h_job : a_job = x.job ∨ Part.job ∈ l := by first | exact .inl rfl | exact .inr (by decide))
    (h_cores : a_cores = x.cores ∨ Part.cores ∈ l := by first | exact .inl rfl | exact .inr (by decide))
    (h_clus : a_clus = x.clus ∨ Part.clus ∈ l := by first | exact .inl rfl | exact .inr (by decide))
    (h_qs : a_qs = x.qs ∨ Part.qs ∈ l := by first | exact .inl rfl | exact .inr (by decide))
    (h_hang : a_hang = x.hang ∨ Part.hang ∈ l := by first | exact .inl rfl | exact .inr (by decide))
    (h_strg : a_strg = x.strg ∨ Part.strg ∈ l := by first | exact .inl rfl | exact .inr (by decide))
    (h_mirror : a_mirror = x.mirror ∨ Part.mirror ∈ l := by first | exact .inl rfl | exact .inr (by decide))
    (h_jug : a_jug = x.jug ∨ Part.jug ∈ l := by first | exact .inl rfl | exact .inr (by decide))
    (h_reshard : a_reshard = x.reshard ∨ Part.reshard ∈ l := by first | exact .inl rfl | exact .inr (by decide))
    (h_restore : a_restore = x.restore ∨ Part.restore ∈ l := by first | exact .inl rfl | exact .inr (by decide))
    (h_fabric : a_fabric = x.fabric ∨ Part.fabric ∈ l := by first | exact .inl rfl | exact .inr (by decide))
    (h_rounds : a_rounds = x.rounds ∨ Part.rounds ∈ l := by first | exact .inl rfl | exact .inr (by decide))
    (h_replay : a_replay = x.replay ∨ Part.replay ∈ l := by first | exact .inl rfl | exact .inr (by decide))
    (h_fw : a_fw = x.fw ∨ Part.fw ∈ l := by first | exact .inl rfl | exact .inr (by decide))
    (h_keys : a_keys = x.keys ∨ Part.keys ∈ l := by first | exact .inl rfl | exact .inr (by decide))
    (h_cal : a_cal = x.cal ∨ Part.cal ∈ l := by first | exact .inl rfl | exact .inr (by decide))
    (h_time : a_time = x.time ∨ Part.time ∈ l := by first | exact .inl rfl | exact .inr (by decide))
    (h_pwr : a_pwr = x.pwr ∨ Part.pwr ∈ l := by first | exact .inl rfl | exact .inr (by decide))
    (h_i3c : a_i3c = x.i3c ∨ Part.i3c ∈ l := by first | exact .inl rfl | exact .inr (by decide))
    (h_midSeq : a_midSeq = x.midSeq ∨ Part.midSeq ∈ l := by first | exact .inl rfl | exact .inr (by decide))
    (h_midRetry : a_midRetry = x.midRetry ∨ Part.midRetry ∈ l := by first | exact .inl rfl | exact .inr (by decide))
    (h_free : a_free = x.free ∨ Part.free ∈ l := by first | exact .inl rfl | exact .inr (by decide))
    (h_out : a_out = x.out := by rfl) :
    Touches l x (State.mk a_pending a_regs a_bar4 a_mem a_hostMem a_flash a_bad a_soft a_ddrBytes a_dimms a_erasing a_eraseDue a_mbx a_job a_cores a_clus a_qs a_hang a_strg a_mirror a_jug a_reshard a_restore a_fabric a_rounds a_replay a_fw a_keys a_cal a_time a_pwr a_i3c a_midSeq a_midRetry a_free a_out) := by
  subst h_pending h_mem h_hostMem h_flash h_out
  refine ⟨fun p hp => ?_, id, id, id, List.prefix_refl _⟩
  cases p
  · rfl
  · exact h_regs.resolve_right hp
  · exact h_bar4.resolve_right hp
  · rfl
  · rfl
  · rfl
  · exact ⟨h_bad.resolve_right hp, h_soft.resolve_right hp⟩
  · exact h_ddrBytes.resolve_right hp
  · exact h_dimms.resolve_right hp
  · exact h_erasing.resolve_right hp
  · exact h_eraseDue.resolve_right hp
  · exact h_mbx.resolve_right hp
  · exact h_job.resolve_right hp
  · exact h_cores.resolve_right hp
  · exact h_clus.resolve_right hp
  · exact h_qs.resolve_right hp
  · exact h_hang.resolve_right hp
  · exact h_strg.resolve_right hp
  · exact h_mirror.resolve_right hp
  · exact h_jug.resolve_right hp
  · exact h_reshard.resolve_right hp
  · exact h_restore.resolve_right hp
  · exact h_fabric.resolve_right hp
  · exact h_rounds.resolve_right hp
  · exact h_replay.resolve_right hp
  · exact h_fw.resolve_right hp
  · exact h_keys.resolve_right hp
  · exact h_cal.resolve_right hp
  · exact h_time.resolve_right hp
  · exact h_pwr.resolve_right hp
  · exact h_i3c.resolve_right hp
  · exact h_midSeq.resolve_right hp
  · exact h_midRetry.resolve_right hp
  · exact h_free.resolve_right hp
  · rfl

/-- A record update that also writes device memory. -/
theorem Touches.updMem {l : List Part} {x : State}
    {a_pending : List Instr}
    {a_regs : SMap Word}
    {a_bar4 : List Host.Cell}
    {a_mem : List Host.Cell}
    {a_hostMem : List Host.Cell}
    {a_flash : List Host.Cell}
    {a_bad : List Nat}
    {a_soft : List Nat}
    {a_ddrBytes : Nat}
    {a_dimms : List Dimm}
    {a_erasing : Bool}
    {a_eraseDue : Bool}
    {a_mbx : Mbx}
    {a_job : Job}
    {a_cores : SMap Core}
    {a_clus : SMap Clu}
    {a_qs : SMap QState}
    {a_hang : Option Hang}
    {a_strg : Strg}
    {a_mirror : Mirror}
    {a_jug : Jug}
    {a_reshard : Option Reshard}
    {a_restore : Option Restore}
    {a_fabric : Fabric}
    {a_rounds : Rounds}
    {a_replay : Replay}
    {a_fw : Fw}
    {a_keys : Keys}
    {a_cal : Cal}
    {a_time : TimeS}
    {a_pwr : Pwr}
    {a_i3c : I3c}
    {a_midSeq : SMap Nat}
    {a_midRetry : SMap Nat}
    {a_free : Nat}
    {a_out : List Ev}
    (h_pending : a_pending = x.pending)
    (h_regs : a_regs = x.regs ∨ Part.regs ∈ l := by first | exact .inl rfl | exact .inr (by decide))
    (h_bar4 : a_bar4 = x.bar4 ∨ Part.bar4 ∈ l := by first | exact .inl rfl | exact .inr (by decide))
    (h_mem : cellsWf memDflt x.mem = true → cellsWf memDflt a_mem = true) (hl : Part.mem ∈ l)
    (h_hostMem : a_hostMem = x.hostMem := by rfl)
    (h_flash : a_flash = x.flash := by rfl)
    (h_bad : a_bad = x.bad ∨ Part.bad ∈ l := by first | exact .inl rfl | exact .inr (by decide))
    (h_soft : a_soft = x.soft ∨ Part.bad ∈ l := by first | exact .inl rfl | exact .inr (by decide))
    (h_ddrBytes : a_ddrBytes = x.ddrBytes ∨ Part.ddrBytes ∈ l := by first | exact .inl rfl | exact .inr (by decide))
    (h_dimms : a_dimms = x.dimms ∨ Part.dimms ∈ l := by first | exact .inl rfl | exact .inr (by decide))
    (h_erasing : a_erasing = x.erasing ∨ Part.erasing ∈ l := by first | exact .inl rfl | exact .inr (by decide))
    (h_eraseDue : a_eraseDue = x.eraseDue ∨ Part.eraseDue ∈ l := by first | exact .inl rfl | exact .inr (by decide))
    (h_mbx : a_mbx = x.mbx ∨ Part.mbx ∈ l := by first | exact .inl rfl | exact .inr (by decide))
    (h_job : a_job = x.job ∨ Part.job ∈ l := by first | exact .inl rfl | exact .inr (by decide))
    (h_cores : a_cores = x.cores ∨ Part.cores ∈ l := by first | exact .inl rfl | exact .inr (by decide))
    (h_clus : a_clus = x.clus ∨ Part.clus ∈ l := by first | exact .inl rfl | exact .inr (by decide))
    (h_qs : a_qs = x.qs ∨ Part.qs ∈ l := by first | exact .inl rfl | exact .inr (by decide))
    (h_hang : a_hang = x.hang ∨ Part.hang ∈ l := by first | exact .inl rfl | exact .inr (by decide))
    (h_strg : a_strg = x.strg ∨ Part.strg ∈ l := by first | exact .inl rfl | exact .inr (by decide))
    (h_mirror : a_mirror = x.mirror ∨ Part.mirror ∈ l := by first | exact .inl rfl | exact .inr (by decide))
    (h_jug : a_jug = x.jug ∨ Part.jug ∈ l := by first | exact .inl rfl | exact .inr (by decide))
    (h_reshard : a_reshard = x.reshard ∨ Part.reshard ∈ l := by first | exact .inl rfl | exact .inr (by decide))
    (h_restore : a_restore = x.restore ∨ Part.restore ∈ l := by first | exact .inl rfl | exact .inr (by decide))
    (h_fabric : a_fabric = x.fabric ∨ Part.fabric ∈ l := by first | exact .inl rfl | exact .inr (by decide))
    (h_rounds : a_rounds = x.rounds ∨ Part.rounds ∈ l := by first | exact .inl rfl | exact .inr (by decide))
    (h_replay : a_replay = x.replay ∨ Part.replay ∈ l := by first | exact .inl rfl | exact .inr (by decide))
    (h_fw : a_fw = x.fw ∨ Part.fw ∈ l := by first | exact .inl rfl | exact .inr (by decide))
    (h_keys : a_keys = x.keys ∨ Part.keys ∈ l := by first | exact .inl rfl | exact .inr (by decide))
    (h_cal : a_cal = x.cal ∨ Part.cal ∈ l := by first | exact .inl rfl | exact .inr (by decide))
    (h_time : a_time = x.time ∨ Part.time ∈ l := by first | exact .inl rfl | exact .inr (by decide))
    (h_pwr : a_pwr = x.pwr ∨ Part.pwr ∈ l := by first | exact .inl rfl | exact .inr (by decide))
    (h_i3c : a_i3c = x.i3c ∨ Part.i3c ∈ l := by first | exact .inl rfl | exact .inr (by decide))
    (h_midSeq : a_midSeq = x.midSeq ∨ Part.midSeq ∈ l := by first | exact .inl rfl | exact .inr (by decide))
    (h_midRetry : a_midRetry = x.midRetry ∨ Part.midRetry ∈ l := by first | exact .inl rfl | exact .inr (by decide))
    (h_free : a_free = x.free ∨ Part.free ∈ l := by first | exact .inl rfl | exact .inr (by decide))
    (h_out : a_out = x.out := by rfl) :
    Touches l x (State.mk a_pending a_regs a_bar4 a_mem a_hostMem a_flash a_bad a_soft a_ddrBytes a_dimms a_erasing a_eraseDue a_mbx a_job a_cores a_clus a_qs a_hang a_strg a_mirror a_jug a_reshard a_restore a_fabric a_rounds a_replay a_fw a_keys a_cal a_time a_pwr a_i3c a_midSeq a_midRetry a_free a_out) := by
  subst h_pending h_hostMem h_flash h_out
  refine ⟨fun p hp => ?_, h_mem, id, id, List.prefix_refl _⟩
  cases p
  · rfl
  · exact h_regs.resolve_right hp
  · exact h_bar4.resolve_right hp
  · exact absurd hl hp
  · rfl
  · rfl
  · exact ⟨h_bad.resolve_right hp, h_soft.resolve_right hp⟩
  · exact h_ddrBytes.resolve_right hp
  · exact h_dimms.resolve_right hp
  · exact h_erasing.resolve_right hp
  · exact h_eraseDue.resolve_right hp
  · exact h_mbx.resolve_right hp
  · exact h_job.resolve_right hp
  · exact h_cores.resolve_right hp
  · exact h_clus.resolve_right hp
  · exact h_qs.resolve_right hp
  · exact h_hang.resolve_right hp
  · exact h_strg.resolve_right hp
  · exact h_mirror.resolve_right hp
  · exact h_jug.resolve_right hp
  · exact h_reshard.resolve_right hp
  · exact h_restore.resolve_right hp
  · exact h_fabric.resolve_right hp
  · exact h_rounds.resolve_right hp
  · exact h_replay.resolve_right hp
  · exact h_fw.resolve_right hp
  · exact h_keys.resolve_right hp
  · exact h_cal.resolve_right hp
  · exact h_time.resolve_right hp
  · exact h_pwr.resolve_right hp
  · exact h_i3c.resolve_right hp
  · exact h_midSeq.resolve_right hp
  · exact h_midRetry.resolve_right hp
  · exact h_free.resolve_right hp
  · rfl

theorem TouchesO.bind {α : Type} {l : List Part} {s : State} {o : Option α} {f : α → Option State} (h : ∀ a, TouchesO l s (f a)) :
    TouchesO l s (o.bind f) := by
  cases o with
  | none => exact TouchesO.none
  | some a => exact h a

theorem cellsWf_puts (d : Nat → Byte) : ∀ (l : List (Nat × Byte)) (m : List Host.Cell), cellsWf d m = true →
    cellsWf d (l.foldl (fun m w => cellsPut d m w.1 w.2) m) = true
  | [], _, h => h
  | w :: l, m, h => cellsWf_puts d l _ (cellsWf_put d m w.1 w.2 h)

/-- What the host writes to its own memory. -/
theorem Touches.hostPuts {s : State} {l : List (Nat × Byte)} :
    Touches [.hostMem] s { s with hostMem := l.foldl (fun m w => cellsPut hostDflt m w.1 w.2) s.hostMem } :=
  ⟨fun p hp => by cases p <;> first | rfl | exact ⟨rfl, rfl⟩ | exact absurd (by decide) hp, id, cellsWf_puts hostDflt l s.hostMem, id, List.prefix_refl _⟩

/-- Bytes written to flash. -/
theorem Touches.flashWrite {s : State} {a : Nat} {b : Bytes} : Touches [.flash] s { s with flash := cellsWrite flashDflt s.flash a b } :=
  ⟨fun p hp => by cases p <;> first | rfl | exact ⟨rfl, rfl⟩ | exact absurd (by decide) hp, id, id, cellsWf_write flashDflt b s.flash a, List.prefix_refl _⟩

end Sys2Proof.Machine
end

