-- ==== Sys2Proof/Laws/Maps.lean ====
section
/-!
SUPPORT. Sorted maps and registers: reading after writing (R11, R12).
-/

namespace Sys2Proof.Machine

/-! ### Maps -/

/-- Reading a map after a write. -/
@[simp] theorem SMap.get?_set {α : Type} (m : SMap α) (x y : Nat) (v : α) :
    SMap.get? (SMap.set m x v) y = if y = x then some v else SMap.get? m y := by
  induction m with
  | nil => by_cases h : x = y <;> simp [SMap.set, SMap.get?, h, eq_comm]
  | cons a m ih =>
    obtain ⟨k, w⟩ := a
    simp only [SMap.set]
    split
    · by_cases h : x = y <;> simp [SMap.get?, h, eq_comm]
    · split
      · subst_vars
        by_cases h : k = y
        · simp [SMap.get?, h]
        · simp [SMap.get?, h, Ne.symm h]
      · by_cases h : k = y
        · subst h
          simp [SMap.get?]
          intro e
          omega
        · simp [SMap.get?, h, ih]

/-- Reading a map after an erasure. -/
@[simp] theorem SMap.get?_erase {α : Type} (m : SMap α) (x y : Nat) :
    SMap.get? (SMap.erase m x) y = if y = x then none else SMap.get? m y := by
  induction m with
  | nil => simp [SMap.erase, SMap.get?]
  | cons a m ih =>
    obtain ⟨k, w⟩ := a
    simp only [SMap.erase]
    split
    · subst_vars
      by_cases h : k = y
      · rw [ih]; simp [h]
      · simp [SMap.get?, ih, h, Ne.symm h]
    · rename_i hk
      by_cases h : k = y
      · subst h
        simp [SMap.get?, hk]
      · simp [SMap.get?, h, ih]

/-- Reading a map with a default after a write. -/
@[simp] theorem SMap.get_set {α : Type} (m : SMap α) (x y : Nat) (v d : α) :
    SMap.get (SMap.set m x v) y d = if y = x then v else SMap.get m y d := by
  simp only [SMap.get, SMap.get?_set]
  split <;> simp

/-! ### Registers -/

/-- Reading a register after a write. -/
@[simp] theorem regGet_regPut (m : SMap Word) (o p : Nat) (v : Word) : regGet (regPut m o v) p = if p = o then v else regGet m p := by
  unfold regGet regPut
  split
  · rw [SMap.get?_erase]
    split <;> simp_all
  · rw [SMap.get?_set]
    split <;> simp_all

/-- A whole register after a write of it. -/
@[simp] theorem State.rw_ww (s : State) (o p : Nat) (v : Word) : (s.ww o v).rw p = if p = o then v else s.rw p := by
  simp [State.rw, State.ww]

/-- A field after a write of a register. -/
theorem State.rf_ww (s : State) (o p hi lo : Nat) (v : Word) :
    (s.ww o v).rf p hi lo = if p = o then bits hi lo v.toNat else s.rf p hi lo := by
  simp only [State.rf, State.ww, regGet_regPut]
  split <;> rfl

/-- A field of another register. -/
theorem State.rf_wf_other (s : State) (o p hi lo hi' lo' v : Nat) (h : p ≠ o) : (s.wf o hi lo v).rf p hi' lo' = s.rf p hi' lo' := by
  simp [State.rf, State.wf, h]

/-- Another register after a write of a field. -/
theorem State.rw_wf_other (s : State) (o p hi lo v : Nat) (h : p ≠ o) : (s.wf o hi lo v).rw p = s.rw p := by
  simp [State.rw, State.wf, h]

/-- How putBits cuts a number: what lies above the field, the field, what lies below. -/
theorem putBits_eq (hi lo v x : Nat) (h : lo ≤ hi) :
    putBits hi lo v x = x / 2 ^ (hi + 1) * 2 ^ (hi + 1) + v % 2 ^ (hi + 1 - lo) * 2 ^ lo + x % 2 ^ lo := by
  have e : 2 ^ (hi + 1) = 2 ^ lo * 2 ^ (hi + 1 - lo) := by
    rw [← Nat.pow_add]; congr 1; omega
  have h1 : x = x / 2 ^ lo * 2 ^ lo + x % 2 ^ lo := by rw [Nat.mul_comm]; exact (Nat.div_add_mod x (2 ^ lo)).symm
  have h2 : x / 2 ^ lo = x / 2 ^ lo / 2 ^ (hi + 1 - lo) * 2 ^ (hi + 1 - lo) + x / 2 ^ lo % 2 ^ (hi + 1 - lo) := by
    rw [Nat.mul_comm]; exact (Nat.div_add_mod _ _).symm
  have h3 : x / 2 ^ (hi + 1) = x / 2 ^ lo / 2 ^ (hi + 1 - lo) := by rw [e, Nat.div_div_eq_div_mul]
  have h4 : x = x / 2 ^ (hi + 1) * 2 ^ (hi + 1) + bits hi lo x * 2 ^ lo + x % 2 ^ lo := by
    unfold bits
    rw [h3, e]
    calc x = x / 2 ^ lo * 2 ^ lo + x % 2 ^ lo := h1
      _ = (x / 2 ^ lo / 2 ^ (hi + 1 - lo) * 2 ^ (hi + 1 - lo) + x / 2 ^ lo % 2 ^ (hi + 1 - lo)) * 2 ^ lo + x % 2 ^ lo := by rw [← h2]
      _ = _ := by ring
  unfold putBits
  omega

/-- The field that putBits writes. -/
theorem bits_putBits_same (hi lo v x : Nat) (h : lo ≤ hi) : bits hi lo (putBits hi lo v x) = v % 2 ^ (hi + 1 - lo) := by
  rw [putBits_eq hi lo v x h]
  have e : 2 ^ (hi + 1) = 2 ^ (hi + 1 - lo) * 2 ^ lo := by
    rw [← Nat.pow_add]; congr 1; omega
  have p : 0 < 2 ^ lo := Nat.two_pow_pos lo
  have r : x % 2 ^ lo < 2 ^ lo := Nat.mod_lt _ p
  unfold bits
  rw [e, show x / (2 ^ (hi + 1 - lo) * 2 ^ lo) * (2 ^ (hi + 1 - lo) * 2 ^ lo) + v % 2 ^ (hi + 1 - lo) * 2 ^ lo + x % 2 ^ lo =
    x % 2 ^ lo + (x / (2 ^ (hi + 1 - lo) * 2 ^ lo) * 2 ^ (hi + 1 - lo) + v % 2 ^ (hi + 1 - lo)) * 2 ^ lo by ring,
    Nat.add_mul_div_right _ _ p, Nat.div_eq_of_lt r, Nat.zero_add, Nat.add_comm, Nat.add_mul_mod_self_right]
  exact Nat.mod_mod _ _

/-- A field above the one that putBits writes. -/
theorem bits_putBits_above (hi lo v x h l : Nat) (hl : lo ≤ hi) (ab : hi < l) : bits h l (putBits hi lo v x) = bits h l x := by
  rw [putBits_eq hi lo v x hl]
  have q : v % 2 ^ (hi + 1 - lo) * 2 ^ lo + x % 2 ^ lo < 2 ^ (hi + 1) := by
    have e : 2 ^ (hi + 1) = 2 ^ (hi + 1 - lo) * 2 ^ lo := by rw [← Nat.pow_add]; congr 1; omega
    have a : v % 2 ^ (hi + 1 - lo) + 1 ≤ 2 ^ (hi + 1 - lo) := Nat.mod_lt _ (Nat.two_pow_pos _)
    have b : x % 2 ^ lo < 2 ^ lo := Nat.mod_lt _ (Nat.two_pow_pos lo)
    calc v % 2 ^ (hi + 1 - lo) * 2 ^ lo + x % 2 ^ lo < v % 2 ^ (hi + 1 - lo) * 2 ^ lo + 2 ^ lo := by omega
      _ = (v % 2 ^ (hi + 1 - lo) + 1) * 2 ^ lo := by ring
      _ ≤ 2 ^ (hi + 1 - lo) * 2 ^ lo := Nat.mul_le_mul_right _ a
      _ = 2 ^ (hi + 1) := e.symm
  have d : (x / 2 ^ (hi + 1) * 2 ^ (hi + 1) + v % 2 ^ (hi + 1 - lo) * 2 ^ lo + x % 2 ^ lo) / 2 ^ (hi + 1) = x / 2 ^ (hi + 1) := by
    rw [Nat.add_assoc, Nat.add_comm, Nat.add_mul_div_right _ _ (Nat.two_pow_pos _), Nat.div_eq_of_lt q, Nat.zero_add]
  have e : 2 ^ l = 2 ^ (hi + 1) * 2 ^ (l - (hi + 1)) := by rw [← Nat.pow_add]; congr 1; omega
  unfold bits
  rw [e, ← Nat.div_div_eq_div_mul, d, Nat.div_div_eq_div_mul]

/-- A field below the one that putBits writes. -/
theorem bits_putBits_below (hi lo v x h l : Nat) (hl : lo ≤ hi) (hh : l ≤ h) (ab : h < lo) : bits h l (putBits hi lo v x) = bits h l x := by
  rw [putBits_eq hi lo v x hl]
  have m : (x / 2 ^ (hi + 1) * 2 ^ (hi + 1) + v % 2 ^ (hi + 1 - lo) * 2 ^ lo + x % 2 ^ lo) % 2 ^ lo = x % 2 ^ lo := by
    have e : 2 ^ (hi + 1) = 2 ^ (hi + 1 - lo) * 2 ^ lo := by rw [← Nat.pow_add]; congr 1; omega
    rw [e, show x / (2 ^ (hi + 1 - lo) * 2 ^ lo) * (2 ^ (hi + 1 - lo) * 2 ^ lo) + v % 2 ^ (hi + 1 - lo) * 2 ^ lo + x % 2 ^ lo =
      x % 2 ^ lo + (x / (2 ^ (hi + 1 - lo) * 2 ^ lo) * 2 ^ (hi + 1 - lo) + v % 2 ^ (hi + 1 - lo)) * 2 ^ lo by ring,
      Nat.add_mul_mod_self_right, Nat.mod_mod]
  have key : ∀ y, bits h l y = bits h l (y % 2 ^ lo) := by
    intro y
    unfold bits
    have e : 2 ^ lo = 2 ^ l * 2 ^ (lo - l) := by rw [← Nat.pow_add]; congr 1; omega
    rw [e, Nat.mod_mul_right_div_self, Nat.mod_mod_of_dvd]
    exact Nat.pow_dvd_pow 2 (by omega)
  rw [key, m, ← key]

/-- putBits stays within 64 bits. -/
theorem putBits_lt (hi lo v x : Nat) (h : lo ≤ hi) (w : hi < 64) (hx : x < 2 ^ 64) : putBits hi lo v x < 2 ^ 64 := by
  rw [putBits_eq hi lo v x h]
  have e : 2 ^ (hi + 1) = 2 ^ (hi + 1 - lo) * 2 ^ lo := by rw [← Nat.pow_add]; congr 1; omega
  have q : v % 2 ^ (hi + 1 - lo) * 2 ^ lo + x % 2 ^ lo < 2 ^ (hi + 1) := by
    have a : v % 2 ^ (hi + 1 - lo) + 1 ≤ 2 ^ (hi + 1 - lo) := Nat.mod_lt _ (Nat.two_pow_pos _)
    have b : x % 2 ^ lo < 2 ^ lo := Nat.mod_lt _ (Nat.two_pow_pos lo)
    calc v % 2 ^ (hi + 1 - lo) * 2 ^ lo + x % 2 ^ lo < v % 2 ^ (hi + 1 - lo) * 2 ^ lo + 2 ^ lo := by omega
      _ = (v % 2 ^ (hi + 1 - lo) + 1) * 2 ^ lo := by ring
      _ ≤ 2 ^ (hi + 1 - lo) * 2 ^ lo := Nat.mul_le_mul_right _ a
      _ = 2 ^ (hi + 1) := e.symm
  have d : x / 2 ^ (hi + 1) + 1 ≤ 2 ^ (64 - (hi + 1)) := by
    apply Nat.succ_le_of_lt
    apply Nat.div_lt_of_lt_mul
    rw [← Nat.pow_add]
    rwa [show hi + 1 + (64 - (hi + 1)) = 64 by omega]
  calc x / 2 ^ (hi + 1) * 2 ^ (hi + 1) + v % 2 ^ (hi + 1 - lo) * 2 ^ lo + x % 2 ^ lo < x / 2 ^ (hi + 1) * 2 ^ (hi + 1) + 2 ^ (hi + 1) := by omega
    _ = (x / 2 ^ (hi + 1) + 1) * 2 ^ (hi + 1) := by ring
    _ ≤ 2 ^ (64 - (hi + 1)) * 2 ^ (hi + 1) := Nat.mul_le_mul_right _ d
    _ = 2 ^ 64 := by rw [← Nat.pow_add]; congr 1; omega

/-- The field that wf writes. -/
theorem State.rf_wf_same (s : State) (o hi lo v : Nat) (h : lo ≤ hi) (w : hi < 64) : (s.wf o hi lo v).rf o hi lo = v % 2 ^ (hi + 1 - lo) := by
  have b := putBits_lt hi lo v (regGet s.regs o).toNat h w (regGet s.regs o).isLt
  simp only [State.rf, State.wf, regGet_regPut, if_true, BitVec.toNat_ofNat, Nat.mod_eq_of_lt b]
  exact bits_putBits_same hi lo v _ h

/-- Another field of the register that wf writes. -/
theorem State.rf_wf_apart (s : State) (o hi lo v h l : Nat) (hl : lo ≤ hi) (w : hi < 64) (hh : l ≤ h) (ab : hi < l ∨ h < lo) :
    (s.wf o hi lo v).rf o h l = s.rf o h l := by
  have b := putBits_lt hi lo v (regGet s.regs o).toNat hl w (regGet s.regs o).isLt
  simp only [State.rf, State.wf, regGet_regPut, if_true, BitVec.toNat_ofNat, Nat.mod_eq_of_lt b]
  rcases ab with ab | ab
  · exact bits_putBits_above hi lo v _ h l hl ab
  · exact bits_putBits_below hi lo v _ h l hl hh ab

end Sys2Proof.Machine
end

