-- ==== Sys2Proof/Laws/Fields.lean ====
section
/-!
SUPPORT. What resets and host writes make of the fields of a register.
-/

namespace Sys2Proof.Machine

/-- Fields that lie in the word and apart from each other. -/
def fieldsApart (fs : List Field) : Bool :=
  fs.all (fun f => decide (f.lo ≤ f.hi) && decide (f.hi < 64)) && decide (fs.Pairwise (fun f g => f.hi < g.lo ∨ g.hi < f.lo))

/-- The fields of every register lie apart. -/
theorem regFields_apart (k : RegKind) : fieldsApart (regFields k) = true := by
  cases k <;> rfl

/-- Some fields of a word replaced, one after the other. -/
def fieldsFold (c : Field → Bool) (v : Field → Nat) (fs : List Field) (x : Nat) : Nat :=
  fs.foldl (fun a f => if c f then putBits f.hi f.lo (v f) a else a) x

theorem fieldsFold_other (c : Field → Bool) (v : Field → Nat) (f : Field) (hf : f.lo ≤ f.hi) :
    ∀ (fs : List Field) (x : Nat), (∀ g ∈ fs, g.lo ≤ g.hi ∧ (g.hi < f.lo ∨ f.hi < g.lo)) →
      bits f.hi f.lo (fieldsFold c v fs x) = bits f.hi f.lo x
  | [], _, _ => rfl
  | g :: fs, x, h => by
    have hg := h g List.mem_cons_self
    have r := fieldsFold_other c v f hf fs (if c g then putBits g.hi g.lo (v g) x else x) (fun y hy => h y (List.mem_cons_of_mem _ hy))
    refine r.trans ?_
    split
    · rcases hg.2 with a | a
      · exact bits_putBits_above _ _ _ _ _ _ hg.1 a
      · exact bits_putBits_below _ _ _ _ _ _ hg.1 hf a
    · rfl

/-- A field after fields that lie apart were replaced. -/
theorem fieldsFold_field (c : Field → Bool) (v : Field → Nat) (f : Field) :
    ∀ (fs : List Field) (x : Nat), fieldsApart fs = true → f ∈ fs →
      bits f.hi f.lo (fieldsFold c v fs x) = if c f then v f % 2 ^ (f.hi + 1 - f.lo) else bits f.hi f.lo x
  | [], _, _, h => absurd h List.not_mem_nil
  | g :: fs, x, h, hf => by
    simp only [fieldsApart, Bool.and_eq_true, List.all_cons, decide_eq_true_eq, List.pairwise_cons] at h
    obtain ⟨⟨⟨g1, g2⟩, ha⟩, hg, hp⟩ := h
    have ha' := List.all_eq_true.mp ha
    have rest : fieldsApart fs = true := by simp only [fieldsApart, ha, Bool.true_and, decide_eq_true_eq]; exact hp
    by_cases e : f ∈ fs
    · have fl : f.lo ≤ f.hi := by have := ha' f e; simp at this; exact this.1
      have r := fieldsFold_field c v f fs (if c g then putBits g.hi g.lo (v g) x else x) rest e
      refine r.trans ?_
      split
      · rfl
      · split
        · rcases hg f e with a | a
          · exact bits_putBits_above _ _ _ _ _ _ g1 a
          · exact bits_putBits_below _ _ _ _ _ _ g1 fl a
        · rfl
    · obtain rfl : f = g := (List.mem_cons.mp hf).resolve_right e
      refine (fieldsFold_other c v f g1 fs _ (fun y hy => ?_)).trans ?_
      · have := ha' y hy; simp at this; exact ⟨this.1, (hg y hy).symm⟩
      · beta_reduce
        by_cases e : c f = true
        · simp only [e, if_true]; exact bits_putBits_same _ _ _ _ g1
        · simp only [e, if_false]; rfl

theorem fieldsFold_lt (c : Field → Bool) (v : Field → Nat) :
    ∀ (fs : List Field) (x : Nat), fieldsApart fs = true → x < 2 ^ 64 → fieldsFold c v fs x < 2 ^ 64
  | [], _, _, h => h
  | g :: fs, x, h, hx => by
    simp only [fieldsApart, Bool.and_eq_true, List.all_cons, decide_eq_true_eq, List.pairwise_cons] at h
    obtain ⟨⟨⟨g1, g2⟩, ha⟩, hg, hp⟩ := h
    refine fieldsFold_lt c v fs (if c g then putBits g.hi g.lo (v g) x else x) (by simp only [fieldsApart, ha, Bool.true_and, decide_eq_true_eq]; exact hp) ?_
    split
    · exact putBits_lt _ _ _ _ g1 g2 hx
    · exact hx

theorem fieldsReset_eq (cls : Ret → Bool) (fs : List Field) (x : Nat) :
    fieldsReset cls fs x = fieldsFold (fun f => cls f.ret) (fun f => f.dflt) fs x := rfl

theorem fieldsDefault_eq (fs : List Field) : fieldsDefault fs = fieldsFold (fun _ => true) (fun f => f.dflt) fs 0 := by
  simp [fieldsDefault, fieldsFold]

/-- What a host write puts into a field (R11). -/
def hostField (old new : Nat) (f : Field) : Nat :=
  match f.acc with
  | .rw => bits f.hi f.lo new
  | .rw1c => bits f.hi f.lo old &&& (2 ^ (f.hi + 1 - f.lo) - 1 - bits f.hi f.lo new)
  | .wo => 0
  | .ro => bits f.hi f.lo old

theorem hostWrite_eq (fs : List Field) (old new : Nat) :
    hostWrite fs old new = fieldsFold (fun f => f.acc != .ro) (hostField old new) fs old := by
  unfold hostWrite fieldsFold
  congr 1
  funext a f
  unfold hostField
  cases h : f.acc <;> simp [h]

/-- A field's default as its register holds it. -/
theorem regDefault_field (o : Nat) (k : RegKind) (hk : regKind o = some k) (f : Field) (hf : f ∈ regFields k) :
    bits f.hi f.lo (regDefault o).toNat = f.dflt % 2 ^ (f.hi + 1 - f.lo) := by
  have a := regFields_apart k
  have l := fieldsFold_lt (fun _ => true) (fun f => f.dflt) (regFields k) 0 a (by decide)
  rw [← fieldsDefault_eq] at l
  simp only [regDefault, hk, BitVec.toNat_ofNat, Nat.mod_eq_of_lt l]
  rw [fieldsDefault_eq, fieldsFold_field _ _ f _ _ a hf]
  simp

/-- A field after a host write of its register (R11, R12). -/
theorem State.rf_plainWrite (s : State) (o v : Nat) (k : RegKind) (hf : Field) (h : hf ∈ regFields k) :
    (s.plainWrite k o v).rf o hf.hi hf.lo =
      if hf.acc != .ro then hostField (s.rw o).toNat v hf % 2 ^ (hf.hi + 1 - hf.lo) else s.rf o hf.hi hf.lo := by
  have a := regFields_apart k
  have l := fieldsFold_lt (fun f => f.acc != .ro) (hostField (s.rw o).toNat v) (regFields k) (s.rw o).toNat a (s.rw o).isLt
  rw [← hostWrite_eq] at l
  simp only [State.plainWrite, State.rf_ww, if_true, BitVec.toNat_ofNat, Nat.mod_eq_of_lt l]
  rw [hostWrite_eq, fieldsFold_field _ _ hf _ _ a h]
  rfl

/-! ### Resets -/

theorem regGet_resetReg_other (scope : Nat → Bool) (cls : Ret → Bool) (m : SMap Word) (p o : Nat) (h : p ≠ o) :
    regGet (resetReg scope cls m p) o = regGet m o := by
  unfold resetReg
  split
  · rfl
  · split
    · rw [regGet_regPut, if_neg (Ne.symm h)]
    · rfl

theorem regGet_reset_out (scope : Nat → Bool) (cls : Ret → Bool) (o : Nat) (h : scope o = false) :
    ∀ (l : List Nat) (m : SMap Word), regGet (l.foldl (resetReg scope cls) m) o = regGet m o
  | [], _ => rfl
  | p :: l, m => by
    simp only [List.foldl_cons]
    rw [regGet_reset_out scope cls o h l]
    by_cases e : p = o
    · subst e; unfold resetReg; split
      · rfl
      · simp [h]
    · exact regGet_resetReg_other scope cls m p o e

/-- A register out of scope keeps what it held. -/
theorem regGet_resetRegs_out (scope : Nat → Bool) (cls : Ret → Bool) (m : SMap Word) (o : Nat) (h : scope o = false) :
    regGet (resetRegs scope cls m) o = regGet m o := regGet_reset_out scope cls o h _ m

theorem reset_field (scope : Nat → Bool) (cls : Ret → Bool) (o : Nat) (k : RegKind) (hk : regKind o = some k) (hs : scope o = true) (f : Field)
    (hf : f ∈ regFields k) (m : SMap Word) :
    bits f.hi f.lo (regGet (resetReg scope cls m o) o).toNat =
      if cls f.ret then f.dflt % 2 ^ (f.hi + 1 - f.lo) else bits f.hi f.lo (regGet m o).toNat := by
  have a := regFields_apart k
  have l := fieldsFold_lt (fun f => cls f.ret) (fun f => f.dflt) (regFields k) (regGet m o).toNat a (regGet m o).isLt
  rw [← fieldsReset_eq] at l
  simp only [resetReg, hk, hs, if_true, regGet_regPut, BitVec.toNat_ofNat, Nat.mod_eq_of_lt l]
  rw [fieldsReset_eq, fieldsFold_field _ _ f _ _ a hf]

theorem reset_fold_field (scope : Nat → Bool) (cls : Ret → Bool) (o : Nat) (k : RegKind) (hk : regKind o = some k) (hs : scope o = true)
    (f : Field) (hf : f ∈ regFields k) :
    ∀ (l : List Nat) (m : SMap Word), o ∈ l → bits f.hi f.lo (regGet (l.foldl (resetReg scope cls) m) o).toNat =
      if cls f.ret then f.dflt % 2 ^ (f.hi + 1 - f.lo) else bits f.hi f.lo (regGet m o).toNat
  | [], _, h => absurd h List.not_mem_nil
  | p :: l, m, h => by
    simp only [List.foldl_cons]
    by_cases e : o ∈ l
    · rw [reset_fold_field scope cls o k hk hs f hf l _ e]
      by_cases ep : p = o
      · rw [ep, reset_field scope cls o k hk hs f hf m]; split <;> rfl
      · rw [regGet_resetReg_other scope cls m p o ep]
    · obtain rfl : o = p := (List.mem_cons.mp h).resolve_right e
      have r : ∀ (l : List Nat) (m : SMap Word), o ∉ l → regGet (l.foldl (resetReg scope cls) m) o = regGet m o := by
        intro l
        induction l with
        | nil => intro m _; rfl
        | cons q l ih =>
          intro m hq
          simp only [List.foldl_cons]
          rw [ih _ (fun x => hq (List.mem_cons_of_mem _ x)), regGet_resetReg_other scope cls m q o (fun x => hq (x ▸ List.mem_cons_self))]
      rw [r l _ e, reset_field scope cls o k hk hs f hf m]

theorem SMap.get?_none {α : Type} (o : Nat) : ∀ m : SMap α, o ∉ m.map (fun (kv : Nat × α) => kv.1) → SMap.get? m o = none
  | [], _ => rfl
  | (a, v) :: m, h => by
    simp only [List.map_cons, List.mem_cons, not_or] at h
    simp only [SMap.get?, if_neg (Ne.symm h.1)]
    exact SMap.get?_none o m h.2

/-- A field of a register in scope: its default if the reset takes its retention class, else what it held (R13). -/
theorem regGet_resetRegs_field (scope : Nat → Bool) (cls : Ret → Bool) (m : SMap Word) (o : Nat) (k : RegKind) (hk : regKind o = some k)
    (hs : scope o = true) (f : Field) (hf : f ∈ regFields k) :
    bits f.hi f.lo (regGet (resetRegs scope cls m) o).toNat =
      if cls f.ret then f.dflt % 2 ^ (f.hi + 1 - f.lo) else bits f.hi f.lo (regGet m o).toNat := by
  by_cases h : o ∈ m.map (fun (kv : Nat × Word) => kv.1)
  · exact reset_fold_field scope cls o k hk hs f hf _ m h
  · have r : ∀ (l : List Nat) (m : SMap Word), o ∉ l → regGet (l.foldl (resetReg scope cls) m) o = regGet m o := by
      intro l
      induction l with
      | nil => intro m _; rfl
      | cons q l ih =>
        intro m hq
        simp only [List.foldl_cons]
        rw [ih _ (fun x => hq (List.mem_cons_of_mem _ x)), regGet_resetReg_other scope cls m q o (fun x => hq (x ▸ List.mem_cons_self))]
    have e : regGet (resetRegs scope cls m) o = regGet m o := r _ m h
    rw [e]
    have d : regGet m o = regDefault o := by simp [regGet, SMap.get?_none o m h]
    rw [d, regDefault_field o k hk f hf]
    split <;> rfl

end Sys2Proof.Machine
end

