-- ==== Sys2Proof/Laws/RegFrame.lean ====
section
/-!
SUPPORT. How register frames compose: which registers a function on states may write.
-/

namespace Sys2Proof.Machine

theorem OnlyRegs.refl (s : State) {l : List Nat} : OnlyRegs s s l := fun _ _ => rfl

theorem OnlyRegs.tr {s t u : State} {l m : List Nat} (h : OnlyRegs s t l) (k : OnlyRegs t u m) (sub : ∀ o ∈ m, o ∈ l) : OnlyRegs s u l :=
  fun o ho => (k o (fun e => ho (sub o e))).trans (h o ho)

/-- One list of offsets is within another. -/
theorem offs_sub {m l : List Nat} (h : m.all (fun p => l.contains p) = true) : ∀ p ∈ m, p ∈ l := by
  intro p hp
  have := List.all_eq_true.mp h p hp
  simpa using this

/-- What leaves the registers alone keeps a register frame. -/
theorem OnlyRegs.keep {s t u : State} {l : List Nat} {m : List Part} (h : OnlyRegs s t l) (k : Touches m t u) (n : Part.regs ∉ m) : OnlyRegs s u l :=
  fun o ho => by
    have e : u.regs = t.regs := k.only .regs n
    rw [← h o ho]
    simp [State.rw, e]

theorem OnlyRegs.of {s t : State} {l : List Nat} {m : List Part} (k : Touches m s t) (n : Part.regs ∉ m) : OnlyRegs s t l :=
  (OnlyRegs.refl s).keep k n

/-- A field of a register that a frame leaves. -/
theorem OnlyRegs.rf {s t : State} {l : List Nat} (h : OnlyRegs s t l) (o hi lo : Nat) (ho : o ∉ l) : t.rf o hi lo = s.rf o hi lo := by
  have := h o ho
  simp only [State.rw] at this
  simp only [State.rf, this]

theorem OnlyRegs.wf (s : State) (o hi lo v : Nat) : OnlyRegs s (s.wf o hi lo v) [o] :=
  fun p hp => State.rw_wf_other s o p hi lo v (by simpa using hp)

theorem OnlyRegs.ww (s : State) (o : Nat) (v : Word) : OnlyRegs s (s.ww o v) [o] :=
  fun p hp => by rw [State.rw_ww, if_neg (by simpa using hp)]

theorem OnlyRegs.satAdd (s : State) (o hi lo n : Nat) : OnlyRegs s (s.satAdd o hi lo n) [o] := OnlyRegs.wf s o hi lo _

theorem OnlyRegs.ite {s a b : State} {l : List Nat} {c : Prop} {_ : Decidable c} (h : OnlyRegs s a l) (k : OnlyRegs s b l) :
    OnlyRegs s (if c then a else b) l := by
  split
  · exact h
  · exact k

theorem OnlyRegs.cut {s t u : State} {l : List Nat} (h : OnlyRegs s t l) (k : ∀ w, OnlyRegs s w l → w = t → OnlyRegs s u l) : OnlyRegs s u l :=
  k t h rfl
theorem OnlyRegs.cutFst {β : Type} {s u : State} {l : List Nat} {t : State × β} (h : OnlyRegs s t.1 l)
    (k : ∀ w : State × β, OnlyRegs s w.1 l → w = t → OnlyRegs s u l) : OnlyRegs s u l := k t h rfl
theorem OnlyRegs.cutSnd {β : Type} {s u : State} {l : List Nat} {t : β × State} (h : OnlyRegs s t.2 l)
    (k : ∀ w : β × State, OnlyRegs s w.2 l → w = t → OnlyRegs s u l) : OnlyRegs s u l := k t h rfl

theorem OnlyRegs.foldl {α : Type} {l : List Nat} {s : State} {g : State → α → State} (hg : ∀ t x, OnlyRegs t (g t x) l) :
    ∀ (xs : List α) (t : State), OnlyRegs s t l → OnlyRegs s (xs.foldl g t) l
  | [], _, h => h
  | x :: xs, t, h => OnlyRegs.foldl hg xs (g t x) (h.tr (hg t x) (fun _ e => e))

theorem OnlyRegs.foldlFst {α β : Type} {l : List Nat} {s : State} {g : State × β → α → State × β} (hg : ∀ t x, OnlyRegs t.1 (g t x).1 l) :
    ∀ (xs : List α) (t : State × β), OnlyRegs s t.1 l → OnlyRegs s (xs.foldl g t).1 l
  | [], _, h => h
  | x :: xs, t, h => OnlyRegs.foldlFst hg xs (g t x) (h.tr (hg t x) (fun _ e => e))

theorem OnlyRegs.foldlSnd {α β : Type} {l : List Nat} {s : State} {g : β × State → α → β × State} (hg : ∀ t x, OnlyRegs t.2 (g t x).2 l) :
    ∀ (xs : List α) (t : β × State), OnlyRegs s t.2 l → OnlyRegs s (xs.foldl g t).2 l
  | [], _, h => h
  | x :: xs, t, h => OnlyRegs.foldlSnd hg xs (g t x) (h.tr (hg t x) (fun _ e => e))

theorem OnlyRegs.fst {β : Type} {s a : State} {l : List Nat} {b : β} {p : State × β} (e : p = (a, b)) (h : OnlyRegs s p.1 l) : OnlyRegs s a l := by
  rw [e] at h; exact h
theorem OnlyRegs.snd {β : Type} {s a : State} {l : List Nat} {b : β} {p : β × State} (e : p = (b, a)) (h : OnlyRegs s p.2 l) : OnlyRegs s a l := by
  rw [e] at h; exact h

/-- The register frame of what an optional state holds. -/
def OnlyRegsO (s : State) (o : Option State) (l : List Nat) : Prop := ∀ t, o = some t → OnlyRegs s t l

theorem OnlyRegsO.none {s : State} {l : List Nat} : OnlyRegsO s none l := fun _ h => by cases h
theorem OnlyRegsO.some {s t : State} {l : List Nat} (h : OnlyRegs s t l) : OnlyRegsO s (some t) l := fun _ e => by cases e; exact h
theorem OnlyRegsO.get {s t : State} {l : List Nat} {o : Option State} (e : o = Option.some t) (h : OnlyRegsO s o l) : OnlyRegs s t l := h t e
theorem OnlyRegsO.cut {s t : State} {l : List Nat} {o : Option State} (h : OnlyRegs s t l) (k : ∀ w, OnlyRegs s w l → w = t → OnlyRegsO s o l) :
    OnlyRegsO s o l := k t h rfl
theorem OnlyRegsO.ite {s : State} {l : List Nat} {a b : Option State} {c : Prop} {_ : Decidable c} (h : OnlyRegsO s a l) (k : OnlyRegsO s b l) :
    OnlyRegsO s (if c then a else b) l := by
  split
  · exact h
  · exact k
theorem OnlyRegsO.tr {s t : State} {l m : List Nat} {o : Option State} (h : OnlyRegs s t l) (k : OnlyRegsO t o m) (sub : ∀ p ∈ m, p ∈ l) :
    OnlyRegsO s o l := fun u e => h.tr (k u e) sub
theorem OnlyRegsO.bind {α : Type} {s : State} {l : List Nat} {o : Option α} {f : α → Option State} (h : ∀ a, OnlyRegsO s (f a) l) :
    OnlyRegsO s (o.bind f) l := by
  cases o with
  | none => exact OnlyRegsO.none
  | some a => exact h a

/-- The register frame of a command that goes on. -/
def OnlyRegsX (s : State) (o : Out) (l : List Nat) : Prop := ∀ t, o = .next t → OnlyRegs s t l

theorem OnlyRegsX.go {s t : State} {l : List Nat} (h : OnlyRegs s t l) : OnlyRegsX s (Sys2Proof.Machine.go t) l := fun _ e => by cases e; exact h
theorem OnlyRegsX.fault {s : State} {l : List Nat} {f : Fault} : OnlyRegsX s (.fault f) l := fun _ h => by cases h
theorem OnlyRegsX.cut {s t : State} {l : List Nat} {o : Out} (h : OnlyRegs s t l) (k : ∀ w, OnlyRegs s w l → w = t → OnlyRegsX s o l) :
    OnlyRegsX s o l := k t h rfl
theorem OnlyRegsX.cutFst {β : Type} {s : State} {l : List Nat} {o : Out} {t : State × β} (h : OnlyRegs s t.1 l)
    (k : ∀ w : State × β, OnlyRegs s w.1 l → w = t → OnlyRegsX s o l) : OnlyRegsX s o l := k t h rfl
theorem OnlyRegsX.cutSnd {β : Type} {s : State} {l : List Nat} {o : Out} {t : β × State} (h : OnlyRegs s t.2 l)
    (k : ∀ w : β × State, OnlyRegs s w.2 l → w = t → OnlyRegsX s o l) : OnlyRegsX s o l := k t h rfl
theorem OnlyRegsX.ite {s : State} {l : List Nat} {a b : Out} {c : Prop} {_ : Decidable c} (h : OnlyRegsX s a l) (k : OnlyRegsX s b l) :
    OnlyRegsX s (if c then a else b) l := by
  split
  · exact h
  · exact k
theorem OnlyRegsX.tr {s t : State} {l m : List Nat} {o : Out} (h : OnlyRegs s t l) (k : OnlyRegsX t o m) (sub : ∀ p ∈ m, p ∈ l) : OnlyRegsX s o l :=
  fun u e => h.tr (k u e) sub

/-- A record update that leaves the registers. -/
theorem OnlyRegs.upd {l : List Nat} {x : State}
    {a_pending : List Instr}
    {a_regs : SMap Word}
    {a_bar4 : List Host.Cell}
    {a_mem : List Host.Cell}
    {a_hostMem : List Host.Cell}
    {a_flash : List Host.Cell}
    {a_bad : List Nat}
    {a_soft : List Nat}
    {a_ddrBytes : Nat}
    {a_dimms : List Dimm}
    {a_erasing : Bool}
    {a_eraseDue : Bool}
    {a_mbx : Mbx}
    {a_job : Job}
    {a_cores : SMap Core}
    {a_clus : SMap Clu}
    {a_qs : SMap QState}
    {a_hang : Option Hang}
    {a_strg : Strg}
    {a_mirror : Mirror}
    {a_jug : Jug}
    {a_reshard : Option Reshard}
    {a_restore : Option Restore}
    {a_fabric : Fabric}
    {a_rounds : Rounds}
    {a_replay : Replay}
    {a_fw : Fw}
    {a_keys : Keys}
    {a_cal : Cal}
    {a_time : TimeS}
    {a_pwr : Pwr}
    {a_i3c : I3c}
    {a_midSeq : SMap Nat}
    {a_midRetry : SMap Nat}
    {a_free : Nat}
    {a_out : List Ev}
    (h_pending : a_pending = x.pending) (h_regs : a_regs = x.regs) :
    OnlyRegs x (State.mk a_pending a_regs a_bar4 a_mem a_hostMem a_flash a_bad a_soft a_ddrBytes a_dimms a_erasing a_eraseDue a_mbx a_job a_cores a_clus a_qs a_hang a_strg a_mirror a_jug a_reshard a_restore a_fabric a_rounds a_replay a_fw a_keys a_cal a_time a_pwr a_i3c a_midSeq a_midRetry a_free a_out) l := by
  subst h_pending h_regs
  exact fun _ _ => rfl

end Sys2Proof.Machine
end

