-- ==== Sys2Proof/Laws/TouchRegs.lean ====
section
/-!
SUPPORT. What the functions of Machine/Regs.lean may touch.
-/

set_option linter.all false
set_option Elab.async false
set_option linter.unreachableTactic false
set_option linter.unusedTactic false
set_option linter.tactic.unusedName false

namespace Sys2Proof.Machine

theorem State.wf_touches : ∀ s x1 x2 x3 x4, Touches [.regs] s (State.wf s x1 x2 x3 x4) := by
  intro s x1 x2 x3 x4
  unfold State.wf
  repeat' first
    | (show ∀ _ : Part, _; exact Part.sub (by decide +kernel))
    | (with_reducible intro _; beta_reduce)
    | ((conv => arg 3; arg 1; skip); with_reducible apply Touches.ite)
    | (extract_lets +onlyGivenNames t; refine Touches.cut (t := t) ?_ ?_ <;> [(unfold t; clear t); (intro v _ e; clear_value t; subst e; rename' v => w)])
    | (extract_lets +onlyGivenNames t; refine Touches.cut (t := t) ?_ ?_ <;> [(unfold t; clear t); (intro v _ e; subst v; rename' t => w)])
    | (extract_lets +onlyGivenNames t; refine Touches.cutFst (t := t) ?_ ?_ <;> [(unfold t; clear t); (intro v _ e; clear_value t; subst e; rename' v => w)])
    | (extract_lets +onlyGivenNames t; refine Touches.cutSnd (t := t) ?_ ?_ <;> [(unfold t; clear t); (intro v _ e; clear_value t; subst e; rename' v => w)])
    | (extract_lets +onlyGivenNames t; (have _h := fun x => t x); clear _h; unfold t; clear t)
    | (extract_lets +onlyGivenNames t; clear_value t; rename' t => w)
    | (extract_lets +onlyGivenNames t; rename' t => w)
    | with_reducible assumption
    | with_reducible exact Touches.refl _
    | ((conv => arg 3; arg 36; skip); refine Touches.trans ?_ (Touches.upd (l := [.regs]) rfl) ?_)
    | with_reducible apply Touches.foldl
    | with_reducible apply Touches.foldlFst
    | with_reducible apply Touches.foldlSnd
    | split
    | dsimp only

theorem State.ww_touches : ∀ s x1 x2, Touches [.regs] s (State.ww s x1 x2) := by
  intro s x1 x2
  unfold State.ww
  repeat' first
    | (show ∀ _ : Part, _; exact Part.sub (by decide +kernel))
    | (with_reducible intro _; beta_reduce)
    | ((conv => arg 3; arg 1; skip); with_reducible apply Touches.ite)
    | (extract_lets +onlyGivenNames t; refine Touches.cut (t := t) ?_ ?_ <;> [(unfold t; clear t); (intro v _ e; clear_value t; subst e; rename' v => w)])
    | (extract_lets +onlyGivenNames t; refine Touches.cut (t := t) ?_ ?_ <;> [(unfold t; clear t); (intro v _ e; subst v; rename' t => w)])
    | (extract_lets +onlyGivenNames t; refine Touches.cutFst (t := t) ?_ ?_ <;> [(unfold t; clear t); (intro v _ e; clear_value t; subst e; rename' v => w)])
    | (extract_lets +onlyGivenNames t; refine Touches.cutSnd (t := t) ?_ ?_ <;> [(unfold t; clear t); (intro v _ e; clear_value t; subst e; rename' v => w)])
    | (extract_lets +onlyGivenNames t; (have _h := fun x => t x); clear _h; unfold t; clear t)
    | (extract_lets +onlyGivenNames t; clear_value t; rename' t => w)
    | (extract_lets +onlyGivenNames t; rename' t => w)
    | with_reducible assumption
    | with_reducible exact Touches.refl _
    | ((conv => arg 3; arg 36; skip); refine Touches.trans ?_ (Touches.upd (l := [.regs]) rfl) ?_)
    | with_reducible apply Touches.foldl
    | with_reducible apply Touches.foldlFst
    | with_reducible apply Touches.foldlSnd
    | split
    | dsimp only

theorem State.satAdd_touches : ∀ s x1 x2 x3 x4, Touches [.regs] s (State.satAdd s x1 x2 x3 x4) := by
  intro s x1 x2 x3 x4
  unfold State.satAdd
  repeat' first
    | (show ∀ _ : Part, _; exact Part.sub (by decide +kernel))
    | (with_reducible intro _; beta_reduce)
    | ((conv => arg 3; arg 1; skip); with_reducible apply Touches.ite)
    | (extract_lets +onlyGivenNames t; refine Touches.cut (t := t) ?_ ?_ <;> [(unfold t; clear t); (intro v _ e; clear_value t; subst e; rename' v => w)])
    | (extract_lets +onlyGivenNames t; refine Touches.cut (t := t) ?_ ?_ <;> [(unfold t; clear t); (intro v _ e; subst v; rename' t => w)])
    | (extract_lets +onlyGivenNames t; refine Touches.cutFst (t := t) ?_ ?_ <;> [(unfold t; clear t); (intro v _ e; clear_value t; subst e; rename' v => w)])
    | (extract_lets +onlyGivenNames t; refine Touches.cutSnd (t := t) ?_ ?_ <;> [(unfold t; clear t); (intro v _ e; clear_value t; subst e; rename' v => w)])
    | (extract_lets +onlyGivenNames t; (have _h := fun x => t x); clear _h; unfold t; clear t)
    | (extract_lets +onlyGivenNames t; clear_value t; rename' t => w)
    | (extract_lets +onlyGivenNames t; rename' t => w)
    | with_reducible assumption
    | with_reducible exact Touches.refl _
    | (with_reducible apply Touches.trans; case k => with_reducible apply State.wf_touches)
    | with_reducible apply Touches.foldl
    | with_reducible apply Touches.foldlFst
    | with_reducible apply Touches.foldlSnd
    | split
    | dsimp only

end Sys2Proof.Machine
end

