-- ==== Sys2Proof/Laws/TouchOps.lean ====
section
/-!
SUPPORT. What the functions of Machine/Ops.lean may touch.
-/

set_option linter.all false
set_option Elab.async false
set_option linter.unreachableTactic false
set_option linter.unusedTactic false
set_option linter.tactic.unusedName false

namespace Sys2Proof.Machine

theorem go_touches : ∀ s, TouchesX [] s (go s) := by
  intro s
  unfold go
  repeat' first
    | (show ∀ _ : Part, _; exact Part.sub (by decide +kernel))
    | (with_reducible intro _; beta_reduce)
    | ((conv => arg 3; arg 1; skip); with_reducible apply Touches.ite)
    | ((conv => arg 3; arg 1; skip); with_reducible apply TouchesX.ite)
    | with_reducible exact TouchesX.fault
    | (extract_lets +onlyGivenNames t; refine Touches.cut (t := t) ?_ ?_ <;> [(unfold t; clear t); (intro v _ e; clear_value t; subst e; rename' v => w)])
    | (extract_lets +onlyGivenNames t; refine Touches.cut (t := t) ?_ ?_ <;> [(unfold t; clear t); (intro v _ e; subst v; rename' t => w)])
    | (extract_lets +onlyGivenNames t; refine Touches.cutFst (t := t) ?_ ?_ <;> [(unfold t; clear t); (intro v _ e; clear_value t; subst e; rename' v => w)])
    | (extract_lets +onlyGivenNames t; refine Touches.cutSnd (t := t) ?_ ?_ <;> [(unfold t; clear t); (intro v _ e; clear_value t; subst e; rename' v => w)])
    | (extract_lets +onlyGivenNames t; refine TouchesX.cut (t := t) ?_ ?_ <;> [(unfold t; clear t); (intro v _ e; clear_value t; subst e; rename' v => w)])
    | (extract_lets +onlyGivenNames t; refine TouchesX.cut (t := t) ?_ ?_ <;> [(unfold t; clear t); (intro v _ e; subst v; rename' t => w)])
    | (extract_lets +onlyGivenNames t; refine TouchesX.cutFst (t := t) ?_ ?_ <;> [(unfold t; clear t); (intro v _ e; clear_value t; subst e; rename' v => w)])
    | (extract_lets +onlyGivenNames t; refine TouchesX.cutSnd (t := t) ?_ ?_ <;> [(unfold t; clear t); (intro v _ e; clear_value t; subst e; rename' v => w)])
    | (extract_lets +onlyGivenNames t; (have _h := fun x => t x); clear _h; unfold t; clear t)
    | (extract_lets +onlyGivenNames t; clear_value t; rename' t => w)
    | (extract_lets +onlyGivenNames t; rename' t => w)
    | with_reducible assumption
    | with_reducible exact Touches.refl _
    | with_reducible apply TouchesX.go
    | with_reducible apply TouchesX.next
    | with_reducible apply Touches.foldl
    | with_reducible apply Touches.foldlFst
    | with_reducible apply Touches.foldlSnd
    | split
    | dsimp only

theorem State.poke_touches : ∀ s x y, Touches [.mem, .bad] s (State.poke s x y).1 := by
  intro s a b
  refine ⟨fun p hp => by cases p <;> first | rfl | exact ⟨rfl, rfl⟩ | exact absurd (by decide) hp, fun h => ?_, id, id, List.prefix_refl _⟩
  exact memWf_restore _ _ _ (memWf_write b s.mem a h)

theorem State.put_touches : ∀ s x1 x2, Touches [.mem, .bad] s (State.put s x1 x2) := by
  intro s x1 x2
  unfold State.put
  repeat' first
    | (show ∀ _ : Part, _; exact Part.sub (by decide +kernel))
    | (with_reducible intro _; beta_reduce)
    | ((conv => arg 3; arg 1; skip); with_reducible apply Touches.ite)
    | (extract_lets +onlyGivenNames t; refine Touches.cut (t := t) ?_ ?_ <;> [(unfold t; clear t); (intro v _ e; clear_value t; subst e; rename' v => w)])
    | (extract_lets +onlyGivenNames t; refine Touches.cut (t := t) ?_ ?_ <;> [(unfold t; clear t); (intro v _ e; subst v; rename' t => w)])
    | (extract_lets +onlyGivenNames t; refine Touches.cutFst (t := t) ?_ ?_ <;> [(unfold t; clear t); (intro v _ e; clear_value t; subst e; rename' v => w)])
    | (extract_lets +onlyGivenNames t; refine Touches.cutSnd (t := t) ?_ ?_ <;> [(unfold t; clear t); (intro v _ e; clear_value t; subst e; rename' v => w)])
    | (extract_lets +onlyGivenNames t; (have _h := fun x => t x); clear _h; unfold t; clear t)
    | (extract_lets +onlyGivenNames t; clear_value t; rename' t => w)
    | (extract_lets +onlyGivenNames t; rename' t => w)
    | with_reducible assumption
    | with_reducible exact Touches.refl _
    | (with_reducible apply Touches.fst; assumption)
    | (with_reducible apply Touches.trans; case k => with_reducible apply State.poke_touches)
    | (with_reducible apply Touches.fst; assumption)
    | with_reducible apply Touches.foldl
    | with_reducible apply Touches.foldlFst
    | with_reducible apply Touches.foldlSnd
    | split
    | dsimp only

theorem State.correct_touches : ∀ s x1 x2, Touches [.regs, .bad] s (State.correct s x1 x2) := by
  intro s x1 x2
  unfold State.correct
  repeat' first
    | (show ∀ _ : Part, _; exact Part.sub (by decide +kernel))
    | (with_reducible intro _; beta_reduce)
    | ((conv => arg 3; arg 1; skip); with_reducible apply Touches.ite)
    | (extract_lets +onlyGivenNames t; refine Touches.cut (t := t) ?_ ?_ <;> [(unfold t; clear t); (intro v _ e; clear_value t; subst e; rename' v => w)])
    | (extract_lets +onlyGivenNames t; refine Touches.cut (t := t) ?_ ?_ <;> [(unfold t; clear t); (intro v _ e; subst v; rename' t => w)])
    | (extract_lets +onlyGivenNames t; refine Touches.cutFst (t := t) ?_ ?_ <;> [(unfold t; clear t); (intro v _ e; clear_value t; subst e; rename' v => w)])
    | (extract_lets +onlyGivenNames t; refine Touches.cutSnd (t := t) ?_ ?_ <;> [(unfold t; clear t); (intro v _ e; clear_value t; subst e; rename' v => w)])
    | (extract_lets +onlyGivenNames t; (have _h := fun x => t x); clear _h; unfold t; clear t)
    | (extract_lets +onlyGivenNames t; clear_value t; rename' t => w)
    | (extract_lets +onlyGivenNames t; rename' t => w)
    | with_reducible assumption
    | with_reducible exact Touches.refl _
    | ((conv => arg 3; arg 36; skip); refine Touches.trans ?_ (Touches.upd (l := [.bad]) rfl) ?_)
    | (with_reducible apply Touches.trans; case k => with_reducible apply State.satAdd_touches)
    | (with_reducible apply Touches.trans; case k => with_reducible apply State.wf_touches)
    | with_reducible apply Touches.foldl
    | with_reducible apply Touches.foldlFst
    | with_reducible apply Touches.foldlSnd
    | split
    | dsimp only

theorem State.correctAll_touches : ∀ s x1, Touches [.regs, .bad] s (State.correctAll s x1) := by
  intro s x1
  unfold State.correctAll
  repeat' first
    | (show ∀ _ : Part, _; exact Part.sub (by decide +kernel))
    | (with_reducible intro _; beta_reduce)
    | ((conv => arg 3; arg 1; skip); with_reducible apply Touches.ite)
    | (extract_lets +onlyGivenNames t; refine Touches.cut (t := t) ?_ ?_ <;> [(unfold t; clear t); (intro v _ e; clear_value t; subst e; rename' v => w)])
    | (extract_lets +onlyGivenNames t; refine Touches.cut (t := t) ?_ ?_ <;> [(unfold t; clear t); (intro v _ e; subst v; rename' t => w)])
    | (extract_lets +onlyGivenNames t; refine Touches.cutFst (t := t) ?_ ?_ <;> [(unfold t; clear t); (intro v _ e; clear_value t; subst e; rename' v => w)])
    | (extract_lets +onlyGivenNames t; refine Touches.cutSnd (t := t) ?_ ?_ <;> [(unfold t; clear t); (intro v _ e; clear_value t; subst e; rename' v => w)])
    | (extract_lets +onlyGivenNames t; (have _h := fun x => t x); clear _h; unfold t; clear t)
    | (extract_lets +onlyGivenNames t; clear_value t; rename' t => w)
    | (extract_lets +onlyGivenNames t; rename' t => w)
    | with_reducible assumption
    | with_reducible exact Touches.refl _
    | (with_reducible apply Touches.trans; case k => with_reducible apply State.correct_touches)
    | with_reducible apply Touches.foldl
    | with_reducible apply Touches.foldlFst
    | with_reducible apply Touches.foldlSnd
    | split
    | dsimp only

theorem State.flashPut_touches : ∀ s x1 x2, Touches [.flash] s (State.flashPut s x1 x2) := by
  intro s x1 x2
  unfold State.flashPut
  repeat' first
    | (show ∀ _ : Part, _; exact Part.sub (by decide +kernel))
    | (with_reducible intro _; beta_reduce)
    | ((conv => arg 3; arg 1; skip); with_reducible apply Touches.ite)
    | (extract_lets +onlyGivenNames t; refine Touches.cut (t := t) ?_ ?_ <;> [(unfold t; clear t); (intro v _ e; clear_value t; subst e; rename' v => w)])
    | (extract_lets +onlyGivenNames t; refine Touches.cut (t := t) ?_ ?_ <;> [(unfold t; clear t); (intro v _ e; subst v; rename' t => w)])
    | (extract_lets +onlyGivenNames t; refine Touches.cutFst (t := t) ?_ ?_ <;> [(unfold t; clear t); (intro v _ e; clear_value t; subst e; rename' v => w)])
    | (extract_lets +onlyGivenNames t; refine Touches.cutSnd (t := t) ?_ ?_ <;> [(unfold t; clear t); (intro v _ e; clear_value t; subst e; rename' v => w)])
    | (extract_lets +onlyGivenNames t; (have _h := fun x => t x); clear _h; unfold t; clear t)
    | (extract_lets +onlyGivenNames t; clear_value t; rename' t => w)
    | (extract_lets +onlyGivenNames t; rename' t => w)
    | with_reducible assumption
    | with_reducible exact Touches.refl _
    | (with_reducible apply Touches.trans; case k => with_reducible apply Touches.flashWrite)
    | ((conv => arg 3; arg 36; skip); refine Touches.trans ?_ (Touches.upd (l := [.flash]) rfl) ?_)
    | with_reducible apply Touches.foldl
    | with_reducible apply Touches.foldlFst
    | with_reducible apply Touches.foldlSnd
    | split
    | dsimp only

theorem State.hostPut_touches : ∀ s x y, Touches [.hostMem] s (State.hostPut s x y) := by
  intro s a b
  exact ⟨fun p hp => by cases p <;> first | rfl | exact ⟨rfl, rfl⟩ | exact absurd (by decide) hp, id, cellsWf_write hostDflt b s.hostMem a, id, List.prefix_refl _⟩

theorem State.store_touches : ∀ s x1 x2, Touches [.mem, .hostMem, .bad] s (State.store s x1 x2).1 := by
  intro s x1 x2
  unfold State.store
  repeat' first
    | (show ∀ _ : Part, _; exact Part.sub (by decide +kernel))
    | (with_reducible intro _; beta_reduce)
    | ((conv => arg 3; arg 1; skip); with_reducible apply Touches.ite)
    | (extract_lets +onlyGivenNames t; refine Touches.cut (t := t) ?_ ?_ <;> [(unfold t; clear t); (intro v _ e; clear_value t; subst e; rename' v => w)])
    | (extract_lets +onlyGivenNames t; refine Touches.cut (t := t) ?_ ?_ <;> [(unfold t; clear t); (intro v _ e; subst v; rename' t => w)])
    | (extract_lets +onlyGivenNames t; refine Touches.cutFst (t := t) ?_ ?_ <;> [(unfold t; clear t); (intro v _ e; clear_value t; subst e; rename' v => w)])
    | (extract_lets +onlyGivenNames t; refine Touches.cutSnd (t := t) ?_ ?_ <;> [(unfold t; clear t); (intro v _ e; clear_value t; subst e; rename' v => w)])
    | (extract_lets +onlyGivenNames t; (have _h := fun x => t x); clear _h; unfold t; clear t)
    | (extract_lets +onlyGivenNames t; clear_value t; rename' t => w)
    | (extract_lets +onlyGivenNames t; rename' t => w)
    | with_reducible assumption
    | with_reducible exact Touches.refl _
    | (with_reducible apply Touches.fst; assumption)
    | (with_reducible apply Touches.trans; case k => with_reducible apply State.hostPut_touches)
    | (with_reducible apply Touches.trans; case k => with_reducible apply State.poke_touches)
    | (with_reducible apply Touches.fst; assumption)
    | with_reducible apply Touches.foldl
    | with_reducible apply Touches.foldlFst
    | with_reducible apply Touches.foldlSnd
    | split
    | dsimp only

theorem State.storeAll_touches : ∀ s x1, Touches [.mem, .hostMem, .bad] s (State.storeAll s x1).1 := by
  intro s x1
  induction x1 generalizing s
  case nil =>
    unfold State.storeAll
    repeat' first
      | (show ∀ _ : Part, _; exact Part.sub (by decide +kernel))
      | (with_reducible intro _; beta_reduce)
      | ((conv => arg 3; arg 1; skip); with_reducible apply Touches.ite)
      | (extract_lets +onlyGivenNames t; refine Touches.cut (t := t) ?_ ?_ <;> [(unfold t; clear t); (intro v _ e; clear_value t; subst e; rename' v => w)])
      | (extract_lets +onlyGivenNames t; refine Touches.cut (t := t) ?_ ?_ <;> [(unfold t; clear t); (intro v _ e; subst v; rename' t => w)])
      | (extract_lets +onlyGivenNames t; refine Touches.cutFst (t := t) ?_ ?_ <;> [(unfold t; clear t); (intro v _ e; clear_value t; subst e; rename' v => w)])
      | (extract_lets +onlyGivenNames t; refine Touches.cutSnd (t := t) ?_ ?_ <;> [(unfold t; clear t); (intro v _ e; clear_value t; subst e; rename' v => w)])
      | (extract_lets +onlyGivenNames t; (have _h := fun x => t x); clear _h; unfold t; clear t)
      | (extract_lets +onlyGivenNames t; clear_value t; rename' t => w)
      | (extract_lets +onlyGivenNames t; rename' t => w)
      | with_reducible assumption
      | with_reducible exact Touches.refl _
      | (with_reducible apply Touches.fst; assumption)
      | (with_reducible apply Touches.trans; case k => with_reducible apply State.store_touches)
      | (with_reducible apply Touches.fst; assumption)
      | with_reducible apply Touches.foldl
      | with_reducible apply Touches.foldlFst
      | with_reducible apply Touches.foldlSnd
      | split
      | dsimp only
  case cons b l ih =>
    unfold State.storeAll
    repeat' first
      | (show ∀ _ : Part, _; exact Part.sub (by decide +kernel))
      | (with_reducible intro _; beta_reduce)
      | ((conv => arg 3; arg 1; skip); with_reducible apply Touches.ite)
      | (extract_lets +onlyGivenNames t; refine Touches.cut (t := t) ?_ ?_ <;> [(unfold t; clear t); (intro v _ e; clear_value t; subst e; rename' v => w)])
      | (extract_lets +onlyGivenNames t; refine Touches.cut (t := t) ?_ ?_ <;> [(unfold t; clear t); (intro v _ e; subst v; rename' t => w)])
      | (extract_lets +onlyGivenNames t; refine Touches.cutFst (t := t) ?_ ?_ <;> [(unfold t; clear t); (intro v _ e; clear_value t; subst e; rename' v => w)])
      | (extract_lets +onlyGivenNames t; refine Touches.cutSnd (t := t) ?_ ?_ <;> [(unfold t; clear t); (intro v _ e; clear_value t; subst e; rename' v => w)])
      | (extract_lets +onlyGivenNames t; (have _h := fun x => t x); clear _h; unfold t; clear t)
      | (extract_lets +onlyGivenNames t; clear_value t; rename' t => w)
      | (extract_lets +onlyGivenNames t; rename' t => w)
      | with_reducible assumption
      | with_reducible exact Touches.refl _
      | (with_reducible apply Touches.fst; assumption)
      | (with_reducible apply Touches.trans; case k => with_reducible apply ih)
      | (with_reducible apply Touches.trans; case k => with_reducible apply State.store_touches)
      | (with_reducible apply Touches.fst; assumption)
      | with_reducible apply Touches.foldl
      | with_reducible apply Touches.foldlFst
      | with_reducible apply Touches.foldlSnd
      | split
      | dsimp only

theorem State.clear_touches : ∀ s x y, Touches [.mem, .bad] s (State.clear s x y) := by
  intro s a n
  exact ⟨fun p hp => by cases p <;> first | rfl | exact ⟨rfl, rfl⟩ | exact absurd (by decide) hp, cellsWf_clear memDflt s.mem a n, id, id, List.prefix_refl _⟩

theorem State.wipe_touches : ∀ s x1 x2, Touches [.mem, .bad] s (State.wipe s x1 x2) := by
  intro s x1 x2
  unfold State.wipe
  repeat' first
    | (show ∀ _ : Part, _; exact Part.sub (by decide +kernel))
    | (with_reducible intro _; beta_reduce)
    | ((conv => arg 3; arg 1; skip); with_reducible apply Touches.ite)
    | (extract_lets +onlyGivenNames t; refine Touches.cut (t := t) ?_ ?_ <;> [(unfold t; clear t); (intro v _ e; clear_value t; subst e; rename' v => w)])
    | (extract_lets +onlyGivenNames t; refine Touches.cut (t := t) ?_ ?_ <;> [(unfold t; clear t); (intro v _ e; subst v; rename' t => w)])
    | (extract_lets +onlyGivenNames t; refine Touches.cutFst (t := t) ?_ ?_ <;> [(unfold t; clear t); (intro v _ e; clear_value t; subst e; rename' v => w)])
    | (extract_lets +onlyGivenNames t; refine Touches.cutSnd (t := t) ?_ ?_ <;> [(unfold t; clear t); (intro v _ e; clear_value t; subst e; rename' v => w)])
    | (extract_lets +onlyGivenNames t; (have _h := fun x => t x); clear _h; unfold t; clear t)
    | (extract_lets +onlyGivenNames t; clear_value t; rename' t => w)
    | (extract_lets +onlyGivenNames t; rename' t => w)
    | with_reducible assumption
    | with_reducible exact Touches.refl _
    | (with_reducible apply Touches.trans; case k => with_reducible apply State.clear_touches)
    | with_reducible apply Touches.foldl
    | with_reducible apply Touches.foldlFst
    | with_reducible apply Touches.foldlSnd
    | split
    | dsimp only

theorem State.emit_touches : ∀ s x, Touches [.out] s (State.emit s x) := by
  intro s x
  exact ⟨fun p hp => by cases p <;> first | rfl | exact ⟨rfl, rfl⟩ | exact absurd (by decide) hp, id, id, id, List.prefix_append _ _⟩

theorem State.send_touches : ∀ s x1 x2, Touches [.out] s (State.send s x1 x2) := by
  intro s x1 x2
  unfold State.send
  repeat' first
    | (show ∀ _ : Part, _; exact Part.sub (by decide +kernel))
    | (with_reducible intro _; beta_reduce)
    | ((conv => arg 3; arg 1; skip); with_reducible apply Touches.ite)
    | (extract_lets +onlyGivenNames t; refine Touches.cut (t := t) ?_ ?_ <;> [(unfold t; clear t); (intro v _ e; clear_value t; subst e; rename' v => w)])
    | (extract_lets +onlyGivenNames t; refine Touches.cut (t := t) ?_ ?_ <;> [(unfold t; clear t); (intro v _ e; subst v; rename' t => w)])
    | (extract_lets +onlyGivenNames t; refine Touches.cutFst (t := t) ?_ ?_ <;> [(unfold t; clear t); (intro v _ e; clear_value t; subst e; rename' v => w)])
    | (extract_lets +onlyGivenNames t; refine Touches.cutSnd (t := t) ?_ ?_ <;> [(unfold t; clear t); (intro v _ e; clear_value t; subst e; rename' v => w)])
    | (extract_lets +onlyGivenNames t; (have _h := fun x => t x); clear _h; unfold t; clear t)
    | (extract_lets +onlyGivenNames t; clear_value t; rename' t => w)
    | (extract_lets +onlyGivenNames t; rename' t => w)
    | with_reducible assumption
    | with_reducible exact Touches.refl _
    | (with_reducible apply Touches.trans; case k => with_reducible apply State.emit_touches)
    | with_reducible apply Touches.foldl
    | with_reducible apply Touches.foldlFst
    | with_reducible apply Touches.foldlSnd
    | split
    | dsimp only

theorem State.draw_touches : ∀ s, Touches [.free] s (State.draw s).2 := by
  intro s
  unfold State.draw
  repeat' first
    | (show ∀ _ : Part, _; exact Part.sub (by decide +kernel))
    | (with_reducible intro _; beta_reduce)
    | ((conv => arg 3; arg 1; skip); with_reducible apply Touches.ite)
    | (extract_lets +onlyGivenNames t; refine Touches.cut (t := t) ?_ ?_ <;> [(unfold t; clear t); (intro v _ e; clear_value t; subst e; rename' v => w)])
    | (extract_lets +onlyGivenNames t; refine Touches.cut (t := t) ?_ ?_ <;> [(unfold t; clear t); (intro v _ e; subst v; rename' t => w)])
    | (extract_lets +onlyGivenNames t; refine Touches.cutFst (t := t) ?_ ?_ <;> [(unfold t; clear t); (intro v _ e; clear_value t; subst e; rename' v => w)])
    | (extract_lets +onlyGivenNames t; refine Touches.cutSnd (t := t) ?_ ?_ <;> [(unfold t; clear t); (intro v _ e; clear_value t; subst e; rename' v => w)])
    | (extract_lets +onlyGivenNames t; (have _h := fun x => t x); clear _h; unfold t; clear t)
    | (extract_lets +onlyGivenNames t; clear_value t; rename' t => w)
    | (extract_lets +onlyGivenNames t; rename' t => w)
    | with_reducible assumption
    | with_reducible exact Touches.refl _
    | (with_reducible apply Touches.snd; assumption)
    | ((conv => arg 3; arg 36; skip); refine Touches.trans ?_ (Touches.upd (l := [.free]) rfl) ?_)
    | (with_reducible apply Touches.snd; assumption)
    | with_reducible apply Touches.foldl
    | with_reducible apply Touches.foldlFst
    | with_reducible apply Touches.foldlSnd
    | split
    | dsimp only

theorem State.fire_touches : ∀ s x1, Touches [.regs, .out] s (State.fire s x1) := by
  intro s x1
  unfold State.fire
  repeat' first
    | (show ∀ _ : Part, _; exact Part.sub (by decide +kernel))
    | (with_reducible intro _; beta_reduce)
    | ((conv => arg 3; arg 1; skip); with_reducible apply Touches.ite)
    | (extract_lets +onlyGivenNames t; refine Touches.cut (t := t) ?_ ?_ <;> [(unfold t; clear t); (intro v _ e; clear_value t; subst e; rename' v => w)])
    | (extract_lets +onlyGivenNames t; refine Touches.cut (t := t) ?_ ?_ <;> [(unfold t; clear t); (intro v _ e; subst v; rename' t => w)])
    | (extract_lets +onlyGivenNames t; refine Touches.cutFst (t := t) ?_ ?_ <;> [(unfold t; clear t); (intro v _ e; clear_value t; subst e; rename' v => w)])
    | (extract_lets +onlyGivenNames t; refine Touches.cutSnd (t := t) ?_ ?_ <;> [(unfold t; clear t); (intro v _ e; clear_value t; subst e; rename' v => w)])
    | (extract_lets +onlyGivenNames t; (have _h := fun x => t x); clear _h; unfold t; clear t)
    | (extract_lets +onlyGivenNames t; clear_value t; rename' t => w)
    | (extract_lets +onlyGivenNames t; rename' t => w)
    | with_reducible assumption
    | with_reducible exact Touches.refl _
    | (with_reducible apply Touches.trans; case k => with_reducible apply State.emit_touches)
    | (with_reducible apply Touches.trans; case k => with_reducible apply State.wf_touches)
    | with_reducible apply Touches.foldl
    | with_reducible apply Touches.foldlFst
    | with_reducible apply Touches.foldlSnd
    | split
    | dsimp only

theorem State.raise_touches : ∀ s x1, Touches [.regs, .out] s (State.raise s x1) := by
  intro s x1
  unfold State.raise
  repeat' first
    | (show ∀ _ : Part, _; exact Part.sub (by decide +kernel))
    | (with_reducible intro _; beta_reduce)
    | ((conv => arg 3; arg 1; skip); with_reducible apply Touches.ite)
    | (extract_lets +onlyGivenNames t; refine Touches.cut (t := t) ?_ ?_ <;> [(unfold t; clear t); (intro v _ e; clear_value t; subst e; rename' v => w)])
    | (extract_lets +onlyGivenNames t; refine Touches.cut (t := t) ?_ ?_ <;> [(unfold t; clear t); (intro v _ e; subst v; rename' t => w)])
    | (extract_lets +onlyGivenNames t; refine Touches.cutFst (t := t) ?_ ?_ <;> [(unfold t; clear t); (intro v _ e; clear_value t; subst e; rename' v => w)])
    | (extract_lets +onlyGivenNames t; refine Touches.cutSnd (t := t) ?_ ?_ <;> [(unfold t; clear t); (intro v _ e; clear_value t; subst e; rename' v => w)])
    | (extract_lets +onlyGivenNames t; (have _h := fun x => t x); clear _h; unfold t; clear t)
    | (extract_lets +onlyGivenNames t; clear_value t; rename' t => w)
    | (extract_lets +onlyGivenNames t; rename' t => w)
    | with_reducible assumption
    | with_reducible exact Touches.refl _
    | (with_reducible apply Touches.trans; case k => with_reducible apply State.fire_touches)
    | (with_reducible apply Touches.trans; case k => with_reducible apply State.wf_touches)
    | with_reducible apply Touches.foldl
    | with_reducible apply Touches.foldlFst
    | with_reducible apply Touches.foldlSnd
    | split
    | dsimp only

theorem State.ibi_touches : ∀ s x1, Touches [.i3c, .out] s (State.ibi s x1) := by
  intro s x1
  unfold State.ibi
  repeat' first
    | (show ∀ _ : Part, _; exact Part.sub (by decide +kernel))
    | (with_reducible intro _; beta_reduce)
    | ((conv => arg 3; arg 1; skip); with_reducible apply Touches.ite)
    | (extract_lets +onlyGivenNames t; refine Touches.cut (t := t) ?_ ?_ <;> [(unfold t; clear t); (intro v _ e; clear_value t; subst e; rename' v => w)])
    | (extract_lets +onlyGivenNames t; refine Touches.cut (t := t) ?_ ?_ <;> [(unfold t; clear t); (intro v _ e; subst v; rename' t => w)])
    | (extract_lets +onlyGivenNames t; refine Touches.cutFst (t := t) ?_ ?_ <;> [(unfold t; clear t); (intro v _ e; clear_value t; subst e; rename' v => w)])
    | (extract_lets +onlyGivenNames t; refine Touches.cutSnd (t := t) ?_ ?_ <;> [(unfold t; clear t); (intro v _ e; clear_value t; subst e; rename' v => w)])
    | (extract_lets +onlyGivenNames t; (have _h := fun x => t x); clear _h; unfold t; clear t)
    | (extract_lets +onlyGivenNames t; clear_value t; rename' t => w)
    | (extract_lets +onlyGivenNames t; rename' t => w)
    | with_reducible assumption
    | with_reducible exact Touches.refl _
    | ((conv => arg 3; arg 36; skip); refine Touches.trans ?_ (Touches.upd (l := [.i3c]) rfl) ?_)
    | (with_reducible apply Touches.trans; case k => with_reducible apply State.emit_touches)
    | with_reducible apply Touches.foldl
    | with_reducible apply Touches.foldlFst
    | with_reducible apply Touches.foldlSnd
    | split
    | dsimp only

theorem State.enqueue_touches : ∀ s x1 x2 x3 x4 x5, Touches [.regs, .cal] s (State.enqueue s x1 x2 x3 x4 x5) := by
  intro s x1 x2 x3 x4 x5
  unfold State.enqueue
  repeat' first
    | (show ∀ _ : Part, _; exact Part.sub (by decide +kernel))
    | (with_reducible intro _; beta_reduce)
    | ((conv => arg 3; arg 1; skip); with_reducible apply Touches.ite)
    | (extract_lets +onlyGivenNames t; refine Touches.cut (t := t) ?_ ?_ <;> [(unfold t; clear t); (intro v _ e; clear_value t; subst e; rename' v => w)])
    | (extract_lets +onlyGivenNames t; refine Touches.cut (t := t) ?_ ?_ <;> [(unfold t; clear t); (intro v _ e; subst v; rename' t => w)])
    | (extract_lets +onlyGivenNames t; refine Touches.cutFst (t := t) ?_ ?_ <;> [(unfold t; clear t); (intro v _ e; clear_value t; subst e; rename' v => w)])
    | (extract_lets +onlyGivenNames t; refine Touches.cutSnd (t := t) ?_ ?_ <;> [(unfold t; clear t); (intro v _ e; clear_value t; subst e; rename' v => w)])
    | (extract_lets +onlyGivenNames t; (have _h := fun x => t x); clear _h; unfold t; clear t)
    | (extract_lets +onlyGivenNames t; clear_value t; rename' t => w)
    | (extract_lets +onlyGivenNames t; rename' t => w)
    | with_reducible assumption
    | with_reducible exact Touches.refl _
    | ((conv => arg 3; arg 36; skip); refine Touches.trans ?_ (Touches.upd (l := [.cal]) rfl) ?_)
    | (with_reducible apply Touches.trans; case k => with_reducible apply State.satAdd_touches)
    | with_reducible apply Touches.foldl
    | with_reducible apply Touches.foldlFst
    | with_reducible apply Touches.foldlSnd
    | split
    | dsimp only

theorem State.postAt_touches : ∀ s x1 x2 x3 x4, Touches [.regs, .cal] s (State.postAt s x1 x2 x3 x4) := by
  intro s x1 x2 x3 x4
  unfold State.postAt
  repeat' first
    | (show ∀ _ : Part, _; exact Part.sub (by decide +kernel))
    | (with_reducible intro _; beta_reduce)
    | ((conv => arg 3; arg 1; skip); with_reducible apply Touches.ite)
    | (extract_lets +onlyGivenNames t; refine Touches.cut (t := t) ?_ ?_ <;> [(unfold t; clear t); (intro v _ e; clear_value t; subst e; rename' v => w)])
    | (extract_lets +onlyGivenNames t; refine Touches.cut (t := t) ?_ ?_ <;> [(unfold t; clear t); (intro v _ e; subst v; rename' t => w)])
    | (extract_lets +onlyGivenNames t; refine Touches.cutFst (t := t) ?_ ?_ <;> [(unfold t; clear t); (intro v _ e; clear_value t; subst e; rename' v => w)])
    | (extract_lets +onlyGivenNames t; refine Touches.cutSnd (t := t) ?_ ?_ <;> [(unfold t; clear t); (intro v _ e; clear_value t; subst e; rename' v => w)])
    | (extract_lets +onlyGivenNames t; (have _h := fun x => t x); clear _h; unfold t; clear t)
    | (extract_lets +onlyGivenNames t; clear_value t; rename' t => w)
    | (extract_lets +onlyGivenNames t; rename' t => w)
    | with_reducible assumption
    | with_reducible exact Touches.refl _
    | (with_reducible apply Touches.trans; case k => with_reducible apply State.enqueue_touches)
    | with_reducible apply Touches.foldl
    | with_reducible apply Touches.foldlFst
    | with_reducible apply Touches.foldlSnd
    | split
    | dsimp only

theorem State.post_touches : ∀ s x1 x2 x3, Touches [.regs, .cal] s (State.post s x1 x2 x3) := by
  intro s x1 x2 x3
  unfold State.post
  repeat' first
    | (show ∀ _ : Part, _; exact Part.sub (by decide +kernel))
    | (with_reducible intro _; beta_reduce)
    | ((conv => arg 3; arg 1; skip); with_reducible apply Touches.ite)
    | (extract_lets +onlyGivenNames t; refine Touches.cut (t := t) ?_ ?_ <;> [(unfold t; clear t); (intro v _ e; clear_value t; subst e; rename' v => w)])
    | (extract_lets +onlyGivenNames t; refine Touches.cut (t := t) ?_ ?_ <;> [(unfold t; clear t); (intro v _ e; subst v; rename' t => w)])
    | (extract_lets +onlyGivenNames t; refine Touches.cutFst (t := t) ?_ ?_ <;> [(unfold t; clear t); (intro v _ e; clear_value t; subst e; rename' v => w)])
    | (extract_lets +onlyGivenNames t; refine Touches.cutSnd (t := t) ?_ ?_ <;> [(unfold t; clear t); (intro v _ e; clear_value t; subst e; rename' v => w)])
    | (extract_lets +onlyGivenNames t; (have _h := fun x => t x); clear _h; unfold t; clear t)
    | (extract_lets +onlyGivenNames t; clear_value t; rename' t => w)
    | (extract_lets +onlyGivenNames t; rename' t => w)
    | with_reducible assumption
    | with_reducible exact Touches.refl _
    | (with_reducible apply Touches.trans; case k => with_reducible apply State.enqueue_touches)
    | with_reducible apply Touches.foldl
    | with_reducible apply Touches.foldlFst
    | with_reducible apply Touches.foldlSnd
    | split
    | dsimp only

theorem State.absorb_touches : ∀ s x1, Touches [.regs, .cal, .out] s (State.absorb s x1) := by
  intro s x1
  unfold State.absorb
  repeat' first
    | (show ∀ _ : Part, _; exact Part.sub (by decide +kernel))
    | (with_reducible intro _; beta_reduce)
    | ((conv => arg 3; arg 1; skip); with_reducible apply Touches.ite)
    | (extract_lets +onlyGivenNames t; refine Touches.cut (t := t) ?_ ?_ <;> [(unfold t; clear t); (intro v _ e; clear_value t; subst e; rename' v => w)])
    | (extract_lets +onlyGivenNames t; refine Touches.cut (t := t) ?_ ?_ <;> [(unfold t; clear t); (intro v _ e; subst v; rename' t => w)])
    | (extract_lets +onlyGivenNames t; refine Touches.cutFst (t := t) ?_ ?_ <;> [(unfold t; clear t); (intro v _ e; clear_value t; subst e; rename' v => w)])
    | (extract_lets +onlyGivenNames t; refine Touches.cutSnd (t := t) ?_ ?_ <;> [(unfold t; clear t); (intro v _ e; clear_value t; subst e; rename' v => w)])
    | (extract_lets +onlyGivenNames t; (have _h := fun x => t x); clear _h; unfold t; clear t)
    | (extract_lets +onlyGivenNames t; clear_value t; rename' t => w)
    | (extract_lets +onlyGivenNames t; rename' t => w)
    | with_reducible assumption
    | with_reducible exact Touches.refl _
    | ((conv => arg 3; arg 36; skip); refine Touches.trans ?_ (Touches.upd (l := [.cal]) rfl) ?_)
    | (with_reducible apply Touches.trans; case k => with_reducible apply State.raise_touches)
    | (with_reducible apply Touches.trans; case k => with_reducible apply State.satAdd_touches)
    | (with_reducible apply Touches.trans; case k => with_reducible apply State.ww_touches)
    | with_reducible apply Touches.foldl
    | with_reducible apply Touches.foldlFst
    | with_reducible apply Touches.foldlSnd
    | split
    | dsimp only

theorem State.absorbOne_touches : ∀ s x1, Touches [.regs, .cal, .out] s (State.absorbOne s x1) := by
  intro s x1
  unfold State.absorbOne
  repeat' first
    | (show ∀ _ : Part, _; exact Part.sub (by decide +kernel))
    | (with_reducible intro _; beta_reduce)
    | ((conv => arg 3; arg 1; skip); with_reducible apply Touches.ite)
    | (extract_lets +onlyGivenNames t; refine Touches.cut (t := t) ?_ ?_ <;> [(unfold t; clear t); (intro v _ e; clear_value t; subst e; rename' v => w)])
    | (extract_lets +onlyGivenNames t; refine Touches.cut (t := t) ?_ ?_ <;> [(unfold t; clear t); (intro v _ e; subst v; rename' t => w)])
    | (extract_lets +onlyGivenNames t; refine Touches.cutFst (t := t) ?_ ?_ <;> [(unfold t; clear t); (intro v _ e; clear_value t; subst e; rename' v => w)])
    | (extract_lets +onlyGivenNames t; refine Touches.cutSnd (t := t) ?_ ?_ <;> [(unfold t; clear t); (intro v _ e; clear_value t; subst e; rename' v => w)])
    | (extract_lets +onlyGivenNames t; (have _h := fun x => t x); clear _h; unfold t; clear t)
    | (extract_lets +onlyGivenNames t; clear_value t; rename' t => w)
    | (extract_lets +onlyGivenNames t; rename' t => w)
    | with_reducible assumption
    | with_reducible exact Touches.refl _
    | ((conv => arg 3; arg 36; skip); refine Touches.trans ?_ (Touches.upd (l := [.cal]) rfl) ?_)
    | (with_reducible apply Touches.trans; case k => with_reducible apply State.absorb_touches)
    | with_reducible apply Touches.foldl
    | with_reducible apply Touches.foldlFst
    | with_reducible apply Touches.foldlSnd
    | split
    | dsimp only

theorem State.drain_touches : ∀ s, Touches [.regs, .cal, .out] s (State.drain s) := by
  intro s
  unfold State.drain
  repeat' first
    | (show ∀ _ : Part, _; exact Part.sub (by decide +kernel))
    | (with_reducible intro _; beta_reduce)
    | ((conv => arg 3; arg 1; skip); with_reducible apply Touches.ite)
    | (extract_lets +onlyGivenNames t; refine Touches.cut (t := t) ?_ ?_ <;> [(unfold t; clear t); (intro v _ e; clear_value t; subst e; rename' v => w)])
    | (extract_lets +onlyGivenNames t; refine Touches.cut (t := t) ?_ ?_ <;> [(unfold t; clear t); (intro v _ e; subst v; rename' t => w)])
    | (extract_lets +onlyGivenNames t; refine Touches.cutFst (t := t) ?_ ?_ <;> [(unfold t; clear t); (intro v _ e; clear_value t; subst e; rename' v => w)])
    | (extract_lets +onlyGivenNames t; refine Touches.cutSnd (t := t) ?_ ?_ <;> [(unfold t; clear t); (intro v _ e; clear_value t; subst e; rename' v => w)])
    | (extract_lets +onlyGivenNames t; (have _h := fun x => t x); clear _h; unfold t; clear t)
    | (extract_lets +onlyGivenNames t; clear_value t; rename' t => w)
    | (extract_lets +onlyGivenNames t; rename' t => w)
    | with_reducible assumption
    | with_reducible exact Touches.refl _
    | ((conv => arg 3; arg 36; skip); refine Touches.trans ?_ (Touches.upd (l := [.cal]) rfl) ?_)
    | (with_reducible apply Touches.trans; case k => with_reducible apply State.absorb_touches)
    | with_reducible apply Touches.foldl
    | with_reducible apply Touches.foldlFst
    | with_reducible apply Touches.foldlSnd
    | split
    | dsimp only

theorem State.stallCheck_touches : ∀ s, Touches [.regs, .out] s (State.stallCheck s) := by
  intro s
  unfold State.stallCheck
  repeat' first
    | (show ∀ _ : Part, _; exact Part.sub (by decide +kernel))
    | (with_reducible intro _; beta_reduce)
    | ((conv => arg 3; arg 1; skip); with_reducible apply Touches.ite)
    | (extract_lets +onlyGivenNames t; refine Touches.cut (t := t) ?_ ?_ <;> [(unfold t; clear t); (intro v _ e; clear_value t; subst e; rename' v => w)])
    | (extract_lets +onlyGivenNames t; refine Touches.cut (t := t) ?_ ?_ <;> [(unfold t; clear t); (intro v _ e; subst v; rename' t => w)])
    | (extract_lets +onlyGivenNames t; refine Touches.cutFst (t := t) ?_ ?_ <;> [(unfold t; clear t); (intro v _ e; clear_value t; subst e; rename' v => w)])
    | (extract_lets +onlyGivenNames t; refine Touches.cutSnd (t := t) ?_ ?_ <;> [(unfold t; clear t); (intro v _ e; clear_value t; subst e; rename' v => w)])
    | (extract_lets +onlyGivenNames t; (have _h := fun x => t x); clear _h; unfold t; clear t)
    | (extract_lets +onlyGivenNames t; clear_value t; rename' t => w)
    | (extract_lets +onlyGivenNames t; rename' t => w)
    | with_reducible assumption
    | with_reducible exact Touches.refl _
    | (with_reducible apply Touches.trans; case k => with_reducible apply State.raise_touches)
    | (with_reducible apply Touches.trans; case k => with_reducible apply State.wf_touches)
    | with_reducible apply Touches.foldl
    | with_reducible apply Touches.foldlFst
    | with_reducible apply Touches.foldlSnd
    | split
    | dsimp only

theorem State.complete_touches : ∀ s x1 x2 x3 x4, Touches [.regs, .mbx, .out] s (State.complete s x1 x2 x3 x4) := by
  intro s x1 x2 x3 x4
  unfold State.complete
  repeat' first
    | (show ∀ _ : Part, _; exact Part.sub (by decide +kernel))
    | (with_reducible intro _; beta_reduce)
    | ((conv => arg 3; arg 1; skip); with_reducible apply Touches.ite)
    | (extract_lets +onlyGivenNames t; refine Touches.cut (t := t) ?_ ?_ <;> [(unfold t; clear t); (intro v _ e; clear_value t; subst e; rename' v => w)])
    | (extract_lets +onlyGivenNames t; refine Touches.cut (t := t) ?_ ?_ <;> [(unfold t; clear t); (intro v _ e; subst v; rename' t => w)])
    | (extract_lets +onlyGivenNames t; refine Touches.cutFst (t := t) ?_ ?_ <;> [(unfold t; clear t); (intro v _ e; clear_value t; subst e; rename' v => w)])
    | (extract_lets +onlyGivenNames t; refine Touches.cutSnd (t := t) ?_ ?_ <;> [(unfold t; clear t); (intro v _ e; clear_value t; subst e; rename' v => w)])
    | (extract_lets +onlyGivenNames t; (have _h := fun x => t x); clear _h; unfold t; clear t)
    | (extract_lets +onlyGivenNames t; clear_value t; rename' t => w)
    | (extract_lets +onlyGivenNames t; rename' t => w)
    | with_reducible assumption
    | with_reducible exact Touches.refl _
    | ((conv => arg 3; arg 36; skip); refine Touches.trans ?_ (Touches.upd (l := [.mbx]) rfl) ?_)
    | (with_reducible apply Touches.trans; case k => with_reducible apply State.stallCheck_touches)
    | with_reducible apply Touches.foldl
    | with_reducible apply Touches.foldlFst
    | with_reducible apply Touches.foldlSnd
    | split
    | dsimp only

theorem State.done_touches : ∀ s x1 x2, Touches [.regs, .mbx, .out] s (State.done s x1 x2) := by
  intro s x1 x2
  unfold State.done
  repeat' first
    | (show ∀ _ : Part, _; exact Part.sub (by decide +kernel))
    | (with_reducible intro _; beta_reduce)
    | ((conv => arg 3; arg 1; skip); with_reducible apply Touches.ite)
    | (extract_lets +onlyGivenNames t; refine Touches.cut (t := t) ?_ ?_ <;> [(unfold t; clear t); (intro v _ e; clear_value t; subst e; rename' v => w)])
    | (extract_lets +onlyGivenNames t; refine Touches.cut (t := t) ?_ ?_ <;> [(unfold t; clear t); (intro v _ e; subst v; rename' t => w)])
    | (extract_lets +onlyGivenNames t; refine Touches.cutFst (t := t) ?_ ?_ <;> [(unfold t; clear t); (intro v _ e; clear_value t; subst e; rename' v => w)])
    | (extract_lets +onlyGivenNames t; refine Touches.cutSnd (t := t) ?_ ?_ <;> [(unfold t; clear t); (intro v _ e; clear_value t; subst e; rename' v => w)])
    | (extract_lets +onlyGivenNames t; (have _h := fun x => t x); clear _h; unfold t; clear t)
    | (extract_lets +onlyGivenNames t; clear_value t; rename' t => w)
    | (extract_lets +onlyGivenNames t; rename' t => w)
    | with_reducible assumption
    | with_reducible exact Touches.refl _
    | (with_reducible apply Touches.trans; case k => with_reducible apply State.complete_touches)
    | with_reducible apply Touches.foldl
    | with_reducible apply Touches.foldlFst
    | with_reducible apply Touches.foldlSnd
    | split
    | dsimp only

theorem State.output_touches : ∀ s x1 x2 x3, Touches [.regs, .hostMem, .mbx, .out] s (State.output s x1 x2 x3) := by
  intro s x1 x2 x3
  unfold State.output
  repeat' first
    | (show ∀ _ : Part, _; exact Part.sub (by decide +kernel))
    | (with_reducible intro _; beta_reduce)
    | ((conv => arg 3; arg 1; skip); with_reducible apply Touches.ite)
    | (extract_lets +onlyGivenNames t; refine Touches.cut (t := t) ?_ ?_ <;> [(unfold t; clear t); (intro v _ e; clear_value t; subst e; rename' v => w)])
    | (extract_lets +onlyGivenNames t; refine Touches.cut (t := t) ?_ ?_ <;> [(unfold t; clear t); (intro v _ e; subst v; rename' t => w)])
    | (extract_lets +onlyGivenNames t; refine Touches.cutFst (t := t) ?_ ?_ <;> [(unfold t; clear t); (intro v _ e; clear_value t; subst e; rename' v => w)])
    | (extract_lets +onlyGivenNames t; refine Touches.cutSnd (t := t) ?_ ?_ <;> [(unfold t; clear t); (intro v _ e; clear_value t; subst e; rename' v => w)])
    | (extract_lets +onlyGivenNames t; (have _h := fun x => t x); clear _h; unfold t; clear t)
    | (extract_lets +onlyGivenNames t; clear_value t; rename' t => w)
    | (extract_lets +onlyGivenNames t; rename' t => w)
    | with_reducible assumption
    | with_reducible exact Touches.refl _
    | (with_reducible apply Touches.trans; case k => with_reducible apply State.complete_touches)
    | (with_reducible apply Touches.trans; case k => with_reducible apply State.hostPut_touches)
    | with_reducible apply Touches.foldl
    | with_reducible apply Touches.foldlFst
    | with_reducible apply Touches.foldlSnd
    | split
    | dsimp only

theorem State.doneTag_touches : ∀ s x1 x2, Touches [.regs, .mbx, .out] s (State.doneTag s x1 x2) := by
  intro s x1 x2
  unfold State.doneTag
  repeat' first
    | (show ∀ _ : Part, _; exact Part.sub (by decide +kernel))
    | (with_reducible intro _; beta_reduce)
    | ((conv => arg 3; arg 1; skip); with_reducible apply Touches.ite)
    | (extract_lets +onlyGivenNames t; refine Touches.cut (t := t) ?_ ?_ <;> [(unfold t; clear t); (intro v _ e; clear_value t; subst e; rename' v => w)])
    | (extract_lets +onlyGivenNames t; refine Touches.cut (t := t) ?_ ?_ <;> [(unfold t; clear t); (intro v _ e; subst v; rename' t => w)])
    | (extract_lets +onlyGivenNames t; refine Touches.cutFst (t := t) ?_ ?_ <;> [(unfold t; clear t); (intro v _ e; clear_value t; subst e; rename' v => w)])
    | (extract_lets +onlyGivenNames t; refine Touches.cutSnd (t := t) ?_ ?_ <;> [(unfold t; clear t); (intro v _ e; clear_value t; subst e; rename' v => w)])
    | (extract_lets +onlyGivenNames t; (have _h := fun x => t x); clear _h; unfold t; clear t)
    | (extract_lets +onlyGivenNames t; clear_value t; rename' t => w)
    | (extract_lets +onlyGivenNames t; rename' t => w)
    | with_reducible assumption
    | with_reducible exact Touches.refl _
    | (with_reducible apply Touches.trans; case k => with_reducible apply State.done_touches)
    | with_reducible apply Touches.foldl
    | with_reducible apply Touches.foldlFst
    | with_reducible apply Touches.foldlSnd
    | split
    | dsimp only

theorem State.start_touches : ∀ s x1, Touches [.mbx] s (State.start s x1) := by
  intro s x1
  unfold State.start
  repeat' first
    | (show ∀ _ : Part, _; exact Part.sub (by decide +kernel))
    | (with_reducible intro _; beta_reduce)
    | ((conv => arg 3; arg 1; skip); with_reducible apply Touches.ite)
    | (extract_lets +onlyGivenNames t; refine Touches.cut (t := t) ?_ ?_ <;> [(unfold t; clear t); (intro v _ e; clear_value t; subst e; rename' v => w)])
    | (extract_lets +onlyGivenNames t; refine Touches.cut (t := t) ?_ ?_ <;> [(unfold t; clear t); (intro v _ e; subst v; rename' t => w)])
    | (extract_lets +onlyGivenNames t; refine Touches.cutFst (t := t) ?_ ?_ <;> [(unfold t; clear t); (intro v _ e; clear_value t; subst e; rename' v => w)])
    | (extract_lets +onlyGivenNames t; refine Touches.cutSnd (t := t) ?_ ?_ <;> [(unfold t; clear t); (intro v _ e; clear_value t; subst e; rename' v => w)])
    | (extract_lets +onlyGivenNames t; (have _h := fun x => t x); clear _h; unfold t; clear t)
    | (extract_lets +onlyGivenNames t; clear_value t; rename' t => w)
    | (extract_lets +onlyGivenNames t; rename' t => w)
    | with_reducible assumption
    | with_reducible exact Touches.refl _
    | ((conv => arg 3; arg 36; skip); refine Touches.trans ?_ (Touches.upd (l := [.mbx]) rfl) ?_)
    | with_reducible apply Touches.foldl
    | with_reducible apply Touches.foldlFst
    | with_reducible apply Touches.foldlSnd
    | split
    | dsimp only

theorem withCmd_touches {l : List Part} (s : State) (x1 : BitVec 32) (x2 : ℕ) (x3 : State → Taken → State) (hf : ∀ a0 s, Touches l s (x3 s a0)) (hsub : ∀ p ∈ [.regs, .mbx, .out], p ∈ l) : TouchesX l s (withCmd s x1 x2 x3) := by
  unfold withCmd
  repeat' first
    | exact hsub
    | (show ∀ _ : Part, _; intro p hp; apply hsub; revert p hp; exact Part.sub (by decide +kernel))
    | (show ∀ _ : Part, _; exact Part.sub (by decide +kernel))
    | (with_reducible intro _; beta_reduce)
    | ((conv => arg 3; arg 1; skip); with_reducible apply Touches.ite)
    | ((conv => arg 3; arg 1; skip); with_reducible apply TouchesX.ite)
    | with_reducible exact TouchesX.fault
    | (extract_lets +onlyGivenNames t; refine Touches.cut (t := t) ?_ ?_ <;> [(unfold t; clear t); (intro v _ e; clear_value t; subst e; rename' v => w)])
    | (extract_lets +onlyGivenNames t; refine Touches.cut (t := t) ?_ ?_ <;> [(unfold t; clear t); (intro v _ e; subst v; rename' t => w)])
    | (extract_lets +onlyGivenNames t; refine Touches.cutFst (t := t) ?_ ?_ <;> [(unfold t; clear t); (intro v _ e; clear_value t; subst e; rename' v => w)])
    | (extract_lets +onlyGivenNames t; refine Touches.cutSnd (t := t) ?_ ?_ <;> [(unfold t; clear t); (intro v _ e; clear_value t; subst e; rename' v => w)])
    | (extract_lets +onlyGivenNames t; refine TouchesX.cut (t := t) ?_ ?_ <;> [(unfold t; clear t); (intro v _ e; clear_value t; subst e; rename' v => w)])
    | (extract_lets +onlyGivenNames t; refine TouchesX.cut (t := t) ?_ ?_ <;> [(unfold t; clear t); (intro v _ e; subst v; rename' t => w)])
    | (extract_lets +onlyGivenNames t; refine TouchesX.cutFst (t := t) ?_ ?_ <;> [(unfold t; clear t); (intro v _ e; clear_value t; subst e; rename' v => w)])
    | (extract_lets +onlyGivenNames t; refine TouchesX.cutSnd (t := t) ?_ ?_ <;> [(unfold t; clear t); (intro v _ e; clear_value t; subst e; rename' v => w)])
    | (extract_lets +onlyGivenNames t; (have _h := fun x => t x); clear _h; unfold t; clear t)
    | (extract_lets +onlyGivenNames t; clear_value t; rename' t => w)
    | (extract_lets +onlyGivenNames t; rename' t => w)
    | with_reducible assumption
    | with_reducible exact Touches.refl _
    | with_reducible apply TouchesX.go
    | with_reducible apply TouchesX.next
    | (with_reducible apply Touches.trans; case k => with_reducible apply hf)
    | (with_reducible apply Touches.trans; case k => with_reducible apply State.done_touches)
    | (with_reducible apply Touches.trans; case k => with_reducible apply State.start_touches)
    | (with_reducible apply TouchesX.trans; case k => with_reducible apply go_touches)
    | with_reducible apply Touches.foldl
    | with_reducible apply Touches.foldlFst
    | with_reducible apply Touches.foldlSnd
    | split
    | dsimp only

theorem State.setCtx_touches : ∀ s x1 x2 x3, Touches [.regs] s (State.setCtx s x1 x2 x3) := by
  intro s x1 x2 x3
  unfold State.setCtx
  repeat' first
    | (show ∀ _ : Part, _; exact Part.sub (by decide +kernel))
    | (with_reducible intro _; beta_reduce)
    | ((conv => arg 3; arg 1; skip); with_reducible apply Touches.ite)
    | (extract_lets +onlyGivenNames t; refine Touches.cut (t := t) ?_ ?_ <;> [(unfold t; clear t); (intro v _ e; clear_value t; subst e; rename' v => w)])
    | (extract_lets +onlyGivenNames t; refine Touches.cut (t := t) ?_ ?_ <;> [(unfold t; clear t); (intro v _ e; subst v; rename' t => w)])
    | (extract_lets +onlyGivenNames t; refine Touches.cutFst (t := t) ?_ ?_ <;> [(unfold t; clear t); (intro v _ e; clear_value t; subst e; rename' v => w)])
    | (extract_lets +onlyGivenNames t; refine Touches.cutSnd (t := t) ?_ ?_ <;> [(unfold t; clear t); (intro v _ e; clear_value t; subst e; rename' v => w)])
    | (extract_lets +onlyGivenNames t; (have _h := fun x => t x); clear _h; unfold t; clear t)
    | (extract_lets +onlyGivenNames t; clear_value t; rename' t => w)
    | (extract_lets +onlyGivenNames t; rename' t => w)
    | with_reducible assumption
    | with_reducible exact Touches.refl _
    | (with_reducible apply Touches.trans; case k => with_reducible apply State.wf_touches)
    | with_reducible apply Touches.foldl
    | with_reducible apply Touches.foldlFst
    | with_reducible apply Touches.foldlSnd
    | split
    | dsimp only

theorem tick_touches : ∀ s, Touches [.regs, .time] s (tick s) := by
  intro s
  unfold tick
  repeat' first
    | (show ∀ _ : Part, _; exact Part.sub (by decide +kernel))
    | (with_reducible intro _; beta_reduce)
    | ((conv => arg 3; arg 1; skip); with_reducible apply Touches.ite)
    | (extract_lets +onlyGivenNames t; refine Touches.cut (t := t) ?_ ?_ <;> [(unfold t; clear t); (intro v _ e; clear_value t; subst e; rename' v => w)])
    | (extract_lets +onlyGivenNames t; refine Touches.cut (t := t) ?_ ?_ <;> [(unfold t; clear t); (intro v _ e; subst v; rename' t => w)])
    | (extract_lets +onlyGivenNames t; refine Touches.cutFst (t := t) ?_ ?_ <;> [(unfold t; clear t); (intro v _ e; clear_value t; subst e; rename' v => w)])
    | (extract_lets +onlyGivenNames t; refine Touches.cutSnd (t := t) ?_ ?_ <;> [(unfold t; clear t); (intro v _ e; clear_value t; subst e; rename' v => w)])
    | (extract_lets +onlyGivenNames t; (have _h := fun x => t x); clear _h; unfold t; clear t)
    | (extract_lets +onlyGivenNames t; clear_value t; rename' t => w)
    | (extract_lets +onlyGivenNames t; rename' t => w)
    | with_reducible assumption
    | with_reducible exact Touches.refl _
    | ((conv => arg 3; arg 36; skip); refine Touches.trans ?_ (Touches.upd (l := [.time]) rfl) ?_)
    | (with_reducible apply Touches.trans; case k => with_reducible apply State.ww_touches)
    | with_reducible apply Touches.foldl
    | with_reducible apply Touches.foldlFst
    | with_reducible apply Touches.foldlSnd
    | split
    | dsimp only

end Sys2Proof.Machine
end

