-- ==== Sys2Proof/Laws/RegsOps.lean ====
section
/-!
SUPPORT. Which registers the functions of Machine/Ops.lean may write, where these do not depend on an operand.
-/

set_option linter.all false
set_option Elab.async false
set_option linter.unreachableTactic false
set_option linter.unusedTactic false
set_option linter.tactic.unusedName false

namespace Sys2Proof.Machine

theorem State.fire_regs : ∀ s x1, OnlyRegs s (State.fire s x1) [Sys2Proof.Machine.oPba] := by
  intro s x1
  unfold State.fire
  repeat' first
    | (show ∀ _ : Nat, _; exact offs_sub (by decide +kernel))
    | (show ¬ (_ ∈ _); decide +kernel)
    | (with_reducible intro _; beta_reduce)
    | ((conv => arg 2; arg 1; skip); with_reducible apply OnlyRegs.ite)
    | (extract_lets +onlyGivenNames t; refine OnlyRegs.cut (t := t) ?_ ?_ <;> [(unfold t; clear t); (intro v _ e; clear_value t; subst e; rename' v => w)])
    | (extract_lets +onlyGivenNames t; refine OnlyRegs.cut (t := t) ?_ ?_ <;> [(unfold t; clear t); (intro v _ e; subst v; rename' t => w)])
    | (extract_lets +onlyGivenNames t; refine OnlyRegs.cutFst (t := t) ?_ ?_ <;> [(unfold t; clear t); (intro v _ e; clear_value t; subst e; rename' v => w)])
    | (extract_lets +onlyGivenNames t; refine OnlyRegs.cutSnd (t := t) ?_ ?_ <;> [(unfold t; clear t); (intro v _ e; clear_value t; subst e; rename' v => w)])
    | (extract_lets +onlyGivenNames t; (have _h := fun x => t x); clear _h; unfold t; clear t)
    | (extract_lets +onlyGivenNames t; clear_value t; rename' t => w)
    | (extract_lets +onlyGivenNames t; rename' t => w)
    | with_reducible assumption
    | with_reducible exact OnlyRegs.refl _
    | (with_reducible apply OnlyRegs.keep; case k => with_reducible apply State.emit_touches)
    | (with_reducible apply OnlyRegs.tr; case k => with_reducible apply OnlyRegs.wf)
    | with_reducible apply OnlyRegs.foldl
    | with_reducible apply OnlyRegs.foldlFst
    | with_reducible apply OnlyRegs.foldlSnd
    | split
    | dsimp only

theorem State.raise_regs : ∀ s x1, OnlyRegs s (State.raise s x1) [Sys2Proof.Machine.oIntStatus, Sys2Proof.Machine.oPba] := by
  intro s x1
  unfold State.raise
  repeat' first
    | (show ∀ _ : Nat, _; exact offs_sub (by decide +kernel))
    | (show ¬ (_ ∈ _); decide +kernel)
    | (with_reducible intro _; beta_reduce)
    | ((conv => arg 2; arg 1; skip); with_reducible apply OnlyRegs.ite)
    | (extract_lets +onlyGivenNames t; refine OnlyRegs.cut (t := t) ?_ ?_ <;> [(unfold t; clear t); (intro v _ e; clear_value t; subst e; rename' v => w)])
    | (extract_lets +onlyGivenNames t; refine OnlyRegs.cut (t := t) ?_ ?_ <;> [(unfold t; clear t); (intro v _ e; subst v; rename' t => w)])
    | (extract_lets +onlyGivenNames t; refine OnlyRegs.cutFst (t := t) ?_ ?_ <;> [(unfold t; clear t); (intro v _ e; clear_value t; subst e; rename' v => w)])
    | (extract_lets +onlyGivenNames t; refine OnlyRegs.cutSnd (t := t) ?_ ?_ <;> [(unfold t; clear t); (intro v _ e; clear_value t; subst e; rename' v => w)])
    | (extract_lets +onlyGivenNames t; (have _h := fun x => t x); clear _h; unfold t; clear t)
    | (extract_lets +onlyGivenNames t; clear_value t; rename' t => w)
    | (extract_lets +onlyGivenNames t; rename' t => w)
    | with_reducible assumption
    | with_reducible exact OnlyRegs.refl _
    | (with_reducible apply OnlyRegs.tr; case k => with_reducible apply State.fire_regs)
    | (with_reducible apply OnlyRegs.tr; case k => with_reducible apply OnlyRegs.wf)
    | with_reducible apply OnlyRegs.foldl
    | with_reducible apply OnlyRegs.foldlFst
    | with_reducible apply OnlyRegs.foldlSnd
    | split
    | dsimp only

theorem State.enqueue_regs : ∀ s x1 x2 x3 x4 x5, OnlyRegs s (State.enqueue s x1 x2 x3 x4 x5) [Sys2Proof.Machine.oCalLost] := by
  intro s x1 x2 x3 x4 x5
  unfold State.enqueue
  repeat' first
    | (show ∀ _ : Nat, _; exact offs_sub (by decide +kernel))
    | (show ¬ (_ ∈ _); decide +kernel)
    | (with_reducible intro _; beta_reduce)
    | ((conv => arg 2; arg 1; skip); with_reducible apply OnlyRegs.ite)
    | (extract_lets +onlyGivenNames t; refine OnlyRegs.cut (t := t) ?_ ?_ <;> [(unfold t; clear t); (intro v _ e; clear_value t; subst e; rename' v => w)])
    | (extract_lets +onlyGivenNames t; refine OnlyRegs.cut (t := t) ?_ ?_ <;> [(unfold t; clear t); (intro v _ e; subst v; rename' t => w)])
    | (extract_lets +onlyGivenNames t; refine OnlyRegs.cutFst (t := t) ?_ ?_ <;> [(unfold t; clear t); (intro v _ e; clear_value t; subst e; rename' v => w)])
    | (extract_lets +onlyGivenNames t; refine OnlyRegs.cutSnd (t := t) ?_ ?_ <;> [(unfold t; clear t); (intro v _ e; clear_value t; subst e; rename' v => w)])
    | (extract_lets +onlyGivenNames t; (have _h := fun x => t x); clear _h; unfold t; clear t)
    | (extract_lets +onlyGivenNames t; clear_value t; rename' t => w)
    | (extract_lets +onlyGivenNames t; rename' t => w)
    | with_reducible assumption
    | with_reducible exact OnlyRegs.refl _
    | ((conv => arg 2; arg 36; skip); refine OnlyRegs.tr ?_ (OnlyRegs.upd (l := []) rfl rfl) ?_)
    | (with_reducible apply OnlyRegs.tr; case k => with_reducible apply OnlyRegs.satAdd)
    | with_reducible apply OnlyRegs.foldl
    | with_reducible apply OnlyRegs.foldlFst
    | with_reducible apply OnlyRegs.foldlSnd
    | split
    | dsimp only

theorem State.postAt_regs : ∀ s x1 x2 x3 x4, OnlyRegs s (State.postAt s x1 x2 x3 x4) [Sys2Proof.Machine.oCalLost] := by
  intro s x1 x2 x3 x4
  unfold State.postAt
  repeat' first
    | (show ∀ _ : Nat, _; exact offs_sub (by decide +kernel))
    | (show ¬ (_ ∈ _); decide +kernel)
    | (with_reducible intro _; beta_reduce)
    | ((conv => arg 2; arg 1; skip); with_reducible apply OnlyRegs.ite)
    | (extract_lets +onlyGivenNames t; refine OnlyRegs.cut (t := t) ?_ ?_ <;> [(unfold t; clear t); (intro v _ e; clear_value t; subst e; rename' v => w)])
    | (extract_lets +onlyGivenNames t; refine OnlyRegs.cut (t := t) ?_ ?_ <;> [(unfold t; clear t); (intro v _ e; subst v; rename' t => w)])
    | (extract_lets +onlyGivenNames t; refine OnlyRegs.cutFst (t := t) ?_ ?_ <;> [(unfold t; clear t); (intro v _ e; clear_value t; subst e; rename' v => w)])
    | (extract_lets +onlyGivenNames t; refine OnlyRegs.cutSnd (t := t) ?_ ?_ <;> [(unfold t; clear t); (intro v _ e; clear_value t; subst e; rename' v => w)])
    | (extract_lets +onlyGivenNames t; (have _h := fun x => t x); clear _h; unfold t; clear t)
    | (extract_lets +onlyGivenNames t; clear_value t; rename' t => w)
    | (extract_lets +onlyGivenNames t; rename' t => w)
    | with_reducible assumption
    | with_reducible exact OnlyRegs.refl _
    | (with_reducible apply OnlyRegs.tr; case k => with_reducible apply State.enqueue_regs)
    | with_reducible apply OnlyRegs.foldl
    | with_reducible apply OnlyRegs.foldlFst
    | with_reducible apply OnlyRegs.foldlSnd
    | split
    | dsimp only

theorem State.post_regs : ∀ s x1 x2 x3, OnlyRegs s (State.post s x1 x2 x3) [Sys2Proof.Machine.oCalLost] := by
  intro s x1 x2 x3
  unfold State.post
  repeat' first
    | (show ∀ _ : Nat, _; exact offs_sub (by decide +kernel))
    | (show ¬ (_ ∈ _); decide +kernel)
    | (with_reducible intro _; beta_reduce)
    | ((conv => arg 2; arg 1; skip); with_reducible apply OnlyRegs.ite)
    | (extract_lets +onlyGivenNames t; refine OnlyRegs.cut (t := t) ?_ ?_ <;> [(unfold t; clear t); (intro v _ e; clear_value t; subst e; rename' v => w)])
    | (extract_lets +onlyGivenNames t; refine OnlyRegs.cut (t := t) ?_ ?_ <;> [(unfold t; clear t); (intro v _ e; subst v; rename' t => w)])
    | (extract_lets +onlyGivenNames t; refine OnlyRegs.cutFst (t := t) ?_ ?_ <;> [(unfold t; clear t); (intro v _ e; clear_value t; subst e; rename' v => w)])
    | (extract_lets +onlyGivenNames t; refine OnlyRegs.cutSnd (t := t) ?_ ?_ <;> [(unfold t; clear t); (intro v _ e; clear_value t; subst e; rename' v => w)])
    | (extract_lets +onlyGivenNames t; (have _h := fun x => t x); clear _h; unfold t; clear t)
    | (extract_lets +onlyGivenNames t; clear_value t; rename' t => w)
    | (extract_lets +onlyGivenNames t; rename' t => w)
    | with_reducible assumption
    | with_reducible exact OnlyRegs.refl _
    | (with_reducible apply OnlyRegs.tr; case k => with_reducible apply State.enqueue_regs)
    | with_reducible apply OnlyRegs.foldl
    | with_reducible apply OnlyRegs.foldlFst
    | with_reducible apply OnlyRegs.foldlSnd
    | split
    | dsimp only

theorem State.absorb_regs : ∀ s x1, OnlyRegs s (State.absorb s x1) [Sys2Proof.Machine.oCalLost, Sys2Proof.Machine.oCalOldest, Sys2Proof.Machine.oCalWrite, Sys2Proof.Machine.oIntStatus, Sys2Proof.Machine.oPba] := by
  intro s x1
  unfold State.absorb
  repeat' first
    | (show ∀ _ : Nat, _; exact offs_sub (by decide +kernel))
    | (show ¬ (_ ∈ _); decide +kernel)
    | (with_reducible intro _; beta_reduce)
    | ((conv => arg 2; arg 1; skip); with_reducible apply OnlyRegs.ite)
    | (extract_lets +onlyGivenNames t; refine OnlyRegs.cut (t := t) ?_ ?_ <;> [(unfold t; clear t); (intro v _ e; clear_value t; subst e; rename' v => w)])
    | (extract_lets +onlyGivenNames t; refine OnlyRegs.cut (t := t) ?_ ?_ <;> [(unfold t; clear t); (intro v _ e; subst v; rename' t => w)])
    | (extract_lets +onlyGivenNames t; refine OnlyRegs.cutFst (t := t) ?_ ?_ <;> [(unfold t; clear t); (intro v _ e; clear_value t; subst e; rename' v => w)])
    | (extract_lets +onlyGivenNames t; refine OnlyRegs.cutSnd (t := t) ?_ ?_ <;> [(unfold t; clear t); (intro v _ e; clear_value t; subst e; rename' v => w)])
    | (extract_lets +onlyGivenNames t; (have _h := fun x => t x); clear _h; unfold t; clear t)
    | (extract_lets +onlyGivenNames t; clear_value t; rename' t => w)
    | (extract_lets +onlyGivenNames t; rename' t => w)
    | with_reducible assumption
    | with_reducible exact OnlyRegs.refl _
    | ((conv => arg 2; arg 36; skip); refine OnlyRegs.tr ?_ (OnlyRegs.upd (l := []) rfl rfl) ?_)
    | (with_reducible apply OnlyRegs.tr; case k => with_reducible apply State.raise_regs)
    | (with_reducible apply OnlyRegs.tr; case k => with_reducible apply OnlyRegs.satAdd)
    | (with_reducible apply OnlyRegs.tr; case k => with_reducible apply OnlyRegs.ww)
    | with_reducible apply OnlyRegs.foldl
    | with_reducible apply OnlyRegs.foldlFst
    | with_reducible apply OnlyRegs.foldlSnd
    | split
    | dsimp only

theorem State.absorbOne_regs : ∀ s x1, OnlyRegs s (State.absorbOne s x1) [Sys2Proof.Machine.oCalLost, Sys2Proof.Machine.oCalOldest, Sys2Proof.Machine.oCalWrite, Sys2Proof.Machine.oIntStatus, Sys2Proof.Machine.oPba] := by
  intro s x1
  unfold State.absorbOne
  repeat' first
    | (show ∀ _ : Nat, _; exact offs_sub (by decide +kernel))
    | (show ¬ (_ ∈ _); decide +kernel)
    | (with_reducible intro _; beta_reduce)
    | ((conv => arg 2; arg 1; skip); with_reducible apply OnlyRegs.ite)
    | (extract_lets +onlyGivenNames t; refine OnlyRegs.cut (t := t) ?_ ?_ <;> [(unfold t; clear t); (intro v _ e; clear_value t; subst e; rename' v => w)])
    | (extract_lets +onlyGivenNames t; refine OnlyRegs.cut (t := t) ?_ ?_ <;> [(unfold t; clear t); (intro v _ e; subst v; rename' t => w)])
    | (extract_lets +onlyGivenNames t; refine OnlyRegs.cutFst (t := t) ?_ ?_ <;> [(unfold t; clear t); (intro v _ e; clear_value t; subst e; rename' v => w)])
    | (extract_lets +onlyGivenNames t; refine OnlyRegs.cutSnd (t := t) ?_ ?_ <;> [(unfold t; clear t); (intro v _ e; clear_value t; subst e; rename' v => w)])
    | (extract_lets +onlyGivenNames t; (have _h := fun x => t x); clear _h; unfold t; clear t)
    | (extract_lets +onlyGivenNames t; clear_value t; rename' t => w)
    | (extract_lets +onlyGivenNames t; rename' t => w)
    | with_reducible assumption
    | with_reducible exact OnlyRegs.refl _
    | ((conv => arg 2; arg 36; skip); refine OnlyRegs.tr ?_ (OnlyRegs.upd (l := []) rfl rfl) ?_)
    | (with_reducible apply OnlyRegs.tr; case k => with_reducible apply State.absorb_regs)
    | with_reducible apply OnlyRegs.foldl
    | with_reducible apply OnlyRegs.foldlFst
    | with_reducible apply OnlyRegs.foldlSnd
    | split
    | dsimp only

theorem State.drain_regs : ∀ s, OnlyRegs s (State.drain s) [Sys2Proof.Machine.oCalLost, Sys2Proof.Machine.oCalOldest, Sys2Proof.Machine.oCalWrite, Sys2Proof.Machine.oIntStatus, Sys2Proof.Machine.oPba] := by
  intro s
  unfold State.drain
  repeat' first
    | (show ∀ _ : Nat, _; exact offs_sub (by decide +kernel))
    | (show ¬ (_ ∈ _); decide +kernel)
    | (with_reducible intro _; beta_reduce)
    | ((conv => arg 2; arg 1; skip); with_reducible apply OnlyRegs.ite)
    | (extract_lets +onlyGivenNames t; refine OnlyRegs.cut (t := t) ?_ ?_ <;> [(unfold t; clear t); (intro v _ e; clear_value t; subst e; rename' v => w)])
    | (extract_lets +onlyGivenNames t; refine OnlyRegs.cut (t := t) ?_ ?_ <;> [(unfold t; clear t); (intro v _ e; subst v; rename' t => w)])
    | (extract_lets +onlyGivenNames t; refine OnlyRegs.cutFst (t := t) ?_ ?_ <;> [(unfold t; clear t); (intro v _ e; clear_value t; subst e; rename' v => w)])
    | (extract_lets +onlyGivenNames t; refine OnlyRegs.cutSnd (t := t) ?_ ?_ <;> [(unfold t; clear t); (intro v _ e; clear_value t; subst e; rename' v => w)])
    | (extract_lets +onlyGivenNames t; (have _h := fun x => t x); clear _h; unfold t; clear t)
    | (extract_lets +onlyGivenNames t; clear_value t; rename' t => w)
    | (extract_lets +onlyGivenNames t; rename' t => w)
    | with_reducible assumption
    | with_reducible exact OnlyRegs.refl _
    | ((conv => arg 2; arg 36; skip); refine OnlyRegs.tr ?_ (OnlyRegs.upd (l := []) rfl rfl) ?_)
    | (with_reducible apply OnlyRegs.tr; case k => with_reducible apply State.absorb_regs)
    | with_reducible apply OnlyRegs.foldl
    | with_reducible apply OnlyRegs.foldlFst
    | with_reducible apply OnlyRegs.foldlSnd
    | split
    | dsimp only

theorem State.stallCheck_regs : ∀ s, OnlyRegs s (State.stallCheck s) [Sys2Proof.Machine.oIntStatus, Sys2Proof.Machine.oMbxStatus, Sys2Proof.Machine.oPba] := by
  intro s
  unfold State.stallCheck
  repeat' first
    | (show ∀ _ : Nat, _; exact offs_sub (by decide +kernel))
    | (show ¬ (_ ∈ _); decide +kernel)
    | (with_reducible intro _; beta_reduce)
    | ((conv => arg 2; arg 1; skip); with_reducible apply OnlyRegs.ite)
    | (extract_lets +onlyGivenNames t; refine OnlyRegs.cut (t := t) ?_ ?_ <;> [(unfold t; clear t); (intro v _ e; clear_value t; subst e; rename' v => w)])
    | (extract_lets +onlyGivenNames t; refine OnlyRegs.cut (t := t) ?_ ?_ <;> [(unfold t; clear t); (intro v _ e; subst v; rename' t => w)])
    | (extract_lets +onlyGivenNames t; refine OnlyRegs.cutFst (t := t) ?_ ?_ <;> [(unfold t; clear t); (intro v _ e; clear_value t; subst e; rename' v => w)])
    | (extract_lets +onlyGivenNames t; refine OnlyRegs.cutSnd (t := t) ?_ ?_ <;> [(unfold t; clear t); (intro v _ e; clear_value t; subst e; rename' v => w)])
    | (extract_lets +onlyGivenNames t; (have _h := fun x => t x); clear _h; unfold t; clear t)
    | (extract_lets +onlyGivenNames t; clear_value t; rename' t => w)
    | (extract_lets +onlyGivenNames t; rename' t => w)
    | with_reducible assumption
    | with_reducible exact OnlyRegs.refl _
    | (with_reducible apply OnlyRegs.tr; case k => with_reducible apply State.raise_regs)
    | (with_reducible apply OnlyRegs.tr; case k => with_reducible apply OnlyRegs.wf)
    | with_reducible apply OnlyRegs.foldl
    | with_reducible apply OnlyRegs.foldlFst
    | with_reducible apply OnlyRegs.foldlSnd
    | split
    | dsimp only

theorem State.complete_regs : ∀ s x1 x2 x3 x4, OnlyRegs s (State.complete s x1 x2 x3 x4) [Sys2Proof.Machine.oIntStatus, Sys2Proof.Machine.oMbxStatus, Sys2Proof.Machine.oPba] := by
  intro s x1 x2 x3 x4
  unfold State.complete
  repeat' first
    | (show ∀ _ : Nat, _; exact offs_sub (by decide +kernel))
    | (show ¬ (_ ∈ _); decide +kernel)
    | (with_reducible intro _; beta_reduce)
    | ((conv => arg 2; arg 1; skip); with_reducible apply OnlyRegs.ite)
    | (extract_lets +onlyGivenNames t; refine OnlyRegs.cut (t := t) ?_ ?_ <;> [(unfold t; clear t); (intro v _ e; clear_value t; subst e; rename' v => w)])
    | (extract_lets +onlyGivenNames t; refine OnlyRegs.cut (t := t) ?_ ?_ <;> [(unfold t; clear t); (intro v _ e; subst v; rename' t => w)])
    | (extract_lets +onlyGivenNames t; refine OnlyRegs.cutFst (t := t) ?_ ?_ <;> [(unfold t; clear t); (intro v _ e; clear_value t; subst e; rename' v => w)])
    | (extract_lets +onlyGivenNames t; refine OnlyRegs.cutSnd (t := t) ?_ ?_ <;> [(unfold t; clear t); (intro v _ e; clear_value t; subst e; rename' v => w)])
    | (extract_lets +onlyGivenNames t; (have _h := fun x => t x); clear _h; unfold t; clear t)
    | (extract_lets +onlyGivenNames t; clear_value t; rename' t => w)
    | (extract_lets +onlyGivenNames t; rename' t => w)
    | with_reducible assumption
    | with_reducible exact OnlyRegs.refl _
    | ((conv => arg 2; arg 36; skip); refine OnlyRegs.tr ?_ (OnlyRegs.upd (l := []) rfl rfl) ?_)
    | (with_reducible apply OnlyRegs.tr; case k => with_reducible apply State.stallCheck_regs)
    | with_reducible apply OnlyRegs.foldl
    | with_reducible apply OnlyRegs.foldlFst
    | with_reducible apply OnlyRegs.foldlSnd
    | split
    | dsimp only

theorem State.done_regs : ∀ s x1 x2, OnlyRegs s (State.done s x1 x2) [Sys2Proof.Machine.oIntStatus, Sys2Proof.Machine.oMbxStatus, Sys2Proof.Machine.oPba] := by
  intro s x1 x2
  unfold State.done
  repeat' first
    | (show ∀ _ : Nat, _; exact offs_sub (by decide +kernel))
    | (show ¬ (_ ∈ _); decide +kernel)
    | (with_reducible intro _; beta_reduce)
    | ((conv => arg 2; arg 1; skip); with_reducible apply OnlyRegs.ite)
    | (extract_lets +onlyGivenNames t; refine OnlyRegs.cut (t := t) ?_ ?_ <;> [(unfold t; clear t); (intro v _ e; clear_value t; subst e; rename' v => w)])
    | (extract_lets +onlyGivenNames t; refine OnlyRegs.cut (t := t) ?_ ?_ <;> [(unfold t; clear t); (intro v _ e; subst v; rename' t => w)])
    | (extract_lets +onlyGivenNames t; refine OnlyRegs.cutFst (t := t) ?_ ?_ <;> [(unfold t; clear t); (intro v _ e; clear_value t; subst e; rename' v => w)])
    | (extract_lets +onlyGivenNames t; refine OnlyRegs.cutSnd (t := t) ?_ ?_ <;> [(unfold t; clear t); (intro v _ e; clear_value t; subst e; rename' v => w)])
    | (extract_lets +onlyGivenNames t; (have _h := fun x => t x); clear _h; unfold t; clear t)
    | (extract_lets +onlyGivenNames t; clear_value t; rename' t => w)
    | (extract_lets +onlyGivenNames t; rename' t => w)
    | with_reducible assumption
    | with_reducible exact OnlyRegs.refl _
    | (with_reducible apply OnlyRegs.tr; case k => with_reducible apply State.complete_regs)
    | with_reducible apply OnlyRegs.foldl
    | with_reducible apply OnlyRegs.foldlFst
    | with_reducible apply OnlyRegs.foldlSnd
    | split
    | dsimp only

theorem State.output_regs : ∀ s x1 x2 x3, OnlyRegs s (State.output s x1 x2 x3) [Sys2Proof.Machine.oIntStatus, Sys2Proof.Machine.oMbxStatus, Sys2Proof.Machine.oPba] := by
  intro s x1 x2 x3
  unfold State.output
  repeat' first
    | (show ∀ _ : Nat, _; exact offs_sub (by decide +kernel))
    | (show ¬ (_ ∈ _); decide +kernel)
    | (with_reducible intro _; beta_reduce)
    | ((conv => arg 2; arg 1; skip); with_reducible apply OnlyRegs.ite)
    | (extract_lets +onlyGivenNames t; refine OnlyRegs.cut (t := t) ?_ ?_ <;> [(unfold t; clear t); (intro v _ e; clear_value t; subst e; rename' v => w)])
    | (extract_lets +onlyGivenNames t; refine OnlyRegs.cut (t := t) ?_ ?_ <;> [(unfold t; clear t); (intro v _ e; subst v; rename' t => w)])
    | (extract_lets +onlyGivenNames t; refine OnlyRegs.cutFst (t := t) ?_ ?_ <;> [(unfold t; clear t); (intro v _ e; clear_value t; subst e; rename' v => w)])
    | (extract_lets +onlyGivenNames t; refine OnlyRegs.cutSnd (t := t) ?_ ?_ <;> [(unfold t; clear t); (intro v _ e; clear_value t; subst e; rename' v => w)])
    | (extract_lets +onlyGivenNames t; (have _h := fun x => t x); clear _h; unfold t; clear t)
    | (extract_lets +onlyGivenNames t; clear_value t; rename' t => w)
    | (extract_lets +onlyGivenNames t; rename' t => w)
    | with_reducible assumption
    | with_reducible exact OnlyRegs.refl _
    | (with_reducible apply OnlyRegs.tr; case k => with_reducible apply State.complete_regs)
    | (with_reducible apply OnlyRegs.keep; case k => with_reducible apply State.hostPut_touches)
    | with_reducible apply OnlyRegs.foldl
    | with_reducible apply OnlyRegs.foldlFst
    | with_reducible apply OnlyRegs.foldlSnd
    | split
    | dsimp only

theorem State.doneTag_regs : ∀ s x1 x2, OnlyRegs s (State.doneTag s x1 x2) [Sys2Proof.Machine.oIntStatus, Sys2Proof.Machine.oMbxStatus, Sys2Proof.Machine.oPba] := by
  intro s x1 x2
  unfold State.doneTag
  repeat' first
    | (show ∀ _ : Nat, _; exact offs_sub (by decide +kernel))
    | (show ¬ (_ ∈ _); decide +kernel)
    | (with_reducible intro _; beta_reduce)
    | ((conv => arg 2; arg 1; skip); with_reducible apply OnlyRegs.ite)
    | (extract_lets +onlyGivenNames t; refine OnlyRegs.cut (t := t) ?_ ?_ <;> [(unfold t; clear t); (intro v _ e; clear_value t; subst e; rename' v => w)])
    | (extract_lets +onlyGivenNames t; refine OnlyRegs.cut (t := t) ?_ ?_ <;> [(unfold t; clear t); (intro v _ e; subst v; rename' t => w)])
    | (extract_lets +onlyGivenNames t; refine OnlyRegs.cutFst (t := t) ?_ ?_ <;> [(unfold t; clear t); (intro v _ e; clear_value t; subst e; rename' v => w)])
    | (extract_lets +onlyGivenNames t; refine OnlyRegs.cutSnd (t := t) ?_ ?_ <;> [(unfold t; clear t); (intro v _ e; clear_value t; subst e; rename' v => w)])
    | (extract_lets +onlyGivenNames t; (have _h := fun x => t x); clear _h; unfold t; clear t)
    | (extract_lets +onlyGivenNames t; clear_value t; rename' t => w)
    | (extract_lets +onlyGivenNames t; rename' t => w)
    | with_reducible assumption
    | with_reducible exact OnlyRegs.refl _
    | (with_reducible apply OnlyRegs.tr; case k => with_reducible apply State.done_regs)
    | with_reducible apply OnlyRegs.foldl
    | with_reducible apply OnlyRegs.foldlFst
    | with_reducible apply OnlyRegs.foldlSnd
    | split
    | dsimp only

theorem withCmd_regs {l : List Nat} (s : State) (x1 : BitVec 32) (x2 : ℕ) (x3 : State → Taken → State) (hf : ∀ a0 s, OnlyRegs s (x3 s a0) l) (hsub : ∀ p ∈ [Sys2Proof.Machine.oIntStatus, Sys2Proof.Machine.oMbxStatus, Sys2Proof.Machine.oPba], p ∈ l) : OnlyRegsX s (withCmd s x1 x2 x3) l := by
  unfold withCmd
  repeat' first
    | exact hsub
    | (show ∀ _ : Nat, _; intro p hp; apply hsub; revert p hp; exact offs_sub (by decide +kernel))
    | (show ∀ _ : Nat, _; exact offs_sub (by decide +kernel))
    | (show ¬ (_ ∈ _); decide +kernel)
    | (with_reducible intro _; beta_reduce)
    | ((conv => arg 2; arg 1; skip); with_reducible apply OnlyRegs.ite)
    | ((conv => arg 2; arg 1; skip); with_reducible apply OnlyRegsX.ite)
    | (extract_lets +onlyGivenNames t; refine OnlyRegs.cut (t := t) ?_ ?_ <;> [(unfold t; clear t); (intro v _ e; clear_value t; subst e; rename' v => w)])
    | (extract_lets +onlyGivenNames t; refine OnlyRegs.cut (t := t) ?_ ?_ <;> [(unfold t; clear t); (intro v _ e; subst v; rename' t => w)])
    | (extract_lets +onlyGivenNames t; refine OnlyRegs.cutFst (t := t) ?_ ?_ <;> [(unfold t; clear t); (intro v _ e; clear_value t; subst e; rename' v => w)])
    | (extract_lets +onlyGivenNames t; refine OnlyRegs.cutSnd (t := t) ?_ ?_ <;> [(unfold t; clear t); (intro v _ e; clear_value t; subst e; rename' v => w)])
    | (extract_lets +onlyGivenNames t; refine OnlyRegsX.cut (t := t) ?_ ?_ <;> [(unfold t; clear t); (intro v _ e; clear_value t; subst e; rename' v => w)])
    | (extract_lets +onlyGivenNames t; refine OnlyRegsX.cut (t := t) ?_ ?_ <;> [(unfold t; clear t); (intro v _ e; subst v; rename' t => w)])
    | (extract_lets +onlyGivenNames t; refine OnlyRegsX.cutFst (t := t) ?_ ?_ <;> [(unfold t; clear t); (intro v _ e; clear_value t; subst e; rename' v => w)])
    | (extract_lets +onlyGivenNames t; refine OnlyRegsX.cutSnd (t := t) ?_ ?_ <;> [(unfold t; clear t); (intro v _ e; clear_value t; subst e; rename' v => w)])
    | (extract_lets +onlyGivenNames t; (have _h := fun x => t x); clear _h; unfold t; clear t)
    | (extract_lets +onlyGivenNames t; clear_value t; rename' t => w)
    | (extract_lets +onlyGivenNames t; rename' t => w)
    | with_reducible assumption
    | with_reducible exact OnlyRegs.refl _
    | with_reducible exact OnlyRegsX.fault
    | with_reducible apply OnlyRegsX.go
    | (with_reducible apply OnlyRegs.tr; case k => with_reducible apply hf)
    | exact fun _ h => h
    | (with_reducible apply OnlyRegs.tr; case k => with_reducible apply State.done_regs)
    | (with_reducible apply OnlyRegs.keep; case k => with_reducible apply State.start_touches)
    | (with_reducible apply OnlyRegsX.tr; case k => exact fun u e => OnlyRegs.of (go_touches .. u e) (by decide))
    | with_reducible apply OnlyRegs.foldl
    | with_reducible apply OnlyRegs.foldlFst
    | with_reducible apply OnlyRegs.foldlSnd
    | split
    | dsimp only

theorem tick_regs : ∀ s, OnlyRegs s (tick s) [Sys2Proof.Machine.oTimeNow] := by
  intro s
  unfold tick
  repeat' first
    | (show ∀ _ : Nat, _; exact offs_sub (by decide +kernel))
    | (show ¬ (_ ∈ _); decide +kernel)
    | (with_reducible intro _; beta_reduce)
    | ((conv => arg 2; arg 1; skip); with_reducible apply OnlyRegs.ite)
    | (extract_lets +onlyGivenNames t; refine OnlyRegs.cut (t := t) ?_ ?_ <;> [(unfold t; clear t); (intro v _ e; clear_value t; subst e; rename' v => w)])
    | (extract_lets +onlyGivenNames t; refine OnlyRegs.cut (t := t) ?_ ?_ <;> [(unfold t; clear t); (intro v _ e; subst v; rename' t => w)])
    | (extract_lets +onlyGivenNames t; refine OnlyRegs.cutFst (t := t) ?_ ?_ <;> [(unfold t; clear t); (intro v _ e; clear_value t; subst e; rename' v => w)])
    | (extract_lets +onlyGivenNames t; refine OnlyRegs.cutSnd (t := t) ?_ ?_ <;> [(unfold t; clear t); (intro v _ e; clear_value t; subst e; rename' v => w)])
    | (extract_lets +onlyGivenNames t; (have _h := fun x => t x); clear _h; unfold t; clear t)
    | (extract_lets +onlyGivenNames t; clear_value t; rename' t => w)
    | (extract_lets +onlyGivenNames t; rename' t => w)
    | with_reducible assumption
    | with_reducible exact OnlyRegs.refl _
    | ((conv => arg 2; arg 36; skip); refine OnlyRegs.tr ?_ (OnlyRegs.upd (l := []) rfl rfl) ?_)
    | (with_reducible apply OnlyRegs.tr; case k => with_reducible apply OnlyRegs.ww)
    | with_reducible apply OnlyRegs.foldl
    | with_reducible apply OnlyRegs.foldlFst
    | with_reducible apply OnlyRegs.foldlSnd
    | split
    | dsimp only

end Sys2Proof.Machine
end

