-- ==== Sys2Proof/Laws/TouchFrames.lean ====
section
/-!
SUPPORT. What the functions of Machine/Frames.lean may touch.
-/

set_option linter.all false
set_option Elab.async false
set_option linter.unreachableTactic false
set_option linter.unusedTactic false
set_option linter.tactic.unusedName false

namespace Sys2Proof.Machine

theorem State.frameRec_touches : ∀ s x1 x2 x3 x4 x5, Touches [.regs, .cal] s (State.frameRec s x1 x2 x3 x4 x5) := by
  intro s x1 x2 x3 x4 x5
  unfold State.frameRec
  repeat' first
    | (show ∀ _ : Part, _; exact Part.sub (by decide +kernel))
    | (with_reducible intro _; beta_reduce)
    | ((conv => arg 3; arg 1; skip); with_reducible apply Touches.ite)
    | (extract_lets +onlyGivenNames t; refine Touches.cut (t := t) ?_ ?_ <;> [(unfold t; clear t); (intro v _ e; clear_value t; subst e; rename' v => w)])
    | (extract_lets +onlyGivenNames t; refine Touches.cut (t := t) ?_ ?_ <;> [(unfold t; clear t); (intro v _ e; subst v; rename' t => w)])
    | (extract_lets +onlyGivenNames t; refine Touches.cutFst (t := t) ?_ ?_ <;> [(unfold t; clear t); (intro v _ e; clear_value t; subst e; rename' v => w)])
    | (extract_lets +onlyGivenNames t; refine Touches.cutSnd (t := t) ?_ ?_ <;> [(unfold t; clear t); (intro v _ e; clear_value t; subst e; rename' v => w)])
    | (extract_lets +onlyGivenNames t; (have _h := fun x => t x); clear _h; unfold t; clear t)
    | (extract_lets +onlyGivenNames t; clear_value t; rename' t => w)
    | (extract_lets +onlyGivenNames t; rename' t => w)
    | with_reducible assumption
    | with_reducible exact Touches.refl _
    | (with_reducible apply Touches.trans; case k => with_reducible apply State.post_touches)
    | with_reducible apply Touches.foldl
    | with_reducible apply Touches.foldlFst
    | with_reducible apply Touches.foldlSnd
    | split
    | dsimp only

theorem State.setSport_touches : ∀ s x1 x2, Touches [.fabric] s (State.setSport s x1 x2) := by
  intro s x1 x2
  unfold State.setSport
  repeat' first
    | (show ∀ _ : Part, _; exact Part.sub (by decide +kernel))
    | (with_reducible intro _; beta_reduce)
    | ((conv => arg 3; arg 1; skip); with_reducible apply Touches.ite)
    | (extract_lets +onlyGivenNames t; refine Touches.cut (t := t) ?_ ?_ <;> [(unfold t; clear t); (intro v _ e; clear_value t; subst e; rename' v => w)])
    | (extract_lets +onlyGivenNames t; refine Touches.cut (t := t) ?_ ?_ <;> [(unfold t; clear t); (intro v _ e; subst v; rename' t => w)])
    | (extract_lets +onlyGivenNames t; refine Touches.cutFst (t := t) ?_ ?_ <;> [(unfold t; clear t); (intro v _ e; clear_value t; subst e; rename' v => w)])
    | (extract_lets +onlyGivenNames t; refine Touches.cutSnd (t := t) ?_ ?_ <;> [(unfold t; clear t); (intro v _ e; clear_value t; subst e; rename' v => w)])
    | (extract_lets +onlyGivenNames t; (have _h := fun x => t x); clear _h; unfold t; clear t)
    | (extract_lets +onlyGivenNames t; clear_value t; rename' t => w)
    | (extract_lets +onlyGivenNames t; rename' t => w)
    | with_reducible assumption
    | with_reducible exact Touches.refl _
    | ((conv => arg 3; arg 36; skip); refine Touches.trans ?_ (Touches.upd (l := [.fabric]) rfl) ?_)
    | with_reducible apply Touches.foldl
    | with_reducible apply Touches.foldlFst
    | with_reducible apply Touches.foldlSnd
    | split
    | dsimp only

theorem State.discardAt_touches : ∀ s x1, Touches [.regs] s (State.discardAt s x1) := by
  intro s x1
  unfold State.discardAt
  repeat' first
    | (show ∀ _ : Part, _; exact Part.sub (by decide +kernel))
    | (with_reducible intro _; beta_reduce)
    | ((conv => arg 3; arg 1; skip); with_reducible apply Touches.ite)
    | (extract_lets +onlyGivenNames t; refine Touches.cut (t := t) ?_ ?_ <;> [(unfold t; clear t); (intro v _ e; clear_value t; subst e; rename' v => w)])
    | (extract_lets +onlyGivenNames t; refine Touches.cut (t := t) ?_ ?_ <;> [(unfold t; clear t); (intro v _ e; subst v; rename' t => w)])
    | (extract_lets +onlyGivenNames t; refine Touches.cutFst (t := t) ?_ ?_ <;> [(unfold t; clear t); (intro v _ e; clear_value t; subst e; rename' v => w)])
    | (extract_lets +onlyGivenNames t; refine Touches.cutSnd (t := t) ?_ ?_ <;> [(unfold t; clear t); (intro v _ e; clear_value t; subst e; rename' v => w)])
    | (extract_lets +onlyGivenNames t; (have _h := fun x => t x); clear _h; unfold t; clear t)
    | (extract_lets +onlyGivenNames t; clear_value t; rename' t => w)
    | (extract_lets +onlyGivenNames t; rename' t => w)
    | with_reducible assumption
    | with_reducible exact Touches.refl _
    | (with_reducible apply Touches.trans; case k => with_reducible apply State.satAdd_touches)
    | with_reducible apply Touches.foldl
    | with_reducible apply Touches.foldlFst
    | with_reducible apply Touches.foldlSnd
    | split
    | dsimp only

theorem State.portsCarry_touches : ∀ s, Touches [.fabric] s (State.portsCarry s) := by
  intro s
  unfold State.portsCarry
  repeat' first
    | (show ∀ _ : Part, _; exact Part.sub (by decide +kernel))
    | (with_reducible intro _; beta_reduce)
    | ((conv => arg 3; arg 1; skip); with_reducible apply Touches.ite)
    | (extract_lets +onlyGivenNames t; refine Touches.cut (t := t) ?_ ?_ <;> [(unfold t; clear t); (intro v _ e; clear_value t; subst e; rename' v => w)])
    | (extract_lets +onlyGivenNames t; refine Touches.cut (t := t) ?_ ?_ <;> [(unfold t; clear t); (intro v _ e; subst v; rename' t => w)])
    | (extract_lets +onlyGivenNames t; refine Touches.cutFst (t := t) ?_ ?_ <;> [(unfold t; clear t); (intro v _ e; clear_value t; subst e; rename' v => w)])
    | (extract_lets +onlyGivenNames t; refine Touches.cutSnd (t := t) ?_ ?_ <;> [(unfold t; clear t); (intro v _ e; clear_value t; subst e; rename' v => w)])
    | (extract_lets +onlyGivenNames t; (have _h := fun x => t x); clear _h; unfold t; clear t)
    | (extract_lets +onlyGivenNames t; clear_value t; rename' t => w)
    | (extract_lets +onlyGivenNames t; rename' t => w)
    | with_reducible assumption
    | with_reducible exact Touches.refl _
    | ((conv => arg 3; arg 36; skip); refine Touches.trans ?_ (Touches.upd (l := [.fabric]) rfl) ?_)
    | with_reducible apply Touches.foldl
    | with_reducible apply Touches.foldlFst
    | with_reducible apply Touches.foldlSnd
    | split
    | dsimp only

theorem State.oweCredits_touches : ∀ s x1 x2, Touches [.fabric] s (State.oweCredits s x1 x2) := by
  intro s x1 x2
  unfold State.oweCredits
  repeat' first
    | (show ∀ _ : Part, _; exact Part.sub (by decide +kernel))
    | (with_reducible intro _; beta_reduce)
    | ((conv => arg 3; arg 1; skip); with_reducible apply Touches.ite)
    | (extract_lets +onlyGivenNames t; refine Touches.cut (t := t) ?_ ?_ <;> [(unfold t; clear t); (intro v _ e; clear_value t; subst e; rename' v => w)])
    | (extract_lets +onlyGivenNames t; refine Touches.cut (t := t) ?_ ?_ <;> [(unfold t; clear t); (intro v _ e; subst v; rename' t => w)])
    | (extract_lets +onlyGivenNames t; refine Touches.cutFst (t := t) ?_ ?_ <;> [(unfold t; clear t); (intro v _ e; clear_value t; subst e; rename' v => w)])
    | (extract_lets +onlyGivenNames t; refine Touches.cutSnd (t := t) ?_ ?_ <;> [(unfold t; clear t); (intro v _ e; clear_value t; subst e; rename' v => w)])
    | (extract_lets +onlyGivenNames t; (have _h := fun x => t x); clear _h; unfold t; clear t)
    | (extract_lets +onlyGivenNames t; clear_value t; rename' t => w)
    | (extract_lets +onlyGivenNames t; rename' t => w)
    | with_reducible assumption
    | with_reducible exact Touches.refl _
    | (with_reducible apply Touches.trans; case k => with_reducible apply State.setSport_touches)
    | with_reducible apply Touches.foldl
    | with_reducible apply Touches.foldlFst
    | with_reducible apply Touches.foldlSnd
    | split
    | dsimp only

theorem State.pumpPort_touches : ∀ s x1 x2, Touches [.fabric, .out] s (State.pumpPort s x1 x2) := by
  intro s x1 x2
  induction x2 generalizing s x1
  case zero =>
    unfold State.pumpPort
    repeat' first
      | (show ∀ _ : Part, _; exact Part.sub (by decide +kernel))
      | (with_reducible intro _; beta_reduce)
      | ((conv => arg 3; arg 1; skip); with_reducible apply Touches.ite)
      | (extract_lets +onlyGivenNames t; refine Touches.cut (t := t) ?_ ?_ <;> [(unfold t; clear t); (intro v _ e; clear_value t; subst e; rename' v => w)])
      | (extract_lets +onlyGivenNames t; refine Touches.cut (t := t) ?_ ?_ <;> [(unfold t; clear t); (intro v _ e; subst v; rename' t => w)])
      | (extract_lets +onlyGivenNames t; refine Touches.cutFst (t := t) ?_ ?_ <;> [(unfold t; clear t); (intro v _ e; clear_value t; subst e; rename' v => w)])
      | (extract_lets +onlyGivenNames t; refine Touches.cutSnd (t := t) ?_ ?_ <;> [(unfold t; clear t); (intro v _ e; clear_value t; subst e; rename' v => w)])
      | (extract_lets +onlyGivenNames t; (have _h := fun x => t x); clear _h; unfold t; clear t)
      | (extract_lets +onlyGivenNames t; clear_value t; rename' t => w)
      | (extract_lets +onlyGivenNames t; rename' t => w)
      | with_reducible assumption
      | with_reducible exact Touches.refl _
      | (with_reducible apply Touches.trans; case k => with_reducible apply State.emit_touches)
      | (with_reducible apply Touches.trans; case k => with_reducible apply State.oweCredits_touches)
      | (with_reducible apply Touches.trans; case k => with_reducible apply State.setSport_touches)
      | with_reducible apply Touches.foldl
      | with_reducible apply Touches.foldlFst
      | with_reducible apply Touches.foldlSnd
      | split
      | dsimp only
  case succ n ih =>
    unfold State.pumpPort
    repeat' first
      | (show ∀ _ : Part, _; exact Part.sub (by decide +kernel))
      | (with_reducible intro _; beta_reduce)
      | ((conv => arg 3; arg 1; skip); with_reducible apply Touches.ite)
      | (extract_lets +onlyGivenNames t; refine Touches.cut (t := t) ?_ ?_ <;> [(unfold t; clear t); (intro v _ e; clear_value t; subst e; rename' v => w)])
      | (extract_lets +onlyGivenNames t; refine Touches.cut (t := t) ?_ ?_ <;> [(unfold t; clear t); (intro v _ e; subst v; rename' t => w)])
      | (extract_lets +onlyGivenNames t; refine Touches.cutFst (t := t) ?_ ?_ <;> [(unfold t; clear t); (intro v _ e; clear_value t; subst e; rename' v => w)])
      | (extract_lets +onlyGivenNames t; refine Touches.cutSnd (t := t) ?_ ?_ <;> [(unfold t; clear t); (intro v _ e; clear_value t; subst e; rename' v => w)])
      | (extract_lets +onlyGivenNames t; (have _h := fun x => t x); clear _h; unfold t; clear t)
      | (extract_lets +onlyGivenNames t; clear_value t; rename' t => w)
      | (extract_lets +onlyGivenNames t; rename' t => w)
      | with_reducible assumption
      | with_reducible exact Touches.refl _
      | (with_reducible apply Touches.trans; case k => with_reducible apply ih)
      | (with_reducible apply Touches.trans; case k => with_reducible apply State.emit_touches)
      | (with_reducible apply Touches.trans; case k => with_reducible apply State.oweCredits_touches)
      | (with_reducible apply Touches.trans; case k => with_reducible apply State.setSport_touches)
      | with_reducible apply Touches.foldl
      | with_reducible apply Touches.foldlFst
      | with_reducible apply Touches.foldlSnd
      | split
      | dsimp only

theorem State.toPort_touches : ∀ s x1 x2 x3 x4, Touches [.fabric, .out] s (State.toPort s x1 x2 x3 x4) := by
  intro s x1 x2 x3 x4
  unfold State.toPort
  repeat' first
    | (show ∀ _ : Part, _; exact Part.sub (by decide +kernel))
    | (with_reducible intro _; beta_reduce)
    | ((conv => arg 3; arg 1; skip); with_reducible apply Touches.ite)
    | (extract_lets +onlyGivenNames t; refine Touches.cut (t := t) ?_ ?_ <;> [(unfold t; clear t); (intro v _ e; clear_value t; subst e; rename' v => w)])
    | (extract_lets +onlyGivenNames t; refine Touches.cut (t := t) ?_ ?_ <;> [(unfold t; clear t); (intro v _ e; subst v; rename' t => w)])
    | (extract_lets +onlyGivenNames t; refine Touches.cutFst (t := t) ?_ ?_ <;> [(unfold t; clear t); (intro v _ e; clear_value t; subst e; rename' v => w)])
    | (extract_lets +onlyGivenNames t; refine Touches.cutSnd (t := t) ?_ ?_ <;> [(unfold t; clear t); (intro v _ e; clear_value t; subst e; rename' v => w)])
    | (extract_lets +onlyGivenNames t; (have _h := fun x => t x); clear _h; unfold t; clear t)
    | (extract_lets +onlyGivenNames t; clear_value t; rename' t => w)
    | (extract_lets +onlyGivenNames t; rename' t => w)
    | with_reducible assumption
    | with_reducible exact Touches.refl _
    | (with_reducible apply Touches.trans; case k => with_reducible apply State.pumpPort_touches)
    | (with_reducible apply Touches.trans; case k => with_reducible apply State.setSport_touches)
    | with_reducible apply Touches.foldl
    | with_reducible apply Touches.foldlFst
    | with_reducible apply Touches.foldlSnd
    | split
    | dsimp only

theorem State.launch_touches : ∀ s x1, Touches [.regs, .fabric, .cal, .out] s (State.launch s x1) := by
  intro s x1
  unfold State.launch
  repeat' first
    | (show ∀ _ : Part, _; exact Part.sub (by decide +kernel))
    | (with_reducible intro _; beta_reduce)
    | ((conv => arg 3; arg 1; skip); with_reducible apply Touches.ite)
    | (extract_lets +onlyGivenNames t; refine Touches.cut (t := t) ?_ ?_ <;> [(unfold t; clear t); (intro v _ e; clear_value t; subst e; rename' v => w)])
    | (extract_lets +onlyGivenNames t; refine Touches.cut (t := t) ?_ ?_ <;> [(unfold t; clear t); (intro v _ e; subst v; rename' t => w)])
    | (extract_lets +onlyGivenNames t; refine Touches.cutFst (t := t) ?_ ?_ <;> [(unfold t; clear t); (intro v _ e; clear_value t; subst e; rename' v => w)])
    | (extract_lets +onlyGivenNames t; refine Touches.cutSnd (t := t) ?_ ?_ <;> [(unfold t; clear t); (intro v _ e; clear_value t; subst e; rename' v => w)])
    | (extract_lets +onlyGivenNames t; (have _h := fun x => t x); clear _h; unfold t; clear t)
    | (extract_lets +onlyGivenNames t; clear_value t; rename' t => w)
    | (extract_lets +onlyGivenNames t; rename' t => w)
    | with_reducible assumption
    | with_reducible exact Touches.refl _
    | ((conv => arg 3; arg 36; skip); refine Touches.trans ?_ (Touches.upd (l := [.fabric]) rfl) ?_)
    | (with_reducible apply Touches.trans; case k => with_reducible apply State.discardAt_touches)
    | (with_reducible apply Touches.trans; case k => with_reducible apply State.frameRec_touches)
    | (with_reducible apply Touches.trans; case k => with_reducible apply State.toPort_touches)
    | with_reducible apply Touches.foldl
    | with_reducible apply Touches.foldlFst
    | with_reducible apply Touches.foldlSnd
    | split
    | dsimp only

theorem State.setTx_touches : ∀ s x1, Touches [.fabric] s (State.setTx s x1) := by
  intro s x1
  unfold State.setTx
  repeat' first
    | (show ∀ _ : Part, _; exact Part.sub (by decide +kernel))
    | (with_reducible intro _; beta_reduce)
    | ((conv => arg 3; arg 1; skip); with_reducible apply Touches.ite)
    | (extract_lets +onlyGivenNames t; refine Touches.cut (t := t) ?_ ?_ <;> [(unfold t; clear t); (intro v _ e; clear_value t; subst e; rename' v => w)])
    | (extract_lets +onlyGivenNames t; refine Touches.cut (t := t) ?_ ?_ <;> [(unfold t; clear t); (intro v _ e; subst v; rename' t => w)])
    | (extract_lets +onlyGivenNames t; refine Touches.cutFst (t := t) ?_ ?_ <;> [(unfold t; clear t); (intro v _ e; clear_value t; subst e; rename' v => w)])
    | (extract_lets +onlyGivenNames t; refine Touches.cutSnd (t := t) ?_ ?_ <;> [(unfold t; clear t); (intro v _ e; clear_value t; subst e; rename' v => w)])
    | (extract_lets +onlyGivenNames t; (have _h := fun x => t x); clear _h; unfold t; clear t)
    | (extract_lets +onlyGivenNames t; clear_value t; rename' t => w)
    | (extract_lets +onlyGivenNames t; rename' t => w)
    | with_reducible assumption
    | with_reducible exact Touches.refl _
    | ((conv => arg 3; arg 36; skip); refine Touches.trans ?_ (Touches.upd (l := [.fabric]) rfl) ?_)
    | with_reducible apply Touches.foldl
    | with_reducible apply Touches.foldlFst
    | with_reducible apply Touches.foldlSnd
    | split
    | dsimp only

theorem State.streamOut_touches : ∀ s x1 x2 x3 x4 x5 x6 x7, Touches [.regs, .fabric, .cal, .out] s (State.streamOut s x1 x2 x3 x4 x5 x6 x7) := by
  intro s x1 x2 x3 x4 x5 x6 x7
  unfold State.streamOut
  repeat' first
    | (show ∀ _ : Part, _; exact Part.sub (by decide +kernel))
    | (with_reducible intro _; beta_reduce)
    | ((conv => arg 3; arg 1; skip); with_reducible apply Touches.ite)
    | (extract_lets +onlyGivenNames t; refine Touches.cut (t := t) ?_ ?_ <;> [(unfold t; clear t); (intro v _ e; clear_value t; subst e; rename' v => w)])
    | (extract_lets +onlyGivenNames t; refine Touches.cut (t := t) ?_ ?_ <;> [(unfold t; clear t); (intro v _ e; subst v; rename' t => w)])
    | (extract_lets +onlyGivenNames t; refine Touches.cutFst (t := t) ?_ ?_ <;> [(unfold t; clear t); (intro v _ e; clear_value t; subst e; rename' v => w)])
    | (extract_lets +onlyGivenNames t; refine Touches.cutSnd (t := t) ?_ ?_ <;> [(unfold t; clear t); (intro v _ e; clear_value t; subst e; rename' v => w)])
    | (extract_lets +onlyGivenNames t; (have _h := fun x => t x); clear _h; unfold t; clear t)
    | (extract_lets +onlyGivenNames t; clear_value t; rename' t => w)
    | (extract_lets +onlyGivenNames t; rename' t => w)
    | with_reducible assumption
    | with_reducible exact Touches.refl _
    | (with_reducible apply Touches.trans; case k => with_reducible apply State.launch_touches)
    | (with_reducible apply Touches.trans; case k => with_reducible apply State.setTx_touches)
    | with_reducible apply Touches.foldl
    | with_reducible apply Touches.foldlFst
    | with_reducible apply Touches.foldlSnd
    | split
    | dsimp only

theorem State.dropQueued_touches : ∀ s x1 x2, Touches [.fabric] s (State.dropQueued s x1 x2) := by
  intro s x1 x2
  unfold State.dropQueued
  repeat' first
    | (show ∀ _ : Part, _; exact Part.sub (by decide +kernel))
    | (with_reducible intro _; beta_reduce)
    | ((conv => arg 3; arg 1; skip); with_reducible apply Touches.ite)
    | (extract_lets +onlyGivenNames t; refine Touches.cut (t := t) ?_ ?_ <;> [(unfold t; clear t); (intro v _ e; clear_value t; subst e; rename' v => w)])
    | (extract_lets +onlyGivenNames t; refine Touches.cut (t := t) ?_ ?_ <;> [(unfold t; clear t); (intro v _ e; subst v; rename' t => w)])
    | (extract_lets +onlyGivenNames t; refine Touches.cutFst (t := t) ?_ ?_ <;> [(unfold t; clear t); (intro v _ e; clear_value t; subst e; rename' v => w)])
    | (extract_lets +onlyGivenNames t; refine Touches.cutSnd (t := t) ?_ ?_ <;> [(unfold t; clear t); (intro v _ e; clear_value t; subst e; rename' v => w)])
    | (extract_lets +onlyGivenNames t; (have _h := fun x => t x); clear _h; unfold t; clear t)
    | (extract_lets +onlyGivenNames t; clear_value t; rename' t => w)
    | (extract_lets +onlyGivenNames t; rename' t => w)
    | with_reducible assumption
    | with_reducible exact Touches.refl _
    | (with_reducible apply Touches.trans; case k => with_reducible apply State.oweCredits_touches)
    | (with_reducible apply Touches.trans; case k => with_reducible apply State.setSport_touches)
    | with_reducible apply Touches.foldl
    | with_reducible apply Touches.foldlFst
    | with_reducible apply Touches.foldlSnd
    | split
    | dsimp only

theorem State.rewindFrames_touches : ∀ s, Touches [.fabric] s (State.rewindFrames s) := by
  intro s
  unfold State.rewindFrames
  repeat' first
    | (show ∀ _ : Part, _; exact Part.sub (by decide +kernel))
    | (with_reducible intro _; beta_reduce)
    | ((conv => arg 3; arg 1; skip); with_reducible apply Touches.ite)
    | (extract_lets +onlyGivenNames t; refine Touches.cut (t := t) ?_ ?_ <;> [(unfold t; clear t); (intro v _ e; clear_value t; subst e; rename' v => w)])
    | (extract_lets +onlyGivenNames t; refine Touches.cut (t := t) ?_ ?_ <;> [(unfold t; clear t); (intro v _ e; subst v; rename' t => w)])
    | (extract_lets +onlyGivenNames t; refine Touches.cutFst (t := t) ?_ ?_ <;> [(unfold t; clear t); (intro v _ e; clear_value t; subst e; rename' v => w)])
    | (extract_lets +onlyGivenNames t; refine Touches.cutSnd (t := t) ?_ ?_ <;> [(unfold t; clear t); (intro v _ e; clear_value t; subst e; rename' v => w)])
    | (extract_lets +onlyGivenNames t; (have _h := fun x => t x); clear _h; unfold t; clear t)
    | (extract_lets +onlyGivenNames t; clear_value t; rename' t => w)
    | (extract_lets +onlyGivenNames t; rename' t => w)
    | with_reducible assumption
    | with_reducible exact Touches.refl _
    | ((conv => arg 3; arg 36; skip); refine Touches.trans ?_ (Touches.upd (l := [.fabric]) rfl) ?_)
    | (with_reducible apply Touches.trans; case k => with_reducible apply State.dropQueued_touches)
    | with_reducible apply Touches.foldl
    | with_reducible apply Touches.foldlFst
    | with_reducible apply Touches.foldlSnd
    | split
    | dsimp only

theorem State.tell_touches : ∀ s x1 x2, Touches [.regs, .fabric, .cal, .out] s (State.tell s x1 x2) := by
  intro s x1 x2
  unfold State.tell
  repeat' first
    | (show ∀ _ : Part, _; exact Part.sub (by decide +kernel))
    | (with_reducible intro _; beta_reduce)
    | ((conv => arg 3; arg 1; skip); with_reducible apply Touches.ite)
    | (extract_lets +onlyGivenNames t; refine Touches.cut (t := t) ?_ ?_ <;> [(unfold t; clear t); (intro v _ e; clear_value t; subst e; rename' v => w)])
    | (extract_lets +onlyGivenNames t; refine Touches.cut (t := t) ?_ ?_ <;> [(unfold t; clear t); (intro v _ e; subst v; rename' t => w)])
    | (extract_lets +onlyGivenNames t; refine Touches.cutFst (t := t) ?_ ?_ <;> [(unfold t; clear t); (intro v _ e; clear_value t; subst e; rename' v => w)])
    | (extract_lets +onlyGivenNames t; refine Touches.cutSnd (t := t) ?_ ?_ <;> [(unfold t; clear t); (intro v _ e; clear_value t; subst e; rename' v => w)])
    | (extract_lets +onlyGivenNames t; (have _h := fun x => t x); clear _h; unfold t; clear t)
    | (extract_lets +onlyGivenNames t; clear_value t; rename' t => w)
    | (extract_lets +onlyGivenNames t; rename' t => w)
    | with_reducible assumption
    | with_reducible exact Touches.refl _
    | (with_reducible apply Touches.trans; case k => with_reducible apply State.send_touches)
    | (with_reducible apply Touches.trans; case k => with_reducible apply State.streamOut_touches)
    | with_reducible apply Touches.foldl
    | with_reducible apply Touches.foldlFst
    | with_reducible apply Touches.foldlSnd
    | split
    | dsimp only

theorem State.tellGroup_touches : ∀ s x1, Touches [.regs, .fabric, .cal, .out] s (State.tellGroup s x1) := by
  intro s x1
  unfold State.tellGroup
  repeat' first
    | (show ∀ _ : Part, _; exact Part.sub (by decide +kernel))
    | (with_reducible intro _; beta_reduce)
    | ((conv => arg 3; arg 1; skip); with_reducible apply Touches.ite)
    | (extract_lets +onlyGivenNames t; refine Touches.cut (t := t) ?_ ?_ <;> [(unfold t; clear t); (intro v _ e; clear_value t; subst e; rename' v => w)])
    | (extract_lets +onlyGivenNames t; refine Touches.cut (t := t) ?_ ?_ <;> [(unfold t; clear t); (intro v _ e; subst v; rename' t => w)])
    | (extract_lets +onlyGivenNames t; refine Touches.cutFst (t := t) ?_ ?_ <;> [(unfold t; clear t); (intro v _ e; clear_value t; subst e; rename' v => w)])
    | (extract_lets +onlyGivenNames t; refine Touches.cutSnd (t := t) ?_ ?_ <;> [(unfold t; clear t); (intro v _ e; clear_value t; subst e; rename' v => w)])
    | (extract_lets +onlyGivenNames t; (have _h := fun x => t x); clear _h; unfold t; clear t)
    | (extract_lets +onlyGivenNames t; clear_value t; rename' t => w)
    | (extract_lets +onlyGivenNames t; rename' t => w)
    | with_reducible assumption
    | with_reducible exact Touches.refl _
    | (with_reducible apply Touches.trans; case k => with_reducible apply State.send_touches)
    | (with_reducible apply Touches.trans; case k => with_reducible apply State.streamOut_touches)
    | with_reducible apply Touches.foldl
    | with_reducible apply Touches.foldlFst
    | with_reducible apply Touches.foldlSnd
    | split
    | dsimp only

end Sys2Proof.Machine
end

