-- ==== Sys2Proof/Laws/RegsFrames.lean ====
section
/-!
SUPPORT. Which registers the functions of Machine/Frames.lean may write, where these do not depend on an operand.
-/

set_option linter.all false
set_option Elab.async false
set_option linter.unreachableTactic false
set_option linter.unusedTactic false
set_option linter.tactic.unusedName false

namespace Sys2Proof.Machine

theorem State.frameRec_regs : ∀ s x1 x2 x3 x4 x5, OnlyRegs s (State.frameRec s x1 x2 x3 x4 x5) [Sys2Proof.Machine.oCalLost] := by
  intro s x1 x2 x3 x4 x5
  unfold State.frameRec
  repeat' first
    | (show ∀ _ : Nat, _; exact offs_sub (by decide +kernel))
    | (show ¬ (_ ∈ _); decide +kernel)
    | (with_reducible intro _; beta_reduce)
    | ((conv => arg 2; arg 1; skip); with_reducible apply OnlyRegs.ite)
    | (extract_lets +onlyGivenNames t; refine OnlyRegs.cut (t := t) ?_ ?_ <;> [(unfold t; clear t); (intro v _ e; clear_value t; subst e; rename' v => w)])
    | (extract_lets +onlyGivenNames t; refine OnlyRegs.cut (t := t) ?_ ?_ <;> [(unfold t; clear t); (intro v _ e; subst v; rename' t => w)])
    | (extract_lets +onlyGivenNames t; refine OnlyRegs.cutFst (t := t) ?_ ?_ <;> [(unfold t; clear t); (intro v _ e; clear_value t; subst e; rename' v => w)])
    | (extract_lets +onlyGivenNames t; refine OnlyRegs.cutSnd (t := t) ?_ ?_ <;> [(unfold t; clear t); (intro v _ e; clear_value t; subst e; rename' v => w)])
    | (extract_lets +onlyGivenNames t; (have _h := fun x => t x); clear _h; unfold t; clear t)
    | (extract_lets +onlyGivenNames t; clear_value t; rename' t => w)
    | (extract_lets +onlyGivenNames t; rename' t => w)
    | with_reducible assumption
    | with_reducible exact OnlyRegs.refl _
    | (with_reducible apply OnlyRegs.tr; case k => with_reducible apply State.post_regs)
    | with_reducible apply OnlyRegs.foldl
    | with_reducible apply OnlyRegs.foldlFst
    | with_reducible apply OnlyRegs.foldlSnd
    | split
    | dsimp only

theorem State.discardAt_regs : ∀ s x1, OnlyRegs s (State.discardAt s x1) [Sys2Proof.Machine.oPortStatus 0, Sys2Proof.Machine.oPortStatus 1, Sys2Proof.Machine.oPortStatus 2, Sys2Proof.Machine.oPortStatus 3, Sys2Proof.Machine.oPortStatus 4, Sys2Proof.Machine.oPortStatus 5, Sys2Proof.Machine.oPortStatus 6, Sys2Proof.Machine.oPortStatus 7] := by
  intro s x1
  unfold State.discardAt
  split
  · next h =>
    intro o ho
    refine OnlyRegs.satAdd s (oPortStatus x1) 15 0 1 o ?_
    intro e
    simp only [List.mem_cons, List.not_mem_nil, or_false] at e
    subst e
    apply ho
    have : x1 ∈ List.range 8 := List.mem_range.mpr h
    revert x1
    decide +kernel
  · exact OnlyRegs.refl s

theorem State.launch_regs : ∀ s x1, OnlyRegs s (State.launch s x1) [Sys2Proof.Machine.oCalLost, Sys2Proof.Machine.oPortStatus 0, Sys2Proof.Machine.oPortStatus 1, Sys2Proof.Machine.oPortStatus 2, Sys2Proof.Machine.oPortStatus 3, Sys2Proof.Machine.oPortStatus 4, Sys2Proof.Machine.oPortStatus 5, Sys2Proof.Machine.oPortStatus 6, Sys2Proof.Machine.oPortStatus 7] := by
  intro s x1
  unfold State.launch
  repeat' first
    | (show ∀ _ : Nat, _; exact offs_sub (by decide +kernel))
    | (show ¬ (_ ∈ _); decide +kernel)
    | (with_reducible intro _; beta_reduce)
    | ((conv => arg 2; arg 1; skip); with_reducible apply OnlyRegs.ite)
    | (extract_lets +onlyGivenNames t; refine OnlyRegs.cut (t := t) ?_ ?_ <;> [(unfold t; clear t); (intro v _ e; clear_value t; subst e; rename' v => w)])
    | (extract_lets +onlyGivenNames t; refine OnlyRegs.cut (t := t) ?_ ?_ <;> [(unfold t; clear t); (intro v _ e; subst v; rename' t => w)])
    | (extract_lets +onlyGivenNames t; refine OnlyRegs.cutFst (t := t) ?_ ?_ <;> [(unfold t; clear t); (intro v _ e; clear_value t; subst e; rename' v => w)])
    | (extract_lets +onlyGivenNames t; refine OnlyRegs.cutSnd (t := t) ?_ ?_ <;> [(unfold t; clear t); (intro v _ e; clear_value t; subst e; rename' v => w)])
    | (extract_lets +onlyGivenNames t; (have _h := fun x => t x); clear _h; unfold t; clear t)
    | (extract_lets +onlyGivenNames t; clear_value t; rename' t => w)
    | (extract_lets +onlyGivenNames t; rename' t => w)
    | with_reducible assumption
    | with_reducible exact OnlyRegs.refl _
    | ((conv => arg 2; arg 36; skip); refine OnlyRegs.tr ?_ (OnlyRegs.upd (l := []) rfl rfl) ?_)
    | (with_reducible apply OnlyRegs.tr; case k => with_reducible apply State.discardAt_regs)
    | (with_reducible apply OnlyRegs.tr; case k => with_reducible apply State.frameRec_regs)
    | (with_reducible apply OnlyRegs.keep; case k => with_reducible apply State.toPort_touches)
    | with_reducible apply OnlyRegs.foldl
    | with_reducible apply OnlyRegs.foldlFst
    | with_reducible apply OnlyRegs.foldlSnd
    | split
    | dsimp only

theorem State.streamOut_regs : ∀ s x1 x2 x3 x4 x5 x6 x7, OnlyRegs s (State.streamOut s x1 x2 x3 x4 x5 x6 x7) [Sys2Proof.Machine.oCalLost, Sys2Proof.Machine.oPortStatus 0, Sys2Proof.Machine.oPortStatus 1, Sys2Proof.Machine.oPortStatus 2, Sys2Proof.Machine.oPortStatus 3, Sys2Proof.Machine.oPortStatus 4, Sys2Proof.Machine.oPortStatus 5, Sys2Proof.Machine.oPortStatus 6, Sys2Proof.Machine.oPortStatus 7] := by
  intro s x1 x2 x3 x4 x5 x6 x7
  unfold State.streamOut
  repeat' first
    | (show ∀ _ : Nat, _; exact offs_sub (by decide +kernel))
    | (show ¬ (_ ∈ _); decide +kernel)
    | (with_reducible intro _; beta_reduce)
    | ((conv => arg 2; arg 1; skip); with_reducible apply OnlyRegs.ite)
    | (extract_lets +onlyGivenNames t; refine OnlyRegs.cut (t := t) ?_ ?_ <;> [(unfold t; clear t); (intro v _ e; clear_value t; subst e; rename' v => w)])
    | (extract_lets +onlyGivenNames t; refine OnlyRegs.cut (t := t) ?_ ?_ <;> [(unfold t; clear t); (intro v _ e; subst v; rename' t => w)])
    | (extract_lets +onlyGivenNames t; refine OnlyRegs.cutFst (t := t) ?_ ?_ <;> [(unfold t; clear t); (intro v _ e; clear_value t; subst e; rename' v => w)])
    | (extract_lets +onlyGivenNames t; refine OnlyRegs.cutSnd (t := t) ?_ ?_ <;> [(unfold t; clear t); (intro v _ e; clear_value t; subst e; rename' v => w)])
    | (extract_lets +onlyGivenNames t; (have _h := fun x => t x); clear _h; unfold t; clear t)
    | (extract_lets +onlyGivenNames t; clear_value t; rename' t => w)
    | (extract_lets +onlyGivenNames t; rename' t => w)
    | with_reducible assumption
    | with_reducible exact OnlyRegs.refl _
    | (with_reducible apply OnlyRegs.tr; case k => with_reducible apply State.launch_regs)
    | (with_reducible apply OnlyRegs.keep; case k => with_reducible apply State.setTx_touches)
    | with_reducible apply OnlyRegs.foldl
    | with_reducible apply OnlyRegs.foldlFst
    | with_reducible apply OnlyRegs.foldlSnd
    | split
    | dsimp only

theorem State.tell_regs : ∀ s x1 x2, OnlyRegs s (State.tell s x1 x2) [Sys2Proof.Machine.oCalLost, Sys2Proof.Machine.oPortStatus 0, Sys2Proof.Machine.oPortStatus 1, Sys2Proof.Machine.oPortStatus 2, Sys2Proof.Machine.oPortStatus 3, Sys2Proof.Machine.oPortStatus 4, Sys2Proof.Machine.oPortStatus 5, Sys2Proof.Machine.oPortStatus 6, Sys2Proof.Machine.oPortStatus 7] := by
  intro s x1 x2
  unfold State.tell
  repeat' first
    | (show ∀ _ : Nat, _; exact offs_sub (by decide +kernel))
    | (show ¬ (_ ∈ _); decide +kernel)
    | (with_reducible intro _; beta_reduce)
    | ((conv => arg 2; arg 1; skip); with_reducible apply OnlyRegs.ite)
    | (extract_lets +onlyGivenNames t; refine OnlyRegs.cut (t := t) ?_ ?_ <;> [(unfold t; clear t); (intro v _ e; clear_value t; subst e; rename' v => w)])
    | (extract_lets +onlyGivenNames t; refine OnlyRegs.cut (t := t) ?_ ?_ <;> [(unfold t; clear t); (intro v _ e; subst v; rename' t => w)])
    | (extract_lets +onlyGivenNames t; refine OnlyRegs.cutFst (t := t) ?_ ?_ <;> [(unfold t; clear t); (intro v _ e; clear_value t; subst e; rename' v => w)])
    | (extract_lets +onlyGivenNames t; refine OnlyRegs.cutSnd (t := t) ?_ ?_ <;> [(unfold t; clear t); (intro v _ e; clear_value t; subst e; rename' v => w)])
    | (extract_lets +onlyGivenNames t; (have _h := fun x => t x); clear _h; unfold t; clear t)
    | (extract_lets +onlyGivenNames t; clear_value t; rename' t => w)
    | (extract_lets +onlyGivenNames t; rename' t => w)
    | with_reducible assumption
    | with_reducible exact OnlyRegs.refl _
    | (with_reducible apply OnlyRegs.keep; case k => with_reducible apply State.send_touches)
    | (with_reducible apply OnlyRegs.tr; case k => with_reducible apply State.streamOut_regs)
    | with_reducible apply OnlyRegs.foldl
    | with_reducible apply OnlyRegs.foldlFst
    | with_reducible apply OnlyRegs.foldlSnd
    | split
    | dsimp only

theorem State.tellGroup_regs : ∀ s x1, OnlyRegs s (State.tellGroup s x1) [Sys2Proof.Machine.oCalLost, Sys2Proof.Machine.oPortStatus 0, Sys2Proof.Machine.oPortStatus 1, Sys2Proof.Machine.oPortStatus 2, Sys2Proof.Machine.oPortStatus 3, Sys2Proof.Machine.oPortStatus 4, Sys2Proof.Machine.oPortStatus 5, Sys2Proof.Machine.oPortStatus 6, Sys2Proof.Machine.oPortStatus 7] := by
  intro s x1
  unfold State.tellGroup
  repeat' first
    | (show ∀ _ : Nat, _; exact offs_sub (by decide +kernel))
    | (show ¬ (_ ∈ _); decide +kernel)
    | (with_reducible intro _; beta_reduce)
    | ((conv => arg 2; arg 1; skip); with_reducible apply OnlyRegs.ite)
    | (extract_lets +onlyGivenNames t; refine OnlyRegs.cut (t := t) ?_ ?_ <;> [(unfold t; clear t); (intro v _ e; clear_value t; subst e; rename' v => w)])
    | (extract_lets +onlyGivenNames t; refine OnlyRegs.cut (t := t) ?_ ?_ <;> [(unfold t; clear t); (intro v _ e; subst v; rename' t => w)])
    | (extract_lets +onlyGivenNames t; refine OnlyRegs.cutFst (t := t) ?_ ?_ <;> [(unfold t; clear t); (intro v _ e; clear_value t; subst e; rename' v => w)])
    | (extract_lets +onlyGivenNames t; refine OnlyRegs.cutSnd (t := t) ?_ ?_ <;> [(unfold t; clear t); (intro v _ e; clear_value t; subst e; rename' v => w)])
    | (extract_lets +onlyGivenNames t; (have _h := fun x => t x); clear _h; unfold t; clear t)
    | (extract_lets +onlyGivenNames t; clear_value t; rename' t => w)
    | (extract_lets +onlyGivenNames t; rename' t => w)
    | with_reducible assumption
    | with_reducible exact OnlyRegs.refl _
    | (with_reducible apply OnlyRegs.keep; case k => with_reducible apply State.send_touches)
    | (with_reducible apply OnlyRegs.tr; case k => with_reducible apply State.streamOut_regs)
    | with_reducible apply OnlyRegs.foldl
    | with_reducible apply OnlyRegs.foldlFst
    | with_reducible apply OnlyRegs.foldlSnd
    | split
    | dsimp only

end Sys2Proof.Machine
end

