-- ==== Sys2Proof/Laws/TouchFlushes.lean ====
section
/-!
SUPPORT. What the functions of Machine/Flushes.lean may touch.
-/

set_option linter.all false
set_option Elab.async false
set_option linter.unreachableTactic false
set_option linter.unusedTactic false
set_option linter.tactic.unusedName false

namespace Sys2Proof.Machine

theorem State.loadBbox_touches : ∀ s, Touches [.regs] s (State.loadBbox s) := by
  intro s
  unfold State.loadBbox
  repeat' first
    | (show ∀ _ : Part, _; exact Part.sub (by decide +kernel))
    | (with_reducible intro _; beta_reduce)
    | ((conv => arg 3; arg 1; skip); with_reducible apply Touches.ite)
    | (extract_lets +onlyGivenNames t; refine Touches.cut (t := t) ?_ ?_ <;> [(unfold t; clear t); (intro v _ e; clear_value t; subst e; rename' v => w)])
    | (extract_lets +onlyGivenNames t; refine Touches.cut (t := t) ?_ ?_ <;> [(unfold t; clear t); (intro v _ e; subst v; rename' t => w)])
    | (extract_lets +onlyGivenNames t; refine Touches.cutFst (t := t) ?_ ?_ <;> [(unfold t; clear t); (intro v _ e; clear_value t; subst e; rename' v => w)])
    | (extract_lets +onlyGivenNames t; refine Touches.cutSnd (t := t) ?_ ?_ <;> [(unfold t; clear t); (intro v _ e; clear_value t; subst e; rename' v => w)])
    | (extract_lets +onlyGivenNames t; (have _h := fun x => t x); clear _h; unfold t; clear t)
    | (extract_lets +onlyGivenNames t; clear_value t; rename' t => w)
    | (extract_lets +onlyGivenNames t; rename' t => w)
    | with_reducible assumption
    | with_reducible exact Touches.refl _
    | (with_reducible apply Touches.trans; case k => with_reducible apply State.wf_touches)
    | (with_reducible apply Touches.trans; case k => with_reducible apply State.ww_touches)
    | with_reducible apply Touches.foldl
    | with_reducible apply Touches.foldlFst
    | with_reducible apply Touches.foldlSnd
    | split
    | dsimp only

theorem State.sendBank_touches : ∀ s x1 x2, Touches [.regs, .fabric, .cal, .out] s (State.sendBank s x1 x2) := by
  intro s x1 x2
  unfold State.sendBank
  repeat' first
    | (show ∀ _ : Part, _; exact Part.sub (by decide +kernel))
    | (with_reducible intro _; beta_reduce)
    | ((conv => arg 3; arg 1; skip); with_reducible apply Touches.ite)
    | (extract_lets +onlyGivenNames t; refine Touches.cut (t := t) ?_ ?_ <;> [(unfold t; clear t); (intro v _ e; clear_value t; subst e; rename' v => w)])
    | (extract_lets +onlyGivenNames t; refine Touches.cut (t := t) ?_ ?_ <;> [(unfold t; clear t); (intro v _ e; subst v; rename' t => w)])
    | (extract_lets +onlyGivenNames t; refine Touches.cutFst (t := t) ?_ ?_ <;> [(unfold t; clear t); (intro v _ e; clear_value t; subst e; rename' v => w)])
    | (extract_lets +onlyGivenNames t; refine Touches.cutSnd (t := t) ?_ ?_ <;> [(unfold t; clear t); (intro v _ e; clear_value t; subst e; rename' v => w)])
    | (extract_lets +onlyGivenNames t; (have _h := fun x => t x); clear _h; unfold t; clear t)
    | (extract_lets +onlyGivenNames t; clear_value t; rename' t => w)
    | (extract_lets +onlyGivenNames t; rename' t => w)
    | with_reducible assumption
    | with_reducible exact Touches.refl _
    | ((conv => arg 3; arg 36; skip); refine Touches.trans ?_ (Touches.upd (l := [.cal]) rfl) ?_)
    | (with_reducible apply Touches.trans; case k => with_reducible apply State.emit_touches)
    | (with_reducible apply Touches.trans; case k => with_reducible apply State.streamOut_touches)
    | with_reducible apply Touches.foldl
    | with_reducible apply Touches.foldlFst
    | with_reducible apply Touches.foldlSnd
    | split
    | dsimp only

theorem State.startFlush_touches : ∀ s x1 x2, Touches [.regs, .fabric, .cal, .out] s (State.startFlush s x1 x2) := by
  intro s x1 x2
  unfold State.startFlush
  repeat' first
    | (show ∀ _ : Part, _; exact Part.sub (by decide +kernel))
    | (with_reducible intro _; beta_reduce)
    | ((conv => arg 3; arg 1; skip); with_reducible apply Touches.ite)
    | (extract_lets +onlyGivenNames t; refine Touches.cut (t := t) ?_ ?_ <;> [(unfold t; clear t); (intro v _ e; clear_value t; subst e; rename' v => w)])
    | (extract_lets +onlyGivenNames t; refine Touches.cut (t := t) ?_ ?_ <;> [(unfold t; clear t); (intro v _ e; subst v; rename' t => w)])
    | (extract_lets +onlyGivenNames t; refine Touches.cutFst (t := t) ?_ ?_ <;> [(unfold t; clear t); (intro v _ e; clear_value t; subst e; rename' v => w)])
    | (extract_lets +onlyGivenNames t; refine Touches.cutSnd (t := t) ?_ ?_ <;> [(unfold t; clear t); (intro v _ e; clear_value t; subst e; rename' v => w)])
    | (extract_lets +onlyGivenNames t; (have _h := fun x => t x); clear _h; unfold t; clear t)
    | (extract_lets +onlyGivenNames t; clear_value t; rename' t => w)
    | (extract_lets +onlyGivenNames t; rename' t => w)
    | with_reducible assumption
    | with_reducible exact Touches.refl _
    | ((conv => arg 3; arg 36; skip); refine Touches.trans ?_ (Touches.upd (l := [.cal]) rfl) ?_)
    | (with_reducible apply Touches.trans; case k => with_reducible apply State.drain_touches)
    | (with_reducible apply Touches.trans; case k => with_reducible apply State.sendBank_touches)
    | (with_reducible apply Touches.trans; case k => with_reducible apply State.wf_touches)
    | with_reducible apply Touches.foldl
    | with_reducible apply Touches.foldlFst
    | with_reducible apply Touches.foldlSnd
    | split
    | dsimp only

theorem State.trigger_touches : ∀ s x1, Touches [.regs, .fabric, .cal, .out] s (State.trigger s x1) := by
  intro s x1
  unfold State.trigger
  repeat' first
    | (show ∀ _ : Part, _; exact Part.sub (by decide +kernel))
    | (with_reducible intro _; beta_reduce)
    | ((conv => arg 3; arg 1; skip); with_reducible apply Touches.ite)
    | (extract_lets +onlyGivenNames t; refine Touches.cut (t := t) ?_ ?_ <;> [(unfold t; clear t); (intro v _ e; clear_value t; subst e; rename' v => w)])
    | (extract_lets +onlyGivenNames t; refine Touches.cut (t := t) ?_ ?_ <;> [(unfold t; clear t); (intro v _ e; subst v; rename' t => w)])
    | (extract_lets +onlyGivenNames t; refine Touches.cutFst (t := t) ?_ ?_ <;> [(unfold t; clear t); (intro v _ e; clear_value t; subst e; rename' v => w)])
    | (extract_lets +onlyGivenNames t; refine Touches.cutSnd (t := t) ?_ ?_ <;> [(unfold t; clear t); (intro v _ e; clear_value t; subst e; rename' v => w)])
    | (extract_lets +onlyGivenNames t; (have _h := fun x => t x); clear _h; unfold t; clear t)
    | (extract_lets +onlyGivenNames t; clear_value t; rename' t => w)
    | (extract_lets +onlyGivenNames t; rename' t => w)
    | with_reducible assumption
    | with_reducible exact Touches.refl _
    | ((conv => arg 3; arg 36; skip); refine Touches.trans ?_ (Touches.upd (l := [.cal]) rfl) ?_)
    | (with_reducible apply Touches.trans; case k => with_reducible apply State.startFlush_touches)
    | with_reducible apply Touches.foldl
    | with_reducible apply Touches.foldlFst
    | with_reducible apply Touches.foldlSnd
    | split
    | dsimp only

theorem State.urgent_touches : ∀ s x1 x2 x3 x4, Touches [.regs, .fabric, .cal, .out] s (State.urgent s x1 x2 x3 x4) := by
  intro s x1 x2 x3 x4
  unfold State.urgent
  repeat' first
    | (show ∀ _ : Part, _; exact Part.sub (by decide +kernel))
    | (with_reducible intro _; beta_reduce)
    | ((conv => arg 3; arg 1; skip); with_reducible apply Touches.ite)
    | (extract_lets +onlyGivenNames t; refine Touches.cut (t := t) ?_ ?_ <;> [(unfold t; clear t); (intro v _ e; clear_value t; subst e; rename' v => w)])
    | (extract_lets +onlyGivenNames t; refine Touches.cut (t := t) ?_ ?_ <;> [(unfold t; clear t); (intro v _ e; subst v; rename' t => w)])
    | (extract_lets +onlyGivenNames t; refine Touches.cutFst (t := t) ?_ ?_ <;> [(unfold t; clear t); (intro v _ e; clear_value t; subst e; rename' v => w)])
    | (extract_lets +onlyGivenNames t; refine Touches.cutSnd (t := t) ?_ ?_ <;> [(unfold t; clear t); (intro v _ e; clear_value t; subst e; rename' v => w)])
    | (extract_lets +onlyGivenNames t; (have _h := fun x => t x); clear _h; unfold t; clear t)
    | (extract_lets +onlyGivenNames t; clear_value t; rename' t => w)
    | (extract_lets +onlyGivenNames t; rename' t => w)
    | with_reducible assumption
    | with_reducible exact Touches.refl _
    | (with_reducible apply Touches.trans; case k => with_reducible apply State.enqueue_touches)
    | (with_reducible apply Touches.trans; case k => with_reducible apply State.trigger_touches)
    | with_reducible apply Touches.foldl
    | with_reducible apply Touches.foldlFst
    | with_reducible apply Touches.foldlSnd
    | split
    | dsimp only

theorem State.endFlush_touches : ∀ s, Touches [.regs, .cal, .out] s (State.endFlush s) := by
  intro s
  unfold State.endFlush
  repeat' first
    | (show ∀ _ : Part, _; exact Part.sub (by decide +kernel))
    | (with_reducible intro _; beta_reduce)
    | ((conv => arg 3; arg 1; skip); with_reducible apply Touches.ite)
    | (extract_lets +onlyGivenNames t; refine Touches.cut (t := t) ?_ ?_ <;> [(unfold t; clear t); (intro v _ e; clear_value t; subst e; rename' v => w)])
    | (extract_lets +onlyGivenNames t; refine Touches.cut (t := t) ?_ ?_ <;> [(unfold t; clear t); (intro v _ e; subst v; rename' t => w)])
    | (extract_lets +onlyGivenNames t; refine Touches.cutFst (t := t) ?_ ?_ <;> [(unfold t; clear t); (intro v _ e; clear_value t; subst e; rename' v => w)])
    | (extract_lets +onlyGivenNames t; refine Touches.cutSnd (t := t) ?_ ?_ <;> [(unfold t; clear t); (intro v _ e; clear_value t; subst e; rename' v => w)])
    | (extract_lets +onlyGivenNames t; (have _h := fun x => t x); clear _h; unfold t; clear t)
    | (extract_lets +onlyGivenNames t; clear_value t; rename' t => w)
    | (extract_lets +onlyGivenNames t; rename' t => w)
    | with_reducible assumption
    | with_reducible exact Touches.refl _
    | ((conv => arg 3; arg 36; skip); refine Touches.trans ?_ (Touches.upd (l := [.cal]) rfl) ?_)
    | (with_reducible apply Touches.trans; case k => with_reducible apply State.loadBbox_touches)
    | (with_reducible apply Touches.trans; case k => with_reducible apply State.post_touches)
    | (with_reducible apply Touches.trans; case k => with_reducible apply State.raise_touches)
    | with_reducible apply Touches.foldl
    | with_reducible apply Touches.foldlFst
    | with_reducible apply Touches.foldlSnd
    | split
    | dsimp only

theorem State.endSend_touches : ∀ s, Touches [.regs, .cal] s (State.endSend s) := by
  intro s
  unfold State.endSend
  repeat' first
    | (show ∀ _ : Part, _; exact Part.sub (by decide +kernel))
    | (with_reducible intro _; beta_reduce)
    | ((conv => arg 3; arg 1; skip); with_reducible apply Touches.ite)
    | (extract_lets +onlyGivenNames t; refine Touches.cut (t := t) ?_ ?_ <;> [(unfold t; clear t); (intro v _ e; clear_value t; subst e; rename' v => w)])
    | (extract_lets +onlyGivenNames t; refine Touches.cut (t := t) ?_ ?_ <;> [(unfold t; clear t); (intro v _ e; subst v; rename' t => w)])
    | (extract_lets +onlyGivenNames t; refine Touches.cutFst (t := t) ?_ ?_ <;> [(unfold t; clear t); (intro v _ e; clear_value t; subst e; rename' v => w)])
    | (extract_lets +onlyGivenNames t; refine Touches.cutSnd (t := t) ?_ ?_ <;> [(unfold t; clear t); (intro v _ e; clear_value t; subst e; rename' v => w)])
    | (extract_lets +onlyGivenNames t; (have _h := fun x => t x); clear _h; unfold t; clear t)
    | (extract_lets +onlyGivenNames t; clear_value t; rename' t => w)
    | (extract_lets +onlyGivenNames t; rename' t => w)
    | with_reducible assumption
    | with_reducible exact Touches.refl _
    | ((conv => arg 3; arg 36; skip); refine Touches.trans ?_ (Touches.upd (l := [.cal]) rfl) ?_)
    | (with_reducible apply Touches.trans; case k => with_reducible apply State.post_touches)
    | with_reducible apply Touches.foldl
    | with_reducible apply Touches.foldlFst
    | with_reducible apply Touches.foldlSnd
    | split
    | dsimp only

theorem State.startPending_touches : ∀ s, Touches [.regs, .fabric, .cal, .out] s (State.startPending s) := by
  intro s
  unfold State.startPending
  repeat' first
    | (show ∀ _ : Part, _; exact Part.sub (by decide +kernel))
    | (with_reducible intro _; beta_reduce)
    | ((conv => arg 3; arg 1; skip); with_reducible apply Touches.ite)
    | (extract_lets +onlyGivenNames t; refine Touches.cut (t := t) ?_ ?_ <;> [(unfold t; clear t); (intro v _ e; clear_value t; subst e; rename' v => w)])
    | (extract_lets +onlyGivenNames t; refine Touches.cut (t := t) ?_ ?_ <;> [(unfold t; clear t); (intro v _ e; subst v; rename' t => w)])
    | (extract_lets +onlyGivenNames t; refine Touches.cutFst (t := t) ?_ ?_ <;> [(unfold t; clear t); (intro v _ e; clear_value t; subst e; rename' v => w)])
    | (extract_lets +onlyGivenNames t; refine Touches.cutSnd (t := t) ?_ ?_ <;> [(unfold t; clear t); (intro v _ e; clear_value t; subst e; rename' v => w)])
    | (extract_lets +onlyGivenNames t; (have _h := fun x => t x); clear _h; unfold t; clear t)
    | (extract_lets +onlyGivenNames t; clear_value t; rename' t => w)
    | (extract_lets +onlyGivenNames t; rename' t => w)
    | with_reducible assumption
    | with_reducible exact Touches.refl _
    | ((conv => arg 3; arg 36; skip); refine Touches.trans ?_ (Touches.upd (l := [.cal]) rfl) ?_)
    | (with_reducible apply Touches.trans; case k => with_reducible apply State.startFlush_touches)
    | with_reducible apply Touches.foldl
    | with_reducible apply Touches.foldlFst
    | with_reducible apply Touches.foldlSnd
    | split
    | dsimp only

theorem State.endSends_touches : ∀ x0 s, Touches [.regs, .cal] s (State.endSends x0 s) := by
  intro x0 s
  induction x0 generalizing s
  case zero =>
    unfold State.endSends
    repeat' first
      | (show ∀ _ : Part, _; exact Part.sub (by decide +kernel))
      | (with_reducible intro _; beta_reduce)
      | ((conv => arg 3; arg 1; skip); with_reducible apply Touches.ite)
      | (extract_lets +onlyGivenNames t; refine Touches.cut (t := t) ?_ ?_ <;> [(unfold t; clear t); (intro v _ e; clear_value t; subst e; rename' v => w)])
      | (extract_lets +onlyGivenNames t; refine Touches.cut (t := t) ?_ ?_ <;> [(unfold t; clear t); (intro v _ e; subst v; rename' t => w)])
      | (extract_lets +onlyGivenNames t; refine Touches.cutFst (t := t) ?_ ?_ <;> [(unfold t; clear t); (intro v _ e; clear_value t; subst e; rename' v => w)])
      | (extract_lets +onlyGivenNames t; refine Touches.cutSnd (t := t) ?_ ?_ <;> [(unfold t; clear t); (intro v _ e; clear_value t; subst e; rename' v => w)])
      | (extract_lets +onlyGivenNames t; (have _h := fun x => t x); clear _h; unfold t; clear t)
      | (extract_lets +onlyGivenNames t; clear_value t; rename' t => w)
      | (extract_lets +onlyGivenNames t; rename' t => w)
      | with_reducible assumption
      | with_reducible exact Touches.refl _
      | (with_reducible apply Touches.trans; case k => with_reducible apply State.endSend_touches)
      | with_reducible apply Touches.foldl
      | with_reducible apply Touches.foldlFst
      | with_reducible apply Touches.foldlSnd
      | split
      | dsimp only
  case succ n ih =>
    unfold State.endSends
    repeat' first
      | (show ∀ _ : Part, _; exact Part.sub (by decide +kernel))
      | (with_reducible intro _; beta_reduce)
      | ((conv => arg 3; arg 1; skip); with_reducible apply Touches.ite)
      | (extract_lets +onlyGivenNames t; refine Touches.cut (t := t) ?_ ?_ <;> [(unfold t; clear t); (intro v _ e; clear_value t; subst e; rename' v => w)])
      | (extract_lets +onlyGivenNames t; refine Touches.cut (t := t) ?_ ?_ <;> [(unfold t; clear t); (intro v _ e; subst v; rename' t => w)])
      | (extract_lets +onlyGivenNames t; refine Touches.cutFst (t := t) ?_ ?_ <;> [(unfold t; clear t); (intro v _ e; clear_value t; subst e; rename' v => w)])
      | (extract_lets +onlyGivenNames t; refine Touches.cutSnd (t := t) ?_ ?_ <;> [(unfold t; clear t); (intro v _ e; clear_value t; subst e; rename' v => w)])
      | (extract_lets +onlyGivenNames t; (have _h := fun x => t x); clear _h; unfold t; clear t)
      | (extract_lets +onlyGivenNames t; clear_value t; rename' t => w)
      | (extract_lets +onlyGivenNames t; rename' t => w)
      | with_reducible assumption
      | with_reducible exact Touches.refl _
      | (with_reducible apply Touches.trans; case k => with_reducible apply ih)
      | (with_reducible apply Touches.trans; case k => with_reducible apply State.endSend_touches)
      | with_reducible apply Touches.foldl
      | with_reducible apply Touches.foldlFst
      | with_reducible apply Touches.foldlSnd
      | split
      | dsimp only

theorem State.flushOut_touches : ∀ s, Touches [.regs, .fabric, .cal, .out] s (State.flushOut s) := by
  intro s
  unfold State.flushOut
  repeat' first
    | (show ∀ _ : Part, _; exact Part.sub (by decide +kernel))
    | (with_reducible intro _; beta_reduce)
    | ((conv => arg 3; arg 1; skip); with_reducible apply Touches.ite)
    | (extract_lets +onlyGivenNames t; refine Touches.cut (t := t) ?_ ?_ <;> [(unfold t; clear t); (intro v _ e; clear_value t; subst e; rename' v => w)])
    | (extract_lets +onlyGivenNames t; refine Touches.cut (t := t) ?_ ?_ <;> [(unfold t; clear t); (intro v _ e; subst v; rename' t => w)])
    | (extract_lets +onlyGivenNames t; refine Touches.cutFst (t := t) ?_ ?_ <;> [(unfold t; clear t); (intro v _ e; clear_value t; subst e; rename' v => w)])
    | (extract_lets +onlyGivenNames t; refine Touches.cutSnd (t := t) ?_ ?_ <;> [(unfold t; clear t); (intro v _ e; clear_value t; subst e; rename' v => w)])
    | (extract_lets +onlyGivenNames t; (have _h := fun x => t x); clear _h; unfold t; clear t)
    | (extract_lets +onlyGivenNames t; clear_value t; rename' t => w)
    | (extract_lets +onlyGivenNames t; rename' t => w)
    | with_reducible assumption
    | with_reducible exact Touches.refl _
    | (with_reducible apply Touches.trans; case k => with_reducible apply State.endFlush_touches)
    | (with_reducible apply Touches.trans; case k => with_reducible apply State.endSends_touches)
    | (with_reducible apply Touches.trans; case k => with_reducible apply State.startPending_touches)
    | with_reducible apply Touches.foldl
    | with_reducible apply Touches.foldlFst
    | with_reducible apply Touches.foldlSnd
    | split
    | dsimp only

end Sys2Proof.Machine
end

