-- ==== Sys2Proof/Laws/RegsFlushes.lean ====
section
/-!
SUPPORT. Which registers the functions of Machine/Flushes.lean may write, where these do not depend on an operand.
-/

set_option linter.all false
set_option Elab.async false
set_option linter.unreachableTactic false
set_option linter.unusedTactic false
set_option linter.tactic.unusedName false

namespace Sys2Proof.Machine

theorem State.loadBbox_regs : ∀ s, OnlyRegs s (State.loadBbox s) [Sys2Proof.Machine.oCalBbox] := by
  intro s
  unfold State.loadBbox
  repeat' first
    | (show ∀ _ : Nat, _; exact offs_sub (by decide +kernel))
    | (show ¬ (_ ∈ _); decide +kernel)
    | (with_reducible intro _; beta_reduce)
    | ((conv => arg 2; arg 1; skip); with_reducible apply OnlyRegs.ite)
    | (extract_lets +onlyGivenNames t; refine OnlyRegs.cut (t := t) ?_ ?_ <;> [(unfold t; clear t); (intro v _ e; clear_value t; subst e; rename' v => w)])
    | (extract_lets +onlyGivenNames t; refine OnlyRegs.cut (t := t) ?_ ?_ <;> [(unfold t; clear t); (intro v _ e; subst v; rename' t => w)])
    | (extract_lets +onlyGivenNames t; refine OnlyRegs.cutFst (t := t) ?_ ?_ <;> [(unfold t; clear t); (intro v _ e; clear_value t; subst e; rename' v => w)])
    | (extract_lets +onlyGivenNames t; refine OnlyRegs.cutSnd (t := t) ?_ ?_ <;> [(unfold t; clear t); (intro v _ e; clear_value t; subst e; rename' v => w)])
    | (extract_lets +onlyGivenNames t; (have _h := fun x => t x); clear _h; unfold t; clear t)
    | (extract_lets +onlyGivenNames t; clear_value t; rename' t => w)
    | (extract_lets +onlyGivenNames t; rename' t => w)
    | with_reducible assumption
    | with_reducible exact OnlyRegs.refl _
    | (with_reducible apply OnlyRegs.tr; case k => with_reducible apply OnlyRegs.wf)
    | (with_reducible apply OnlyRegs.tr; case k => with_reducible apply OnlyRegs.ww)
    | with_reducible apply OnlyRegs.foldl
    | with_reducible apply OnlyRegs.foldlFst
    | with_reducible apply OnlyRegs.foldlSnd
    | split
    | dsimp only

theorem State.sendBank_regs : ∀ s x1 x2, OnlyRegs s (State.sendBank s x1 x2) [Sys2Proof.Machine.oCalLost, Sys2Proof.Machine.oPortStatus 0, Sys2Proof.Machine.oPortStatus 1, Sys2Proof.Machine.oPortStatus 2, Sys2Proof.Machine.oPortStatus 3, Sys2Proof.Machine.oPortStatus 4, Sys2Proof.Machine.oPortStatus 5, Sys2Proof.Machine.oPortStatus 6, Sys2Proof.Machine.oPortStatus 7] := by
  intro s x1 x2
  unfold State.sendBank
  repeat' first
    | (show ∀ _ : Nat, _; exact offs_sub (by decide +kernel))
    | (show ¬ (_ ∈ _); decide +kernel)
    | (with_reducible intro _; beta_reduce)
    | ((conv => arg 2; arg 1; skip); with_reducible apply OnlyRegs.ite)
    | (extract_lets +onlyGivenNames t; refine OnlyRegs.cut (t := t) ?_ ?_ <;> [(unfold t; clear t); (intro v _ e; clear_value t; subst e; rename' v => w)])
    | (extract_lets +onlyGivenNames t; refine OnlyRegs.cut (t := t) ?_ ?_ <;> [(unfold t; clear t); (intro v _ e; subst v; rename' t => w)])
    | (extract_lets +onlyGivenNames t; refine OnlyRegs.cutFst (t := t) ?_ ?_ <;> [(unfold t; clear t); (intro v _ e; clear_value t; subst e; rename' v => w)])
    | (extract_lets +onlyGivenNames t; refine OnlyRegs.cutSnd (t := t) ?_ ?_ <;> [(unfold t; clear t); (intro v _ e; clear_value t; subst e; rename' v => w)])
    | (extract_lets +onlyGivenNames t; (have _h := fun x => t x); clear _h; unfold t; clear t)
    | (extract_lets +onlyGivenNames t; clear_value t; rename' t => w)
    | (extract_lets +onlyGivenNames t; rename' t => w)
    | with_reducible assumption
    | with_reducible exact OnlyRegs.refl _
    | ((conv => arg 2; arg 36; skip); refine OnlyRegs.tr ?_ (OnlyRegs.upd (l := []) rfl rfl) ?_)
    | (with_reducible apply OnlyRegs.keep; case k => with_reducible apply State.emit_touches)
    | (with_reducible apply OnlyRegs.tr; case k => with_reducible apply State.streamOut_regs)
    | with_reducible apply OnlyRegs.foldl
    | with_reducible apply OnlyRegs.foldlFst
    | with_reducible apply OnlyRegs.foldlSnd
    | split
    | dsimp only

theorem State.startFlush_regs : ∀ s x1 x2, OnlyRegs s (State.startFlush s x1 x2) [Sys2Proof.Machine.oCalBbox, Sys2Proof.Machine.oCalLost, Sys2Proof.Machine.oCalOldest, Sys2Proof.Machine.oCalWrite, Sys2Proof.Machine.oIntStatus, Sys2Proof.Machine.oPba, Sys2Proof.Machine.oPortStatus 0, Sys2Proof.Machine.oPortStatus 1, Sys2Proof.Machine.oPortStatus 2, Sys2Proof.Machine.oPortStatus 3, Sys2Proof.Machine.oPortStatus 4, Sys2Proof.Machine.oPortStatus 5, Sys2Proof.Machine.oPortStatus 6, Sys2Proof.Machine.oPortStatus 7] := by
  intro s x1 x2
  unfold State.startFlush
  repeat' first
    | (show ∀ _ : Nat, _; exact offs_sub (by decide +kernel))
    | (show ¬ (_ ∈ _); decide +kernel)
    | (with_reducible intro _; beta_reduce)
    | ((conv => arg 2; arg 1; skip); with_reducible apply OnlyRegs.ite)
    | (extract_lets +onlyGivenNames t; refine OnlyRegs.cut (t := t) ?_ ?_ <;> [(unfold t; clear t); (intro v _ e; clear_value t; subst e; rename' v => w)])
    | (extract_lets +onlyGivenNames t; refine OnlyRegs.cut (t := t) ?_ ?_ <;> [(unfold t; clear t); (intro v _ e; subst v; rename' t => w)])
    | (extract_lets +onlyGivenNames t; refine OnlyRegs.cutFst (t := t) ?_ ?_ <;> [(unfold t; clear t); (intro v _ e; clear_value t; subst e; rename' v => w)])
    | (extract_lets +onlyGivenNames t; refine OnlyRegs.cutSnd (t := t) ?_ ?_ <;> [(unfold t; clear t); (intro v _ e; clear_value t; subst e; rename' v => w)])
    | (extract_lets +onlyGivenNames t; (have _h := fun x => t x); clear _h; unfold t; clear t)
    | (extract_lets +onlyGivenNames t; clear_value t; rename' t => w)
    | (extract_lets +onlyGivenNames t; rename' t => w)
    | with_reducible assumption
    | with_reducible exact OnlyRegs.refl _
    | ((conv => arg 2; arg 36; skip); refine OnlyRegs.tr ?_ (OnlyRegs.upd (l := []) rfl rfl) ?_)
    | (with_reducible apply OnlyRegs.tr; case k => with_reducible apply State.drain_regs)
    | (with_reducible apply OnlyRegs.tr; case k => with_reducible apply State.sendBank_regs)
    | (with_reducible apply OnlyRegs.tr; case k => with_reducible apply OnlyRegs.wf)
    | with_reducible apply OnlyRegs.foldl
    | with_reducible apply OnlyRegs.foldlFst
    | with_reducible apply OnlyRegs.foldlSnd
    | split
    | dsimp only

theorem State.trigger_regs : ∀ s x1, OnlyRegs s (State.trigger s x1) [Sys2Proof.Machine.oCalBbox, Sys2Proof.Machine.oCalLost, Sys2Proof.Machine.oCalOldest, Sys2Proof.Machine.oCalWrite, Sys2Proof.Machine.oIntStatus, Sys2Proof.Machine.oPba, Sys2Proof.Machine.oPortStatus 0, Sys2Proof.Machine.oPortStatus 1, Sys2Proof.Machine.oPortStatus 2, Sys2Proof.Machine.oPortStatus 3, Sys2Proof.Machine.oPortStatus 4, Sys2Proof.Machine.oPortStatus 5, Sys2Proof.Machine.oPortStatus 6, Sys2Proof.Machine.oPortStatus 7] := by
  intro s x1
  unfold State.trigger
  repeat' first
    | (show ∀ _ : Nat, _; exact offs_sub (by decide +kernel))
    | (show ¬ (_ ∈ _); decide +kernel)
    | (with_reducible intro _; beta_reduce)
    | ((conv => arg 2; arg 1; skip); with_reducible apply OnlyRegs.ite)
    | (extract_lets +onlyGivenNames t; refine OnlyRegs.cut (t := t) ?_ ?_ <;> [(unfold t; clear t); (intro v _ e; clear_value t; subst e; rename' v => w)])
    | (extract_lets +onlyGivenNames t; refine OnlyRegs.cut (t := t) ?_ ?_ <;> [(unfold t; clear t); (intro v _ e; subst v; rename' t => w)])
    | (extract_lets +onlyGivenNames t; refine OnlyRegs.cutFst (t := t) ?_ ?_ <;> [(unfold t; clear t); (intro v _ e; clear_value t; subst e; rename' v => w)])
    | (extract_lets +onlyGivenNames t; refine OnlyRegs.cutSnd (t := t) ?_ ?_ <;> [(unfold t; clear t); (intro v _ e; clear_value t; subst e; rename' v => w)])
    | (extract_lets +onlyGivenNames t; (have _h := fun x => t x); clear _h; unfold t; clear t)
    | (extract_lets +onlyGivenNames t; clear_value t; rename' t => w)
    | (extract_lets +onlyGivenNames t; rename' t => w)
    | with_reducible assumption
    | with_reducible exact OnlyRegs.refl _
    | ((conv => arg 2; arg 36; skip); refine OnlyRegs.tr ?_ (OnlyRegs.upd (l := []) rfl rfl) ?_)
    | (with_reducible apply OnlyRegs.tr; case k => with_reducible apply State.startFlush_regs)
    | with_reducible apply OnlyRegs.foldl
    | with_reducible apply OnlyRegs.foldlFst
    | with_reducible apply OnlyRegs.foldlSnd
    | split
    | dsimp only

theorem State.urgent_regs : ∀ s x1 x2 x3 x4, OnlyRegs s (State.urgent s x1 x2 x3 x4) [Sys2Proof.Machine.oCalBbox, Sys2Proof.Machine.oCalLost, Sys2Proof.Machine.oCalOldest, Sys2Proof.Machine.oCalWrite, Sys2Proof.Machine.oIntStatus, Sys2Proof.Machine.oPba, Sys2Proof.Machine.oPortStatus 0, Sys2Proof.Machine.oPortStatus 1, Sys2Proof.Machine.oPortStatus 2, Sys2Proof.Machine.oPortStatus 3, Sys2Proof.Machine.oPortStatus 4, Sys2Proof.Machine.oPortStatus 5, Sys2Proof.Machine.oPortStatus 6, Sys2Proof.Machine.oPortStatus 7] := by
  intro s x1 x2 x3 x4
  unfold State.urgent
  repeat' first
    | (show ∀ _ : Nat, _; exact offs_sub (by decide +kernel))
    | (show ¬ (_ ∈ _); decide +kernel)
    | (with_reducible intro _; beta_reduce)
    | ((conv => arg 2; arg 1; skip); with_reducible apply OnlyRegs.ite)
    | (extract_lets +onlyGivenNames t; refine OnlyRegs.cut (t := t) ?_ ?_ <;> [(unfold t; clear t); (intro v _ e; clear_value t; subst e; rename' v => w)])
    | (extract_lets +onlyGivenNames t; refine OnlyRegs.cut (t := t) ?_ ?_ <;> [(unfold t; clear t); (intro v _ e; subst v; rename' t => w)])
    | (extract_lets +onlyGivenNames t; refine OnlyRegs.cutFst (t := t) ?_ ?_ <;> [(unfold t; clear t); (intro v _ e; clear_value t; subst e; rename' v => w)])
    | (extract_lets +onlyGivenNames t; refine OnlyRegs.cutSnd (t := t) ?_ ?_ <;> [(unfold t; clear t); (intro v _ e; clear_value t; subst e; rename' v => w)])
    | (extract_lets +onlyGivenNames t; (have _h := fun x => t x); clear _h; unfold t; clear t)
    | (extract_lets +onlyGivenNames t; clear_value t; rename' t => w)
    | (extract_lets +onlyGivenNames t; rename' t => w)
    | with_reducible assumption
    | with_reducible exact OnlyRegs.refl _
    | (with_reducible apply OnlyRegs.tr; case k => with_reducible apply State.enqueue_regs)
    | (with_reducible apply OnlyRegs.tr; case k => with_reducible apply State.trigger_regs)
    | with_reducible apply OnlyRegs.foldl
    | with_reducible apply OnlyRegs.foldlFst
    | with_reducible apply OnlyRegs.foldlSnd
    | split
    | dsimp only

theorem State.endFlush_regs : ∀ s, OnlyRegs s (State.endFlush s) [Sys2Proof.Machine.oCalBbox, Sys2Proof.Machine.oCalLost, Sys2Proof.Machine.oIntStatus, Sys2Proof.Machine.oPba] := by
  intro s
  unfold State.endFlush
  repeat' first
    | (show ∀ _ : Nat, _; exact offs_sub (by decide +kernel))
    | (show ¬ (_ ∈ _); decide +kernel)
    | (with_reducible intro _; beta_reduce)
    | ((conv => arg 2; arg 1; skip); with_reducible apply OnlyRegs.ite)
    | (extract_lets +onlyGivenNames t; refine OnlyRegs.cut (t := t) ?_ ?_ <;> [(unfold t; clear t); (intro v _ e; clear_value t; subst e; rename' v => w)])
    | (extract_lets +onlyGivenNames t; refine OnlyRegs.cut (t := t) ?_ ?_ <;> [(unfold t; clear t); (intro v _ e; subst v; rename' t => w)])
    | (extract_lets +onlyGivenNames t; refine OnlyRegs.cutFst (t := t) ?_ ?_ <;> [(unfold t; clear t); (intro v _ e; clear_value t; subst e; rename' v => w)])
    | (extract_lets +onlyGivenNames t; refine OnlyRegs.cutSnd (t := t) ?_ ?_ <;> [(unfold t; clear t); (intro v _ e; clear_value t; subst e; rename' v => w)])
    | (extract_lets +onlyGivenNames t; (have _h := fun x => t x); clear _h; unfold t; clear t)
    | (extract_lets +onlyGivenNames t; clear_value t; rename' t => w)
    | (extract_lets +onlyGivenNames t; rename' t => w)
    | with_reducible assumption
    | with_reducible exact OnlyRegs.refl _
    | ((conv => arg 2; arg 36; skip); refine OnlyRegs.tr ?_ (OnlyRegs.upd (l := []) rfl rfl) ?_)
    | (with_reducible apply OnlyRegs.tr; case k => with_reducible apply State.loadBbox_regs)
    | (with_reducible apply OnlyRegs.tr; case k => with_reducible apply State.post_regs)
    | (with_reducible apply OnlyRegs.tr; case k => with_reducible apply State.raise_regs)
    | with_reducible apply OnlyRegs.foldl
    | with_reducible apply OnlyRegs.foldlFst
    | with_reducible apply OnlyRegs.foldlSnd
    | split
    | dsimp only

theorem State.endSend_regs : ∀ s, OnlyRegs s (State.endSend s) [Sys2Proof.Machine.oCalLost] := by
  intro s
  unfold State.endSend
  repeat' first
    | (show ∀ _ : Nat, _; exact offs_sub (by decide +kernel))
    | (show ¬ (_ ∈ _); decide +kernel)
    | (with_reducible intro _; beta_reduce)
    | ((conv => arg 2; arg 1; skip); with_reducible apply OnlyRegs.ite)
    | (extract_lets +onlyGivenNames t; refine OnlyRegs.cut (t := t) ?_ ?_ <;> [(unfold t; clear t); (intro v _ e; clear_value t; subst e; rename' v => w)])
    | (extract_lets +onlyGivenNames t; refine OnlyRegs.cut (t := t) ?_ ?_ <;> [(unfold t; clear t); (intro v _ e; subst v; rename' t => w)])
    | (extract_lets +onlyGivenNames t; refine OnlyRegs.cutFst (t := t) ?_ ?_ <;> [(unfold t; clear t); (intro v _ e; clear_value t; subst e; rename' v => w)])
    | (extract_lets +onlyGivenNames t; refine OnlyRegs.cutSnd (t := t) ?_ ?_ <;> [(unfold t; clear t); (intro v _ e; clear_value t; subst e; rename' v => w)])
    | (extract_lets +onlyGivenNames t; (have _h := fun x => t x); clear _h; unfold t; clear t)
    | (extract_lets +onlyGivenNames t; clear_value t; rename' t => w)
    | (extract_lets +onlyGivenNames t; rename' t => w)
    | with_reducible assumption
    | with_reducible exact OnlyRegs.refl _
    | ((conv => arg 2; arg 36; skip); refine OnlyRegs.tr ?_ (OnlyRegs.upd (l := []) rfl rfl) ?_)
    | (with_reducible apply OnlyRegs.tr; case k => with_reducible apply State.post_regs)
    | with_reducible apply OnlyRegs.foldl
    | with_reducible apply OnlyRegs.foldlFst
    | with_reducible apply OnlyRegs.foldlSnd
    | split
    | dsimp only

theorem State.startPending_regs : ∀ s, OnlyRegs s (State.startPending s) [Sys2Proof.Machine.oCalBbox, Sys2Proof.Machine.oCalLost, Sys2Proof.Machine.oCalOldest, Sys2Proof.Machine.oCalWrite, Sys2Proof.Machine.oIntStatus, Sys2Proof.Machine.oPba, Sys2Proof.Machine.oPortStatus 0, Sys2Proof.Machine.oPortStatus 1, Sys2Proof.Machine.oPortStatus 2, Sys2Proof.Machine.oPortStatus 3, Sys2Proof.Machine.oPortStatus 4, Sys2Proof.Machine.oPortStatus 5, Sys2Proof.Machine.oPortStatus 6, Sys2Proof.Machine.oPortStatus 7] := by
  intro s
  unfold State.startPending
  repeat' first
    | (show ∀ _ : Nat, _; exact offs_sub (by decide +kernel))
    | (show ¬ (_ ∈ _); decide +kernel)
    | (with_reducible intro _; beta_reduce)
    | ((conv => arg 2; arg 1; skip); with_reducible apply OnlyRegs.ite)
    | (extract_lets +onlyGivenNames t; refine OnlyRegs.cut (t := t) ?_ ?_ <;> [(unfold t; clear t); (intro v _ e; clear_value t; subst e; rename' v => w)])
    | (extract_lets +onlyGivenNames t; refine OnlyRegs.cut (t := t) ?_ ?_ <;> [(unfold t; clear t); (intro v _ e; subst v; rename' t => w)])
    | (extract_lets +onlyGivenNames t; refine OnlyRegs.cutFst (t := t) ?_ ?_ <;> [(unfold t; clear t); (intro v _ e; clear_value t; subst e; rename' v => w)])
    | (extract_lets +onlyGivenNames t; refine OnlyRegs.cutSnd (t := t) ?_ ?_ <;> [(unfold t; clear t); (intro v _ e; clear_value t; subst e; rename' v => w)])
    | (extract_lets +onlyGivenNames t; (have _h := fun x => t x); clear _h; unfold t; clear t)
    | (extract_lets +onlyGivenNames t; clear_value t; rename' t => w)
    | (extract_lets +onlyGivenNames t; rename' t => w)
    | with_reducible assumption
    | with_reducible exact OnlyRegs.refl _
    | ((conv => arg 2; arg 36; skip); refine OnlyRegs.tr ?_ (OnlyRegs.upd (l := []) rfl rfl) ?_)
    | (with_reducible apply OnlyRegs.tr; case k => with_reducible apply State.startFlush_regs)
    | with_reducible apply OnlyRegs.foldl
    | with_reducible apply OnlyRegs.foldlFst
    | with_reducible apply OnlyRegs.foldlSnd
    | split
    | dsimp only

theorem State.endSends_regs : ∀ x0 s, OnlyRegs s (State.endSends x0 s) [Sys2Proof.Machine.oCalLost] := by
  intro x0 s
  induction x0 generalizing s
  case zero =>
    unfold State.endSends
    repeat' first
      | (show ∀ _ : Nat, _; exact offs_sub (by decide +kernel))
      | (show ¬ (_ ∈ _); decide +kernel)
      | (with_reducible intro _; beta_reduce)
      | ((conv => arg 2; arg 1; skip); with_reducible apply OnlyRegs.ite)
      | (extract_lets +onlyGivenNames t; refine OnlyRegs.cut (t := t) ?_ ?_ <;> [(unfold t; clear t); (intro v _ e; clear_value t; subst e; rename' v => w)])
      | (extract_lets +onlyGivenNames t; refine OnlyRegs.cut (t := t) ?_ ?_ <;> [(unfold t; clear t); (intro v _ e; subst v; rename' t => w)])
      | (extract_lets +onlyGivenNames t; refine OnlyRegs.cutFst (t := t) ?_ ?_ <;> [(unfold t; clear t); (intro v _ e; clear_value t; subst e; rename' v => w)])
      | (extract_lets +onlyGivenNames t; refine OnlyRegs.cutSnd (t := t) ?_ ?_ <;> [(unfold t; clear t); (intro v _ e; clear_value t; subst e; rename' v => w)])
      | (extract_lets +onlyGivenNames t; (have _h := fun x => t x); clear _h; unfold t; clear t)
      | (extract_lets +onlyGivenNames t; clear_value t; rename' t => w)
      | (extract_lets +onlyGivenNames t; rename' t => w)
      | with_reducible assumption
      | with_reducible exact OnlyRegs.refl _
      | (with_reducible apply OnlyRegs.tr; case k => with_reducible apply State.endSend_regs)
      | with_reducible apply OnlyRegs.foldl
      | with_reducible apply OnlyRegs.foldlFst
      | with_reducible apply OnlyRegs.foldlSnd
      | split
      | dsimp only
  case succ n ih =>
    unfold State.endSends
    repeat' first
      | (show ∀ _ : Nat, _; exact offs_sub (by decide +kernel))
      | (show ¬ (_ ∈ _); decide +kernel)
      | (with_reducible intro _; beta_reduce)
      | ((conv => arg 2; arg 1; skip); with_reducible apply OnlyRegs.ite)
      | (extract_lets +onlyGivenNames t; refine OnlyRegs.cut (t := t) ?_ ?_ <;> [(unfold t; clear t); (intro v _ e; clear_value t; subst e; rename' v => w)])
      | (extract_lets +onlyGivenNames t; refine OnlyRegs.cut (t := t) ?_ ?_ <;> [(unfold t; clear t); (intro v _ e; subst v; rename' t => w)])
      | (extract_lets +onlyGivenNames t; refine OnlyRegs.cutFst (t := t) ?_ ?_ <;> [(unfold t; clear t); (intro v _ e; clear_value t; subst e; rename' v => w)])
      | (extract_lets +onlyGivenNames t; refine OnlyRegs.cutSnd (t := t) ?_ ?_ <;> [(unfold t; clear t); (intro v _ e; clear_value t; subst e; rename' v => w)])
      | (extract_lets +onlyGivenNames t; (have _h := fun x => t x); clear _h; unfold t; clear t)
      | (extract_lets +onlyGivenNames t; clear_value t; rename' t => w)
      | (extract_lets +onlyGivenNames t; rename' t => w)
      | with_reducible assumption
      | with_reducible exact OnlyRegs.refl _
      | (with_reducible apply OnlyRegs.tr; case k => with_reducible apply ih)
      | (with_reducible apply OnlyRegs.tr; case k => with_reducible apply State.endSend_regs)
      | with_reducible apply OnlyRegs.foldl
      | with_reducible apply OnlyRegs.foldlFst
      | with_reducible apply OnlyRegs.foldlSnd
      | split
      | dsimp only

theorem State.flushOut_regs : ∀ s, OnlyRegs s (State.flushOut s) [Sys2Proof.Machine.oCalBbox, Sys2Proof.Machine.oCalLost, Sys2Proof.Machine.oCalOldest, Sys2Proof.Machine.oCalWrite, Sys2Proof.Machine.oIntStatus, Sys2Proof.Machine.oPba, Sys2Proof.Machine.oPortStatus 0, Sys2Proof.Machine.oPortStatus 1, Sys2Proof.Machine.oPortStatus 2, Sys2Proof.Machine.oPortStatus 3, Sys2Proof.Machine.oPortStatus 4, Sys2Proof.Machine.oPortStatus 5, Sys2Proof.Machine.oPortStatus 6, Sys2Proof.Machine.oPortStatus 7] := by
  intro s
  unfold State.flushOut
  repeat' first
    | (show ∀ _ : Nat, _; exact offs_sub (by decide +kernel))
    | (show ¬ (_ ∈ _); decide +kernel)
    | (with_reducible intro _; beta_reduce)
    | ((conv => arg 2; arg 1; skip); with_reducible apply OnlyRegs.ite)
    | (extract_lets +onlyGivenNames t; refine OnlyRegs.cut (t := t) ?_ ?_ <;> [(unfold t; clear t); (intro v _ e; clear_value t; subst e; rename' v => w)])
    | (extract_lets +onlyGivenNames t; refine OnlyRegs.cut (t := t) ?_ ?_ <;> [(unfold t; clear t); (intro v _ e; subst v; rename' t => w)])
    | (extract_lets +onlyGivenNames t; refine OnlyRegs.cutFst (t := t) ?_ ?_ <;> [(unfold t; clear t); (intro v _ e; clear_value t; subst e; rename' v => w)])
    | (extract_lets +onlyGivenNames t; refine OnlyRegs.cutSnd (t := t) ?_ ?_ <;> [(unfold t; clear t); (intro v _ e; clear_value t; subst e; rename' v => w)])
    | (extract_lets +onlyGivenNames t; (have _h := fun x => t x); clear _h; unfold t; clear t)
    | (extract_lets +onlyGivenNames t; clear_value t; rename' t => w)
    | (extract_lets +onlyGivenNames t; rename' t => w)
    | with_reducible assumption
    | with_reducible exact OnlyRegs.refl _
    | (with_reducible apply OnlyRegs.tr; case k => with_reducible apply State.endFlush_regs)
    | (with_reducible apply OnlyRegs.tr; case k => with_reducible apply State.endSends_regs)
    | (with_reducible apply OnlyRegs.tr; case k => with_reducible apply State.startPending_regs)
    | with_reducible apply OnlyRegs.foldl
    | with_reducible apply OnlyRegs.foldlFst
    | with_reducible apply OnlyRegs.foldlSnd
    | split
    | dsimp only

end Sys2Proof.Machine
end

