-- ==== Sys2Proof/Laws/TouchRecovery.lean ====
section
/-!
SUPPORT. What the functions of Machine/Recovery.lean may touch.
-/

set_option linter.all false
set_option Elab.async false
set_option linter.unreachableTactic false
set_option linter.unusedTactic false
set_option linter.tactic.unusedName false

namespace Sys2Proof.Machine

theorem State.power_touches : ∀ s x1 x2 x3, Touches [.regs, .cal, .out] s (State.power s x1 x2 x3) := by
  intro s x1 x2 x3
  unfold State.power
  repeat' first
    | (show ∀ _ : Part, _; exact Part.sub (by decide +kernel))
    | (with_reducible intro _; beta_reduce)
    | ((conv => arg 3; arg 1; skip); with_reducible apply Touches.ite)
    | (extract_lets +onlyGivenNames t; refine Touches.cut (t := t) ?_ ?_ <;> [(unfold t; clear t); (intro v _ e; clear_value t; subst e; rename' v => w)])
    | (extract_lets +onlyGivenNames t; refine Touches.cut (t := t) ?_ ?_ <;> [(unfold t; clear t); (intro v _ e; subst v; rename' t => w)])
    | (extract_lets +onlyGivenNames t; refine Touches.cutFst (t := t) ?_ ?_ <;> [(unfold t; clear t); (intro v _ e; clear_value t; subst e; rename' v => w)])
    | (extract_lets +onlyGivenNames t; refine Touches.cutSnd (t := t) ?_ ?_ <;> [(unfold t; clear t); (intro v _ e; clear_value t; subst e; rename' v => w)])
    | (extract_lets +onlyGivenNames t; (have _h := fun x => t x); clear _h; unfold t; clear t)
    | (extract_lets +onlyGivenNames t; clear_value t; rename' t => w)
    | (extract_lets +onlyGivenNames t; rename' t => w)
    | with_reducible assumption
    | with_reducible exact Touches.refl _
    | (with_reducible apply Touches.trans; case k => with_reducible apply State.post_touches)
    | (with_reducible apply Touches.trans; case k => with_reducible apply State.raise_touches)
    | with_reducible apply Touches.foldl
    | with_reducible apply Touches.foldlFst
    | with_reducible apply Touches.foldlSnd
    | split
    | dsimp only

theorem State.linkRec_touches : ∀ s x1 x2 x3 x4 x5 x6, Touches [.regs, .cal, .out] s (State.linkRec s x1 x2 x3 x4 x5 x6) := by
  intro s x1 x2 x3 x4 x5 x6
  unfold State.linkRec
  repeat' first
    | (show ∀ _ : Part, _; exact Part.sub (by decide +kernel))
    | (with_reducible intro _; beta_reduce)
    | ((conv => arg 3; arg 1; skip); with_reducible apply Touches.ite)
    | (extract_lets +onlyGivenNames t; refine Touches.cut (t := t) ?_ ?_ <;> [(unfold t; clear t); (intro v _ e; clear_value t; subst e; rename' v => w)])
    | (extract_lets +onlyGivenNames t; refine Touches.cut (t := t) ?_ ?_ <;> [(unfold t; clear t); (intro v _ e; subst v; rename' t => w)])
    | (extract_lets +onlyGivenNames t; refine Touches.cutFst (t := t) ?_ ?_ <;> [(unfold t; clear t); (intro v _ e; clear_value t; subst e; rename' v => w)])
    | (extract_lets +onlyGivenNames t; refine Touches.cutSnd (t := t) ?_ ?_ <;> [(unfold t; clear t); (intro v _ e; clear_value t; subst e; rename' v => w)])
    | (extract_lets +onlyGivenNames t; (have _h := fun x => t x); clear _h; unfold t; clear t)
    | (extract_lets +onlyGivenNames t; clear_value t; rename' t => w)
    | (extract_lets +onlyGivenNames t; rename' t => w)
    | with_reducible assumption
    | with_reducible exact Touches.refl _
    | (with_reducible apply Touches.trans; case k => with_reducible apply State.post_touches)
    | (with_reducible apply Touches.trans; case k => with_reducible apply State.raise_touches)
    | with_reducible apply Touches.foldl
    | with_reducible apply Touches.foldlFst
    | with_reducible apply Touches.foldlSnd
    | split
    | dsimp only

theorem State.hostRec_touches : ∀ s x1 x2 x3 x4, Touches [.regs, .cal] s (State.hostRec s x1 x2 x3 x4) := by
  intro s x1 x2 x3 x4
  unfold State.hostRec
  repeat' first
    | (show ∀ _ : Part, _; exact Part.sub (by decide +kernel))
    | (with_reducible intro _; beta_reduce)
    | ((conv => arg 3; arg 1; skip); with_reducible apply Touches.ite)
    | (extract_lets +onlyGivenNames t; refine Touches.cut (t := t) ?_ ?_ <;> [(unfold t; clear t); (intro v _ e; clear_value t; subst e; rename' v => w)])
    | (extract_lets +onlyGivenNames t; refine Touches.cut (t := t) ?_ ?_ <;> [(unfold t; clear t); (intro v _ e; subst v; rename' t => w)])
    | (extract_lets +onlyGivenNames t; refine Touches.cutFst (t := t) ?_ ?_ <;> [(unfold t; clear t); (intro v _ e; clear_value t; subst e; rename' v => w)])
    | (extract_lets +onlyGivenNames t; refine Touches.cutSnd (t := t) ?_ ?_ <;> [(unfold t; clear t); (intro v _ e; clear_value t; subst e; rename' v => w)])
    | (extract_lets +onlyGivenNames t; (have _h := fun x => t x); clear _h; unfold t; clear t)
    | (extract_lets +onlyGivenNames t; clear_value t; rename' t => w)
    | (extract_lets +onlyGivenNames t; rename' t => w)
    | with_reducible assumption
    | with_reducible exact Touches.refl _
    | (with_reducible apply Touches.trans; case k => with_reducible apply State.post_touches)
    | with_reducible apply Touches.foldl
    | with_reducible apply Touches.foldlFst
    | with_reducible apply Touches.foldlSnd
    | split
    | dsimp only

theorem State.pairRec_touches : ∀ s x1, Touches [.regs, .cal, .out] s (State.pairRec s x1) := by
  intro s x1
  unfold State.pairRec
  repeat' first
    | (show ∀ _ : Part, _; exact Part.sub (by decide +kernel))
    | (with_reducible intro _; beta_reduce)
    | ((conv => arg 3; arg 1; skip); with_reducible apply Touches.ite)
    | (extract_lets +onlyGivenNames t; refine Touches.cut (t := t) ?_ ?_ <;> [(unfold t; clear t); (intro v _ e; clear_value t; subst e; rename' v => w)])
    | (extract_lets +onlyGivenNames t; refine Touches.cut (t := t) ?_ ?_ <;> [(unfold t; clear t); (intro v _ e; subst v; rename' t => w)])
    | (extract_lets +onlyGivenNames t; refine Touches.cutFst (t := t) ?_ ?_ <;> [(unfold t; clear t); (intro v _ e; clear_value t; subst e; rename' v => w)])
    | (extract_lets +onlyGivenNames t; refine Touches.cutSnd (t := t) ?_ ?_ <;> [(unfold t; clear t); (intro v _ e; clear_value t; subst e; rename' v => w)])
    | (extract_lets +onlyGivenNames t; (have _h := fun x => t x); clear _h; unfold t; clear t)
    | (extract_lets +onlyGivenNames t; clear_value t; rename' t => w)
    | (extract_lets +onlyGivenNames t; rename' t => w)
    | with_reducible assumption
    | with_reducible exact Touches.refl _
    | (with_reducible apply Touches.trans; case k => with_reducible apply State.post_touches)
    | (with_reducible apply Touches.trans; case k => with_reducible apply State.raise_touches)
    | with_reducible apply Touches.foldl
    | with_reducible apply Touches.foldlFst
    | with_reducible apply Touches.foldlSnd
    | split
    | dsimp only

theorem State.decision_touches : ∀ s x1 x2 x3, Touches [.regs, .cal] s (State.decision s x1 x2 x3) := by
  intro s x1 x2 x3
  unfold State.decision
  repeat' first
    | (show ∀ _ : Part, _; exact Part.sub (by decide +kernel))
    | (with_reducible intro _; beta_reduce)
    | ((conv => arg 3; arg 1; skip); with_reducible apply Touches.ite)
    | (extract_lets +onlyGivenNames t; refine Touches.cut (t := t) ?_ ?_ <;> [(unfold t; clear t); (intro v _ e; clear_value t; subst e; rename' v => w)])
    | (extract_lets +onlyGivenNames t; refine Touches.cut (t := t) ?_ ?_ <;> [(unfold t; clear t); (intro v _ e; subst v; rename' t => w)])
    | (extract_lets +onlyGivenNames t; refine Touches.cutFst (t := t) ?_ ?_ <;> [(unfold t; clear t); (intro v _ e; clear_value t; subst e; rename' v => w)])
    | (extract_lets +onlyGivenNames t; refine Touches.cutSnd (t := t) ?_ ?_ <;> [(unfold t; clear t); (intro v _ e; clear_value t; subst e; rename' v => w)])
    | (extract_lets +onlyGivenNames t; (have _h := fun x => t x); clear _h; unfold t; clear t)
    | (extract_lets +onlyGivenNames t; clear_value t; rename' t => w)
    | (extract_lets +onlyGivenNames t; rename' t => w)
    | with_reducible assumption
    | with_reducible exact Touches.refl _
    | (with_reducible apply Touches.trans; case k => with_reducible apply State.postAt_touches)
    | with_reducible apply Touches.foldl
    | with_reducible apply Touches.foldlFst
    | with_reducible apply Touches.foldlSnd
    | split
    | dsimp only

theorem State.roundRec_touches : ∀ s x1 x2 x3, Touches [.regs, .cal, .out] s (State.roundRec s x1 x2 x3) := by
  intro s x1 x2 x3
  unfold State.roundRec
  repeat' first
    | (show ∀ _ : Part, _; exact Part.sub (by decide +kernel))
    | (with_reducible intro _; beta_reduce)
    | ((conv => arg 3; arg 1; skip); with_reducible apply Touches.ite)
    | (extract_lets +onlyGivenNames t; refine Touches.cut (t := t) ?_ ?_ <;> [(unfold t; clear t); (intro v _ e; clear_value t; subst e; rename' v => w)])
    | (extract_lets +onlyGivenNames t; refine Touches.cut (t := t) ?_ ?_ <;> [(unfold t; clear t); (intro v _ e; subst v; rename' t => w)])
    | (extract_lets +onlyGivenNames t; refine Touches.cutFst (t := t) ?_ ?_ <;> [(unfold t; clear t); (intro v _ e; clear_value t; subst e; rename' v => w)])
    | (extract_lets +onlyGivenNames t; refine Touches.cutSnd (t := t) ?_ ?_ <;> [(unfold t; clear t); (intro v _ e; clear_value t; subst e; rename' v => w)])
    | (extract_lets +onlyGivenNames t; (have _h := fun x => t x); clear _h; unfold t; clear t)
    | (extract_lets +onlyGivenNames t; clear_value t; rename' t => w)
    | (extract_lets +onlyGivenNames t; rename' t => w)
    | with_reducible assumption
    | with_reducible exact Touches.refl _
    | (with_reducible apply Touches.trans; case k => with_reducible apply State.post_touches)
    | (with_reducible apply Touches.trans; case k => with_reducible apply State.raise_touches)
    | with_reducible apply Touches.foldl
    | with_reducible apply Touches.foldlFst
    | with_reducible apply Touches.foldlSnd
    | split
    | dsimp only

theorem State.fwRec_touches : ∀ s x1 x2, Touches [.regs, .cal] s (State.fwRec s x1 x2) := by
  intro s x1 x2
  unfold State.fwRec
  repeat' first
    | (show ∀ _ : Part, _; exact Part.sub (by decide +kernel))
    | (with_reducible intro _; beta_reduce)
    | ((conv => arg 3; arg 1; skip); with_reducible apply Touches.ite)
    | (extract_lets +onlyGivenNames t; refine Touches.cut (t := t) ?_ ?_ <;> [(unfold t; clear t); (intro v _ e; clear_value t; subst e; rename' v => w)])
    | (extract_lets +onlyGivenNames t; refine Touches.cut (t := t) ?_ ?_ <;> [(unfold t; clear t); (intro v _ e; subst v; rename' t => w)])
    | (extract_lets +onlyGivenNames t; refine Touches.cutFst (t := t) ?_ ?_ <;> [(unfold t; clear t); (intro v _ e; clear_value t; subst e; rename' v => w)])
    | (extract_lets +onlyGivenNames t; refine Touches.cutSnd (t := t) ?_ ?_ <;> [(unfold t; clear t); (intro v _ e; clear_value t; subst e; rename' v => w)])
    | (extract_lets +onlyGivenNames t; (have _h := fun x => t x); clear _h; unfold t; clear t)
    | (extract_lets +onlyGivenNames t; clear_value t; rename' t => w)
    | (extract_lets +onlyGivenNames t; rename' t => w)
    | with_reducible assumption
    | with_reducible exact Touches.refl _
    | (with_reducible apply Touches.trans; case k => with_reducible apply State.post_touches)
    | with_reducible apply Touches.foldl
    | with_reducible apply Touches.foldlFst
    | with_reducible apply Touches.foldlSnd
    | split
    | dsimp only

theorem State.keyRec_touches : ∀ s x1 x2 x3 x4 x5 x6, Touches [.regs, .cal, .out] s (State.keyRec s x1 x2 x3 x4 x5 x6) := by
  intro s x1 x2 x3 x4 x5 x6
  unfold State.keyRec
  repeat' first
    | (show ∀ _ : Part, _; exact Part.sub (by decide +kernel))
    | (with_reducible intro _; beta_reduce)
    | ((conv => arg 3; arg 1; skip); with_reducible apply Touches.ite)
    | (extract_lets +onlyGivenNames t; refine Touches.cut (t := t) ?_ ?_ <;> [(unfold t; clear t); (intro v _ e; clear_value t; subst e; rename' v => w)])
    | (extract_lets +onlyGivenNames t; refine Touches.cut (t := t) ?_ ?_ <;> [(unfold t; clear t); (intro v _ e; subst v; rename' t => w)])
    | (extract_lets +onlyGivenNames t; refine Touches.cutFst (t := t) ?_ ?_ <;> [(unfold t; clear t); (intro v _ e; clear_value t; subst e; rename' v => w)])
    | (extract_lets +onlyGivenNames t; refine Touches.cutSnd (t := t) ?_ ?_ <;> [(unfold t; clear t); (intro v _ e; clear_value t; subst e; rename' v => w)])
    | (extract_lets +onlyGivenNames t; (have _h := fun x => t x); clear _h; unfold t; clear t)
    | (extract_lets +onlyGivenNames t; clear_value t; rename' t => w)
    | (extract_lets +onlyGivenNames t; rename' t => w)
    | with_reducible assumption
    | with_reducible exact Touches.refl _
    | (with_reducible apply Touches.trans; case k => with_reducible apply State.post_touches)
    | (with_reducible apply Touches.trans; case k => with_reducible apply State.raise_touches)
    | with_reducible apply Touches.foldl
    | with_reducible apply Touches.foldlFst
    | with_reducible apply Touches.foldlSnd
    | split
    | dsimp only

theorem State.setClu_touches : ∀ s x1 x2, Touches [.clus] s (State.setClu s x1 x2) := by
  intro s x1 x2
  unfold State.setClu
  repeat' first
    | (show ∀ _ : Part, _; exact Part.sub (by decide +kernel))
    | (with_reducible intro _; beta_reduce)
    | ((conv => arg 3; arg 1; skip); with_reducible apply Touches.ite)
    | (extract_lets +onlyGivenNames t; refine Touches.cut (t := t) ?_ ?_ <;> [(unfold t; clear t); (intro v _ e; clear_value t; subst e; rename' v => w)])
    | (extract_lets +onlyGivenNames t; refine Touches.cut (t := t) ?_ ?_ <;> [(unfold t; clear t); (intro v _ e; subst v; rename' t => w)])
    | (extract_lets +onlyGivenNames t; refine Touches.cutFst (t := t) ?_ ?_ <;> [(unfold t; clear t); (intro v _ e; clear_value t; subst e; rename' v => w)])
    | (extract_lets +onlyGivenNames t; refine Touches.cutSnd (t := t) ?_ ?_ <;> [(unfold t; clear t); (intro v _ e; clear_value t; subst e; rename' v => w)])
    | (extract_lets +onlyGivenNames t; (have _h := fun x => t x); clear _h; unfold t; clear t)
    | (extract_lets +onlyGivenNames t; clear_value t; rename' t => w)
    | (extract_lets +onlyGivenNames t; rename' t => w)
    | with_reducible assumption
    | with_reducible exact Touches.refl _
    | ((conv => arg 3; arg 36; skip); refine Touches.trans ?_ (Touches.upd (l := [.clus]) rfl) ?_)
    | with_reducible apply Touches.foldl
    | with_reducible apply Touches.foldlFst
    | with_reducible apply Touches.foldlSnd
    | split
    | dsimp only

theorem State.setCore_touches : ∀ s x1 x2, Touches [.cores] s (State.setCore s x1 x2) := by
  intro s x1 x2
  unfold State.setCore
  repeat' first
    | (show ∀ _ : Part, _; exact Part.sub (by decide +kernel))
    | (with_reducible intro _; beta_reduce)
    | ((conv => arg 3; arg 1; skip); with_reducible apply Touches.ite)
    | (extract_lets +onlyGivenNames t; refine Touches.cut (t := t) ?_ ?_ <;> [(unfold t; clear t); (intro v _ e; clear_value t; subst e; rename' v => w)])
    | (extract_lets +onlyGivenNames t; refine Touches.cut (t := t) ?_ ?_ <;> [(unfold t; clear t); (intro v _ e; subst v; rename' t => w)])
    | (extract_lets +onlyGivenNames t; refine Touches.cutFst (t := t) ?_ ?_ <;> [(unfold t; clear t); (intro v _ e; clear_value t; subst e; rename' v => w)])
    | (extract_lets +onlyGivenNames t; refine Touches.cutSnd (t := t) ?_ ?_ <;> [(unfold t; clear t); (intro v _ e; clear_value t; subst e; rename' v => w)])
    | (extract_lets +onlyGivenNames t; (have _h := fun x => t x); clear _h; unfold t; clear t)
    | (extract_lets +onlyGivenNames t; clear_value t; rename' t => w)
    | (extract_lets +onlyGivenNames t; rename' t => w)
    | with_reducible assumption
    | with_reducible exact Touches.refl _
    | ((conv => arg 3; arg 36; skip); refine Touches.trans ?_ (Touches.upd (l := [.cores]) rfl) ?_)
    | with_reducible apply Touches.foldl
    | with_reducible apply Touches.foldlFst
    | with_reducible apply Touches.foldlSnd
    | split
    | dsimp only

theorem State.stopCluster_touches : ∀ s x1, Touches [.regs, .clus] s (State.stopCluster s x1) := by
  intro s x1
  unfold State.stopCluster
  repeat' first
    | (show ∀ _ : Part, _; exact Part.sub (by decide +kernel))
    | (with_reducible intro _; beta_reduce)
    | ((conv => arg 3; arg 1; skip); with_reducible apply Touches.ite)
    | (extract_lets +onlyGivenNames t; refine Touches.cut (t := t) ?_ ?_ <;> [(unfold t; clear t); (intro v _ e; clear_value t; subst e; rename' v => w)])
    | (extract_lets +onlyGivenNames t; refine Touches.cut (t := t) ?_ ?_ <;> [(unfold t; clear t); (intro v _ e; subst v; rename' t => w)])
    | (extract_lets +onlyGivenNames t; refine Touches.cutFst (t := t) ?_ ?_ <;> [(unfold t; clear t); (intro v _ e; clear_value t; subst e; rename' v => w)])
    | (extract_lets +onlyGivenNames t; refine Touches.cutSnd (t := t) ?_ ?_ <;> [(unfold t; clear t); (intro v _ e; clear_value t; subst e; rename' v => w)])
    | (extract_lets +onlyGivenNames t; (have _h := fun x => t x); clear _h; unfold t; clear t)
    | (extract_lets +onlyGivenNames t; clear_value t; rename' t => w)
    | (extract_lets +onlyGivenNames t; rename' t => w)
    | with_reducible assumption
    | with_reducible exact Touches.refl _
    | (with_reducible apply Touches.trans; case k => with_reducible apply State.setClu_touches)
    | (with_reducible apply Touches.trans; case k => with_reducible apply State.setCtx_touches)
    | with_reducible apply Touches.foldl
    | with_reducible apply Touches.foldlFst
    | with_reducible apply Touches.foldlSnd
    | split
    | dsimp only

theorem State.stopStep_touches : ∀ s, Touches [.regs, .clus] s (State.stopStep s) := by
  intro s
  unfold State.stopStep
  repeat' first
    | (show ∀ _ : Part, _; exact Part.sub (by decide +kernel))
    | (with_reducible intro _; beta_reduce)
    | ((conv => arg 3; arg 1; skip); with_reducible apply Touches.ite)
    | (extract_lets +onlyGivenNames t; refine Touches.cut (t := t) ?_ ?_ <;> [(unfold t; clear t); (intro v _ e; clear_value t; subst e; rename' v => w)])
    | (extract_lets +onlyGivenNames t; refine Touches.cut (t := t) ?_ ?_ <;> [(unfold t; clear t); (intro v _ e; subst v; rename' t => w)])
    | (extract_lets +onlyGivenNames t; refine Touches.cutFst (t := t) ?_ ?_ <;> [(unfold t; clear t); (intro v _ e; clear_value t; subst e; rename' v => w)])
    | (extract_lets +onlyGivenNames t; refine Touches.cutSnd (t := t) ?_ ?_ <;> [(unfold t; clear t); (intro v _ e; clear_value t; subst e; rename' v => w)])
    | (extract_lets +onlyGivenNames t; (have _h := fun x => t x); clear _h; unfold t; clear t)
    | (extract_lets +onlyGivenNames t; clear_value t; rename' t => w)
    | (extract_lets +onlyGivenNames t; rename' t => w)
    | with_reducible assumption
    | with_reducible exact Touches.refl _
    | (with_reducible apply Touches.trans; case k => with_reducible apply State.stopCluster_touches)
    | with_reducible apply Touches.foldl
    | with_reducible apply Touches.foldlFst
    | with_reducible apply Touches.foldlSnd
    | split
    | dsimp only

theorem State.dropAttempt_touches : ∀ s x1, Touches [.qs, .strg, .jug] s (State.dropAttempt s x1) := by
  intro s x1
  unfold State.dropAttempt
  repeat' first
    | (show ∀ _ : Part, _; exact Part.sub (by decide +kernel))
    | (with_reducible intro _; beta_reduce)
    | ((conv => arg 3; arg 1; skip); with_reducible apply Touches.ite)
    | (extract_lets +onlyGivenNames t; refine Touches.cut (t := t) ?_ ?_ <;> [(unfold t; clear t); (intro v _ e; clear_value t; subst e; rename' v => w)])
    | (extract_lets +onlyGivenNames t; refine Touches.cut (t := t) ?_ ?_ <;> [(unfold t; clear t); (intro v _ e; subst v; rename' t => w)])
    | (extract_lets +onlyGivenNames t; refine Touches.cutFst (t := t) ?_ ?_ <;> [(unfold t; clear t); (intro v _ e; clear_value t; subst e; rename' v => w)])
    | (extract_lets +onlyGivenNames t; refine Touches.cutSnd (t := t) ?_ ?_ <;> [(unfold t; clear t); (intro v _ e; clear_value t; subst e; rename' v => w)])
    | (extract_lets +onlyGivenNames t; (have _h := fun x => t x); clear _h; unfold t; clear t)
    | (extract_lets +onlyGivenNames t; clear_value t; rename' t => w)
    | (extract_lets +onlyGivenNames t; rename' t => w)
    | with_reducible assumption
    | with_reducible exact Touches.refl _
    | ((conv => arg 3; arg 36; skip); refine Touches.trans ?_ (Touches.upd (l := [.qs, .strg, .jug]) rfl) ?_)
    | with_reducible apply Touches.foldl
    | with_reducible apply Touches.foldlFst
    | with_reducible apply Touches.foldlSnd
    | split
    | dsimp only

theorem State.doneSteps_touches : ∀ s x1 x2, Touches [.regs, .mbx, .out] s (State.doneSteps s x1 x2) := by
  intro s x1 x2
  unfold State.doneSteps
  repeat' first
    | (show ∀ _ : Part, _; exact Part.sub (by decide +kernel))
    | (with_reducible intro _; beta_reduce)
    | ((conv => arg 3; arg 1; skip); with_reducible apply Touches.ite)
    | (extract_lets +onlyGivenNames t; refine Touches.cut (t := t) ?_ ?_ <;> [(unfold t; clear t); (intro v _ e; clear_value t; subst e; rename' v => w)])
    | (extract_lets +onlyGivenNames t; refine Touches.cut (t := t) ?_ ?_ <;> [(unfold t; clear t); (intro v _ e; subst v; rename' t => w)])
    | (extract_lets +onlyGivenNames t; refine Touches.cutFst (t := t) ?_ ?_ <;> [(unfold t; clear t); (intro v _ e; clear_value t; subst e; rename' v => w)])
    | (extract_lets +onlyGivenNames t; refine Touches.cutSnd (t := t) ?_ ?_ <;> [(unfold t; clear t); (intro v _ e; clear_value t; subst e; rename' v => w)])
    | (extract_lets +onlyGivenNames t; (have _h := fun x => t x); clear _h; unfold t; clear t)
    | (extract_lets +onlyGivenNames t; clear_value t; rename' t => w)
    | (extract_lets +onlyGivenNames t; rename' t => w)
    | with_reducible assumption
    | with_reducible exact Touches.refl _
    | (with_reducible apply Touches.trans; case k => with_reducible apply State.doneTag_touches)
    | with_reducible apply Touches.foldl
    | with_reducible apply Touches.foldlFst
    | with_reducible apply Touches.foldlSnd
    | split
    | dsimp only

theorem State.replayRec_touches : ∀ s x1 x2 x3 x4, Touches [.regs, .cal, .out] s (State.replayRec s x1 x2 x3 x4) := by
  intro s x1 x2 x3 x4
  unfold State.replayRec
  repeat' first
    | (show ∀ _ : Part, _; exact Part.sub (by decide +kernel))
    | (with_reducible intro _; beta_reduce)
    | ((conv => arg 3; arg 1; skip); with_reducible apply Touches.ite)
    | (extract_lets +onlyGivenNames t; refine Touches.cut (t := t) ?_ ?_ <;> [(unfold t; clear t); (intro v _ e; clear_value t; subst e; rename' v => w)])
    | (extract_lets +onlyGivenNames t; refine Touches.cut (t := t) ?_ ?_ <;> [(unfold t; clear t); (intro v _ e; subst v; rename' t => w)])
    | (extract_lets +onlyGivenNames t; refine Touches.cutFst (t := t) ?_ ?_ <;> [(unfold t; clear t); (intro v _ e; clear_value t; subst e; rename' v => w)])
    | (extract_lets +onlyGivenNames t; refine Touches.cutSnd (t := t) ?_ ?_ <;> [(unfold t; clear t); (intro v _ e; clear_value t; subst e; rename' v => w)])
    | (extract_lets +onlyGivenNames t; (have _h := fun x => t x); clear _h; unfold t; clear t)
    | (extract_lets +onlyGivenNames t; clear_value t; rename' t => w)
    | (extract_lets +onlyGivenNames t; rename' t => w)
    | with_reducible assumption
    | with_reducible exact Touches.refl _
    | (with_reducible apply Touches.trans; case k => with_reducible apply State.post_touches)
    | (with_reducible apply Touches.trans; case k => with_reducible apply State.raise_touches)
    | with_reducible apply Touches.foldl
    | with_reducible apply Touches.foldlFst
    | with_reducible apply Touches.foldlSnd
    | split
    | dsimp only

theorem State.diverge_touches : ∀ s x1 x2 x3 x4, Touches [.regs, .mbx, .job, .cal, .out] s (State.diverge s x1 x2 x3 x4) := by
  intro s x1 x2 x3 x4
  unfold State.diverge
  repeat' first
    | (show ∀ _ : Part, _; exact Part.sub (by decide +kernel))
    | (with_reducible intro _; beta_reduce)
    | ((conv => arg 3; arg 1; skip); with_reducible apply Touches.ite)
    | (extract_lets +onlyGivenNames t; refine Touches.cut (t := t) ?_ ?_ <;> [(unfold t; clear t); (intro v _ e; clear_value t; subst e; rename' v => w)])
    | (extract_lets +onlyGivenNames t; refine Touches.cut (t := t) ?_ ?_ <;> [(unfold t; clear t); (intro v _ e; subst v; rename' t => w)])
    | (extract_lets +onlyGivenNames t; refine Touches.cutFst (t := t) ?_ ?_ <;> [(unfold t; clear t); (intro v _ e; clear_value t; subst e; rename' v => w)])
    | (extract_lets +onlyGivenNames t; refine Touches.cutSnd (t := t) ?_ ?_ <;> [(unfold t; clear t); (intro v _ e; clear_value t; subst e; rename' v => w)])
    | (extract_lets +onlyGivenNames t; (have _h := fun x => t x); clear _h; unfold t; clear t)
    | (extract_lets +onlyGivenNames t; clear_value t; rename' t => w)
    | (extract_lets +onlyGivenNames t; rename' t => w)
    | with_reducible assumption
    | with_reducible exact Touches.refl _
    | ((conv => arg 3; arg 36; skip); refine Touches.trans ?_ (Touches.upd (l := [.job]) rfl) ?_)
    | (with_reducible apply Touches.trans; case k => with_reducible apply State.doneSteps_touches)
    | (with_reducible apply Touches.trans; case k => with_reducible apply State.replayRec_touches)
    | (with_reducible apply Touches.trans; case k => with_reducible apply State.satAdd_touches)
    | (with_reducible apply Touches.trans; case k => with_reducible apply State.wf_touches)
    | (with_reducible apply Touches.trans; case k => with_reducible apply State.ww_touches)
    | with_reducible apply Touches.foldl
    | with_reducible apply Touches.foldlFst
    | with_reducible apply Touches.foldlSnd
    | split
    | dsimp only

theorem State.replayCheck_touches : ∀ s x1 x2 x3 x4 x5, Touches [.regs, .mbx, .job, .cal, .out] s (State.replayCheck s x1 x2 x3 x4 x5) := by
  intro s x1 x2 x3 x4 x5
  unfold State.replayCheck
  repeat' first
    | (show ∀ _ : Part, _; exact Part.sub (by decide +kernel))
    | (with_reducible intro _; beta_reduce)
    | ((conv => arg 3; arg 1; skip); with_reducible apply Touches.ite)
    | (extract_lets +onlyGivenNames t; refine Touches.cut (t := t) ?_ ?_ <;> [(unfold t; clear t); (intro v _ e; clear_value t; subst e; rename' v => w)])
    | (extract_lets +onlyGivenNames t; refine Touches.cut (t := t) ?_ ?_ <;> [(unfold t; clear t); (intro v _ e; subst v; rename' t => w)])
    | (extract_lets +onlyGivenNames t; refine Touches.cutFst (t := t) ?_ ?_ <;> [(unfold t; clear t); (intro v _ e; clear_value t; subst e; rename' v => w)])
    | (extract_lets +onlyGivenNames t; refine Touches.cutSnd (t := t) ?_ ?_ <;> [(unfold t; clear t); (intro v _ e; clear_value t; subst e; rename' v => w)])
    | (extract_lets +onlyGivenNames t; (have _h := fun x => t x); clear _h; unfold t; clear t)
    | (extract_lets +onlyGivenNames t; clear_value t; rename' t => w)
    | (extract_lets +onlyGivenNames t; rename' t => w)
    | with_reducible assumption
    | with_reducible exact Touches.refl _
    | (with_reducible apply Touches.trans; case k => with_reducible apply State.diverge_touches)
    | (with_reducible apply Touches.trans; case k => with_reducible apply State.replayRec_touches)
    | with_reducible apply Touches.foldl
    | with_reducible apply Touches.foldlFst
    | with_reducible apply Touches.foldlSnd
    | split
    | dsimp only

theorem State.stepRecords_touches : ∀ s x1 x2 x3 x4 x5 x6 x7, Touches [.regs, .mbx, .job, .cal, .out] s (State.stepRecords s x1 x2 x3 x4 x5 x6 x7) := by
  intro s x1 x2 x3 x4 x5 x6 x7
  unfold State.stepRecords
  repeat' first
    | (show ∀ _ : Part, _; exact Part.sub (by decide +kernel))
    | (with_reducible intro _; beta_reduce)
    | ((conv => arg 3; arg 1; skip); with_reducible apply Touches.ite)
    | (extract_lets +onlyGivenNames t; refine Touches.cut (t := t) ?_ ?_ <;> [(unfold t; clear t); (intro v _ e; clear_value t; subst e; rename' v => w)])
    | (extract_lets +onlyGivenNames t; refine Touches.cut (t := t) ?_ ?_ <;> [(unfold t; clear t); (intro v _ e; subst v; rename' t => w)])
    | (extract_lets +onlyGivenNames t; refine Touches.cutFst (t := t) ?_ ?_ <;> [(unfold t; clear t); (intro v _ e; clear_value t; subst e; rename' v => w)])
    | (extract_lets +onlyGivenNames t; refine Touches.cutSnd (t := t) ?_ ?_ <;> [(unfold t; clear t); (intro v _ e; clear_value t; subst e; rename' v => w)])
    | (extract_lets +onlyGivenNames t; (have _h := fun x => t x); clear _h; unfold t; clear t)
    | (extract_lets +onlyGivenNames t; clear_value t; rename' t => w)
    | (extract_lets +onlyGivenNames t; rename' t => w)
    | with_reducible assumption
    | with_reducible exact Touches.refl _
    | (with_reducible apply Touches.trans; case k => with_reducible apply State.postAt_touches)
    | (with_reducible apply Touches.trans; case k => with_reducible apply State.replayCheck_touches)
    | with_reducible apply Touches.foldl
    | with_reducible apply Touches.foldlFst
    | with_reducible apply Touches.foldlSnd
    | split
    | dsimp only

theorem State.vetoWith_touches : ∀ s x1 x2 x3 x4 x5 x6 x7, Touches [.regs, .mbx, .job, .clus, .qs, .strg, .jug, .fabric, .cal, .out] s (State.vetoWith s x1 x2 x3 x4 x5 x6 x7) := by
  intro s x1 x2 x3 x4 x5 x6 x7
  unfold State.vetoWith
  repeat' first
    | (show ∀ _ : Part, _; exact Part.sub (by decide +kernel))
    | (with_reducible intro _; beta_reduce)
    | ((conv => arg 3; arg 1; skip); with_reducible apply Touches.ite)
    | (extract_lets +onlyGivenNames t; refine Touches.cut (t := t) ?_ ?_ <;> [(unfold t; clear t); (intro v _ e; clear_value t; subst e; rename' v => w)])
    | (extract_lets +onlyGivenNames t; refine Touches.cut (t := t) ?_ ?_ <;> [(unfold t; clear t); (intro v _ e; subst v; rename' t => w)])
    | (extract_lets +onlyGivenNames t; refine Touches.cutFst (t := t) ?_ ?_ <;> [(unfold t; clear t); (intro v _ e; clear_value t; subst e; rename' v => w)])
    | (extract_lets +onlyGivenNames t; refine Touches.cutSnd (t := t) ?_ ?_ <;> [(unfold t; clear t); (intro v _ e; clear_value t; subst e; rename' v => w)])
    | (extract_lets +onlyGivenNames t; (have _h := fun x => t x); clear _h; unfold t; clear t)
    | (extract_lets +onlyGivenNames t; clear_value t; rename' t => w)
    | (extract_lets +onlyGivenNames t; rename' t => w)
    | with_reducible assumption
    | with_reducible exact Touches.refl _
    | ((conv => arg 3; arg 36; skip); refine Touches.trans ?_ (Touches.upd (l := [.job, .strg]) rfl) ?_)
    | (with_reducible apply Touches.trans; case k => with_reducible apply State.decision_touches)
    | (with_reducible apply Touches.trans; case k => with_reducible apply State.doneSteps_touches)
    | (with_reducible apply Touches.trans; case k => with_reducible apply State.dropAttempt_touches)
    | (with_reducible apply Touches.trans; case k => with_reducible apply State.pairRec_touches)
    | (with_reducible apply Touches.trans; case k => with_reducible apply State.portsCarry_touches)
    | (with_reducible apply Touches.trans; case k => with_reducible apply State.postAt_touches)
    | (with_reducible apply Touches.trans; case k => with_reducible apply State.raise_touches)
    | (with_reducible apply Touches.trans; case k => with_reducible apply State.stepRecords_touches)
    | (with_reducible apply Touches.trans; case k => with_reducible apply State.stopStep_touches)
    | (with_reducible apply Touches.trans; case k => with_reducible apply State.tellGroup_touches)
    | (with_reducible apply Touches.trans; case k => with_reducible apply State.wf_touches)
    | with_reducible apply Touches.foldl
    | with_reducible apply Touches.foldlFst
    | with_reducible apply Touches.foldlSnd
    | split
    | dsimp only

theorem State.vetoFrom_touches : ∀ s x1 x2 x3 x4 x5, Touches [.regs, .mbx, .job, .clus, .qs, .strg, .jug, .fabric, .cal, .out] s (State.vetoFrom s x1 x2 x3 x4 x5) := by
  intro s x1 x2 x3 x4 x5
  unfold State.vetoFrom
  repeat' first
    | (show ∀ _ : Part, _; exact Part.sub (by decide +kernel))
    | (with_reducible intro _; beta_reduce)
    | ((conv => arg 3; arg 1; skip); with_reducible apply Touches.ite)
    | (extract_lets +onlyGivenNames t; refine Touches.cut (t := t) ?_ ?_ <;> [(unfold t; clear t); (intro v _ e; clear_value t; subst e; rename' v => w)])
    | (extract_lets +onlyGivenNames t; refine Touches.cut (t := t) ?_ ?_ <;> [(unfold t; clear t); (intro v _ e; subst v; rename' t => w)])
    | (extract_lets +onlyGivenNames t; refine Touches.cutFst (t := t) ?_ ?_ <;> [(unfold t; clear t); (intro v _ e; clear_value t; subst e; rename' v => w)])
    | (extract_lets +onlyGivenNames t; refine Touches.cutSnd (t := t) ?_ ?_ <;> [(unfold t; clear t); (intro v _ e; clear_value t; subst e; rename' v => w)])
    | (extract_lets +onlyGivenNames t; (have _h := fun x => t x); clear _h; unfold t; clear t)
    | (extract_lets +onlyGivenNames t; clear_value t; rename' t => w)
    | (extract_lets +onlyGivenNames t; rename' t => w)
    | with_reducible assumption
    | with_reducible exact Touches.refl _
    | (with_reducible apply Touches.trans; case k => with_reducible apply State.vetoWith_touches)
    | with_reducible apply Touches.foldl
    | with_reducible apply Touches.foldlFst
    | with_reducible apply Touches.foldlSnd
    | split
    | dsimp only

theorem State.veto_touches : ∀ s x1 x2 x3, Touches [.regs, .mbx, .job, .clus, .qs, .strg, .jug, .fabric, .cal, .out] s (State.veto s x1 x2 x3) := by
  intro s x1 x2 x3
  unfold State.veto
  repeat' first
    | (show ∀ _ : Part, _; exact Part.sub (by decide +kernel))
    | (with_reducible intro _; beta_reduce)
    | ((conv => arg 3; arg 1; skip); with_reducible apply Touches.ite)
    | (extract_lets +onlyGivenNames t; refine Touches.cut (t := t) ?_ ?_ <;> [(unfold t; clear t); (intro v _ e; clear_value t; subst e; rename' v => w)])
    | (extract_lets +onlyGivenNames t; refine Touches.cut (t := t) ?_ ?_ <;> [(unfold t; clear t); (intro v _ e; subst v; rename' t => w)])
    | (extract_lets +onlyGivenNames t; refine Touches.cutFst (t := t) ?_ ?_ <;> [(unfold t; clear t); (intro v _ e; clear_value t; subst e; rename' v => w)])
    | (extract_lets +onlyGivenNames t; refine Touches.cutSnd (t := t) ?_ ?_ <;> [(unfold t; clear t); (intro v _ e; clear_value t; subst e; rename' v => w)])
    | (extract_lets +onlyGivenNames t; (have _h := fun x => t x); clear _h; unfold t; clear t)
    | (extract_lets +onlyGivenNames t; clear_value t; rename' t => w)
    | (extract_lets +onlyGivenNames t; rename' t => w)
    | with_reducible assumption
    | with_reducible exact Touches.refl _
    | (with_reducible apply Touches.trans; case k => with_reducible apply State.vetoFrom_touches)
    | with_reducible apply Touches.foldl
    | with_reducible apply Touches.foldlFst
    | with_reducible apply Touches.foldlSnd
    | split
    | dsimp only

theorem State.engineError_touches : ∀ s x1 x2 x3 x4 x5 x6 x7, Touches [.regs, .mbx, .job, .clus, .qs, .strg, .jug, .fabric, .cal, .out] s (State.engineError s x1 x2 x3 x4 x5 x6 x7) := by
  intro s x1 x2 x3 x4 x5 x6 x7
  unfold State.engineError
  repeat' first
    | (show ∀ _ : Part, _; exact Part.sub (by decide +kernel))
    | (with_reducible intro _; beta_reduce)
    | ((conv => arg 3; arg 1; skip); with_reducible apply Touches.ite)
    | (extract_lets +onlyGivenNames t; refine Touches.cut (t := t) ?_ ?_ <;> [(unfold t; clear t); (intro v _ e; clear_value t; subst e; rename' v => w)])
    | (extract_lets +onlyGivenNames t; refine Touches.cut (t := t) ?_ ?_ <;> [(unfold t; clear t); (intro v _ e; subst v; rename' t => w)])
    | (extract_lets +onlyGivenNames t; refine Touches.cutFst (t := t) ?_ ?_ <;> [(unfold t; clear t); (intro v _ e; clear_value t; subst e; rename' v => w)])
    | (extract_lets +onlyGivenNames t; refine Touches.cutSnd (t := t) ?_ ?_ <;> [(unfold t; clear t); (intro v _ e; clear_value t; subst e; rename' v => w)])
    | (extract_lets +onlyGivenNames t; (have _h := fun x => t x); clear _h; unfold t; clear t)
    | (extract_lets +onlyGivenNames t; clear_value t; rename' t => w)
    | (extract_lets +onlyGivenNames t; rename' t => w)
    | with_reducible assumption
    | with_reducible exact Touches.refl _
    | (with_reducible apply Touches.trans; case k => with_reducible apply State.post_touches)
    | (with_reducible apply Touches.trans; case k => with_reducible apply State.raise_touches)
    | (with_reducible apply Touches.trans; case k => with_reducible apply State.veto_touches)
    | with_reducible apply Touches.foldl
    | with_reducible apply Touches.foldlFst
    | with_reducible apply Touches.foldlSnd
    | split
    | dsimp only

theorem State.markUnreadable_touches : ∀ s x1, Touches [.regs, .mem, .bad, .strg, .fabric, .cal, .out] s (State.markUnreadable s x1) := by
  intro s x1
  unfold State.markUnreadable
  repeat' first
    | (show ∀ _ : Part, _; exact Part.sub (by decide +kernel))
    | (with_reducible intro _; beta_reduce)
    | ((conv => arg 3; arg 1; skip); with_reducible apply Touches.ite)
    | (extract_lets +onlyGivenNames t; refine Touches.cut (t := t) ?_ ?_ <;> [(unfold t; clear t); (intro v _ e; clear_value t; subst e; rename' v => w)])
    | (extract_lets +onlyGivenNames t; refine Touches.cut (t := t) ?_ ?_ <;> [(unfold t; clear t); (intro v _ e; subst v; rename' t => w)])
    | (extract_lets +onlyGivenNames t; refine Touches.cutFst (t := t) ?_ ?_ <;> [(unfold t; clear t); (intro v _ e; clear_value t; subst e; rename' v => w)])
    | (extract_lets +onlyGivenNames t; refine Touches.cutSnd (t := t) ?_ ?_ <;> [(unfold t; clear t); (intro v _ e; clear_value t; subst e; rename' v => w)])
    | (extract_lets +onlyGivenNames t; (have _h := fun x => t x); clear _h; unfold t; clear t)
    | (extract_lets +onlyGivenNames t; clear_value t; rename' t => w)
    | (extract_lets +onlyGivenNames t; rename' t => w)
    | with_reducible assumption
    | with_reducible exact Touches.refl _
    | ((conv => arg 3; arg 36; skip); refine Touches.trans ?_ (Touches.upd (l := [.strg]) rfl) ?_)
    | (with_reducible apply Touches.trans; case k => with_reducible apply State.pairRec_touches)
    | (with_reducible apply Touches.trans; case k => with_reducible apply State.put_touches)
    | (with_reducible apply Touches.trans; case k => with_reducible apply State.tell_touches)
    | (with_reducible apply Touches.trans; case k => with_reducible apply State.wf_touches)
    | with_reducible apply Touches.foldl
    | with_reducible apply Touches.foldlFst
    | with_reducible apply Touches.foldlSnd
    | split
    | dsimp only

theorem State.memError_touches : ∀ s x1 x2 x3 x4 x5, Touches [.regs, .mem, .bad, .mbx, .job, .clus, .qs, .strg, .jug, .fabric, .cal, .out] s (State.memError s x1 x2 x3 x4 x5) := by
  intro s x1 x2 x3 x4 x5
  unfold State.memError
  repeat' first
    | (show ∀ _ : Part, _; exact Part.sub (by decide +kernel))
    | (with_reducible intro _; beta_reduce)
    | ((conv => arg 3; arg 1; skip); with_reducible apply Touches.ite)
    | (extract_lets +onlyGivenNames t; refine Touches.cut (t := t) ?_ ?_ <;> [(unfold t; clear t); (intro v _ e; clear_value t; subst e; rename' v => w)])
    | (extract_lets +onlyGivenNames t; refine Touches.cut (t := t) ?_ ?_ <;> [(unfold t; clear t); (intro v _ e; subst v; rename' t => w)])
    | (extract_lets +onlyGivenNames t; refine Touches.cutFst (t := t) ?_ ?_ <;> [(unfold t; clear t); (intro v _ e; clear_value t; subst e; rename' v => w)])
    | (extract_lets +onlyGivenNames t; refine Touches.cutSnd (t := t) ?_ ?_ <;> [(unfold t; clear t); (intro v _ e; clear_value t; subst e; rename' v => w)])
    | (extract_lets +onlyGivenNames t; (have _h := fun x => t x); clear _h; unfold t; clear t)
    | (extract_lets +onlyGivenNames t; clear_value t; rename' t => w)
    | (extract_lets +onlyGivenNames t; rename' t => w)
    | with_reducible assumption
    | with_reducible exact Touches.refl _
    | ((conv => arg 3; arg 36; skip); refine Touches.trans ?_ (Touches.upd (l := [.bad]) rfl) ?_)
    | (with_reducible apply Touches.trans; case k => with_reducible apply State.engineError_touches)
    | (with_reducible apply Touches.trans; case k => with_reducible apply State.markUnreadable_touches)
    | (with_reducible apply Touches.trans; case k => with_reducible apply State.satAdd_touches)
    | (with_reducible apply Touches.trans; case k => with_reducible apply State.wf_touches)
    | with_reducible apply Touches.foldl
    | with_reducible apply Touches.foldlFst
    | with_reducible apply Touches.foldlSnd
    | split
    | dsimp only

theorem State.putBy_touches : ∀ s x1 x2 x3, Touches [.regs, .mem, .hostMem, .bad, .mbx, .job, .clus, .qs, .strg, .jug, .fabric, .cal, .out] s (State.putBy s x1 x2 x3) := by
  intro s x1 x2 x3
  unfold State.putBy
  repeat' first
    | (show ∀ _ : Part, _; exact Part.sub (by decide +kernel))
    | (with_reducible intro _; beta_reduce)
    | ((conv => arg 3; arg 1; skip); with_reducible apply Touches.ite)
    | (extract_lets +onlyGivenNames t; refine Touches.cut (t := t) ?_ ?_ <;> [(unfold t; clear t); (intro v _ e; clear_value t; subst e; rename' v => w)])
    | (extract_lets +onlyGivenNames t; refine Touches.cut (t := t) ?_ ?_ <;> [(unfold t; clear t); (intro v _ e; subst v; rename' t => w)])
    | (extract_lets +onlyGivenNames t; refine Touches.cutFst (t := t) ?_ ?_ <;> [(unfold t; clear t); (intro v _ e; clear_value t; subst e; rename' v => w)])
    | (extract_lets +onlyGivenNames t; refine Touches.cutSnd (t := t) ?_ ?_ <;> [(unfold t; clear t); (intro v _ e; clear_value t; subst e; rename' v => w)])
    | (extract_lets +onlyGivenNames t; (have _h := fun x => t x); clear _h; unfold t; clear t)
    | (extract_lets +onlyGivenNames t; clear_value t; rename' t => w)
    | (extract_lets +onlyGivenNames t; rename' t => w)
    | with_reducible assumption
    | with_reducible exact Touches.refl _
    | (with_reducible apply Touches.fst; assumption)
    | (with_reducible apply Touches.trans; case k => with_reducible apply State.memError_touches)
    | (with_reducible apply Touches.trans; case k => with_reducible apply State.store_touches)
    | (with_reducible apply Touches.fst; assumption)
    | with_reducible apply Touches.foldl
    | with_reducible apply Touches.foldlFst
    | with_reducible apply Touches.foldlSnd
    | split
    | dsimp only

theorem State.blockRec_touches : ∀ s x1 x2 x3 x4 x5 x6, Touches [.regs, .cal, .out] s (State.blockRec s x1 x2 x3 x4 x5 x6) := by
  intro s x1 x2 x3 x4 x5 x6
  unfold State.blockRec
  repeat' first
    | (show ∀ _ : Part, _; exact Part.sub (by decide +kernel))
    | (with_reducible intro _; beta_reduce)
    | ((conv => arg 3; arg 1; skip); with_reducible apply Touches.ite)
    | (extract_lets +onlyGivenNames t; refine Touches.cut (t := t) ?_ ?_ <;> [(unfold t; clear t); (intro v _ e; clear_value t; subst e; rename' v => w)])
    | (extract_lets +onlyGivenNames t; refine Touches.cut (t := t) ?_ ?_ <;> [(unfold t; clear t); (intro v _ e; subst v; rename' t => w)])
    | (extract_lets +onlyGivenNames t; refine Touches.cutFst (t := t) ?_ ?_ <;> [(unfold t; clear t); (intro v _ e; clear_value t; subst e; rename' v => w)])
    | (extract_lets +onlyGivenNames t; refine Touches.cutSnd (t := t) ?_ ?_ <;> [(unfold t; clear t); (intro v _ e; clear_value t; subst e; rename' v => w)])
    | (extract_lets +onlyGivenNames t; (have _h := fun x => t x); clear _h; unfold t; clear t)
    | (extract_lets +onlyGivenNames t; clear_value t; rename' t => w)
    | (extract_lets +onlyGivenNames t; rename' t => w)
    | with_reducible assumption
    | with_reducible exact Touches.refl _
    | (with_reducible apply Touches.trans; case k => with_reducible apply State.post_touches)
    | (with_reducible apply Touches.trans; case k => with_reducible apply State.raise_touches)
    | with_reducible apply Touches.foldl
    | with_reducible apply Touches.foldlFst
    | with_reducible apply Touches.foldlSnd
    | split
    | dsimp only

theorem State.blockError_touches : ∀ s x1 x2 x3 x4 x5 x6, Touches [.regs, .mbx, .job, .clus, .qs, .strg, .jug, .fabric, .cal, .out] s (State.blockError s x1 x2 x3 x4 x5 x6) := by
  intro s x1 x2 x3 x4 x5 x6
  unfold State.blockError
  repeat' first
    | (show ∀ _ : Part, _; exact Part.sub (by decide +kernel))
    | (with_reducible intro _; beta_reduce)
    | ((conv => arg 3; arg 1; skip); with_reducible apply Touches.ite)
    | (extract_lets +onlyGivenNames t; refine Touches.cut (t := t) ?_ ?_ <;> [(unfold t; clear t); (intro v _ e; clear_value t; subst e; rename' v => w)])
    | (extract_lets +onlyGivenNames t; refine Touches.cut (t := t) ?_ ?_ <;> [(unfold t; clear t); (intro v _ e; subst v; rename' t => w)])
    | (extract_lets +onlyGivenNames t; refine Touches.cutFst (t := t) ?_ ?_ <;> [(unfold t; clear t); (intro v _ e; clear_value t; subst e; rename' v => w)])
    | (extract_lets +onlyGivenNames t; refine Touches.cutSnd (t := t) ?_ ?_ <;> [(unfold t; clear t); (intro v _ e; clear_value t; subst e; rename' v => w)])
    | (extract_lets +onlyGivenNames t; (have _h := fun x => t x); clear _h; unfold t; clear t)
    | (extract_lets +onlyGivenNames t; clear_value t; rename' t => w)
    | (extract_lets +onlyGivenNames t; rename' t => w)
    | with_reducible assumption
    | with_reducible exact Touches.refl _
    | (with_reducible apply Touches.trans; case k => with_reducible apply State.blockRec_touches)
    | (with_reducible apply Touches.trans; case k => with_reducible apply State.veto_touches)
    | with_reducible apply Touches.foldl
    | with_reducible apply Touches.foldlFst
    | with_reducible apply Touches.foldlSnd
    | split
    | dsimp only

theorem State.cluBlockRec_touches : ∀ s x1 x2 x3 x4 x5 x6 x7, Touches [.regs, .cal, .out] s (State.cluBlockRec s x1 x2 x3 x4 x5 x6 x7) := by
  intro s x1 x2 x3 x4 x5 x6 x7
  unfold State.cluBlockRec
  repeat' first
    | (show ∀ _ : Part, _; exact Part.sub (by decide +kernel))
    | (with_reducible intro _; beta_reduce)
    | ((conv => arg 3; arg 1; skip); with_reducible apply Touches.ite)
    | (extract_lets +onlyGivenNames t; refine Touches.cut (t := t) ?_ ?_ <;> [(unfold t; clear t); (intro v _ e; clear_value t; subst e; rename' v => w)])
    | (extract_lets +onlyGivenNames t; refine Touches.cut (t := t) ?_ ?_ <;> [(unfold t; clear t); (intro v _ e; subst v; rename' t => w)])
    | (extract_lets +onlyGivenNames t; refine Touches.cutFst (t := t) ?_ ?_ <;> [(unfold t; clear t); (intro v _ e; clear_value t; subst e; rename' v => w)])
    | (extract_lets +onlyGivenNames t; refine Touches.cutSnd (t := t) ?_ ?_ <;> [(unfold t; clear t); (intro v _ e; clear_value t; subst e; rename' v => w)])
    | (extract_lets +onlyGivenNames t; (have _h := fun x => t x); clear _h; unfold t; clear t)
    | (extract_lets +onlyGivenNames t; clear_value t; rename' t => w)
    | (extract_lets +onlyGivenNames t; rename' t => w)
    | with_reducible assumption
    | with_reducible exact Touches.refl _
    | (with_reducible apply Touches.trans; case k => with_reducible apply State.blockRec_touches)
    | (with_reducible apply Touches.trans; case k => with_reducible apply State.satAdd_touches)
    | (with_reducible apply Touches.trans; case k => with_reducible apply State.wf_touches)
    | with_reducible apply Touches.foldl
    | with_reducible apply Touches.foldlFst
    | with_reducible apply Touches.foldlSnd
    | split
    | dsimp only

theorem State.residueError_touches : ∀ s x1 x2 x3 x4 x5, Touches [.regs, .mbx, .job, .clus, .qs, .strg, .jug, .fabric, .cal, .out] s (State.residueError s x1 x2 x3 x4 x5) := by
  intro s x1 x2 x3 x4 x5
  unfold State.residueError
  repeat' first
    | (show ∀ _ : Part, _; exact Part.sub (by decide +kernel))
    | (with_reducible intro _; beta_reduce)
    | ((conv => arg 3; arg 1; skip); with_reducible apply Touches.ite)
    | (extract_lets +onlyGivenNames t; refine Touches.cut (t := t) ?_ ?_ <;> [(unfold t; clear t); (intro v _ e; clear_value t; subst e; rename' v => w)])
    | (extract_lets +onlyGivenNames t; refine Touches.cut (t := t) ?_ ?_ <;> [(unfold t; clear t); (intro v _ e; subst v; rename' t => w)])
    | (extract_lets +onlyGivenNames t; refine Touches.cutFst (t := t) ?_ ?_ <;> [(unfold t; clear t); (intro v _ e; clear_value t; subst e; rename' v => w)])
    | (extract_lets +onlyGivenNames t; refine Touches.cutSnd (t := t) ?_ ?_ <;> [(unfold t; clear t); (intro v _ e; clear_value t; subst e; rename' v => w)])
    | (extract_lets +onlyGivenNames t; (have _h := fun x => t x); clear _h; unfold t; clear t)
    | (extract_lets +onlyGivenNames t; clear_value t; rename' t => w)
    | (extract_lets +onlyGivenNames t; rename' t => w)
    | with_reducible assumption
    | with_reducible exact Touches.refl _
    | (with_reducible apply Touches.trans; case k => with_reducible apply State.post_touches)
    | (with_reducible apply Touches.trans; case k => with_reducible apply State.raise_touches)
    | (with_reducible apply Touches.trans; case k => with_reducible apply State.veto_touches)
    | with_reducible apply Touches.foldl
    | with_reducible apply Touches.foldlFst
    | with_reducible apply Touches.foldlSnd
    | split
    | dsimp only

theorem State.needRewind_touches : ∀ s x1, Touches [.regs, .fabric, .cal, .i3c, .out] s (State.needRewind s x1) := by
  intro s x1
  unfold State.needRewind
  repeat' first
    | (show ∀ _ : Part, _; exact Part.sub (by decide +kernel))
    | (with_reducible intro _; beta_reduce)
    | ((conv => arg 3; arg 1; skip); with_reducible apply Touches.ite)
    | (extract_lets +onlyGivenNames t; refine Touches.cut (t := t) ?_ ?_ <;> [(unfold t; clear t); (intro v _ e; clear_value t; subst e; rename' v => w)])
    | (extract_lets +onlyGivenNames t; refine Touches.cut (t := t) ?_ ?_ <;> [(unfold t; clear t); (intro v _ e; subst v; rename' t => w)])
    | (extract_lets +onlyGivenNames t; refine Touches.cutFst (t := t) ?_ ?_ <;> [(unfold t; clear t); (intro v _ e; clear_value t; subst e; rename' v => w)])
    | (extract_lets +onlyGivenNames t; refine Touches.cutSnd (t := t) ?_ ?_ <;> [(unfold t; clear t); (intro v _ e; clear_value t; subst e; rename' v => w)])
    | (extract_lets +onlyGivenNames t; (have _h := fun x => t x); clear _h; unfold t; clear t)
    | (extract_lets +onlyGivenNames t; clear_value t; rename' t => w)
    | (extract_lets +onlyGivenNames t; rename' t => w)
    | with_reducible assumption
    | with_reducible exact Touches.refl _
    | (with_reducible apply Touches.trans; case k => with_reducible apply State.ibi_touches)
    | (with_reducible apply Touches.trans; case k => with_reducible apply State.raise_touches)
    | (with_reducible apply Touches.trans; case k => with_reducible apply State.urgent_touches)
    | (with_reducible apply Touches.trans; case k => with_reducible apply State.wf_touches)
    | with_reducible apply Touches.foldl
    | with_reducible apply Touches.foldlFst
    | with_reducible apply Touches.foldlSnd
    | split
    | dsimp only

theorem State.abandon_touches : ∀ s x1, Touches [.regs, .clus, .fabric, .cal, .i3c, .out] s (State.abandon s x1) := by
  intro s x1
  unfold State.abandon
  repeat' first
    | (show ∀ _ : Part, _; exact Part.sub (by decide +kernel))
    | (with_reducible intro _; beta_reduce)
    | ((conv => arg 3; arg 1; skip); with_reducible apply Touches.ite)
    | (extract_lets +onlyGivenNames t; refine Touches.cut (t := t) ?_ ?_ <;> [(unfold t; clear t); (intro v _ e; clear_value t; subst e; rename' v => w)])
    | (extract_lets +onlyGivenNames t; refine Touches.cut (t := t) ?_ ?_ <;> [(unfold t; clear t); (intro v _ e; subst v; rename' t => w)])
    | (extract_lets +onlyGivenNames t; refine Touches.cutFst (t := t) ?_ ?_ <;> [(unfold t; clear t); (intro v _ e; clear_value t; subst e; rename' v => w)])
    | (extract_lets +onlyGivenNames t; refine Touches.cutSnd (t := t) ?_ ?_ <;> [(unfold t; clear t); (intro v _ e; clear_value t; subst e; rename' v => w)])
    | (extract_lets +onlyGivenNames t; (have _h := fun x => t x); clear _h; unfold t; clear t)
    | (extract_lets +onlyGivenNames t; clear_value t; rename' t => w)
    | (extract_lets +onlyGivenNames t; rename' t => w)
    | with_reducible assumption
    | with_reducible exact Touches.refl _
    | (with_reducible apply Touches.trans; case k => with_reducible apply State.needRewind_touches)
    | (with_reducible apply Touches.trans; case k => with_reducible apply State.stopStep_touches)
    | with_reducible apply Touches.foldl
    | with_reducible apply Touches.foldlFst
    | with_reducible apply Touches.foldlSnd
    | split
    | dsimp only

theorem State.clearCore_touches : ∀ s x1, Touches [.mem, .bad, .cores, .clus] s (State.clearCore s x1) := by
  intro s x1
  unfold State.clearCore
  repeat' first
    | (show ∀ _ : Part, _; exact Part.sub (by decide +kernel))
    | (with_reducible intro _; beta_reduce)
    | ((conv => arg 3; arg 1; skip); with_reducible apply Touches.ite)
    | (extract_lets +onlyGivenNames t; refine Touches.cut (t := t) ?_ ?_ <;> [(unfold t; clear t); (intro v _ e; clear_value t; subst e; rename' v => w)])
    | (extract_lets +onlyGivenNames t; refine Touches.cut (t := t) ?_ ?_ <;> [(unfold t; clear t); (intro v _ e; subst v; rename' t => w)])
    | (extract_lets +onlyGivenNames t; refine Touches.cutFst (t := t) ?_ ?_ <;> [(unfold t; clear t); (intro v _ e; clear_value t; subst e; rename' v => w)])
    | (extract_lets +onlyGivenNames t; refine Touches.cutSnd (t := t) ?_ ?_ <;> [(unfold t; clear t); (intro v _ e; clear_value t; subst e; rename' v => w)])
    | (extract_lets +onlyGivenNames t; (have _h := fun x => t x); clear _h; unfold t; clear t)
    | (extract_lets +onlyGivenNames t; clear_value t; rename' t => w)
    | (extract_lets +onlyGivenNames t; rename' t => w)
    | with_reducible assumption
    | with_reducible exact Touches.refl _
    | (with_reducible apply Touches.trans; case k => with_reducible apply State.clear_touches)
    | (with_reducible apply Touches.trans; case k => with_reducible apply State.setClu_touches)
    | (with_reducible apply Touches.trans; case k => with_reducible apply State.setCore_touches)
    | with_reducible apply Touches.foldl
    | with_reducible apply Touches.foldlFst
    | with_reducible apply Touches.foldlSnd
    | split
    | dsimp only

theorem State.resetStatus_touches : ∀ s x1 x2, Touches [.regs, .pwr] s (State.resetStatus s x1 x2) := by
  intro s x1 x2
  unfold State.resetStatus
  repeat' first
    | (show ∀ _ : Part, _; exact Part.sub (by decide +kernel))
    | (with_reducible intro _; beta_reduce)
    | ((conv => arg 3; arg 1; skip); with_reducible apply Touches.ite)
    | (extract_lets +onlyGivenNames t; refine Touches.cut (t := t) ?_ ?_ <;> [(unfold t; clear t); (intro v _ e; clear_value t; subst e; rename' v => w)])
    | (extract_lets +onlyGivenNames t; refine Touches.cut (t := t) ?_ ?_ <;> [(unfold t; clear t); (intro v _ e; subst v; rename' t => w)])
    | (extract_lets +onlyGivenNames t; refine Touches.cutFst (t := t) ?_ ?_ <;> [(unfold t; clear t); (intro v _ e; clear_value t; subst e; rename' v => w)])
    | (extract_lets +onlyGivenNames t; refine Touches.cutSnd (t := t) ?_ ?_ <;> [(unfold t; clear t); (intro v _ e; clear_value t; subst e; rename' v => w)])
    | (extract_lets +onlyGivenNames t; (have _h := fun x => t x); clear _h; unfold t; clear t)
    | (extract_lets +onlyGivenNames t; clear_value t; rename' t => w)
    | (extract_lets +onlyGivenNames t; rename' t => w)
    | with_reducible assumption
    | with_reducible exact Touches.refl _
    | ((conv => arg 3; arg 36; skip); refine Touches.trans ?_ (Touches.upd (l := [.pwr]) rfl) ?_)
    | (with_reducible apply Touches.trans; case k => with_reducible apply State.wf_touches)
    | with_reducible apply Touches.foldl
    | with_reducible apply Touches.foldlFst
    | with_reducible apply Touches.foldlSnd
    | split
    | dsimp only

theorem State.resetCore_touches : ∀ s x1, Touches [.regs, .mem, .bad, .cores, .clus, .fabric, .cal, .pwr, .i3c, .out] s (State.resetCore s x1) := by
  intro s x1
  unfold State.resetCore
  repeat' first
    | (show ∀ _ : Part, _; exact Part.sub (by decide +kernel))
    | (with_reducible intro _; beta_reduce)
    | ((conv => arg 3; arg 1; skip); with_reducible apply Touches.ite)
    | (extract_lets +onlyGivenNames t; refine Touches.cut (t := t) ?_ ?_ <;> [(unfold t; clear t); (intro v _ e; clear_value t; subst e; rename' v => w)])
    | (extract_lets +onlyGivenNames t; refine Touches.cut (t := t) ?_ ?_ <;> [(unfold t; clear t); (intro v _ e; subst v; rename' t => w)])
    | (extract_lets +onlyGivenNames t; refine Touches.cutFst (t := t) ?_ ?_ <;> [(unfold t; clear t); (intro v _ e; clear_value t; subst e; rename' v => w)])
    | (extract_lets +onlyGivenNames t; refine Touches.cutSnd (t := t) ?_ ?_ <;> [(unfold t; clear t); (intro v _ e; clear_value t; subst e; rename' v => w)])
    | (extract_lets +onlyGivenNames t; (have _h := fun x => t x); clear _h; unfold t; clear t)
    | (extract_lets +onlyGivenNames t; clear_value t; rename' t => w)
    | (extract_lets +onlyGivenNames t; rename' t => w)
    | with_reducible assumption
    | with_reducible exact Touches.refl _
    | (with_reducible apply Touches.trans; case k => with_reducible apply State.abandon_touches)
    | (with_reducible apply Touches.trans; case k => with_reducible apply State.clearCore_touches)
    | (with_reducible apply Touches.trans; case k => with_reducible apply State.resetStatus_touches)
    | with_reducible apply Touches.foldl
    | with_reducible apply Touches.foldlFst
    | with_reducible apply Touches.foldlSnd
    | split
    | dsimp only

theorem State.clearCluster_touches : ∀ s x1, Touches [.regs, .mem, .bad, .cores, .clus] s (State.clearCluster s x1) := by
  intro s x1
  unfold State.clearCluster
  repeat' first
    | (show ∀ _ : Part, _; exact Part.sub (by decide +kernel))
    | (with_reducible intro _; beta_reduce)
    | ((conv => arg 3; arg 1; skip); with_reducible apply Touches.ite)
    | (extract_lets +onlyGivenNames t; refine Touches.cut (t := t) ?_ ?_ <;> [(unfold t; clear t); (intro v _ e; clear_value t; subst e; rename' v => w)])
    | (extract_lets +onlyGivenNames t; refine Touches.cut (t := t) ?_ ?_ <;> [(unfold t; clear t); (intro v _ e; subst v; rename' t => w)])
    | (extract_lets +onlyGivenNames t; refine Touches.cutFst (t := t) ?_ ?_ <;> [(unfold t; clear t); (intro v _ e; clear_value t; subst e; rename' v => w)])
    | (extract_lets +onlyGivenNames t; refine Touches.cutSnd (t := t) ?_ ?_ <;> [(unfold t; clear t); (intro v _ e; clear_value t; subst e; rename' v => w)])
    | (extract_lets +onlyGivenNames t; (have _h := fun x => t x); clear _h; unfold t; clear t)
    | (extract_lets +onlyGivenNames t; clear_value t; rename' t => w)
    | (extract_lets +onlyGivenNames t; rename' t => w)
    | with_reducible assumption
    | with_reducible exact Touches.refl _
    | ((conv => arg 3; arg 36; skip); refine Touches.trans ?_ (Touches.upd (l := [.regs]) rfl) ?_)
    | (with_reducible apply Touches.trans; case k => with_reducible apply State.clear_touches)
    | (with_reducible apply Touches.trans; case k => with_reducible apply State.clearCore_touches)
    | (with_reducible apply Touches.trans; case k => with_reducible apply State.setClu_touches)
    | with_reducible apply Touches.foldl
    | with_reducible apply Touches.foldlFst
    | with_reducible apply Touches.foldlSnd
    | split
    | dsimp only

theorem State.resetCluster_touches : ∀ s x1, Touches [.regs, .mem, .bad, .cores, .clus, .fabric, .cal, .pwr, .i3c, .out] s (State.resetCluster s x1) := by
  intro s x1
  unfold State.resetCluster
  repeat' first
    | (show ∀ _ : Part, _; exact Part.sub (by decide +kernel))
    | (with_reducible intro _; beta_reduce)
    | ((conv => arg 3; arg 1; skip); with_reducible apply Touches.ite)
    | (extract_lets +onlyGivenNames t; refine Touches.cut (t := t) ?_ ?_ <;> [(unfold t; clear t); (intro v _ e; clear_value t; subst e; rename' v => w)])
    | (extract_lets +onlyGivenNames t; refine Touches.cut (t := t) ?_ ?_ <;> [(unfold t; clear t); (intro v _ e; subst v; rename' t => w)])
    | (extract_lets +onlyGivenNames t; refine Touches.cutFst (t := t) ?_ ?_ <;> [(unfold t; clear t); (intro v _ e; clear_value t; subst e; rename' v => w)])
    | (extract_lets +onlyGivenNames t; refine Touches.cutSnd (t := t) ?_ ?_ <;> [(unfold t; clear t); (intro v _ e; clear_value t; subst e; rename' v => w)])
    | (extract_lets +onlyGivenNames t; (have _h := fun x => t x); clear _h; unfold t; clear t)
    | (extract_lets +onlyGivenNames t; clear_value t; rename' t => w)
    | (extract_lets +onlyGivenNames t; rename' t => w)
    | with_reducible assumption
    | with_reducible exact Touches.refl _
    | (with_reducible apply Touches.trans; case k => with_reducible apply State.abandon_touches)
    | (with_reducible apply Touches.trans; case k => with_reducible apply State.clearCluster_touches)
    | (with_reducible apply Touches.trans; case k => with_reducible apply State.resetStatus_touches)
    | with_reducible apply Touches.foldl
    | with_reducible apply Touches.foldlFst
    | with_reducible apply Touches.foldlSnd
    | split
    | dsimp only

theorem State.fenceRec_touches : ∀ s x1 x2 x3, Touches [.regs, .fabric, .cal, .i3c, .out] s (State.fenceRec s x1 x2 x3) := by
  intro s x1 x2 x3
  unfold State.fenceRec
  repeat' first
    | (show ∀ _ : Part, _; exact Part.sub (by decide +kernel))
    | (with_reducible intro _; beta_reduce)
    | ((conv => arg 3; arg 1; skip); with_reducible apply Touches.ite)
    | (extract_lets +onlyGivenNames t; refine Touches.cut (t := t) ?_ ?_ <;> [(unfold t; clear t); (intro v _ e; clear_value t; subst e; rename' v => w)])
    | (extract_lets +onlyGivenNames t; refine Touches.cut (t := t) ?_ ?_ <;> [(unfold t; clear t); (intro v _ e; subst v; rename' t => w)])
    | (extract_lets +onlyGivenNames t; refine Touches.cutFst (t := t) ?_ ?_ <;> [(unfold t; clear t); (intro v _ e; clear_value t; subst e; rename' v => w)])
    | (extract_lets +onlyGivenNames t; refine Touches.cutSnd (t := t) ?_ ?_ <;> [(unfold t; clear t); (intro v _ e; clear_value t; subst e; rename' v => w)])
    | (extract_lets +onlyGivenNames t; (have _h := fun x => t x); clear _h; unfold t; clear t)
    | (extract_lets +onlyGivenNames t; clear_value t; rename' t => w)
    | (extract_lets +onlyGivenNames t; rename' t => w)
    | with_reducible assumption
    | with_reducible exact Touches.refl _
    | (with_reducible apply Touches.trans; case k => with_reducible apply State.ibi_touches)
    | (with_reducible apply Touches.trans; case k => with_reducible apply State.raise_touches)
    | (with_reducible apply Touches.trans; case k => with_reducible apply State.urgent_touches)
    | with_reducible apply Touches.foldl
    | with_reducible apply Touches.foldlFst
    | with_reducible apply Touches.foldlSnd
    | split
    | dsimp only

theorem State.fenceCore_touches : ∀ s x1, Touches [.regs, .fabric, .cal, .i3c, .out] s (State.fenceCore s x1) := by
  intro s x1
  unfold State.fenceCore
  repeat' first
    | (show ∀ _ : Part, _; exact Part.sub (by decide +kernel))
    | (with_reducible intro _; beta_reduce)
    | ((conv => arg 3; arg 1; skip); with_reducible apply Touches.ite)
    | (extract_lets +onlyGivenNames t; refine Touches.cut (t := t) ?_ ?_ <;> [(unfold t; clear t); (intro v _ e; clear_value t; subst e; rename' v => w)])
    | (extract_lets +onlyGivenNames t; refine Touches.cut (t := t) ?_ ?_ <;> [(unfold t; clear t); (intro v _ e; subst v; rename' t => w)])
    | (extract_lets +onlyGivenNames t; refine Touches.cutFst (t := t) ?_ ?_ <;> [(unfold t; clear t); (intro v _ e; clear_value t; subst e; rename' v => w)])
    | (extract_lets +onlyGivenNames t; refine Touches.cutSnd (t := t) ?_ ?_ <;> [(unfold t; clear t); (intro v _ e; clear_value t; subst e; rename' v => w)])
    | (extract_lets +onlyGivenNames t; (have _h := fun x => t x); clear _h; unfold t; clear t)
    | (extract_lets +onlyGivenNames t; clear_value t; rename' t => w)
    | (extract_lets +onlyGivenNames t; rename' t => w)
    | with_reducible assumption
    | with_reducible exact Touches.refl _
    | (with_reducible apply Touches.trans; case k => with_reducible apply State.fenceRec_touches)
    | (with_reducible apply Touches.trans; case k => with_reducible apply State.wf_touches)
    | with_reducible apply Touches.foldl
    | with_reducible apply Touches.foldlFst
    | with_reducible apply Touches.foldlSnd
    | split
    | dsimp only

theorem State.wakeCheck_touches : ∀ s, Touches [.regs, .mbx, .cal, .pwr, .out] s (State.wakeCheck s) := by
  intro s
  unfold State.wakeCheck
  repeat' first
    | (show ∀ _ : Part, _; exact Part.sub (by decide +kernel))
    | (with_reducible intro _; beta_reduce)
    | ((conv => arg 3; arg 1; skip); with_reducible apply Touches.ite)
    | (extract_lets +onlyGivenNames t; refine Touches.cut (t := t) ?_ ?_ <;> [(unfold t; clear t); (intro v _ e; clear_value t; subst e; rename' v => w)])
    | (extract_lets +onlyGivenNames t; refine Touches.cut (t := t) ?_ ?_ <;> [(unfold t; clear t); (intro v _ e; subst v; rename' t => w)])
    | (extract_lets +onlyGivenNames t; refine Touches.cutFst (t := t) ?_ ?_ <;> [(unfold t; clear t); (intro v _ e; clear_value t; subst e; rename' v => w)])
    | (extract_lets +onlyGivenNames t; refine Touches.cutSnd (t := t) ?_ ?_ <;> [(unfold t; clear t); (intro v _ e; clear_value t; subst e; rename' v => w)])
    | (extract_lets +onlyGivenNames t; (have _h := fun x => t x); clear _h; unfold t; clear t)
    | (extract_lets +onlyGivenNames t; clear_value t; rename' t => w)
    | (extract_lets +onlyGivenNames t; rename' t => w)
    | with_reducible assumption
    | with_reducible exact Touches.refl _
    | ((conv => arg 3; arg 36; skip); refine Touches.trans ?_ (Touches.upd (l := [.pwr]) rfl) ?_)
    | (with_reducible apply Touches.trans; case k => with_reducible apply State.doneTag_touches)
    | (with_reducible apply Touches.trans; case k => with_reducible apply State.power_touches)
    | with_reducible apply Touches.foldl
    | with_reducible apply Touches.foldlFst
    | with_reducible apply Touches.foldlSnd
    | split
    | dsimp only

theorem State.fenceCluster_touches : ∀ s x1, Touches [.regs, .mem, .bad, .mbx, .cores, .clus, .fabric, .cal, .pwr, .i3c, .out] s (State.fenceCluster s x1) := by
  intro s x1
  unfold State.fenceCluster
  repeat' first
    | (show ∀ _ : Part, _; exact Part.sub (by decide +kernel))
    | (with_reducible intro _; beta_reduce)
    | ((conv => arg 3; arg 1; skip); with_reducible apply Touches.ite)
    | (extract_lets +onlyGivenNames t; refine Touches.cut (t := t) ?_ ?_ <;> [(unfold t; clear t); (intro v _ e; clear_value t; subst e; rename' v => w)])
    | (extract_lets +onlyGivenNames t; refine Touches.cut (t := t) ?_ ?_ <;> [(unfold t; clear t); (intro v _ e; subst v; rename' t => w)])
    | (extract_lets +onlyGivenNames t; refine Touches.cutFst (t := t) ?_ ?_ <;> [(unfold t; clear t); (intro v _ e; clear_value t; subst e; rename' v => w)])
    | (extract_lets +onlyGivenNames t; refine Touches.cutSnd (t := t) ?_ ?_ <;> [(unfold t; clear t); (intro v _ e; clear_value t; subst e; rename' v => w)])
    | (extract_lets +onlyGivenNames t; (have _h := fun x => t x); clear _h; unfold t; clear t)
    | (extract_lets +onlyGivenNames t; clear_value t; rename' t => w)
    | (extract_lets +onlyGivenNames t; rename' t => w)
    | with_reducible assumption
    | with_reducible exact Touches.refl _
    | ((conv => arg 3; arg 36; skip); refine Touches.trans ?_ (Touches.upd (l := [.pwr]) rfl) ?_)
    | (with_reducible apply Touches.trans; case k => with_reducible apply State.abandon_touches)
    | (with_reducible apply Touches.trans; case k => with_reducible apply State.clearCluster_touches)
    | (with_reducible apply Touches.trans; case k => with_reducible apply State.fenceRec_touches)
    | (with_reducible apply Touches.trans; case k => with_reducible apply State.wakeCheck_touches)
    | (with_reducible apply Touches.trans; case k => with_reducible apply State.wf_touches)
    | with_reducible apply Touches.foldl
    | with_reducible apply Touches.foldlFst
    | with_reducible apply Touches.foldlSnd
    | split
    | dsimp only

theorem State.holdAt_touches : ∀ s x1 x2, Touches [.clus] s (State.holdAt s x1 x2) := by
  intro s x1 x2
  unfold State.holdAt
  repeat' first
    | (show ∀ _ : Part, _; exact Part.sub (by decide +kernel))
    | (with_reducible intro _; beta_reduce)
    | ((conv => arg 3; arg 1; skip); with_reducible apply Touches.ite)
    | (extract_lets +onlyGivenNames t; refine Touches.cut (t := t) ?_ ?_ <;> [(unfold t; clear t); (intro v _ e; clear_value t; subst e; rename' v => w)])
    | (extract_lets +onlyGivenNames t; refine Touches.cut (t := t) ?_ ?_ <;> [(unfold t; clear t); (intro v _ e; subst v; rename' t => w)])
    | (extract_lets +onlyGivenNames t; refine Touches.cutFst (t := t) ?_ ?_ <;> [(unfold t; clear t); (intro v _ e; clear_value t; subst e; rename' v => w)])
    | (extract_lets +onlyGivenNames t; refine Touches.cutSnd (t := t) ?_ ?_ <;> [(unfold t; clear t); (intro v _ e; clear_value t; subst e; rename' v => w)])
    | (extract_lets +onlyGivenNames t; (have _h := fun x => t x); clear _h; unfold t; clear t)
    | (extract_lets +onlyGivenNames t; clear_value t; rename' t => w)
    | (extract_lets +onlyGivenNames t; rename' t => w)
    | with_reducible assumption
    | with_reducible exact Touches.refl _
    | (with_reducible apply Touches.trans; case k => with_reducible apply State.setClu_touches)
    | with_reducible apply Touches.foldl
    | with_reducible apply Touches.foldlFst
    | with_reducible apply Touches.foldlSnd
    | split
    | dsimp only

theorem State.addCounter_touches : ∀ s x1 x2 x3, Touches [.regs, .clus, .cal] s (State.addCounter s x1 x2 x3) := by
  intro s x1 x2 x3
  unfold State.addCounter
  repeat' first
    | (show ∀ _ : Part, _; exact Part.sub (by decide +kernel))
    | (with_reducible intro _; beta_reduce)
    | ((conv => arg 3; arg 1; skip); with_reducible apply Touches.ite)
    | (extract_lets +onlyGivenNames t; refine Touches.cut (t := t) ?_ ?_ <;> [(unfold t; clear t); (intro v _ e; clear_value t; subst e; rename' v => w)])
    | (extract_lets +onlyGivenNames t; refine Touches.cut (t := t) ?_ ?_ <;> [(unfold t; clear t); (intro v _ e; subst v; rename' t => w)])
    | (extract_lets +onlyGivenNames t; refine Touches.cutFst (t := t) ?_ ?_ <;> [(unfold t; clear t); (intro v _ e; clear_value t; subst e; rename' v => w)])
    | (extract_lets +onlyGivenNames t; refine Touches.cutSnd (t := t) ?_ ?_ <;> [(unfold t; clear t); (intro v _ e; clear_value t; subst e; rename' v => w)])
    | (extract_lets +onlyGivenNames t; (have _h := fun x => t x); clear _h; unfold t; clear t)
    | (extract_lets +onlyGivenNames t; clear_value t; rename' t => w)
    | (extract_lets +onlyGivenNames t; rename' t => w)
    | with_reducible assumption
    | with_reducible exact Touches.refl _
    | (with_reducible apply Touches.trans; case k => with_reducible apply State.holdAt_touches)
    | (with_reducible apply Touches.trans; case k => with_reducible apply State.post_touches)
    | (with_reducible apply Touches.trans; case k => with_reducible apply State.setClu_touches)
    | with_reducible apply Touches.foldl
    | with_reducible apply Touches.foldlFst
    | with_reducible apply Touches.foldlSnd
    | split
    | dsimp only

theorem State.signalTo_touches : ∀ s x1 x2 x3 x4, Touches [.regs, .clus, .cal, .out] s (State.signalTo s x1 x2 x3 x4) := by
  intro s x1 x2 x3 x4
  unfold State.signalTo
  repeat' first
    | (show ∀ _ : Part, _; exact Part.sub (by decide +kernel))
    | (with_reducible intro _; beta_reduce)
    | ((conv => arg 3; arg 1; skip); with_reducible apply Touches.ite)
    | (extract_lets +onlyGivenNames t; refine Touches.cut (t := t) ?_ ?_ <;> [(unfold t; clear t); (intro v _ e; clear_value t; subst e; rename' v => w)])
    | (extract_lets +onlyGivenNames t; refine Touches.cut (t := t) ?_ ?_ <;> [(unfold t; clear t); (intro v _ e; subst v; rename' t => w)])
    | (extract_lets +onlyGivenNames t; refine Touches.cutFst (t := t) ?_ ?_ <;> [(unfold t; clear t); (intro v _ e; clear_value t; subst e; rename' v => w)])
    | (extract_lets +onlyGivenNames t; refine Touches.cutSnd (t := t) ?_ ?_ <;> [(unfold t; clear t); (intro v _ e; clear_value t; subst e; rename' v => w)])
    | (extract_lets +onlyGivenNames t; (have _h := fun x => t x); clear _h; unfold t; clear t)
    | (extract_lets +onlyGivenNames t; clear_value t; rename' t => w)
    | (extract_lets +onlyGivenNames t; rename' t => w)
    | with_reducible assumption
    | with_reducible exact Touches.refl _
    | (with_reducible apply Touches.trans; case k => with_reducible apply State.addCounter_touches)
    | (with_reducible apply Touches.trans; case k => with_reducible apply State.emit_touches)
    | with_reducible apply Touches.foldl
    | with_reducible apply Touches.foldlFst
    | with_reducible apply Touches.foldlSnd
    | split
    | dsimp only

theorem State.planSignal_touches : ∀ s x1, Touches [.regs, .clus, .cal] s (State.planSignal s x1) := by
  intro s x1
  unfold State.planSignal
  repeat' first
    | (show ∀ _ : Part, _; exact Part.sub (by decide +kernel))
    | (with_reducible intro _; beta_reduce)
    | ((conv => arg 3; arg 1; skip); with_reducible apply Touches.ite)
    | (extract_lets +onlyGivenNames t; refine Touches.cut (t := t) ?_ ?_ <;> [(unfold t; clear t); (intro v _ e; clear_value t; subst e; rename' v => w)])
    | (extract_lets +onlyGivenNames t; refine Touches.cut (t := t) ?_ ?_ <;> [(unfold t; clear t); (intro v _ e; subst v; rename' t => w)])
    | (extract_lets +onlyGivenNames t; refine Touches.cutFst (t := t) ?_ ?_ <;> [(unfold t; clear t); (intro v _ e; clear_value t; subst e; rename' v => w)])
    | (extract_lets +onlyGivenNames t; refine Touches.cutSnd (t := t) ?_ ?_ <;> [(unfold t; clear t); (intro v _ e; clear_value t; subst e; rename' v => w)])
    | (extract_lets +onlyGivenNames t; (have _h := fun x => t x); clear _h; unfold t; clear t)
    | (extract_lets +onlyGivenNames t; clear_value t; rename' t => w)
    | (extract_lets +onlyGivenNames t; rename' t => w)
    | with_reducible assumption
    | with_reducible exact Touches.refl _
    | (with_reducible apply Touches.trans; case k => with_reducible apply State.addCounter_touches)
    | with_reducible apply Touches.foldl
    | with_reducible apply Touches.foldlFst
    | with_reducible apply Touches.foldlSnd
    | split
    | dsimp only

end Sys2Proof.Machine
end

