-- ==== Sys2Proof/Laws/RegsRecovery.lean ====
section
/-!
SUPPORT. Which registers the functions of Machine/Recovery.lean may write, where these do not depend on an operand.
-/

set_option linter.all false
set_option Elab.async false
set_option linter.unreachableTactic false
set_option linter.unusedTactic false
set_option linter.tactic.unusedName false

namespace Sys2Proof.Machine

theorem State.power_regs : ∀ s x1 x2 x3, OnlyRegs s (State.power s x1 x2 x3) [Sys2Proof.Machine.oCalLost, Sys2Proof.Machine.oIntStatus, Sys2Proof.Machine.oPba] := by
  intro s x1 x2 x3
  unfold State.power
  repeat' first
    | (show ∀ _ : Nat, _; exact offs_sub (by decide +kernel))
    | (show ¬ (_ ∈ _); decide +kernel)
    | (with_reducible intro _; beta_reduce)
    | ((conv => arg 2; arg 1; skip); with_reducible apply OnlyRegs.ite)
    | (extract_lets +onlyGivenNames t; refine OnlyRegs.cut (t := t) ?_ ?_ <;> [(unfold t; clear t); (intro v _ e; clear_value t; subst e; rename' v => w)])
    | (extract_lets +onlyGivenNames t; refine OnlyRegs.cut (t := t) ?_ ?_ <;> [(unfold t; clear t); (intro v _ e; subst v; rename' t => w)])
    | (extract_lets +onlyGivenNames t; refine OnlyRegs.cutFst (t := t) ?_ ?_ <;> [(unfold t; clear t); (intro v _ e; clear_value t; subst e; rename' v => w)])
    | (extract_lets +onlyGivenNames t; refine OnlyRegs.cutSnd (t := t) ?_ ?_ <;> [(unfold t; clear t); (intro v _ e; clear_value t; subst e; rename' v => w)])
    | (extract_lets +onlyGivenNames t; (have _h := fun x => t x); clear _h; unfold t; clear t)
    | (extract_lets +onlyGivenNames t; clear_value t; rename' t => w)
    | (extract_lets +onlyGivenNames t; rename' t => w)
    | with_reducible assumption
    | with_reducible exact OnlyRegs.refl _
    | (with_reducible apply OnlyRegs.tr; case k => with_reducible apply State.post_regs)
    | (with_reducible apply OnlyRegs.tr; case k => with_reducible apply State.raise_regs)
    | with_reducible apply OnlyRegs.foldl
    | with_reducible apply OnlyRegs.foldlFst
    | with_reducible apply OnlyRegs.foldlSnd
    | split
    | dsimp only

theorem State.linkRec_regs : ∀ s x1 x2 x3 x4 x5 x6, OnlyRegs s (State.linkRec s x1 x2 x3 x4 x5 x6) [Sys2Proof.Machine.oCalLost, Sys2Proof.Machine.oIntStatus, Sys2Proof.Machine.oPba] := by
  intro s x1 x2 x3 x4 x5 x6
  unfold State.linkRec
  repeat' first
    | (show ∀ _ : Nat, _; exact offs_sub (by decide +kernel))
    | (show ¬ (_ ∈ _); decide +kernel)
    | (with_reducible intro _; beta_reduce)
    | ((conv => arg 2; arg 1; skip); with_reducible apply OnlyRegs.ite)
    | (extract_lets +onlyGivenNames t; refine OnlyRegs.cut (t := t) ?_ ?_ <;> [(unfold t; clear t); (intro v _ e; clear_value t; subst e; rename' v => w)])
    | (extract_lets +onlyGivenNames t; refine OnlyRegs.cut (t := t) ?_ ?_ <;> [(unfold t; clear t); (intro v _ e; subst v; rename' t => w)])
    | (extract_lets +onlyGivenNames t; refine OnlyRegs.cutFst (t := t) ?_ ?_ <;> [(unfold t; clear t); (intro v _ e; clear_value t; subst e; rename' v => w)])
    | (extract_lets +onlyGivenNames t; refine OnlyRegs.cutSnd (t := t) ?_ ?_ <;> [(unfold t; clear t); (intro v _ e; clear_value t; subst e; rename' v => w)])
    | (extract_lets +onlyGivenNames t; (have _h := fun x => t x); clear _h; unfold t; clear t)
    | (extract_lets +onlyGivenNames t; clear_value t; rename' t => w)
    | (extract_lets +onlyGivenNames t; rename' t => w)
    | with_reducible assumption
    | with_reducible exact OnlyRegs.refl _
    | (with_reducible apply OnlyRegs.tr; case k => with_reducible apply State.post_regs)
    | (with_reducible apply OnlyRegs.tr; case k => with_reducible apply State.raise_regs)
    | with_reducible apply OnlyRegs.foldl
    | with_reducible apply OnlyRegs.foldlFst
    | with_reducible apply OnlyRegs.foldlSnd
    | split
    | dsimp only

theorem State.hostRec_regs : ∀ s x1 x2 x3 x4, OnlyRegs s (State.hostRec s x1 x2 x3 x4) [Sys2Proof.Machine.oCalLost] := by
  intro s x1 x2 x3 x4
  unfold State.hostRec
  repeat' first
    | (show ∀ _ : Nat, _; exact offs_sub (by decide +kernel))
    | (show ¬ (_ ∈ _); decide +kernel)
    | (with_reducible intro _; beta_reduce)
    | ((conv => arg 2; arg 1; skip); with_reducible apply OnlyRegs.ite)
    | (extract_lets +onlyGivenNames t; refine OnlyRegs.cut (t := t) ?_ ?_ <;> [(unfold t; clear t); (intro v _ e; clear_value t; subst e; rename' v => w)])
    | (extract_lets +onlyGivenNames t; refine OnlyRegs.cut (t := t) ?_ ?_ <;> [(unfold t; clear t); (intro v _ e; subst v; rename' t => w)])
    | (extract_lets +onlyGivenNames t; refine OnlyRegs.cutFst (t := t) ?_ ?_ <;> [(unfold t; clear t); (intro v _ e; clear_value t; subst e; rename' v => w)])
    | (extract_lets +onlyGivenNames t; refine OnlyRegs.cutSnd (t := t) ?_ ?_ <;> [(unfold t; clear t); (intro v _ e; clear_value t; subst e; rename' v => w)])
    | (extract_lets +onlyGivenNames t; (have _h := fun x => t x); clear _h; unfold t; clear t)
    | (extract_lets +onlyGivenNames t; clear_value t; rename' t => w)
    | (extract_lets +onlyGivenNames t; rename' t => w)
    | with_reducible assumption
    | with_reducible exact OnlyRegs.refl _
    | (with_reducible apply OnlyRegs.tr; case k => with_reducible apply State.post_regs)
    | with_reducible apply OnlyRegs.foldl
    | with_reducible apply OnlyRegs.foldlFst
    | with_reducible apply OnlyRegs.foldlSnd
    | split
    | dsimp only

theorem State.pairRec_regs : ∀ s x1, OnlyRegs s (State.pairRec s x1) [Sys2Proof.Machine.oCalLost, Sys2Proof.Machine.oIntStatus, Sys2Proof.Machine.oPba] := by
  intro s x1
  unfold State.pairRec
  repeat' first
    | (show ∀ _ : Nat, _; exact offs_sub (by decide +kernel))
    | (show ¬ (_ ∈ _); decide +kernel)
    | (with_reducible intro _; beta_reduce)
    | ((conv => arg 2; arg 1; skip); with_reducible apply OnlyRegs.ite)
    | (extract_lets +onlyGivenNames t; refine OnlyRegs.cut (t := t) ?_ ?_ <;> [(unfold t; clear t); (intro v _ e; clear_value t; subst e; rename' v => w)])
    | (extract_lets +onlyGivenNames t; refine OnlyRegs.cut (t := t) ?_ ?_ <;> [(unfold t; clear t); (intro v _ e; subst v; rename' t => w)])
    | (extract_lets +onlyGivenNames t; refine OnlyRegs.cutFst (t := t) ?_ ?_ <;> [(unfold t; clear t); (intro v _ e; clear_value t; subst e; rename' v => w)])
    | (extract_lets +onlyGivenNames t; refine OnlyRegs.cutSnd (t := t) ?_ ?_ <;> [(unfold t; clear t); (intro v _ e; clear_value t; subst e; rename' v => w)])
    | (extract_lets +onlyGivenNames t; (have _h := fun x => t x); clear _h; unfold t; clear t)
    | (extract_lets +onlyGivenNames t; clear_value t; rename' t => w)
    | (extract_lets +onlyGivenNames t; rename' t => w)
    | with_reducible assumption
    | with_reducible exact OnlyRegs.refl _
    | (with_reducible apply OnlyRegs.tr; case k => with_reducible apply State.post_regs)
    | (with_reducible apply OnlyRegs.tr; case k => with_reducible apply State.raise_regs)
    | with_reducible apply OnlyRegs.foldl
    | with_reducible apply OnlyRegs.foldlFst
    | with_reducible apply OnlyRegs.foldlSnd
    | split
    | dsimp only

theorem State.decision_regs : ∀ s x1 x2 x3, OnlyRegs s (State.decision s x1 x2 x3) [Sys2Proof.Machine.oCalLost] := by
  intro s x1 x2 x3
  unfold State.decision
  repeat' first
    | (show ∀ _ : Nat, _; exact offs_sub (by decide +kernel))
    | (show ¬ (_ ∈ _); decide +kernel)
    | (with_reducible intro _; beta_reduce)
    | ((conv => arg 2; arg 1; skip); with_reducible apply OnlyRegs.ite)
    | (extract_lets +onlyGivenNames t; refine OnlyRegs.cut (t := t) ?_ ?_ <;> [(unfold t; clear t); (intro v _ e; clear_value t; subst e; rename' v => w)])
    | (extract_lets +onlyGivenNames t; refine OnlyRegs.cut (t := t) ?_ ?_ <;> [(unfold t; clear t); (intro v _ e; subst v; rename' t => w)])
    | (extract_lets +onlyGivenNames t; refine OnlyRegs.cutFst (t := t) ?_ ?_ <;> [(unfold t; clear t); (intro v _ e; clear_value t; subst e; rename' v => w)])
    | (extract_lets +onlyGivenNames t; refine OnlyRegs.cutSnd (t := t) ?_ ?_ <;> [(unfold t; clear t); (intro v _ e; clear_value t; subst e; rename' v => w)])
    | (extract_lets +onlyGivenNames t; (have _h := fun x => t x); clear _h; unfold t; clear t)
    | (extract_lets +onlyGivenNames t; clear_value t; rename' t => w)
    | (extract_lets +onlyGivenNames t; rename' t => w)
    | with_reducible assumption
    | with_reducible exact OnlyRegs.refl _
    | (with_reducible apply OnlyRegs.tr; case k => with_reducible apply State.postAt_regs)
    | with_reducible apply OnlyRegs.foldl
    | with_reducible apply OnlyRegs.foldlFst
    | with_reducible apply OnlyRegs.foldlSnd
    | split
    | dsimp only

theorem State.roundRec_regs : ∀ s x1 x2 x3, OnlyRegs s (State.roundRec s x1 x2 x3) [Sys2Proof.Machine.oCalLost, Sys2Proof.Machine.oIntStatus, Sys2Proof.Machine.oPba] := by
  intro s x1 x2 x3
  unfold State.roundRec
  repeat' first
    | (show ∀ _ : Nat, _; exact offs_sub (by decide +kernel))
    | (show ¬ (_ ∈ _); decide +kernel)
    | (with_reducible intro _; beta_reduce)
    | ((conv => arg 2; arg 1; skip); with_reducible apply OnlyRegs.ite)
    | (extract_lets +onlyGivenNames t; refine OnlyRegs.cut (t := t) ?_ ?_ <;> [(unfold t; clear t); (intro v _ e; clear_value t; subst e; rename' v => w)])
    | (extract_lets +onlyGivenNames t; refine OnlyRegs.cut (t := t) ?_ ?_ <;> [(unfold t; clear t); (intro v _ e; subst v; rename' t => w)])
    | (extract_lets +onlyGivenNames t; refine OnlyRegs.cutFst (t := t) ?_ ?_ <;> [(unfold t; clear t); (intro v _ e; clear_value t; subst e; rename' v => w)])
    | (extract_lets +onlyGivenNames t; refine OnlyRegs.cutSnd (t := t) ?_ ?_ <;> [(unfold t; clear t); (intro v _ e; clear_value t; subst e; rename' v => w)])
    | (extract_lets +onlyGivenNames t; (have _h := fun x => t x); clear _h; unfold t; clear t)
    | (extract_lets +onlyGivenNames t; clear_value t; rename' t => w)
    | (extract_lets +onlyGivenNames t; rename' t => w)
    | with_reducible assumption
    | with_reducible exact OnlyRegs.refl _
    | (with_reducible apply OnlyRegs.tr; case k => with_reducible apply State.post_regs)
    | (with_reducible apply OnlyRegs.tr; case k => with_reducible apply State.raise_regs)
    | with_reducible apply OnlyRegs.foldl
    | with_reducible apply OnlyRegs.foldlFst
    | with_reducible apply OnlyRegs.foldlSnd
    | split
    | dsimp only

theorem State.fwRec_regs : ∀ s x1 x2, OnlyRegs s (State.fwRec s x1 x2) [Sys2Proof.Machine.oCalLost] := by
  intro s x1 x2
  unfold State.fwRec
  repeat' first
    | (show ∀ _ : Nat, _; exact offs_sub (by decide +kernel))
    | (show ¬ (_ ∈ _); decide +kernel)
    | (with_reducible intro _; beta_reduce)
    | ((conv => arg 2; arg 1; skip); with_reducible apply OnlyRegs.ite)
    | (extract_lets +onlyGivenNames t; refine OnlyRegs.cut (t := t) ?_ ?_ <;> [(unfold t; clear t); (intro v _ e; clear_value t; subst e; rename' v => w)])
    | (extract_lets +onlyGivenNames t; refine OnlyRegs.cut (t := t) ?_ ?_ <;> [(unfold t; clear t); (intro v _ e; subst v; rename' t => w)])
    | (extract_lets +onlyGivenNames t; refine OnlyRegs.cutFst (t := t) ?_ ?_ <;> [(unfold t; clear t); (intro v _ e; clear_value t; subst e; rename' v => w)])
    | (extract_lets +onlyGivenNames t; refine OnlyRegs.cutSnd (t := t) ?_ ?_ <;> [(unfold t; clear t); (intro v _ e; clear_value t; subst e; rename' v => w)])
    | (extract_lets +onlyGivenNames t; (have _h := fun x => t x); clear _h; unfold t; clear t)
    | (extract_lets +onlyGivenNames t; clear_value t; rename' t => w)
    | (extract_lets +onlyGivenNames t; rename' t => w)
    | with_reducible assumption
    | with_reducible exact OnlyRegs.refl _
    | (with_reducible apply OnlyRegs.tr; case k => with_reducible apply State.post_regs)
    | with_reducible apply OnlyRegs.foldl
    | with_reducible apply OnlyRegs.foldlFst
    | with_reducible apply OnlyRegs.foldlSnd
    | split
    | dsimp only

theorem State.keyRec_regs : ∀ s x1 x2 x3 x4 x5 x6, OnlyRegs s (State.keyRec s x1 x2 x3 x4 x5 x6) [Sys2Proof.Machine.oCalLost, Sys2Proof.Machine.oIntStatus, Sys2Proof.Machine.oPba] := by
  intro s x1 x2 x3 x4 x5 x6
  unfold State.keyRec
  repeat' first
    | (show ∀ _ : Nat, _; exact offs_sub (by decide +kernel))
    | (show ¬ (_ ∈ _); decide +kernel)
    | (with_reducible intro _; beta_reduce)
    | ((conv => arg 2; arg 1; skip); with_reducible apply OnlyRegs.ite)
    | (extract_lets +onlyGivenNames t; refine OnlyRegs.cut (t := t) ?_ ?_ <;> [(unfold t; clear t); (intro v _ e; clear_value t; subst e; rename' v => w)])
    | (extract_lets +onlyGivenNames t; refine OnlyRegs.cut (t := t) ?_ ?_ <;> [(unfold t; clear t); (intro v _ e; subst v; rename' t => w)])
    | (extract_lets +onlyGivenNames t; refine OnlyRegs.cutFst (t := t) ?_ ?_ <;> [(unfold t; clear t); (intro v _ e; clear_value t; subst e; rename' v => w)])
    | (extract_lets +onlyGivenNames t; refine OnlyRegs.cutSnd (t := t) ?_ ?_ <;> [(unfold t; clear t); (intro v _ e; clear_value t; subst e; rename' v => w)])
    | (extract_lets +onlyGivenNames t; (have _h := fun x => t x); clear _h; unfold t; clear t)
    | (extract_lets +onlyGivenNames t; clear_value t; rename' t => w)
    | (extract_lets +onlyGivenNames t; rename' t => w)
    | with_reducible assumption
    | with_reducible exact OnlyRegs.refl _
    | (with_reducible apply OnlyRegs.tr; case k => with_reducible apply State.post_regs)
    | (with_reducible apply OnlyRegs.tr; case k => with_reducible apply State.raise_regs)
    | with_reducible apply OnlyRegs.foldl
    | with_reducible apply OnlyRegs.foldlFst
    | with_reducible apply OnlyRegs.foldlSnd
    | split
    | dsimp only

theorem State.doneSteps_regs : ∀ s x1 x2, OnlyRegs s (State.doneSteps s x1 x2) [Sys2Proof.Machine.oIntStatus, Sys2Proof.Machine.oMbxStatus, Sys2Proof.Machine.oPba] := by
  intro s x1 x2
  unfold State.doneSteps
  repeat' first
    | (show ∀ _ : Nat, _; exact offs_sub (by decide +kernel))
    | (show ¬ (_ ∈ _); decide +kernel)
    | (with_reducible intro _; beta_reduce)
    | ((conv => arg 2; arg 1; skip); with_reducible apply OnlyRegs.ite)
    | (extract_lets +onlyGivenNames t; refine OnlyRegs.cut (t := t) ?_ ?_ <;> [(unfold t; clear t); (intro v _ e; clear_value t; subst e; rename' v => w)])
    | (extract_lets +onlyGivenNames t; refine OnlyRegs.cut (t := t) ?_ ?_ <;> [(unfold t; clear t); (intro v _ e; subst v; rename' t => w)])
    | (extract_lets +onlyGivenNames t; refine OnlyRegs.cutFst (t := t) ?_ ?_ <;> [(unfold t; clear t); (intro v _ e; clear_value t; subst e; rename' v => w)])
    | (extract_lets +onlyGivenNames t; refine OnlyRegs.cutSnd (t := t) ?_ ?_ <;> [(unfold t; clear t); (intro v _ e; clear_value t; subst e; rename' v => w)])
    | (extract_lets +onlyGivenNames t; (have _h := fun x => t x); clear _h; unfold t; clear t)
    | (extract_lets +onlyGivenNames t; clear_value t; rename' t => w)
    | (extract_lets +onlyGivenNames t; rename' t => w)
    | with_reducible assumption
    | with_reducible exact OnlyRegs.refl _
    | (with_reducible apply OnlyRegs.tr; case k => with_reducible apply State.doneTag_regs)
    | with_reducible apply OnlyRegs.foldl
    | with_reducible apply OnlyRegs.foldlFst
    | with_reducible apply OnlyRegs.foldlSnd
    | split
    | dsimp only

theorem State.replayRec_regs : ∀ s x1 x2 x3 x4, OnlyRegs s (State.replayRec s x1 x2 x3 x4) [Sys2Proof.Machine.oCalLost, Sys2Proof.Machine.oIntStatus, Sys2Proof.Machine.oPba] := by
  intro s x1 x2 x3 x4
  unfold State.replayRec
  repeat' first
    | (show ∀ _ : Nat, _; exact offs_sub (by decide +kernel))
    | (show ¬ (_ ∈ _); decide +kernel)
    | (with_reducible intro _; beta_reduce)
    | ((conv => arg 2; arg 1; skip); with_reducible apply OnlyRegs.ite)
    | (extract_lets +onlyGivenNames t; refine OnlyRegs.cut (t := t) ?_ ?_ <;> [(unfold t; clear t); (intro v _ e; clear_value t; subst e; rename' v => w)])
    | (extract_lets +onlyGivenNames t; refine OnlyRegs.cut (t := t) ?_ ?_ <;> [(unfold t; clear t); (intro v _ e; subst v; rename' t => w)])
    | (extract_lets +onlyGivenNames t; refine OnlyRegs.cutFst (t := t) ?_ ?_ <;> [(unfold t; clear t); (intro v _ e; clear_value t; subst e; rename' v => w)])
    | (extract_lets +onlyGivenNames t; refine OnlyRegs.cutSnd (t := t) ?_ ?_ <;> [(unfold t; clear t); (intro v _ e; clear_value t; subst e; rename' v => w)])
    | (extract_lets +onlyGivenNames t; (have _h := fun x => t x); clear _h; unfold t; clear t)
    | (extract_lets +onlyGivenNames t; clear_value t; rename' t => w)
    | (extract_lets +onlyGivenNames t; rename' t => w)
    | with_reducible assumption
    | with_reducible exact OnlyRegs.refl _
    | (with_reducible apply OnlyRegs.tr; case k => with_reducible apply State.post_regs)
    | (with_reducible apply OnlyRegs.tr; case k => with_reducible apply State.raise_regs)
    | with_reducible apply OnlyRegs.foldl
    | with_reducible apply OnlyRegs.foldlFst
    | with_reducible apply OnlyRegs.foldlSnd
    | split
    | dsimp only

theorem State.diverge_regs : ∀ s x1 x2 x3 x4, OnlyRegs s (State.diverge s x1 x2 x3 x4) [Sys2Proof.Machine.oCalLost, Sys2Proof.Machine.oIntStatus, Sys2Proof.Machine.oMbxStatus, Sys2Proof.Machine.oPba, Sys2Proof.Machine.oReplay, Sys2Proof.Machine.oReplayDiv] := by
  intro s x1 x2 x3 x4
  unfold State.diverge
  repeat' first
    | (show ∀ _ : Nat, _; exact offs_sub (by decide +kernel))
    | (show ¬ (_ ∈ _); decide +kernel)
    | (with_reducible intro _; beta_reduce)
    | ((conv => arg 2; arg 1; skip); with_reducible apply OnlyRegs.ite)
    | (extract_lets +onlyGivenNames t; refine OnlyRegs.cut (t := t) ?_ ?_ <;> [(unfold t; clear t); (intro v _ e; clear_value t; subst e; rename' v => w)])
    | (extract_lets +onlyGivenNames t; refine OnlyRegs.cut (t := t) ?_ ?_ <;> [(unfold t; clear t); (intro v _ e; subst v; rename' t => w)])
    | (extract_lets +onlyGivenNames t; refine OnlyRegs.cutFst (t := t) ?_ ?_ <;> [(unfold t; clear t); (intro v _ e; clear_value t; subst e; rename' v => w)])
    | (extract_lets +onlyGivenNames t; refine OnlyRegs.cutSnd (t := t) ?_ ?_ <;> [(unfold t; clear t); (intro v _ e; clear_value t; subst e; rename' v => w)])
    | (extract_lets +onlyGivenNames t; (have _h := fun x => t x); clear _h; unfold t; clear t)
    | (extract_lets +onlyGivenNames t; clear_value t; rename' t => w)
    | (extract_lets +onlyGivenNames t; rename' t => w)
    | with_reducible assumption
    | with_reducible exact OnlyRegs.refl _
    | ((conv => arg 2; arg 36; skip); refine OnlyRegs.tr ?_ (OnlyRegs.upd (l := []) rfl rfl) ?_)
    | (with_reducible apply OnlyRegs.tr; case k => with_reducible apply State.doneSteps_regs)
    | (with_reducible apply OnlyRegs.tr; case k => with_reducible apply State.replayRec_regs)
    | (with_reducible apply OnlyRegs.tr; case k => with_reducible apply OnlyRegs.satAdd)
    | (with_reducible apply OnlyRegs.tr; case k => with_reducible apply OnlyRegs.wf)
    | (with_reducible apply OnlyRegs.tr; case k => with_reducible apply OnlyRegs.ww)
    | with_reducible apply OnlyRegs.foldl
    | with_reducible apply OnlyRegs.foldlFst
    | with_reducible apply OnlyRegs.foldlSnd
    | split
    | dsimp only

theorem State.replayCheck_regs : ∀ s x1 x2 x3 x4 x5, OnlyRegs s (State.replayCheck s x1 x2 x3 x4 x5) [Sys2Proof.Machine.oCalLost, Sys2Proof.Machine.oIntStatus, Sys2Proof.Machine.oMbxStatus, Sys2Proof.Machine.oPba, Sys2Proof.Machine.oReplay, Sys2Proof.Machine.oReplayDiv] := by
  intro s x1 x2 x3 x4 x5
  unfold State.replayCheck
  repeat' first
    | (show ∀ _ : Nat, _; exact offs_sub (by decide +kernel))
    | (show ¬ (_ ∈ _); decide +kernel)
    | (with_reducible intro _; beta_reduce)
    | ((conv => arg 2; arg 1; skip); with_reducible apply OnlyRegs.ite)
    | (extract_lets +onlyGivenNames t; refine OnlyRegs.cut (t := t) ?_ ?_ <;> [(unfold t; clear t); (intro v _ e; clear_value t; subst e; rename' v => w)])
    | (extract_lets +onlyGivenNames t; refine OnlyRegs.cut (t := t) ?_ ?_ <;> [(unfold t; clear t); (intro v _ e; subst v; rename' t => w)])
    | (extract_lets +onlyGivenNames t; refine OnlyRegs.cutFst (t := t) ?_ ?_ <;> [(unfold t; clear t); (intro v _ e; clear_value t; subst e; rename' v => w)])
    | (extract_lets +onlyGivenNames t; refine OnlyRegs.cutSnd (t := t) ?_ ?_ <;> [(unfold t; clear t); (intro v _ e; clear_value t; subst e; rename' v => w)])
    | (extract_lets +onlyGivenNames t; (have _h := fun x => t x); clear _h; unfold t; clear t)
    | (extract_lets +onlyGivenNames t; clear_value t; rename' t => w)
    | (extract_lets +onlyGivenNames t; rename' t => w)
    | with_reducible assumption
    | with_reducible exact OnlyRegs.refl _
    | (with_reducible apply OnlyRegs.tr; case k => with_reducible apply State.diverge_regs)
    | (with_reducible apply OnlyRegs.tr; case k => with_reducible apply State.replayRec_regs)
    | with_reducible apply OnlyRegs.foldl
    | with_reducible apply OnlyRegs.foldlFst
    | with_reducible apply OnlyRegs.foldlSnd
    | split
    | dsimp only

theorem State.stepRecords_regs : ∀ s x1 x2 x3 x4 x5 x6 x7, OnlyRegs s (State.stepRecords s x1 x2 x3 x4 x5 x6 x7) [Sys2Proof.Machine.oCalLost, Sys2Proof.Machine.oIntStatus, Sys2Proof.Machine.oMbxStatus, Sys2Proof.Machine.oPba, Sys2Proof.Machine.oReplay, Sys2Proof.Machine.oReplayDiv] := by
  intro s x1 x2 x3 x4 x5 x6 x7
  unfold State.stepRecords
  repeat' first
    | (show ∀ _ : Nat, _; exact offs_sub (by decide +kernel))
    | (show ¬ (_ ∈ _); decide +kernel)
    | (with_reducible intro _; beta_reduce)
    | ((conv => arg 2; arg 1; skip); with_reducible apply OnlyRegs.ite)
    | (extract_lets +onlyGivenNames t; refine OnlyRegs.cut (t := t) ?_ ?_ <;> [(unfold t; clear t); (intro v _ e; clear_value t; subst e; rename' v => w)])
    | (extract_lets +onlyGivenNames t; refine OnlyRegs.cut (t := t) ?_ ?_ <;> [(unfold t; clear t); (intro v _ e; subst v; rename' t => w)])
    | (extract_lets +onlyGivenNames t; refine OnlyRegs.cutFst (t := t) ?_ ?_ <;> [(unfold t; clear t); (intro v _ e; clear_value t; subst e; rename' v => w)])
    | (extract_lets +onlyGivenNames t; refine OnlyRegs.cutSnd (t := t) ?_ ?_ <;> [(unfold t; clear t); (intro v _ e; clear_value t; subst e; rename' v => w)])
    | (extract_lets +onlyGivenNames t; (have _h := fun x => t x); clear _h; unfold t; clear t)
    | (extract_lets +onlyGivenNames t; clear_value t; rename' t => w)
    | (extract_lets +onlyGivenNames t; rename' t => w)
    | with_reducible assumption
    | with_reducible exact OnlyRegs.refl _
    | (with_reducible apply OnlyRegs.tr; case k => with_reducible apply State.postAt_regs)
    | (with_reducible apply OnlyRegs.tr; case k => with_reducible apply State.replayCheck_regs)
    | with_reducible apply OnlyRegs.foldl
    | with_reducible apply OnlyRegs.foldlFst
    | with_reducible apply OnlyRegs.foldlSnd
    | split
    | dsimp only

theorem State.markUnreadable_regs : ∀ s x1, OnlyRegs s (State.markUnreadable s x1) [Sys2Proof.Machine.oCalLost, Sys2Proof.Machine.oCommitState, Sys2Proof.Machine.oIntStatus, Sys2Proof.Machine.oMir, Sys2Proof.Machine.oPba, Sys2Proof.Machine.oPortStatus 0, Sys2Proof.Machine.oPortStatus 1, Sys2Proof.Machine.oPortStatus 2, Sys2Proof.Machine.oPortStatus 3, Sys2Proof.Machine.oPortStatus 4, Sys2Proof.Machine.oPortStatus 5, Sys2Proof.Machine.oPortStatus 6, Sys2Proof.Machine.oPortStatus 7] := by
  intro s x1
  unfold State.markUnreadable
  repeat' first
    | (show ∀ _ : Nat, _; exact offs_sub (by decide +kernel))
    | (show ¬ (_ ∈ _); decide +kernel)
    | (with_reducible intro _; beta_reduce)
    | ((conv => arg 2; arg 1; skip); with_reducible apply OnlyRegs.ite)
    | (extract_lets +onlyGivenNames t; refine OnlyRegs.cut (t := t) ?_ ?_ <;> [(unfold t; clear t); (intro v _ e; clear_value t; subst e; rename' v => w)])
    | (extract_lets +onlyGivenNames t; refine OnlyRegs.cut (t := t) ?_ ?_ <;> [(unfold t; clear t); (intro v _ e; subst v; rename' t => w)])
    | (extract_lets +onlyGivenNames t; refine OnlyRegs.cutFst (t := t) ?_ ?_ <;> [(unfold t; clear t); (intro v _ e; clear_value t; subst e; rename' v => w)])
    | (extract_lets +onlyGivenNames t; refine OnlyRegs.cutSnd (t := t) ?_ ?_ <;> [(unfold t; clear t); (intro v _ e; clear_value t; subst e; rename' v => w)])
    | (extract_lets +onlyGivenNames t; (have _h := fun x => t x); clear _h; unfold t; clear t)
    | (extract_lets +onlyGivenNames t; clear_value t; rename' t => w)
    | (extract_lets +onlyGivenNames t; rename' t => w)
    | with_reducible assumption
    | with_reducible exact OnlyRegs.refl _
    | ((conv => arg 2; arg 36; skip); refine OnlyRegs.tr ?_ (OnlyRegs.upd (l := []) rfl rfl) ?_)
    | (with_reducible apply OnlyRegs.tr; case k => with_reducible apply State.pairRec_regs)
    | (with_reducible apply OnlyRegs.keep; case k => with_reducible apply State.put_touches)
    | (with_reducible apply OnlyRegs.tr; case k => with_reducible apply State.tell_regs)
    | (with_reducible apply OnlyRegs.tr; case k => with_reducible apply OnlyRegs.wf)
    | with_reducible apply OnlyRegs.foldl
    | with_reducible apply OnlyRegs.foldlFst
    | with_reducible apply OnlyRegs.foldlSnd
    | split
    | dsimp only

theorem State.blockRec_regs : ∀ s x1 x2 x3 x4 x5 x6, OnlyRegs s (State.blockRec s x1 x2 x3 x4 x5 x6) [Sys2Proof.Machine.oCalLost, Sys2Proof.Machine.oIntStatus, Sys2Proof.Machine.oPba] := by
  intro s x1 x2 x3 x4 x5 x6
  unfold State.blockRec
  repeat' first
    | (show ∀ _ : Nat, _; exact offs_sub (by decide +kernel))
    | (show ¬ (_ ∈ _); decide +kernel)
    | (with_reducible intro _; beta_reduce)
    | ((conv => arg 2; arg 1; skip); with_reducible apply OnlyRegs.ite)
    | (extract_lets +onlyGivenNames t; refine OnlyRegs.cut (t := t) ?_ ?_ <;> [(unfold t; clear t); (intro v _ e; clear_value t; subst e; rename' v => w)])
    | (extract_lets +onlyGivenNames t; refine OnlyRegs.cut (t := t) ?_ ?_ <;> [(unfold t; clear t); (intro v _ e; subst v; rename' t => w)])
    | (extract_lets +onlyGivenNames t; refine OnlyRegs.cutFst (t := t) ?_ ?_ <;> [(unfold t; clear t); (intro v _ e; clear_value t; subst e; rename' v => w)])
    | (extract_lets +onlyGivenNames t; refine OnlyRegs.cutSnd (t := t) ?_ ?_ <;> [(unfold t; clear t); (intro v _ e; clear_value t; subst e; rename' v => w)])
    | (extract_lets +onlyGivenNames t; (have _h := fun x => t x); clear _h; unfold t; clear t)
    | (extract_lets +onlyGivenNames t; clear_value t; rename' t => w)
    | (extract_lets +onlyGivenNames t; rename' t => w)
    | with_reducible assumption
    | with_reducible exact OnlyRegs.refl _
    | (with_reducible apply OnlyRegs.tr; case k => with_reducible apply State.post_regs)
    | (with_reducible apply OnlyRegs.tr; case k => with_reducible apply State.raise_regs)
    | with_reducible apply OnlyRegs.foldl
    | with_reducible apply OnlyRegs.foldlFst
    | with_reducible apply OnlyRegs.foldlSnd
    | split
    | dsimp only

theorem State.needRewind_regs : ∀ s x1, OnlyRegs s (State.needRewind s x1) [Sys2Proof.Machine.oCalBbox, Sys2Proof.Machine.oCalLost, Sys2Proof.Machine.oCalOldest, Sys2Proof.Machine.oCalWrite, Sys2Proof.Machine.oIntStatus, Sys2Proof.Machine.oPba, Sys2Proof.Machine.oPortStatus 0, Sys2Proof.Machine.oPortStatus 1, Sys2Proof.Machine.oPortStatus 2, Sys2Proof.Machine.oPortStatus 3, Sys2Proof.Machine.oPortStatus 4, Sys2Proof.Machine.oPortStatus 5, Sys2Proof.Machine.oPortStatus 6, Sys2Proof.Machine.oPortStatus 7, Sys2Proof.Machine.oRstJob] := by
  intro s x1
  unfold State.needRewind
  repeat' first
    | (show ∀ _ : Nat, _; exact offs_sub (by decide +kernel))
    | (show ¬ (_ ∈ _); decide +kernel)
    | (with_reducible intro _; beta_reduce)
    | ((conv => arg 2; arg 1; skip); with_reducible apply OnlyRegs.ite)
    | (extract_lets +onlyGivenNames t; refine OnlyRegs.cut (t := t) ?_ ?_ <;> [(unfold t; clear t); (intro v _ e; clear_value t; subst e; rename' v => w)])
    | (extract_lets +onlyGivenNames t; refine OnlyRegs.cut (t := t) ?_ ?_ <;> [(unfold t; clear t); (intro v _ e; subst v; rename' t => w)])
    | (extract_lets +onlyGivenNames t; refine OnlyRegs.cutFst (t := t) ?_ ?_ <;> [(unfold t; clear t); (intro v _ e; clear_value t; subst e; rename' v => w)])
    | (extract_lets +onlyGivenNames t; refine OnlyRegs.cutSnd (t := t) ?_ ?_ <;> [(unfold t; clear t); (intro v _ e; clear_value t; subst e; rename' v => w)])
    | (extract_lets +onlyGivenNames t; (have _h := fun x => t x); clear _h; unfold t; clear t)
    | (extract_lets +onlyGivenNames t; clear_value t; rename' t => w)
    | (extract_lets +onlyGivenNames t; rename' t => w)
    | with_reducible assumption
    | with_reducible exact OnlyRegs.refl _
    | (with_reducible apply OnlyRegs.keep; case k => with_reducible apply State.ibi_touches)
    | (with_reducible apply OnlyRegs.tr; case k => with_reducible apply State.raise_regs)
    | (with_reducible apply OnlyRegs.tr; case k => with_reducible apply State.urgent_regs)
    | (with_reducible apply OnlyRegs.tr; case k => with_reducible apply OnlyRegs.wf)
    | with_reducible apply OnlyRegs.foldl
    | with_reducible apply OnlyRegs.foldlFst
    | with_reducible apply OnlyRegs.foldlSnd
    | split
    | dsimp only

theorem State.resetStatus_regs : ∀ s x1 x2, OnlyRegs s (State.resetStatus s x1 x2) [Sys2Proof.Machine.oRstStatus] := by
  intro s x1 x2
  unfold State.resetStatus
  repeat' first
    | (show ∀ _ : Nat, _; exact offs_sub (by decide +kernel))
    | (show ¬ (_ ∈ _); decide +kernel)
    | (with_reducible intro _; beta_reduce)
    | ((conv => arg 2; arg 1; skip); with_reducible apply OnlyRegs.ite)
    | (extract_lets +onlyGivenNames t; refine OnlyRegs.cut (t := t) ?_ ?_ <;> [(unfold t; clear t); (intro v _ e; clear_value t; subst e; rename' v => w)])
    | (extract_lets +onlyGivenNames t; refine OnlyRegs.cut (t := t) ?_ ?_ <;> [(unfold t; clear t); (intro v _ e; subst v; rename' t => w)])
    | (extract_lets +onlyGivenNames t; refine OnlyRegs.cutFst (t := t) ?_ ?_ <;> [(unfold t; clear t); (intro v _ e; clear_value t; subst e; rename' v => w)])
    | (extract_lets +onlyGivenNames t; refine OnlyRegs.cutSnd (t := t) ?_ ?_ <;> [(unfold t; clear t); (intro v _ e; clear_value t; subst e; rename' v => w)])
    | (extract_lets +onlyGivenNames t; (have _h := fun x => t x); clear _h; unfold t; clear t)
    | (extract_lets +onlyGivenNames t; clear_value t; rename' t => w)
    | (extract_lets +onlyGivenNames t; rename' t => w)
    | with_reducible assumption
    | with_reducible exact OnlyRegs.refl _
    | ((conv => arg 2; arg 36; skip); refine OnlyRegs.tr ?_ (OnlyRegs.upd (l := []) rfl rfl) ?_)
    | (with_reducible apply OnlyRegs.tr; case k => with_reducible apply OnlyRegs.wf)
    | with_reducible apply OnlyRegs.foldl
    | with_reducible apply OnlyRegs.foldlFst
    | with_reducible apply OnlyRegs.foldlSnd
    | split
    | dsimp only

theorem State.fenceRec_regs : ∀ s x1 x2 x3, OnlyRegs s (State.fenceRec s x1 x2 x3) [Sys2Proof.Machine.oCalBbox, Sys2Proof.Machine.oCalLost, Sys2Proof.Machine.oCalOldest, Sys2Proof.Machine.oCalWrite, Sys2Proof.Machine.oIntStatus, Sys2Proof.Machine.oPba, Sys2Proof.Machine.oPortStatus 0, Sys2Proof.Machine.oPortStatus 1, Sys2Proof.Machine.oPortStatus 2, Sys2Proof.Machine.oPortStatus 3, Sys2Proof.Machine.oPortStatus 4, Sys2Proof.Machine.oPortStatus 5, Sys2Proof.Machine.oPortStatus 6, Sys2Proof.Machine.oPortStatus 7] := by
  intro s x1 x2 x3
  unfold State.fenceRec
  repeat' first
    | (show ∀ _ : Nat, _; exact offs_sub (by decide +kernel))
    | (show ¬ (_ ∈ _); decide +kernel)
    | (with_reducible intro _; beta_reduce)
    | ((conv => arg 2; arg 1; skip); with_reducible apply OnlyRegs.ite)
    | (extract_lets +onlyGivenNames t; refine OnlyRegs.cut (t := t) ?_ ?_ <;> [(unfold t; clear t); (intro v _ e; clear_value t; subst e; rename' v => w)])
    | (extract_lets +onlyGivenNames t; refine OnlyRegs.cut (t := t) ?_ ?_ <;> [(unfold t; clear t); (intro v _ e; subst v; rename' t => w)])
    | (extract_lets +onlyGivenNames t; refine OnlyRegs.cutFst (t := t) ?_ ?_ <;> [(unfold t; clear t); (intro v _ e; clear_value t; subst e; rename' v => w)])
    | (extract_lets +onlyGivenNames t; refine OnlyRegs.cutSnd (t := t) ?_ ?_ <;> [(unfold t; clear t); (intro v _ e; clear_value t; subst e; rename' v => w)])
    | (extract_lets +onlyGivenNames t; (have _h := fun x => t x); clear _h; unfold t; clear t)
    | (extract_lets +onlyGivenNames t; clear_value t; rename' t => w)
    | (extract_lets +onlyGivenNames t; rename' t => w)
    | with_reducible assumption
    | with_reducible exact OnlyRegs.refl _
    | (with_reducible apply OnlyRegs.keep; case k => with_reducible apply State.ibi_touches)
    | (with_reducible apply OnlyRegs.tr; case k => with_reducible apply State.raise_regs)
    | (with_reducible apply OnlyRegs.tr; case k => with_reducible apply State.urgent_regs)
    | with_reducible apply OnlyRegs.foldl
    | with_reducible apply OnlyRegs.foldlFst
    | with_reducible apply OnlyRegs.foldlSnd
    | split
    | dsimp only

theorem State.wakeCheck_regs : ∀ s, OnlyRegs s (State.wakeCheck s) [Sys2Proof.Machine.oCalLost, Sys2Proof.Machine.oIntStatus, Sys2Proof.Machine.oMbxStatus, Sys2Proof.Machine.oPba] := by
  intro s
  unfold State.wakeCheck
  repeat' first
    | (show ∀ _ : Nat, _; exact offs_sub (by decide +kernel))
    | (show ¬ (_ ∈ _); decide +kernel)
    | (with_reducible intro _; beta_reduce)
    | ((conv => arg 2; arg 1; skip); with_reducible apply OnlyRegs.ite)
    | (extract_lets +onlyGivenNames t; refine OnlyRegs.cut (t := t) ?_ ?_ <;> [(unfold t; clear t); (intro v _ e; clear_value t; subst e; rename' v => w)])
    | (extract_lets +onlyGivenNames t; refine OnlyRegs.cut (t := t) ?_ ?_ <;> [(unfold t; clear t); (intro v _ e; subst v; rename' t => w)])
    | (extract_lets +onlyGivenNames t; refine OnlyRegs.cutFst (t := t) ?_ ?_ <;> [(unfold t; clear t); (intro v _ e; clear_value t; subst e; rename' v => w)])
    | (extract_lets +onlyGivenNames t; refine OnlyRegs.cutSnd (t := t) ?_ ?_ <;> [(unfold t; clear t); (intro v _ e; clear_value t; subst e; rename' v => w)])
    | (extract_lets +onlyGivenNames t; (have _h := fun x => t x); clear _h; unfold t; clear t)
    | (extract_lets +onlyGivenNames t; clear_value t; rename' t => w)
    | (extract_lets +onlyGivenNames t; rename' t => w)
    | with_reducible assumption
    | with_reducible exact OnlyRegs.refl _
    | ((conv => arg 2; arg 36; skip); refine OnlyRegs.tr ?_ (OnlyRegs.upd (l := []) rfl rfl) ?_)
    | (with_reducible apply OnlyRegs.tr; case k => with_reducible apply State.doneTag_regs)
    | (with_reducible apply OnlyRegs.tr; case k => with_reducible apply State.power_regs)
    | with_reducible apply OnlyRegs.foldl
    | with_reducible apply OnlyRegs.foldlFst
    | with_reducible apply OnlyRegs.foldlSnd
    | split
    | dsimp only

theorem State.addCounter_regs : ∀ s x1 x2 x3, OnlyRegs s (State.addCounter s x1 x2 x3) [Sys2Proof.Machine.oCalLost] := by
  intro s x1 x2 x3
  unfold State.addCounter
  repeat' first
    | (show ∀ _ : Nat, _; exact offs_sub (by decide +kernel))
    | (show ¬ (_ ∈ _); decide +kernel)
    | (with_reducible intro _; beta_reduce)
    | ((conv => arg 2; arg 1; skip); with_reducible apply OnlyRegs.ite)
    | (extract_lets +onlyGivenNames t; refine OnlyRegs.cut (t := t) ?_ ?_ <;> [(unfold t; clear t); (intro v _ e; clear_value t; subst e; rename' v => w)])
    | (extract_lets +onlyGivenNames t; refine OnlyRegs.cut (t := t) ?_ ?_ <;> [(unfold t; clear t); (intro v _ e; subst v; rename' t => w)])
    | (extract_lets +onlyGivenNames t; refine OnlyRegs.cutFst (t := t) ?_ ?_ <;> [(unfold t; clear t); (intro v _ e; clear_value t; subst e; rename' v => w)])
    | (extract_lets +onlyGivenNames t; refine OnlyRegs.cutSnd (t := t) ?_ ?_ <;> [(unfold t; clear t); (intro v _ e; clear_value t; subst e; rename' v => w)])
    | (extract_lets +onlyGivenNames t; (have _h := fun x => t x); clear _h; unfold t; clear t)
    | (extract_lets +onlyGivenNames t; clear_value t; rename' t => w)
    | (extract_lets +onlyGivenNames t; rename' t => w)
    | with_reducible assumption
    | with_reducible exact OnlyRegs.refl _
    | (with_reducible apply OnlyRegs.keep; case k => with_reducible apply State.holdAt_touches)
    | (with_reducible apply OnlyRegs.tr; case k => with_reducible apply State.post_regs)
    | (with_reducible apply OnlyRegs.keep; case k => with_reducible apply State.setClu_touches)
    | with_reducible apply OnlyRegs.foldl
    | with_reducible apply OnlyRegs.foldlFst
    | with_reducible apply OnlyRegs.foldlSnd
    | split
    | dsimp only

theorem State.signalTo_regs : ∀ s x1 x2 x3 x4, OnlyRegs s (State.signalTo s x1 x2 x3 x4) [Sys2Proof.Machine.oCalLost] := by
  intro s x1 x2 x3 x4
  unfold State.signalTo
  repeat' first
    | (show ∀ _ : Nat, _; exact offs_sub (by decide +kernel))
    | (show ¬ (_ ∈ _); decide +kernel)
    | (with_reducible intro _; beta_reduce)
    | ((conv => arg 2; arg 1; skip); with_reducible apply OnlyRegs.ite)
    | (extract_lets +onlyGivenNames t; refine OnlyRegs.cut (t := t) ?_ ?_ <;> [(unfold t; clear t); (intro v _ e; clear_value t; subst e; rename' v => w)])
    | (extract_lets +onlyGivenNames t; refine OnlyRegs.cut (t := t) ?_ ?_ <;> [(unfold t; clear t); (intro v _ e; subst v; rename' t => w)])
    | (extract_lets +onlyGivenNames t; refine OnlyRegs.cutFst (t := t) ?_ ?_ <;> [(unfold t; clear t); (intro v _ e; clear_value t; subst e; rename' v => w)])
    | (extract_lets +onlyGivenNames t; refine OnlyRegs.cutSnd (t := t) ?_ ?_ <;> [(unfold t; clear t); (intro v _ e; clear_value t; subst e; rename' v => w)])
    | (extract_lets +onlyGivenNames t; (have _h := fun x => t x); clear _h; unfold t; clear t)
    | (extract_lets +onlyGivenNames t; clear_value t; rename' t => w)
    | (extract_lets +onlyGivenNames t; rename' t => w)
    | with_reducible assumption
    | with_reducible exact OnlyRegs.refl _
    | (with_reducible apply OnlyRegs.tr; case k => with_reducible apply State.addCounter_regs)
    | (with_reducible apply OnlyRegs.keep; case k => with_reducible apply State.emit_touches)
    | with_reducible apply OnlyRegs.foldl
    | with_reducible apply OnlyRegs.foldlFst
    | with_reducible apply OnlyRegs.foldlSnd
    | split
    | dsimp only

theorem State.planSignal_regs : ∀ s x1, OnlyRegs s (State.planSignal s x1) [Sys2Proof.Machine.oCalLost] := by
  intro s x1
  unfold State.planSignal
  repeat' first
    | (show ∀ _ : Nat, _; exact offs_sub (by decide +kernel))
    | (show ¬ (_ ∈ _); decide +kernel)
    | (with_reducible intro _; beta_reduce)
    | ((conv => arg 2; arg 1; skip); with_reducible apply OnlyRegs.ite)
    | (extract_lets +onlyGivenNames t; refine OnlyRegs.cut (t := t) ?_ ?_ <;> [(unfold t; clear t); (intro v _ e; clear_value t; subst e; rename' v => w)])
    | (extract_lets +onlyGivenNames t; refine OnlyRegs.cut (t := t) ?_ ?_ <;> [(unfold t; clear t); (intro v _ e; subst v; rename' t => w)])
    | (extract_lets +onlyGivenNames t; refine OnlyRegs.cutFst (t := t) ?_ ?_ <;> [(unfold t; clear t); (intro v _ e; clear_value t; subst e; rename' v => w)])
    | (extract_lets +onlyGivenNames t; refine OnlyRegs.cutSnd (t := t) ?_ ?_ <;> [(unfold t; clear t); (intro v _ e; clear_value t; subst e; rename' v => w)])
    | (extract_lets +onlyGivenNames t; (have _h := fun x => t x); clear _h; unfold t; clear t)
    | (extract_lets +onlyGivenNames t; clear_value t; rename' t => w)
    | (extract_lets +onlyGivenNames t; rename' t => w)
    | with_reducible assumption
    | with_reducible exact OnlyRegs.refl _
    | (with_reducible apply OnlyRegs.tr; case k => with_reducible apply State.addCounter_regs)
    | with_reducible apply OnlyRegs.foldl
    | with_reducible apply OnlyRegs.foldlFst
    | with_reducible apply OnlyRegs.foldlSnd
    | split
    | dsimp only

end Sys2Proof.Machine
end

