-- ==== Sys2Proof/Laws/RegsSecurity.lean ====
section
/-!
SUPPORT. Which registers the functions of Machine/Security.lean may write, where these do not depend on an operand.
-/

set_option linter.all false
set_option Elab.async false
set_option linter.unreachableTactic false
set_option linter.unusedTactic false
set_option linter.tactic.unusedName false

namespace Sys2Proof.Machine

theorem execIdent_regs : ∀ x0 s, OnlyRegsX s (execIdent x0 s) [Sys2Proof.Machine.oIntStatus, Sys2Proof.Machine.oMbxStatus, Sys2Proof.Machine.oPba] := by
  intro x0 s
  unfold execIdent
  repeat' first
    | (show ∀ _ : Nat, _; exact offs_sub (by decide +kernel))
    | (show ¬ (_ ∈ _); decide +kernel)
    | (with_reducible intro _; beta_reduce)
    | ((conv => arg 2; arg 1; skip); with_reducible apply OnlyRegs.ite)
    | ((conv => arg 2; arg 1; skip); with_reducible apply OnlyRegsX.ite)
    | (extract_lets +onlyGivenNames t; refine OnlyRegs.cut (t := t) ?_ ?_ <;> [(unfold t; clear t); (intro v _ e; clear_value t; subst e; rename' v => w)])
    | (extract_lets +onlyGivenNames t; refine OnlyRegs.cut (t := t) ?_ ?_ <;> [(unfold t; clear t); (intro v _ e; subst v; rename' t => w)])
    | (extract_lets +onlyGivenNames t; refine OnlyRegs.cutFst (t := t) ?_ ?_ <;> [(unfold t; clear t); (intro v _ e; clear_value t; subst e; rename' v => w)])
    | (extract_lets +onlyGivenNames t; refine OnlyRegs.cutSnd (t := t) ?_ ?_ <;> [(unfold t; clear t); (intro v _ e; clear_value t; subst e; rename' v => w)])
    | (extract_lets +onlyGivenNames t; refine OnlyRegsX.cut (t := t) ?_ ?_ <;> [(unfold t; clear t); (intro v _ e; clear_value t; subst e; rename' v => w)])
    | (extract_lets +onlyGivenNames t; refine OnlyRegsX.cut (t := t) ?_ ?_ <;> [(unfold t; clear t); (intro v _ e; subst v; rename' t => w)])
    | (extract_lets +onlyGivenNames t; refine OnlyRegsX.cutFst (t := t) ?_ ?_ <;> [(unfold t; clear t); (intro v _ e; clear_value t; subst e; rename' v => w)])
    | (extract_lets +onlyGivenNames t; refine OnlyRegsX.cutSnd (t := t) ?_ ?_ <;> [(unfold t; clear t); (intro v _ e; clear_value t; subst e; rename' v => w)])
    | (extract_lets +onlyGivenNames t; (have _h := fun x => t x); clear _h; unfold t; clear t)
    | (extract_lets +onlyGivenNames t; clear_value t; rename' t => w)
    | (extract_lets +onlyGivenNames t; rename' t => w)
    | with_reducible assumption
    | with_reducible exact OnlyRegs.refl _
    | with_reducible exact OnlyRegsX.fault
    | with_reducible apply OnlyRegsX.go
    | (with_reducible apply OnlyRegs.tr; case k => with_reducible apply State.complete_regs)
    | with_reducible apply withCmd_regs
    | with_reducible apply OnlyRegs.foldl
    | with_reducible apply OnlyRegs.foldlFst
    | with_reducible apply OnlyRegs.foldlSnd
    | split
    | dsimp only

theorem execAttestReport_regs : ∀ x0 s, OnlyRegsX s (execAttestReport x0 s) [Sys2Proof.Machine.oIntStatus, Sys2Proof.Machine.oMbxStatus, Sys2Proof.Machine.oPba] := by
  intro x0 s
  unfold execAttestReport
  repeat' first
    | (show ∀ _ : Nat, _; exact offs_sub (by decide +kernel))
    | (show ¬ (_ ∈ _); decide +kernel)
    | (with_reducible intro _; beta_reduce)
    | ((conv => arg 2; arg 1; skip); with_reducible apply OnlyRegs.ite)
    | ((conv => arg 2; arg 1; skip); with_reducible apply OnlyRegsX.ite)
    | (extract_lets +onlyGivenNames t; refine OnlyRegs.cut (t := t) ?_ ?_ <;> [(unfold t; clear t); (intro v _ e; clear_value t; subst e; rename' v => w)])
    | (extract_lets +onlyGivenNames t; refine OnlyRegs.cut (t := t) ?_ ?_ <;> [(unfold t; clear t); (intro v _ e; subst v; rename' t => w)])
    | (extract_lets +onlyGivenNames t; refine OnlyRegs.cutFst (t := t) ?_ ?_ <;> [(unfold t; clear t); (intro v _ e; clear_value t; subst e; rename' v => w)])
    | (extract_lets +onlyGivenNames t; refine OnlyRegs.cutSnd (t := t) ?_ ?_ <;> [(unfold t; clear t); (intro v _ e; clear_value t; subst e; rename' v => w)])
    | (extract_lets +onlyGivenNames t; refine OnlyRegsX.cut (t := t) ?_ ?_ <;> [(unfold t; clear t); (intro v _ e; clear_value t; subst e; rename' v => w)])
    | (extract_lets +onlyGivenNames t; refine OnlyRegsX.cut (t := t) ?_ ?_ <;> [(unfold t; clear t); (intro v _ e; subst v; rename' t => w)])
    | (extract_lets +onlyGivenNames t; refine OnlyRegsX.cutFst (t := t) ?_ ?_ <;> [(unfold t; clear t); (intro v _ e; clear_value t; subst e; rename' v => w)])
    | (extract_lets +onlyGivenNames t; refine OnlyRegsX.cutSnd (t := t) ?_ ?_ <;> [(unfold t; clear t); (intro v _ e; clear_value t; subst e; rename' v => w)])
    | (extract_lets +onlyGivenNames t; (have _h := fun x => t x); clear _h; unfold t; clear t)
    | (extract_lets +onlyGivenNames t; clear_value t; rename' t => w)
    | (extract_lets +onlyGivenNames t; rename' t => w)
    | with_reducible assumption
    | with_reducible exact OnlyRegs.refl _
    | with_reducible exact OnlyRegsX.fault
    | with_reducible apply OnlyRegsX.go
    | ((conv => arg 2; arg 36; skip); refine OnlyRegs.tr ?_ (OnlyRegs.upd (l := []) rfl rfl) ?_)
    | (with_reducible apply OnlyRegs.tr; case k => with_reducible apply State.done_regs)
    | (with_reducible apply OnlyRegs.tr; case k => with_reducible apply State.output_regs)
    | with_reducible apply withCmd_regs
    | with_reducible apply OnlyRegs.foldl
    | with_reducible apply OnlyRegs.foldlFst
    | with_reducible apply OnlyRegs.foldlSnd
    | split
    | dsimp only

theorem execAttestCert_regs : ∀ x0 s, OnlyRegsX s (execAttestCert x0 s) [Sys2Proof.Machine.oIntStatus, Sys2Proof.Machine.oMbxStatus, Sys2Proof.Machine.oPba] := by
  intro x0 s
  unfold execAttestCert
  repeat' first
    | (show ∀ _ : Nat, _; exact offs_sub (by decide +kernel))
    | (show ¬ (_ ∈ _); decide +kernel)
    | (with_reducible intro _; beta_reduce)
    | ((conv => arg 2; arg 1; skip); with_reducible apply OnlyRegs.ite)
    | ((conv => arg 2; arg 1; skip); with_reducible apply OnlyRegsX.ite)
    | (extract_lets +onlyGivenNames t; refine OnlyRegs.cut (t := t) ?_ ?_ <;> [(unfold t; clear t); (intro v _ e; clear_value t; subst e; rename' v => w)])
    | (extract_lets +onlyGivenNames t; refine OnlyRegs.cut (t := t) ?_ ?_ <;> [(unfold t; clear t); (intro v _ e; subst v; rename' t => w)])
    | (extract_lets +onlyGivenNames t; refine OnlyRegs.cutFst (t := t) ?_ ?_ <;> [(unfold t; clear t); (intro v _ e; clear_value t; subst e; rename' v => w)])
    | (extract_lets +onlyGivenNames t; refine OnlyRegs.cutSnd (t := t) ?_ ?_ <;> [(unfold t; clear t); (intro v _ e; clear_value t; subst e; rename' v => w)])
    | (extract_lets +onlyGivenNames t; refine OnlyRegsX.cut (t := t) ?_ ?_ <;> [(unfold t; clear t); (intro v _ e; clear_value t; subst e; rename' v => w)])
    | (extract_lets +onlyGivenNames t; refine OnlyRegsX.cut (t := t) ?_ ?_ <;> [(unfold t; clear t); (intro v _ e; subst v; rename' t => w)])
    | (extract_lets +onlyGivenNames t; refine OnlyRegsX.cutFst (t := t) ?_ ?_ <;> [(unfold t; clear t); (intro v _ e; clear_value t; subst e; rename' v => w)])
    | (extract_lets +onlyGivenNames t; refine OnlyRegsX.cutSnd (t := t) ?_ ?_ <;> [(unfold t; clear t); (intro v _ e; clear_value t; subst e; rename' v => w)])
    | (extract_lets +onlyGivenNames t; (have _h := fun x => t x); clear _h; unfold t; clear t)
    | (extract_lets +onlyGivenNames t; clear_value t; rename' t => w)
    | (extract_lets +onlyGivenNames t; rename' t => w)
    | with_reducible assumption
    | with_reducible exact OnlyRegs.refl _
    | with_reducible exact OnlyRegsX.fault
    | with_reducible apply OnlyRegsX.go
    | (with_reducible apply OnlyRegs.tr; case k => with_reducible apply State.output_regs)
    | with_reducible apply withCmd_regs
    | with_reducible apply OnlyRegs.foldl
    | with_reducible apply OnlyRegs.foldlFst
    | with_reducible apply OnlyRegs.foldlSnd
    | split
    | dsimp only

theorem execKeyOwner_regs : ∀ x0 s, OnlyRegsX s (execKeyOwner x0 s) [Sys2Proof.Machine.oIntStatus, Sys2Proof.Machine.oMbxStatus, Sys2Proof.Machine.oPba] := by
  intro x0 s
  unfold execKeyOwner
  repeat' first
    | (show ∀ _ : Nat, _; exact offs_sub (by decide +kernel))
    | (show ¬ (_ ∈ _); decide +kernel)
    | (with_reducible intro _; beta_reduce)
    | ((conv => arg 2; arg 1; skip); with_reducible apply OnlyRegs.ite)
    | ((conv => arg 2; arg 1; skip); with_reducible apply OnlyRegsX.ite)
    | (extract_lets +onlyGivenNames t; refine OnlyRegs.cut (t := t) ?_ ?_ <;> [(unfold t; clear t); (intro v _ e; clear_value t; subst e; rename' v => w)])
    | (extract_lets +onlyGivenNames t; refine OnlyRegs.cut (t := t) ?_ ?_ <;> [(unfold t; clear t); (intro v _ e; subst v; rename' t => w)])
    | (extract_lets +onlyGivenNames t; refine OnlyRegs.cutFst (t := t) ?_ ?_ <;> [(unfold t; clear t); (intro v _ e; clear_value t; subst e; rename' v => w)])
    | (extract_lets +onlyGivenNames t; refine OnlyRegs.cutSnd (t := t) ?_ ?_ <;> [(unfold t; clear t); (intro v _ e; clear_value t; subst e; rename' v => w)])
    | (extract_lets +onlyGivenNames t; refine OnlyRegsX.cut (t := t) ?_ ?_ <;> [(unfold t; clear t); (intro v _ e; clear_value t; subst e; rename' v => w)])
    | (extract_lets +onlyGivenNames t; refine OnlyRegsX.cut (t := t) ?_ ?_ <;> [(unfold t; clear t); (intro v _ e; subst v; rename' t => w)])
    | (extract_lets +onlyGivenNames t; refine OnlyRegsX.cutFst (t := t) ?_ ?_ <;> [(unfold t; clear t); (intro v _ e; clear_value t; subst e; rename' v => w)])
    | (extract_lets +onlyGivenNames t; refine OnlyRegsX.cutSnd (t := t) ?_ ?_ <;> [(unfold t; clear t); (intro v _ e; clear_value t; subst e; rename' v => w)])
    | (extract_lets +onlyGivenNames t; (have _h := fun x => t x); clear _h; unfold t; clear t)
    | (extract_lets +onlyGivenNames t; clear_value t; rename' t => w)
    | (extract_lets +onlyGivenNames t; rename' t => w)
    | with_reducible assumption
    | with_reducible exact OnlyRegs.refl _
    | with_reducible exact OnlyRegsX.fault
    | with_reducible apply OnlyRegsX.go
    | ((conv => arg 2; arg 36; skip); refine OnlyRegs.tr ?_ (OnlyRegs.upd (l := []) rfl rfl) ?_)
    | (with_reducible apply OnlyRegs.tr; case k => with_reducible apply State.done_regs)
    | with_reducible apply withCmd_regs
    | with_reducible apply OnlyRegs.foldl
    | with_reducible apply OnlyRegs.foldlFst
    | with_reducible apply OnlyRegs.foldlSnd
    | split
    | dsimp only

theorem execKeySnap_regs : ∀ x0 s, OnlyRegsX s (execKeySnap x0 s) [Sys2Proof.Machine.oIntStatus, Sys2Proof.Machine.oMbxStatus, Sys2Proof.Machine.oPba] := by
  intro x0 s
  unfold execKeySnap
  repeat' first
    | (show ∀ _ : Nat, _; exact offs_sub (by decide +kernel))
    | (show ¬ (_ ∈ _); decide +kernel)
    | (with_reducible intro _; beta_reduce)
    | ((conv => arg 2; arg 1; skip); with_reducible apply OnlyRegs.ite)
    | ((conv => arg 2; arg 1; skip); with_reducible apply OnlyRegsX.ite)
    | (extract_lets +onlyGivenNames t; refine OnlyRegs.cut (t := t) ?_ ?_ <;> [(unfold t; clear t); (intro v _ e; clear_value t; subst e; rename' v => w)])
    | (extract_lets +onlyGivenNames t; refine OnlyRegs.cut (t := t) ?_ ?_ <;> [(unfold t; clear t); (intro v _ e; subst v; rename' t => w)])
    | (extract_lets +onlyGivenNames t; refine OnlyRegs.cutFst (t := t) ?_ ?_ <;> [(unfold t; clear t); (intro v _ e; clear_value t; subst e; rename' v => w)])
    | (extract_lets +onlyGivenNames t; refine OnlyRegs.cutSnd (t := t) ?_ ?_ <;> [(unfold t; clear t); (intro v _ e; clear_value t; subst e; rename' v => w)])
    | (extract_lets +onlyGivenNames t; refine OnlyRegsX.cut (t := t) ?_ ?_ <;> [(unfold t; clear t); (intro v _ e; clear_value t; subst e; rename' v => w)])
    | (extract_lets +onlyGivenNames t; refine OnlyRegsX.cut (t := t) ?_ ?_ <;> [(unfold t; clear t); (intro v _ e; subst v; rename' t => w)])
    | (extract_lets +onlyGivenNames t; refine OnlyRegsX.cutFst (t := t) ?_ ?_ <;> [(unfold t; clear t); (intro v _ e; clear_value t; subst e; rename' v => w)])
    | (extract_lets +onlyGivenNames t; refine OnlyRegsX.cutSnd (t := t) ?_ ?_ <;> [(unfold t; clear t); (intro v _ e; clear_value t; subst e; rename' v => w)])
    | (extract_lets +onlyGivenNames t; (have _h := fun x => t x); clear _h; unfold t; clear t)
    | (extract_lets +onlyGivenNames t; clear_value t; rename' t => w)
    | (extract_lets +onlyGivenNames t; rename' t => w)
    | with_reducible assumption
    | with_reducible exact OnlyRegs.refl _
    | with_reducible exact OnlyRegsX.fault
    | with_reducible apply OnlyRegsX.go
    | ((conv => arg 2; arg 36; skip); refine OnlyRegs.tr ?_ (OnlyRegs.upd (l := []) rfl rfl) ?_)
    | (with_reducible apply OnlyRegs.tr; case k => with_reducible apply State.done_regs)
    | with_reducible apply withCmd_regs
    | with_reducible apply OnlyRegs.foldl
    | with_reducible apply OnlyRegs.foldlFst
    | with_reducible apply OnlyRegs.foldlSnd
    | split
    | dsimp only

theorem execKeyClear_regs : ∀ x0 s, OnlyRegsX s (execKeyClear x0 s) [Sys2Proof.Machine.oIntStatus, Sys2Proof.Machine.oMbxStatus, Sys2Proof.Machine.oPba] := by
  intro x0 s
  unfold execKeyClear
  repeat' first
    | (show ∀ _ : Nat, _; exact offs_sub (by decide +kernel))
    | (show ¬ (_ ∈ _); decide +kernel)
    | (with_reducible intro _; beta_reduce)
    | ((conv => arg 2; arg 1; skip); with_reducible apply OnlyRegs.ite)
    | ((conv => arg 2; arg 1; skip); with_reducible apply OnlyRegsX.ite)
    | (extract_lets +onlyGivenNames t; refine OnlyRegs.cut (t := t) ?_ ?_ <;> [(unfold t; clear t); (intro v _ e; clear_value t; subst e; rename' v => w)])
    | (extract_lets +onlyGivenNames t; refine OnlyRegs.cut (t := t) ?_ ?_ <;> [(unfold t; clear t); (intro v _ e; subst v; rename' t => w)])
    | (extract_lets +onlyGivenNames t; refine OnlyRegs.cutFst (t := t) ?_ ?_ <;> [(unfold t; clear t); (intro v _ e; clear_value t; subst e; rename' v => w)])
    | (extract_lets +onlyGivenNames t; refine OnlyRegs.cutSnd (t := t) ?_ ?_ <;> [(unfold t; clear t); (intro v _ e; clear_value t; subst e; rename' v => w)])
    | (extract_lets +onlyGivenNames t; refine OnlyRegsX.cut (t := t) ?_ ?_ <;> [(unfold t; clear t); (intro v _ e; clear_value t; subst e; rename' v => w)])
    | (extract_lets +onlyGivenNames t; refine OnlyRegsX.cut (t := t) ?_ ?_ <;> [(unfold t; clear t); (intro v _ e; subst v; rename' t => w)])
    | (extract_lets +onlyGivenNames t; refine OnlyRegsX.cutFst (t := t) ?_ ?_ <;> [(unfold t; clear t); (intro v _ e; clear_value t; subst e; rename' v => w)])
    | (extract_lets +onlyGivenNames t; refine OnlyRegsX.cutSnd (t := t) ?_ ?_ <;> [(unfold t; clear t); (intro v _ e; clear_value t; subst e; rename' v => w)])
    | (extract_lets +onlyGivenNames t; (have _h := fun x => t x); clear _h; unfold t; clear t)
    | (extract_lets +onlyGivenNames t; clear_value t; rename' t => w)
    | (extract_lets +onlyGivenNames t; rename' t => w)
    | with_reducible assumption
    | with_reducible exact OnlyRegs.refl _
    | with_reducible exact OnlyRegsX.fault
    | with_reducible apply OnlyRegsX.go
    | ((conv => arg 2; arg 36; skip); refine OnlyRegs.tr ?_ (OnlyRegs.upd (l := []) rfl rfl) ?_)
    | (with_reducible apply OnlyRegs.tr; case k => with_reducible apply State.done_regs)
    | (with_reducible apply OnlyRegs.keep; case k => with_reducible apply State.eraseLine_touches)
    | with_reducible apply withCmd_regs
    | with_reducible apply OnlyRegs.foldl
    | with_reducible apply OnlyRegs.foldlFst
    | with_reducible apply OnlyRegs.foldlSnd
    | split
    | dsimp only

theorem State.ciphState_regs : ∀ s x1, OnlyRegs s (State.ciphState s x1) [Sys2Proof.Machine.oCiph 0, Sys2Proof.Machine.oCiph 1, Sys2Proof.Machine.oCiph 2] := by
  intro s x1
  unfold State.ciphState
  repeat' first
    | (show ∀ _ : Nat, _; exact offs_sub (by decide +kernel))
    | (show ¬ (_ ∈ _); decide +kernel)
    | (with_reducible intro _; beta_reduce)
    | ((conv => arg 2; arg 1; skip); with_reducible apply OnlyRegs.ite)
    | (extract_lets +onlyGivenNames t; refine OnlyRegs.cut (t := t) ?_ ?_ <;> [(unfold t; clear t); (intro v _ e; clear_value t; subst e; rename' v => w)])
    | (extract_lets +onlyGivenNames t; refine OnlyRegs.cut (t := t) ?_ ?_ <;> [(unfold t; clear t); (intro v _ e; subst v; rename' t => w)])
    | (extract_lets +onlyGivenNames t; refine OnlyRegs.cutFst (t := t) ?_ ?_ <;> [(unfold t; clear t); (intro v _ e; clear_value t; subst e; rename' v => w)])
    | (extract_lets +onlyGivenNames t; refine OnlyRegs.cutSnd (t := t) ?_ ?_ <;> [(unfold t; clear t); (intro v _ e; clear_value t; subst e; rename' v => w)])
    | (extract_lets +onlyGivenNames t; (have _h := fun x => t x); clear _h; unfold t; clear t)
    | (extract_lets +onlyGivenNames t; clear_value t; rename' t => w)
    | (extract_lets +onlyGivenNames t; rename' t => w)
    | with_reducible assumption
    | with_reducible exact OnlyRegs.refl _
    | (with_reducible apply OnlyRegs.tr; case k => with_reducible apply OnlyRegs.wf)
    | with_reducible apply OnlyRegs.foldl
    | with_reducible apply OnlyRegs.foldlFst
    | with_reducible apply OnlyRegs.foldlSnd
    | split
    | dsimp only

theorem execEntropyFailure_regs : ∀ s, OnlyRegsX s (execEntropyFailure s) [Sys2Proof.Machine.oCalLost, Sys2Proof.Machine.oCiph 0, Sys2Proof.Machine.oCiph 1, Sys2Proof.Machine.oCiph 2, Sys2Proof.Machine.oIntStatus, Sys2Proof.Machine.oPba, Sys2Proof.Machine.oSecAlarm] := by
  intro s
  unfold execEntropyFailure
  repeat' first
    | (show ∀ _ : Nat, _; exact offs_sub (by decide +kernel))
    | (show ¬ (_ ∈ _); decide +kernel)
    | (with_reducible intro _; beta_reduce)
    | ((conv => arg 2; arg 1; skip); with_reducible apply OnlyRegs.ite)
    | ((conv => arg 2; arg 1; skip); with_reducible apply OnlyRegsX.ite)
    | (extract_lets +onlyGivenNames t; refine OnlyRegs.cut (t := t) ?_ ?_ <;> [(unfold t; clear t); (intro v _ e; clear_value t; subst e; rename' v => w)])
    | (extract_lets +onlyGivenNames t; refine OnlyRegs.cut (t := t) ?_ ?_ <;> [(unfold t; clear t); (intro v _ e; subst v; rename' t => w)])
    | (extract_lets +onlyGivenNames t; refine OnlyRegs.cutFst (t := t) ?_ ?_ <;> [(unfold t; clear t); (intro v _ e; clear_value t; subst e; rename' v => w)])
    | (extract_lets +onlyGivenNames t; refine OnlyRegs.cutSnd (t := t) ?_ ?_ <;> [(unfold t; clear t); (intro v _ e; clear_value t; subst e; rename' v => w)])
    | (extract_lets +onlyGivenNames t; refine OnlyRegsX.cut (t := t) ?_ ?_ <;> [(unfold t; clear t); (intro v _ e; clear_value t; subst e; rename' v => w)])
    | (extract_lets +onlyGivenNames t; refine OnlyRegsX.cut (t := t) ?_ ?_ <;> [(unfold t; clear t); (intro v _ e; subst v; rename' t => w)])
    | (extract_lets +onlyGivenNames t; refine OnlyRegsX.cutFst (t := t) ?_ ?_ <;> [(unfold t; clear t); (intro v _ e; clear_value t; subst e; rename' v => w)])
    | (extract_lets +onlyGivenNames t; refine OnlyRegsX.cutSnd (t := t) ?_ ?_ <;> [(unfold t; clear t); (intro v _ e; clear_value t; subst e; rename' v => w)])
    | (extract_lets +onlyGivenNames t; (have _h := fun x => t x); clear _h; unfold t; clear t)
    | (extract_lets +onlyGivenNames t; clear_value t; rename' t => w)
    | (extract_lets +onlyGivenNames t; rename' t => w)
    | with_reducible assumption
    | with_reducible exact OnlyRegs.refl _
    | with_reducible exact OnlyRegsX.fault
    | with_reducible apply OnlyRegsX.go
    | (with_reducible apply OnlyRegs.tr; case k => with_reducible apply State.ciphState_regs)
    | (with_reducible apply OnlyRegs.tr; case k => with_reducible apply State.post_regs)
    | (with_reducible apply OnlyRegs.tr; case k => with_reducible apply State.raise_regs)
    | (with_reducible apply OnlyRegs.tr; case k => with_reducible apply OnlyRegs.wf)
    | (with_reducible apply OnlyRegsX.tr; case k => exact fun u e => OnlyRegs.of (go_touches .. u e) (by decide))
    | with_reducible apply OnlyRegs.foldl
    | with_reducible apply OnlyRegs.foldlFst
    | with_reducible apply OnlyRegs.foldlSnd
    | split
    | dsimp only

theorem execKeyGraceExpiry_regs : ∀ x0 x1 s, OnlyRegsX s (execKeyGraceExpiry x0 x1 s) [Sys2Proof.Machine.oCalLost, Sys2Proof.Machine.oIntStatus, Sys2Proof.Machine.oPba] := by
  intro x0 x1 s
  unfold execKeyGraceExpiry
  repeat' first
    | (show ∀ _ : Nat, _; exact offs_sub (by decide +kernel))
    | (show ¬ (_ ∈ _); decide +kernel)
    | (with_reducible intro _; beta_reduce)
    | ((conv => arg 2; arg 1; skip); with_reducible apply OnlyRegs.ite)
    | ((conv => arg 2; arg 1; skip); with_reducible apply OnlyRegsX.ite)
    | (extract_lets +onlyGivenNames t; refine OnlyRegs.cut (t := t) ?_ ?_ <;> [(unfold t; clear t); (intro v _ e; clear_value t; subst e; rename' v => w)])
    | (extract_lets +onlyGivenNames t; refine OnlyRegs.cut (t := t) ?_ ?_ <;> [(unfold t; clear t); (intro v _ e; subst v; rename' t => w)])
    | (extract_lets +onlyGivenNames t; refine OnlyRegs.cutFst (t := t) ?_ ?_ <;> [(unfold t; clear t); (intro v _ e; clear_value t; subst e; rename' v => w)])
    | (extract_lets +onlyGivenNames t; refine OnlyRegs.cutSnd (t := t) ?_ ?_ <;> [(unfold t; clear t); (intro v _ e; clear_value t; subst e; rename' v => w)])
    | (extract_lets +onlyGivenNames t; refine OnlyRegsX.cut (t := t) ?_ ?_ <;> [(unfold t; clear t); (intro v _ e; clear_value t; subst e; rename' v => w)])
    | (extract_lets +onlyGivenNames t; refine OnlyRegsX.cut (t := t) ?_ ?_ <;> [(unfold t; clear t); (intro v _ e; subst v; rename' t => w)])
    | (extract_lets +onlyGivenNames t; refine OnlyRegsX.cutFst (t := t) ?_ ?_ <;> [(unfold t; clear t); (intro v _ e; clear_value t; subst e; rename' v => w)])
    | (extract_lets +onlyGivenNames t; refine OnlyRegsX.cutSnd (t := t) ?_ ?_ <;> [(unfold t; clear t); (intro v _ e; clear_value t; subst e; rename' v => w)])
    | (extract_lets +onlyGivenNames t; (have _h := fun x => t x); clear _h; unfold t; clear t)
    | (extract_lets +onlyGivenNames t; clear_value t; rename' t => w)
    | (extract_lets +onlyGivenNames t; rename' t => w)
    | with_reducible assumption
    | with_reducible exact OnlyRegs.refl _
    | with_reducible exact OnlyRegsX.fault
    | with_reducible apply OnlyRegsX.go
    | (with_reducible apply OnlyRegs.tr; case k => with_reducible apply State.keyRec_regs)
    | (with_reducible apply OnlyRegs.keep; case k => with_reducible apply State.setPeer_touches)
    | (with_reducible apply OnlyRegsX.tr; case k => exact fun u e => OnlyRegs.of (go_touches .. u e) (by decide))
    | with_reducible apply OnlyRegs.foldl
    | with_reducible apply OnlyRegs.foldlFst
    | with_reducible apply OnlyRegs.foldlSnd
    | split
    | dsimp only

end Sys2Proof.Machine
end

