-- ==== Sys2Proof/Laws/TouchHang.lean ====
section
/-!
SUPPORT. What the functions of Machine/Hang.lean may touch.
-/

set_option linter.all false
set_option Elab.async false
set_option linter.unreachableTactic false
set_option linter.unusedTactic false
set_option linter.tactic.unusedName false

namespace Sys2Proof.Machine

theorem State.suspectMark_touches : ∀ s x1 x2 x3, Touches [.regs, .hang] s (State.suspectMark s x1 x2 x3) := by
  intro s x1 x2 x3
  unfold State.suspectMark
  repeat' first
    | (show ∀ _ : Part, _; exact Part.sub (by decide +kernel))
    | (with_reducible intro _; beta_reduce)
    | ((conv => arg 3; arg 1; skip); with_reducible apply Touches.ite)
    | (extract_lets +onlyGivenNames t; refine Touches.cut (t := t) ?_ ?_ <;> [(unfold t; clear t); (intro v _ e; clear_value t; subst e; rename' v => w)])
    | (extract_lets +onlyGivenNames t; refine Touches.cut (t := t) ?_ ?_ <;> [(unfold t; clear t); (intro v _ e; subst v; rename' t => w)])
    | (extract_lets +onlyGivenNames t; refine Touches.cutFst (t := t) ?_ ?_ <;> [(unfold t; clear t); (intro v _ e; clear_value t; subst e; rename' v => w)])
    | (extract_lets +onlyGivenNames t; refine Touches.cutSnd (t := t) ?_ ?_ <;> [(unfold t; clear t); (intro v _ e; clear_value t; subst e; rename' v => w)])
    | (extract_lets +onlyGivenNames t; (have _h := fun x => t x); clear _h; unfold t; clear t)
    | (extract_lets +onlyGivenNames t; clear_value t; rename' t => w)
    | (extract_lets +onlyGivenNames t; rename' t => w)
    | with_reducible assumption
    | with_reducible exact Touches.refl _
    | ((conv => arg 3; arg 36; skip); refine Touches.trans ?_ (Touches.upd (l := [.hang]) rfl) ?_)
    | (with_reducible apply Touches.trans; case k => with_reducible apply State.wf_touches)
    | with_reducible apply Touches.foldl
    | with_reducible apply Touches.foldlFst
    | with_reducible apply Touches.foldlSnd
    | split
    | dsimp only

theorem State.suspectRestore_touches : ∀ s x1 x2, Touches [.regs, .mem, .bad, .mbx, .job, .cores, .clus, .qs, .strg, .jug, .fabric, .cal, .out] s (State.suspectRestore s x1 x2).1 := by
  intro s x1 x2
  unfold State.suspectRestore
  repeat' first
    | (show ∀ _ : Part, _; exact Part.sub (by decide +kernel))
    | (with_reducible intro _; beta_reduce)
    | ((conv => arg 3; arg 1; skip); with_reducible apply Touches.ite)
    | (extract_lets +onlyGivenNames t; refine Touches.cut (t := t) ?_ ?_ <;> [(unfold t; clear t); (intro v _ e; clear_value t; subst e; rename' v => w)])
    | (extract_lets +onlyGivenNames t; refine Touches.cut (t := t) ?_ ?_ <;> [(unfold t; clear t); (intro v _ e; subst v; rename' t => w)])
    | (extract_lets +onlyGivenNames t; refine Touches.cutFst (t := t) ?_ ?_ <;> [(unfold t; clear t); (intro v _ e; clear_value t; subst e; rename' v => w)])
    | (extract_lets +onlyGivenNames t; refine Touches.cutSnd (t := t) ?_ ?_ <;> [(unfold t; clear t); (intro v _ e; clear_value t; subst e; rename' v => w)])
    | (extract_lets +onlyGivenNames t; (have _h := fun x => t x); clear _h; unfold t; clear t)
    | (extract_lets +onlyGivenNames t; clear_value t; rename' t => w)
    | (extract_lets +onlyGivenNames t; rename' t => w)
    | with_reducible assumption
    | with_reducible exact Touches.refl _
    | (with_reducible apply Touches.fst; assumption)
    | (with_reducible apply Touches.trans; case k => with_reducible apply State.engineError_touches)
    | (with_reducible apply Touches.trans; case k => with_reducible apply State.memError_touches)
    | (with_reducible apply Touches.trans; case k => with_reducible apply State.restoreArea_touches)
    | (with_reducible apply Touches.fst; assumption)
    | with_reducible apply Touches.foldl
    | with_reducible apply Touches.foldlFst
    | with_reducible apply Touches.foldlSnd
    | split
    | dsimp only

theorem State.suspectsFrom_touches : ∀ s x1 x2 x3, Touches [.regs, .mem, .bad, .mbx, .job, .cores, .clus, .qs, .hang, .strg, .jug, .fabric, .cal, .pwr, .i3c, .out] s (State.suspectsFrom s x1 x2 x3) := by
  intro s x1 x2 x3
  induction x3 generalizing s x1 x2
  case zero =>
    unfold State.suspectsFrom
    repeat' first
      | (show ∀ _ : Part, _; exact Part.sub (by decide +kernel))
      | (with_reducible intro _; beta_reduce)
      | ((conv => arg 3; arg 1; skip); with_reducible apply Touches.ite)
      | (extract_lets +onlyGivenNames t; refine Touches.cut (t := t) ?_ ?_ <;> [(unfold t; clear t); (intro v _ e; clear_value t; subst e; rename' v => w)])
      | (extract_lets +onlyGivenNames t; refine Touches.cut (t := t) ?_ ?_ <;> [(unfold t; clear t); (intro v _ e; subst v; rename' t => w)])
      | (extract_lets +onlyGivenNames t; refine Touches.cutFst (t := t) ?_ ?_ <;> [(unfold t; clear t); (intro v _ e; clear_value t; subst e; rename' v => w)])
      | (extract_lets +onlyGivenNames t; refine Touches.cutSnd (t := t) ?_ ?_ <;> [(unfold t; clear t); (intro v _ e; clear_value t; subst e; rename' v => w)])
      | (extract_lets +onlyGivenNames t; (have _h := fun x => t x); clear _h; unfold t; clear t)
      | (extract_lets +onlyGivenNames t; clear_value t; rename' t => w)
      | (extract_lets +onlyGivenNames t; rename' t => w)
      | with_reducible assumption
      | with_reducible exact Touches.refl _
      | (with_reducible apply Touches.fst; assumption)
      | ((conv => arg 3; arg 36; skip); refine Touches.trans ?_ (Touches.upd (l := [.hang]) rfl) ?_)
      | (with_reducible apply Touches.trans; case k => with_reducible apply State.resetCluster_touches)
      | (with_reducible apply Touches.trans; case k => with_reducible apply State.setClu_touches)
      | (with_reducible apply Touches.trans; case k => with_reducible apply State.setCtx_touches)
      | (with_reducible apply Touches.trans; case k => with_reducible apply State.stopCluster_touches)
      | (with_reducible apply Touches.trans; case k => with_reducible apply State.suspectMark_touches)
      | (with_reducible apply Touches.trans; case k => with_reducible apply State.suspectRestore_touches)
      | (with_reducible apply Touches.fst; assumption)
      | with_reducible apply Touches.foldl
      | with_reducible apply Touches.foldlFst
      | with_reducible apply Touches.foldlSnd
      | split
      | dsimp only
  case succ n ih =>
    unfold State.suspectsFrom
    repeat' first
      | (show ∀ _ : Part, _; exact Part.sub (by decide +kernel))
      | (with_reducible intro _; beta_reduce)
      | ((conv => arg 3; arg 1; skip); with_reducible apply Touches.ite)
      | (extract_lets +onlyGivenNames t; refine Touches.cut (t := t) ?_ ?_ <;> [(unfold t; clear t); (intro v _ e; clear_value t; subst e; rename' v => w)])
      | (extract_lets +onlyGivenNames t; refine Touches.cut (t := t) ?_ ?_ <;> [(unfold t; clear t); (intro v _ e; subst v; rename' t => w)])
      | (extract_lets +onlyGivenNames t; refine Touches.cutFst (t := t) ?_ ?_ <;> [(unfold t; clear t); (intro v _ e; clear_value t; subst e; rename' v => w)])
      | (extract_lets +onlyGivenNames t; refine Touches.cutSnd (t := t) ?_ ?_ <;> [(unfold t; clear t); (intro v _ e; clear_value t; subst e; rename' v => w)])
      | (extract_lets +onlyGivenNames t; (have _h := fun x => t x); clear _h; unfold t; clear t)
      | (extract_lets +onlyGivenNames t; clear_value t; rename' t => w)
      | (extract_lets +onlyGivenNames t; rename' t => w)
      | with_reducible assumption
      | with_reducible exact Touches.refl _
      | (with_reducible apply Touches.fst; assumption)
      | ((conv => arg 3; arg 36; skip); refine Touches.trans ?_ (Touches.upd (l := [.hang]) rfl) ?_)
      | (with_reducible apply Touches.trans; case k => with_reducible apply ih)
      | (with_reducible apply Touches.trans; case k => with_reducible apply State.resetCluster_touches)
      | (with_reducible apply Touches.trans; case k => with_reducible apply State.setClu_touches)
      | (with_reducible apply Touches.trans; case k => with_reducible apply State.setCtx_touches)
      | (with_reducible apply Touches.trans; case k => with_reducible apply State.stopCluster_touches)
      | (with_reducible apply Touches.trans; case k => with_reducible apply State.suspectMark_touches)
      | (with_reducible apply Touches.trans; case k => with_reducible apply State.suspectRestore_touches)
      | (with_reducible apply Touches.fst; assumption)
      | with_reducible apply Touches.foldl
      | with_reducible apply Touches.foldlFst
      | with_reducible apply Touches.foldlSnd
      | split
      | dsimp only

theorem State.suspectVerdict_touches : ∀ s x1, Touches [.regs, .mem, .bad, .mbx, .job, .cores, .clus, .qs, .hang, .strg, .jug, .fabric, .cal, .pwr, .i3c, .out] s (State.suspectVerdict s x1) := by
  intro s x1
  unfold State.suspectVerdict
  repeat' first
    | (show ∀ _ : Part, _; exact Part.sub (by decide +kernel))
    | (with_reducible intro _; beta_reduce)
    | ((conv => arg 3; arg 1; skip); with_reducible apply Touches.ite)
    | (extract_lets +onlyGivenNames t; refine Touches.cut (t := t) ?_ ?_ <;> [(unfold t; clear t); (intro v _ e; clear_value t; subst e; rename' v => w)])
    | (extract_lets +onlyGivenNames t; refine Touches.cut (t := t) ?_ ?_ <;> [(unfold t; clear t); (intro v _ e; subst v; rename' t => w)])
    | (extract_lets +onlyGivenNames t; refine Touches.cutFst (t := t) ?_ ?_ <;> [(unfold t; clear t); (intro v _ e; clear_value t; subst e; rename' v => w)])
    | (extract_lets +onlyGivenNames t; refine Touches.cutSnd (t := t) ?_ ?_ <;> [(unfold t; clear t); (intro v _ e; clear_value t; subst e; rename' v => w)])
    | (extract_lets +onlyGivenNames t; (have _h := fun x => t x); clear _h; unfold t; clear t)
    | (extract_lets +onlyGivenNames t; clear_value t; rename' t => w)
    | (extract_lets +onlyGivenNames t; rename' t => w)
    | with_reducible assumption
    | with_reducible exact Touches.refl _
    | (with_reducible apply Touches.trans; case k => with_reducible apply State.suspectMark_touches)
    | (with_reducible apply Touches.trans; case k => with_reducible apply State.suspectsFrom_touches)
    | with_reducible apply Touches.foldl
    | with_reducible apply Touches.foldlFst
    | with_reducible apply Touches.foldlSnd
    | split
    | dsimp only

theorem State.suspectRetires_touches : ∀ s x1 x2 x3, Touches [.hang] s (State.suspectRetires s x1 x2 x3) := by
  intro s x1 x2 x3
  unfold State.suspectRetires
  repeat' first
    | (show ∀ _ : Part, _; exact Part.sub (by decide +kernel))
    | (with_reducible intro _; beta_reduce)
    | ((conv => arg 3; arg 1; skip); with_reducible apply Touches.ite)
    | (extract_lets +onlyGivenNames t; refine Touches.cut (t := t) ?_ ?_ <;> [(unfold t; clear t); (intro v _ e; clear_value t; subst e; rename' v => w)])
    | (extract_lets +onlyGivenNames t; refine Touches.cut (t := t) ?_ ?_ <;> [(unfold t; clear t); (intro v _ e; subst v; rename' t => w)])
    | (extract_lets +onlyGivenNames t; refine Touches.cutFst (t := t) ?_ ?_ <;> [(unfold t; clear t); (intro v _ e; clear_value t; subst e; rename' v => w)])
    | (extract_lets +onlyGivenNames t; refine Touches.cutSnd (t := t) ?_ ?_ <;> [(unfold t; clear t); (intro v _ e; clear_value t; subst e; rename' v => w)])
    | (extract_lets +onlyGivenNames t; (have _h := fun x => t x); clear _h; unfold t; clear t)
    | (extract_lets +onlyGivenNames t; clear_value t; rename' t => w)
    | (extract_lets +onlyGivenNames t; rename' t => w)
    | with_reducible assumption
    | with_reducible exact Touches.refl _
    | ((conv => arg 3; arg 36; skip); refine Touches.trans ?_ (Touches.upd (l := [.hang]) rfl) ?_)
    | with_reducible apply Touches.foldl
    | with_reducible apply Touches.foldlFst
    | with_reducible apply Touches.foldlSnd
    | split
    | dsimp only

theorem State.hangCheck_touches : ∀ s, Touches [.regs, .mem, .bad, .mbx, .job, .cores, .clus, .qs, .hang, .strg, .jug, .fabric, .cal, .pwr, .i3c, .out] s (State.hangCheck s) := by
  intro s
  unfold State.hangCheck
  repeat' first
    | (show ∀ _ : Part, _; exact Part.sub (by decide +kernel))
    | (with_reducible intro _; beta_reduce)
    | ((conv => arg 3; arg 1; skip); with_reducible apply Touches.ite)
    | (extract_lets +onlyGivenNames t; refine Touches.cut (t := t) ?_ ?_ <;> [(unfold t; clear t); (intro v _ e; clear_value t; subst e; rename' v => w)])
    | (extract_lets +onlyGivenNames t; refine Touches.cut (t := t) ?_ ?_ <;> [(unfold t; clear t); (intro v _ e; subst v; rename' t => w)])
    | (extract_lets +onlyGivenNames t; refine Touches.cutFst (t := t) ?_ ?_ <;> [(unfold t; clear t); (intro v _ e; clear_value t; subst e; rename' v => w)])
    | (extract_lets +onlyGivenNames t; refine Touches.cutSnd (t := t) ?_ ?_ <;> [(unfold t; clear t); (intro v _ e; clear_value t; subst e; rename' v => w)])
    | (extract_lets +onlyGivenNames t; (have _h := fun x => t x); clear _h; unfold t; clear t)
    | (extract_lets +onlyGivenNames t; clear_value t; rename' t => w)
    | (extract_lets +onlyGivenNames t; rename' t => w)
    | with_reducible assumption
    | with_reducible exact Touches.refl _
    | (with_reducible apply Touches.trans; case k => with_reducible apply State.suspectVerdict_touches)
    | with_reducible apply Touches.foldl
    | with_reducible apply Touches.foldlFst
    | with_reducible apply Touches.foldlSnd
    | split
    | dsimp only

end Sys2Proof.Machine
end

