-- ==== Sys2Proof/Laws/State.lean ====
section
/-!
SUPPORT. What each plain update of State leaves and what it writes, one lemma for each field, so that no proof unfolds a record update.
-/

namespace Sys2Proof.Machine

/-- Two states with equal fields are equal. -/
theorem State.eq_of {s t : State}
    (pending_eq : s.pending = t.pending)
    (regs_eq : s.regs = t.regs)
    (bar4_eq : s.bar4 = t.bar4)
    (mem_eq : s.mem = t.mem)
    (hostMem_eq : s.hostMem = t.hostMem)
    (flash_eq : s.flash = t.flash)
    (bad_eq : s.bad = t.bad)
    (soft_eq : s.soft = t.soft)
    (ddrBytes_eq : s.ddrBytes = t.ddrBytes)
    (dimms_eq : s.dimms = t.dimms)
    (erasing_eq : s.erasing = t.erasing)
    (eraseDue_eq : s.eraseDue = t.eraseDue)
    (mbx_eq : s.mbx = t.mbx)
    (job_eq : s.job = t.job)
    (cores_eq : s.cores = t.cores)
    (clus_eq : s.clus = t.clus)
    (qs_eq : s.qs = t.qs)
    (hang_eq : s.hang = t.hang)
    (strg_eq : s.strg = t.strg)
    (mirror_eq : s.mirror = t.mirror)
    (jug_eq : s.jug = t.jug)
    (reshard_eq : s.reshard = t.reshard)
    (restore_eq : s.restore = t.restore)
    (fabric_eq : s.fabric = t.fabric)
    (rounds_eq : s.rounds = t.rounds)
    (replay_eq : s.replay = t.replay)
    (fw_eq : s.fw = t.fw)
    (keys_eq : s.keys = t.keys)
    (cal_eq : s.cal = t.cal)
    (time_eq : s.time = t.time)
    (pwr_eq : s.pwr = t.pwr)
    (i3c_eq : s.i3c = t.i3c)
    (midSeq_eq : s.midSeq = t.midSeq)
    (midRetry_eq : s.midRetry = t.midRetry)
    (free_eq : s.free = t.free)
    (out_eq : s.out = t.out) : s = t := by
  cases s; cases t; simp_all

/-! ### wf writes `regs` only -/

@[simp] theorem State.wf_pending (s : State) (o hi lo v : Nat) : (s.wf o hi lo v).pending = s.pending := rfl
@[simp] theorem State.wf_bar4 (s : State) (o hi lo v : Nat) : (s.wf o hi lo v).bar4 = s.bar4 := rfl
@[simp] theorem State.wf_mem (s : State) (o hi lo v : Nat) : (s.wf o hi lo v).mem = s.mem := rfl
@[simp] theorem State.wf_hostMem (s : State) (o hi lo v : Nat) : (s.wf o hi lo v).hostMem = s.hostMem := rfl
@[simp] theorem State.wf_flash (s : State) (o hi lo v : Nat) : (s.wf o hi lo v).flash = s.flash := rfl
@[simp] theorem State.wf_bad (s : State) (o hi lo v : Nat) : (s.wf o hi lo v).bad = s.bad := rfl
@[simp] theorem State.wf_soft (s : State) (o hi lo v : Nat) : (s.wf o hi lo v).soft = s.soft := rfl
@[simp] theorem State.wf_ddrBytes (s : State) (o hi lo v : Nat) : (s.wf o hi lo v).ddrBytes = s.ddrBytes := rfl
@[simp] theorem State.wf_dimms (s : State) (o hi lo v : Nat) : (s.wf o hi lo v).dimms = s.dimms := rfl
@[simp] theorem State.wf_erasing (s : State) (o hi lo v : Nat) : (s.wf o hi lo v).erasing = s.erasing := rfl
@[simp] theorem State.wf_eraseDue (s : State) (o hi lo v : Nat) : (s.wf o hi lo v).eraseDue = s.eraseDue := rfl
@[simp] theorem State.wf_mbx (s : State) (o hi lo v : Nat) : (s.wf o hi lo v).mbx = s.mbx := rfl
@[simp] theorem State.wf_job (s : State) (o hi lo v : Nat) : (s.wf o hi lo v).job = s.job := rfl
@[simp] theorem State.wf_cores (s : State) (o hi lo v : Nat) : (s.wf o hi lo v).cores = s.cores := rfl
@[simp] theorem State.wf_clus (s : State) (o hi lo v : Nat) : (s.wf o hi lo v).clus = s.clus := rfl
@[simp] theorem State.wf_qs (s : State) (o hi lo v : Nat) : (s.wf o hi lo v).qs = s.qs := rfl
@[simp] theorem State.wf_hang (s : State) (o hi lo v : Nat) : (s.wf o hi lo v).hang = s.hang := rfl
@[simp] theorem State.wf_strg (s : State) (o hi lo v : Nat) : (s.wf o hi lo v).strg = s.strg := rfl
@[simp] theorem State.wf_mirror (s : State) (o hi lo v : Nat) : (s.wf o hi lo v).mirror = s.mirror := rfl
@[simp] theorem State.wf_jug (s : State) (o hi lo v : Nat) : (s.wf o hi lo v).jug = s.jug := rfl
@[simp] theorem State.wf_reshard (s : State) (o hi lo v : Nat) : (s.wf o hi lo v).reshard = s.reshard := rfl
@[simp] theorem State.wf_restore (s : State) (o hi lo v : Nat) : (s.wf o hi lo v).restore = s.restore := rfl
@[simp] theorem State.wf_fabric (s : State) (o hi lo v : Nat) : (s.wf o hi lo v).fabric = s.fabric := rfl
@[simp] theorem State.wf_rounds (s : State) (o hi lo v : Nat) : (s.wf o hi lo v).rounds = s.rounds := rfl
@[simp] theorem State.wf_replay (s : State) (o hi lo v : Nat) : (s.wf o hi lo v).replay = s.replay := rfl
@[simp] theorem State.wf_fw (s : State) (o hi lo v : Nat) : (s.wf o hi lo v).fw = s.fw := rfl
@[simp] theorem State.wf_keys (s : State) (o hi lo v : Nat) : (s.wf o hi lo v).keys = s.keys := rfl
@[simp] theorem State.wf_cal (s : State) (o hi lo v : Nat) : (s.wf o hi lo v).cal = s.cal := rfl
@[simp] theorem State.wf_time (s : State) (o hi lo v : Nat) : (s.wf o hi lo v).time = s.time := rfl
@[simp] theorem State.wf_pwr (s : State) (o hi lo v : Nat) : (s.wf o hi lo v).pwr = s.pwr := rfl
@[simp] theorem State.wf_i3c (s : State) (o hi lo v : Nat) : (s.wf o hi lo v).i3c = s.i3c := rfl
@[simp] theorem State.wf_midSeq (s : State) (o hi lo v : Nat) : (s.wf o hi lo v).midSeq = s.midSeq := rfl
@[simp] theorem State.wf_midRetry (s : State) (o hi lo v : Nat) : (s.wf o hi lo v).midRetry = s.midRetry := rfl
@[simp] theorem State.wf_free (s : State) (o hi lo v : Nat) : (s.wf o hi lo v).free = s.free := rfl
@[simp] theorem State.wf_out (s : State) (o hi lo v : Nat) : (s.wf o hi lo v).out = s.out := rfl

/-! ### ww writes `regs` only -/

@[simp] theorem State.ww_pending (s : State) (o : Nat) (v : Word) : (s.ww o v).pending = s.pending := rfl
@[simp] theorem State.ww_bar4 (s : State) (o : Nat) (v : Word) : (s.ww o v).bar4 = s.bar4 := rfl
@[simp] theorem State.ww_mem (s : State) (o : Nat) (v : Word) : (s.ww o v).mem = s.mem := rfl
@[simp] theorem State.ww_hostMem (s : State) (o : Nat) (v : Word) : (s.ww o v).hostMem = s.hostMem := rfl
@[simp] theorem State.ww_flash (s : State) (o : Nat) (v : Word) : (s.ww o v).flash = s.flash := rfl
@[simp] theorem State.ww_bad (s : State) (o : Nat) (v : Word) : (s.ww o v).bad = s.bad := rfl
@[simp] theorem State.ww_soft (s : State) (o : Nat) (v : Word) : (s.ww o v).soft = s.soft := rfl
@[simp] theorem State.ww_ddrBytes (s : State) (o : Nat) (v : Word) : (s.ww o v).ddrBytes = s.ddrBytes := rfl
@[simp] theorem State.ww_dimms (s : State) (o : Nat) (v : Word) : (s.ww o v).dimms = s.dimms := rfl
@[simp] theorem State.ww_erasing (s : State) (o : Nat) (v : Word) : (s.ww o v).erasing = s.erasing := rfl
@[simp] theorem State.ww_eraseDue (s : State) (o : Nat) (v : Word) : (s.ww o v).eraseDue = s.eraseDue := rfl
@[simp] theorem State.ww_mbx (s : State) (o : Nat) (v : Word) : (s.ww o v).mbx = s.mbx := rfl
@[simp] theorem State.ww_job (s : State) (o : Nat) (v : Word) : (s.ww o v).job = s.job := rfl
@[simp] theorem State.ww_cores (s : State) (o : Nat) (v : Word) : (s.ww o v).cores = s.cores := rfl
@[simp] theorem State.ww_clus (s : State) (o : Nat) (v : Word) : (s.ww o v).clus = s.clus := rfl
@[simp] theorem State.ww_qs (s : State) (o : Nat) (v : Word) : (s.ww o v).qs = s.qs := rfl
@[simp] theorem State.ww_hang (s : State) (o : Nat) (v : Word) : (s.ww o v).hang = s.hang := rfl
@[simp] theorem State.ww_strg (s : State) (o : Nat) (v : Word) : (s.ww o v).strg = s.strg := rfl
@[simp] theorem State.ww_mirror (s : State) (o : Nat) (v : Word) : (s.ww o v).mirror = s.mirror := rfl
@[simp] theorem State.ww_jug (s : State) (o : Nat) (v : Word) : (s.ww o v).jug = s.jug := rfl
@[simp] theorem State.ww_reshard (s : State) (o : Nat) (v : Word) : (s.ww o v).reshard = s.reshard := rfl
@[simp] theorem State.ww_restore (s : State) (o : Nat) (v : Word) : (s.ww o v).restore = s.restore := rfl
@[simp] theorem State.ww_fabric (s : State) (o : Nat) (v : Word) : (s.ww o v).fabric = s.fabric := rfl
@[simp] theorem State.ww_rounds (s : State) (o : Nat) (v : Word) : (s.ww o v).rounds = s.rounds := rfl
@[simp] theorem State.ww_replay (s : State) (o : Nat) (v : Word) : (s.ww o v).replay = s.replay := rfl
@[simp] theorem State.ww_fw (s : State) (o : Nat) (v : Word) : (s.ww o v).fw = s.fw := rfl
@[simp] theorem State.ww_keys (s : State) (o : Nat) (v : Word) : (s.ww o v).keys = s.keys := rfl
@[simp] theorem State.ww_cal (s : State) (o : Nat) (v : Word) : (s.ww o v).cal = s.cal := rfl
@[simp] theorem State.ww_time (s : State) (o : Nat) (v : Word) : (s.ww o v).time = s.time := rfl
@[simp] theorem State.ww_pwr (s : State) (o : Nat) (v : Word) : (s.ww o v).pwr = s.pwr := rfl
@[simp] theorem State.ww_i3c (s : State) (o : Nat) (v : Word) : (s.ww o v).i3c = s.i3c := rfl
@[simp] theorem State.ww_midSeq (s : State) (o : Nat) (v : Word) : (s.ww o v).midSeq = s.midSeq := rfl
@[simp] theorem State.ww_midRetry (s : State) (o : Nat) (v : Word) : (s.ww o v).midRetry = s.midRetry := rfl
@[simp] theorem State.ww_free (s : State) (o : Nat) (v : Word) : (s.ww o v).free = s.free := rfl
@[simp] theorem State.ww_out (s : State) (o : Nat) (v : Word) : (s.ww o v).out = s.out := rfl

/-! ### emit writes `out` only -/

@[simp] theorem State.emit_pending (s : State) (e : Ev) : (s.emit e).pending = s.pending := rfl
@[simp] theorem State.emit_regs (s : State) (e : Ev) : (s.emit e).regs = s.regs := rfl
@[simp] theorem State.emit_bar4 (s : State) (e : Ev) : (s.emit e).bar4 = s.bar4 := rfl
@[simp] theorem State.emit_mem (s : State) (e : Ev) : (s.emit e).mem = s.mem := rfl
@[simp] theorem State.emit_hostMem (s : State) (e : Ev) : (s.emit e).hostMem = s.hostMem := rfl
@[simp] theorem State.emit_flash (s : State) (e : Ev) : (s.emit e).flash = s.flash := rfl
@[simp] theorem State.emit_bad (s : State) (e : Ev) : (s.emit e).bad = s.bad := rfl
@[simp] theorem State.emit_soft (s : State) (e : Ev) : (s.emit e).soft = s.soft := rfl
@[simp] theorem State.emit_ddrBytes (s : State) (e : Ev) : (s.emit e).ddrBytes = s.ddrBytes := rfl
@[simp] theorem State.emit_dimms (s : State) (e : Ev) : (s.emit e).dimms = s.dimms := rfl
@[simp] theorem State.emit_erasing (s : State) (e : Ev) : (s.emit e).erasing = s.erasing := rfl
@[simp] theorem State.emit_eraseDue (s : State) (e : Ev) : (s.emit e).eraseDue = s.eraseDue := rfl
@[simp] theorem State.emit_mbx (s : State) (e : Ev) : (s.emit e).mbx = s.mbx := rfl
@[simp] theorem State.emit_job (s : State) (e : Ev) : (s.emit e).job = s.job := rfl
@[simp] theorem State.emit_cores (s : State) (e : Ev) : (s.emit e).cores = s.cores := rfl
@[simp] theorem State.emit_clus (s : State) (e : Ev) : (s.emit e).clus = s.clus := rfl
@[simp] theorem State.emit_qs (s : State) (e : Ev) : (s.emit e).qs = s.qs := rfl
@[simp] theorem State.emit_hang (s : State) (e : Ev) : (s.emit e).hang = s.hang := rfl
@[simp] theorem State.emit_strg (s : State) (e : Ev) : (s.emit e).strg = s.strg := rfl
@[simp] theorem State.emit_mirror (s : State) (e : Ev) : (s.emit e).mirror = s.mirror := rfl
@[simp] theorem State.emit_jug (s : State) (e : Ev) : (s.emit e).jug = s.jug := rfl
@[simp] theorem State.emit_reshard (s : State) (e : Ev) : (s.emit e).reshard = s.reshard := rfl
@[simp] theorem State.emit_restore (s : State) (e : Ev) : (s.emit e).restore = s.restore := rfl
@[simp] theorem State.emit_fabric (s : State) (e : Ev) : (s.emit e).fabric = s.fabric := rfl
@[simp] theorem State.emit_rounds (s : State) (e : Ev) : (s.emit e).rounds = s.rounds := rfl
@[simp] theorem State.emit_replay (s : State) (e : Ev) : (s.emit e).replay = s.replay := rfl
@[simp] theorem State.emit_fw (s : State) (e : Ev) : (s.emit e).fw = s.fw := rfl
@[simp] theorem State.emit_keys (s : State) (e : Ev) : (s.emit e).keys = s.keys := rfl
@[simp] theorem State.emit_cal (s : State) (e : Ev) : (s.emit e).cal = s.cal := rfl
@[simp] theorem State.emit_time (s : State) (e : Ev) : (s.emit e).time = s.time := rfl
@[simp] theorem State.emit_pwr (s : State) (e : Ev) : (s.emit e).pwr = s.pwr := rfl
@[simp] theorem State.emit_i3c (s : State) (e : Ev) : (s.emit e).i3c = s.i3c := rfl
@[simp] theorem State.emit_midSeq (s : State) (e : Ev) : (s.emit e).midSeq = s.midSeq := rfl
@[simp] theorem State.emit_midRetry (s : State) (e : Ev) : (s.emit e).midRetry = s.midRetry := rfl
@[simp] theorem State.emit_free (s : State) (e : Ev) : (s.emit e).free = s.free := rfl

/-! ### setClu writes `clus` only -/

@[simp] theorem State.setClu_pending (s : State) (g : Nat) (c : Clu) : (s.setClu g c).pending = s.pending := rfl
@[simp] theorem State.setClu_regs (s : State) (g : Nat) (c : Clu) : (s.setClu g c).regs = s.regs := rfl
@[simp] theorem State.setClu_bar4 (s : State) (g : Nat) (c : Clu) : (s.setClu g c).bar4 = s.bar4 := rfl
@[simp] theorem State.setClu_mem (s : State) (g : Nat) (c : Clu) : (s.setClu g c).mem = s.mem := rfl
@[simp] theorem State.setClu_hostMem (s : State) (g : Nat) (c : Clu) : (s.setClu g c).hostMem = s.hostMem := rfl
@[simp] theorem State.setClu_flash (s : State) (g : Nat) (c : Clu) : (s.setClu g c).flash = s.flash := rfl
@[simp] theorem State.setClu_bad (s : State) (g : Nat) (c : Clu) : (s.setClu g c).bad = s.bad := rfl
@[simp] theorem State.setClu_soft (s : State) (g : Nat) (c : Clu) : (s.setClu g c).soft = s.soft := rfl
@[simp] theorem State.setClu_ddrBytes (s : State) (g : Nat) (c : Clu) : (s.setClu g c).ddrBytes = s.ddrBytes := rfl
@[simp] theorem State.setClu_dimms (s : State) (g : Nat) (c : Clu) : (s.setClu g c).dimms = s.dimms := rfl
@[simp] theorem State.setClu_erasing (s : State) (g : Nat) (c : Clu) : (s.setClu g c).erasing = s.erasing := rfl
@[simp] theorem State.setClu_eraseDue (s : State) (g : Nat) (c : Clu) : (s.setClu g c).eraseDue = s.eraseDue := rfl
@[simp] theorem State.setClu_mbx (s : State) (g : Nat) (c : Clu) : (s.setClu g c).mbx = s.mbx := rfl
@[simp] theorem State.setClu_job (s : State) (g : Nat) (c : Clu) : (s.setClu g c).job = s.job := rfl
@[simp] theorem State.setClu_cores (s : State) (g : Nat) (c : Clu) : (s.setClu g c).cores = s.cores := rfl
@[simp] theorem State.setClu_qs (s : State) (g : Nat) (c : Clu) : (s.setClu g c).qs = s.qs := rfl
@[simp] theorem State.setClu_hang (s : State) (g : Nat) (c : Clu) : (s.setClu g c).hang = s.hang := rfl
@[simp] theorem State.setClu_strg (s : State) (g : Nat) (c : Clu) : (s.setClu g c).strg = s.strg := rfl
@[simp] theorem State.setClu_mirror (s : State) (g : Nat) (c : Clu) : (s.setClu g c).mirror = s.mirror := rfl
@[simp] theorem State.setClu_jug (s : State) (g : Nat) (c : Clu) : (s.setClu g c).jug = s.jug := rfl
@[simp] theorem State.setClu_reshard (s : State) (g : Nat) (c : Clu) : (s.setClu g c).reshard = s.reshard := rfl
@[simp] theorem State.setClu_restore (s : State) (g : Nat) (c : Clu) : (s.setClu g c).restore = s.restore := rfl
@[simp] theorem State.setClu_fabric (s : State) (g : Nat) (c : Clu) : (s.setClu g c).fabric = s.fabric := rfl
@[simp] theorem State.setClu_rounds (s : State) (g : Nat) (c : Clu) : (s.setClu g c).rounds = s.rounds := rfl
@[simp] theorem State.setClu_replay (s : State) (g : Nat) (c : Clu) : (s.setClu g c).replay = s.replay := rfl
@[simp] theorem State.setClu_fw (s : State) (g : Nat) (c : Clu) : (s.setClu g c).fw = s.fw := rfl
@[simp] theorem State.setClu_keys (s : State) (g : Nat) (c : Clu) : (s.setClu g c).keys = s.keys := rfl
@[simp] theorem State.setClu_cal (s : State) (g : Nat) (c : Clu) : (s.setClu g c).cal = s.cal := rfl
@[simp] theorem State.setClu_time (s : State) (g : Nat) (c : Clu) : (s.setClu g c).time = s.time := rfl
@[simp] theorem State.setClu_pwr (s : State) (g : Nat) (c : Clu) : (s.setClu g c).pwr = s.pwr := rfl
@[simp] theorem State.setClu_i3c (s : State) (g : Nat) (c : Clu) : (s.setClu g c).i3c = s.i3c := rfl
@[simp] theorem State.setClu_midSeq (s : State) (g : Nat) (c : Clu) : (s.setClu g c).midSeq = s.midSeq := rfl
@[simp] theorem State.setClu_midRetry (s : State) (g : Nat) (c : Clu) : (s.setClu g c).midRetry = s.midRetry := rfl
@[simp] theorem State.setClu_free (s : State) (g : Nat) (c : Clu) : (s.setClu g c).free = s.free := rfl
@[simp] theorem State.setClu_out (s : State) (g : Nat) (c : Clu) : (s.setClu g c).out = s.out := rfl

/-! ### setCore writes `cores` only -/

@[simp] theorem State.setCore_pending (s : State) (c : Nat) (x : Core) : (s.setCore c x).pending = s.pending := rfl
@[simp] theorem State.setCore_regs (s : State) (c : Nat) (x : Core) : (s.setCore c x).regs = s.regs := rfl
@[simp] theorem State.setCore_bar4 (s : State) (c : Nat) (x : Core) : (s.setCore c x).bar4 = s.bar4 := rfl
@[simp] theorem State.setCore_mem (s : State) (c : Nat) (x : Core) : (s.setCore c x).mem = s.mem := rfl
@[simp] theorem State.setCore_hostMem (s : State) (c : Nat) (x : Core) : (s.setCore c x).hostMem = s.hostMem := rfl
@[simp] theorem State.setCore_flash (s : State) (c : Nat) (x : Core) : (s.setCore c x).flash = s.flash := rfl
@[simp] theorem State.setCore_bad (s : State) (c : Nat) (x : Core) : (s.setCore c x).bad = s.bad := rfl
@[simp] theorem State.setCore_soft (s : State) (c : Nat) (x : Core) : (s.setCore c x).soft = s.soft := rfl
@[simp] theorem State.setCore_ddrBytes (s : State) (c : Nat) (x : Core) : (s.setCore c x).ddrBytes = s.ddrBytes := rfl
@[simp] theorem State.setCore_dimms (s : State) (c : Nat) (x : Core) : (s.setCore c x).dimms = s.dimms := rfl
@[simp] theorem State.setCore_erasing (s : State) (c : Nat) (x : Core) : (s.setCore c x).erasing = s.erasing := rfl
@[simp] theorem State.setCore_eraseDue (s : State) (c : Nat) (x : Core) : (s.setCore c x).eraseDue = s.eraseDue := rfl
@[simp] theorem State.setCore_mbx (s : State) (c : Nat) (x : Core) : (s.setCore c x).mbx = s.mbx := rfl
@[simp] theorem State.setCore_job (s : State) (c : Nat) (x : Core) : (s.setCore c x).job = s.job := rfl
@[simp] theorem State.setCore_clus (s : State) (c : Nat) (x : Core) : (s.setCore c x).clus = s.clus := rfl
@[simp] theorem State.setCore_qs (s : State) (c : Nat) (x : Core) : (s.setCore c x).qs = s.qs := rfl
@[simp] theorem State.setCore_hang (s : State) (c : Nat) (x : Core) : (s.setCore c x).hang = s.hang := rfl
@[simp] theorem State.setCore_strg (s : State) (c : Nat) (x : Core) : (s.setCore c x).strg = s.strg := rfl
@[simp] theorem State.setCore_mirror (s : State) (c : Nat) (x : Core) : (s.setCore c x).mirror = s.mirror := rfl
@[simp] theorem State.setCore_jug (s : State) (c : Nat) (x : Core) : (s.setCore c x).jug = s.jug := rfl
@[simp] theorem State.setCore_reshard (s : State) (c : Nat) (x : Core) : (s.setCore c x).reshard = s.reshard := rfl
@[simp] theorem State.setCore_restore (s : State) (c : Nat) (x : Core) : (s.setCore c x).restore = s.restore := rfl
@[simp] theorem State.setCore_fabric (s : State) (c : Nat) (x : Core) : (s.setCore c x).fabric = s.fabric := rfl
@[simp] theorem State.setCore_rounds (s : State) (c : Nat) (x : Core) : (s.setCore c x).rounds = s.rounds := rfl
@[simp] theorem State.setCore_replay (s : State) (c : Nat) (x : Core) : (s.setCore c x).replay = s.replay := rfl
@[simp] theorem State.setCore_fw (s : State) (c : Nat) (x : Core) : (s.setCore c x).fw = s.fw := rfl
@[simp] theorem State.setCore_keys (s : State) (c : Nat) (x : Core) : (s.setCore c x).keys = s.keys := rfl
@[simp] theorem State.setCore_cal (s : State) (c : Nat) (x : Core) : (s.setCore c x).cal = s.cal := rfl
@[simp] theorem State.setCore_time (s : State) (c : Nat) (x : Core) : (s.setCore c x).time = s.time := rfl
@[simp] theorem State.setCore_pwr (s : State) (c : Nat) (x : Core) : (s.setCore c x).pwr = s.pwr := rfl
@[simp] theorem State.setCore_i3c (s : State) (c : Nat) (x : Core) : (s.setCore c x).i3c = s.i3c := rfl
@[simp] theorem State.setCore_midSeq (s : State) (c : Nat) (x : Core) : (s.setCore c x).midSeq = s.midSeq := rfl
@[simp] theorem State.setCore_midRetry (s : State) (c : Nat) (x : Core) : (s.setCore c x).midRetry = s.midRetry := rfl
@[simp] theorem State.setCore_free (s : State) (c : Nat) (x : Core) : (s.setCore c x).free = s.free := rfl
@[simp] theorem State.setCore_out (s : State) (c : Nat) (x : Core) : (s.setCore c x).out = s.out := rfl

/-! ### setSport writes `fabric` only -/

@[simp] theorem State.setSport_pending (s : State) (p : Nat) (x : SPort) : (s.setSport p x).pending = s.pending := rfl
@[simp] theorem State.setSport_regs (s : State) (p : Nat) (x : SPort) : (s.setSport p x).regs = s.regs := rfl
@[simp] theorem State.setSport_bar4 (s : State) (p : Nat) (x : SPort) : (s.setSport p x).bar4 = s.bar4 := rfl
@[simp] theorem State.setSport_mem (s : State) (p : Nat) (x : SPort) : (s.setSport p x).mem = s.mem := rfl
@[simp] theorem State.setSport_hostMem (s : State) (p : Nat) (x : SPort) : (s.setSport p x).hostMem = s.hostMem := rfl
@[simp] theorem State.setSport_flash (s : State) (p : Nat) (x : SPort) : (s.setSport p x).flash = s.flash := rfl
@[simp] theorem State.setSport_bad (s : State) (p : Nat) (x : SPort) : (s.setSport p x).bad = s.bad := rfl
@[simp] theorem State.setSport_soft (s : State) (p : Nat) (x : SPort) : (s.setSport p x).soft = s.soft := rfl
@[simp] theorem State.setSport_ddrBytes (s : State) (p : Nat) (x : SPort) : (s.setSport p x).ddrBytes = s.ddrBytes := rfl
@[simp] theorem State.setSport_dimms (s : State) (p : Nat) (x : SPort) : (s.setSport p x).dimms = s.dimms := rfl
@[simp] theorem State.setSport_erasing (s : State) (p : Nat) (x : SPort) : (s.setSport p x).erasing = s.erasing := rfl
@[simp] theorem State.setSport_eraseDue (s : State) (p : Nat) (x : SPort) : (s.setSport p x).eraseDue = s.eraseDue := rfl
@[simp] theorem State.setSport_mbx (s : State) (p : Nat) (x : SPort) : (s.setSport p x).mbx = s.mbx := rfl
@[simp] theorem State.setSport_job (s : State) (p : Nat) (x : SPort) : (s.setSport p x).job = s.job := rfl
@[simp] theorem State.setSport_cores (s : State) (p : Nat) (x : SPort) : (s.setSport p x).cores = s.cores := rfl
@[simp] theorem State.setSport_clus (s : State) (p : Nat) (x : SPort) : (s.setSport p x).clus = s.clus := rfl
@[simp] theorem State.setSport_qs (s : State) (p : Nat) (x : SPort) : (s.setSport p x).qs = s.qs := rfl
@[simp] theorem State.setSport_hang (s : State) (p : Nat) (x : SPort) : (s.setSport p x).hang = s.hang := rfl
@[simp] theorem State.setSport_strg (s : State) (p : Nat) (x : SPort) : (s.setSport p x).strg = s.strg := rfl
@[simp] theorem State.setSport_mirror (s : State) (p : Nat) (x : SPort) : (s.setSport p x).mirror = s.mirror := rfl
@[simp] theorem State.setSport_jug (s : State) (p : Nat) (x : SPort) : (s.setSport p x).jug = s.jug := rfl
@[simp] theorem State.setSport_reshard (s : State) (p : Nat) (x : SPort) : (s.setSport p x).reshard = s.reshard := rfl
@[simp] theorem State.setSport_restore (s : State) (p : Nat) (x : SPort) : (s.setSport p x).restore = s.restore := rfl
@[simp] theorem State.setSport_rounds (s : State) (p : Nat) (x : SPort) : (s.setSport p x).rounds = s.rounds := rfl
@[simp] theorem State.setSport_replay (s : State) (p : Nat) (x : SPort) : (s.setSport p x).replay = s.replay := rfl
@[simp] theorem State.setSport_fw (s : State) (p : Nat) (x : SPort) : (s.setSport p x).fw = s.fw := rfl
@[simp] theorem State.setSport_keys (s : State) (p : Nat) (x : SPort) : (s.setSport p x).keys = s.keys := rfl
@[simp] theorem State.setSport_cal (s : State) (p : Nat) (x : SPort) : (s.setSport p x).cal = s.cal := rfl
@[simp] theorem State.setSport_time (s : State) (p : Nat) (x : SPort) : (s.setSport p x).time = s.time := rfl
@[simp] theorem State.setSport_pwr (s : State) (p : Nat) (x : SPort) : (s.setSport p x).pwr = s.pwr := rfl
@[simp] theorem State.setSport_i3c (s : State) (p : Nat) (x : SPort) : (s.setSport p x).i3c = s.i3c := rfl
@[simp] theorem State.setSport_midSeq (s : State) (p : Nat) (x : SPort) : (s.setSport p x).midSeq = s.midSeq := rfl
@[simp] theorem State.setSport_midRetry (s : State) (p : Nat) (x : SPort) : (s.setSport p x).midRetry = s.midRetry := rfl
@[simp] theorem State.setSport_free (s : State) (p : Nat) (x : SPort) : (s.setSport p x).free = s.free := rfl
@[simp] theorem State.setSport_out (s : State) (p : Nat) (x : SPort) : (s.setSport p x).out = s.out := rfl

/-! ### hostPut writes `hostMem` only -/

@[simp] theorem State.hostPut_pending (s : State) (a : Nat) (b : Bytes) : (s.hostPut a b).pending = s.pending := rfl
@[simp] theorem State.hostPut_regs (s : State) (a : Nat) (b : Bytes) : (s.hostPut a b).regs = s.regs := rfl
@[simp] theorem State.hostPut_bar4 (s : State) (a : Nat) (b : Bytes) : (s.hostPut a b).bar4 = s.bar4 := rfl
@[simp] theorem State.hostPut_mem (s : State) (a : Nat) (b : Bytes) : (s.hostPut a b).mem = s.mem := rfl
@[simp] theorem State.hostPut_flash (s : State) (a : Nat) (b : Bytes) : (s.hostPut a b).flash = s.flash := rfl
@[simp] theorem State.hostPut_bad (s : State) (a : Nat) (b : Bytes) : (s.hostPut a b).bad = s.bad := rfl
@[simp] theorem State.hostPut_soft (s : State) (a : Nat) (b : Bytes) : (s.hostPut a b).soft = s.soft := rfl
@[simp] theorem State.hostPut_ddrBytes (s : State) (a : Nat) (b : Bytes) : (s.hostPut a b).ddrBytes = s.ddrBytes := rfl
@[simp] theorem State.hostPut_dimms (s : State) (a : Nat) (b : Bytes) : (s.hostPut a b).dimms = s.dimms := rfl
@[simp] theorem State.hostPut_erasing (s : State) (a : Nat) (b : Bytes) : (s.hostPut a b).erasing = s.erasing := rfl
@[simp] theorem State.hostPut_eraseDue (s : State) (a : Nat) (b : Bytes) : (s.hostPut a b).eraseDue = s.eraseDue := rfl
@[simp] theorem State.hostPut_mbx (s : State) (a : Nat) (b : Bytes) : (s.hostPut a b).mbx = s.mbx := rfl
@[simp] theorem State.hostPut_job (s : State) (a : Nat) (b : Bytes) : (s.hostPut a b).job = s.job := rfl
@[simp] theorem State.hostPut_cores (s : State) (a : Nat) (b : Bytes) : (s.hostPut a b).cores = s.cores := rfl
@[simp] theorem State.hostPut_clus (s : State) (a : Nat) (b : Bytes) : (s.hostPut a b).clus = s.clus := rfl
@[simp] theorem State.hostPut_qs (s : State) (a : Nat) (b : Bytes) : (s.hostPut a b).qs = s.qs := rfl
@[simp] theorem State.hostPut_hang (s : State) (a : Nat) (b : Bytes) : (s.hostPut a b).hang = s.hang := rfl
@[simp] theorem State.hostPut_strg (s : State) (a : Nat) (b : Bytes) : (s.hostPut a b).strg = s.strg := rfl
@[simp] theorem State.hostPut_mirror (s : State) (a : Nat) (b : Bytes) : (s.hostPut a b).mirror = s.mirror := rfl
@[simp] theorem State.hostPut_jug (s : State) (a : Nat) (b : Bytes) : (s.hostPut a b).jug = s.jug := rfl
@[simp] theorem State.hostPut_reshard (s : State) (a : Nat) (b : Bytes) : (s.hostPut a b).reshard = s.reshard := rfl
@[simp] theorem State.hostPut_restore (s : State) (a : Nat) (b : Bytes) : (s.hostPut a b).restore = s.restore := rfl
@[simp] theorem State.hostPut_fabric (s : State) (a : Nat) (b : Bytes) : (s.hostPut a b).fabric = s.fabric := rfl
@[simp] theorem State.hostPut_rounds (s : State) (a : Nat) (b : Bytes) : (s.hostPut a b).rounds = s.rounds := rfl
@[simp] theorem State.hostPut_replay (s : State) (a : Nat) (b : Bytes) : (s.hostPut a b).replay = s.replay := rfl
@[simp] theorem State.hostPut_fw (s : State) (a : Nat) (b : Bytes) : (s.hostPut a b).fw = s.fw := rfl
@[simp] theorem State.hostPut_keys (s : State) (a : Nat) (b : Bytes) : (s.hostPut a b).keys = s.keys := rfl
@[simp] theorem State.hostPut_cal (s : State) (a : Nat) (b : Bytes) : (s.hostPut a b).cal = s.cal := rfl
@[simp] theorem State.hostPut_time (s : State) (a : Nat) (b : Bytes) : (s.hostPut a b).time = s.time := rfl
@[simp] theorem State.hostPut_pwr (s : State) (a : Nat) (b : Bytes) : (s.hostPut a b).pwr = s.pwr := rfl
@[simp] theorem State.hostPut_i3c (s : State) (a : Nat) (b : Bytes) : (s.hostPut a b).i3c = s.i3c := rfl
@[simp] theorem State.hostPut_midSeq (s : State) (a : Nat) (b : Bytes) : (s.hostPut a b).midSeq = s.midSeq := rfl
@[simp] theorem State.hostPut_midRetry (s : State) (a : Nat) (b : Bytes) : (s.hostPut a b).midRetry = s.midRetry := rfl
@[simp] theorem State.hostPut_free (s : State) (a : Nat) (b : Bytes) : (s.hostPut a b).free = s.free := rfl
@[simp] theorem State.hostPut_out (s : State) (a : Nat) (b : Bytes) : (s.hostPut a b).out = s.out := rfl

/-! ### start writes `mbx` only -/

@[simp] theorem State.start_pending (s : State) (tag : BitVec 32) : (s.start tag).pending = s.pending := rfl
@[simp] theorem State.start_regs (s : State) (tag : BitVec 32) : (s.start tag).regs = s.regs := rfl
@[simp] theorem State.start_bar4 (s : State) (tag : BitVec 32) : (s.start tag).bar4 = s.bar4 := rfl
@[simp] theorem State.start_mem (s : State) (tag : BitVec 32) : (s.start tag).mem = s.mem := rfl
@[simp] theorem State.start_hostMem (s : State) (tag : BitVec 32) : (s.start tag).hostMem = s.hostMem := rfl
@[simp] theorem State.start_flash (s : State) (tag : BitVec 32) : (s.start tag).flash = s.flash := rfl
@[simp] theorem State.start_bad (s : State) (tag : BitVec 32) : (s.start tag).bad = s.bad := rfl
@[simp] theorem State.start_soft (s : State) (tag : BitVec 32) : (s.start tag).soft = s.soft := rfl
@[simp] theorem State.start_ddrBytes (s : State) (tag : BitVec 32) : (s.start tag).ddrBytes = s.ddrBytes := rfl
@[simp] theorem State.start_dimms (s : State) (tag : BitVec 32) : (s.start tag).dimms = s.dimms := rfl
@[simp] theorem State.start_erasing (s : State) (tag : BitVec 32) : (s.start tag).erasing = s.erasing := rfl
@[simp] theorem State.start_eraseDue (s : State) (tag : BitVec 32) : (s.start tag).eraseDue = s.eraseDue := rfl
@[simp] theorem State.start_job (s : State) (tag : BitVec 32) : (s.start tag).job = s.job := rfl
@[simp] theorem State.start_cores (s : State) (tag : BitVec 32) : (s.start tag).cores = s.cores := rfl
@[simp] theorem State.start_clus (s : State) (tag : BitVec 32) : (s.start tag).clus = s.clus := rfl
@[simp] theorem State.start_qs (s : State) (tag : BitVec 32) : (s.start tag).qs = s.qs := rfl
@[simp] theorem State.start_hang (s : State) (tag : BitVec 32) : (s.start tag).hang = s.hang := rfl
@[simp] theorem State.start_strg (s : State) (tag : BitVec 32) : (s.start tag).strg = s.strg := rfl
@[simp] theorem State.start_mirror (s : State) (tag : BitVec 32) : (s.start tag).mirror = s.mirror := rfl
@[simp] theorem State.start_jug (s : State) (tag : BitVec 32) : (s.start tag).jug = s.jug := rfl
@[simp] theorem State.start_reshard (s : State) (tag : BitVec 32) : (s.start tag).reshard = s.reshard := rfl
@[simp] theorem State.start_restore (s : State) (tag : BitVec 32) : (s.start tag).restore = s.restore := rfl
@[simp] theorem State.start_fabric (s : State) (tag : BitVec 32) : (s.start tag).fabric = s.fabric := rfl
@[simp] theorem State.start_rounds (s : State) (tag : BitVec 32) : (s.start tag).rounds = s.rounds := rfl
@[simp] theorem State.start_replay (s : State) (tag : BitVec 32) : (s.start tag).replay = s.replay := rfl
@[simp] theorem State.start_fw (s : State) (tag : BitVec 32) : (s.start tag).fw = s.fw := rfl
@[simp] theorem State.start_keys (s : State) (tag : BitVec 32) : (s.start tag).keys = s.keys := rfl
@[simp] theorem State.start_cal (s : State) (tag : BitVec 32) : (s.start tag).cal = s.cal := rfl
@[simp] theorem State.start_time (s : State) (tag : BitVec 32) : (s.start tag).time = s.time := rfl
@[simp] theorem State.start_pwr (s : State) (tag : BitVec 32) : (s.start tag).pwr = s.pwr := rfl
@[simp] theorem State.start_i3c (s : State) (tag : BitVec 32) : (s.start tag).i3c = s.i3c := rfl
@[simp] theorem State.start_midSeq (s : State) (tag : BitVec 32) : (s.start tag).midSeq = s.midSeq := rfl
@[simp] theorem State.start_midRetry (s : State) (tag : BitVec 32) : (s.start tag).midRetry = s.midRetry := rfl
@[simp] theorem State.start_free (s : State) (tag : BitVec 32) : (s.start tag).free = s.free := rfl
@[simp] theorem State.start_out (s : State) (tag : BitVec 32) : (s.start tag).out = s.out := rfl

/-- What emit appends. -/
@[simp] theorem State.emit_out (s : State) (e : Ev) : (s.emit e).out = s.out ++ [e] := rfl
/-- A message is an event that leaves the package. -/
theorem State.send_eq (s : State) (d : Nat) (m : Msg) : s.send d m = s.emit (.message d m) := rfl
/-- What setClu puts. -/
@[simp] theorem State.setClu_clus (s : State) (g : Nat) (c : Clu) : (s.setClu g c).clus = SMap.set s.clus g c := rfl
/-- What setCore puts. -/
@[simp] theorem State.setCore_cores (s : State) (c : Nat) (x : Core) : (s.setCore c x).cores = SMap.set s.cores c x := rfl
/-- What wf puts. -/
theorem State.wf_regs (s : State) (o hi lo v : Nat) :
    (s.wf o hi lo v).regs = regPut s.regs o (BitVec.ofNat 64 (putBits hi lo v (regGet s.regs o).toNat)) := rfl
/-- wf as a change of the registers, and of what left. -/
theorem State.wf_eq (s : State) (o hi lo v : Nat) : s.wf o hi lo v = { s with regs := (s.wf o hi lo v).regs, out := (s.wf o hi lo v).out } := rfl
/-- What ww puts. -/
theorem State.ww_regs (s : State) (o : Nat) (v : Word) : (s.ww o v).regs = regPut s.regs o v := rfl
/-- What hostPut puts. -/
theorem State.hostPut_hostMem (s : State) (a : Nat) (b : Bytes) : (s.hostPut a b).hostMem = cellsWrite hostDflt s.hostMem a b := rfl

end Sys2Proof.Machine
end

