-- ==== Sys2Proof/Laws/Romusko.lean ====
section
/-!
SUPPORT. How a Romusko command runs and completes: one lemma for each shared operation of Machine/Ops.lean on the rings, saying all it
does.
-/

namespace Sys2Proof.Machine

/-- A command that runs is its body. -/
theorem withCmd_runs {s : State} {tag : BitVec 32} {op : Nat} {q : Taken} (h : Runs s tag op q) (f : State → Taken → State) :
    withCmd s tag op f = .next (f (s.start tag) { q with started := true }) := by
  obtain ⟨h1, h2, h3, h4, h5, h6⟩ := h
  simp [withCmd, h1, h2, h3, h4, h5, State.memErase, h6, go]

/-- The tag of the request that runs. -/
theorem Runs.tag_eq {s : State} {tag : BitVec 32} {op : Nat} {q : Taken} (h : Runs s tag op q) : q.tag = tag := by
  have := List.find?_some h.1
  simpa using this

/-- Starting a request changes it alone. -/
theorem start_filter (s : State) (tag : BitVec 32) :
    (s.start tag).mbx.taken.filter (fun x => x.tag != tag) = s.mbx.taken.filter (fun x => x.tag != tag) := by
  simp only [State.start]
  induction s.mbx.taken with
  | nil => rfl
  | cons x l ih =>
    simp only [List.map_cons]
    rw [List.filter_cons, List.filter_cons, ih]
    by_cases e : x.tag = tag <;> simp [e]

/-- A vector that fires sends its message, or sets its pending bit and no more (R363, R368). -/
theorem fire_spec (s : State) (v : Nat) :
    s.fire v = { s with regs := (s.fire v).regs, out := (s.fire v).out } ∧ OnlyRegs s (s.fire v) [oPba] ∧
    ((s.fire v).out = s.out ∨ (s.fire v).out = s.out ++ [.msix v]) := by
  unfold State.fire
  split
  · refine ⟨rfl, fun o ho => ?_, .inl rfl⟩
    simp only [List.mem_singleton] at ho
    exact State.rw_wf_other s oPba o v v 1 ho
  · exact ⟨rfl, fun _ _ => rfl, .inr rfl⟩

/-- An interrupt: INT_STATUS and the pending bits alone change, and the vector may fire (R367, R368). -/
theorem raise_spec (s : State) (v : Nat) :
    s.raise v = { s with regs := (s.raise v).regs, out := (s.raise v).out } ∧ OnlyRegs s (s.raise v) [oIntStatus, oPba] ∧
    ((s.raise v).out = s.out ∨ (s.raise v).out = s.out ++ [.msix v]) := by
  have w : OnlyRegs s (s.wf oIntStatus v v 1) [oIntStatus, oPba] := fun o ho =>
    State.rw_wf_other s oIntStatus o v v 1 (fun e => ho (by simp [e]))
  unfold State.raise
  split
  · exact ⟨rfl, fun _ _ => rfl, .inl rfl⟩
  · split
    · obtain ⟨a, b, c⟩ := fire_spec (s.wf oIntStatus v v 1) v
      exact ⟨a, fun o ho => (b o (fun e => ho (List.mem_cons_of_mem _ e))).trans (w o ho), c⟩
    · exact ⟨rfl, w, .inl rfl⟩

/-- After an interrupt its bit is set (R367). -/
theorem raise_sets (s : State) (v : Nat) (h : v < 64) : (s.raise v).rf oIntStatus v v = 1 := by
  have k : (s.wf oIntStatus v v 1).rf oIntStatus v v = 1 := by
    rw [State.rf_wf_same s oIntStatus v v 1 (Nat.le_refl v) h]
    simp
  unfold State.raise
  split
  · assumption
  · split
    · have := (fire_spec (s.wf oIntStatus v v 1) v).2.1 oIntStatus (by decide)
      simp only [State.rf, State.rw] at this k ⊢
      rw [this]
      exact k
    · exact k

/-- The registers of an interrupt or of CPL_STALL are among those of the rings. -/
theorem OnlyRegs.mono {s t : State} {l m : List Nat} (h : OnlyRegs s t l) (hs : ∀ o ∈ l, o ∈ m) : OnlyRegs s t m :=
  fun o ho => h o (fun e => ho (hs o e))

/-- Register frames compose. -/
theorem OnlyRegs.trans {s t u : State} {l : List Nat} (h : OnlyRegs s t l) (g : OnlyRegs t u l) : OnlyRegs s u l :=
  fun o ho => (g o ho).trans (h o ho)

/-- A field write touches its register alone. -/
theorem wf_only (s : State) (o hi lo v : Nat) : OnlyRegs s (s.wf o hi lo v) [o] :=
  fun p hp => State.rw_wf_other s o p hi lo v (by simpa using hp)

/-- Frames over registers and what left compose. -/
theorem regsOut_trans {s x y : State} (h : x = { s with regs := x.regs, out := x.out }) (g : y = { x with regs := y.regs, out := y.out }) :
    y = { s with regs := y.regs, out := y.out } := by
  have key : ∀ (r : SMap Word) (o : List Ev), ({ x with regs := r, out := o } : State) = { s with regs := r, out := o } := by
    intro r o
    rw [h]
  exact g.trans (key y.regs y.out)

/-- CPL_STALL is set or cleared, and its interrupt may fire; nothing else changes. -/
theorem stallCheck_spec (s : State) :
    s.stallCheck = { s with regs := s.stallCheck.regs, out := s.stallCheck.out } ∧ OnlyRegs s s.stallCheck ringRegs := by
  unfold State.stallCheck
  generalize (s.cplFull && !s.mbx.wait.isEmpty) = st
  have hw : OnlyRegs s (s.wf oMbxStatus 58 58 (b2n st)) ringRegs := (wf_only s _ _ _ _).mono (fun o ho => by
    rw [List.mem_singleton] at ho; rw [ho]; exact List.mem_cons_self)
  dsimp only
  generalize hx : s.wf oMbxStatus 58 58 (b2n st) = x at hw
  have hxx : x = { s with regs := x.regs, out := x.out } := by
    rw [← hx]
    exact State.wf_eq s oMbxStatus 58 58 (b2n st)
  split
  · obtain ⟨a, b, _⟩ := raise_spec x 1
    refine ⟨?_, hw.trans (b.mono (fun o ho => List.mem_cons_of_mem _ ho))⟩
    exact regsOut_trans hxx a
  · exact ⟨hxx, hw⟩

/-- The end of a command: the request goes, its completion waits; only the rings and their registers change. -/
theorem complete_spec (u : State) (q : Taken) (status outBytes : Nat) (result : Bytes) :
    u.complete q status outBytes result = { u with mbx := (u.complete q status outBytes result).mbx, regs := (u.complete q status outBytes result).regs,
                                                   out := (u.complete q status outBytes result).out } ∧
    Completed u (u.complete q status outBytes result) q status outBytes result ∧ OnlyRegs u (u.complete q status outBytes result) ringRegs := by
  obtain ⟨a, b⟩ := stallCheck_spec { u with mbx := { u.mbx with
      taken := u.mbx.taken.filter (fun x => x.tag != q.tag)
      wait := if q.silent = true then u.mbx.wait else u.mbx.wait ++ [completionOf q status outBytes result] } }
  have e : u.complete q status outBytes result = State.stallCheck { u with mbx := { u.mbx with
      taken := u.mbx.taken.filter (fun x => x.tag != q.tag)
      wait := if q.silent = true then u.mbx.wait else u.mbx.wait ++ [completionOf q status outBytes result] } } := rfl
  rw [e]
  generalize State.stallCheck _ = v at a b
  refine ⟨?_, ?_, b⟩
  · rw [a]
  · rw [a]; exact ⟨rfl, rfl, rfl, rfl, rfl⟩

/-- A command that started and completed, seen from the state it was taken in. -/
theorem complete_start {s : State} {tag : BitVec 32} {op : Nat} {q : Taken} (h : Runs s tag op q) (status outBytes : Nat) (result : Bytes) (u t : State)
    (hu : u.mbx = (s.start tag).mbx) (ht : Completed u t { q with started := true } status outBytes result) : Completed s t q status outBytes result := by
  obtain ⟨a, b, c, d, e⟩ := ht
  rw [hu] at a b c d e
  refine ⟨?_, ?_, c, d, e⟩
  · rw [a, h.tag_eq]; exact start_filter s tag
  · exact b

/-- The end of a command that ran from `s` through `u`: what the completion is, and that nothing else of `u` changes. -/
theorem finish_cmd {s : State} {tag : BitVec 32} {op : Nat} {q : Taken} (h : Runs s tag op q) (u : State) (hu : u.mbx = (s.start tag).mbx)
    (status outBytes : Nat) (result : Bytes) :
    ∃ t, u.complete { q with started := true } status outBytes result = t ∧ Completed s t q status outBytes result ∧ OnlyRegs u t ringRegs ∧
      t = { u with mbx := t.mbx, regs := t.regs, out := t.out } := by
  obtain ⟨a, b, c⟩ := complete_spec u { q with started := true } status outBytes result
  exact ⟨_, rfl, complete_start h _ _ _ _ _ hu b, c, a⟩

end Sys2Proof.Machine
end

