-- ==== Sys2Proof/WellFormed.lean ====
section
/-!
DEFINITION. Which commands can be given at all. Most operands are bounded by their types; what is left are the bytes that
come from outside: ring entries of 64 bytes (R369), register offsets within BAR0 (R363), and the sizes of frames (R249,
R286), of messages and of memory lines, and the widths of the CXL link (R356). A malformed command stands for nothing that can arrive; the machine itself is
total on it.
-/

namespace Sys2Proof

/-- The register offsets the host can name: within the 32 MiB of BAR0 and on an 8-byte boundary for a wide access, on a
4-byte boundary for a narrow one (R363, R364). -/
def wfOffset (offset : Nat) (wide : Bool) : Bool :=
  decide (offset < 0x2000000) && decide (offset % (if wide then 8 else 4) = 0)

/-- A routed frame is a 32-byte header, a payload of at most 4,096 bytes and the frame check (R249), which a copy that ends with the error
character lacks (R254). -/
def wfRouted (b : List Byte) : Bool :=
  decide (32 ≤ b.length) && decide (b.length ≤ 4132)

/-- A Borjan frame is at most 32 + 16,384 + 16 bytes after its EtherType (R286, R287), and the parity of full data frames two bytes
more (R303). -/
def wfBjn (f : BjnFrame) : Bool := decide (f.bytes.length ≤ 16434)

/-- The well-formedness of a command. -/
def Instr.wf : Instr → Bool
  | .requestDoorbell _ entries _ => entries.all (fun e => decide (e.length = 64)) && decide (entries.length ≤ 255)
  | .registerWrite o w _ => wfOffset o w
  | .routedFrame _ b => wfRouted b
  | .drun f | .parity f | .back f | .req f | .haveFrame f | .manifest f | .mack f | .seal f | .mquery f | .mreply f
  | .join f | .epochGone f => wfBjn f
  | .tt f _ _ => wfBjn f
  | .queueTransfer x => decide (x.data.length % 64 = 0) && decide (64 ≤ x.data.length)
  | .mirrorData m => decide (68 ≤ m.length)
  | .cxlMemWrite o d => decide (o % 64 + d.length ≤ 64) && decide (0 < d.length)
  | .partnerBankReceipt c => decide (c.data.length ≤ 65536)
  | .cxlLinkTrained (.trained _) width _ => width == 8 || width == 16
  | .i3cPrivateWrite b => decide (b.length = 1)
  | _ => true

end Sys2Proof
end

