-- ==== Sys2Proof/Tests/Slice0.lean ====
section
/-!
SUPPORT. Tests: what is not well formed, the worked examples of the manual, and for every statement concrete states and operands that meet its
hypotheses (hyps_<statement>).
-/

set_option synthInstance.maxSize 2000
set_option maxRecDepth 100000
set_option Elab.async false

namespace Sys2Proof.Tests

open Sys2Proof Sys2Proof.Machine

/-! ### Well-formedness -/

theorem test_wf_offset : (Instr.registerWrite 0x2000000 true 0).wf = false ∧ (Instr.registerWrite 4 true 0).wf = false ∧ (Instr.registerWrite 2 false 0).wf = false ∧
    (Instr.registerWrite 4 false 0).wf = true := by decide
theorem test_wf_doorbell : (Instr.requestDoorbell 0 [zeros 63] []).wf = false ∧ (Instr.requestDoorbell 0 (List.replicate 256 (zeros 64)) []).wf = false ∧
    (Instr.requestDoorbell 0 [zeros 64] []).wf = true := by decide +kernel
theorem test_wf_routed : (Instr.routedFrame 0 (zeros 31)).wf = false ∧ (Instr.routedFrame 0 (zeros 4133)).wf = false ∧ (Instr.routedFrame 0 (zeros 32)).wf = true := by
  decide +kernel
theorem test_wf_borjan (f : BjnFrame) (h : f.bytes.length = 16435) : (Instr.drun f).wf = false ∧ (Instr.tt f 0 0).wf = false := by
  simp [Instr.wf, wfBjn, h]
theorem test_wf_mirror : (Instr.mirrorData (zeros 67)).wf = false ∧ (Instr.mirrorData (zeros 68)).wf = true := by decide
theorem test_wf_memory : (Instr.cxlMemWrite 60 (zeros 5)).wf = false ∧ (Instr.cxlMemWrite 0 []).wf = false ∧ (Instr.cxlMemWrite 60 (zeros 4)).wf = true := by decide
theorem test_wf_sideband : (Instr.i3cPrivateWrite [0, 0]).wf = false ∧ (Instr.i3cPrivateWrite [0]).wf = true := by decide
theorem test_wf_queue (x : QueueXfer) (h : x.data.length = 63) : (Instr.queueTransfer x).wf = false := by simp [Instr.wf, h]
theorem test_wf_bank (c : BankChunk) (h : c.data.length = 65537) : (Instr.partnerBankReceipt c).wf = false := by simp [Instr.wf, h]

/-! ### Small states -/

/-- A taken request under tag 5. -/
def tq (op : Nat) (payload : Bytes) : Taken :=
  { tag := 5, opcode := op, ordered := false, noirq := false, outAddr := 0x1000, payload := payload }

/-- A state in which one request is taken. -/
def ts (op : Nat) (payload : Bytes) : State := { mbx := { taken := [tq op payload] } }

/-- A state with registers fields set: offset, high bit, low bit, value. -/
def setRegs (s : State) (l : List (Nat × Nat × Nat × Nat)) : State := l.foldl (fun t x => t.wf x.1 x.2.1 x.2.2.1 x.2.2.2) s

/-- A training programme without tensors, lists or a plan. -/
def p0 : Prog :=
  { gen := false, epoch := 1, flags := 0, modes := 0, kvb := 0, seqSplit := 0, siteTroupes := 1, troupe := 0, troupeSize := 1, position := 0, group := 1,
    acts := 1, layers := 1, routeGroup := 0, stageRows := 0, commitRec := 0, seqMax := 0, balGain := 0, hash := zeros 32, sections := [], tensors := [],
    smap := [], hyper := [], actE := [], ctxE := [], lists := [], queues := [], experts := [], offload := [], plan := {}, route := {}, round := none,
    users := [] }

/-- Eight descriptor words from fields: word, low bit, value. -/
def dw (l : List (Nat × Nat × Nat)) : List Word :=
  (List.range 8).map (fun i => BitVec.ofNat 64 (l.foldl (fun a x => if x.1 = i then a + x.2.2 * 2 ^ x.2.1 else a) 0))

/-- A descriptor of tag 3 that adds 2 to counter 1 of its cluster when it retires. -/
def itm (ws : List (Nat × Nat × Nat)) : QItem := { addr := 0, words := dw ((0, 48, 3) :: ws), sig := some (0, 1, 2) }

/-- Cluster 0 whose unit `u` has that descriptor at the head of context 0's queue. -/
def su (u : Nat) (ws : List (Nat × Nat × Nat)) : State := { clus := [(0, { queues := [(u * 8, [itm ws])] })] }

/-- The bytes of a descriptor-list entry. -/
def eb (ws : List (Nat × Nat × Nat)) : Bytes := (dw ((0, 48, 3) :: ws)).flatMap (fun w => le 8 w.toNat)

/-- Cluster 0 whose context 0 runs and stands at an entry, at address 0 of HBM, with more bytes behind it. -/
def se (ws : List (Nat × Nat × Nat)) (more : Bytes) : State :=
  setRegs { mem := cellsWrite memDflt [] 0 (eb ws ++ more), clus := [(0, { ctxs := [(0, {})] })] } [(oCtxState 0, 7, 0, 1)]

/-! ### The whole machine and the exact forms -/

theorem hyps_StepRunsTheFrontCommand : ({ pending := [.admission] } : State).pending = .admission :: [] := rfl
theorem hyps_AnEmptyQueueTicks :
    ({} : State).pending = [] ∧ ({} : State).time.slew = 0 ∧
    (let s : State := { time := { slew := 5, frac := 9999 } }; s.pending = [] ∧ 0 < s.time.slew ∧ 9999 ≤ s.time.frac) ∧
    (let s : State := { time := { slew := -5, frac := 9999 } }; s.pending = [] ∧ s.time.slew < 0 ∧ 9999 ≤ s.time.frac) ∧
    (let s : State := { time := { slew := -5, frac := 9998 } }; s.pending = [] ∧ s.time.slew ≠ 0 ∧ s.time.frac < 9999) := by decide
theorem hyps_ResetLeavesTheStatedValues :
    regKind oMbxReq = some .mbxReq ∧ (regFields .mbxReq).length = 2 ∧ regKind 1 = none := by decide +kernel
theorem hyps_EveryStepKeepsMemoryCanonical : State.reset.MemoryOk ∧ step State.reset = .next (tick State.reset) :=
  ⟨by unfold State.MemoryOk; decide, rfl⟩
theorem hyps_CommandsQueueNothingAndTakeNothingBack : exec .admission {} = .next {} := rfl
theorem hyps_OnlyAccessesBeyondTheWindowsStop :
    (∀ o w v, Instr.cxlMemRead 0 .clean = .registerWrite o w v → o < 0x2000000) ∧
    (∀ l f, Instr.cxlMemRead 0 .clean = .cxlMemRead l f → l * 64 < (setRegs {} [(oCxlHdm, 57, 48, 1)]).hdmBytes) ∧
    (∀ o d, Instr.cxlMemRead 0 .clean = .cxlMemWrite o d → o + d.length ≤ (setRegs {} [(oCxlHdm, 57, 48, 1)]).hdmBytes) ∧
    (0x2000000 : Nat) ≤ 0x2000000 ∧ ({} : State).hdmBytes ≤ 0 * 64 ∧ ({} : State).hdmBytes < 0 + [0].length := by
  exact ⟨fun o w v h => (by cases h), fun l f h => (by cases h; decide +kernel), fun o d h => (by cases h), by decide +kernel⟩
theorem hyps_BlocksAreCodedOnlyWhereTheySave :
    (let xs := List.replicate 256 0x3C00; xs.length = 256 ∧ (∀ x ∈ xs, x < 2 ^ (8 * elemBytes 0)) ∧
      16 * (codedBlock 0 (bestTable 0 (xs.map (expOf 0))) xs).length < 15 * rawSize 0 xs.length) ∧
    (let xs := [0x3F800000]; (∀ x ∈ xs, x < 2 ^ (8 * elemBytes 1)) ∧
      15 * rawSize 1 xs.length ≤ 16 * (codedBlock 1 (bestTable 1 (xs.map (expOf 1))) xs).length) := by decide +kernel
theorem hyps_PartialRecordsUseTheFewestBytes :
    (let a : Acc := { val := -(2 ^ 111), nan := true, allneg := false }; -(2 ^ 111 : Int) ≤ a.val ∧ a.val < 2 ^ 111 ∧
      (a.allneg = true → a = { val := 0, allneg := true })) ∧
    (let a : Acc := {}; -(2 ^ 111 : Int) ≤ a.val ∧ a.val < 2 ^ 111 ∧ (a.allneg = true → a = { val := 0, allneg := true })) := by decide +kernel
theorem hyps_RequestsAreTakenOnlyWhileACompletionHasRoom :
    (let s : State := { mbx := { taken := List.replicate 255 (tq 0x0101 []) } }; 255 ≤ s.mbx.taken.length + s.mbx.wait.length + s.unconsumed) ∧
    (State.canTake (setRegs { fw := { up := true } } [(oMbxReq, 7, 0, 1)])) = true := by decide +kernel
theorem hyps_AccumulatorsMergeInAnyOrder :
    [({} : Acc), .flagged true false false].Perm [.flagged true false false, {}] ∧ decodeF fp16 0x3C00 = .fin false 1024 (-10) ∧
    decodeF fp32 0xBF800000 = .fin true 8388608 (-23) := ⟨List.Perm.swap _ _ _, by decide +kernel, by decide +kernel⟩
theorem hyps_RepresentableValuesRoundToThemselves :
    bf16 ∈ [fp16, fp32, bf16] ∧ 0x8001 < 2 ^ (bf16.p + bf16.ebits) ∧ decodeF bf16 0x8001 = .fin true 1 (-133) ∧ (Dy.mk 1 0).n ≠ 0 := by decide +kernel

/-! ### The host interface -/

/-- A state with an IDENT entry in the request ring. -/
def sRing : State := setRegs { fw := { up := true }, mbx := { req := [(0, le 2 0x0101 ++ zeros 2 ++ le 4 9 ++ zeros 56)] } } [(oMbxReq, 7, 0, 1)]
/-- The same with an unknown opcode. -/
def sBadRing : State := { sRing with mbx := { req := [(0, le 2 0xFFFF ++ zeros 62)] } }
/-- A completion that waits. -/
def cpl0 : Cpl := { tag := 5, opcode := 0x0101, status := 0, outBytes := 0, result := zeros 16, noirq := false }
/-- A state with a completion that waits and coalescing set. -/
def sCpl : State := setRegs { mbx := { wait := [cpl0], unreported := 1 } } [(oIntCoalesce, 7, 0, 2), (oIntCoalesce, 25, 16, 9)]

theorem hyps_HostRingsMoveRequestsAndCompletions :
    ({} : State).inReset = false ∧ State.MemoryOk {} ∧ (∀ x ∈ [(1, (7 : Byte))], x.1 ≠ 2) ∧ sRing.canTake = true ∧
    sRing.takeStatus true (fit 64 (SMap.get sRing.mbx.req (sRing.rf oMbxReq 15 8) [])) = none ∧
    sBadRing.canTake = true ∧ sBadRing.takeStatus true (fit 64 (SMap.get sBadRing.mbx.req (sBadRing.rf oMbxReq 15 8) [])) = some 1 ∧
    sCpl.mbx.wait = cpl0 :: [] ∧ sCpl.cplFull = false ∧ cpl0.noirq = false ∧ max 1 (sCpl.rf oIntCoalesce 7 0) ≤ sCpl.mbx.unreported + 1 ∧
    (let s := { sCpl with mbx := { sCpl.mbx with unreported := 0 } }; s.mbx.unreported + 1 < max 1 (s.rf oIntCoalesce 7 0)) ∧
    (let s : State := { mbx := { wait := [{ cpl0 with noirq := true }] } }; s.mbx.wait = [{ cpl0 with noirq := true }] ∧ s.cplFull = false) ∧
    sCpl.rf oIntCoalesce 25 16 ≠ 0 ∧ sCpl.mbx.unreported ≠ 0 := by
  unfold State.MemoryOk; decide +kernel
theorem hyps_HostRegisterWritesFollowTheMap :
    0x2000000 ≤ (0x2000000 : Nat) ∧ oHostBase < 0x2000000 ∧ ({} : State).inReset = false ∧ ({} : State).dozingAt oIntCoalesce = false ∧
    regKind 1 = none ∧ regKind oIntCoalesce = some .intCoalesce ∧
    RegKind.intCoalesce ∉ [.mbxReq, .mbxCpl, .intMask, .rstCtl, .rstHang, .rstJob, .hostBase, .hostSize, .calCursor, .bjnCtl, .timeCtl] ∧
    ({ job := { prog := some p0 } } : State).loaded = true ∧ ({ job := { prog := some p0 } } : State).inReset = false := by decide +kernel

/-- A state with an HDM window of 1 GiB of DDR5. -/
def sHdm : State := setRegs {} [(oCxlHdm, 57, 48, 1), (oCxlHdm, 47, 0, ddrBase)]
theorem hyps_CxlPortReadsWritesTrainsAndResets :
    ({} : State).hdmBytes ≤ 0 * 64 ∧ 5 * 64 < sHdm.hdmBytes ∧ sHdm.erasing = false ∧ Found.clean ≠ .uncorrectable ∧ sHdm.hdmAddr (5 * 64) ∉ sHdm.bad ∧
    5 * 64 < { sHdm with erasing := true }.hdmBytes ∧ 64 * 2 ^ 24 + 3 ≤ sHdm.hdmBytes + 3 ∧ sHdm.hdmBytes < 2 ^ 30 + [1].length ∧
    2 ^ 30 - 1 + [1].length ≤ sHdm.hdmBytes ∧ sHdm.MemoryOk ∧ sHdm.hdmAddr (2 ^ 30 - 1) + 1 ≤ hostWin ∧
    sHdm.badIn (sHdm.hdmAddr (2 ^ 30 - 1)) 1 = [] ∧
    (let s := { sHdm with bad := [ddrBase] }; s.badIn (s.hdmAddr 0) 64 = [s.hdmAddr 0] ∧ ddrBase ≤ s.hdmAddr 0 ∧ s.MemoryOk ∧ s.hdmAddr (0 * 64) ∈ s.bad ∧
      s.badIn (s.hdmAddr 3) 2 = [ddrBase] ∧ s.hdmAddr 3 + 2 ≤ hostWin ∧ ddrBase < s.hdmAddr 3 ∧ ddrBase + 64 ≤ hostWin) ∧
    (let s : State := { mbx := { taken := [{ tq 0x0501 [] with started := true }] } }; ∀ y ∈ s.mbx.taken, (∀ q ∈ s.job.queue, q.tag ≠ y.tag)) := by
  unfold State.MemoryOk; decide +kernel
theorem hyps_I3cTargetAnswersTheBmc :
    ({} : State).vioOk = true ∧ ({} : State).i3c.offset ≠ 0x0C ∧
    (let s : State := { i3c := { offset := 0x0C, queue := [3], alert := true } }; s.vioOk = true ∧ s.i3c.offset = 0x0C ∧ s.i3c.alert = true) ∧
    (let s : State := { i3c := { armed := 1, queue := [3] } }; 0 < s.i3c.armed ∧ s.i3c.queue ≠ [] ∧ s.i3c.alert = false) ∧
    ({} : State).i3c.armed = 0 := by decide +kernel

/-- A flush under way in slot 1. -/
def fl0 : Flush := { cause := 2, step := 3, time := 4, slot := 1, firstPos := 0, endPos := 0, data := [], partner := false }
/-- A record of source 0x010001 of type 2. -/
def rec0 : Bytes := le 2 32 ++ le 2 2 ++ zeros 28
theorem hyps_CalliopeNumbersKeepsAndFlushesRecords :
    (let s : State := { cal := { queues := [(queueOf 0x1000001, [rec0])] } }; SMap.get s.cal.queues (queueOf (0x1000001 : BitVec 32).toNat) [] = rec0 :: [] ∧
      (s.rw oCalWrite).toNat + rec0.length < 2 ^ 64 ∧ rd 2 2 rec0 = 2) ∧
    ({ cal := { flush := some fl0 } } : State).cal.flush = some fl0 ∧ ({ cal := { sending := [(2, 1)] } } : State).cal.sending = (2, 1) :: [] ∧
    (let s : State := { cal := { pend := some 3 } }; s.cal.flush = none ∧ s.cal.pend = some 3) ∧
    (let c : BankChunk := { src := 7, cause := 1, flush := 0, step := 0, time := 0, pos := 0, data := [], last := true, stopped := false }
     let s := setRegs {} [(oMir, 39, 20, 7)]; s.fw.side = false ∧ c.src.toNat = s.partner ∧ c.stopped = false ∧ c.last = true) ∧
    ({} : State).cal.lost.find? (fun (l : Nat × Nat × Nat) => l.1 == 1) = none ∧
    plainBytes (SMap.get ({} : State).cal.queues (queueOf 1) []) + (32 + (padTo 8 (zeros 16)).length) ≤ 4032 ∧
    allBytes (SMap.get ({} : State).cal.queues (queueOf 1) []) + (32 + (padTo 8 (zeros 16)).length) ≤ 4096 ∧
    4032 < plainBytes (SMap.get [(queueOf 1, [zeros 4000])] (queueOf 1) []) + (32 + (padTo 8 (zeros 16)).length) := by decide +kernel
theorem hyps_IdentityCommandsAnswerTheHost :
    Runs (ts 0x0101 []) 5 0x0101 (tq 0x0101 []) ∧ Runs (ts 0x0301 []) 5 0x0301 (tq 0x0301 []) ∧ Runs (ts 0x0302 []) 5 0x0302 (tq 0x0302 []) ∧
    (ts 0x0301 []).latched = false ∧ Runs (setRegs (ts 0x0301 []) [(oSecAlarm, 0, 0, 1)]) 5 0x0301 (tq 0x0301 []) ∧
    (setRegs (ts 0x0301 []) [(oSecAlarm, 0, 0, 1)]).latched = true := by unfold Runs; decide +kernel

/-! ### Keys, time, resets, power, firmware -/

/-- The key-encryption key of the tests. -/
def kek0 : Bytes := zeros 32
/-- A wrapped snapshot key. -/
def wrapSnap : Bytes := le 56 547078139165735697189397838031089813116872833240774745799099864809791366412080644646185453660925083637246791255302094581082754141938738
/-- A wrapped line key of epoch 1 for site 1 and the peer 7. -/
def wrapLine : Bytes := le 56 339526994071730490180432339906020629420037375839201233818911692479949745833686399608910219306751629145418063891175797489981260514942657
/-- A peer with a receive key of epoch 0. -/
def peer0 : Peer := { mac0 := 7, mac1 := 8, site := 1, rx := some { key := zeros 32, epoch := 0 } }
/-- A state in which KEY_LINE brings the next epoch. -/
def sLine : State := { ts 0x0402 ([2, 1, 1] ++ zeros 5 ++ wrapLine) with keys := { owner := some kek0 }, rounds := { peers := [peer0] } }
theorem hyps_KeysAreInstalledGracedAndErased :
    (let s := setRegs (ts 0x0403 []) [(oSecAlarm, 0, 0, 1)]; Runs s 5 0x0403 (tq 0x0403 []) ∧ s.latched = true) ∧
    (let s : State := { ts 0x0401 [] with keys := { kem := some 0 } }; Runs s 5 0x0401 (tq 0x0401 []) ∧ s.latched = false ∧ s.keys.owner = none ∧ s.keys.kem = some 0) ∧
    (let s : State := { ts 0x0403 wrapSnap with keys := { owner := some kek0 } }; Runs s 5 0x0403 (tq 0x0403 wrapSnap) ∧ s.latched = false ∧
      s.keys.owner = some kek0) ∧
    Runs (ts 0x0404 []) 5 0x0404 (tq 0x0404 []) ∧ (ts 0x0404 []).latched = false ∧
    (let s : State := { rounds := { peers := [{ peer0 with prev := some { key := zeros 32, epoch := 255 }, grace := true }] } }
     s.peer? (7 : BitVec 48).toNat = some { peer0 with prev := some { key := zeros 32, epoch := 255 }, grace := true }) := by unfold Runs; decide +kernel
theorem hyps_KeySnap : unwrap kek0 (slice 0 56 wrapSnap) = some (zeros 32 ++ [3] ++ zeros 15) := by decide +kernel
theorem hyps_KeySnap_record : (zeros 32 ++ [3] ++ zeros 15).length = 48 ∧ rd 32 1 (zeros 32 ++ [3] ++ zeros 15) = 3 ∧
    allZero ((zeros 32 ++ [3] ++ zeros 15).drop 33) = true := by decide +kernel
theorem hyps_KeyLine : unwrap kek0 (slice 8 56 (tq 0x0402 ([2, 1, 1] ++ zeros 5 ++ wrapLine)).payload) =
    some (zeros 32 ++ [2, 1, 1, 0] ++ le 6 7 ++ zeros 6) := by decide +kernel
theorem hyps_KeyLine_record :
    (let r : Bytes := zeros 32 ++ [2, 1, 1, 0] ++ le 6 7 ++ zeros 6
     let q := tq 0x0402 ([2, 1, 1] ++ zeros 5 ++ wrapLine)
     Runs sLine 5 0x0402 q ∧ sLine.latched = false ∧ sLine.keys.owner = some kek0 ∧
     sLine.peer? (rd 36 6 r) = some peer0 ∧ r.length = 48 ∧ rd 0 1 q.payload = 2 ∧ rd 32 1 r = 2 ∧ rd 33 1 r = rd 1 1 q.payload ∧
      rd 34 1 r = rd 2 1 q.payload ∧ peer0.site = rd 2 1 q.payload ∧ rd 35 1 r = 0 ∧ rd 42 6 r = 0 ∧ allZero (slice 3 5 q.payload) = true ∧
      (∀ k ∈ peer0.rx, rd 1 1 q.payload = (k.epoch + 1) % 256) ∧ peer0.prev = none ∧ (peer0.tx.isSome = true ∨ peer0.rx.isSome = true)) := by
  unfold Runs; decide +kernel
theorem hyps_AlarmsEraseKeysAndEntropyStopsEngines :
    (setRegs {} [(oSecAlarm, 1, 1, 1)]).noEntropy = true ∧ ({ cal := { flush := some fl0 } } : State).cal.flush.isSome = true := by decide +kernel
theorem hyps_TimingUnitSetsLocksAndHolds :
    Runs (ts 0x0D01 (zeros 8)) 5 0x0D01 (tq 0x0D01 (zeros 8)) ∧
    (let s := setRegs { time := { pendingSet := some 7 } } [(oTimeStatus, 63, 61, 5)]; s.time.pendingSet = some 7 ∧ s.timeState = 5) ∧
    (let s := setRegs { time := { stepped := true } } [(oTimeStatus, 63, 61, 1)]; s.timeState = 1 ∧ s.time.stepped = true ∧
      s.rf (oAsym s.timeChan) 63 62 ≠ 1 ∧ (s.wf (oAsym s.timeChan) 63 62 1).rf (oAsym s.timeChan) 63 62 = 1) ∧
    (let s := setRegs { time := { learn := some 3, learnBest := some (9, -4) } } [(oTimeStatus, 63, 61, 4)]
     s.time.learn = some (3 : ChanNo).val ∧ s.time.learnBest = some (9, -4) ∧ s.timeState = 4) ∧
    Runs (ts 0x0D02 ([32] ++ zeros 7)) 5 0x0D02 (tq 0x0D02 ([32] ++ zeros 7)) ∧ 32 ≤ rd 0 1 ([32] ++ zeros 7) ∧
    (let s := setRegs (ts 0x0D02 ([2] ++ zeros 7)) [(oTimeStatus, 63, 61, 3)]; Runs s 5 0x0D02 (tq 0x0D02 ([2] ++ zeros 7)) ∧ rd 0 1 ([2] ++ zeros 7) < 32 ∧
      allZero (slice 1 3 ([2] ++ zeros 7)) = true ∧ s.timeState = 3 ∧ (∀ n, n < 32 → (s.chan n).best = none)) := by unfold Runs; decide +kernel
theorem hyps_AlarmsAndResetsReturnToDefaults :
    ({} : State).inReset = false ∧ ({ pwr := { thermHold := true } } : State).inReset = true ∧ ({ pwr := { thermHold := true } } : State).pwr.pfw = false ∧
    ({} : State).pwr.pllHold = false ∧ (110 * 16 : Int) ≤ 1760 ∧ ({} : State).pwr.thermHold = false ∧ (1000 ≤ 1000) ∧ 999 < 1000 ∧
    ({ pwr := { rails := [0] } } : State).vioOk = false ∧ (2 : Fin 3).val ∉ ({ pwr := { rails := [0] } } : State).pwr.rails ∧
    ({ pwr := { rails := [0] } } : State).inReset = true ∧ (2 : Fin 3).val ∉ ({} : State).pwr.rails ∧ ({} : State).inReset = false := by decide +kernel

/-- A step descriptor that runs. -/
def job1 : StepJob := { tag := 9, n := 1, desc := [] }
/-- A step of a programme with one context on cluster 3, core 2. -/
def sStep : State :=
  { job := { prog := some { p0 with ctxE := [{ variant := 0, cluster := 3, ctx := 0, lx32 := false, inHbm := true, firstSlot := 0, slots := 1, list := 0,
                                                save := 0, cores := 4 }],
                                     actE := [{ variant := 0, act := 0, role := 0, firstLayer := 0, layers := 1, clusters := [3] }] }, running := some job1 } }
theorem hyps_UnitResetsClearAndEscalate :
    (122 : BitVec 17).toNat < 80000 ∧ State.MemoryOk {} ∧ ({} : State).usesCore 122 = false ∧ sStep.usesCore 122 = true ∧ sStep.phase ≠ 2 ∧
    sStep.rf oRstJob 61 61 = 0 ∧ 80000 ≤ (80000 : BitVec 17).toNat ∧ (3 : BitVec 17).toNat < 2000 ∧ ({} : State).usesCluster 3 = false ∧
    sStep.usesCluster 3 = true ∧ 2000 ≤ (2000 : BitVec 17).toNat ∧
    (let s := setRegs {} [(oRstStatus, 16, 0, 122), (oRstStatus, 63, 60, 1)]; s.rf oRstStatus 16 0 = (122 : BitVec 17).toNat ∧ s.rf oRstStatus 63 60 = 1) ∧
    (let s := setRegs {} [(oRstStatus, 16, 0, 3), (oRstStatus, 63, 60, 2)]; s.rf oRstStatus 16 0 = (3 : BitVec 17).toNat ∧ s.rf oRstStatus 63 60 = 2 ∧
      s.cluFenced (3 : BitVec 17).toNat = false) := by unfold State.MemoryOk; decide +kernel
theorem hyps_RestartsAbortCommandsAndFailedStartsCount :
    (let s : State := setRegs { fw := { up := true }, job := { running := some job1 } } [(oMbxStatus, 63, 60, 3)]; s.fwState = 3 ∧ s.fw.side = false ∧
      s.fw.up = true ∧ s.cal.flush = none ∧ s.job.running ≠ none ∧ s.phase ≠ 2 ∧ s.rf oRstJob 61 61 = 0) ∧
    (let s : State := { fw := { starting := true } }; s.fw.starting = true ∧ s.fw.side = false ∧ s.rf oBootAttempts 63 56 < 2) ∧
    2 ≤ (setRegs { fw := { starting := true } } [(oBootAttempts, 63, 56, 2)]).rf oBootAttempts 63 56 := by decide +kernel
theorem hyps_HangRecoveryJudgesAndRewindsNameTheStep :
    ({} : State).hang = none ∧ (3 : BitVec 11).toNat < 2000 ∧ sStep.job.running ≠ none ∧
    (let s : State := { hang := some { cluster := 3, susp := [{ ctx := 2, desc := 0, unit := 0, start := 0 }], cur := some 0 } }
     s.hang = some { cluster := 3, susp := [{ ctx := 2, desc := 0, unit := 0, start := 0 }], cur := some 0 }) ∧
    (let s : State := { hang := some { cluster := 3 } }; s.hang = some { cluster := 3 }) ∧
    ({} : State).phase = 0 ∧ bits 47 0 (0 : Word).toNat = ({} : State).committed % 2 ^ 48 ∧ bits 47 0 (1 : Word).toNat ≠ ({} : State).committed % 2 ^ 48 ∧
    (setRegs {} [(oCommitState, 1, 0, 2)]).phase = 2 := by decide +kernel
theorem hyps_CapsClocksAndDipsActOnTheDevice :
    (let b : Bytes := le 2 1000 ++ le 2 5600 ++ le 2 4800 ++ zeros 2; Runs (ts 0x0C01 b) 5 0x0C01 (tq 0x0C01 b) ∧ allZero (slice 6 2 b) = true ∧
      (∀ o ∈ [0, 2], within 1000 5600 (rd o 2 b) = true) ∧ within 1000 4800 (rd 4 2 b) = true) ∧
    (let b : Bytes := le 2 999 ++ le 2 5600 ++ le 2 4800 ++ zeros 2; Runs (ts 0x0C01 b) 5 0x0C01 (tq 0x0C01 b) ∧ allZero (slice 6 2 b) = true ∧
      (∃ o ∈ [0, 2], within 1000 5600 (rd o 2 b) = false)) ∧
    (let s : State := { fw := { up := true } }; s.fw.up = true ∧ s.fwState ≠ 3 ∧ s.rf oPwrCap 47 32 < (6000 : BitVec 16).toNat) ∧
    (let m : PowerSample := { avg1ms := 0, avg10ms := 0, avg1s := 0, temps := [(4, 1520)] }
     ∃ x ∈ m.temps, 95 * 16 ≤ x.2 ∧ m.temps.find? (fun y => y.1 = x.1) = some x ∧ m.temps.length = 1) ∧
    ((0 : Fin 4) ≠ 1 ∨ false = true) ∧ (State.clu { clus := [(3, { halved := true, dipHold := true })] } 3).halved = true ∧
    (State.clu { clus := [(3, { halved := true, dipHold := true })] } 3).dipHold = true := by unfold Runs; decide +kernel
theorem hyps_ClustersAndRingsNapDozeAndWake :
    (let s := setRegs { clus := [(3, { power := 1 })] } [(oCtxState 3, 7, 0, 1)]; s.hasWork (3 : GClu).val = true ∧ s.cluFenced (3 : GClu).val = false ∧
      (s.clu (3 : GClu).val).power = 1) ∧
    (let c : GCore := 122; (∀ k, k < 8 → SMap.get (({} : State).clu (c.val / 40)).queues (c.val % 40 * 8 + k) [] = []) ∧ (({} : State).clu (c.val / 40)).power = 0 ∧
      (∃ i, i < 40 ∧ c.val / 40 * 40 + i ≠ c.val ∧ (({} : State).core (c.val / 40 * 40 + i)).gated = false)) ∧
    (let c : GCore := 122; let s : State := { cores := (List.range 40).map (fun i => (120 + i, { gated := true })) }
     (∀ i, i < 40 → c.val / 40 * 40 + i ≠ c.val → (s.core (c.val / 40 * 40 + i)).gated = true) ∧ (s.clu (c.val / 40)).queues = []) ∧
    ({ pwr := { wakes := [4] } } : State).pwr.wakes = 4 :: [] ∧ Runs (ts 0x0C03 (zeros 8)) 5 0x0C03 (tq 0x0C03 (zeros 8)) ∧ allZero (slice 1 7 (zeros 8)) = true ∧
    (let s := setRegs {} [(oPwrCtl, 7, 0, 1)]; s.mayNap (3 : GClu).val = true ∧ s.liveCtxs (3 : GClu).val = [] ∧ s.MemoryOk) ∧
    (State.clu { clus := [(3, { power := 4 })] } (3 : GClu).val).power = 4 ∧ ({ erasing := true } : State).erasing = true ∧
    (let b : Bytes := [1, 3] ++ zeros 6; let s := ts 0x0C02 b; Runs s 5 0x0C02 (tq 0x0C02 b) ∧ rd 0 1 b = 1 ∧ allZero (slice 2 6 b) = true ∧ s.job.running = none ∧
      s.job.queue = [] ∧ s.reshard = none ∧ s.restore = none ∧ s.job.prog = none ∧ s.job.staged = none ∧ bit 1 (rd 1 1 b) = true ∧
      s.rf oPwrStatus 45 45 = 0) ∧
    (let p := { p0 with actE := [{ variant := 0, act := 0, role := 0, firstLayer := 0, layers := 1, clusters := [3] }] }
     p.rings.any (fun r => bit r 3) = true ∧ (∀ r ∈ p.rings, r < 8)) ∧
    (let s := setRegs { pwr := { wakeRings := [1] } } [(oPwrStatus, 45, 45, 1)]; (1 : RingNo).val ∈ s.pwr.wakeRings ∧ s.rf oPwrStatus (44 + (1 : RingNo).val) (44 + (1 : RingNo).val) = 1) := by
  unfold Runs State.MemoryOk; decide +kernel
/-- A PWR_STATE payload: state and ring mask. -/
def pwrB (st mask : Nat) : Bytes := [BitVec.ofNat 8 st, BitVec.ofNat 8 mask] ++ zeros 6
theorem hyps_PwrState :
    (let b := pwrB 2 0; let s : State := { ts 0x0C02 b with job := { queue := [{ tag := 9, n := 1, desc := [] }] } }
     Runs s 5 0x0C02 (tq 0x0C02 b) ∧ rd 0 1 b = 2 ∧ rd 1 1 b = 0 ∧ allZero (slice 2 6 b) = true ∧ s.job.queue ≠ []) ∧
    (let b := pwrB 2 0; let s := setRegs (ts 0x0C02 b) [(oMir, 63, 61, 1)]; Runs s 5 0x0C02 (tq 0x0C02 b) ∧ s.mirState ≠ 0 ∧ s.job.running = none ∧
      s.job.queue = [] ∧ s.reshard = none ∧ s.restore = none) ∧
    (let b := pwrB 2 0; Runs (ts 0x0C02 b) 5 0x0C02 (tq 0x0C02 b) ∧ (ts 0x0C02 b).mirState = 0) ∧
    (let b := pwrB 0 3; let s := ts 0x0C02 b; Runs s 5 0x0C02 (tq 0x0C02 b) ∧ rd 0 1 b = 0 ∧ allZero (slice 2 6 b) = true ∧
      (∀ r, r < 8 → bit r (rd 1 1 b) = true → s.rf oPwrStatus (44 + r) (44 + r) = 0)) ∧
    (let b := pwrB 0 3; let s := setRegs (ts 0x0C02 b) [(oPwrStatus, 45, 45, 1)]; Runs s 5 0x0C02 (tq 0x0C02 b) ∧ bit 1 (rd 1 1 b) = true ∧
      s.rf oPwrStatus 45 45 = 1) := by unfold Runs; decide +kernel

theorem hyps_BootReleasesAnImageOrEntersSideshow :
    (({} : State).fw.up = false ∧ ({} : State).fw.side = false ∧ ({} : State).fw.starting = false ∧ ({} : State).fw.running = [] ∧ ({} : State).inReset = false) ∧
    (let s : State := { fw := { activate := some 5 } }; s.fw.activate.isSome = true ∧ s.job.running = none ∧ s.job.queue = [] ∧ s.fwState ≠ 3) ∧
    (let s := setRegs { ts 0x0202 [] with fw := { activate := some 5, verified := some [] } } [(oMbxStatus, 63, 60, 3)]; s.fwState = 3 ∧ s.fw.verified = some [] ∧
      s.fw.activate = some 5 ∧ s.taken? 5 = some (tq 0x0202 [])) ∧
    (let s : State := { fw := { starting := true }, eraseDue := true }; s.fwState ≠ 3 ∧ s.fw.starting = true ∧ s.eraseDue = true) := by decide +kernel
theorem hyps_FirmwareIsStagedFetchedActivatedAndCommitted_1 :
    (let b := zeros 8 ++ le 8 4160 ++ zeros 64; Runs (ts 0x0201 b) 5 0x0201 (tq 0x0201 b) ∧ rd 0 8 b = 0 ∧ rd 8 8 b ≤ 12587008 ∧ (b.drop 16).length < rd 8 8 b) := by unfold Runs; decide +kernel
theorem hyps_FirmwareIsStagedFetchedActivatedAndCommitted_2 :
    (let b := le 8 64 ++ le 8 128 ++ zeros 64; let s : State := { ts 0x0201 b with fw := { staging := some { total := 128, data := zeros 64 } } }
     Runs s 5 0x0201 (tq 0x0201 b) ∧ s.fw.staging = some { total := 128, data := zeros 64 } ∧ rd 0 8 b = (zeros 64).length ∧ (zeros 64).length ≠ 0 ∧ rd 8 8 b = 128 ∧
      128 ≤ 12587008 ∧ (zeros 64).length + (b.drop 16).length = 128) := by unfold Runs; decide +kernel
theorem hyps_FirmwareIsStagedFetchedActivatedAndCommitted_3 :
    Runs (ts 0x0202 []) 5 0x0202 (tq 0x0202 []) ∧ (ts 0x0202 []).fw.verified = none := by unfold Runs; decide +kernel
theorem hyps_FirmwareIsStagedFetchedActivatedAndCommitted_4 :
    (let s : State := { ts 0x0202 [] with fw := { verified := some [] } }; Runs s 5 0x0202 (tq 0x0202 []) ∧ s.fw.verified = some [] ∧ s.reshard = none ∧ s.restore = none) := by unfold Runs; decide +kernel
theorem hyps_FirmwareIsStagedFetchedActivatedAndCommitted_5 :
    Runs (ts 0x0203 []) 5 0x0203 (tq 0x0203 []) ∧ (ts 0x0203 []).fwState ≠ 4 := by unfold Runs; decide +kernel
theorem hyps_FirmwareIsStagedFetchedActivatedAndCommitted_6 :
    (let s := setRegs (ts 0x0203 []) [(oMbxStatus, 63, 60, 4)]; Runs s 5 0x0203 (tq 0x0203 []) ∧ s.fwState = 4) ∧ Runs (ts 0x0206 []) 5 0x0206 (tq 0x0206 []) := by unfold Runs; decide +kernel
theorem hyps_FirmwareIsStagedFetchedActivatedAndCommitted_7 :
    (let s : State := { ts 0x0204 [] with fw := { side := true, verified := some [] } }; Runs s 5 0x0204 (tq 0x0204 []) ∧ s.fw.side = true ∧
      s.fw.verified = some []) := by unfold Runs; decide +kernel
theorem hyps_FirmwareIsStagedFetchedActivatedAndCommitted_8 :
    (let s : State := { ts 0x0205 [] with fw := { side := true } }; Runs s 5 0x0205 (tq 0x0205 []) ∧ s.fw.side = true ∧ rd 8 1 s.fw.cfg < 8) := by unfold Runs; decide +kernel
theorem hyps_FirmwareIsStagedFetchedActivatedAndCommitted_9 :
    (let s : State := { ts 0x0205 [] with fw := { fetch := some 5 } }; s.fw.fetch = some 5 ∧ s.taken? 5 = some (tq 0x0205 []) ∧ s.portUp (rd 8 1 s.fw.cfg) = false) := by decide +kernel

/-! ### Vector engines, matrix cores -/

/-- VELEM adds two FP32 rows of two elements. -/
def wVelem : List (Nat × Nat × Nat) := [(0, 0, 0x10), (1, 0, cluBase), (2, 0, cluBase + 64), (3, 0, cluBase + 128), (4, 32, 1), (4, 0, 2)]
/-- VSUM of the same row. -/
def wVsum (dfmt : Nat) : List (Nat × Nat × Nat) := [(0, 0, 0x11), (0, 34, dfmt), (1, 0, cluBase), (3, 0, cluBase + 128), (4, 32, 1), (4, 0, 2)]
/-- VGATHER or VSCATTER by two indexes, of which the bound admits 0. -/
def wIdx (op o2 : Nat) : List (Nat × Nat × Nat) :=
  [(0, 0, op), (0, 40, o2), (1, 0, cluBase), (2, 0, cluBase + 64), (3, 0, cluBase + 160), (4, 32, 1), (4, 0, 2), (7, 0, 1)]
theorem hyps_VectorEngines_velem :
    AtHead (su 40 wVelem) 0 (40 + (0 : Fin 2)) 0 (itm wVelem) [] ∧ (su 40 wVelem).MemoryOk ∧
    (let s := su 40 wVelem; let d := vDesc (itm wVelem).words; dOp (itm wVelem).words = 0x10 ∧ (s.cluElems 0 d.a d.afmt (d.rows * d.count)).toOption = some [0, 0] ∧
      (s.cluElems 0 d.b d.bfmt (d.rows * d.count)).toOption = some [0, 0] ∧ (s.cluStore 0 d.dst (zeros 8)).2.isNone = true) := by
  unfold AtHead Plain State.MemoryOk; simp only [su]; decide +kernel
theorem hyps_VectorEngines_vsum (f : Fin 2) :
    AtHead (su 40 (wVsum (3 * f))) 0 (40 + (0 : Fin 2)) 0 (itm (wVsum (3 * f))) [] ∧
    (let s := su 40 (wVsum (3 * f)); let d := vDesc (itm (wVsum (3 * f))).words; dOp (itm (wVsum (3 * f))).words = 0x11 ∧ d.op ≠ 2 ∧ d.dfmt = 3 * f ∧
      (s.cluElems 0 d.a d.afmt (d.rows * d.count)).toOption = some [0, 0] ∧
      (s.cluStore 0 d.dst (zeros (if f = 1 then 80 else 4))).2.isNone = true) := by
  unfold AtHead Plain; simp only [su]; revert f; decide +kernel
theorem hyps_VectorEngines_gather :
    AtHead (su 41 (wIdx 0x12 0)) 0 (40 + (1 : Fin 2)) 0 (itm (wIdx 0x12 0)) [] ∧
    (let s := su 41 (wIdx 0x12 0); let d := vDesc (itm (wIdx 0x12 0)).words; dOp (itm (wIdx 0x12 0)).words = 0x12 ∧
      (s.cluLoad 0 d.b (4 * (d.rows * d.count))).toOption = some (zeros 8) ∧ (s.gatherElems 0 d [0, 0]).toOption = some (zeros 8) ∧
      (s.gatherElems 0 d [0, 5]).toOption = some (zeros 8) ∧ (s.cluStore 0 d.dst (zeros 8)).2.isNone = true) := by
  unfold AtHead Plain; simp only [su]; decide +kernel
theorem hyps_VectorEngines_scatter (o : Fin 2) :
    AtHead (su 41 (wIdx 0x13 o)) 0 (40 + (1 : Fin 2)) 0 (itm (wIdx 0x13 o)) [] ∧
    (let s := su 41 (wIdx 0x13 o); let d := vDesc (itm (wIdx 0x13 o)).words; dOp (itm (wIdx 0x13 o)).words = 0x13 ∧ d.op = o ∧
      (s.cluLoad 0 d.b (4 * (d.rows * d.count))).toOption = some (zeros 8) ∧ (s.cluElems 0 d.a d.afmt (d.rows * d.count)).toOption = some [0, 0] ∧
      (s.readSlots 0 d.dst [0]).toOption = some [(0, zeros 80)] ∧ lx32Ok (zeros 80) = true ∧ (s.cluStore 0 (d.dst + 80 * 0) (zeros 80)).2.isNone = true ∧
      (s.cluStore 0 (d.dst + 0 * vBytes d.afmt) (zeros 4)).2.isNone = true ∧ s.job.running = none) := by
  unfold AtHead Plain; simp only [su]; revert o; decide +kernel

/-- Softmax of two elements; an attention block of two keys from token p0, and its merge. -/
def wSoft : List (Nat × Nat × Nat) := [(0, 0, 0x14), (1, 0, cluBase), (3, 0, cluBase + 128), (4, 32, 1), (4, 0, 2)]
/-- An attention block step or merge. -/
def wAttn (o p0 : Nat) : List (Nat × Nat × Nat) :=
  [(0, 0, 0x15), (0, 40, o), (1, 0, cluBase), (2, 0, cluBase + 64), (6, 0, cluBase + 96), (3, 0, cluBase + 128), (4, 32, 1), (4, 0, 2), (7, 0, p0), (7, 32, 3)]
/-- The descriptor of the special-function unit. -/
def wSfu : List (Nat × Nat × Nat) := [(0, 0, 0x20), (1, 0, cluBase), (3, 0, cluBase + 128), (4, 32, 1), (4, 0, 2)]
theorem hyps_Softmax :
    AtHead (su 40 wSoft) 0 (40 + (0 : Fin 2)) 0 (itm wSoft) [] ∧
    (let s := su 40 wSoft; let d := vDesc (itm wSoft).words; dOp (itm wSoft).words = 0x14 ∧ (s.cluElems 0 d.a d.afmt (d.rows * d.count)).toOption = some [0, 0] ∧
      (s.cluStore 0 d.dst (zeros 8)).2.isNone = true) ∧
    AtHead (su 42 wSfu) 0 42 0 (itm wSfu) [] ∧
    (let s := su 42 wSfu; let d := vDesc (itm wSfu).words; dOp (itm wSfu).words = 0x20 ∧ (s.cluElems 0 d.a d.afmt (d.rows * d.count)).toOption = some [0, 0] ∧
      (s.cluStore 0 d.dst (zeros 8)).2.isNone = true) := by
  unfold AtHead Plain; simp only [su]; decide +kernel
theorem hyps_Attention_block :
    AtHead (su 40 (wAttn 0 0)) 0 (40 + (0 : Fin 2)) 0 (itm (wAttn 0 0)) [] ∧
    (let s := su 40 (wAttn 0 0); let d := vDesc (itm (wAttn 0 0)).words; dOp (itm (wAttn 0 0)).words = 0x15 ∧ fld (itm (wAttn 0 0)).words 0 47 40 = 0 ∧
      (s.cluElems 0 d.a d.afmt (d.rows * d.count)).toOption = some [0, 0] ∧ d.p0 / 1 ≠ (d.p0 + d.count - 1) / 1 ∧ s.job.running = none ∧
      d.p0 / 4 = (d.p0 + d.count - 1) / 4 ∧ (s.cluStore 0 d.dst (zeros 8)).2.isNone = true ∧ (s.cluStore 0 d.c (zeros 8)).2.isNone = true) := by
  unfold AtHead Plain; simp only [su]; decide +kernel
theorem hyps_Attention_kvBlock : (match ({ job := { prog := some { p0 with kvb := 4 } } } : State).job.prog with | some p => max p.kvb 1 | none => 1) = 4 := by decide
theorem hyps_Attention_merge :
    AtHead (su 40 (wAttn 1 1)) 0 (40 + (0 : Fin 2)) 0 (itm (wAttn 1 1)) [] ∧
    (let s := su 40 (wAttn 1 1); let d := vDesc (itm (wAttn 1 1)).words; dOp (itm (wAttn 1 1)).words = 0x15 ∧ fld (itm (wAttn 1 1)).words 0 47 40 = 1 ∧
      (s.cluElems 0 d.a 0 (2 * d.rows * d.count)).toOption = some [0, 0, 0, 0] ∧ (s.cluElems 0 d.b 0 (d.rows * d.count * d.p0)).toOption = some [0, 0] ∧
      (s.cluStore 0 d.dst (zeros 4)).2.isNone = true) := by
  unfold AtHead Plain; simp only [su]; decide +kernel

/-- A lossless block of 64 FP16 zeros. -/
def blk64 : Bytes := le 112 77371286097860460201115712
/-- A save area of one cleared slot of context 0 on core 0. -/
def area1 : Bytes := le 208 100120461139116270424863257857365052519382268078921631620663432149259523543115966781107636748334046880520649264425521227395859117503556027708402084703287802550382311630644065294338898250114264022349406791845474886097793265055226833090553363196494195966669312299275589470003214352942833195908724288618867539511488431046935797658986145244168956412049066224950957088022143656423778637701653541500461039735992840198323204996354320692700265784011455529718394106164885404504327239262181840156137857696602
/-- A pass of one row; its stationary operand and its stream are that block. -/
def wPass (keep init : Nat) : List (Nat × Nat × Nat) :=
  [(0, 0, 1), (0, 34, keep), (0, 35, init), (1, 0, cluBase), (2, 0, cluBase), (3, 32, 1)]
/-- Core 0 before that pass; the front set holds context 0's values. -/
def sPass (keep init : Nat) : State :=
  { su 0 (wPass keep init) with
    mem := cellsWrite memDflt [] cluBase blk64,
    cores := [(0, { mode := some 0, front := some { ctx := 0, mode := 0, sfmt := 0, vals := [] }, resErrs := 1 })] }
theorem hyps_Mpass (keep : Fin 2) :
    AtHead (sPass keep 0) (0 / 40) (0 % 40) 0 (itm (wPass keep 0)) [] ∧ (sPass keep 0).MemoryOk ∧ (sPass keep 0).badIn (coreAddr 0 0x8000) 0x6000 = [] ∧
    (let ws := (itm (wPass keep 0)).words; dOp ws = 1 ∧ fld ws 0 31 30 = 0 ∧ fld ws 0 34 34 = keep ∧ ((sPass keep 0).core 0).mode = some 0 ∧
      (∀ i ∈ passSlots ws, slotOff false i + slotBytes false ≤ 0x6000) ∧ (passSlots ws).Nodup ∧ (passSlots ws).length = 4 ∧
      (passSlots ws).all (fun i => slotOk false ((sPass keep 0).slotGet 0 false i)) = true ∧ 0 < ((sPass keep 0).core 0).resErrs ∧
      (sPass keep 0).job.running = none) := by
  unfold AtHead Plain State.MemoryOk; simp only [sPass, su]; revert keep; decide +kernel
theorem hyps_Mpass_operands (keep : Fin 2) :
    (match (sPass keep 0).stationary 0 0 (itm (wPass keep 0)).words with | .ok _ => true | _ => false) = true ∧
    ((sPass keep 0).stream 0 0 cluBase 0 16).err = none ∧ ((sPass keep 0).stream 0 0 cluBase 0 16).dmg = none := by revert keep; decide +kernel

/-- MOUT of one element to `cluBase`; MSPILL, MRESUME and MCLEAR of one slot. -/
def wMout (ofmt clear : Nat) : List (Nat × Nat × Nat) := [(0, 0, 2), (0, 32, ofmt), (0, 36, clear), (1, 0, cluBase), (3, 32, 1), (3, 0, 1)]
/-- MSPILL, MRESUME or MCLEAR. -/
def wArea (op : Nat) : List (Nat × Nat × Nat) := [(0, 0, op), (1, 0, 64), (3, 32, 1)]
theorem hyps_Mout (o : Fin 5) :
    AtHead (su 0 (wMout o 1)) (0 / 40) (0 % 40) 0 (itm (wMout o 1)) [] ∧
    (let s := su 0 (wMout o 1); let ws := (itm (wMout o 1)).words; dOp ws = 2 ∧ fld ws 0 35 32 = o ∧ moutCells ws = [(0, 0, 0)] ∧ s.anyVoid 0 false [0] = false ∧
      slotOk false (s.slotGet 0 false 0) = true ∧ slotOff false 0 + slotBytes false ≤ 0x6000 ∧ (s.store cluBase (zeros 80)).2.isNone = true) := by
  unfold AtHead Plain; simp only [su]; revert o; decide +kernel
theorem hyps_Areas :
    AtHead (su 0 (wArea 3)) (0 / 40) (0 % 40) 0 (itm (wArea 3)) [] ∧ AtHead (su 0 (wArea 4)) (0 / 40) (0 % 40) 0 (itm (wArea 4)) [] ∧
    AtHead (su 0 (wArea 5)) (0 / 40) (0 % 40) 0 (itm (wArea 5)) [] ∧
    (let s := su 0 (wArea 3); let ws := (itm (wArea 3)).words; dOp ws = 3 ∧ s.lxOf (0 / 40) 0 = false ∧ s.anyVoid 0 false [0] = false ∧
      s.rangeOk 0 0 1 false = true ∧ (s.store 64 area1).2.isNone = true ∧ s.job.running = none) ∧
    (let s := su 0 (wArea 4); dOp (itm (wArea 4)).words = 4 ∧ ((s.readArea 64 false).toOption.map (areaOk 0 0 false)) = some false) ∧
    dOp (itm (wArea 5)).words = 5 := by
  unfold AtHead Plain; simp only [su]; decide +kernel
theorem hyps_Areas_good :
    (let s : State := { su 0 (wArea 4) with mem := cellsWrite memDflt [] 64 area1 }; let ws := (itm (wArea 4)).words
     AtHead s (0 / 40) (0 % 40) 0 (itm (wArea 4)) [] ∧ dOp ws = 4 ∧ s.lxOf (0 / 40) 0 = false ∧ (s.readArea (fld ws 1 47 0) false).toOption = some area1 ∧
      areaOk 0 0 false area1 = true ∧ slotOff false (fld ws 3 31 16 + fld ws 3 47 32) ≤ 0x6000 ∧ s.MemoryOk ∧ s.badIn (coreAddr 0 0x8000) 0x6000 = []) := by
  unfold AtHead Plain State.MemoryOk; simp only [su]; decide +kernel

/-! ### Contexts, queues, DMA, scrubs -/

/-- Plain and AtEntry as decidable propositions. -/
def plainB (s : State) : Bool := decide (s.hang = none) && (match s.job.prog with | some p => !p.gen | none => true)
theorem plain_of {s : State} (h : plainB s = true) : Plain s := by
  simp only [plainB, Bool.and_eq_true, decide_eq_true_eq] at h
  refine ⟨h.1, fun p e => ?_⟩
  have := h.2; rw [e] at this; simpa using this
/-- What AtEntry asks of context 0 of cluster 0 at address 0. -/
def atEntryB (s : State) (ws : List (Nat × Nat × Nat)) : Bool :=
  plainB s && s.runs 0 && decide (s.ctxState 0 0 ∈ [1, 2, 3]) && decide (SMap.get (s.clu 0).ctxs 0 {} = {}) &&
    decide ((s.load 0 64).toOption = some (eb ws))
theorem ok_of {α : Type} {x : Except MemErr α} {a : α} (h : x.toOption = some a) : x = .ok a := by
  cases x with
  | error e => cases h
  | ok b => simp only [Except.toOption, Option.some.injEq] at h; rw [h]
theorem atEntry_of {s : State} {ws : List (Nat × Nat × Nat)} (h : atEntryB s ws = true) : AtEntry s 0 0 {} (eb ws) := by
  simp only [atEntryB, Bool.and_eq_true, decide_eq_true_eq] at h
  obtain ⟨⟨⟨⟨h1, h2⟩, h3⟩, h4⟩, h5⟩ := h
  exact ⟨plain_of h1, h2, h3, h4, ok_of h5⟩
/-- DISPATCH of one entry to unit 7 with a signal; WAIT for counter 1; SIGNAL; LOOP; END; CHECKPOINT. -/
def wDisp : List (Nat × Nat × Nat) := [(0, 0, 0x40), (0, 40, 7), (0, 32, 1), (0, 31, 1), (0, 24, 1), (1, 0, 5)]
/-- WAIT until counter 1 has reached a value. -/
def wWait (v : Nat) : List (Nat × Nat × Nat) := [(0, 0, 0x41), (0, 24, 1), (1, 0, v)]
/-- SIGNAL to a cluster. -/
def wSig (cl : Nat) : List (Nat × Nat × Nat) := [(0, 0, 0x42), (0, 24, 1), (1, 32, cl), (1, 0, 5)]
/-- LOOP, END. -/
def wLoop (n : Nat) : List (Nat × Nat × Nat) := [(0, 0, 0x44), (1, 0, n)]
/-- END. -/
def wEnd : List (Nat × Nat × Nat) := [(0, 0, 0x45)]
theorem hyps_Contexts_dispatch : AtEntry (se wDisp (eb wVelem)) 0 0 {} (eb wDisp) ∧ dOp (mkWords (eb wDisp)) = 0x40 ∧ fld (mkWords (eb wDisp)) 0 39 32 = 1 ∧
    ((se wDisp (eb wVelem)).fetchN 1 64).toOption.isSome = true := ⟨atEntry_of (by decide +kernel), by decide +kernel⟩
theorem hyps_Contexts_wait : AtEntry (se (wWait 0) []) 0 0 {} (eb (wWait 0)) ∧ dOp (mkWords (eb (wWait 0))) = 0x41 ∧
    fld (mkWords (eb (wWait 0))) 1 31 0 ≤ SMap.get ((se (wWait 0) []).clu 0).counters (fld (mkWords (eb (wWait 0))) 0 28 24) 0 ∧
    (se (wWait 0) []).drained 0 0 = true := ⟨atEntry_of (by decide +kernel), by decide +kernel⟩
theorem hyps_Contexts_wait_on : AtEntry (se (wWait 4) []) 0 0 {} (eb (wWait 4)) ∧ dOp (mkWords (eb (wWait 4))) = 0x41 ∧
    ¬ fld (mkWords (eb (wWait 4))) 1 31 0 ≤ SMap.get ((se (wWait 4) []).clu 0).counters (fld (mkWords (eb (wWait 4))) 0 28 24) 0 :=
  ⟨atEntry_of (by decide +kernel), by decide +kernel⟩
theorem hyps_Contexts_signal : AtEntry (se (wSig 0) []) 0 0 {} (eb (wSig 0)) ∧ dOp (mkWords (eb (wSig 0))) = 0x42 ∧ (se (wSig 0) []).drained 0 0 = true ∧
    fld (mkWords (eb (wSig 9))) 1 47 32 = 9 := ⟨atEntry_of (by decide +kernel), by decide +kernel⟩
theorem hyps_Contexts_loop : AtEntry (se (wLoop 2) []) 0 0 {} (eb (wLoop 2)) ∧ dOp (mkWords (eb (wLoop 2))) = 0x44 := ⟨atEntry_of (by decide +kernel), by decide +kernel⟩
theorem hyps_Contexts_end : AtEntry (se wEnd []) 0 0 {} (eb wEnd) ∧ dOp (mkWords (eb wEnd)) = 0x45 := ⟨atEntry_of (by decide +kernel), by decide +kernel⟩

/-- A context entry whose slots take the range from `first`. -/
def ce (k first : Nat) (inHbm : Bool) : CtxE :=
  { variant := 0, cluster := 0, ctx := k, lx32 := false, inHbm := inHbm, firstSlot := first, slots := 1, list := 0, save := 0x100000, cores := 1 }
/-- CHECKPOINT at an area in HBM. -/
def wCk : List (Nat × Nat × Nat) := [(0, 0, 0x43), (1, 0, 0x100000)]
/-- A state at CHECKPOINT. -/
def sCk : State := { se wCk [] with job := { prog := some { p0 with ctxE := [ce 0 0 true] } } }
theorem hyps_Contexts_checkpoint : AtEntry sCk 0 0 {} (eb wCk) ∧ dOp (mkWords (eb wCk)) = 0x43 ∧ sCk.drained 0 0 = true ∧ sCk.ctxE? 0 0 = some (ce 0 0 true) ∧
    (∀ i, i < 40 → bit i 1 = true → 0 ∉ (sCk.core i).saved ∧ sCk.rangeOk i 0 1 false = true ∧ (sCk.store (0x100000 + i * 0x60C0) area1).2.isNone = true) ∧
    coreAddr 0 0 ≥ 0x100000 + 40 * 0x60C0 ∧ sCk.MemoryOk := by
  exact ⟨atEntry_of (by decide +kernel), by decide +kernel, by decide +kernel, by decide +kernel, by decide +kernel, by decide +kernel,
    by unfold State.MemoryOk; decide +kernel⟩
theorem hyps_CounterAdd : ({} : State).cluFenced (0 : GClu) = false ∧ (({} : State).clu (0 : GClu)).power ≤ 2 ∧
    (State.clu { clus := [(0, { power := 3 })] } (0 : GClu)).power = 3 := by decide +kernel
/-- Contexts 0 and 1 of cluster 0; context 1 has work for unit `u`, which serves context 0. -/
def sSw (u first : Nat) (saved : List Nat) : State :=
  { job := { prog := some { p0 with ctxE := [ce 0 0 true, ce 1 first true] } }, cores := [(0, { saved := saved })],
    clus := [(0, { serving := [(u, 0)], queues := [(u * 8 + 1, [itm wVelem])] })] }
theorem hyps_ContextSwitch (u : Fin 44) : (sSw u 0 []).hang = none ∧ (sSw u 0 []).runs (0 : GClu) = true ∧ SMap.get? ((sSw u 0 []).clu 0).serving u = some 0 ∧
    (let ready := fun k => (!(SMap.get ((sSw u 0 []).clu 0).queues (u.val * 8 + k) []).isEmpty && (sSw u 0 []).ctxState 0 k != 5)
     ready 0 = false ∧ ((List.range 8).map (fun i => (0 + 1 + i) % 8)).find? ready = some 1) := by revert u; decide +kernel
theorem hyps_ContextSwitch_core : overlap (ce 0 0 true) (ce 1 1 true) = false ∧ overlap (ce 0 0 true) (ce 1 0 true) = true ∧
    (sSw 0 1 []).ctxE? (0 : GClu) 0 = some (ce 0 0 true) ∧ (sSw 0 1 []).ctxE? (0 : GClu) 1 = some (ce 1 1 true) ∧ 1 ∉ ((sSw 0 1 []).core 0).saved ∧
    0 ∉ ((sSw 0 0 []).core 0).void ∧ (sSw 0 0 []).rangeOk 0 0 1 false = true ∧ ((sSw 0 0 []).store 0x100000 area1).2.isNone = true := by decide +kernel
/-- Which contexts have their state saved where the core turns to context 1: none of a range apart, context 0 of the same range. -/
theorem hyps_ContextSwitch_live (first : Fin 2) :
    (let s := sSw 0 first []; let live := if (s.core 0).live.contains 0 then (s.core 0).live else (s.core 0).live ++ [0]
     s.ctxE? (0 : GClu) 1 = some (ce 1 first true) ∧
     live.filter (fun k => k != 1 && !(s.core 0).saved.contains k && !(s.core 0).void.contains k &&
       (match s.ctxE? (0 : GClu) k with | some e => overlap e (ce 1 first true) && decide (0 < e.slots) | none => false)) = (if first = 0 then [0] else [])) := by
  revert first; decide +kernel
/-- Core 0 serves context 1 and has context 0, whose state lies in its save area, to serve next. -/
def sSwR : State :=
  { sSw 0 1 [0] with clus := [(0, { serving := [(0, 1)], queues := [(0, [itm wVelem])] })], mem := cellsWrite memDflt [] 0x100000 area1 }
theorem hyps_ContextSwitch_back : sSwR.hang = none ∧ sSwR.runs (0 : GClu) = true ∧ SMap.get? (sSwR.clu 0).serving 0 = some 1 ∧
    (let ready := fun k => (!(SMap.get (sSwR.clu 0).queues (0 * 8 + k) []).isEmpty && sSwR.ctxState 0 k != 5)
     ready 1 = false ∧ ((List.range 8).map (fun i => (1 + 1 + i) % 8)).find? ready = some 0) ∧
    ([1] : List Nat).filter (fun k => k != 0 && !(sSwR.core 0).saved.contains k && !(sSwR.core 0).void.contains k &&
       (match sSwR.ctxE? (0 : GClu) k with | some e => overlap e (ce 0 0 true) && decide (0 < e.slots) | none => false)) = [] ∧
    0 ∈ (sSwR.core 0).saved ∧ sSwR.badIn (coreAddr 0 0x8000) 0x6000 = [] ∧ sSwR.ctxE? (0 : GClu) 0 = some (ce 0 0 true) ∧
    (sSwR.readArea (0x100000 + 0 * 0x60C0) false).toOption = some area1 ∧ areaOk 0 0 false area1 = true := by decide +kernel

/-- Queue 4 of two slots into cluster 0 of this device. -/
def q4 : QueueE := { queue := 4, dir := 0, slots := 2, sender := 0, receiver := 1, slotBytes := 64, recvPos := 0, recvCluster := 0, base := 0x200000 }
/-- A programme with that queue, whose sending act is here or not. -/
def pQ (here : Bool) : Prog :=
  { p0 with queues := [q4], actE := if here then [{ variant := 0, act := 0, role := 0, firstLayer := 0, layers := 1, clusters := [0] }] else [] }
/-- A queue descriptor for micro-batch `mb` of queue 4. -/
def wQ (op mb : Nat) : List (Nat × Nat × Nat) := [(0, 0, op), (0, 32, 4), (1, 0, 0x3000), (2, 0, 64), (3, 0, mb)]
/-- A state at that descriptor, with that queue's state. -/
def sQ (here : Bool) (op mb : Nat) (x : QState) : State := { se (wQ op mb) [] with job := { prog := some (pQ here) }, qs := [(4, x)] }
theorem hyps_AtQueue (here : Bool) (i : Fin 4) :
    AtQueue (sQ here (0x48 + i) 3 {}) 0 0 {} (mkWords (eb (wQ (0x48 + i) 3))) (0x48 + i) (pQ here) q4 :=
  ⟨eb (wQ (0x48 + i) 3), atEntry_of (by revert here i; decide +kernel), rfl, by revert i; decide +kernel, rfl, by revert here i; decide +kernel⟩
theorem hyps_Queues : ((sQ true 0x48 3 { returned := [1] }).load (fld (mkWords (eb (wQ 0x48 3))) 1 47 0) (fld (mkWords (eb (wQ 0x48 3))) 2 31 0)).toOption = some (zeros 64) ∧
    fld (mkWords (eb (wQ 0x48 3))) 3 31 0 = 3 ∧ 3 - q4.slots ∈ ((sQ true 0x48 3 { returned := [1] }).q 4).returned ∧
    3 ∈ ((sQ true 0x48 3 { acked := [3] }).q 4).acked ∧ 3 ∈ ((sQ true 0x48 3 { inFlight := [3] }).q 4).inFlight ∧
    (∀ o ∈ (pQ true).offload, o.act ≠ q4.sender) ∧ SMap.get? ((sQ true 0x49 3 { held := [(1, 3)] }).q 4).held (3 % q4.slots) = some 3 ∧
    senderHere (pQ true) q4 = true ∧ senderHere (pQ false) q4 = false := by decide +kernel
/-- A transfer of micro-batch 3. -/
def xf (mb : Nat) : QueueXfer := { queue := 4, mb := BitVec.ofNat 32 mb, stepTag := BitVec.ofNat 16 (stepTag 1 0), data := zeros 64 }
theorem hyps_QueueTransfer (here : Bool) :
    (let s : State := { job := { prog := some (pQ here) } }
     (xf 1).stepTag.toNat = s.tagNow ∧ (pQ here).queue? (xf 1).queue.toNat = some q4 ∧ q4.recvPos = (pQ here).position ∧ (s.clu q4.recvCluster).power ≤ 2 ∧
      SMap.get (s.q q4.queue).expect 1 1 = 1 ∧ SMap.get? (s.q q4.queue).held 1 = none ∧ (xf 1).data.length ≤ q4.slotBytes ∧
      (s.store (q4.base + 1 * q4.slotBytes) (xf 1).data).2.isNone = true ∧ s.MemoryOk ∧ SMap.get (s.q q4.queue).expect 1 1 ≠ (xf 3).mb.toNat ∧ 3 % q4.slots = 1 ∧
      s.job.running = none ∧ s.cluFenced q4.recvCluster = false ∧ (State.clu { s with clus := [(0, { power := 3 })] } q4.recvCluster).power = 3) := by
  unfold State.MemoryOk; revert here; decide +kernel

/-- A DMA descriptor of `n` units from `src` to `dst`, its index at 0x8000. -/
def wDma (mode src dst n : Nat) : List (Nat × Nat × Nat) :=
  [(0, 0, 0x30), (0, 40, mode), (1, 0, src), (2, 0, dst), (3, 0, 0x9000), (4, 0, 0x8000), (5, 0, 1), (5, 32, 0), (6, 0, n)]
/-- The DMA of cluster 0 before it; 0x3000 holds a good block of 64 elements and 0x9000 its index. -/
def sDma (mode src dst n : Nat) : State :=
  { su 43 (wDma mode src dst n) with mem := cellsWrite memDflt (cellsWrite memDflt [] 0x3000 blk64) 0x9000 (le 4 0 ++ le 4 112) }
theorem hyps_Dma (mode : Fin 5) :
    AtHead (sDma mode 0x3000 0x7000 64) 0 43 0 (itm (wDma mode 0x3000 0x7000 64)) [] ∧ (sDma mode 0x3000 0x7000 64).MemoryOk ∧
    (let s := sDma mode 0x3000 0x7000 64; let ws := (itm (wDma mode 0x3000 0x7000 64)).words
     dOp ws = 0x30 ∧ fld ws 0 43 40 = mode ∧ fld ws 0 36 36 = 0 ∧ s.napping 0x3000 = none ∧ s.napping 0x7000 = none ∧
      (s.load 0x3000 128).toOption.isSome = true ∧ (s.store 0x7000 (zeros 520)).2.isNone = true ∧ (s.store 0x8000 (zeros 8)).2.isNone = true ∧
      s.badIn 0x7000 520 = [] ∧ s.job.running = none) := by
  unfold AtHead Plain State.MemoryOk; simp only [sDma, su]; revert mode; decide +kernel
theorem hyps_Dma_blocks (mode : Fin 5) :
    (let r := (sDma mode 0x3000 0x7000 64).readBlocks 0x3000 0x9000 0 none 1 0; r.err.isNone = true ∧ r.dmg = none) ∧
    (let r := State.readBlocks { sDma mode 0x3000 0x7000 64 with mem := [] } 0x3000 0x9000 0 none 1 0; r.err.isNone = true ∧ r.dmg.isSome = true) := by
  revert mode; decide +kernel
theorem hyps_Dma_nap :
    (let s : State := { sDma 0 (cluAddr 1 0) 0x7000 64 with clus := (sDma 0 (cluAddr 1 0) 0x7000 64).clus ++ [(1, { power := 3 })] }
     s.napping (cluAddr 1 0) = some 1 ∧ (s.clu 1).power = 3 ∧ s.cluFenced 1 = false ∧
     SMap.get (s.clu 0).queues (43 * 8 + 0) [] = [itm (wDma 0 (cluAddr 1 0) 0x7000 64)]) := by decide +kernel

/-! ### Scrubs, self-tests, the Midway, slow tensors -/

theorem hyps_Scrubs (g : GClu) : (({} : State).clu g).power < 3 ∧ ({} : State).cluFenced g = false ∧ ({} : State).job.running = none ∧
    cluAddr g (8 * (({} : State).clu g).scrub) ∉ ({} : State).bad := by refine ⟨?_, ?_, rfl, by simp⟩ <;> (revert g; decide +kernel)
theorem hyps_Scrubs_bad : cluAddr 5 (8 * (({} : State).clu 5).scrub) ∈ ({ bad := [cluAddr 5 0] } : State).bad ∧ (({} : State).clu 5).scrub < 0x60000 ∧
    (0x1000 : Nat) < hbmEnd ∧ 0x1000 ∈ ({ bad := [0x1000] } : State).bad ∧ ({} : State).mirror.regionBytes = 0 ∧
    (let s : State := { ddrBytes := 4096 }; ddrBase ≤ ddrBase + 64 ∧ ddrBase + 64 < ddrBase + s.ddrBytes ∧ ddrBase + 64 < hostWin) := by decide +kernel
theorem hyps_Sweep : regKind oCalCursor = some .calCursor ∧ (∃ f ∈ regFields .calCursor, f.acc = .rw) := by decide +kernel
theorem hyps_Midway :
    (let p : MidwayPkt := { stream := 3, stepTag := 0, seq := 7, crcOk := true }; let s : State := { midSeq := [(3, 7)], midRetry := [(3, 15)] }
     p.seq.toNat = SMap.get s.midSeq p.stream.toNat 0 ∧ p.crcOk = true ∧ ({ p with seq := 6 } : MidwayPkt).seq.toNat ≠ SMap.get s.midSeq p.stream.toNat 0 ∧
      ({ p with crcOk := false } : MidwayPkt).crcOk = false ∧ 15 ≤ SMap.get s.midRetry p.stream.toNat 0 ∧ SMap.get s.midRetry 4 0 < 15) := by decide +kernel
theorem hyps_HostWindowTimeout :
    (let s := su 41 []; hostWin ≤ hostWin + 5 ∧ hostWin + 5 < cluBase ∧ s.serving 0 41 = some 0 ∧ SMap.get (s.clu 0).queues (41 * 8 + 0) [] = itm [] :: [] ∧
      s.hang = none ∧ s.job.running = none) := by decide +kernel
theorem hyps_CoreSelftest : (let s : State := { cores := [(5, { testDue := true })] }; (s.core 5).testDue = true ∧ s.job.running = none ∧
    s.coreFenced 5 = false) := by decide +kernel
/-- A block of 240 FP16 elements with six exponents. -/
def blkSlow : Bytes := le 456 9999619087097924665243743912265450514311481555906292498458337179889682896634268317586193122400121825269707548767093268299988365396507668863788403070151545114255609163167107199564109208933516756003448541862263403321487342777527597950078086703967955244733018003912917216176711401147637192705868462764289646483392021691155345231562996932135046239459244723588425305331717131121996104101690136932193324405366114731758898120425974512421525853866246809914525976721968978658825366678025348104803623562745311408924196841791607570381392785307095935486166390514321373607791359899989614077635511770824874441804299090990123249674783548000541582143341801297485942141677554839644654749084604999570050524874087598091663016419721573288448204356319876475306364698661121686532036301995214397043600065955335012197414386734136562391000190816319688847485830166752508612326047401449542648660471200888112423874946342678666405222982069168119255311632229247146130697441087116661816253137410649254910906441322748941574476468997188473903043677368188560218992920212963507963466293231148144074559283467728282554489897200
/-- A lossless tensor in cluster 0. -/
def dSlow : TensorDecl :=
  { tensor := 4, fmt := 0, form := 0, stoch := false, batch := false, elems := 240, rows := 1, cols := 240, base := cluBase, index := cluBase + 0x10000, firstRow := 0 }
/-- A state whose passes over that tensor have waited for it in every second cycle. -/
def sSlow (good : Bool) : State :=
  { mem := if good then cellsWrite memDflt (cellsWrite memDflt [] cluBase blkSlow) (cluBase + 0x10000) (le 4 0 ++ le 4 456) else [],
    job := { prog := some { p0 with tensors := [dSlow] } }, clus := [(0, { stall := [(4, (50, 100))] })] }
theorem hyps_RawRestorage (good : Bool) :
    (let s := sSlow good; let p := { p0 with tensors := [dSlow] }; s.job.prog = some p ∧ p.tensor? (4 : BitVec 16).toNat = some dSlow ∧
      s.area dSlow.base = .clu 0 0 ∧ s.job.running = none ∧ dSlow.form = 0 ∧ s.rf (oRestore 0) 8 8 = 1 ∧
      (let cyc := s.clus.foldl (fun (n : Nat × Nat) kv => if kv.1 / 250 = 0 then (n.1 + (SMap.get kv.2.stall (4 : BitVec 16).toNat (0, 0)).1,
        n.2 + (SMap.get kv.2.stall (4 : BitVec 16).toNat (0, 0)).2) else n) (0, 0)
       s.rf (oRestore 0) 7 0 * cyc.2 < 1000 * cyc.1)) := by revert good; decide +kernel
theorem hyps_RawRestorage_damage :
    (let r := (sSlow false).readBlocks dSlow.base dSlow.index dSlow.fmt (some dSlow.elems) ((dSlow.elems + 255) / 256) 0; r.err.isNone ∧ r.dmg.isSome) := by
  decide +kernel
theorem hyps_RawRestorage_slow : (sSlow true).MemoryOk ∧
    (let s := sSlow true; let r := s.readBlocks dSlow.base dSlow.index dSlow.fmt (some dSlow.elems) ((dSlow.elems + 255) / 256) 0
     r.err.isNone ∧ r.dmg = none ∧ r.blocks = [blkSlow] ∧ r.blocks.any slowBlock = true ∧ (blockElems dSlow.fmt blkSlow).length = 240 ∧
     dSlow.base + 488 ≤ ({ p0 with tensors := [dSlow] } : Prog).regionEnd 0 dSlow.tensor dSlow.base ∧ s.badIn dSlow.base 488 = [] ∧ s.badIn dSlow.index 8 = [] ∧
     dSlow.index + 8 ≤ coreBase) := by unfold State.MemoryOk; decide +kernel

/-! ### Programmes and steps -/

/-- A programme with both accumulation modes and a context on cluster 3. -/
def p1 : Prog := { p0 with seqMax := 16, modes := 3, ctxE := [{ ce 0 0 true with cluster := 3 }], actE :=
  [{ variant := 0, act := 0, role := 0, firstLayer := 0, layers := 1, clusters := [3] }] }
/-- A step descriptor for step `n` of epoch 1 with one entry of one token. -/
def desc1 (n : Nat) (hash : Bytes) : Bytes :=
  le 8 n ++ le 2 1 ++ [0, 0] ++ le 2 1 ++ [1, 0] ++ le 2 0 ++ le 2 1 ++ le 4 0x3F800000 ++ le 4 0 ++ le 4 0x7F800000 ++ le 8 1 ++ zeros 24 ++ zeros 1152 ++
    (le 8 0 ++ le 4 1 ++ le 4 1 ++ le 8 0x1000 ++ zeros 8 ++ hash)
theorem hyps_ProgLoad :
    (let s := ts 0x0501 (le 8 0 ++ le 8 (2 ^ 30 + 1)); let q := tq 0x0501 (le 8 0 ++ le 8 (2 ^ 30 + 1))
     Runs s 5 0x0501 q ∧ s.reshard = none ∧ 1073741824 < rd 8 8 q.payload) ∧
    (let b : Bytes := le 8 0 ++ le 8 2 ++ [7]; let s := ts 0x0501 b
     Runs s 5 0x0501 (tq 0x0501 b) ∧ s.reshard = none ∧ rd 8 8 b ≤ 1073741824 ∧ rd 0 8 b = 0 ∧ ([] : Bytes).length = rd 0 8 b ∧
      rd 0 8 b + (b.drop 16).length < rd 8 8 b) ∧
    (let b : Bytes := le 8 1 ++ le 8 2 ++ [7]; let s : State := { ts 0x0501 b with job := { staging := some { total := 2, data := [9] } } }
     Runs s 5 0x0501 (tq 0x0501 b) ∧ s.reshard = none ∧ rd 0 8 b ≠ 0 ∧ s.job.staging = some { total := 2, data := [9] } ∧ rd 8 8 b = 2 ∧
      ([9] : Bytes).length = rd 0 8 b ∧ rd 0 8 b + (b.drop 16).length = 2) ∧
    (let b : Bytes := le 8 0 ++ le 8 2 ++ [7, 7, 7]; Runs (ts 0x0501 b) 5 0x0501 (tq 0x0501 b) ∧ rd 8 8 b < rd 0 8 b + (b.drop 16).length) := by
  unfold Runs; decide +kernel
theorem hyps_ProgDiscard : Runs (ts 0x0503 []) 5 0x0503 (tq 0x0503 []) ∧ (ts 0x0503 []).reshard = none ∧
    (let s : State := { ts 0x0503 [] with reshard := some { tag := 1, commit := 0, plan := {} } }; Runs s 5 0x0503 (tq 0x0503 []) ∧ s.reshard.isSome = true) := by
  unfold Runs; decide +kernel
/-- PROG_RUN with a staged image behind another programme. -/
def sRun (old : Option Prog) (busy : Bool) (wait : Bool) : State :=
  { ts 0x0502 [] with job := { prog := old, staged := some p1, queue := if busy then [job1] else [], runWait := if wait then some 5 else none } }
theorem hyps_ProgRun :
    (let s := ts 0x0502 []; Runs s 5 0x0502 (tq 0x0502 []) ∧ s.job.runWait ≠ some 5 ∧ s.job.staged = none) ∧
    (let s := sRun (some { p0 with epoch := 2 }) false false; Runs s 5 0x0502 (tq 0x0502 []) ∧ s.job.runWait ≠ some 5 ∧ s.job.staged = some p1 ∧ s.reshard = none ∧
      s.namesDozing p1 = false ∧ (∃ r, s.job.prog = some r ∧ r.epoch ≠ p1.epoch)) ∧
    (let s := sRun (some p0) true false; Runs s 5 0x0502 (tq 0x0502 []) ∧ s.job.runWait ≠ some 5 ∧ s.job.staged = some p1 ∧ s.reshard = none ∧
      s.namesDozing p1 = false ∧ (∀ r ∈ s.job.prog, r.epoch = p1.epoch) ∧ s.job.queue ≠ []) := by
  refine ⟨by unfold Runs; decide +kernel, ⟨by unfold Runs; decide +kernel, by decide +kernel, by decide +kernel, by decide +kernel, by decide +kernel,
    ⟨_, rfl, by decide +kernel⟩⟩, by unfold Runs; decide +kernel⟩
theorem hyps_ProgRun_runs (wait ph : Bool) :
    (let s := setRegs (sRun none false wait) [(oCommitState, 1, 0, b2n ph)]
     (if wait then s.job.runWait = some 5 ∧ s.taken? 5 = some (tq 0x0502 []) else Runs s 5 0x0502 (tq 0x0502 []) ∧ s.job.runWait ≠ some 5 ∧ s.reshard = none ∧
        s.namesDozing p1 = false ∧ s.job.prog = none) ∧
      s.job.staged = some p1 ∧ s.job.running = none ∧ s.job.queue = [] ∧ s.mirState ≠ 1 ∧ s.strg.query = none ∧ s.phase = b2n ph ∧
      p1.groupMembers = [] ∧ s.MemoryOk) := by unfold Runs State.MemoryOk; revert wait ph; decide +kernel
/-- A plan that names device 9, which the routing table reaches. -/
def pGroup : Prog :=
  { p1 with plan := { ops := [{ typ := 3, perMb := false, incoming := true, stream := 1, tensor := 0, first := 0, arg := 0, count := 0, loc := 0, listN := 0,
                                slotBytes := 0, peer := 9, trigClu := 0xFFFF, trigCtr := 0, trigVal := 0, sigClu := 0xFFFF, sigCtr := 0, sigAdd := 0, slots := 0,
                                aux := 0 }] },
            route := { addr := 8, lcl := List.replicate 10 0x8000 } }
theorem hyps_ProgRun_asks : pGroup.groupMembers.filter (fun a => rtValid (pGroup.route.entry a)) ≠ [] := by decide +kernel

/-- STEP with the committed step 0. -/
def sSt (b : Bytes) : State := { ts 0x0601 b with job := { prog := some p1 } }
theorem hyps_Step :
    (let s := ts 0x0601 []; Runs s 5 0x0601 (tq 0x0601 []) ∧ s.stepRefused = some 0x000A) ∧
    (let b := zeros 1216; Runs (sSt b) 5 0x0601 (tq 0x0601 b) ∧ (sSt b).stepRefused = none ∧ descBytes p1 b = none) ∧
    (let b := zeros 3; Runs (sSt b) 5 0x0601 (tq 0x0601 b) ∧ descBytes p1 b = some 1216 ∧ b.length ≠ 1216) ∧
    (let b := desc1 1 (zeros 32); Runs (sSt b) 5 0x0601 (tq 0x0601 b) ∧ descBytes p1 b = some b.length ∧ checkStep p1 b = [] ∧
      (sSt b).namesFenced p1 = false ∧ dStep b = (sSt b).nextStep p1 ∧ ¬ 5 ≤ (sSt b).job.queue.length + b2n (sSt b).job.running.isSome) ∧
    (let b := desc1 2 (zeros 32); checkStep p1 b = [] ∧ dStep b ≠ (sSt b).nextStep p1) := by unfold Runs; decide +kernel
/-- The hash of one token of zeros. -/
def hash4 : Bytes := le 32 73533095611924029395994412358476740116600672107765471435250020073030098815627
/-- Step 1 stands at the head of the queue. -/
def sRel (p : Prog) (hash : Bytes) : State :=
  { ts 0x0601 [] with fw := { up := true }, mem := [], job := { prog := some p, queue := [{ tag := 5, n := 1, desc := desc1 1 hash }] } }
theorem hyps_StepRelease :
    (let s : State := { sRel p1 [] with fw := { up := false } }; s.releaseHeld p1 { tag := 5, n := 1, desc := desc1 1 [] } = true) ∧
    (let s := sRel p1 (zeros 32); let j : StepJob := { tag := 5, n := 1, desc := desc1 1 (zeros 32) }
     s.job.prog = some p1 ∧ s.job.queue = j :: [] ∧ s.releaseHeld p1 j = false ∧ s.batchOk p1 j.desc = false ∧ s.taken? j.tag = some (tq 0x0601 [])) := by
  decide +kernel
/-- A programme of rounds of 10 steps whose manifests apply within 5. -/
def pMax : Prog :=
  { p1 with round := some { h := 10, applyMin := 1, applyMax := 5, stale := 2, site := 1, root := 1, ecK := 2, ecM := 1, members := 7, betaO := 0, etaO := 0,
                            staleFactor := 0, exchMs := 100, leadTmo := 1, memberTmo := 1, coord := 0, coordAlt := 1, storeBase := 0, storeBytes := 4096,
                            weights := [], hash := zeros 32 } }
theorem hyps_StepRelease_atMax :
    (let j : StepJob := { tag := 5, n := 15, desc := [] }
     let s : State := { sRel pMax [] with job := { prog := some pMax, queue := [j] }, rounds := { open_ := some 1, applied := false } }
     s.releaseHeld pMax j = true ∧ s.atMax pMax j.n.toNat = true) ∧
    (let j : StepJob := { tag := 5, n := 1, desc := desc1 1 [] }; let s : State := { sRel p1 [] with fw := { up := false } }
     s.releaseHeld p1 j = true ∧ s.atMax p1 j.n.toNat = false) := by decide +kernel
/-- A generation programme whose slot 0 has no token region, or one at 0x3000. -/
def pGen (tok : Bool) : Prog := { p1 with gen := true, users := [{ tokens := if tok then 0x3000 else 0 }] }
/-- A generation descriptor of one user with one prompt token at 0x2000. -/
def descG : Bytes := zeros 64 ++ (zeros 8 ++ le 8 0x2000 ++ le 4 1 ++ zeros 44)
theorem hyps_StepRelease_gen (tok : Bool) :
    (let p := pGen tok; let j : StepJob := { tag := 5, n := 1, desc := descG }
     let s : State := { sRel p [] with job := { prog := some p, queue := [j] } }; let sl := p.users.getD 0 {}; let r := gUser j.desc 0
     p.gen = true ∧ (if tok then sl.tokens ≠ 0 ∧ (s.load (rd 8 8 r) (4 * rd 16 4 r)).toOption = some (zeros 4) ∧ s.badIn sl.tokens 4 = [] ∧
         (s.store sl.tokens (zeros 4)).2.isNone = true
       else sl.tokens = 0) ∧ s.releaseHeld p j = false ∧ s.batchOk p j.desc = true ∧ s.importsLack j.n.toNat = false ∧ s.strg.unreadable = [] ∧
     s.carrying = false ∧ (∀ e ∈ p.smap, e.cold = false) ∧ (∀ e ∈ p.ctxE, e.cluster < 2000 ∧ e.ctx < 8) ∧ (∀ g ∈ p.clusters s.job.variant, g < 2000) ∧
     p.rrecvs = []) := by revert tok; decide +kernel
theorem hyps_StepRelease_runs :
    (let s := sRel p1 hash4; let j : StepJob := { tag := 5, n := 1, desc := desc1 1 hash4 }
     s.job.prog = some p1 ∧ s.job.queue = j :: [] ∧ s.releaseHeld p1 j = false ∧ s.batchOk p1 j.desc = true ∧ s.importsLack j.n.toNat = false ∧
     s.strg.unreadable = [] ∧ s.carrying = false ∧ (∀ e ∈ p1.smap, e.cold = false) ∧ (∀ e ∈ p1.ctxE, e.cluster < 2000 ∧ e.ctx < 8) ∧
     (∀ g ∈ p1.clusters s.job.variant, g < 2000) ∧ p1.rrecvs = [] ∧ s.strg.phaseOne = false ∧
     (∀ e ∈ p1.ctxE, e.variant = s.job.variant ∧ ∀ f ∈ p1.ctxE, f.variant = e.variant → f.cluster = e.cluster → f.ctx = e.ctx → f.list = e.list)) := by
  decide +kernel

/-! ### Snapshots, replay, mirror, diagnosis -/

/-- A SNAP payload: part 0, sealed or not, id, address 0x10000, length. -/
def snapB (sealed_ id len : Nat) : Bytes := [0, BitVec.ofNat 8 sealed_, 0, 0] ++ le 4 id ++ le 8 0x10000 ++ le 8 len
/-- SNAP under a programme without parameters. -/
def sSnap (sealed_ id len : Nat) : State := { ts 0x0E01 (snapB sealed_ id len) with job := { prog := some p0 }, keys := { lastSnap := some 3 } }
theorem hyps_Snap :
    (let b := snapB 0 4 0; Runs (ts 0x0E01 b) 5 0x0E01 (tq 0x0E01 b) ∧ (ts 0x0E01 b).noEntropy = false ∧ (ts 0x0E01 b).job.prog = none) ∧
    (let s := sSnap 1 4 8208; Runs s 5 0x0E01 (tq 0x0E01 (snapB 1 4 8208)) ∧ rd 1 1 (snapB 1 4 8208) = 1 ∧ s.job.prog = some p0 ∧ snapForm (snapB 1 4 8208) = true ∧
      s.reshard.any (·.started) = false ∧ s.latched = false ∧ s.keys.snap = none ∧ s.snapLength p0 0 s.committed = 8192 ∧ snapCount 8192 = 1) ∧
    (let s := sSnap 0 3 8192; s.keys.lastSnap = some 3 ∧ rd 4 4 (snapB 0 3 8192) = 3 ∧ rd 1 1 (snapB 0 3 8192) = 0) ∧
    (rd 4 4 (snapB 0 4 8191) = 4 ∧ rd 16 8 (snapB 0 4 8191) < 8192) ∧ rd 16 8 (snapB 0 4 8192) = 8192 ∧ (sSnap 0 4 8192).MemoryOk := by
  unfold Runs State.MemoryOk; decide +kernel
theorem hyps_Snap_taken (sealed_ : Bool) : ((sSnap (b2n sealed_) 4 8208).snapshot p0 0).toOption.isSome = true := by revert sealed_; decide +kernel
/-- The hash of a state map without entries. -/
def hash0 : Bytes := le 32 33591244640371925502122120465629805428922884526608935689726864827131003076519
/-- A snapshot of step 7 in host memory. -/
def sRest (part len : Nat) (good : Bool) (st : Nat) : State :=
  let b := [BitVec.ofNat 8 part, 0, 0, 0] ++ le 4 0 ++ le 8 0x10000 ++ le 8 len
  let x := le 4 0x504E535A ++ le 8 7 ++ [0, 1, 0, BitVec.ofNat 8 part] ++ hash0
  setRegs { ts 0x0E02 b with job := { prog := some p0 }, hostMem := cellsWrite hostDflt [] 0x10000 (if good then x else []) } [(oCommitState, 1, 0, st)]
theorem hyps_SnapRestore :
    (let s := sRest 0 8192 true 1; s.phase ≠ 0 ∧ s.job.prog = some p0 ∧ s.restore = none) ∧
    (let s := sRest 0 8191 true 0; s.job.running = none ∧ s.job.queue = [] ∧ s.phase = 0 ∧ s.reshard = none ∧ s.snapLength p0 0 0 = 8192 ∧ s.noEntropy = false ∧
      (∀ q, s.taken? 5 = some q → Runs s 5 0x0E02 q ∧ snapForm q.payload = true ∧ rd 0 1 q.payload = 0 ∧ rd 1 1 q.payload = 0 ∧ rd 16 8 q.payload = 8191)) := by
  refine ⟨by decide +kernel, by decide +kernel, by decide +kernel, by decide +kernel, by decide +kernel, by decide +kernel, by decide +kernel,
    fun q h => ?_⟩
  simp only [show (sRest 0 8191 true 0).taken? 5 = some (tq 0x0E02 ([0, 0, 0, 0] ++ le 4 0 ++ le 8 0x10000 ++ le 8 8191)) by decide +kernel, Option.some.injEq] at h
  subst h; unfold Runs; decide +kernel
theorem hyps_SnapRestore_other :
    (let s := sRest 0 8192 false 0; let x := s.hostGet 0x10000 (s.snapLength p0 0 0); x ≠ [] ∧ snapMatches p0 0 x = false) ∧
    (let s : State := { ts 0x0E02 (snapB 1 0 8208) with job := { prog := some p0 } }; Runs s 5 0x0E02 (tq 0x0E02 (snapB 1 0 8208)) ∧ s.keys.snap = none ∧
      rd 1 1 (snapB 1 0 8208) = 1 ∧ s.snapLength p0 0 0 + 16 * snapCount (s.snapLength p0 0 0) ≤ rd 16 8 (snapB 1 0 8208)) := by
  unfold Runs; decide +kernel
theorem hyps_SnapRestore_whole (part : Fin 2) :
    (let s := sRest part 8192 true 0; let x := s.hostGet 0x10000 (s.snapLength p0 part 0)
     rd 4 8 x = 7 ∧ x ≠ [] ∧ snapMatches p0 part x = true ∧ s.mirState = 0 ∧ (s.allShards p0).all (fun y => (s.snapPairs p0 1).contains y) = true ∧
     p0.groupDone = false) := by revert part; decide +kernel
/-- A state-map entry of one element, held twice over in HBM from 0x100000. -/
def en1 : SEntry := { tensor := 1, layer := 0, rule := 1, cold := false, lzy := false, strongman := 0, hp := 0, first := 0, rowLen := 1, count := 1,
                      hbm := 0x100000, ddr := ddrBase + 0x100000000, coldBase := 0, rowsTotal := 0 }
/-- A restore that waits for shard 0 of that entry. -/
def sPeers : State :=
  { ts 0x0E02 [] with job := { prog := some { p0 with smap := [en1], hyper := [⟨0, 0, 0, 0, 0, 0, 0, 0⟩] } }, restore := some { tag := 5, step := 7, left := [(0, 0)] } }
theorem hyps_SnapRestore_owned :
    (let s : State := { sRest 1 8192 true 0 with job := { prog := some { p0 with smap := [en1] } } }
     (s.allShards { p0 with smap := [en1] }).filter (fun y => !(s.snapPairs { p0 with smap := [en1] } 1).contains y) = [(0, 0)]) ∧
    (sPeers.taken? 5 = some (tq 0x0E02 []) ∧ sPeers.restore = some { tag := 5, step := 7, left := [(0, 0)] } ∧ (6 : BitVec 32) ≠ 5 ∧
     (sPeers.home { p0 with smap := [en1], hyper := [⟨0, 0, 0, 0, 0, 0, 0, 0⟩] } 0 7).isSome = true ∧
     ([(0, 0)] : List (Nat × Nat)).filter (· != (0, 0)) = []) := by decide +kernel

/-- A log of one step record of step `n` under numerics version `v`. -/
def log1 (n v : Nat) : Bytes := le 2 30 ++ le 2 0x0201 ++ zeros 12 ++ le 8 n ++ zeros 8 ++ (zeros 6 ++ [BitVec.ofNat 8 v] ++ zeros 201)
/-- The payload of STEP_REPLAY_BEGIN for a log of `len` bytes, and its state with the log in host memory. -/
def repB : Bytes := le 8 1 ++ le 8 1 ++ le 8 0x10000 ++ le 8 240 ++ zeros 32
/-- STEP_REPLAY_BEGIN with that log. -/
def sRep (l : Bytes) : State := { ts 0x0602 repB with job := { prog := some p0 }, hostMem := cellsWrite hostDflt [] 0x10000 l }
/-- What it reads of the log. -/
def recs1 (l : Bytes) : List (Nat × Nat × Bytes) := logRecs (rd 24 8 repB / 32 + 1) ((sRep l).hostGet (rd 16 8 repB) (rd 24 8 repB))
theorem hyps_ReplayBegin :
    (Runs (ts 0x0602 []) 5 0x0602 (tq 0x0602 []) ∧ (ts 0x0602 []).job.prog = none) ∧
    (let s := sRep (log1 1 1); Runs s 5 0x0602 (tq 0x0602 repB) ∧ s.job.prog = some p0 ∧ p0.gen = false ∧ s.job.running = none ∧ s.job.queue = [] ∧
      s.reshard = none ∧ s.rounds.open_ = none) := by unfold Runs; decide +kernel
theorem hyps_ReplayBegin_good : (sRep (log1 1 1)).logStatus repB (recs1 (log1 1 1)) = 0 := by decide +kernel
/-- A manifest of round 1 without entries whose members are sites 0 to 2, or site 2 only. -/
def manR (members : Nat) : Manifest := { round := 1, step := 15, lead := 1, attempt := 0, members := members, cfg := zeros 32, entries := [] }
/-- A log that also holds it as the manifest of its round; STEP_REPLAY_BEGIN with that log while the round is open. -/
def logR (members : Nat) : Bytes :=
  let b := [5] ++ zeros 7 ++ (manR members).bytes
  log1 1 1 ++ (le 2 ((32 + b.length) / 8) ++ le 2 0x0204 ++ zeros 12 ++ le 8 2 ++ zeros 8 ++ b)
/-- STEP_REPLAY_BEGIN with that log while round 1 is open. -/
def sRepR (members : Nat) : State :=
  { ts 0x0602 (le 8 1 ++ le 8 1 ++ le 8 0x10000 ++ le 8 (logR members).length ++ zeros 32) with
    job := { prog := some p0 }, hostMem := cellsWrite hostDflt [] 0x10000 (logR members), rounds := { open_ := some 1, applied := false } }
theorem hyps_ReplayBegin_round (k : Fin 2) :
    (let m := if k = 0 then 7 else 4; let s := sRepR m; let b := le 8 1 ++ le 8 1 ++ le 8 0x10000 ++ le 8 (logR m).length ++ zeros 32
     let rs := logRecs (rd 24 8 b / 32 + 1) (s.hostGet (rd 16 8 b) (rd 24 8 b))
     Runs s 5 0x0602 (tq 0x0602 b) ∧ s.logStatus b rs = 0 ∧ s.rounds.open_ = some 1 ∧ (logDecisions rs 5).map logManifest = [(manR m, [])] ∧
      s.rounds.applied = false ∧ s.rounds.sealed_ = none ∧ s.job.running = none ∧ s.job.queue = [] ∧ s.reshard = none ∧
      bit s.site m = decide (k = 0)) := by unfold Runs; revert k; decide +kernel
theorem hyps_ReplayBegin_bad : (sRep (log1 2 1)).logStatus repB (recs1 (log1 2 1)) = 0x0604 ∧ (sRep (log1 1 0)).logStatus repB (recs1 (log1 1 0)) = 0x0605 := by
  decide +kernel
theorem hyps_ReplayEnd :
    (let s : State := { ts 0x0603 [] with replay := { on := true } }; Runs s 5 0x0603 (tq 0x0603 []) ∧ s.replay.on = true) ∧
    (Runs (ts 0x0603 []) 5 0x0603 (tq 0x0603 []) ∧ (ts 0x0603 []).replay.on = false) := by unfold Runs; decide +kernel

/-- A MIRROR payload naming partner 9 without entries: PAIR (0) or CARRY (1). -/
def mirB (mode : Nat) : Bytes :=
  le 4 9 ++ [0, BitVec.ofNat 8 mode, 0, 0] ++ le 8 (ddrBase + 0x100000000) ++ le 8 4096 ++
    (if mode = 1 then le 8 (ddrBase + 0x100100000) ++ le 8 4096 ++ le 8 0x200000 else zeros 24) ++ le 4 0 ++ zeros 12
/-- A MIRROR command in a pair state, under a programme that reaches the partner. -/
def sMir (op mode st : Nat) : State :=
  setRegs { ts op (mirB mode) with ddrBytes := 2 ^ 40, job := { prog := some { p0 with route := { mirrorPort := 1, neighbours := [0, 9] } } },
                                   mirror := { region := ddrBase + 0x100000000, regionBytes := 4096 } }
    [(oMir, 63, 61, st), (oMir, 39, 20, 9)]
theorem hyps_MirrorSet :
    (let s := sMir 0x0901 0 0; Runs s 5 0x0901 (tq 0x0901 (mirB 0)) ∧ mirrorForm (mirB 0) = true ∧ s.job.running = none ∧ rd 5 1 (mirB 0) = 0 ∧ s.mirState = 0 ∧
      s.mirrorPlaces (mirB 0) false = true ∧ s.mirrorRoute (mirB 0) = true ∧ (sMir 0x0901 0 2).mirState ≠ 0) ∧
    (let s := sMir 0x0901 1 3; let b := mirB 1; Runs s 5 0x0901 (tq 0x0901 b) ∧ mirrorForm b = true ∧ s.mirState = 3 ∧ rd 5 1 b = 1 ∧ rd 0 4 b = s.partner ∧
      rd 8 8 b = s.mirror.region ∧ mirrorEntries b = s.mirror.map ∧ s.mirrorPlaces b true = true ∧ s.mirrorRoute b = true ∧
      (s.carry { p0 with route := { mirrorPort := 1, neighbours := [0, 9] } } b []).isSome = true) ∧
    (let s : State := { sMir 0x0901 1 3 with mirror := { region := ddrBase + 0x100000000, regionBytes := 1048576, map := [en1] } }
     (s.carry p0 (mirB 1) []).isNone = true) := by unfold Runs; decide +kernel
theorem hyps_MirrorSet_refused :
    (Runs (ts 0x0901 []) 5 0x0901 (tq 0x0901 []) ∧ mirrorForm [] = false) ∧ Runs (ts 0x0903 []) 5 0x0903 (tq 0x0903 []) ∧
    (let s : State := { sMir 0x0901 0 0 with ddrBytes := 0 }; Runs s 5 0x0901 (tq 0x0901 (mirB 0)) ∧ s.mirrorPlaces (mirB 0) false = false) ∧
    (let s : State := { sMir 0x0901 0 0 with job := { prog := some p0 } }
     Runs s 5 0x0901 (tq 0x0901 (mirB 0)) ∧ s.mirrorPlaces (mirB 0) false = true ∧ s.mirrorRoute (mirB 0) = false ∧ s.job.running = none) ∧
    (let s := sMir 0x0901 1 0; Runs s 5 0x0901 (tq 0x0901 (mirB 1)) ∧ mirrorForm (mirB 1) = true ∧ rd 5 1 (mirB 1) = 1 ∧ s.mirState ≠ 2 ∧ s.mirState ≠ 3) ∧
    (mirrorForm (mirB 2) = true ∧ 1 < rd 5 1 (mirB 2)) ∧
    (let s : State := { sMir 0x0903 0 4 with ddrBytes := 0 }; Runs s 5 0x0903 (tq 0x0903 (mirB 0)) ∧ s.mirState = 4 ∧ s.holdsCarried = false ∧
      s.mirrorPlaces (mirB 0) false = false) ∧
    (let s : State := { sMir 0x0903 0 4 with job := { prog := some p0 } }; Runs s 5 0x0903 (tq 0x0903 (mirB 0)) ∧ s.holdsCarried = false ∧
      s.mirrorPlaces (mirB 0) false = true ∧ s.mirrorRoute (mirB 0) = false) ∧
    (let s : State := { sMir 0x0903 0 4 with job := { running := some { tag := 9, n := 1, desc := [] } } }
     Runs s 5 0x0903 (tq 0x0903 (mirB 0)) ∧ s.job.running.isSome = true) := by unfold Runs; decide +kernel
/-- The bytes of the state-map entry `en1`. -/
def enB : Bytes := le 8 (2 ^ 48 + 2 ^ 24) ++ zeros 8 ++ le 4 1 ++ le 4 1 ++ le 8 0x100000 ++ le 8 (ddrBase + 0x100000000) ++ zeros 24
/-- CARRY of the partner that owned that entry. -/
def carB : Bytes :=
  le 4 9 ++ [0, 1, 0, 0] ++ le 8 (ddrBase + 0x100000000) ++ le 8 4096 ++ le 8 (ddrBase + 0x100100000) ++ le 8 4096 ++ le 8 0x200000 ++ le 4 1 ++ zeros 12 ++ enB
/-- A device whose region holds that entry's shard of the committed step. -/
def sCarry : State :=
  let s : State := { sMir 0x0901 1 3 with mbx := { taken := [tq 0x0901 carB] },
                                          mirror := { region := ddrBase + 0x100000000, regionBytes := 4096, map := [en1] } }
  { s with mem := cellsWrite memDflt [] (s.mirror.tagAddr 0 0 + 18) [1] }
theorem hyps_MirrorSet_carry :
    (let s := sCarry; let b := carB; let p : Prog := { p0 with route := { mirrorPort := 1, neighbours := [0, 9] } }; let e := en1
     let m := { s.mirror with reserve := rd 24 8 b, reserveBytes := rd 32 8 b, scratch := rd 40 8 b, carryParity := s.committed % 2, adopt := [] }
     let h := m.homeIn 0 e
     Runs s 5 0x0901 (tq 0x0901 b) ∧ mirrorForm b = true ∧ s.job.running = none ∧ rd 5 1 b = 1 ∧ s.job.prog = some p ∧ s.mirState = 3 ∧ rd 0 4 b = s.partner ∧
      rd 8 8 b = s.mirror.region ∧ mirrorEntries b = s.mirror.map ∧ s.mirrorPlaces b true = true ∧ s.mirrorRoute b = true ∧ p.round = none ∧
      s.mirror.map = [e] ∧ e.shards = 1 ∧ s.tagValid 0 0 = true ∧ s.tagStep 0 0 = s.committed ∧
      (s.read32 h.mas (e.shardLen 0)).toOption.isSome = true ∧ s.MemoryOk ∧ s.bad = [] ∧ h.resid + 4 * e.shardLen 0 ≤ hostWin ∧
      h.w + 2 * e.shardLen 0 ≤ hostWin ∧ (h.mas + 4 * e.shardLen 0 ≤ h.resid ∨ h.resid + 4 * e.shardLen 0 ≤ h.mas)) := by
  unfold Runs State.MemoryOk; decide +kernel
theorem hyps_MirrorClear : Runs (sMir 0x0902 0 4) 5 0x0902 (tq 0x0902 (mirB 0)) ∧ (sMir 0x0902 0 4).mirState = 4 ∧ (sMir 0x0902 0 2).mirState = 2 := by
  unfold Runs; decide +kernel
theorem hyps_MirrorAdmit : (let s := sMir 0x0903 0 4; Runs s 5 0x0903 (tq 0x0903 (mirB 0)) ∧ mirrorForm (mirB 0) = true ∧ s.job.running = none ∧
    rd 5 1 (mirB 0) = 0 ∧ s.mirState = 4 ∧ s.holdsCarried = false ∧ s.mirrorPlaces (mirB 0) false = true ∧ s.mirrorRoute (mirB 0) = true) ∧
    (sMir 0x0903 0 1).mirState ≠ 4 := by unfold Runs; decide +kernel

theorem hyps_Diag :
    (let s : State := { ts 0x0A01 [7] with cal := { flush := some { cause := 1, step := 0, time := 0, slot := 0, firstPos := 0, endPos := 0, data := [], partner := false } } }
     Runs s 5 0x0A01 (tq 0x0A01 [7]) ∧ s.cal.flush.isSome = true) ∧
    (let s := ts 0x0A01 [7]; Runs s 5 0x0A01 (tq 0x0A01 [7]) ∧ s.cal.flush = none ∧ s.cal.sending = [] ∧ s.rf oCalPbank 63 62 ≠ 2 ∧ s.MemoryOk ∧ bit 0 7 = true ∧
      bit 1 7 = true ∧ bit 2 7 = true) ∧
    (∀ scope : Fin 3, let b : Bytes := [BitVec.ofNat 8 scope, 0, 0, 0] ++ le 4 1999 ++ le 8 (2 ^ 23)
      Runs (ts 0x0A02 b) 5 0x0A02 (tq 0x0A02 b) ∧ rd 0 1 b = scope ∧ rd 1 1 b ≤ 1 ∧ dumpMax (rd 0 1 b) (bit 0 (rd 1 1 b)) ≤ rd 8 8 b ∧ rd 4 4 b < 2000 ∧
      (ts 0x0A02 b).MemoryOk) ∧
    (∀ kind : Fin 2, let b : Bytes := [BitVec.ofNat 8 kind, 0, 0, 0] ++ le 4 3
      Runs (ts 0x0A03 b) 5 0x0A03 (tq 0x0A03 b) ∧ rd 0 1 b = kind ∧ rd 4 4 b = 3 ∧ (ts 0x0A03 b).usesCore 3 = false ∧ (ts 0x0A03 b).usesCluster 3 = false ∧
      (ts 0x0A03 b).coreFenced 3 = false ∧ (ts 0x0A03 b).cluFenced 3 = false) ∧
    (Runs (ts 0x0B01 [0, 7]) 5 0x0B01 (tq 0x0B01 [0, 7]) ∧ ((ts 0x0B01 [0, 7]).sport 7).queue = []) ∧
    (Runs (ts 0x0B01 [1, 1]) 5 0x0B01 (tq 0x0B01 [1, 1]) ∧ (ts 0x0B01 [1, 1]).latched = false) ∧
    (let s := setRegs (ts 0x0B01 [1, 1]) [(oSecAlarm, 0, 0, 1)]; Runs s 5 0x0B01 (tq 0x0B01 [1, 1]) ∧ s.latched = true) ∧
    (Runs (ts 0x0B02 (zeros 4)) 5 0x0B02 (tq 0x0B02 (zeros 4)) ∧ rd 0 4 (zeros 4) < 2 ^ 20) := by unfold Runs State.MemoryOk; decide +kernel

/-! ### Rounds prepared, partials, gathers, dispatch -/

/-- A plan entry of a type on stream 1, for element 0 of tensor 1, without a trigger, that adds 2 to counter 1 of cluster 0. -/
def po (typ arg peer loc aux : Nat) : PlanOp :=
  { typ := typ, perMb := false, incoming := false, stream := 1, tensor := 1, first := 0, arg := arg, count := 1, loc := loc, listN := 0, slotBytes := 0, peer := peer,
    trigClu := 0xFFFF, trigCtr := 0, trigVal := 0, sigClu := 0, sigCtr := 1, sigAdd := 2, slots := 0, aux := aux }
/-- A round configuration of site 1 with three members, of which site 1 is the root. -/
def cfg0 : RoundCfg :=
  { h := 10, applyMin := 1, applyMax := 5, stale := 2, site := 1, root := 1, ecK := 2, ecM := 1, members := 7, betaO := 0, etaO := 0x3F800000,
    staleFactor := 0x3F800000, exchMs := 100, leadTmo := 1, memberTmo := 1, coord := 0, coordAlt := 1, storeBase := 0, storeBytes := 4096, weights := [], hash := zeros 32 }
/-- A programme with rounds that owns one element. -/
def pR : Prog :=
  { p0 with layers := 1, round := some cfg0, smap := [en1], hyper := [⟨0, 0, 0, 0, 0, 0, 0, 0⟩], route := { addr := 8 }, plan := { epoch := 1, ops := [po 2 3 0xFFFFF 0 0] } }
/-- The range-map entry for it at site 2. -/
def rmap1 (n : Nat) : Bytes := zeros 8 ++ le 8 n ++ [2, 0] ++ le 6 7 ++ le 6 8 ++ [0, 0]
/-- A request under that programme. -/
def sR (op : Nat) (b : Bytes) : State := { ts op b with job := { prog := some pR } }
theorem hyps_RoundMap :
    (let s := sR 0x0801 (rmap1 2); Runs s 5 0x0801 (tq 0x0801 (rmap1 2)) ∧ s.job.prog = some pR ∧ pR.round.isSome = true ∧ s.reshard = none ∧
      (rmap1 2).length % 32 = 0 ∧ s.rmapOk pR (rmap1 2) = false) ∧
    (let s := sR 0x0801 (rmap1 1); s.rmapOk pR (rmap1 1) = true ∧ s.rounds.applied = true ∧
      (State.rmapOk { s with rounds := { applied := false, open_ := some 1 } } pR (rmap1 1)) = true) ∧
    (let s : State := { sR 0x0801 (rmap1 1) with job := { prog := some pR, staged := some pR }, reshard := some { tag := 1, commit := 3, plan := {} } }
     Runs s 5 0x0801 (tq 0x0801 (rmap1 1)) ∧ s.rmapOk pR (rmap1 1) = true) ∧
    (Runs (ts 0x0801 []) 5 0x0801 (tq 0x0801 []) ∧ (ts 0x0801 []).cfg? = none) := by unfold Runs; decide +kernel
theorem hyps_RoundMap_installs (stuck newCfg : Bool) :
    (let s : State := { sR 0x0801 (rmap1 1) with rounds := { applied := false, open_ := some 1, stuck := stuck, newCfg := newCfg, peers := [{ mac0 := 7, mac1 := 9, site := 3 }] } }
     Runs s 5 0x0801 (tq 0x0801 (rmap1 1)) ∧ s.rmapOk pR (rmap1 1) = true ∧ s.rounds.applied = false ∧ s.rounds.stuck = stuck ∧ s.rounds.newCfg = newCfg ∧
      ((((chunks 32 ((rmap1 1).length / 32) (rmap1 1)).map mkRMap).find? (fun e => e.mac0 == 7)).map (·.mac1)) = some 8) := by
  unfold Runs; revert stuck newCfg; decide +kernel
/-- ROUND_CHAN for channel 3: admit (1) or retire (0) at a rate. -/
def chB (act rate : Nat) : Bytes := [3, 1] ++ le 2 100 ++ [5, 2, BitVec.ofNat 8 act, 0] ++ le 4 rate
/-- With channel 4 in use on port 1 under a VID. -/
def sCh (act rate st vid : Nat) : State :=
  setRegs { ts 0x0802 (chB act rate) with rounds := { chans := [(4, { port := 1, vid := vid, rate := 300000 })] } } [(oChan 3, 63, 61, st), (oChan 4, 63, 61, 2)]
theorem hyps_RoundChan :
    (let s := sCh 1 100000 0 200; let b := chB 1 100000
     Runs s 5 0x0802 (tq 0x0802 b) ∧ rd 0 1 b = 3 ∧ rd 6 1 b = 1 ∧ rd 7 1 b = 0 ∧ rd 1 1 b ≤ 1 ∧ 0 < rd 2 2 b ∧ rd 2 2 b ≤ 4094 ∧ rd 4 1 b ≤ 7 ∧ rd 5 1 b ≤ 15 ∧
      0 < rd 8 4 b ∧ rd 8 4 b ≤ 400000 ∧ s.chanState 3 = 0) ∧
    (let s := sCh 1 100000 0 200; let used := (List.range 32).filter (fun k => s.chanState k != 0)
     used = [4] ∧ (∀ k ∈ used, ¬((s.chan k).port = 1 ∧ (s.chan k).vid = 100)) ∧
      100000 + ((used.filter (fun k => (s.chan k).port == 1)).map (fun k => (s.chan k).rate)).sum ≤ 400000 ∧
      400000 < 100001 + ((used.filter (fun k => (s.chan k).port == 1)).map (fun k => (s.chan k).rate)).sum) ∧
    (let s := sCh 1 100000 0 100; (s.chan 4).port = 1 ∧ (s.chan 4).vid = 100) ∧
    (sCh 1 100000 1 200).chanState 3 ≠ 0 ∧
    (∀ st : Fin 4, let s := sCh 0 0 st 200; Runs s 5 0x0802 (tq 0x0802 (chB 0 0)) ∧ rd 6 1 (chB 0 0) = 0 ∧ s.chanState 3 = st) := by unfold Runs; decide +kernel
/-- ROUND_JOIN of site 2: join (0) or sponsor (1). -/
def joinB (role : Nat) : Bytes := [BitVec.ofNat 8 role, 2] ++ zeros 6 ++ rmap1 1
theorem hyps_RoundJoin (role : Fin 2) (c : Bool) :
    (let s : State := { sR 0x0803 (joinB role) with rounds := { coord := c } }; let b := joinB role
     Runs s 5 0x0803 (tq 0x0803 b) ∧ s.job.prog = some pR ∧ 8 ≤ b.length ∧ (b.length - 8) % 32 = 0 ∧ rd 1 1 b ≤ 15 ∧ allZero (slice 2 6 b) = true ∧
      s.rmapOk pR (b.drop 8) = true ∧ rd 0 1 b = role ∧ s.job.running = none ∧ s.job.queue = [] ∧ s.rounds.coord = c) := by
  unfold Runs; revert role c; decide +kernel
theorem hyps_RoundJoin_lead (lead : Fin 4) :
    (let b := joinB 0; let s : State := setRegs { sR 0x0803 b with rounds := { coord := true } } [(oBjnRoundState, 60, 56, lead.val)]
     let m := (chunks 32 ((b.length - 8) / 32) (b.drop 8)).map mkRMap
     Runs s 5 0x0803 (tq 0x0803 b) ∧ s.rounds.coord = true ∧ s.rf oBjnRoundState 60 56 = lead ∧ s.site = 1 ∧
      ((∃ e ∈ m, e.site = 2) ∧ (∀ e ∈ m, e.site ≠ 1) ∧ (∀ e ∈ m, e.site ≠ 3))) := by
  unfold Runs; revert lead; decide +kernel
/-- A manifest of round `k` that lists site 2's delta of that round. -/
def man1 (k : Nat) : Manifest := { round := BitVec.ofNat 64 k, step := 15, lead := 1, attempt := 0, members := 7, cfg := zeros 32, entries := [(2, 0x3F800000, BitVec.ofNat 64 k)] }
/-- The hash of its one byte. -/
def hash9 : Bytes := le 32 106552210379915389577708247068730537425888208254640476882496621861440058028171
/-- An imported delta: round 1 of site 2, one byte. -/
def imp1 : Bytes := le 8 1 ++ le 8 2 ++ le 8 1 ++ le 8 1 ++ zeros 32 ++ [9]
theorem hyps_RoundArchive :
    (let s := sR 0x0804 (le 8 0x10000 ++ le 8 64); Runs s 5 0x0804 (tq 0x0804 (le 8 0x10000 ++ le 8 64)) ∧ s.rounds.archWait = []) ∧
    (let s : State := { sR 0x0804 (zeros 16) with rounds := { archWait := [man1 1] } }
     Runs s 5 0x0804 (tq 0x0804 (zeros 16)) ∧ s.rounds.archWait ≠ [] ∧ s.cfg? = some cfg0 ∧ rd 8 8 (zeros 16) = 0) := by
  unfold Runs; decide +kernel
theorem hyps_RoundImport :
    (Runs (ts 0x0805 []) 5 0x0805 (tq 0x0805 []) ∧ (ts 0x0805 []).replay.on = false) ∧
    (let b := le 8 0x10000 ++ le 8 65; let m := man1 1
     let s : State := { ts 0x0805 b with replay := { on := true, manifests := [(m, [hash9])] }, hostMem := cellsWrite hostDflt [] 0x10000 imp1 }
     let x := s.hostGet (rd 0 8 b) (rd 8 8 b)
     Runs s 5 0x0805 (tq 0x0805 b) ∧ s.replay.on = true ∧ x = imp1 ∧ 64 + rd 24 8 x ≤ x.length ∧
      s.replay.manifests.find? (fun m => m.1.round == BitVec.ofNat 64 (rd 0 8 x)) = some (m, [hash9]) ∧
      m.entries.findIdx? (fun e => e.1 == rd 8 1 x && e.2.2 == BitVec.ofNat 64 (rd 16 8 x)) = some 0 ∧ slice 64 (rd 24 8 x) x = [9]) := by
  unfold Runs; decide +kernel
theorem hyps_RoundImport_hash : sha3 [9] = [hash9].getD 0 [] ∧ sha3 [9] ≠ [zeros 32].getD 0 [] := by decide +kernel

/-! ### Partials, gathers, dispatch -/

/-- A running step of a programme with one plan entry. -/
def sPo (o : PlanOp) : State :=
  { job := { prog := some { pR with plan := { epoch := 1, ops := [o] }, round := none }, running := some { tag := 5, n := 1, desc := desc1 1 (zeros 32) } } }
/-- The running step. -/
def j1 : StepJob := { tag := 5, n := 1, desc := desc1 1 (zeros 32) }
/-- Its programme. -/
def pO (o : PlanOp) : Prog := { pR with plan := { epoch := 1, ops := [o] }, round := none }
theorem inPlan_sPo (o : PlanOp) : InPlan (sPo o) j1 (pO o) 0 o.typ o := by
  refine ⟨rfl, rfl, rfl, rfl, rfl, ?_, ?_, rfl, rfl⟩ <;> (show State.rf ({} : State) _ _ _ = 0; decide +kernel)
theorem hyps_Rsend (wide : Bool) :
    (let o := po 1 (b2n wide) 9 0x3000 0; let s := sPo o
     (0, 0) ∉ s.jug.ran ∧ s.triggered o 0 = true ∧ o.perMb = false ∧ bit 0 o.arg = wide ∧
      (s.load (o.loc + o.mbOff 0) ((if wide then 80 else 16) * o.count)).toOption = some (zeros (if wide then 80 else 16)) ∧
      (wide = true → (chunks 80 o.count (zeros 80)).all lx32Ok = true)) := by revert wide; decide +kernel
/-- A reduction contribution of one LX16 zero from device 8. -/
def con0 (epoch count : Nat) : Contribution :=
  { src := 8, stream := 1, seq := 0, form := .lx16, tensor := 1, first := 0, count := count, epoch := BitVec.ofNat 16 epoch, data := zeros (16 * count) }
/-- An RRECV entry for two contributors. -/
def oRr : PlanOp := po 2 2 0xFFFFF 0x6000 0
/-- The frames of its stream have been accepted; its set of slots is open or not, with what one contributor brought. -/
def sCon (running : Bool) (counts : SMap Nat) : State :=
  { sPo oRr with job := { prog := some (pO oRr), running := if running then some j1 else none },
                 fabric := { rx := [{ src := 8, stream := 1, next := 1 }] }, jug := { sets := [{ op := 0, epoch := 1, counts := counts }] } }
theorem hyps_Contribution_frames (b : Bool) (e n : Fin 2) :
    (let c := con0 e n; ((sCon b []).takeFrames c.src.toNat c.stream.toNat c.seq (frameCount c.data)).isSome = true ∧
      (sPo oRr).takeFrames c.src.toNat c.stream.toNat c.seq (frameCount c.data) = none) := by revert b e n; decide +kernel
theorem hyps_Contribution :
    (let s := sPo oRr; s.job.prog = some (pO oRr) ∧ (pO oRr).gen = false ∧ s.rf oRstJob 61 61 = 0 ∧ s.hang = none ∧ s.jug.newEpochCommit = true ∧
      (con0 2 1).epoch.toNat ≠ (pO oRr).plan.epoch ∧ (con0 1 0).epoch.toNat = (pO oRr).plan.epoch) ∧ (sCon false []).job.running = none ∧
    (sCon true []).jug.newEpochCommit = true ∧ ({ sCon true [] with jug := { newEpochCommit := false } } : State).jug.newEpochCommit = false ∧
    (let c := con0 1 1; let s := sCon true []; let a := s.accSet 0 1
     c.epoch.toNat = (pO oRr).plan.epoch ∧ s.job.running = some j1 ∧ 0 < c.count ∧ c.form ≠ .fp32 ∧
      (pO oRr).rrecvs.find? (fun x => x.1.jug == (1 : Fin 16).val && x.1.tensor == c.tensor.toNat && decide (x.1.first ≤ c.first.toNat) &&
        decide (c.first.toNat + c.count ≤ x.1.first + x.1.count)) = some (oRr, 0) ∧
      (match carriedOf oRr.slot32 c with | .ok as => decide (as.length = 1) | _ => false) = true ∧
      (s.shardsIn (pO oRr) c.tensor.toNat c.first.toNat c.count).map (fun sh =>
        (sh.2.2.1, sh.2.2.2, min (c.first.toNat + c.count) (sh.2.2.1 + sh.2.2.2) - max c.first.toNat sh.2.2.1)) = [(0, 1, 1)] ∧
      SMap.get a.counts 0 0 + 1 < oRr.contrib * 1 ∧ (∀ sh ∈ s.shardsIn (pO oRr) oRr.tensor oRr.first oRr.count, sh.2.2.1 ∈ [0]) ∧ s.MemoryOk ∧
      SMap.get? a.counts 0 = none ∧ (s.load (oRr.slotAt 0) (oRr.slotWidth * 1)).toOption.isSome = true ∧
      (s.store (oRr.slotAt 0) (List.replicate 1 (oRr.slotBits {})).flatten).2 = none ∧
      ((s.store (oRr.slotAt 0) (List.replicate 1 (oRr.slotBits {})).flatten).1.store (oRr.slotAt 0) (oRr.slotBits (Acc.merge {} {}))).2 = none) ∧
    (let s := sCon true [(0, 0)]; (SMap.get? (s.accSet 0 1).counts 0).isSome = true ∧ s.MemoryOk ∧ (∃ old, s.readAccs oRr 0 1 = .ok [old]) ∧
      (s.store (oRr.slotAt 0) (oRr.slotBits {})).2 = none) ∧
    (let c := con0 1 1; let s := sCon true [(0, 1)]
     SMap.get (s.accSet 0 1).counts 0 0 + 1 = oRr.contrib * 1 ∧ (s.shardsIn (pO oRr) c.tensor.toNat c.first.toNat c.count) = [(0, 0, 0, 1)] ∧
      (0, 1) ∉ s.jug.ran ∧ s.triggered oRr 0 = true ∧ (SMap.get? (s.accSet 0 1).counts 0).isSome = true ∧ (pO oRr).plan.listOf oRr = []) := by
  unfold State.MemoryOk
  refine ⟨by decide +kernel, by decide +kernel, by decide +kernel, by decide +kernel, by decide +kernel, ⟨by decide +kernel, by decide +kernel, ⟨_, rfl⟩, by decide +kernel⟩,
    by decide +kernel⟩
theorem hyps_Rrecv :
    (let s : State := { sPo oRr with jug := { ran := [(0, 1)] } }
     (0, 0) ∉ s.jug.ran ∧ s.triggered oRr 0 = true ∧ (∀ sh ∈ s.shardsIn (pO oRr) oRr.tensor oRr.first oRr.count, (0, 1 + sh.2.1 + sh.1 * 2 ^ 32) ∈ s.jug.ran) ∧
      s.unackedOp 0 none = false) ∧
    (let o := po 3 0 9 0 0; (sPo o).shardsIn (pO o) o.tensor o.first o.count = [(0, 0, 0, 1)] ∧ (0, 1) ∉ (sPo o).jug.ran ∧ ([0] : List (BitVec 32)).length = 1) := by
  decide +kernel
theorem hyps_Gather :
    (let o := po 4 0 9 0x3000 0x4000; let s := sPo o; s.triggered o 0 = true ∧ (0, 0) ∉ s.jug.ran ∧ (0, 0) ∉ s.jug.asked ∧ s.MemoryOk ∧
      (∀ bs, bs ∈ [blk64.take 16] → (s.store (o.loc + o.mbOff 0) bs).2 = none) ∧ (s.store (o.aux + o.mbOff 0) (zeros 8)).2 = none ∧ ([0, 0] : Bytes).length = 2 * o.count) ∧
    (let s := sPo oRr; let p := pO oRr; (s.held p).zipIdx.find? (fun x => x.1.tensor == (1 : BitVec 16).toNat && decide (x.1.first ≤ (0 : BitVec 48).toNat) &&
        decide ((0 : BitVec 48).toNat + (1 : BitVec 32).toNat ≤ x.1.first + x.1.count)) = some (en1, 0) ∧
      (∃ h ∈ s.home p 0 s.committed, (s.load (h.w + 2 * (0 - en1.first)) 2).toOption = some (zeros 2)) ∧
      (∀ e ∈ s.held p, ¬(e.tensor = (2 : BitVec 16).toNat ∧ e.first ≤ 0 ∧ 1 ≤ e.first + e.count))) := by unfold State.MemoryOk; decide +kernel
/-- The requested range has been answered; the request's frame is acknowledged or not. -/
def sGa (held : Bool) : State :=
  { sPo (po 4 0 9 0x3000 0x4000) with jug := { asked := [(0, 0)] }
                                      fabric := { tx := if held then [{ dest := 9, stream := 1, next := 1, held := [(0, 0, 0, [])] }] else [] } }
theorem hyps_Gather_answer (held : Bool) :
    (let o := po 4 0 9 0x3000 0x4000; let s := sGa held; let b : Bytes := [0, 0]; let bs := blocksOf 0 (o.count / 256 + 1) (elemsLE 2 b)
     (0, 0) ∈ s.jug.asked ∧ (0, 0) ∉ s.jug.ran ∧ b.length = 2 * o.count ∧ s.triggered o 0 = true ∧ (s.store (o.loc + o.mbOff 0) bs.flatten).2.isNone = true ∧
      (s.store (o.aux + o.mbOff 0) (indexTable bs)).2.isNone = true ∧ s.unackedOp 0 (some 0) = held) := by revert held; decide +kernel
/-- Expert 0 of layer 0 at the home position. -/
def ex0 : ExpertE := { layer := 0, expert := 0, home := 0, active := 1, cap := 1 }
/-- DISPATCH of rows of 8 bytes in a direction. -/
def oDi (dir : Nat) : PlanOp := { po 5 (dir * 65536 + 2 ^ 17) 9 0x3000 0 with perMb := true }
/-- A running step with such an entry and that expert. -/
def sDi (dir : Nat) : State :=
  { job := { prog := some { pO (oDi dir) with experts := [ex0] }, running := some j1 }, jug := { origin := if dir = 1 then [(0, 0, 0, 8, 0, 0)] else [] } }
/-- Its programme. -/
def pDi (dir : Nat) : Prog := { pO (oDi dir) with experts := [ex0] }
theorem hyps_Dispatch_out :
    (let s := sDi 0; let o := oDi 0; let p := pDi 0; s.job.prog = some p ∧ p.plan.ops[0]? = some o ∧ o.typ = 5 ∧ s.rf oRstJob 61 61 = 0 ∧ s.phase = 0 ∧
      (0, 0) ∉ s.jug.ran ∧ s.triggered o 0 = true ∧ 0 < dMicro j1.desc ∧ o.dir = false ∧ p.layerExperts o.layer = [ex0] ∧ p.mbToken j1.desc 0 = 0 ∧
      keptChoices 1 1 (fun _ => 1) [(0, [0])] = [(0, 0, 0, 0)] ∧ (s.load (o.loc + o.mbOff 0 + 0 * o.rowBytes) o.rowBytes).toOption = some (zeros 8) ∧
      s.homeFull p j1 o 0 = false ∧ (State.homeFull { s with jug := { origin := [(0, 0, 0, 8, 0, 0)], counts := [(0, 0, 0, 1)] } } p j1 o 0 = true)) := by
  decide +kernel
theorem hyps_Dispatch_back :
    (let s := sDi 1; let o := oDi 1; let p := pDi 1; o.dir = true ∧ (p.layerExperts o.layer).filter (fun e => e.home == p.position) = [ex0] ∧
      s.jug.origin.filter (fun r => r.1 == o.layer && decide (p.mbToken j1.desc 0 ≤ r.2.2.2.2.1) && decide (r.2.2.2.2.1 < p.mbToken j1.desc (0 + 1))) =
        [(0, 0, 0, 8, 0, 0)] ∧
      (s.load (o.loc + o.mbOff 0 + ((([ex0].takeWhile (fun e => e.expert != 0)).map (fun e => p.plan.rows o e.expert)).sum + 0) * o.rowBytes) o.rowBytes).toOption =
        some (zeros 8)) := by decide +kernel
theorem hyps_DispatchRecord (dir : Fin 2) :
    (let s := sDi dir; let p := pDi dir; s.job.running = some j1 ∧ s.job.prog = some p ∧ p.gen = false ∧ s.rf oRstJob 61 61 = 0 ∧ s.hang = none ∧ s.MemoryOk ∧
      p.dispatchOp (0 : BitVec 16).toNat (decide (dir = 1)) = some (oDi dir, 0) ∧ (s.store ((oDi dir).loc + 8) (zeros 8)).2 = none ∧
      (s.store (p.plan.recvBase (oDi dir) 0) (zeros 8)).2 = none ∧ s.jug.returned = []) := by unfold State.MemoryOk; revert dir; decide +kernel

/-! ### Borjan -/

/-- A frame from peer 7 at port 0, untouched on its way: its type and group fields, LENGTH, sealed payload. -/
def fr (typ gidx gk gm len : Nat) (body : Bytes) : BjnFrame :=
  { port := 0, srcMac := 7, ctags := 1, stag := false, ether := 0x88B5, bytes := bjnHeader typ 0 0 (b2n (typ == 2)) len 2 1 0 0 gidx gk gm ++ body }
/-- The peer 7 of site 2 with the zero key of epoch 0 for receiving. -/
def peer1 : Peer := { mac0 := 7, mac1 := 8, site := 2, rx := some { key := zeros 32, epoch := 0 } }
/-- That peer with a key for sending too. -/
def peer2 : Peer := { peer1 with tx := some { key := zeros 32, epoch := 1 } }
/-- A device of site 1 with that peer, Borjan port 0 up and channel 0 live toward site 2. -/
def sB (p : Peer) : State :=
  setRegs { job := { prog := some pR }, rounds := { peers := [p], chans := [(0, { vid := 100, site := 2, rate := 1000, cap := 1000000 })] } }
    [(oBjnPort 0, 63, 62, 2), (oChan 0, 63, 61, 2), (oChan 0, 60, 57, 2)]
/-- DRUN: round 1, offset 0 of 100, one byte. -/
def ptA : Bytes := le 25 31385508676933403853207183808132178426849237965496993710081
/-- It sealed. -/
def frA : BjnFrame := fr 1 0 4 1 25 (le 41 234927771618692304674179667413056575298627772317737990478564825482261121137668020432843398969337807)
theorem open_A : gcmOpen (zeros 32) (bjnIv 0 (rd 2 1 frA.bytes) (rd 16 8 frA.bytes)) (bjnAad frA.bytes) (slice 32 (rd 4 2 frA.bytes + 16) frA.bytes) = some ptA := by
  decide +kernel
/-- parity 0 of that and of the byte that follows it. -/
def ptB : Bytes := le 27 58415411784902814501608276631249455626593780614414529452381438078
/-- It sealed. -/
def frB : BjnFrame := fr 2 2 2 1 27 (le 43 22240687994635068571225124514629627723365759657791715770790392990901734744625114083259257880666667919280)
theorem open_B : gcmOpen (zeros 32) (bjnIv 0 (rd 2 1 frB.bytes) (rd 16 8 frB.bytes)) (bjnAad frB.bytes) (slice 32 (rd 4 2 frB.bytes + 16) frB.bytes) = some ptB := by
  decide +kernel
/-- BACK: everything before SEQ 1. -/
def ptC : Bytes := le 40 1
/-- It sealed. -/
def frC : BjnFrame := fr 3 0 1 0 40 (le 56 712738517108448976832138796825114383497163759571752401844483432188704126897007310452284362771559903902816967154254444732233550380705743)
theorem open_C : gcmOpen (zeros 32) (bjnIv 0 (rd 2 1 frC.bytes) (rd 16 8 frC.bytes)) (bjnAad frC.bytes) (slice 32 (rd 4 2 frC.bytes + 16) frC.bytes) = some ptC := by
  decide +kernel
/-- REQ: byte 0 of round 1. -/
def ptD : Bytes := le 24 340282366920938463463374607431768211457
/-- It sealed. -/
def frD : BjnFrame := fr 4 0 1 0 24 (le 40 2019834634421797825959350064895234418495654682534803946529415040805642147709727955221955783731151)
theorem open_D : gcmOpen (zeros 32) (bjnIv 0 (rd 2 1 frD.bytes) (rd 16 8 frD.bytes)) (bjnAad frD.bytes) (slice 32 (rd 4 2 frD.bytes + 16) frD.bytes) = some ptD := by
  decide +kernel
/-- HAVE of round 1. -/
def ptE : Bytes := le 24 81667768061025231231302139503992918507521
/-- It sealed. -/
def frE : BjnFrame := fr 5 0 1 0 24 (le 40 1531033077548703024819109726928333907994800290497544433191016090715221820952923058462940628821967)
theorem open_E : gcmOpen (zeros 32) (bjnIv 0 (rd 2 1 frE.bytes) (rd 16 8 frE.bytes)) (bjnAad frE.bytes) (slice 32 (rd 4 2 frE.bytes + 16) frE.bytes) = some ptE := by
  decide +kernel
/-- TT. -/
def ptF : Bytes := le 32 2510840694154672305534656051649987504913628924429900349177858
/-- It sealed. -/
def frF : BjnFrame := fr 11 0 1 0 32 (le 48 35967487520543086018470354400401706876200205003375072979513138307482954483113989240526788819311841660460172973221836)
theorem open_F : gcmOpen (zeros 32) (bjnIv 0 (rd 2 1 frF.bytes) (rd 16 8 frF.bytes)) (bjnAad frF.bytes) (slice 32 (rd 4 2 frF.bytes + 16) frF.bytes) = some ptF := by
  decide +kernel
/-- EPOCH_GONE of SEQ 0. -/
def ptG : Bytes := le 8 0
/-- It sealed. -/
def frG : BjnFrame := fr 13 0 1 0 8 (le 24 3656551799155781646312055649326915019551745959851211139022)
theorem open_G : gcmOpen (zeros 32) (bjnIv 0 (rd 2 1 frG.bytes) (rd 16 8 frG.bytes)) (bjnAad frG.bytes) (slice 32 (rd 4 2 frG.bytes + 16) frG.bytes) = some ptG := by
  decide +kernel
/-- JOIN: the manifest of round 1. -/
def ptH : Bytes := le 88 5694139755196450673759716771779189842743608589171774449679840860189995617028018397297666103400173743048743028328593172540777561840168946177231860116593239734794620018663336007808721549686472705
/-- It sealed. -/
def frH : BjnFrame := fr 12 0 1 0 88 (le 104 26385489385529857822712210175150229973030509654988291000045145767719658199717885004250848718548556416731864509711817111871576090975293128335963939922189680552754955003181616027350772452511567476490915750383854184281500166767580589537120750946264065999)
theorem open_H : gcmOpen (zeros 32) (bjnIv 0 (rd 2 1 frH.bytes) (rd 16 8 frH.bytes)) (bjnAad frH.bytes) (slice 32 (rd 4 2 frH.bytes + 16) frH.bytes) = some ptH := by
  decide +kernel
/-- JOIN: element 0. -/
def ptJ : Bytes := le 32 6687330520953381355317794758253354819170777021398243172080515284994
/-- It sealed. -/
def frJ : BjnFrame := fr 12 0 1 0 32 (le 48 32040718265959164781257407117823408242327247822206373480860142073472889908194491292995535544328585929787099203020748)
theorem open_J : gcmOpen (zeros 32) (bjnIv 0 (rd 2 1 frJ.bytes) (rd 16 8 frJ.bytes)) (bjnAad frJ.bytes) (slice 32 (rd 4 2 frJ.bytes + 16) frJ.bytes) = some ptJ := by
  decide +kernel

/-- Admitted as decidable checks. -/
def admB (s : State) (f : BjnFrame) (typ : Nat) (p : Peer) : Bool :=
  decide (f.ctags = 1) && !f.stag && decide (f.ether.toNat = s.rf oBjnCtl 63 48) && decide (s.rf (oBjnPort f.port) 63 62 = 2) &&
    decide (rd 0 1 f.bytes = typ) && !s.noEntropy && !s.latched && decide (s.peerOf f = some p) && decide (s.peer? p.mac0 = some p)
theorem admitted_of {s : State} {f : BjnFrame} {typ : Nat} {p : Peer} (h : admB s f typ p = true) : Admitted s f typ p := by
  simp only [admB, Bool.and_eq_true, decide_eq_true_eq, Bool.not_eq_true'] at h
  obtain ⟨⟨⟨⟨⟨⟨⟨⟨h1, h2⟩, h3⟩, h4⟩, h6⟩, h7⟩, h8⟩, h9⟩, h10⟩ := h
  exact ⟨h1, h2, h3, h4, h6, h7, h8, h9, h10⟩
theorem opened_of {s : State} {f : BjnFrame} {typ : Nat} {p : Peer} {pt : Bytes} (h : admB s f typ p = true)
    (hl : rd 4 2 f.bytes ≤ maxPayload ∧ rd 4 2 f.bytes + 48 ≤ f.bytes.length ∧ p.prev = none ∧ p.rx = some { key := zeros 32, epoch := 0 } ∧
      0 = rd 1 1 f.bytes)
    (ho : gcmOpen (zeros 32) (bjnIv 0 (rd 2 1 f.bytes) (rd 16 8 f.bytes)) (bjnAad f.bytes) (slice 32 (rd 4 2 f.bytes + 16) f.bytes) = some pt) :
    Opened s f typ p pt := ⟨admitted_of h, hl.1, hl.2.1, hl.2.2.1, _, hl.2.2.2.1, hl.2.2.2.2, ho⟩
theorem pickChan_one {s : State} {site c : Nat} (hc : c < 32) (ok : s.chanState c = 2 ∧ s.chanSite c = site ∧ s.rf (oBjnPort (s.chan c).port) 63 62 = 2)
    (no : ∀ m, m < 32 → m ≠ c → s.chanState m ≠ 2) (n : Nat) : s.pickChan [2] site n = some c := by
  unfold State.pickChan
  have key : ∀ (l : List Nat) (b : Option Nat), (∀ m ∈ l, m < 32) → (b = some c ∨ b = none ∧ c ∈ l) →
      l.foldl (fun (best : Option Nat) n' =>
        if !([2].contains (s.chanState n')) ∨ s.chanSite n' ≠ site ∨ s.rf (oBjnPort (s.chan n').port) 63 62 ≠ 2 then best
        else match best with
        | none => some n'
        | some b =>
          let x := s.chanCost n' n
          let y := s.chanCost b n
          if x.1 * y.2 < y.1 * x.2 then some n' else some b) b = some c := by
    intro l
    induction l with
    | nil => intro b _ hb; simpa using hb
    | cons m l ih =>
      intro b hm hb
      rw [List.foldl_cons]
      by_cases e : m = c
      · subst e
        apply ih _ (fun x hx => hm x (List.mem_cons_of_mem _ hx)) (Or.inl _)
        rcases hb with rfl | ⟨rfl, _⟩ <;> simp [ok.1, ok.2.1, ok.2.2]
      · have h2 := no m (hm m (List.mem_cons_self ..)) e
        rw [if_pos (Or.inl (by simp [h2]))]
        apply ih _ (fun x hx => hm x (List.mem_cons_of_mem _ hx))
        rcases hb with hb | ⟨hb, hl⟩
        · exact Or.inl hb
        · exact Or.inr ⟨hb, by rcases List.mem_cons.mp hl with r | r; exact absurd r.symm e; exact r⟩
  exact key _ _ (fun m hm => List.mem_range.mp hm) (Or.inr ⟨rfl, List.mem_range.mpr hc⟩)
theorem sendable_sB (p : Peer) (k : LineKey) (h : p.tx = some k ∧ p.txUsed + 512 < 2 ^ 31 ∧ p.site = 2) : Sendable (sB p) p k 0 := by
  have e : ∀ o hi lo, (sB p).rf o hi lo = (sB peer1).rf o hi lo := fun _ _ _ => rfl
  refine ⟨h.1, h.2.1, ?_, ?_, rfl, fun n => ?_⟩
  · show (sB peer1).noEntropy = false; decide +kernel
  · show (sB peer1).latched = false; decide +kernel
  · rw [h.2.2]
    refine pickChan_one (by decide) ⟨?_, ?_, ?_⟩ ?_ n
    · show (sB peer1).chanState 0 = 2; decide +kernel
    · show (sB peer1).chanSite 0 = 2; decide +kernel
    · show (sB peer1).rf (oBjnPort ((sB peer1).chan 0).port) 63 62 = 2; decide +kernel
    · show ∀ m, m < 32 → m ≠ 0 → (sB peer1).chanState m ≠ 2; decide +kernel

theorem hyps_SealedFrames : Admitted (sB peer1) frA 1 peer1 ∧ peer1.rx = some { key := zeros 32, epoch := 0 } ∧ peer1.prev = none :=
  ⟨admitted_of (by decide +kernel), rfl, rfl⟩
theorem hyps_SealedFrames_bytes : frA.bytes = sealedBytes { key := zeros 32, epoch := 0 } 2 1 0 1 0 4 1 0 0 0 ptA := by decide +kernel
theorem hyps_Discards :
    (frA.ctags ≠ 0 ∧ ({ frA with stag := true } : BjnFrame).stag = true) ∧ admB (sB peer1) frA 1 peer1 = true ∧
    (16384 < rd 4 2 (fr 1 0 4 1 20000 []).bytes ∧ frA.bytes.length < rd 4 2 (fr 1 0 4 1 30 []).bytes + 48 ∧ rd 4 2 frA.bytes ≤ 16384 ∧ rd 4 2 frA.bytes + 48 ≤ frA.bytes.length) ∧
    (let p := { peer1 with rx := none }; admB (sB p) frA 1 p = true ∧ p.rx = none ∧ p.prev = none) ∧
    (let p := { peer1 with rx := some { key := zeros 32, epoch := 1 }, prev := some { key := zeros 32, epoch := 0 } }
     admB (sB p) frA 1 p = true ∧ 1 ≠ rd 1 1 frA.bytes ∧ 0 = rd 1 1 frA.bytes) := by decide +kernel
theorem hyps_Discards_tag : gcmOpen (zeros 32) (bjnIv 0 0 0) (bjnAad frB.bytes) (slice 32 41 frA.bytes) = none := by decide +kernel
theorem hyps_Delta :
    Opened (sB peer1) frA 1 peer1 ptA ∧ Opened (sB { peer1 with cum := 1 }) frA 1 { peer1 with cum := 1 } ptA ∧ Opened (sB peer1) frB 2 peer1 ptB ∧
    Opened (sB peer1) frC 3 peer1 ptC ∧ Opened (sB peer1) frD 4 peer1 ptD ∧ Opened (sB peer2) frG 13 peer2 ptG :=
  ⟨opened_of (by decide +kernel) (by decide +kernel) open_A, opened_of (by decide +kernel) (by decide +kernel) open_A,
   opened_of (by decide +kernel) (by decide +kernel) open_B, opened_of (by decide +kernel) (by decide +kernel) open_C,
   opened_of (by decide +kernel) (by decide +kernel) open_D, opened_of (by decide +kernel) (by decide +kernel) open_G⟩
/-- A sent frame of SEQ 0 under an earlier epoch. -/
def sent0 : Sent := { seq := 0, typ := 1, gidx := 0, gk := 1, gm := 0, chan := 0, at_ := 0, bytes := frA.bytes, plain := ptA }
/-- The first byte of the delta as kept for its group. -/
def kept0 : Kept := { seq := BitVec.ofNat 64 (2 ^ 64 - 2), typ := 1, gidx := 0, gk := 2, gm := 1, plain := ptA }
theorem hyps_Delta_rest :
    (let s := sB peer1; let p := peer1; let seq : Word := BitVec.ofNat 64 (rd 8 8 frA.bytes)
     p.cum ≤ seq ∧ seq ∉ p.got ∧ rd 25 1 frA.bytes = 4 ∧ (p.kept.filter (fun x => x.seq - BitVec.ofNat 64 x.gidx == seq)).length + 1 < 4 ∧ 24 ≤ ptA.length ∧
      rd 8 8 ptA + (ptA.length - 24) < rd 16 8 ptA ∧ s.rounds.storeUsed + rd 16 8 ptA ≤ s.storeBytes ∧
      s.rounds.rx.find? (fun x => x.site == p.site && x.round == BitVec.ofNat 64 (rd 0 8 ptA) && x.mac == p.mac0) = none) ∧
    (let p := { peer1 with kept := [kept0] }; let s := sB p; Keyless s p ∧ (0 : Word) ∉ p.got ∧
      rd 25 1 frB.bytes ≤ (p.kept.filter (fun x => x.seq - BitVec.ofNat 64 x.gidx == (0 : Word) - BitVec.ofNat 64 (rd 24 1 frB.bytes))).length + 1) ∧
    (let p := peer1; let s : State := { sB p with rounds := { (sB p).rounds with store := [{ round := 1, mac := 7, data := [5] }] } }
     Keyless s p ∧ s.replay.on = false ∧ p.kept = [] ∧ s.rounds.store.find? (fun x => x.mac == p.mac0 && x.round.toNat == rd 0 8 ptD) = some { round := 1, mac := 7, data := [5] }) ∧
    (∀ n, n < 32 → (sB peer1).chanState n ≠ 3) ∧
    (let p := { peer2 with sent := [sent0] }; elemsLE 8 ptG = [0] ∧ p.sent.find? (fun x => x.seq.toNat == 0) = some sent0 ∧ 1 ≠ rd 1 1 sent0.bytes ∧
      p.tx = some { key := zeros 32, epoch := 1 } ∧ (∃ y ∈ (p.missing sent0).take ((p.missing sent0).length - sent0.gm), y.seq = 0) ∧
      (sB p).peer? 7 = some p) ∧
    (let p := { peer2 with waiting := [(1, ptA)] }; p.waiting = [(1, ptA)] ∧ 0 < cfg0.ecK ∧ cfg0.ecM < 256 ∧ (sB p).cfg? = some cfg0) ∧
    ({ peer2 with owesBack := true } : Peer).owesBack = true := by unfold Keyless; decide +kernel
theorem hyps_Delta_sendable : Sendable (sB { peer2 with sent := [sent0] }) { peer2 with sent := [sent0] } { key := zeros 32, epoch := 1 } 0 ∧
    Sendable (sB { peer2 with waiting := [(1, ptA)] }) { peer2 with waiting := [(1, ptA)] } { key := zeros 32, epoch := 1 } 0 ∧
    Sendable (sB { peer2 with owesBack := true }) { peer2 with owesBack := true } { key := zeros 32, epoch := 1 } 0 :=
  ⟨sendable_sB _ _ ⟨rfl, by decide, rfl⟩, sendable_sB _ _ ⟨rfl, by decide, rfl⟩, sendable_sB _ _ ⟨rfl, by decide, rfl⟩⟩

/-! ### Channels, coordinators, joiners -/

/-- A device with that peer whose channel 0 has a state and values. -/
def sChan (p : Peer) (st : Nat) (c : Chan) : State :=
  setRegs { job := { prog := some pR }, rounds := { peers := [p], map := [⟨0, 1, 2, 7, 8⟩], chans := [(0, c), (3, { vid := 101, site := 2, rate := 1000, cap := 1000000 })] } }
    [(oBjnPort 0, 63, 62, 2), (oChan 0, 63, 61, st), (oChan 0, 60, 57, 2), (oChan 3, 63, 61, 2), (oChan 3, 60, 57, 2)]
/-- Channel 0 after TT 1 of the peer arrived at 300, the device's own TT 1 having left at 100. -/
def ch0 : Chan := { vid := 100, site := 2, rate := 1000, cap := 1000000, pend := [(1, 100)], half := some (1, 100, 250, 300) }
theorem hyps_Channels_send :
    (let s := sChan peer2 1 ch0; s.ttPeer 0 = some 7 ∧ s.peer? 7 = some peer2 ∧ s.chanState 0 ≠ 0 ∧ s.rf (oBjnPort (s.chan 0).port) 63 62 = 2 ∧ s.noEntropy = false ∧
      s.latched = false ∧ s.replay.on = false ∧ peer2.txUsed + 1 < 2 ^ 31) ∧ ({} : State).ttPeer 0 = none := by decide +kernel
theorem hyps_Channels_tt (st : Fin 4) : Opened (sChan peer1 st ch0) frF 11 peer1 ptF :=
  opened_of (by revert st; decide +kernel) (by decide +kernel) open_F
theorem hyps_Channels_tt_rest (st : Fin 4) :
    (let s := sChan peer1 st ch0; s.ttPeer 0 = some peer1.mac0 ∧ s.chanState 0 = st ∧ ptF.length = 32 ∧ (s.chan 0).half = some (1, 100, 250, 300) ∧ 1 + 1 = rd 0 8 ptF ∧
      s.rounds.rx = []) := by revert st; decide +kernel
theorem hyps_Channels_lost (st : Fin 3) :
    (let p := { peer2 with sent := [sent0] }; let s := sChan p (st + 1) ch0
     s.chanState 0 = st + 1 ∧ s.rounds.peers = [p] ∧ p.sent = [sent0] ∧ sent0.chan = (0 : ChanNo).val ∧ s.replay.on = false ∧ s.chanState 3 = 2 ∧ s.chanSite 3 = p.site ∧
      s.rf (oBjnPort (s.chan 3).port) 63 62 = 2 ∧ (∀ m, m < 32 → m ≠ 3 → m ≠ (0 : ChanNo).val → s.chanState m ≠ 2)) := by revert st; decide +kernel
/-- A channel number beyond 31 has no register, so it is not LIVE. -/
theorem hyps_Channels_links : ({} : State).latched = false ∧ (setRegs {} [(oSecAlarm, 0, 0, 1)]).latched = true := by decide +kernel

/-- Round 2 is open at a coordinator of site 1, whose peer at site 2 cannot be sent to; nobody else is a member. -/
def sCo (r : Rounds) : State :=
  { job := { prog := some { pR with round := some { cfg0 with members := 6 } } },
    rounds := { r with open_ := some 2, applied := false, coord := true, map := [⟨0, 1, 2, 7, 8⟩], peers := [peer1] } }
/-- A frame relayed inside the site. -/
def rel (typ : Nat) (pt : Bytes) : BjnFrame := { port := 0, srcMac := 0, ctags := 0, stag := false, ether := 0, bytes := bjnHeader typ 0 0 0 pt.length 2 1 0 0 0 1 0 ++ pt }
theorem hyps_Relay : (rel 5 ptE).ctags = 0 ∧ (rel 5 ptE).srcMac = 0 ∧ rd 0 1 (rel 5 ptE).bytes = 5 ∧ rd 0 1 (rel 5 ptE).bytes ≠ 6 := by decide +kernel
theorem openCtl_rel (typ : Fin 16) (s : State) (b : Bytes) (h : (rd 0 1 (rel typ b).bytes = typ ∧ rd 6 1 (rel typ b).bytes % 16 = 2 ∧
    ((rel typ b).bytes.drop 32).take (rd 4 2 (rel typ b).bytes) = b)) : s.openCtl (rel typ b) typ = (s, some (2, b)) := by
  unfold State.openCtl
  simp only [show (rel typ b).ctags = 0 from rfl, show (rel typ b).srcMac = 0 from rfl]
  simp [h.1, h.2.1, h.2.2]
theorem hyps_Control (c : Bool) :
    (let s : State := { sB peer1 with rounds := { (sB peer1).rounds with coord := c } }; Opened s frE 5 peer1 ptE ∧ Keyless s peer1) ∧
    (let p := { peer1 with got := [0] }; Opened (sB p) frE 5 p ptE ∧ Keyless (sB p) p) := by
  refine ⟨⟨opened_of (by revert c; decide +kernel) (by decide +kernel) open_E, ?_⟩, opened_of (by decide +kernel) (by decide +kernel) open_E, ?_⟩ <;>
    (unfold Keyless; first | decide +kernel | (revert c; decide +kernel))
theorem hyps_Reports :
    (({} : State).cfg? = none) ∧ (let s : State := { job := { prog := some pR } }; s.cfg?.isSome = true ∧ s.rounds.coord = false) ∧
    (let s : State := { rounds := { coord := true } }; s.rounds.coord = true ∧ s.openK = none) ∧
    (let c := { cfg0 with members := 6 }; let s := sCo {}; s.openK = some 2 ∧ s.cfg? = some c ∧ s.rounds.coord = true ∧ s.rounds.sealed_ = none ∧ s.site = 1 ∧
      (setRegs s [(oBjnRoundState, 60, 56, 1)]).rf oBjnRoundState 60 56 = 1 ∧ (setRegs s [(oBjnRoundState, 60, 56, 2)]).rf oBjnRoundState 60 56 = 2 ∧
      s.rounds.map.find? (fun e => e.site == 2) = some ⟨0, 1, 2, 7, 8⟩ ∧ s.peer? 7 = some peer1 ∧ Keyless s peer1 ∧ s.replay.on = false ∧
      (∀ e ∈ s.rounds.map, ∀ e' ∈ s.rounds.map, e.mac0 = e'.mac0 → e.site = e'.site)) := by unfold Keyless; decide +kernel
/-- A run that covers parameter 0 with a change of zero. -/
def run0 : Bytes :=
  let d := (encodeDelta [0]).bytes
  let h := le 8 0 ++ le 4 1 ++ le 4 d.length ++ d
  h ++ le 4 (crc32c h) ++ zeros (roundUp 8 (20 + d.length) - (20 + d.length))
/-- Delta `k` of site 2 whole at this device. -/
def rxd (k : Nat) : RxDelta := { site := 2, round := BitVec.ofNat 64 k, mac := 7, total := run0.length, data := putData [] 0 run0, complete := true }
/-- What a round holds at that coordinator when both sites hold both deltas. -/
def rd0 : Rounds := { haves := [(2, ⟨2, 6, [(2, 0), (1, 0)]⟩)], rx := [rxd 2], store := [⟨2, 7, run0⟩] }
theorem hyps_Have : (sCo rd0).openCtl (rel (5 : Fin 16) ptE) (5 : Fin 16) = (sCo rd0, some (2, ptE)) ∧ (sCo rd0).rounds.coord = true :=
  ⟨openCtl_rel _ _ _ (by decide +kernel), rfl⟩
theorem hyps_ManifestEntries :
    (let s := sCo rd0
     Addressed s ∧ s.rounds.attempt = 0 ∧ s.openK = some 2 ∧ s.rounds.coord = true ∧ s.rounds.sealed_ = none ∧ s.replay.on = false ∧ (∀ z ∈ [1, 2], ∃ h ∈ s.haveOf z, h.has 2 (2 - 0) = true) ∧ (0 ≤ cfg0.stale ∧ 0 < 2) ∧ s.rounds.issued = none ∧ s.rounds.stuck = false ∧
      s.leadOf 2 0 = s.site ∧ s.members = [1, 2] ∧ (∃ z ∈ sitesOf (maskOf s.members), z ≠ s.site) ∧ s.rf oBjnRoundState 55 48 = 0 ∧
      (2, 0) ∈ s.combined.complete) := by unfold Addressed; decide +kernel
/-- A manifest of round 2 and attempt 0 over both members. -/
def man2 : Manifest := { round := 2, step := 25, lead := 2, attempt := 0, members := 6, cfg := zeros 32, entries := [(2, 0x3F800000, 2)] }
theorem hyps_Refusal : (sCo rd0).refusal man2 = 0 ∧ (sCo {}).refusal man2 = 2 ∧ (sCo rd0).refusal { man2 with cfg := [1] } = 1 ∧ mkManifest man2.bytes = man2 := by
  decide +kernel
/-- The device with what that round holds, its site's coordinator or not. -/
def sMa (coord : Bool) : State := { sCo rd0 with rounds := { (sCo rd0).rounds with coord := coord } }
/-- The peer that stands for site 2 in the range map cannot be sent to. -/
theorem awaits_sCo (r : Rounds) : Awaits (sCo r) 2 peer1 := ⟨⟨0, 1, 2, 7, 8⟩, rfl, rfl, rfl, rfl⟩
theorem hyps_Manifest (coord : Bool) :
    (sMa coord).openCtl (rel (6 : Fin 16) man2.bytes) (6 : Fin 16) = (sMa coord, some (2, man2.bytes)) ∧ (sMa coord).rounds.coord = coord ∧
    (sMa coord).rounds.sealed_ = none ∧ Whole (sMa coord) man2 ∧ (sMa coord).openK = some man2.round.toNat := by
  unfold Whole; exact ⟨openCtl_rel _ _ _ (by decide +kernel), rfl, rfl, by revert coord; decide +kernel, rfl⟩
/-- A MACK of site 2 for round 2, attempt 0: acceptance or a refusal with HAVE's step. -/
def mack (ok : Nat) : Bytes := le 8 2 ++ le 1 0 ++ le 1 ok ++ zeros 6 ++ le 8 30
theorem hyps_Mack (ok : Fin 2) :
    (let u := sCo { rd0 with issued := some man2, accepts := [1] }
     u.openCtl (rel (7 : Fin 16) (mack ok)) (7 : Fin 16) = (u, some (2, mack ok)) ∧ u.rounds.issued = some man2 ∧ rd 0 8 (mack ok) = 2 ∧ rd 8 1 (mack ok) = man2.attempt ∧
      bit 2 man2.members = true ∧ rd 9 1 (mack ok) = ok ∧ rd 11 1 (mack ok) = 0 ∧ (mack ok).length ≤ 24 ∧ (∀ z ∈ sitesOf man2.members, z ∈ u.rounds.accepts ++ [2])) := by
  refine ⟨openCtl_rel _ _ _ ?_, ?_⟩ <;> (revert ok; decide +kernel)
theorem hyps_Mack_waits :
    (let m := { man2 with members := 7 }; let u := sCo { rd0 with issued := some m, accepts := [1] }
     u.rounds.issued = some m ∧ bit 2 m.members = true ∧ (∃ z ∈ sitesOf m.members, z ∉ u.rounds.accepts ++ [2])) ∧ (sCo rd0).nextOwn 2 man2.attempt = some 2 ∧
    (State.nextOwn { sCo rd0 with rounds := { (sCo rd0).rounds with last := some { man2 with members := 4 } } } 2 man2.attempt = none) ∧ man2.attempt < 255 ∧
    (sCo rd0).nextOwn 2 255 = none ∧ ((sCo rd0).haveOf 2).isSome = true ∧ (sCo {}).haveOf 2 = none := by decide +kernel
theorem hyps_Seal :
    (let u := sCo { rd0 with coordHeld := some man2 }
     u.openCtl (rel (8 : Fin 16) (sealBytes man2)) (8 : Fin 16) = (u, some (2, sealBytes man2)) ∧ u.rounds.coordHeld = some man2 ∧ u.rounds.sealed_ = none ∧ Whole u man2) ∧
    sealBytes { man2 with attempt := 1 } ≠ sealBytes man2 := by
  unfold Whole; exact ⟨⟨openCtl_rel _ _ _ (by decide +kernel), rfl, rfl, by decide +kernel⟩, by decide +kernel⟩

theorem hyps_Silence (a : Fin 2) :
    (let s := sCo { rd0 with attempt := a }; Addressed s ∧ s.openK = some 2 ∧ s.rounds.coord = true ∧ s.rounds.sealed_ = none ∧ s.rounds.stuck = false ∧
      s.replay.on = false ∧ s.rounds.attempt + 1 ≤ 255 ∧ (a = 1 → s.leadOf 2 (s.rounds.attempt + 1) = s.site) ∧
      (a = 0 → s.leadOf 2 (s.rounds.attempt + 1) ≠ s.site) ∧ (∃ z ∈ s.rotation, z ≠ s.site) ∧ s.rounds.coordHeld = none) ∧
    255 < (sCo { rd0 with attempt := 255 }).rounds.attempt + 1 ∧
    (let s := sMa false; s.openK = some 2 ∧ s.cfg?.isSome = true ∧ s.rounds.coord = false ∧ s.rounds.held = none) ∧
    (let s := sCo { rd0 with coordHeld := some man2 }; s.rounds.coordHeld = some man2 ∧ man2.round.toNat = 2 ∧ man2.attempt = s.rounds.attempt) := by
  unfold Addressed; revert a; decide +kernel
/-- An MREPLY for round 2: a manifest, sealed, or none. -/
def mreply (have_ : Nat) : Bytes := le 8 2 ++ le 1 have_ ++ le 1 have_ ++ zeros 6 ++ (if have_ = 1 then man2.bytes else [])
theorem hyps_Mquery : (let u := sCo { rd0 with coordHeld := some man2 }; Awaits u 2 peer1 ∧ u.openCtl (rel (9 : Fin 16) (le 8 2 ++ [2])) (9 : Fin 16) = (u, some (2, le 8 2 ++ [2])) ∧
    u.rounds.coord = true ∧ rd 0 8 (le 8 2 ++ [2]) = 2) := ⟨awaits_sCo _, openCtl_rel _ _ _ (by decide +kernel), rfl, by decide +kernel⟩
theorem hyps_Mreply (h : Fin 2) :
    (let u := sCo { rd0 with querying := true }; u.openCtl (rel (10 : Fin 16) (mreply h)) (10 : Fin 16) = (u, some (2, mreply h)) ∧ u.rounds.querying = true ∧
      rd 0 8 (mreply h) = 2 ∧ rd 8 1 (mreply h) = h ∧ rd 9 1 (mreply h) = h ∧ (∀ z ∈ u.rotation, z ≠ u.site → z = 2)) := by
  refine ⟨openCtl_rel _ _ _ ?_, ?_⟩ <;> (revert h; decide +kernel)
/-- An MREPLY that brings a manifest which no SEAL has followed. -/
def mreply2 : Bytes := le 8 2 ++ [1, 0] ++ zeros 6 ++ man2.bytes
theorem hyps_Mreply_unasked (old : Bool) :
    (let u := sCo { rd0 with coordHeld := if old then some man2 else none }
     u.openCtl (rel (10 : Fin 16) mreply2) (10 : Fin 16) = (u, some (2, mreply2)) ∧ u.rounds.querying = false ∧ rd 0 8 mreply2 = 2 ∧ rd 8 1 mreply2 = 1 ∧
      rd 9 1 mreply2 ≠ 1 ∧ mkManifest (mreply2.drop 16) = man2 ∧ man2.round.toNat = 2 ∧ (old = false → u.rounds.coordHeld = none) ∧
      (old = true → u.rounds.coordHeld = some man2)) := by
  refine ⟨openCtl_rel _ _ _ ?_, ?_⟩ <;> (revert old; decide +kernel)
theorem hyps_Mreply_more : (let u : State := { job := { prog := some pR }, rounds := (sCo { rd0 with querying := true }).rounds }
    u.openK = some 2 ∧ u.rounds.coord = true ∧ (∃ z ∈ u.rotation, z ≠ u.site ∧ z ≠ 2 ∧ ∀ r ∈ u.rounds.replies, r.1 ≠ z)) := by decide +kernel
theorem hyps_MemberSilence :
    (let s := sCo { rd0 with querying := true, replies := [(2, some (man2, true))] }
     (s.rounds.coordHeld.toList.filter (fun m => m.round.toNat == 2)).map (fun m => (m, false)) ++ s.rounds.replies.filterMap (fun r => r.2) = [(man2, true)]) ∧
    (let s := sCo { rd0 with querying := true, coordHeld := some man2, replies := [(2, none)] }
     (s.rounds.coordHeld.toList.filter (fun m => m.round.toNat == 2)).map (fun m => (m, false)) ++ s.rounds.replies.filterMap (fun r => r.2) = [(man2, false)] ∧
      s.refusal { man2 with lead := s.site, attempt := s.rounds.attempt } = 0) ∧
    (let s := sCo { rd0 with querying := true }
     (s.rounds.coordHeld.toList.filter (fun m => m.round.toNat == 2)).map (fun m => (m, false)) ++ s.rounds.replies.filterMap (fun r => r.2) = []) := by decide +kernel
theorem hyps_MemberDrop : (let s := sCo { rd0 with issued := some man2, accepts := [1] }; s.rounds.issued = some man2 ∧ (2 : SiteNo).val ∉ s.rounds.accepts ∧
    bit 2 man2.members = true ∧ (2 : SiteNo).val ≠ s.site ∧ s.nextOwn 2 man2.attempt = some 2) := by decide +kernel
theorem hyps_JoinRequest :
    (let f := rel (12 : Fin 16) [0, 3]; f.ctags = 0 ∧ f.srcMac = 0 ∧ rd 0 1 f.bytes = 0x0C ∧ rd 32 1 f.bytes = 0 ∧ 2 ≤ rd 4 2 f.bytes ∧
      (let s := setRegs (sCo rd0) [(oBjnRoundState, 60, 56, 1)]; s.rounds.coord = true ∧ s.rf oBjnRoundState 60 56 = s.site) ∧
      (let s := setRegs (sCo rd0) [(oBjnRoundState, 60, 56, 2)]; s.rf oBjnRoundState 60 56 ≠ s.site ∧ s.rf oBjnRoundState 60 56 = 2 ∧
        bit (rd 33 1 f.bytes % 16) s.rounds.joinReqs = false)) := by
  decide +kernel
theorem hyps_JoinRequest_lead : Awaits (setRegs (sCo rd0) [(oBjnRoundState, 60, 56, 2)]) 2 peer1 := ⟨⟨0, 1, 2, 7, 8⟩, by decide, rfl, by unfold Keyless; decide +kernel, rfl⟩
/-- A joiner of site 2's range, whose programme owns `n` elements. -/
def sJoin (two : Bool) : State :=
  let e := if two then { en1 with count := 2 } else en1
  { sB peer1 with job := { prog := some { pR with smap := [e], plan := { epoch := 1, ops := [{ po 2 3 0xFFFFF 0 0 with count := e.count }] } } },
                  rounds := { (sB peer1).rounds with joiner := some 2, last := some (man1 1) } }
theorem hyps_Join (two : Bool) : Opened (sJoin two) frH 12 peer1 ptH ∧ Opened (sJoin two) frJ 12 peer1 ptJ ∧ Keyless (sJoin two) peer1 ∧ (sJoin two).rounds.joiner = some peer1.site :=
  ⟨opened_of (by revert two; decide +kernel) (by decide +kernel) open_H, opened_of (by revert two; decide +kernel) (by decide +kernel) open_J,
   by unfold Keyless; revert two; decide +kernel, by revert two; decide +kernel⟩
theorem hyps_Join_ranges :
    rd 0 1 ptH = 1 ∧ rd 0 1 ptJ = 2 ∧ (sJoin true).rounds.last = some (man1 1) ∧ ptJ.length = 24 + 8 * rd 16 8 ptJ ∧
    (let got := [(rd 8 8 ptJ, rd 16 8 ptJ)]; (sJoin true).coversOwned got = false ∧ (sJoin false).coversOwned got = true) ∧
    (sJoin true).rounds.joinRound = none ∧ (mkManifest (ptH.drop 8)).round = 1 ∧ (sJoin true).rounds.coord = false := by decide +kernel
/-- The joiner after a manifest of a round. -/
def sJoinAt (r : Fin 2) : State := { sJoin false with rounds := { (sJoin false).rounds with joinRound := some (BitVec.ofNat 64 r) } }
theorem hyps_Join_later (r : Fin 2) : Opened (sJoinAt r) frH 12 peer1 ptH ∧ Keyless (sJoinAt r) peer1 ∧ (sJoinAt r).rounds.joiner = some peer1.site ∧
    (sJoinAt r).rounds.coord = false ∧ (r = 0 → BitVec.ofNat 64 r < (mkManifest (ptH.drop 8)).round) ∧ (r = 1 → (mkManifest (ptH.drop 8)).round ≤ BitVec.ofNat 64 r) :=
  ⟨opened_of (by revert r; decide +kernel) (by decide +kernel) open_H, by unfold Keyless; revert r; decide +kernel, by revert r; decide +kernel, rfl,
   by revert r; decide +kernel, by revert r; decide +kernel⟩
theorem hyps_Sponsor (applied : Bool) :
    (let s : State := { ddrBytes := 2 ^ 40, job := { prog := some pR }, rounds := { sponsorOf := some 2, last := some (man1 1), applied := applied, map := [⟨0, 1, 2, 7, 8⟩], peers := [peer1] } }
     s.rounds.applied = applied ∧ s.rounds.map.filter (fun e => e.site == 2) = [⟨0, 1, 2, 7, 8⟩] ∧ s.peer? 7 = some peer1 ∧ Keyless s peer1 ∧ s.replay.on = false ∧
      (s.held pR).zipIdx.find? (fun x => decide (x.1.first ≤ 0) && decide (0 < x.1.first + x.1.count)) = some (en1, 0) ∧
      (∃ h ∈ s.home pR 0 s.committed, (s.elems pR h 0 s.committed 2 0 1).toOption = some [0] ∧ (s.elems pR h 0 s.committed 3 0 1).toOption = some [0]) ∧
      s.rounds.sponsorSent ≠ some (man1 1).round ∧ bit 2 (man1 1).members = true ∧ bit 2 { man1 1 with members := 3 }.members = false) := by
  unfold Keyless; revert applied; decide +kernel
theorem hyps_Coord :
    (let s : State := { job := { prog := some pR } }; s.cfg? = some cfg0 ∧ s.rounds.coord = false ∧ s.self ≠ cfg0.coordAlt ∧ ({ rounds := { coord := true } } : State).rounds.coord = true ∧
      (setRegs s [(oSiteId, 19, 0, 1)]).self = cfg0.coordAlt ∧
      (setRegs s [(oSiteId, 19, 0, 1), (oMir, 39, 20, 0), (oMir, 63, 61, 3)]).partner = cfg0.coord ∧ (setRegs s [(oMir, 39, 20, 0), (oMir, 63, 61, 3)]).mirState = 3) := by
  decide +kernel

/-! ### The site fabric -/

/-- Site port 2 in a state, expecting neighbour 9. -/
def sPort (st : Nat) (echoes : List Nat) : State :=
  setRegs { job := { prog := some { p0 with route := { neighbours := [0, 0, 9] } } }, fabric := { ports := [(2, { echoes := echoes, peer := 9 })] } } [(oPortStatus 2, 63, 62, st)]
theorem hyps_BringUp (st : Fin 2) :
    ((sPort st []).rf (oPortStatus (2 : PortNo)) 63 62 < 2 ∧ (sPort st []).rf (oPortCtl (2 : PortNo)) 25 25 = 0 ∧ (9 : BitVec 20).toNat = (sPort st []).neighbour 2 ∧
      (9 : BitVec 20).toNat ≠ 0xFFFFF ∧ ([1, 2, 3, 4, 4800].take 5).foldl max 0 ≤ 4800 ∧ 4800 < ([1, 2, 3, 4, 4801].take 5).foldl max 0) ∧
    2 ≤ (sPort 2 []).rf (oPortStatus (2 : PortNo)) 63 62 ∧ (8 : BitVec 20).toNat ≠ (sPort 1 []).neighbour 2 := by revert st; decide +kernel
/-- The same with the time of its last question; the time now is 100. -/
def sPortAsk (echoes : List Nat) : State :=
  let s := setRegs (sPort 1 echoes) [(oTimeNow, 63, 0, 100)]
  { s with fabric := { ports := [(2, { echoes := echoes, peer := 9, stamp := some 90 })] } }
theorem hyps_Ident_stamp :
    (let s := sPortAsk [1, 2, 3]; s.rf (oPortStatus (2 : PortNo)) 63 62 = 1 ∧ (s.sport 2).stamp = some ((90 : BitVec 32).toNat % 65536) ∧
      (s.sport 2).stamp ≠ some ((91 : BitVec 32).toNat % 65536) ∧ (s.sport 2).echoes.length < 4) ∧
    (let s := sPortAsk [1, 2, 3, 4]; (s.sport 2).echoes.length = 4 ∧ (9 : BitVec 20).toNat = s.neighbour 2 ∧ (8 : BitVec 20).toNat ≠ s.neighbour 2 ∧
      (((s.sport 2).echoes ++ [(s.now + 65536 - 90) % 65536]).take 5).foldl max 0 ≤ 4800 ∧ s.fw.side = false) ∧
    (let s := sPort 0 []; s.rf (oPortStatus (2 : PortNo)) 63 62 < 2 ∧ s.rf (oPortCtl (2 : PortNo)) 25 25 = 0 ∧ s.fw.side = false) := by decide +kernel
theorem hyps_Ident : (sPort 1 [1, 2]).rf (oPortStatus (2 : PortNo)) 63 62 = 1 ∧ ((sPort 1 [1, 2]).sport 2).echoes.length < 4 ∧
    ((sPort 1 [1, 2, 3, 4]).sport 2).echoes.length = 4 ∧ (1 : BitVec 32) ≠ 0 ∧
    ((([1, 2, 3, 4] : List Nat) ++ [(BitVec.ofNat 32 (setRegs {} [(oTimeNow, 63, 0, 100)]).now - 1).toNat]).take 5).foldl max 0 ≤ 4800 ∧
    (sPort 0 []).rf (oPortStatus (2 : PortNo)) 63 62 ≠ 1 := by decide +kernel
theorem hyps_PortDown : (sPort 2 []).portUp 2 = true ∧ (sPort 1 []).portUp 2 = false ∧ ((sPort 2 []).sport 2).queue = [] := by decide +kernel
/-- A pair in a state with partner 9 over site port 2. -/
def sPair (st : Nat) : State := setRegs { job := { prog := some p0 } } [(oMir, 63, 61, st), (oMir, 39, 20, 9), (oSiteId, 27, 24, 2), (oPortStatus 2, 63, 62, 2)]
theorem hyps_Heartbeat (st : Fin 5) :
    ((sPair st).mirState = st ∧ (9 : BitVec 20).toNat = (sPair st).partner ∧ (sPair st).mirrorUp = true ∧ (8 : BitVec 20).toNat ≠ (sPair st).partner ∧
      (sPair st).job.running = none ∧ (sPair st).rf oRstJob 61 61 = 0 ∧ (sPair st).phase ≠ 2) := by revert st; decide +kernel

/-- A frame of 4 bytes from device 9 on stream 1 to a device, with HOPS. -/
def bF (typ dest hops tag : Nat) (seq : Nat) : Bytes := rehop 0 hops 0 (routedFrameOf typ dest 9 seq 1 tag 1 [1, 2, 3, 4])
/-- Device 8 with site ports 0 and 1 up, 9 behind port 0 and 10 behind port 1; port 1 has some credits. -/
def sF (cr : Nat) : State :=
  setRegs { job := { prog := some { p0 with route := { addr := 8, lcl := List.replicate 8 0 ++ [0x80F8, 0x80F0, 0x80F1] } } },
            fabric := { ports := [(0, { carries := true }), (1, { carries := true, credits := [(2, cr)] })] } }
    [(oSiteId, 19, 0, 8), (oPortStatus 0, 63, 62, 2), (oPortStatus 1, 63, 62, 2)]
theorem hyps_RoutedFrame (cr : Fin 2) :
    (let s := sF cr
     (∀ d ∈ [8, 10, 0], InOrder s (0 : PortNo) (bF 2 d 0 0 0)) ∧ s.routeOf (frDest (bF 2 0 0 0 0)) = none ∧ s.routeOf (frDest (bF 2 8 0 0 0)) = some (8, false) ∧
      s.routeOf (frDest (bF 2 10 0 0 0)) = some (1, false) ∧ 63 ≤ rd 1 1 (bF 2 10 63 0 0) ∧ InOrder s (0 : PortNo) (bF 2 10 63 0 0) ∧ rd 1 1 (bF 2 10 0 0 0) < 63 ∧
      frType (bF 2 8 0 0 0) ≠ 4 ∧ (s.sport 1).queue = [] ∧ ((s.sport 1).replay.map (·.2.length)).sum + (bF 2 10 0 0 0).length ≤ 2 ^ 20 ∧
      (if cr = 1 then frCredits (bF 2 10 0 0 0) ≤ SMap.get (s.sport 1).credits (1 * 2 + 0) 0 else SMap.get (s.sport 1).credits (1 * 2 + 0) 0 < frCredits (bF 2 10 0 0 0))) := by
  unfold InOrder; revert cr; decide +kernel
theorem hyps_RoutedFrame_bad :
    (let s := sF 1; s.linkUp (0 : PortNo) = true ∧ s.linkUp (5 : PortNo) = false ∧ headOk (zeros 40) = false ∧
      (let b := rehop 0 0 7 (bF 2 8 0 0 0); headOk b = true ∧ rd 2 2 b ≠ (s.sport 0).rxSeq.toNat) ∧
      (let b := (bF 2 8 0 0 0).take 36; headOk b = true ∧ rd 2 2 b = (s.sport 0).rxSeq.toNat ∧ cutOff b = true) ∧
      (∀ d ∈ [8, 10], let b := (bF 2 d 0 0 0).take 39 ++ [(bF 2 d 0 0 0).getD 39 0 + 1]
        headOk b = true ∧ rd 2 2 b = (s.sport 0).rxSeq.toNat ∧ cutOff b = false ∧ bodyOk b = false ∧ s.routeOf (frDest b) = some (if d = 8 then 8 else 1, false) ∧
          frCredits b ≤ SMap.get (s.sport 1).credits (1 * 2 + 0) 0 ∧ ((s.sport 1).replay.map (·.2.length)).sum + 32 + rd 6 2 b ≤ 2 ^ 20)) := by decide +kernel
/-- A port with frames 3 and 4 in its replay buffer, one of them asked for 15 times already. -/
def sLk : State := { sF 0 with fabric := { ports := [(0, { carries := true, replay := [(3, []), (4, [])], replayed := 4, replays := 15, owed := 2, owes := [(2, 5)] })] } }
theorem hyps_Link : (∃ r ∈ (sLk.sport 0).replay, lseqBefore r.1 4 = true) ∧ (∀ r ∈ (sLk.sport 0).replay, lseqBefore r.1 3 = false) ∧ (sLk.sport 0).queue = [] ∧
    sLk.linkUp (0 : PortNo) = true ∧ sLk.linkUp (5 : PortNo) = false ∧ (sLk.sport 0).owed ≠ 0 ∧ ((sF 0).sport 0).owed = 0 ∧
    16 ≤ (if (sLk.sport 0).replayed = 4 then (sLk.sport 0).replays + 1 else 1) ∧ (if (sLk.sport 0).replayed = 3 then (sLk.sport 0).replays + 1 else 1) < 16 := by decide +kernel
/-- A frame delivered from port 0, on a stream that expects SEQ 5. -/
def sArr (b : Bytes) (since : Nat) : State :=
  { sF 0 with fabric := { (sF 0).fabric with arrived := [(0, b)], rx := [{ src := 9, stream := 1, next := 5, since := since }] } }
theorem hyps_StreamFrame :
    (let s := sArr (bF 2 8 0 0 5) 0; let x := s.rxOf (frSrc (bF 2 8 0 0 5)) (frStream (bF 2 8 0 0 5))
     x.next = 5 ∧ x.src ≠ s.self ∧ frType (bF 2 8 0 0 5) ∈ [1, 2, 3, 6] ∧ frTag (bF 2 8 0 0 5) ≠ s.tagNow ∧ fetchFrame (bF 2 8 0 0 5) = false ∧
      frTag (bF 2 8 0 s.tagNow 5) = s.tagNow ∧ frSeq (bF 2 8 0 s.tagNow 5) = x.next ∧ frSeq (bF 2 8 0 s.tagNow 4) < x.next ∧ x.next < frSeq (bF 2 8 0 s.tagNow 6) ∧
      x.since + 1 ≠ 16 ∧ frType (bF 2 8 0 s.tagNow 5) ≠ 5 ∧ (s.routeOf x.src).isSome = true) ∧
    ((sArr (bF 2 8 0 1 5) 15).rxOf 9 1).since = 15 := by decide +kernel
/-- A CTRL frame of a kind for queue 4 and micro-batch 3, of a step. -/
def bCtl (kind step : Nat) : Bytes := rehop 0 0 0 (routedFrameOf 5 8 9 5 1 0 0 (ctrlBytes kind 0 4 3 step []))
theorem hyps_StreamFrame_ctrl (k : Fin 3) :
    (let b := bCtl (0x10 + k) 0; let s := sArr b 0; let x := s.rxOf (frSrc b) (frStream b)
     frType b = 5 ∧ frSeq b = x.next ∧ x.since + 1 ≠ 16 ∧ rd 34 2 b = 4 ∧ rd 36 4 b = 3 ∧ rd 32 1 b = 0x10 + k ∧ rd 40 8 (bCtl (0x10 + k) s.stepNow) = s.stepNow ∧
      rd 40 8 (bCtl (0x10 + k) (s.stepNow + 1)) ≠ s.stepNow) := by revert k; decide +kernel
/-- A sending stream with one unacknowledged frame of plan entry 0, re-sent `n` times. -/
def sTx (n : Nat) (run : Bool) : State :=
  { sF 1 with fabric := { (sF 1).fabric with tx := [{ dest := 10, stream := 1, next := 1, held := [(0, 0, 0, bF 2 10 0 0 0)], resends := n }],
                                             rx := [{ src := 9, stream := 1, owes := true }] },
              job := { (sF 1).job with running := if run then some job1 else none } }
/-- The same with that entry in the plan and its signal due. -/
def sTxDue : State :=
  { sTx 0 false with job := { prog := some { p0 with plan := { epoch := 1, ops := [po 1 0 10 0x3000 0] } } }, jug := { ran := [(0, 0)], due := [(0, 0)] } }
theorem hyps_Streams :
    (let x := (sTx 0 false).txOf (10 : BitVec 20).toNat (1 : BitVec 16).toNat; (1 : Word) ≤ x.next ∧ (∃ h ∈ x.held, h.1 < 1) ∧ x.held ≠ [] ∧ x.resends < 8 ∧
      x.next < 2 ∧ (∀ h ∈ x.held, ¬h.1 < 0) ∧ (sTx 0 false).reshard = none ∧ (sTx 0 false).jug.due = [] ∧ (sTx 0 false).phase ≠ 2) ∧
    (let s := sTxDue; let x := s.txOf (10 : BitVec 20).toNat (1 : BitVec 16).toNat
     (1 : Word) ≤ x.next ∧ (∀ h ∈ x.held, h.1 < 1 → (h.2.1, h.2.2.1) = (0, 0)) ∧ (0, 0) ∈ s.jug.due ∧
      (s.job.prog.bind (fun p => p.plan.ops[0]?)) = some (po 1 0 10 0x3000 0) ∧
      (s.setTx { x with held := x.held.filter (fun h => !decide (h.1 < 1)), resends := 0 }).unackedOp 0 (some 0) = false) ∧
    ((sTx 0 false).rxOf (9 : BitVec 20).toNat (1 : BitVec 16).toNat).owes = true ∧ (9 : BitVec 20).toNat ≠ (sTx 0 false).self ∧
    (({} : State).rxOf 9 1).owes = false ∧ (({} : State).txOf 9 1).held = [] ∧
    8 ≤ ((sTx 8 true).txOf 10 1).resends ∧ (sTx 8 true).job.running = some job1 ∧ (sTx 8 true).phase ≠ 2 ∧ (sTx 8 true).rf oRstJob 61 61 = 0 ∧
    (sTx 8 true).hang = none ∧ (sTx 8 false).job.running = none := by decide +kernel
/-- An acknowledgement that arrives as a frame. -/
theorem hyps_RoutedFrame_sack :
    (let b := rehop 0 0 0 (routedFrameOf 4 8 10 0 1 0 0 (le 8 1)); let s := sTx 0 false; InOrder s (0 : PortNo) b ∧ s.routeOf (frDest b) = some (8, false) ∧ frType b = 4 ∧
      (let x := s.txOf (frSrc b) (frStream b); BitVec.ofNat 64 (rd 32 8 b) ≤ x.next ∧ ∃ h ∈ x.held, h.1 < BitVec.ofNat 64 (rd 32 8 b))) := by
  unfold InOrder; decide +kernel

/-! ### Strongman, barrier, mirror, re-shard, all-reduce -/

/-- Hyperparameters without bounds. -/
def hp1 : Hyper := ⟨0x3F000000, 0x3F000000, 0, 0x3F800000, 0x3F800000, 0x7F800000, 0x7F800000, 0x3F000000⟩
/-- A programme that owns one element; two-phase mode is FLAGS bit 0. -/
def pS (two : Nat) : Prog := { pO oRr with hyper := [hp1], flags := two, group := 2, commitRec := 0x800000 }
/-- The reduced gradient of its shard. -/
def red0 (v : Nat) : Reduced := { entry := 0, shard := 0, vals := [BitVec.ofNat 32 v], digest := 0, owned := true }
/-- Strongman 0 at work on it. -/
def sSm (two : Nat) (g : Strg) : State :=
  { ddrBytes := 2 ^ 40, job := { prog := some (pS two), running := some j1 }, strg := { g with audited := [0] } }
/-- The entry's two slots. -/
def ho (n : Nat) : Home := en1.home (n % 2)
theorem hyps_Strongman (two : Nat) :
    AtStrongman (sSm two { reduced := [red0 0] }) (0 : StrongNo) j1 (pS two) ∧ (sSm two {}).strg.reduced = [] ∧
    (let s := sSm two { reduced := [red0 0] }; s.strg.reduced.find? (fun r => ((s.held (pS two))[r.entry]?).any (fun e => e.strong == (0 : StrongNo).val)) = some (red0 0) ∧
      (s.held (pS two))[(red0 0).entry]? = some en1) := by
  refine ⟨⟨rfl, rfl, rfl, ?_, ?_, rfl, (fun _ x h => nomatch h), rfl, rfl, ?_, ?_⟩, rfl, rfl, rfl⟩
  · show State.rf ({} : State) _ _ _ = 0; decide +kernel
  · show State.phase ({} : State) = 0; decide +kernel
  · exact List.mem_singleton.mpr rfl
  · have h : pinf32 (dClip j1.desc) = true := by decide +kernel
    unfold State.normFault; exact if_pos (Or.inr h)
/-- A step that clips, after a committed record whose norm fails its residue check. -/
def sNf : State :=
  { sSm 0 {} with
    job := { prog := some (pS 0), running := some { j1 with desc := desc1 1 [] |>.take 26 |> (· ++ le 4 0x3F800000) } },
    mem := cellsWrite memDflt [] 0x800000 (zeros 12 ++ le 4 1 ++ [1] ++ zeros 79) }
theorem hyps_Strongman_norm : (sNf.job.running.bind (fun j => sNf.normFault (pS 0) j)).isSome = true ∧ (0 : StrongNo).val ∈ sNf.strg.audited ∧ sNf.mirState ≠ 2 ∧
    (sNf.job.running.bind (fun j => sNf.normFault (pS 0) j)) = some none := by decide +kernel
/-- The shard's elements and AVG, at both values of two-phase mode (bit 0 of FLAGS). -/
theorem hyps_ShardAt (v : Fin 4) :
    (let x := [0, 0x3F800000, 0x7FC00000, 0x60000000].getD v.val 0; let s := sSm 0 { reduced := [red0 x] }; let r := red0 x; let p := pS 0
     s.home p r.entry (1 - 1) = some (ho 0) ∧ s.home p r.entry 1 = some (ho 1) ∧ (ho 1).e = (ho 0).e ∧
      (s.elems p (ho 0) r.entry (1 - 1) 0 (65536 * r.shard) ((ho 0).e.shardLen r.shard)).toOption = some [0] ∧
      (s.elems p (ho 0) r.entry (1 - 1) 1 (65536 * r.shard) ((ho 0).e.shardLen r.shard)).toOption = some [0] ∧
      (s.load ((ho 0).avg (1 - 1)) 4).toOption = some (zeros 4) ∧ s.MemoryOk ∧ s.bad = [] ∧
      (ho 1).mas + 4 * (65536 * r.shard) + 262144 ≤ hostWin ∧ (ho 1).mom + 4 * (65536 * r.shard) + 262144 ≤ hostWin ∧
      (ho 1).w + 2 * (65536 * r.shard) + 131072 ≤ hostWin ∧ (ho 1).avg 1 + 4 ≤ hostWin ∧
      r.vals.length = (ho 0).e.shardLen r.shard ∧ (ho 1).e.strong = (0 : StrongNo).val ∧
      (∀ x, x < r.vals.length → s.rowLive (ho 0).e r.entry (65536 * r.shard + x) = true) ∧
      gradCheck (p.hp (ho 0).e) 0 (r.vals.take 256) = [none, none, some (1, 0), none].getD v.val none ∧
      (∀ b, b < 1 → (r.vals.drop (256 * b)).take 256 = r.vals.take 256)) ∧
    (pS 1).twoPhase = true ∧ (pS 0).twoPhase = false ∧ (sSm 0 {}).mirroring = false ∧ (sSm 0 {}).mirror.adopt = [] ∧ (ho 0).e.rule ≠ 3 ∧
    (∀ (s : State), s.rounds.sealed_ = none → s.applyNow 1 = none) := by
  refine ⟨?_, by decide +kernel, by decide +kernel, by decide +kernel, rfl, by decide +kernel, fun s h => by simp [State.applyNow, h]⟩
  revert v; unfold State.MemoryOk; decide +kernel
/-- A lazy entry whose row was not touched, and a gradient on it. -/
theorem hyps_ShardUpdate_cold :
    (let s := sSm 0 { reduced := [red0 0x3F800000] }; s.rowLive { en1 with lzy := true } 0 0 = false ∧ (0x3F800000 : BitVec 32) ≠ 0x80000000) := by decide +kernel
theorem hyps_ShardUpdate_values :
    (let s := sSm 0 { reduced := [red0 0x3F800000] }; let p := pS 0; ∃ w m, fin32 w = true ∧ fin32 m = true ∧
      innerUpdate (ho 0).e.rule (p.hp (ho 0).e) (dLr j1.desc) (dWd j1.desc) (s.clip p j1) 0 0 0 0 0 0x3F800000 = some (w, m)) ∧
    SMap.get? (sSm 0 {}).strg.r3mine 1 = none ∧ fin32 (0x3F800000 : BitVec 32) = true := by
  refine ⟨⟨_, _, ?_, ?_, Option.eq_some_of_isSome ?_⟩, ?_⟩ <;> decide +kernel
theorem hyps_ShardUpdate_avg (a l : Nat) (h : (a, l) ∈ [((ho 1).mas + 4 * (65536 * 0), 4 * 1), ((ho 1).mom + 4 * (65536 * 0), 4 * 1), ((ho 1).w + 2 * (65536 * 0), 2 * 1)]) :
    (ho 0).avg (1 - 1) + 4 ≤ a ∨ a + l ≤ (ho 0).avg (1 - 1) := by
  have g : ∀ x ∈ [((ho 1).mas + 4 * (65536 * 0), 4 * 1), ((ho 1).mom + 4 * (65536 * 0), 4 * 1), ((ho 1).w + 2 * (65536 * 0), 2 * 1)],
    (ho 0).avg (1 - 1) + 4 ≤ x.1 ∨ x.1 + x.2 ≤ (ho 0).avg (1 - 1) := by decide +kernel
  exact g (a, l) h
/-- A state at step 5 whose outer close of step 3 is not done. -/
def sHb (from_ : Option Word) : State := { sSm 0 { closeDue := some 3, holdFrom := from_ } with job := { prog := some (pS 0), running := some { j1 with n := 5 } } }
theorem hyps_ShardUpdate_held :
    (sHb none).heldBack 5 = true ∧ (sHb none).strg.holdFrom = none ∧ (sHb none).mirState ≠ 2 ∧ (sHb (some 7)).strg.holdFrom.isSome = true ∧
    (sPair 2).mirState = 2 ∧ ({ restream := [(0, 0)] } : Strg).restream ≠ [] := by decide +kernel
/-- An entry whose working weight in HBM is not that of its master. -/
def sAu : State := { sSm 0 {} with mem := cellsWrite memDflt [] (ho 0).w [1] }
theorem hyps_Audit :
    (let s := sAu; let h := ho 0; s.home (pS 0) 0 s.committed = some h ∧ h.e.cold = false ∧ (s.read32 (h.mas + 4 * (65536 * 0)) (h.e.shardLen 0)).toOption = some [0] ∧
      (s.load (h.w + 2 * (65536 * 0)) (2 * h.e.shardLen 0)).toOption = some [1, 0] ∧ s.MemoryOk ∧ s.bad = [] ∧ h.w + 2 * (65536 * 0) + 131072 ≤ hostWin ∧
      0 < h.e.shardLen 0 ∧ workOf 0 ≠ (elemsLE 2 [1, 0]).getD 0 0 ∧ s.phase ≠ 2) := by unfold State.MemoryOk; decide +kernel
/-- A parked gradient after the phase-one record, and a lazily merged RULE 3 tensor. -/
def sP2 : State := sSm 1 { phaseOne := true, parked := [{ red0 0 with vals := [] }] }
theorem hyps_PhaseTwo :
    (let s := sP2; s.strg.parked.find? (fun r => !s.strg.done.contains (r.entry, r.shard) && ((s.held (pS 1))[r.entry]?).any (fun e => e.strong == (0 : StrongNo).val)) =
        some { red0 0 with vals := [] } ∧ (s.held (pS 1))[0]? = some en1 ∧ (s.read32 (ho 1).mom 1).toOption = some [0] ∧ SMap.get? s.strg.r3 1 = none ∧
      s.awaitsOwner 1 (red0 0) none = false) ∧ (sSm 1 {}).strg.phaseOne = false ∧
    (let s : State := { sP2 with rounds := { applied := false, sealed_ := some { man1 1 with step := 1 } } }; s.awaitsOwner 1 { red0 0 with owned := false } none = true) ∧
    (let s := sP2; ∃ w m, fin32 w = true ∧ fin32 m = true ∧
      innerUpdate (ho 0).e.rule ((pS 1).hp (ho 0).e) (dLr j1.desc) (dWd j1.desc) (s.clip (pS 1) j1) 0 0 0 0 0 0 = some (w, m)) := by
  refine ⟨by decide +kernel, by decide +kernel, by decide +kernel, ⟨_, _, ?_, ?_, Option.eq_some_of_isSome ?_⟩⟩ <;> decide +kernel
/-- A record of step 1 from a number of devices, with a veto kind and the phase-one flag. -/
def rec1 (veto flags dev : Nat) (norm : BitVec 640) : ReadyRec :=
  { step := 1, epoch := 1, veto := BitVec.ofNat 8 veto, flags := BitVec.ofNat 8 flags, devices := BitVec.ofNat 32 dev, norm2 := norm, gfp := [0], wfp := [0] }
/-- A step whose only shard is done, or parked, or neither. -/
def sRd (two d : Nat) (sent : Option ReadyRec) : State :=
  { sSm two { done := if d = 1 then [(0, 0)] else [], parked := if d = 2 then [red0 0] else [], readySent := sent.isSome, sentRec := sent } with
    mbx := { taken := [tq 0x0202 []] } }
theorem hyps_Ready :
    (let s := sRd 0 1 none; let p := pS 0; s.job.running = some j1 ∧ s.job.prog = some p ∧ p.gen = false ∧ s.rf oRstJob 61 61 = 0 ∧ s.phase = 0 ∧ s.hang = none ∧
      s.strg.readySent = false ∧ (p.twoPhase && !s.strg.phaseOne) = false ∧ (∀ x ∈ s.allShards p, x ∈ s.strg.done) ∧ (∀ e ∈ s.held p, e.rule ≠ 3) ∧
      s.waitsMirror 1 = false) ∧
    (let s := sRd 1 2 none; (((pS 1).twoPhase && !s.strg.phaseOne) = true ∧ ∀ x ∈ s.allShards (pS 1), ∃ r ∈ s.strg.parked, (r.entry, r.shard) = x)) ∧
    (∃ x ∈ (sRd 1 0 none).allShards (pS 1), ∀ r ∈ (sRd 1 0 none).strg.parked, (r.entry, r.shard) ≠ x) ∧
    (∃ x ∈ (sRd 0 0 none).allShards (pS 0), x ∉ (sRd 0 0 none).strg.done) ∧ (sRd 0 1 (some (rec1 0 0 1 0))).strg.readySent = true ∧
    ((sPair 2).waitsMirror 1 = true ∧ (sPair 3).waitsMirror 1 = true ∧ (sPair 4).waitsMirror 1 = false ∧ (pS 0).smap[0]? = some en1 ∧ 0 < en1.shards ∧ (0, 0) ∉ (sRd 0 1 none).strg.acked) := by decide +kernel
/-- The group of two devices of one troupe. -/
theorem hyps_Ready_group : (let p := { pS 0 with troupeSize := 2 }; p.group ≠ 1 ∧ p.groupAddrs.length = 1 ∧ p.groupAddrs.Nodup ∧
    (∀ o ∈ p.plan.ops, o.typ = 7 → o.arg % 256 ≠ 0)) :=
  ⟨by decide, rfl, List.nodup_singleton _, by decide⟩
theorem hyps_MergedReady (d : Fin 2) :
    (let s := sRd d (1 + d) (some (rec1 0 d 1 0)); let p := pS d; s.job.running = some j1 ∧ s.job.prog = some p ∧ p.gen = false ∧ s.hang = none ∧ s.strg.readySent = true ∧
      s.strg.sentRec = some (rec1 0 d 1 0) ∧ 1 < p.group ∧ s.phase ≠ 2 ∧ s.rf oRstJob 61 61 = 0 ∧ isPhaseOne (rec1 0 d 1 0) = isPhaseOne (rec1 0 d 2 0) ∧
      isPhaseOne (rec1 0 d 2 0) = (d == 1) ∧ (rec1 0 d 2 0).step = j1.n ∧ wordOk (rec1 0 d 2 0).norm2 = true ∧ wordOk (BitVec.allOnes 640) = false ∧ (rec1 0 d 2 0).veto = 0 ∧
      (rec1 0 d 2 0).epoch.toNat = p.epoch ∧ (rec1 0 d 2 0).devices.toNat = p.group ∧ (rec1 0 d 1 0).devices.toNat ≠ p.group ∧ (rec1 4 d 2 0).veto ≠ 0 ∧ s.job.settle = none ∧
      (∀ e ∈ s.held p, e.rule ≠ 3) ∧ isPhaseOne (rec1 0 (1 - d) 2 0) ≠ isPhaseOne (rec1 0 d 1 0)) := by revert d; decide +kernel
theorem hyps_Commit :
    (let s := sRd 0 1 (some (rec1 0 0 1 0)); let p := pS 0; p.round = none ∧ p.variants ≤ 1 ∧ s.replay.on = false ∧ s.replay.resets = [] ∧ s.job.runWait = none ∧ s.MemoryOk ∧
      s.bad = [] ∧ s.strg.outerDone = [] ∧ s.taken? j1.tag = some (tq 0x0202 []) ∧ p.commitRec + 8192 ≤ hostWin ∧ s.coldRows p false = [] ∧ (tq 0x0202 []).silent = false) := by
  unfold State.MemoryOk; decide +kernel
theorem hyps_VetoFrame :
    (let s := sRd 0 0 none; s.hang = none ∧ s.job.prog = some (pS 0) ∧ (9 : BitVec 20).toNat ≠ s.self ∧ j1.n = 1 ∧ j1.n ≠ 2 ∧ s.phase ≠ 2 ∧ s.rf oRstJob 61 61 = 0) ∧
    (setRegs (sRd 0 0 none) [(oCommitState, 1, 0, 2)]).phase = 2 ∧
    (let s : State := { job := { prog := some (pS 0), queue := [j1] } }; s.job.running = none ∧ ∃ rest, s.job.queue = j1 :: rest) ∧
    (let s : State := { job := { prog := some (pS 0) } }; s.job.running = none ∧ s.job.queue = [] ∧ (1 : Word).toNat = s.committed + 1 ∧ (5 : Word).toNat ≠ s.committed + 1 ∧
      (9 : BitVec 20).toNat ≠ s.self) := by
  refine ⟨by decide +kernel, by decide +kernel, ⟨rfl, [], rfl⟩, by decide +kernel⟩
/-- A device in PHASE 1 that has asked devices 7 and 9 about step 1. -/
def sQu (answered : List Nat) : State :=
  setRegs { sSm 0 { merged := [rec1 0 0 2 0], query := some { step := 1, members := [7, 9], answered := answered } } with
    mbx := { taken := [tq 0x0201 []] }, job := { prog := some (pS 0), runWait := some 5 } } [(oCommitState, 1, 0, 1)]
theorem hyps_CommitQuery :
    (let s := sQu [7]; s.strg.merged = [rec1 0 0 2 0] ∧ (rec1 0 0 2 0).step = 1 ∧ (∀ r ∈ s.strg.merged, r.step ≠ 2) ∧
      s.strg.query = some { step := 1, members := [7, 9], answered := [7] } ∧ s.job.prog = some (pS 0) ∧ (9 : BitVec 20).toNat ∈ [7, 9] ∧ (9 : BitVec 20).toNat ∉ [7] ∧
      (8 : BitVec 20).toNat ∉ [7, 9] ∧ (7 : BitVec 20).toNat ∈ [7] ∧ (∀ m ∈ [7, 9], m = (9 : BitVec 20).toNat ∨ m ∈ [7]) ∧ s.job.settle = none ∧ s.job.staged = none ∧
      recPasses (pS 0) 1 (rec1 0 0 2 0) = true ∧ isPhaseOne (rec1 0 0 2 0) = false ∧ wordOk (rec1 0 0 2 0).norm2 = true ∧ s.job.runWait = some 5 ∧
      s.taken? 5 = some (tq 0x0201 [])) ∧
    (∃ m ∈ [7, 9], m ≠ (9 : BitVec 20).toNat ∧ m ∉ ([] : List Nat)) ∧ ({} : State).strg.query = none := by decide +kernel
/-- The mirror's entry of one element in a pair state, with a region. -/
def sMd (st : Nat) (g : Strg) : State :=
  setRegs { ddrBytes := 2 ^ 40, job := { prog := some (pS 0) }, strg := g, mirror := { region := ddrBase + 0x100000000, regionBytes := 1048576, map := [en1] } }
    [(oMir, 63, 61, st), (oMir, 39, 20, 9)]
/-- The message of its shard. -/
def msg1 : Bytes := match ({ ddrBytes := 2 ^ 40 } : State).mirrorMsg (pS 0) (ho 0) 0 0 0 7 with | .ok m => m | .error _ => []
theorem hyps_MirrorData :
    (let s := sMd 2 {}; let h := s.mirror.homeIn 0 en1; s.mirroring = true ∧ mirrorOk s.mirror.map [1] = false ∧ s.mirState = 2 ∧ mirrorOk s.mirror.map msg1 = true ∧
      rd 16 4 msg1 = 0 ∧ rd 20 4 msg1 = 0 ∧ s.mirror.map[0]? = some en1 ∧ s.MemoryOk ∧ s.bad = [] ∧ h.tot + 4 ≤ hostWin ∧ s.mirror.tagAddr 0 0 + 32 ≤ hostWin ∧
      h.mas + 262144 * (0 + 1) ≤ hostWin ∧ h.mom + 262144 * (0 + 1) ≤ hostWin) ∧ (sMd 4 {}).mirroring = false := by unfold State.MemoryOk; decide +kernel
theorem hyps_MirrorAck :
    (let s := sMd 2 { mirrored := [(0, 0)], restream := [(0, 0)], digC := [(pairKey 0 0, 7)] }
     s.job.prog = some (pS 0) ∧ (pS 0).smap[0]? = some en1 ∧ en1.shards ≤ 1 ∧ 0 < en1.shards ∧ s.mirState = 2 ∧ s.mirroring = true ∧
      (0 : Word).toNat = s.mirrorStep (0, 0) ∧ (5 : Word).toNat ≠ s.mirrorStep (0, 0) ∧ s.job.running = none ∧ s.home (pS 0) 0 s.committed = some (ho 0) ∧
      SMap.get? s.strg.digC (pairKey 0 0) = some 7 ∧ s.strg.restream = [(0, 0)] ∧ (s.txOf s.partner mirrorStream).held = [] ∧ s.committed = 0) ∧
    (sMd 2 { mirrored := [(0, 0)], restream := [(0, 0)], digC := [(pairKey 0 0, 7)] }).mirrorMsg (pS 0) (ho 0) 0 0 0 7 = .ok msg1 ∧ ({} : State).job.prog = none := by
  refine ⟨by decide +kernel, ?_, rfl⟩
  have h : ((sMd 2 { mirrored := [(0, 0)], restream := [(0, 0)], digC := [(pairKey 0 0, 7)] }).mirrorMsg (pS 0) (ho 0) 0 0 0 7).toOption = some msg1 := by decide +kernel
  cases e : (sMd 2 { mirrored := [(0, 0)], restream := [(0, 0)], digC := [(pairKey 0 0, 7)] }).mirrorMsg (pS 0) (ho 0) 0 0 0 7 with
  | ok m => rw [e] at h; exact congrArg Except.ok (Option.some.inj h)
  | error x => rw [e] at h; exact absurd h (by simp [Except.toOption])
/-- A programme with one cold row, whose write-back is due, and the row's arrays in its staging place. -/
def enC : SEntry := { en1 with cold := true, coldBase := ddrBase + 0x200000000, rowsTotal := 1 }
/-- The state with it; a close may be due. -/
def sWb (close : Option Nat) : State :=
  { ddrBytes := 2 ^ 40, job := { prog := some { pS 0 with smap := [enC] } }, strg := { writeback := [(0, 0, 3)], closeDue := close } }
theorem hyps_Writeback (c : Bool) :
    (let s := sWb (if c then some 3 else none); let h := enC.home 1; s.job.prog = some { pS 0 with smap := [enC] } ∧ s.strg.writeback = [(0, 0, 3)] ∧
      (∀ x ∈ s.strg.closeDue, 3 ≤ x) ∧ s.home { pS 0 with smap := [enC] } 0 3 = some h ∧ 1 = max h.e.rowLen 1 ∧ h.e.coldBase + 20 * h.e.count ≤ hostWin ∧
      s.MemoryOk ∧ s.bad = [] ∧ (∀ a, a < 5 → (s.read32 (h.arr a + 4 * (0 * 1)) 1).toOption = some [0]) ∧ 0 * 1 + 1 ≤ h.e.count ∧
      (∀ a, a < 5 → s.reach (h.e.coldBase + 4 * (a * h.e.count + 0 * 1)) (4 * 1) = true) ∧
      (∀ a, a < 5 → ∀ b, b < 5 → h.arr b + 4 * (0 * 1) + 4 * 1 ≤ h.e.coldBase + 4 * (a * h.e.count + 0 * 1) ∨
        h.e.coldBase + 4 * (a * h.e.count + 0 * 1) + 4 * 1 ≤ h.arr b + 4 * (0 * 1))) ∧ ({} : State).strg.writeback = [] ∧
    (let s := sWb (some 2); s.strg.closeDue = some 2 ∧ ∀ x ∈ s.strg.writeback, 2 < x.2.2) := by
  unfold State.MemoryOk; revert c; decide +kernel
/-- After step 10 of a programme with rounds: the close is due and the partner behind address 7 takes the one parameter. -/
def sOc : State :=
  { sB { peer1 with rx := none } with
    ddrBytes := 2 ^ 40, job := { prog := some pR }, strg := { closeDue := some 10 },
    rounds := { peers := [{ peer1 with rx := none }], map := [{ first := 0, count := 1, site := 2, mac0 := 7, mac1 := 8 }] } }
theorem hyps_OuterClose :
    (let s := sOc; s.strg.closeDue = some 10 ∧ s.job.prog = some pR ∧ pR.round = some cfg0 ∧ s.rounds.nextMap = none ∧
      (match s.closeRuns pR 10 with | .ok runs => (match s.roundStreams pR 10 runs with
         | .ok [(mac, b)] => decide (mac = 7 ∧ s.rounds.storeUsed + b.length ≤ s.storeBytes) | _ => false) | _ => false) = true ∧
      s.replay.on = false ∧ s.job.running = none ∧ s.peer? 7 = some { peer1 with rx := none } ∧ s.canSeal { peer1 with rx := none } = false ∧
      s.rounds.joinReqs = 0 ∧ s.rounds.full = []) ∧ ({} : State).strg.closeDue = none := by decide +kernel
/-- A PERMUTE entry: incoming (1) or not, its phase and its place, 64 bytes with device 9. -/
def peB (inc phase loc : Nat) : Bytes :=
  le 8 (6 * 2 ^ 56 + inc * 2 ^ 49 + 2 ^ 32) ++ zeros 8 ++ le 8 (phase * 2 ^ 32 + 64) ++ le 8 loc ++ le 8 9 ++ le 8 (0xFFFF * 2 ^ 48) ++ le 8 (2 ^ 40 + 2) ++ le 8 0x3000
/-- A re-shard plan of epoch 1. -/
def rpB (ops : List Bytes) : Bytes := le 4 0x4E4C504A ++ [1, 0] ++ le 2 1 ++ le 4 ops.length ++ zeros 52 ++ ops.flatten
/-- LAYOUT at commit 0 with a plan in host memory and a staged image that reaches device 9. -/
def sLo (plan : Bytes) (queue : List StepJob) : State :=
  { ts 0x0701 (le 8 0 ++ le 8 0x10000 ++ le 8 plan.length) with
    hostMem := cellsWrite hostDflt [] 0x10000 plan, job := { prog := some pR, staged := some { pR with route := pGroup.route }, queue := queue } }
theorem hyps_Layout :
    (let b := rpB [peB 0 0 0x1000, peB 1 1 0x2000]; let s := sLo b []; let p := { pR with route := pGroup.route }
     Runs s 5 0x0701 (tq 0x0701 (le 8 0 ++ le 8 0x10000 ++ le 8 b.length)) ∧ s.reshard = none ∧ s.restore = none ∧ s.job.staged = some p ∧ s.job.running = none ∧
      0 = s.committed ∧ s.hostGet 0x10000 b.length = b ∧ planBytes (s.hostGet 0x10000 64) = b.length ∧ checkPlan p 1 (fun x => rtValid (p.route.entry x)) b = [] ∧
      planOrdered (mkPlan b) = true ∧ s.job.queue = []) ∧
    (let b := rpB [peB 0 0 0x1000, peB 1 0 0x1000]; checkPlan { pR with route := pGroup.route } 1 (fun x => rtValid (({ pR with route := pGroup.route } : Prog).route.entry x)) b = [] ∧
      planOrdered (mkPlan b) = false) ∧
    (let b := rpB [peB 0 0 0x1000 ++ [0]]; ∃ st rest, checkPlan pR 1 (fun x => rtValid (pR.route.entry x)) b = st :: rest ∧ ∀ x ∈ rest, st ≤ x) ∧
    (let s := sLo [] [{ j1 with tag := 4 }]; let s := { s with mbx := { taken := s.mbx.taken ++ [{ tq 0x0601 [] with tag := 4 }] } }
     s.taken? 4 = some { tq 0x0601 [] with tag := 4 } ∧ (4 : BitVec 32) ≠ 5 ∧ ({ tq 0x0601 [] with tag := 4 } : Taken).silent = false) := by
  refine ⟨?_, by decide +kernel, ⟨stPlan, [], by decide +kernel, by simp⟩, by decide +kernel⟩
  unfold Runs; decide +kernel
/-- A re-shard with an outgoing entry of phase 0 and an incoming one of phase 1. -/
def sPm (started : Bool) (phase : Nat) (done : List Nat) : State :=
  { sLo (rpB [peB 0 0 0x1000, peB 1 1 0x2000]) [] with
    reshard := some { tag := 5, commit := 0, plan := mkPlan (rpB [peB 0 0 0x1000, peB 1 1 0x2000]), started := started, phase := phase, done := done } }
theorem hyps_Permutation :
    (let s := sPm false 0 []; s.reshard.isSome = true ∧ s.job.running = none ∧ s.phase = 0 ∧ s.strg.closeDue = none ∧ s.strg.writeback = []) ∧
    (let s := sPm true 1 []; ∃ r o i, s.reshard = some r ∧ r.early = [] ∧ r.started = true ∧ r.plan.ops[0]? = some o ∧ r.plan.ops[1]? = some i ∧ o.typ = 6 ∧ i.typ = 6 ∧ 0 ∉ r.done ∧
      o.phaseOf ≤ r.phase ∧ i.phaseOf ≤ r.phase ∧ o.incoming = false ∧ i.incoming = true ∧ s.triggered o 0 = true ∧ (s.load o.loc o.count).toOption = some (zeros 64) ∧
      s.unackedOp (permKey 0) none = false ∧
      (zeros 64).length = i.count ∧ (s.store i.loc (zeros 64)).2.isNone = true ∧ s.MemoryOk ∧ s.taken? r.tag = some (tq 0x0701 (le 8 0 ++ le 8 0x10000 ++ le 8 192)) ∧
      r.plan.ops[5]? = none) ∧
    (let s := sPm true 0 [0]; ∃ r i, s.reshard = some r ∧ r.early = [] ∧ 0 ∈ r.done ∧ 1 ∉ r.done ∧ r.plan.ops[1]? = some i ∧ i.incoming = true ∧ r.phase < i.phaseOf) := by
  unfold State.MemoryOk
  refine ⟨by decide +kernel, ⟨_, _, _, rfl, rfl, rfl, rfl, rfl, ?_⟩, ⟨_, _, rfl, rfl, ?_, ?_, rfl, ?_⟩⟩ <;> decide +kernel
/-- A permutation with one incoming entry, which arrived before it began. -/
def sEarly : State :=
  { sLo (rpB [peB 1 0 0x2000]) [] with reshard := some { tag := 5, commit := 0, plan := mkPlan (rpB [peB 1 0 0x2000]), early := [(0, zeros 64)] } }
theorem hyps_Permutation_early :
    (let s := sEarly; ∃ r o, s.reshard = some r ∧ r.early = [(0, zeros 64)] ∧ r.plan.ops[0]? = some o ∧ 0 ∉ r.done ∧ s.triggered o 0 = true ∧ o.phaseOf ≤ 255 ∧
      (∀ y ∈ r.plan.ops, (y.typ = 6 ∨ y.typ = 7 ∧ y.arg % 256 = 3) → o.phaseOf ≤ y.phaseOf) ∧ (s.store o.loc (zeros 64)).2 = none ∧ s.MemoryOk ∧ r.started = false ∧
      s.job.running = none ∧ s.phase = 0) := by
  unfold State.MemoryOk; refine ⟨_, _, rfl, rfl, rfl, ?_⟩; decide +kernel
/-- The frames of the outgoing entry have gone and await their acknowledgement. -/
def sPmSent : State := { sPm true 0 [] with fabric := { tx := [{ dest := 9, stream := 1, next := 1, held := [(0, permKey 0, 0, [])] }] } }
theorem hyps_Permutation_sack :
    (let s := sPmSent; let x := s.txOf 9 1; ∃ r o, s.reshard = some r ∧ r.early = [] ∧ r.plan.ops[0]? = some o ∧ o.typ = 6 ∧ o.incoming = false ∧ o.peer = 9 ∧
      o.stream = 1 ∧ 0 ∉ r.done ∧ (1 : Word) ≤ x.next ∧ (∃ h ∈ x.held, h.1 < 1) ∧ (∀ h ∈ x.held, h.1 < 1 → (h.2.1, h.2.2.1) = (permKey 0, 0)) ∧
      (s.setTx { x with held := x.held.filter (fun h => !decide (h.1 < 1)), resends := 0 }).unackedOp (permKey 0) (some 0) = false) := by
  refine ⟨_, _, rfl, rfl, rfl, ?_⟩; decide +kernel
theorem hyps_Permutation_deltas :
    (let s := sPm true 1 []; run0 ≠ [] ∧ run0.length = runLen run0 ∧ s.rounds.storeUsed + run0.length ≤ s.storeBytes ∧ (1 : Word) ∉ s.rounds.full ∧
      (∀ d ∈ s.rounds.rx, (d.site, d.round, d.mac) ≠ (2, 1, movedMac))) := by decide +kernel
/-- An ALLRED entry of a record kind with a parent and the child 9. -/
def oAr (kind peer : Nat) : PlanOp := { po 7 kind peer 0 0 with listN := 1 }
/-- A running step of a programme with that entry, which stands at what is given. -/
def sAr (o : PlanOp) (x : AllredSt) : State :=
  { job := { prog := some { pO o with plan := { epoch := 1, ops := [o], area := le 4 9 } }, running := some j1 },
    strg := { readySent := true, sentRec := some (rec1 0 0 1 0), r3mine := [(1, { cols := [], tot := {}, got := 1 })] }, jug := { allred := [(0, x)] } }
/-- RULE 3 sums of the tensor, whole or with a spoilt residue. -/
def r3R (ok : Bool) : AllredRec := .rule3 1 [] (if ok then 0 else BitVec.allOnes 640)
theorem hyps_Allred (k : Fin 2) :
    (let o := oAr (2 * k) 7; let s := sAr o {}; let pl : Plan := { epoch := 1, ops := [o], area := le 4 9 }; let r : AllredRec := if k = 0 then .ready (rec1 0 0 1 0) else r3R true
     s.redPlan = some pl ∧ pl.ops[0]? = some o ∧ s.hang = none ∧ SMap.get s.jug.allred 0 {} = {} ∧ o.typ = 7 ∧ s.rf oRstJob 61 61 = 0 ∧ (s.ownRecord o).isSome = true ∧
      recKind o r = true ∧ BitVec.toNat (9 : BitVec 20) ∈ pl.listOf o ∧ recWordsOk r = true ∧ o.peer ≠ 0xFFFFF ∧ ([] : List Nat).length < (pl.listOf o).length ∧
      (pl.listOf o).length ≤ ([9] : List Nat).length ∧ (pl.listOf o).length ≤ ([] : List Nat).length + 1) := by revert k; decide +kernel
theorem hyps_Allred_stops :
    (po 6 0 9 0 0).typ ≠ 7 ∧ (setRegs (sAr (oAr 1 7) {}) [(oRstJob, 61, 61, 1)]).rf oRstJob 61 61 = 1 ∧ (sAr (oAr 3 7) {}).ownRecord (oAr 3 7) = none ∧
    recKind (oAr 0 7) (r3R true) = false ∧ recKind (oAr 2 7) (r3R false) = true ∧ recWordsOk (r3R false) = false ∧
    (let s : State := { sAr (oAr 2 7) {} with job := { prog := (sAr (oAr 2 7) {}).job.prog } }; s.job.running = none ∧ s.redPlan.isSome = true) := by decide +kernel
theorem hyps_Allred_buffer (k : Fin 2) :
    (let o := oAr (2 * k) 7; let s := sAr o {}; ∀ r ∈ [AllredRec.ready (rec1 0 0 1 0), r3R true], Buffered s o r) := by
  unfold Buffered State.MemoryOk; revert k; decide +kernel
/-- At the root the last record that is missing merges, a child's or the device's own. -/
def sRoot (own : Bool) : State :=
  sAr (oAr 2 0xFFFFF) { own := !own, kids := if own then [9] else [], rec_ := some (r3R true) }
theorem hyps_Allred_root (own : Bool) :
    (let o := oAr 2 0xFFFFF; let s := sRoot own; ∃ pl e c v, s.redPlan = some pl ∧ pl.ops[0]? = some o ∧ o.typ = 7 ∧ s.rf oRstJob 61 61 = 0 ∧ s.hang = none ∧
      recKind o (.rule3 e c v) = true ∧ recWordsOk (.rule3 e c v) = true ∧ Buffered s o (.rule3 e c v) ∧
      Ends s pl o (SMap.get s.jug.allred 0 {}) (if own then .own else .child 9 (r3R true)) (.rule3 e c v)) := by
  unfold Buffered State.MemoryOk Ends
  cases own
  · refine ⟨_, 1, [], wordOfAcc ((accOfWord 0).merge (accOfWord 0)), rfl, rfl, ?_, ?_, ?_, ?_, ?_, ?_, Or.inr ⟨rfl, rfl, Or.inr ⟨9, r3R true, rfl, rfl, ?_, ?_, ?_, ?_, ?_, rfl⟩⟩⟩ <;>
      decide +kernel
  · refine ⟨_, 1, [], wordOfAcc ((accOfWord 0).merge (accOfWord (wordOfAcc {}))), rfl, rfl, ?_, ?_, ?_, ?_, ?_, ?_, Or.inr ⟨rfl, rfl, Or.inl ⟨.rule3 1 [] (wordOfAcc {}), rfl, rfl, ?_, ?_, ?_, rfl⟩⟩⟩ <;>
      decide +kernel
theorem hyps_Allred_rule3 :
    (let o := oAr 2 7; let s := sAr o { own := true, kids := [9], rec_ := some (r3R true), sent := true }
     ∃ pl, s.redPlan = some pl ∧ Ends s pl o (SMap.get s.jug.allred 0 {}) (.final (r3R true)) (r3R true) ∧ Buffered s o (r3R true)) ∧
    (let o := oAr 2 7; let s := sAr o { own := true, kids := [9], rec_ := some (r3R true), sent := true }; ∃ p, s.job.running = some j1 ∧ s.job.prog = some p ∧
      recKind o (r3R true) = true ∧ SMap.get? s.strg.r3 1 = none ∧ (∀ y ∈ s.held p, y.rule = 3 → y.tensor ≠ 1) ∧ s.mirroring = false) := by
  unfold Buffered State.MemoryOk
  refine ⟨⟨_, rfl, Or.inl ⟨rfl, ?_, rfl, rfl⟩, ?_⟩, ⟨_, rfl, rfl, ?_⟩⟩ <;> decide +kernel
/-- A permutation whose ALLRED of phase 0 has everything in, with or without a later phase; or a restore. -/
def sCp (later : Bool) (re : Bool) : State :=
  let o := oAr 3 7
  let pl : Plan := { kind := 1, epoch := 1, ops := [o] ++ (if later then [{ po 6 1 9 0 0 with count := 64 }] else []), area := le 4 9 }
  { ts 0x0701 [] with job := { prog := some { pO o with plan := pl }, staged := some pR, noStep := re },
                      jug := { allred := [(0, { own := true, kids := [9], rec_ := some (.completion 0 2), sent := true })] },
                      reshard := if re then none else some { tag := 5, commit := 0, plan := pl, started := true },
                      restore := if re then some { tag := 5, step := 7, left := [] } else none }
theorem hyps_Allred_completion_ends (later re : Bool) :
    (let s := sCp later re; ∃ pl, s.redPlan = some pl ∧ Ends s pl (oAr 3 7) (SMap.get s.jug.allred 0 {}) (.final (.completion 0 2)) (.completion 0 2) ∧
      Buffered s (oAr 3 7) (.completion 0 2)) := by
  unfold Buffered State.MemoryOk
  cases later <;> cases re <;> refine ⟨_, rfl, Or.inl ⟨rfl, ?_, rfl, rfl⟩, ?_⟩ <;> decide +kernel
theorem hyps_Allred_completion :
    recKind (oAr 3 7) (.completion 0 2) = true ∧
    (let s := sCp true false; ∃ q, s.reshard = some q ∧ q.early = [] ∧ s.job.running = none ∧ (∃ y ∈ q.plan.ops, (y.typ = 6 ∨ y.typ = 7 ∧ y.arg % 256 = 3) ∧ y.phaseOf = 1) ∧
      (oAr 3 7).phaseOf < 1 ∧ (∀ y ∈ q.plan.ops, (y.typ = 6 ∨ y.typ = 7 ∧ y.arg % 256 = 3) → (oAr 3 7).phaseOf < y.phaseOf → 1 ≤ y.phaseOf)) ∧
    (let s := sCp false false; ∃ q, s.reshard = some q ∧ (∀ y ∈ q.plan.ops, (y.typ = 6 ∨ y.typ = 7 ∧ y.arg % 256 = 3) → y.phaseOf ≤ (oAr 3 7).phaseOf) ∧
      s.job.staged = some pR ∧ s.taken? q.tag = some (tq 0x0701 []) ∧ s.mirState ≠ 2 ∧ s.rounds.nextMap = none ∧ (tq 0x0701 []).silent = false) ∧
    (let s := sCp false true; s.job.running = none ∧ s.reshard = none ∧ ∃ v, s.restore = some v ∧ s.taken? v.tag = some (tq 0x0701 [])) := by
  refine ⟨by decide +kernel, ⟨_, rfl, rfl, ?_⟩, ⟨_, rfl, ?_⟩, rfl, rfl, ⟨_, rfl, ?_⟩⟩ <;> decide +kernel
/-- A programme that owns one parameter. -/
def pL : Prog := { p1 with smap := [en1], plan := { epoch := 1, ops := [po 2 3 0xFFFFF 0 0] } }
/-- A replayed step whose manifest lists a delta that the device does not hold. -/
def sLack (waiting : Bool) : State :=
  { sRel pL hash4 with replay := { on := true, waiting := waiting }, rounds := { applied := false, sealed_ := some { man1 1 with step := 1 } } }
theorem hyps_StepRelease_lacks (w : Bool) :
    (let s := sLack w; let j : StepJob := { tag := 5, n := 1, desc := desc1 1 hash4 }
     s.releaseHeld pL j = false ∧ s.batchOk pL j.desc = true ∧ s.importsLack j.n.toNat = true ∧ s.replay.waiting = w) := by revert w; decide +kernel

/-! ### Further clauses of the statements above -/

theorem hyps_EveryStepKeepsMemoryCanonical_b : cellsWf bar4Dflt State.reset.bar4 = true := by decide
theorem hyps_HostRegisterWritesFollowTheMap_b :
    ({} : State).inReset = false ∧ cellsWf bar4Dflt ({} : State).bar4 = true ∧ ({} : State).dozingAt oCalMark = false ∧ oCalMark < 0x2000000 ∧
    regKind oCalMark = some .calMark ∧ RegKind.calMark ∉ [.mbxReq, .mbxCpl, .intMask, .rstCtl, .rstHang, .rstJob, .hostBase, .hostSize, .calCursor, .bjnCtl, .timeCtl] ∧
    (let s := setRegs {} [(oCalCtl, 39, 16, 1), (oCalWrite, 63, 0, 1024)]; s.recReached = true ∧ ({} : State).recReached = false) ∧
    ({} : State).msixMasked 3 = true ∧ (let s : State := { bar4 := [(60, 0)] }; cellsWf bar4Dflt s.bar4 = true ∧ s.msixMasked 3 = false) := by decide +kernel
theorem hyps_CalliopeNumbersKeepsAndFlushesRecords_b :
    ({} : State).recording = false ∧
    (let s : State := { fw := { up := true }, cal := { queues := [(queueOf 0x1000001, [rec0])] } }
     s.recording = true ∧ SMap.get s.cal.queues (queueOf (0x1000001 : BitVec 32).toNat) [] = rec0 :: []) := by decide +kernel
theorem hyps_AlarmsEraseKeysAndEntropyStopsEngines_b :
    ({} : State).cal.pend = none ∧ ({} : State).restore = none ∧
    (let s : State := { ts 0x0E02 [] with restore := some { tag := 5, step := 1, left := [] } }
     s.restore = some { tag := 5, step := 1, left := [] } ∧ s.taken? 5 = some (tq 0x0E02 [])) := by decide +kernel
theorem hyps_TimingUnitSetsLocksAndHolds_b :
    (let s := setRegs { time := { stepped := true } } [(oTimeStatus, 63, 61, 1), (oTimeStatus, 60, 55, 4)]; s.timeState = 1 ∧ s.time.stepped = true ∧ s.timeChan < 32) ∧
    (let s := setRegs (ts 0x0D02 ([2] ++ zeros 7)) [(oTimeStatus, 63, 61, 3), (oChan 2, 63, 61, 2), (oChan 2, 60, 57, 1)]
     Runs s 5 0x0D02 (tq 0x0D02 ([2] ++ zeros 7)) ∧ s.timeState = 3 ∧ s.rf (oChan (rd 0 1 ([2] ++ zeros 7))) 63 61 = 2) ∧
    (let s := setRegs {} [(oTimeStatus, 63, 61, 3), (oClk, 60, 60, 1)]; s.timeState = 3 ∧ s.rf oClk 60 60 = 1 ∧ ({} : State).rf oClk 60 60 = 0) := by
  unfold Runs; decide +kernel
theorem hyps_UnitResetsClearAndEscalate_b :
    (let s : State := { pwr := { resets := [(true, 122), (false, 3)] } }
     (true, (122 : BitVec 17).toNat) ∈ s.pwr.resets ∧ (false, (3 : BitVec 17).toNat) ∈ s.pwr.resets ∧ s.MemoryOk ∧ s.cluFenced (3 : BitVec 17).toNat = false ∧
     (true, (3 : BitVec 17).toNat) ∉ s.pwr.resets ∧ s.rf oRstStatus 63 60 ≠ 2 ∧ s.cal.flush = none ∧ s.cal.pend = none) ∧
    sStep.stepClusters = [3] := by unfold State.MemoryOk; decide +kernel
theorem hyps_RestartsAbortCommandsAndFailedStartsCount_b :
    (let s : State := { fw := { up := true }, restore := some { tag := 5, step := 1, left := [] } }
     s.fw.side = false ∧ s.fw.up = true ∧ s.restore.isSome = true ∧ s.cal.pend = none) := by decide +kernel
/-- A recovery that has judged context 2, whose descriptor names core 4 of cluster 3. -/
def sHang (v : Nat) : State := { hang := some { cluster := 3, susp := [{ ctx := 2, desc := 0, unit := 4, start := 0, verdict := some v }] } }
theorem hyps_HangRecoveryJudgesAndRewindsNameTheStep_b :
    (sHang 1).hang.isSome = true ∧ 1999 < (2000 : BitVec 11).toNat ∧
    (let s := setRegs {} [(oCtxState 3, 7, 0, 1)]; s.hang = none ∧ s.ctxState 3 0 = 1 ∧ (∀ k, k < 8 → s.rf (oCkpt 3 k) 47 0 = 0)) ∧
    (let h : Hang := { cluster := 3, susp := [{ ctx := 2, desc := 0, unit := 4, start := 0, verdict := some 1 }] }
     (sHang 1).hang = some h ∧ h.cur = none ∧ (∀ x ∈ h.susp, x.verdict = some 1 → ∀ y ∈ [((2 : CtxNo), true)], y.1.val = x.ctx → y.2 = true) ∧
      (sHang 1).job.settle = none ∧ (sHang 1).job.running = none ∧
      (∀ x ∈ h.susp, x.verdict = some 1 ∧ (∃ y ∈ [((2 : CtxNo), false)], y.1.val = x.ctx ∧ y.2 = false) ∧ h.cluster < 2000 ∧ x.unit < 40)) ∧
    ((sHang 1).hang ≠ none ∧ (sHang 1).phase ≠ 1) ∧
    (let s := setRegs {} [(oCommitState, 1, 0, 1)]; s.phase = 1 ∧ s.job.prog = none ∧ s.hang = none) := by decide +kernel
theorem hyps_Rewind_asks :
    (let s := setRegs { job := { prog := some pGroup } } [(oCommitState, 1, 0, 1)]
     s.phase = 1 ∧ s.strg.query = none ∧ s.job.prog = some pGroup ∧ ∃ a ∈ pGroup.groupMembers, rtValid (pGroup.route.entry a) = true) := by decide +kernel
theorem hyps_CapsClocksAndDipsActOnTheDevice_b :
    (let s := setRegs {} [(oPwrStatus, 63, 60, 2)]; s.fw.up = false ∧ max s.pwr.capLevel s.pwr.thermLevel < s.rf oPwrStatus 63 60) ∧
    (((0 : Fin 5) ≠ 1 ∧ (0 : Fin 5) ≠ 2) ∨ false = true) := by decide +kernel
/-- A cluster that wakes with one thing waiting at its stop. -/
def sStop (x : Waiting) : State := { clus := [(3, { power := 4, stop := [x] })] }
theorem hyps_ClustersAndRingsNapDozeAndWake_b :
    ({} : State).mayNap (3 : GClu).val = false ∧ ((sStop (.count 5 1)).clu (3 : GClu).val).power = 4 ∧ ((sStop (.count 5 1)).clu (3 : GClu).val).stop = [.count 5 1] ∧
    (let s := sStop (.write (cluAddr 3 8) [1]); (s.clu (3 : GClu).val).power = 4 ∧ (s.clu (3 : GClu).val).stop = [.write (cluAddr 3 8) [1]] ∧
      (s.store (cluAddr 3 8) [1]).2 = none ∧ s.MemoryOk) ∧
    ((State.clu { clus := [(3, { power := 4 })] } (3 : GClu).val).stop = []) ∧
    (let b : Bytes := [1, 2] ++ zeros 6; let p := { p0 with actE := [{ variant := 0, act := 0, role := 0, firstLayer := 0, layers := 1, clusters := [3] }] }
     let s : State := { ts 0x0C02 b with job := { prog := some p } }
     Runs s 5 0x0C02 (tq 0x0C02 b) ∧ p.rings = [0] ∧ (∀ r ∈ p.rings, r < 8 → bit r (rd 1 1 b) = false) ∧ s.job.staged = none ∧ s.MemoryOk) := by
  unfold Runs State.MemoryOk; decide +kernel
theorem hyps_FirmwareIsStagedFetchedActivatedAndCommitted_b :
    (let s : State := { ts 0x0202 [] with fw := { verified := some [] }, reshard := some { tag := 3, commit := 0, plan := {}, started := true } }
     Runs s 5 0x0202 (tq 0x0202 []) ∧ s.fw.verified = some [] ∧ s.reshard.any (·.started) = true) ∧
    (let s : State := { ts 0x0202 [] with fw := { verified := some [] }, reshard := some { tag := 3, commit := 0, plan := {} } }
     Runs s 5 0x0202 (tq 0x0202 []) ∧ s.reshard.any (·.started) = false ∧ s.restore = none ∧ s.fw.commit = none) ∧
    (let s : State := { ts 0x0203 [] with fw := { commit := some 5 } }; s.taken? 5 = some (tq 0x0203 []) ∧ s.fw.commit = some 5) := by unfold Runs; decide +kernel
theorem hyps_FwFetch_image :
    (let s := setRegs { ts 0x0205 [] with fw := { fetch := some 5 }, fabric := { rx := [{ src := 0, stream := 0xFFFF, next := 1 }] } } [(oSiteId, 27, 24, 2), (oPortStatus 2, 63, 62, 2)]
     s.fw.fetch = some 5 ∧ s.taken? 5 = some (tq 0x0205 []) ∧ s.mirrorUp = true ∧ s.fetched [1] = true) := by decide +kernel
theorem hyps_BootReleasesAnImageOrEntersSideshow_b :
    (let s : State := { fw := { activate := some 5, due := true }, job := { prog := some { p0 with gen := true } } }
     s.fw.activate.isSome = true ∧ s.fw.due = true ∧ s.fwState ≠ 3 ∧ s.job.prog.any (·.gen) = true ∧ s.job.running = none) ∧
    (let s : State := { fw := { activate := some 5, due := true }, job := { prog := some p0, running := some job1 } }
     s.fw.activate.isSome = true ∧ s.fw.due = true ∧ s.fwState ≠ 3 ∧ s.job.prog.any (·.gen) = false ∧ s.job.running.isSome = true) ∧
    (let ds : List Dimm := (List.range 12).map (fun c => { channel := c, slot := 0, gib := 64, org := 4, ranks := 2, mts := 4800, registered := true, ecc := true })
     let s : State := { fw := { starting := true }, dimms := ds }; s.fwState ≠ 3 ∧ s.fw.starting = true ∧ dimmFault s.dimms = none ∧
      dimmFault (ds.map (fun d => { d with ecc := false })) = some 0) := by decide +kernel
/-- MOUT, MSPILL or MRESUME over the Midway to cluster 1, which naps. -/
def sNapOut (o : Nat) : State := let s := su 0 [(0, 0, o), (1, 0, cluAddr 1 0), (3, 32, 1)]; { s with clus := s.clus ++ [(1, { power := 3 })] }
theorem hyps_Mout_naps (o : Fin 3) :
    AtHead (sNapOut (2 + o)) (0 / 40) (0 % 40) 0 (itm [(0, 0, 2 + o), (1, 0, cluAddr 1 0), (3, 32, 1)]) [] ∧
    (let s := sNapOut (2 + o); let ws := (itm [(0, 0, 2 + o), (1, 0, cluAddr 1 0), (3, 32, 1)]).words
     dOp ws ∈ [2, 3, 4] ∧ s.napping (fld ws 1 47 0) = some 1 ∧ (s.clu 1).power = 3 ∧ s.cluFenced 1 = false) := by
  unfold AtHead Plain; simp only [sNapOut, su]; revert o; decide +kernel
theorem hyps_Areas_b :
    (let s := su 0 (wMout 0 1); s.napping (fld (itm (wMout 0 1)).words 1 47 0) = none) ∧
    (let s := su 0 (wArea 3); let ws := (itm (wArea 3)).words; s.napping (fld ws 1 47 0) = none ∧ s.slotErr 0 false [0] = none) ∧
    (su 0 (wArea 4)).napping (fld (itm (wArea 4)).words 1 47 0) = none ∧ sCk.slotErr 0 false (ce 0 0 true).range = none ∧
    (sSw 0 0 []).slotErr 0 (ce 0 0 true).lx32 (ce 0 0 true).range = none := by decide +kernel
theorem hyps_Waits_at_a_napping_cluster (w : Fin 3) :
    (let s : State := { job := { prog := some (pQ true) }, clus := [(0, { power := 3 + w })] }
     (s.clu (0 : GClu)).power ∈ [3, 4, 5] ∧ s.cluFenced (0 : GClu) = false ∧ (s.clu q4.recvCluster).power ∈ [3, 4, 5] ∧ (xf 1).stepTag.toNat = s.tagNow) := by
  revert w; decide +kernel
theorem hyps_Scrubs_soft :
    (let g : GClu := 5; let s : State := { soft := [cluAddr 5 0] }; let a := cluAddr g (8 * (s.clu g).scrub)
     a ∉ s.bad ∧ s.softIn a 8 = [a] ∧ (s.clu g).scrub < 0x60000 ∧ ({} : State).softIn a 8 = []) := by decide +kernel
theorem hyps_Midway_sixteenth : 16 ≤ SMap.get ({ midRetry := [(3, 16)] } : State).midRetry 3 0 ∧ SMap.get ({ midRetry := [(3, 15)] } : State).midRetry 3 0 < 16 ∧
    ({} : State).serving (5 : GClu) (41 : Fin 44) = none := by decide +kernel
theorem hyps_RawRestorage_store :
    ((sSlow true).store dSlow.base (zeros 488)).2.isNone = true ∧ ((sSlow true).store dSlow.index (zeros 8)).2.isNone = true := by decide +kernel
theorem hyps_ProgLoad_reshard :
    (let s : State := { ts 0x0501 (le 8 0 ++ le 8 2 ++ [7]) with reshard := some { tag := 1, commit := 0, plan := {} } }
     Runs s 5 0x0501 (tq 0x0501 (le 8 0 ++ le 8 2 ++ [7])) ∧ s.reshard = some { tag := 1, commit := 0, plan := {} }) ∧
    (let s : State := { ts 0x0501 (le 8 0 ++ le 8 2 ++ [7]) with reshard := some { tag := 1, commit := 0, plan := {}, forced := true } }
     Runs s 5 0x0501 (tq 0x0501 (le 8 0 ++ le 8 2 ++ [7])) ∧ (∀ r ∈ s.reshard, r.forced = true)) := by unfold Runs; decide +kernel
theorem hyps_ProgRun_b :
    (let s := setRegs (sRun none false false) [(oPwrStatus, 44, 44, 1)]
     Runs s 5 0x0502 (tq 0x0502 []) ∧ s.job.runWait ≠ some 5 ∧ s.job.staged = some p1 ∧ s.reshard = none ∧ s.namesDozing p1 = true) ∧
    (let s := sRun (some { p0 with epoch := 2 }) false false; ∃ r, s.job.prog = some r ∧ s.namesDozing r = false ∧ r.epoch ≠ p1.epoch) ∧
    (let s : State := { ts 0x0502 [] with mbx := { taken := [{ tq 0x0601 [] with tag := 4 }, tq 0x0502 []] }, job := { staged := some p1 } }
     Runs s 5 0x0502 (tq 0x0502 []) ∧ s.namesDozing p1 = false ∧
      ∃ x ∈ s.mbx.taken.takeWhile (fun x => x.tag != 5), x.opcode = 0x0601 ∧ x.started = false) ∧
    (∀ x ∈ (sRun none false false).mbx.taken.takeWhile (fun x => x.tag != 5), x.opcode = 0x0601 → x.started = true) := by
  refine ⟨by unfold Runs; decide +kernel, ⟨_, rfl, by decide +kernel⟩, by unfold Runs; decide +kernel, by decide +kernel⟩
theorem hyps_StepRelease_b :
    (let s := setRegs (sRel p1 (zeros 32)) [(oCluFence 0 0, 3, 3, 1)]; let j : StepJob := { tag := 5, n := 1, desc := desc1 1 (zeros 32) }
     s.job.prog = some p1 ∧ s.job.queue = j :: [] ∧ s.releaseHeld p1 j = false ∧ s.namesFenced p1 = true ∧ s.taken? j.tag = some (tq 0x0601 [])) ∧
    (let j : StepJob := { tag := 5, n := 15, desc := [] }
     let s : State := { sRel pMax [] with job := { prog := some pMax, queue := [j], running := some job1 }, rounds := { open_ := some 1, applied := false } }
     s.releaseHeld pMax j = true ∧ s.atMax pMax j.n.toNat = true ∧ s.job.running.isSome = true) ∧
    (sRel p1 (zeros 32)).namesFenced p1 = false ∧ (sRel p1 hash4).namesFenced p1 = false ∧ (sRel (pGen true) []).namesFenced (pGen true) = false ∧
    (let s := setRegs { sSt (desc1 1 (zeros 32)) with job := { prog := some p0, staged := some p1 } } [(oCluFence 0 0, 3, 3, 1)]
     s.namesFenced p0 = false ∧ s.job.staged.any s.namesFenced = true) := by decide +kernel
theorem hyps_SnapRestore_b :
    (let s := sRest 0 8191 true 0; s.snapLength p0 0 0 = 8192 ∧ snapCount 8192 = 1) ∧
    (let b := snapB 1 0 8208; let s : State := { ts 0x0E02 b with job := { prog := some p0 } }; s.keys.snap = none ∧ snapForm b = true ∧
      s.snapLength p0 0 0 + 16 * snapCount (s.snapLength p0 0 0) ≤ rd 16 8 b) ∧
    (let s := sRest 0 8192 true 0; s.bad = [] ∧ p0.round = none) ∧ sPeers.job.running = none := by decide +kernel
/-- A snapshot in the clear of a programme without parameters, and the state that restores what a key sealed of it. -/
def xSnap : Bytes := le 4 0x504E535A ++ le 8 7 ++ [0, 1, 0, 0] ++ hash0 ++ zeros 8144
/-- SNAP_RESTORE of it, sealed under a key of zeros with SNAP_ID 0. -/
def sSealed : State :=
  { ts 0x0E02 (snapB 1 0 8208) with
    job := { prog := some p0 }, keys := { snap := some (zeros 32) }, hostMem := cellsWrite hostDflt [] 0x10000 (sealSnap (zeros 32) 0 xSnap) }
theorem keys0 : ((aesKeys (zeros 32)).getD 14 []).length = 16 := by decide +kernel
theorem hyps_SnapRestore_sealed :
    Runs sSealed 5 0x0E02 (tq 0x0E02 (snapB 1 0 8208)) ∧ sSealed.keys.snap = some (zeros 32) ∧ sSealed.noEntropy = false ∧
    openSnap (zeros 32) 0 1 1 0 (sSealed.hostGet 0x10000 (8192 + 16 * 1)) = (xSnap, true) ∧ xSnap ≠ [] ∧ snapMatches p0 0 xSnap = true := by
  have l : xSnap.length = 8192 := by decide +kernel
  have n : xSnap ≠ [] := by intro e; rw [e] at l; cases l
  have h := openSnap_seal (zeros 32) 0 xSnap keys0 n (by rw [l]; decide)
  refine ⟨⟨rfl, rfl, rfl, rfl, rfl, rfl, by decide +kernel⟩, rfl, rfl, ?_, n, by decide +kernel⟩
  rw [hostGet_written (s := sSealed) rfl (by rw [h.2, l])]; exact h.1
/-- The same with another tag behind the text. -/
def sBadTag : State :=
  { sSealed with hostMem := cellsWrite hostDflt [] 0x10000 (xSnap ++ (gcmTag (aesKeys (zeros 32)) ((snapIv 0 0).map BitVec.toNat) (le 8 1) xSnap).map (· ^^^ 1)) }
theorem flip1 : ∀ x : Byte, x ^^^ 1 ≠ x := by decide
theorem hyps_SnapRestore_unopened : openSnap (zeros 32) 0 1 1 0 (sBadTag.hostGet 0x10000 (8192 + 16 * 1)) = ([], false) := by
  have l : xSnap.length = 8192 := by decide +kernel
  have g := gcmTag_length (aesKeys (zeros 32)) ((snapIv 0 0).map BitVec.toNat) (le 8 1) xSnap keys0
  rw [hostGet_written (s := sBadTag) rfl (by rw [List.length_append, List.length_map, g, l])]
  generalize ht : gcmTag (aesKeys (zeros 32)) ((snapIv 0 0).map BitVec.toNat) (le 8 1) xSnap = w at g
  rw [openSnap, List.take_of_length_le (by rw [List.length_append, List.length_map, g, l]; decide),
    gcmOpen_untagged _ _ _ _ _ (by rw [List.length_map, g]) ?_]
  rw [ht]; intro e
  cases w with
  | nil => cases g
  | cons x w => exact flip1 x (List.cons.inj e).1
/-- An entry whose snapshot takes two chunks, the second of 12 bytes; the programme that owns it, and its snapshot's first chunk. -/
def enBig : SEntry := { en1 with count := 3355031 }
/-- A programme with that entry. -/
def pBig : Prog := { p0 with smap := [enBig], hyper := [⟨0, 0, 0, 0, 0, 0, 0, 0⟩] }
/-- The first chunk, and SNAP_RESTORE of it sealed, with nothing behind it. -/
def xBig : Bytes := (le 4 0x504E535A ++ le 8 7 ++ [0, 1, 0, 0] ++ pBig.mapHash) ++ zeros (snapChunk - 48)
/-- That state. -/
def sBig : State :=
  { ts 0x0E02 (snapB 1 0 67108908) with
    job := { prog := some pBig }, keys := { snap := some (zeros 32) }, hostMem := cellsWrite hostDflt [] 0x10000 (gcmSeal (zeros 32) (snapIv 0 0) (le 8 2) xBig) }
theorem hyps_SnapRestore_partial_length : sBig.snapLength pBig 0 0 = 67108876 ∧ snapCount 67108876 = 2 := by decide +kernel
theorem big_get : sBig.hostGet 0x10000 (67108880 + 28) =
    gcmSeal (zeros 32) (snapIv 0 0) (le 8 2) xBig ++ cellsReadN hostDflt [] (0x10000 + 67108880) 28 := by
  have hh : (le 4 0x504E535A ++ le 8 7 ++ [0, 1, 0, 0] ++ pBig.mapHash : Bytes).length = 48 := by decide +kernel
  have l : xBig.length = snapChunk := by
    unfold xBig; rw [List.length_append, hh, zeros, List.length_replicate]; rfl
  have g : (gcmSeal (zeros 32) (snapIv 0 0) (le 8 2) xBig).length = 67108880 := by
    have e := gcmSeal_length (zeros 32) (snapIv 0 0) (le 8 2) xBig keys0
    rw [l, snapChunk] at e; omega
  have hm : sBig.hostMem = cellsWrite hostDflt [] 0x10000 (gcmSeal (zeros 32) (snapIv 0 0) (le 8 2) xBig) := by simp only [sBig]
  exact hostGet_behind 28 hm g
theorem hyps_SnapRestore_partial :
    Runs sBig 5 0x0E02 (tq 0x0E02 (snapB 1 0 67108908)) ∧ sBig.keys.snap = some (zeros 32) ∧
    openSnap (zeros 32) 0 2 2 0 (sBig.hostGet 0x10000 (67108876 + 16 * 2)) = (xBig, false) ∧ xBig ≠ [] ∧ snapMatches pBig 0 xBig = true := by
  have hh : (le 4 0x504E535A ++ le 8 7 ++ [0, 1, 0, 0] ++ pBig.mapHash : Bytes).length = 48 := by decide +kernel
  have l : xBig.length = snapChunk := by
    unfold xBig; rw [List.length_append, hh, zeros, List.length_replicate]; rfl
  refine ⟨⟨rfl, rfl, rfl, rfl, rfl, rfl, by decide +kernel⟩, rfl, ?_, ?_, ?_⟩
  · rw [show (67108876 + 16 * 2 : Nat) = 67108880 + 28 from rfl, big_get]
    exact openSnap_cut _ _ _ _ keys0 l (by decide) (by decide +kernel)
  · intro e; rw [e] at l; cases l
  · decide +kernel
/-- STEP_REPLAY_BEGIN at step 10 under a programme of rounds of 10 steps, with a log of step 11 and of what stands behind it. -/
def sRepK (more : Bytes) : State :=
  let l := log1 11 1 ++ more
  let s : State := { ts 0x0602 (le 8 11 ++ le 8 11 ++ le 8 0x10000 ++ le 8 l.length ++ zeros 32) with
                     job := { prog := some pMax }, hostMem := cellsWrite hostDflt [] 0x10000 l }
  s.ww oCommitStep 10
/-- A round's manifest that applies at `step` as a decision record of the log. -/
def manD (step : Nat) : Bytes :=
  let b := [5] ++ zeros 7 ++ ({ manR 7 with step := BitVec.ofNat 64 step } : Manifest).bytes
  le 2 ((32 + b.length) / 8) ++ le 2 0x0204 ++ zeros 12 ++ le 8 11 ++ zeros 8 ++ b
theorem hyps_ReplayBegin_rounds (k : Fin 3) :
    (let more := if k = 0 then [] else if k = 1 then manD 15 else manD 10; let s := sRepK more; let l := log1 11 1 ++ more
     let b := le 8 11 ++ le 8 11 ++ le 8 0x10000 ++ le 8 l.length ++ zeros 32
     let rs := logRecs (rd 24 8 b / 32 + 1) (s.hostGet (rd 16 8 b) (rd 24 8 b))
     let ms := (logDecisions rs 5).map logManifest
     Runs s 5 0x0602 (tq 0x0602 b) ∧ s.job.prog = some pMax ∧ s.logStatus b rs = 0 ∧ s.bad = [] ∧
      (pMax.round.map (fun c => BitVec.ofNat 64 (s.committed / max c.h 1))) = some 1 ∧ (1 : Word) ≠ 0 ∧ s.rounds.open_ ≠ some 1 ∧
      (if k = 0 then ms.find? (fun x => x.1.round == 1) = none
       else (ms.find? (fun x => x.1.round == 1)).map (fun x => x.1.step) = some (if k = 1 then 15 else 10)) ∧
      s.committed < 15 ∧ 10 ≤ s.committed) := by unfold Runs; revert k; decide +kernel
theorem hyps_MirrorSet_b :
    rd 16 8 carB = sCarry.mirror.regionBytes ∧
    (let s : State := { sMir 0x0901 1 3 with job := {} }; s.job.prog.getD (mkProg []) = mkProg [] ∧ s.mirState = 3) ∧
    (let s : State := { sMir 0x0901 1 2 with mirror := { region := ddrBase + 0x100000000, regionBytes := 4096, map := [en1] } }.ww oCommitStep 4
     s.mirState = 2 ∧ (∃ x ∈ s.mirror.shards, s.tagStep x.1 x.2 ≠ s.committed)) ∧
    (let s := sMir 0x0901 1 3; let b := mirB 1; ((s.carryPair b).carry { p0 with route := { mirrorPort := 1, neighbours := [0, 9] } } b []).isSome = true) ∧
    (let s : State := { sMir 0x0901 1 3 with mirror := { region := ddrBase + 0x100000000, regionBytes := 1048576, map := [en1] } }
     ((s.carryPair carB).carry p0 carB []).isNone = true) := by decide +kernel
theorem hyps_MirrorAdmit_b :
    (let s := sMir 0x0903 0 4; let t : State := { s with job := { s.job with running := some { tag := 9, n := 1, desc := [] } } }
     Runs t 5 0x0903 (tq 0x0903 (mirB 0)) ∧ t.mirState = 4 ∧ t.holdsCarried = false ∧ t.mirrorPlaces (mirB 0) false = true ∧ t.mirrorRoute (mirB 0) = true ∧
      t.strg.done = [] ∧ t.bad = []) := by unfold Runs; decide +kernel
theorem hyps_Diag_sending : ({ cal := { sending := [(2, 1)] } } : State).cal.sending ≠ [] := by decide
/-! ### The clauses that name a napping cluster, a repeat or a wait -/

/-- Cluster 0 in a power state. -/
def napAt (s : State) (power : Nat) : State := { s with clus := SMap.set s.clus 0 { s.clu 0 with power := power } }
theorem hyps_Partials_naps :
    (let o := po 1 0 9 (cluBase + 0x3000) 0; let s := napAt (sPo o) 3
     s.napping (o.loc + o.mbOff 0) = some 0 ∧ (s.clu 0).power = 3 ∧ s.cluFenced 0 = false ∧ (0, 0) ∉ s.jug.ran ∧ s.triggered o 0 = true) ∧
    (let o := po 1 0 9 0x3000 0; (sPo o).napping (o.loc + o.mbOff 0) = none) ∧
    (let o := oDi 0; let s := napAt (sDi 0) 3; let o' : PlanOp := { o with loc := cluBase + 0x3000 }; s.napping (o'.loc + o'.mbOff 0) = some 0 ∧ s.cluFenced 0 = false) := by
  decide +kernel
theorem hyps_Contribution_discarded :
    (let s := setRegs (sCon true []) [(oRstJob, 61, 61, 1)]; let c := con0 1 1
     s.job.prog = some (pO oRr) ∧ s.rf oRstJob 61 61 = 1 ∧ s.hang = none ∧
      (s.takeFrames c.src.toNat c.stream.toNat c.seq (frameCount c.data)).isSome = true) := by decide +kernel
/-- A GATHER entry whose two places lie in cluster 0. -/
def oGn : PlanOp := po 4 0 9 (cluBase + 0x3000) (cluBase + 0x4000)
theorem hyps_Gather_naps :
    (let s : State := napAt { sPo oGn with jug := { asked := [(0, 0)] }, fabric := { tx := [{ dest := 9, stream := 1, next := 1, held := [(0, 0, 0, [])] }] } } 3
     (0, 0) ∈ s.jug.asked ∧ ([0, 0] : Bytes).length = 2 * oGn.count ∧ s.napping (oGn.loc + oGn.mbOff 0) = some 0 ∧ s.napping (oGn.aux + oGn.mbOff 0) = some 0 ∧
      s.unackedOp 0 (some 0) = true ∧ s.triggered oGn 0 = true) ∧ (sGa true).napping 0x3000 = none ∧ (sGa true).napping 0x4000 = none := by decide +kernel
/-- The DISPATCH entries with their rows in cluster 0. -/
def oDn (dir : Nat) : PlanOp := { oDi dir with loc := cluBase + 0x3000 }
theorem hyps_DispatchRecord_b :
    (let o := oDn 0; let p := { pO o with experts := [ex0], plan := { epoch := 1, ops := [o], area := le 8 (cluBase + 0x3000) ++ le 8 1 } }
     let s : State := napAt { sPo o with job := { prog := some p, running := some j1 } } 3
     p.dispatchOp 0 false = some (o, 0) ∧ s.napping (p.plan.recvBase o 0) = some 0 ∧ (0, 0, 0, 0, 0) ∉ s.jug.chunks) ∧
    (sDi 0).napping ((pDi 0).plan.recvBase (oDi 0) 0) = none ∧ (sDi 1).napping ((oDi 1).loc + (oDi 1).mbOff 0 + 0) = none ∧
    (let s : State := { sDi 0 with jug := { chunks := [(0, 0, 0, 0, 0)], counts := [(0, 0, 0, 1)], returned := [(0, 0, 0)] } }
     (0, 0, 0, 0, 0) ∈ s.jug.chunks ∧ (∃ c ∈ s.jug.counts, c.1 = 0 ∧ c.2.1 = 0 ∧ c.2.2.1 = 0) ∧ (0, 0, 0) ∈ s.jug.returned) := by decide +kernel
/-- A channel whose frame cannot go out: entropy fails, the alarm is latched, or a replay runs. -/
theorem hyps_Channels_wait (k : Fin 3) (st : Fin 2) :
    (let p := { peer2 with sent := [sent0] }
     let s : State := setRegs (sChan p (st + 1) ch0) (if k = 0 then [(oSecAlarm, 1, 1, 1)] else if k = 1 then [(oSecAlarm, 0, 0, 1)] else [])
     let s : State := { s with replay := { on := decide (k = 2) } }
     s.rounds.peers = [p] ∧ p.sent = [sent0] ∧ s.chanState 0 = st + 1 ∧ (s.noEntropy = true ∨ s.latched = true ∨ s.replay.on = true)) := by
  revert k st; decide +kernel
/-- The two ends of the attempts. -/
theorem hyps_Silence_ends (c : Bool) :
    (let s : State := { sMa c with rounds := { (sMa c).rounds with attempt := 255, held := some { man2 with attempt := 255 } } }
     s.openK = some 2 ∧ s.cfg?.isSome = true ∧ s.rounds.sealed_ = none ∧ s.rounds.stuck = false ∧ s.replay.on = false ∧ 255 ≤ s.rounds.attempt ∧ s.rounds.held.isSome = true) ∧
    (let s : State := { sMa c with rounds := { (sMa c).rounds with attempt := 254, held := some { man2 with attempt := 254 }, coordHeld := some { man2 with attempt := 254 } } }
     s.rounds.attempt < 255 ∧ (if s.rounds.coord then s.rounds.coordHeld else s.rounds.held) = some { man2 with attempt := 254 }) ∧
    (let s := sMa false; ∀ m, s.rounds.held = some m → m.round.toNat = 2 → m.attempt ≠ s.rounds.attempt) ∧
    (let s := sCo { rd0 with querying := true, queryAt := 3, attempt := 5 }; s.rounds.queryAt = 3 ∧ s.rounds.querying = true) := by revert c; decide +kernel
/-- The joiner before it has a manifest, or after one of a round. -/
def sJoinN (last : Bool) (r : Option Word) : State :=
  { sJoin false with rounds := { (sJoin false).rounds with last := if last then some (man1 1) else none, joinRound := r } }
theorem hyps_Join_early (last : Bool) (k : Fin 3) :
    (let r : Option Word := if k = 2 then none else some (BitVec.ofNat 64 k); let s := sJoinN last r
     Opened s frJ 12 peer1 ptJ ∧ Keyless s peer1 ∧ s.rounds.joiner = some peer1.site ∧ s.rounds.joinRound = r ∧ (last = false → s.rounds.last = none)) :=
  ⟨opened_of (by revert last k; decide +kernel) (by decide +kernel) open_J, by unfold Keyless; revert last k; decide +kernel, by revert last k; decide +kernel, rfl,
   fun h => by subst h; rfl⟩
theorem hyps_Sponsor_open (applied : Bool) :
    (let s : State := { job := { prog := some pR }, rounds := { sponsorOf := some 2, last := some (man1 1), open_ := some 2, applied := applied, sealed_ := if applied then some (man1 2) else none } }
     s.rounds.applied = true ∨ s.rounds.sealed_ = none) ∧
    (let s : State := { rounds := { sponsorOf := some 2, last := some (man1 1), applied := false, sealed_ := some (man1 2) } }
     s.rounds.applied = false ∧ s.rounds.sealed_.isSome = true) := by revert applied; decide
/-- A stamp whose 16 bits have gone round since, and an echo that is right but late. -/
theorem hyps_Ident_late :
    (let s : State := setRegs (sPort 1 []) [(oTimeNow, 63, 0, 75626)]
     let s : State := { s with fabric := { ports := [(2, { echoes := [1, 2, 3, 4], peer := 9, stamp := some 65626 })] } }
     (s.sport 2).stamp = some 65626 ∧ 65626 % 65536 = (90 : BitVec 32).toNat % 65536 ∧ (s.sport 2).echoes.length = 4 ∧ (9 : BitVec 20).toNat = s.neighbour 2 ∧
      s.rf (oPortStatus (2 : PortNo)) 63 62 = 1 ∧ 4800 < (((s.sport 2).echoes ++ [s.now - 65626]).take 5).foldl max 0) := by decide +kernel
/-- A vetoed shard that a pair has not re-streamed yet. -/
def sVr (st : Nat) : State :=
  setRegs { sSm 0 {} with strg := { audited := [0], restream := [(0, 0)], vetoed := [(0, 0)] } } [(oMir, 63, 61, st)]
theorem hyps_ShardUpdate_vetoed (st : Fin 2) :
    (let s := sVr (1 + st); s.mirroring = true ∧ (∃ x ∈ s.strg.restream, x ∈ s.strg.vetoed) ∧ s.job.running = some j1 ∧ s.phase = 0 ∧ s.hang = none) := by
  revert st; decide +kernel
/-- Two kept records of step 1: the first fails. -/
theorem hyps_Query_two :
    (let s : State := { sSm 0 { merged := [rec1 3 0 2 0, rec1 0 0 2 0] } with job := { prog := some (pS 0) } }
     s.strg.merged = [rec1 3 0 2 0, rec1 0 0 2 0] ∧ recPasses (pS 0) 1 (rec1 3 0 2 0) = false ∧ recPasses (pS 0) 1 (rec1 0 0 2 0) = true) := by decide +kernel
/-- LAYOUT where a lost partner forces a new plan. -/
def sLoF (plan : Bytes) : State :=
  let s := sLo plan []
  { s with reshard := some { tag := 3, commit := 0, plan := mkPlan plan, forced := true, done := [0] }, mbx := { taken := s.mbx.taken ++ [{ tq 0x0701 [] with tag := 3 }] } }
theorem hyps_Layout_forced :
    (let b := rpB [peB 0 0 0x1000, peB 1 1 0x2000]; let s := sLoF b; let p := { pR with route := pGroup.route }
     Runs s 5 0x0701 (tq 0x0701 (le 8 0 ++ le 8 0x10000 ++ le 8 b.length)) ∧ (∃ r, s.reshard = some r ∧ r.forced = true) ∧ s.restore = none ∧ s.job.staged = some p ∧
      s.job.running = none ∧ 0 = s.committed ∧ s.hostGet 0x10000 b.length = b ∧ planBytes (s.hostGet 0x10000 64) = b.length ∧
      checkPlan p 1 (fun x => rtValid (p.route.entry x)) b = [] ∧ planOrdered (mkPlan b) = true ∧ s.job.queue = [] ∧
      s.taken? 3 = some { tq 0x0701 [] with tag := 3 }) := by unfold Runs; decide +kernel
/-- An entry of 64 masters moved whole while the re-shard names the step that was vetoed. -/
theorem hyps_PermAddr :
    (let e := { en1 with count := 64 }; let r : Reshard := { tag := 5, commit := 1, plan := {} }; let s : State := {}
     let o := { po 6 0 9 (e.masAddr 1) 0 with count := 4 * e.count }
     1 = r.commit.toNat % 2 ∧ 1 ≠ s.committed % 2 ∧ o.loc = e.masAddr 1 + 4 * 0 ∧ 4 * 0 + o.count ≤ 4 * e.count ∧
      (o.loc < e.wAddr 1 ∨ e.wAddr 1 + 2 * e.count < o.loc + o.count) ∧ (o.loc < e.momAddr 1 ∨ e.momAddr 1 + 4 * e.count < o.loc + o.count)) := by decide +kernel
/-- A map given during the re-shard takes effect at its end. -/
theorem hyps_Completion_layoutMap :
    (let s := sCp false false; let s : State := { s with rounds := { layoutMap := some [⟨0, 1, 2, 7, 8⟩] } }
     s.rounds.layoutMap = some [⟨0, 1, 2, 7, 8⟩] ∧ s.job.staged = some pR ∧ s.mirState ≠ 2 ∧ ∃ q, s.reshard = some q) := by
  refine ⟨rfl, rfl, ?_, ⟨_, rfl⟩⟩; decide +kernel
theorem hyps_RoundMap_waits : (sR 0x0801 (rmap1 1)).rounds.applied = true ∧
    (let s : State := { sR 0x0801 (rmap1 1) with job := { prog := some pR, staged := some pR }, reshard := some { tag := 1, commit := 3, plan := {} } }
     s.rmapOk pR (rmap1 1) = true ∧ s.job.staged = some pR ∧ s.reshard.isSome = true) := by decide +kernel

/-! ### Worked examples of the manual -/

/-- The four products of the worked example after R54, the last two factors as given. -/
def exAcc (b1 b3 : Nat) : Acc :=
  Acc.sum ([(0x5CB0, 0x5CB0), (0x3800, b1), (0x4100, 0x4400), (0xDA40, b3)].map (fun x => prodContrib u16 (decodeF fp16 x.1) (decodeF fp16 x.2)))
theorem test_dot_nan : lx16Bytes (exAcc 0x7D13 0x5A40) = le 16 0x0001000000000000C35A000000000000 ∧
    ((roundAcc fp16 0 0 u16 one32 (exAcc 0x7D13 0x5A40)).x, (roundAcc fp16 0 0 u16 one32 (exAcc 0x7D13 0x5A40)).st) = (0x7E00, 1) := by decide +kernel
theorem test_dot_finite : lx16Bytes (exAcc 0x4200 0x5A40) = le 16 0x0000000000000000C35B800000000000 ∧
    ((roundAcc fp16 0 0 u16 one32 (exAcc 0x4200 0x5A40)).x, (roundAcc fp16 0 0 u16 one32 (exAcc 0x4200 0x5A40)).st) = (0x7A1B, 0x10) := by decide +kernel
theorem test_dot_overflow : ((roundAcc fp16 0 0 u16 one32 (exAcc 0x4200 0x5640)).x, (roundAcc fp16 0 0 u16 one32 (exAcc 0x4200 0x5640)).st) = (0x7C00, 0x14) ∧
    ((roundAcc fp16 0 0 u16 0x3F000000 (exAcc 0x4200 0x5640)).x, (roundAcc fp16 0 0 u16 0x3F000000 (exAcc 0x4200 0x5640)).st) = (0x7846, 0x10) := by decide +kernel
/-- R56, both vectors. -/
theorem test_zcg : zcg 0 0 0 0 = 0x21346F5D ∧ zcg 1 1000 7 4660 = 0x2C621E7B := by decide +kernel
/-- The worked example after R59. -/
theorem test_stochastic :
    (let a := Acc.sum ([(0x3C00, 0x3C00), (0x2400, 0x2A00)].map (fun x => prodContrib u16 (decodeF fp16 x.1) (decodeF fp16 x.2)))
     ((roundAcc fp16 4 (zcg 1 1000 7 4660) u16 one32 a).x, (roundAcc fp16 4 (zcg 1 1000 7 4660) u16 one32 a).st) = (0x3C00, 0x10) ∧
     (roundAcc fp16 0 0 u16 one32 a).x = 0x3C01) := by decide +kernel
/-- The table after R63. -/
theorem test_lxp_records : lxpElem (exAcc 0x7D13 0x5A40) = [0x19, 0, 0, 0, 0, 0, 0, 0x5A, 0xC3, 0] ∧
    lxpElem (exAcc 0x4200 0x5A40) = [0x09, 0, 0, 0, 0, 0, 0x80, 0x5B, 0xC3, 0] ∧ lxpElem (prodContrib u16 (decodeF fp16 0xBC00) (decodeF fp16 0x3C00)) =
      [0x07, 0, 0, 0, 0, 0, 0, 0xFF] ∧ lxpElem (prodContrib u16 (decodeF fp16 0x8000) (decodeF fp16 0x3C00)) = [0x81, 0] := by decide +kernel
/-- The block of 32 elements of which element 5 is −2 and the others 1. -/
def exBlock : List Nat := List.replicate 5 0x3C00 ++ [0xC000] ++ List.replicate 26 0x3C00
theorem test_block_coded : (compress 0 exBlock).take 4 = [0x20, 0, 0x40, 0] ∧
    (compress 0 exBlock).drop 8 = [1, 0, 0x25, 0, 0x0F, 0x20, 4, 0, 0, 0] ++ zeros 8 ++ [2] ++ zeros 37 := by decide +kernel
theorem test_block_decoded : (decodeBlock 0 (compress 0 exBlock)).toOption = some exBlock ∧
    (compress 0 (List.replicate 8 0x3C00)).take 4 = [8, 4, 0x18, 0] := by decide +kernel
/-- The delta block with one outlier. -/
theorem test_delta_block :
    (let o := encodeDelta ([0x3D600000, 0xBCC00000, 0x3B000000, 0x40400000, 0x3C400000] ++ List.replicate 27 0)
     o.bytes = [0, 0x86, 0, 0x20, 0xD7, 0, 2] ++ zeros 13 ++ [0, 0x42] ∧ o.resid = [0, 0, 0x3B000000, 0, 0xBB800000] ++ List.replicate 27 0) := by decide +kernel
/-- The addresses of one parameter after R174. -/
theorem test_entry_addresses :
    (let e : SEntry := { en1 with count := 100000, hbm := 0x003C10000000, ddr := 0x010040000000 }
     (e.wAddr 1 + 2 * 70000, e.momAddr 0 + 4 * 70000, e.masAddr 1 + 4 * 70000) = (0x003C10053020, 0x003C100A6040, 0x0100400A6040)) := by decide +kernel
/-- The place of the second of these addresses in DDR5 under R480. -/
theorem test_ddr_place : ddrPlace (2 ^ 35) 0x0100400A6040 = (8, 0x5563240, 0) := by decide
/-- The even edges of a level in 16 (R441). -/
theorem test_edges : ((List.range 16).map (edgePassed 8)).count true = levelEdges 8 ∧ ((List.range 16).map (edgePassed 3)).count true = levelEdges 3 := by decide
/-- The element updated in fused mode after R181, RULE 0 and RULE 2. -/
theorem test_inner_update :
    (let hp : Hyper := ⟨0x3F000000, 0, 0, 0x3F800000, 0x3F800000, 0, 0, 0⟩
     innerUpdate 0 hp 0x3E000000 0x3F000000 0x3E800000 0 0 0 0x3F800000 0x3F000000 0x3F800000 = some (0x3F600000, 0x3F000000) ∧
     innerUpdate 2 hp 0x3E000000 0x3F000000 0x3E800000 0 0 0 0x3F800000 0x3F000000 0x3F800000 = some (0x3F500000, 0x3EC00000) ∧
     workOf 0x3F600000 = 0x3B00 ∧ workOf 0x3F500000 = 0x3A80) := by decide +kernel
/-- The nonce of the worked example in the chapter on keys. -/
theorem test_nonce : bjnIv 0x2A 5 1234567 = [0x2A, 5, 0, 0, 0, 0, 0, 0, 0, 0x12, 0xD6, 0x87] := by decide +kernel

end Sys2Proof.Tests
end

section
/-!
Byte strings and signed values: what a little-endian string holds, and when sign extension from a number of bytes restores a value (R10, R61).
-/

namespace Sys2Proof.Machine

/-- How many bytes a little-endian string has. -/
@[simp] theorem le_length : ∀ n v : Nat, (le n v).length = n
  | 0, _ => rfl
  | n + 1, v => by rw [le, List.length_cons, le_length n]

/-- A little-endian string of n bytes holds its number modulo 2^(8n). -/
theorem leNat_le : ∀ n v : Nat, leNat (le n v) = v % 2 ^ (8 * n)
  | 0, v => by simp [le, leNat, Nat.mod_one]
  | n + 1, v => by
    rw [le, leNat, leNat_le n, BitVec.toNat_ofNat, show 8 * (n + 1) = 8 + 8 * n by omega, Nat.pow_add, Nat.mod_mul]

/-- A value lies in the range of a signed number of l bytes. -/
def FitsBytes (v : Int) (l : Nat) : Prop := -(2 ^ (8 * l - 1) : Nat) ≤ v ∧ v < (2 ^ (8 * l - 1) : Nat)

/-- What fits in some bytes fits in more. -/
theorem FitsBytes.mono {v : Int} {l m : Nat} (h : FitsBytes v l) (le : l ≤ m) : FitsBytes v m := by
  have pow : 2 ^ (8 * l - 1) ≤ 2 ^ (8 * m - 1) := Nat.pow_le_pow_right (by omega) (by omega)
  obtain ⟨lo, hi⟩ := h
  exact ⟨by omega, by omega⟩

/-- The low l bytes of a value. -/
def lowBytes (v : Int) (l : Nat) : Nat := (v % (2 ^ (8 * l) : Nat)).toNat

theorem lowBytes_lt (v : Int) (l : Nat) : lowBytes v l < 2 ^ (8 * l) := by
  have pos : 0 < 2 ^ (8 * l) := Nat.two_pow_pos _
  have lt := Int.emod_lt_of_pos v (b := (2 ^ (8 * l) : Nat)) (by omega)
  unfold lowBytes
  omega

/-- The low bytes of a value, written and read back. -/
theorem leNat_lowBytes (v : Int) (l : Nat) : leNat (le l (lowBytes v l)) = lowBytes v l := by
  rw [leNat_le, Nat.mod_eq_of_lt (lowBytes_lt v l)]

/-- Sign extension of the low bytes restores a value that fits in them (R61). -/
theorem signExtend_lowBytes {v : Int} {l : Nat} (pos : 1 ≤ l) (h : FitsBytes v l) :
    (if 2 ^ (8 * l - 1) ≤ lowBytes v l then (lowBytes v l : Int) - (2 ^ (8 * l) : Nat) else lowBytes v l) = v := by
  have double : 2 ^ (8 * l) = 2 * 2 ^ (8 * l - 1) := by rw [← Nat.pow_succ']; congr 1; omega
  unfold lowBytes
  rw [double]
  unfold FitsBytes at h
  generalize 2 ^ (8 * l - 1) = half at h
  obtain ⟨lo, hi⟩ := h
  rcases Int.lt_or_le v 0 with neg | nonneg
  · have wrap : v % (2 * half : Nat) = v + (2 * half : Nat) := by
      rw [← Int.add_emod_right, Int.emod_eq_of_lt (by omega) (by omega)]
    rw [wrap, if_pos (by omega)]
    omega
  · rw [Int.emod_eq_of_lt nonneg (by omega), if_neg (by omega)]
    omega

end Sys2Proof.Machine
end

section
/-!
Element records of a partial block (R61, R62): the length that the device chooses, the tag, and that any record long enough reads as its accumulator.
-/

namespace Sys2Proof.Machine

/-! ### The length -/

theorem lxpLen_fits {v : Int} {f l : Nat} (h : FitsBytes v l) : lxpLen v (f + 1) l = l := if_pos h

theorem lxpLen_next {v : Int} {f l : Nat} (h : ¬ FitsBytes v l) : lxpLen v (f + 1) l = lxpLen v f (l + 1) := if_neg h

/-- A search of f tries from l ends among the lengths l to l + f. -/
theorem lxpLen_bounds (v : Int) : ∀ f l : Nat, l ≤ lxpLen v f l ∧ lxpLen v f l ≤ l + f
  | 0, l => ⟨Nat.le_refl l, Nat.le_refl l⟩
  | f + 1, l => by
    by_cases h : FitsBytes v l
    · rw [lxpLen_fits h]; omega
    · rw [lxpLen_next h]
      have := lxpLen_bounds v f (l + 1)
      omega

/-- The search finds a length that fits, if the last one does. -/
theorem fitsBytes_lxpLen {v : Int} : ∀ {f l : Nat}, FitsBytes v (l + f) → FitsBytes v (lxpLen v f l)
  | 0, _, last => last
  | f + 1, l, last => by
    by_cases h : FitsBytes v l
    · rwa [lxpLen_fits h]
    · rw [lxpLen_next h]
      exact fitsBytes_lxpLen (by rwa [Nat.add_right_comm])

/-- No length before the one found fits. -/
theorem not_fitsBytes_of_lt_lxpLen {v : Int} : ∀ {f l k : Nat}, l ≤ k → k < lxpLen v f l → ¬ FitsBytes v k
  | 0, l, k, ge, lt => absurd lt (Nat.not_lt.mpr ge)
  | f + 1, l, k, ge, lt => by
    by_cases h : FitsBytes v l
    · rw [lxpLen_fits h] at lt; omega
    · rw [lxpLen_next h] at lt
      rcases Nat.eq_or_lt_of_le ge with rfl | gt
      · exact h
      · exact not_fitsBytes_of_lt_lxpLen gt lt

/-- A zero takes one byte (R62). -/
theorem lxpLen_zero (f : Nat) : lxpLen 0 (f + 1) 1 = 1 := lxpLen_fits (by unfold FitsBytes; decide)

/-! ### The tag -/

theorem b2n_le_one : ∀ x : Bool, b2n x ≤ 1 := by decide

theorem Acc.flagBits_lt (a : Acc) : a.flagBits < 16 := by
  have := b2n_le_one a.allneg
  have := b2n_le_one a.ninf
  have := b2n_le_one a.pinf
  have := b2n_le_one a.nan
  unfold Acc.flagBits
  omega

/-- The flag bits hold NAN, PINF, NINF and ALLNEGZ, from bit 0 up (R61). -/
theorem Acc.bit_flagBits (a : Acc) :
    bit 0 a.flagBits = a.nan ∧ bit 1 a.flagBits = a.pinf ∧ bit 2 a.flagBits = a.ninf ∧ bit 3 a.flagBits = a.allneg := by
  have table : ∀ nan pinf ninf allneg : Bool, let n := 8 * b2n allneg + 4 * b2n ninf + 2 * b2n pinf + b2n nan
      bit 0 n = nan ∧ bit 1 n = pinf ∧ bit 2 n = ninf ∧ bit 3 n = allneg := by decide
  exact table a.nan a.pinf a.ninf a.allneg

/-- The tag of a record of l bytes (R61). -/
def Acc.lxpTag (a : Acc) (l : Nat) : Byte := BitVec.ofNat 8 (a.flagBits * 16 + l)

theorem Acc.toNat_lxpTag (a : Acc) {l : Nat} (h : l ≤ 14) : (a.lxpTag l).toNat = a.flagBits * 16 + l := by
  have := a.flagBits_lt
  rw [Acc.lxpTag, BitVec.toNat_ofNat, Nat.mod_eq_of_lt (by omega)]

/-! ### A record -/

/-- The record of an accumulator in l value bytes. -/
def Acc.lxpRecord (a : Acc) (l : Nat) : Bytes := a.lxpTag l :: le l (lowBytes a.val l)

/-- The device writes the record of the length that it found. -/
theorem lxpElem_eq (a : Acc) : lxpElem a = a.lxpRecord (lxpLen a.val 13 1) := rfl

/-- An accumulator has ALLNEGZ set only together with a zero value and no other flag, as a record that is not damaged must (R63). -/
def Acc.Tidy (a : Acc) : Prop := a.allneg = true → a = { val := 0, allneg := true }

/-- No record of a tidy accumulator is damaged by its ALLNEGZ flag (R63). -/
theorem Acc.Tidy.not_damaged {a : Acc} (h : a.Tidy) : ¬ (a.allneg = true ∧ (a.val ≠ 0 ∨ a.flagBits ≠ 8)) := by
  rintro ⟨set, bad⟩
  rw [h set] at bad
  revert bad
  decide

/-- A record in which the value fits reads as its accumulator, and the records behind it are read on (R61, R62). -/
theorem lxpElems_lxpRecord {a : Acc} {l : Nat} (n : Nat) (rest : Bytes) (pos : 1 ≤ l) (max : l ≤ 14) (fits : FitsBytes a.val l) (tidy : a.Tidy) :
    lxpElems (n + 1) (a.lxpRecord l ++ rest) = (lxpElems n rest).map (a :: ·) := by
  have len : (a.lxpTag l).toNat % 16 = l := by rw [a.toNat_lxpTag max]; omega
  have flags : (a.lxpTag l).toNat / 16 = a.flagBits := by rw [a.toNat_lxpTag max]; omega
  have taken : (le l (lowBytes a.val l) ++ rest).take l = le l (lowBytes a.val l) := List.take_left' (le_length _ _)
  have left : (le l (lowBytes a.val l) ++ rest).drop l = rest := List.drop_left' (le_length _ _)
  have short : ¬ (l = 0 ∨ l = 15 ∨ (le l (lowBytes a.val l) ++ rest).length < l) := by
    rw [List.length_append, le_length]; omega
  obtain ⟨nan, pinf, ninf, allneg⟩ := a.bit_flagBits
  simp only [Acc.lxpRecord, List.cons_append, lxpElems, len, flags, if_neg short, taken, left, leNat_lowBytes, signExtend_lowBytes pos fits,
    nan, pinf, ninf, allneg, if_neg tidy.not_damaged]

/-- One record alone. -/
theorem lxpElems_one_lxpRecord {a : Acc} {l : Nat} (pos : 1 ≤ l) (max : l ≤ 14) (fits : FitsBytes a.val l) (tidy : a.Tidy) :
    lxpElems 1 (a.lxpRecord l) = some [a] := by
  have := lxpElems_lxpRecord 0 [] pos max fits tidy
  rwa [List.append_nil] at this

/-- Settles O9: the search for the length gives the smallest that fits, and a record of any length that fits reads the same. -/
theorem partialRecordsUseTheFewestBytes : Obligations.PartialRecordsUseTheFewestBytes := by
  intro a lo hi tidy
  obtain ⟨pos, max⟩ := lxpLen_bounds a.val 13 1
  have fits : FitsBytes a.val (lxpLen a.val 13 1) := fitsBytes_lxpLen (f := 13) (l := 1) ⟨lo, hi⟩
  have tag := a.toNat_lxpTag max
  refine ⟨lxpLen a.val 13 1, a.lxpTag (lxpLen a.val 13 1), pos, max, lxpElem_eq a, ?flags, fits,
    fun l => not_fitsBytes_of_lt_lxpLen, ?zero, ?longer⟩
  case flags =>
    rw [tag, Acc.flagBits]; omega
  case zero =>
    intro z
    rw [lxpElem_eq, z, lxpLen_zero, Acc.lxpRecord, z]
    rfl
  case longer =>
    intro M ge le
    rw [tag, Nat.add_sub_cancel]
    exact lxpElems_one_lxpRecord (by omega) le (fits.mono ge) tidy

end Sys2Proof.Machine
end

section
/-!
Merging accumulators and the contributions of products (R39, R43).
-/

namespace Sys2Proof.Machine

/-! ### Merges and sums -/

theorem Acc.merge_cleared (a : Acc) : a.merge {} = a := by simp [Acc.merge]

theorem Acc.cleared_merge (a : Acc) : Acc.merge {} a = a := by simp [Acc.merge]

theorem Acc.merge_comm (a b : Acc) : a.merge b = b.merge a := by
  simp [Acc.merge, Int.add_comm, Bool.or_comm, Bool.and_comm]

theorem Acc.merge_assoc (a b c : Acc) : (a.merge b).merge c = a.merge (b.merge c) := by
  simp [Acc.merge, Int.add_assoc, Bool.or_assoc, Bool.and_assoc]

/-- A fold of merges from an accumulator merges the sum into it. -/
theorem Acc.foldl_merge : ∀ (l : List Acc) (a : Acc), l.foldl Acc.merge a = a.merge (Acc.sum l)
  | [], a => a.merge_cleared.symm
  | x :: l, a => by
    rw [Acc.sum, List.foldl_cons, List.foldl_cons, Acc.foldl_merge l, Acc.foldl_merge l, Acc.cleared_merge, Acc.merge_assoc]

theorem Acc.sum_cons (a : Acc) (l : List Acc) : Acc.sum (a :: l) = a.merge (Acc.sum l) := by
  rw [Acc.sum, List.foldl_cons, Acc.foldl_merge, Acc.cleared_merge]

theorem Acc.sum_append (l m : List Acc) : Acc.sum (l ++ m) = (Acc.sum l).merge (Acc.sum m) := by
  rw [Acc.sum, List.foldl_append, Acc.foldl_merge, ← Acc.sum]

/-- A sum is the same in every order (R43). -/
theorem Acc.sum_perm {l m : List Acc} (h : l.Perm m) : Acc.sum l = Acc.sum m :=
  h.foldl_eq' (f := Acc.merge) (fun x _ y _ z => by rw [Acc.merge_assoc, Acc.merge_comm x y, ← Acc.merge_assoc]) {}

/-- A sum is the same in every grouping (R43). -/
theorem Acc.sum_sums : ∀ ls : List (List Acc), Acc.sum (ls.map Acc.sum) = Acc.sum ls.flatten
  | [] => rfl
  | l :: ls => by rw [List.map_cons, Acc.sum_cons, Acc.sum_sums ls, List.flatten_cons, Acc.sum_append]

/-! ### Products -/

/-- A NaN on the right contributes a NaN, whatever stands on the left (R39). -/
theorem prodContrib_nan_right (u : Int) (v : FVal) : prodContrib u v .nan = .flagged true false false := by
  cases v <;> rfl

/-- An infinity times a finite value, in either order (R39). -/
theorem prodContrib_inf_fin (u : Int) (i t : Bool) (m : Nat) (e : Int) :
    prodContrib u (.inf i) (.fin t m e) = (if m = 0 then .flagged true false false else .flagged false (i == t) (i != t)) ∧
    prodContrib u (.fin t m e) (.inf i) = (if m = 0 then .flagged true false false else .flagged false (i == t) (i != t)) :=
  ⟨rfl, by rw [prodContrib, Bool.beq_comm, bne_comm]⟩

/-- The exponent of a finite number is at least that of the format's least subnormal. -/
theorem decodeF_fin_exponent {f : Fmt} {x : Nat} {i : Bool} {m : Nat} {e : Int} (h : decodeF f x = .fin i m e) :
    f.emin - (f.p - 1 : Nat) ≤ e := by
  unfold decodeF at h
  dsimp only at h
  split at h
  · split at h <;> cases h
  · split at h
    · cases h; exact Int.le_refl _
    · cases h; unfold Fmt.emin; omega

/-- A product of two finite numbers of a format is a multiple of the unit of its accumulator (R38). -/
theorem decodeF_fin_exponents_add {f : Fmt} {u : Int} (hu : (f = fp16 ∧ u = u16) ∨ (f = fp32 ∧ u = u32e)) {x y : Nat} {i j : Bool} {m n : Nat}
    {e g : Int} (hx : decodeF f x = .fin i m e) (hy : decodeF f y = .fin j n g) : u ≤ e + g := by
  have he := decodeF_fin_exponent hx
  have hg := decodeF_fin_exponent hy
  rcases hu with ⟨rfl, rfl⟩ | ⟨rfl, rfl⟩
  · have least : fp16.emin - (fp16.p - 1 : Nat) = -24 := by decide
    unfold u16; omega
  · have least : fp32.emin - (fp32.p - 1 : Nat) = -149 := by decide
    unfold u32e; omega

/-- The product of two finite values, k binary places above the unit (R39). -/
theorem prodContrib_fin_fin (u : Int) (i j : Bool) (m n : Nat) {e g : Int} {k : Nat} (hk : e + g = u + k) :
    prodContrib u (.fin i m e) (.fin j n g) =
      ⟨(if i = j then 1 else -1) * ((m * n * 2 ^ k : Nat) : Int), false, false, false, decide (m * n = 0) && (i != j)⟩ := by
  have place : (e + g - u).toNat = k := by omega
  have value : shl ((m * n : Nat) : Int) k = ((m * n * 2 ^ k : Nat) : Int) := (Int.natCast_mul _ _).symm
  simp only [prodContrib, place, value]
  by_cases same : i = j
  · subst same; simp
  · simp [same]

/-- Settles O12: the laws of the merge, the sum of any order and grouping, and the table of contributions. -/
theorem accumulatorsMergeInAnyOrder : Obligations.AccumulatorsMergeInAnyOrder := by
  refine ⟨fun a => ⟨a.cleared_merge, a.merge_cleared⟩, ⟨rfl, rfl, rfl, rfl, rfl⟩, fun a b => ⟨rfl, rfl, rfl, rfl, rfl⟩,
    fun a b c => ⟨Acc.merge_assoc a b c, Acc.merge_comm a b⟩, fun l m => Acc.sum_perm, Acc.sum_sums,
    fun u v => ⟨rfl, prodContrib_nan_right u v⟩, ?infinite, ?finite⟩
  case infinite =>
    intro u i t m e
    obtain ⟨right, left⟩ := prodContrib_inf_fin u i t m e
    refine ⟨rfl, fun zero => ?_, fun nonzero => ?_⟩
    · rw [right, left, if_pos zero]; exact ⟨rfl, rfl⟩
    · rw [right, left, if_neg nonzero]; exact ⟨rfl, rfl⟩
  case finite =>
    intro f u x y i j m n e g hu hx hy
    have unit := decodeF_fin_exponents_add hu hx hy
    have hk : e + g = u + (e + g - u).toNat := by omega
    exact ⟨(e + g - u).toNat, hk, prodContrib_fin_fin u i j m n hk⟩

end Sys2Proof.Machine
end

section
/-!
The stored forms of a lossless block: the header fields of a built block, the lengths of the raw and the coded form, and when the compressor stores each
(R112 to R114, R119).
-/

namespace Sys2Proof.Machine

/-! ### Lengths -/

@[simp] theorem zeros_length (n : Nat) : (zeros n).length = n := List.length_replicate

/-- Padding rounds the length up. -/
theorem padTo_eight_length (b : Bytes) : (padTo 8 b).length = roundUp 8 b.length := by
  rw [padTo, List.length_append, zeros_length, roundUp]
  omega

/-- A concatenation of little-endian numbers of k bytes each has k bytes for each of them. -/
theorem flatMap_le_length (k : Nat) (xs : List Nat) : (xs.flatMap (le k)).length = k * xs.length := by
  simp [List.length_flatMap, Nat.mul_comm]

/-- The raw size of up to 256 elements is at most that of 256 FP32 elements (R113). -/
theorem rawSize_le {fmt n : Nat} (h : n ≤ 256) : rawSize fmt n ≤ 1032 := by
  unfold rawSize roundUp elemBytes
  split <;> omega

/-! ### A built block -/

/-- A number written behind other bytes reads as itself, modulo its width. -/
theorem rd_append_le {o : Nat} {before : Bytes} (h : before.length = o) (n v : Nat) (after : Bytes) :
    rd o n (before ++ (le n v ++ after)) = v % 2 ^ (8 * n) := by
  rw [rd, List.drop_left' h, List.take_left' (le_length n v), leNat_le]

theorem mkBlock_length (fmt count raw : Nat) (body : Bytes) : (mkBlock fmt count raw body).length = 8 + body.length := by
  simp only [mkBlock, List.length_append, le_length]

/-- A built block begins with COUNT, FMT and RAW in one word and LENGTH in the next (R112). -/
theorem mkBlock_header (fmt count raw : Nat) (body : Bytes) :
    ∃ rest, mkBlock fmt count raw body = le 2 (count + fmt * 512 + raw * 1024) ++ (le 2 (8 + body.length) ++ rest) :=
  ⟨_, by rw [mkBlock, List.append_assoc, List.append_assoc]⟩

/-- LENGTH of a built block is its length, where 16 bits hold it (R112). -/
theorem blkLen_mkBlock {fmt count raw : Nat} {body : Bytes} (short : (mkBlock fmt count raw body).length < 2 ^ 16) :
    blkLen (mkBlock fmt count raw body) = (mkBlock fmt count raw body).length := by
  rw [mkBlock_length] at short ⊢
  obtain ⟨rest, header⟩ := mkBlock_header fmt count raw body
  rw [blkLen, header, rd_append_le (le_length 2 _), Nat.mod_eq_of_lt short]

/-- RAW of a built block is the bit that it was built with (R112). -/
theorem blkRaw_mkBlock {fmt count raw : Nat} (body : Bytes) (hfmt : fmt < 2) (hcount : count < 512) (hraw : raw < 2) :
    blkRaw (mkBlock fmt count raw body) = (raw == 1) := by
  obtain ⟨rest, header⟩ := mkBlock_header fmt count raw body
  have word := rd_append_le (o := 0) (before := []) rfl 2 (count + fmt * 512 + raw * 1024) (le 2 (8 + body.length) ++ rest)
  have bit10 : (count + fmt * 512 + raw * 1024) % 2 ^ (8 * 2) / 2 ^ 10 % 2 = raw := by omega
  rw [List.nil_append] at word
  rw [blkRaw, header, word, bit, bit10]

/-! ### The raw form and the coded form -/

theorem rawBlock_length (fmt : Nat) (xs : List Nat) : (rawBlock fmt xs).length = rawSize fmt xs.length := by
  rw [rawBlock, mkBlock_length, padTo_eight_length, flatMap_le_length, rawSize]

theorem blkRaw_rawBlock {fmt : Nat} {xs : List Nat} (hfmt : fmt < 2) (hlen : xs.length ≤ 256) : blkRaw (rawBlock fmt xs) = true :=
  blkRaw_mkBlock _ hfmt (by omega) (by omega)

theorem blkLen_rawBlock {fmt : Nat} {xs : List Nat} (hlen : xs.length ≤ 256) : blkLen (rawBlock fmt xs) = rawSize fmt xs.length := by
  have length := rawBlock_length fmt xs
  have small := rawSize_le (fmt := fmt) hlen
  rw [← length]
  exact blkLen_mkBlock (lt_of_eq_of_lt length (by omega))

/-- A coded block is a whole number of 8-byte words (R114). -/
theorem codedBlock_length_mod (fmt : Nat) (table xs : List Nat) : (codedBlock fmt table xs).length % 8 = 0 := by
  rw [codedBlock, mkBlock_length, padTo_eight_length, roundUp, Nat.add_mul_mod_self_right]

theorem blkRaw_codedBlock {fmt : Nat} {table xs : List Nat} (hfmt : fmt < 2) (hlen : xs.length ≤ 256) :
    blkRaw (codedBlock fmt table xs) = false :=
  blkRaw_mkBlock _ hfmt (by omega) (by omega)

theorem blkLen_codedBlock {fmt : Nat} {table xs : List Nat} (short : (codedBlock fmt table xs).length < 2 ^ 16) :
    blkLen (codedBlock fmt table xs) = (codedBlock fmt table xs).length :=
  blkLen_mkBlock short

/-! ### The compressor's choice -/

/-- The coded form that the compressor weighs: under the best table (R118). -/
def bestCoded (fmt : Nat) (xs : List Nat) : Bytes := codedBlock fmt (bestTable fmt (xs.map (expOf fmt))) xs

/-- The coded form saves more than a sixteenth of the raw size (R119). -/
def CodingSaves (fmt : Nat) (xs : List Nat) : Prop := 16 * (bestCoded fmt xs).length < 15 * rawSize fmt xs.length

theorem compress_of_saves {fmt : Nat} {xs : List Nat} (h : CodingSaves fmt xs) : compress fmt xs = bestCoded fmt xs := if_pos h

theorem compress_of_not_saves {fmt : Nat} {xs : List Nat} (h : ¬ CodingSaves fmt xs) : compress fmt xs = rawBlock fmt xs := if_neg h

/-- RAW of a stored block is clear exactly where coding saves (R119). -/
theorem blkRaw_compress_eq_false_iff {fmt : Nat} {xs : List Nat} (hfmt : fmt < 2) (hlen : xs.length ≤ 256) :
    blkRaw (compress fmt xs) = false ↔ CodingSaves fmt xs := by
  by_cases saves : CodingSaves fmt xs
  · rw [compress_of_saves saves, bestCoded, blkRaw_codedBlock hfmt hlen]
    exact iff_of_true rfl saves
  · rw [compress_of_not_saves saves, blkRaw_rawBlock hfmt hlen]
    exact iff_of_false Bool.noConfusion saves

/-- No stored block is larger than its raw size (R119). -/
theorem compress_length_le (fmt : Nat) (xs : List Nat) : (compress fmt xs).length ≤ rawSize fmt xs.length := by
  by_cases saves : CodingSaves fmt xs
  · rw [compress_of_saves saves]
    unfold CodingSaves at saves
    omega
  · rw [compress_of_not_saves saves, rawBlock_length]

/-- For a full FP16 block the bound is 480 bytes: the largest whole number of words below 487.5 (R119). -/
theorem codingSaves_full_fp16_iff {xs : List Nat} (full : xs.length = 256) : CodingSaves 0 xs ↔ (bestCoded 0 xs).length ≤ 480 := by
  have size : rawSize 0 256 = 520 := rfl
  have whole : (bestCoded 0 xs).length % 8 = 0 := codedBlock_length_mod 0 _ xs
  rw [CodingSaves, full, size]
  omega

/-- Settles O8: the compressor's choice is the comparison of R119, and the forms' headers and lengths give the rest. -/
theorem blocksAreCodedOnlyWhereTheySave : Obligations.BlocksAreCodedOnlyWhereTheySave := by
  intro fmt xs c hfmt _ hlen _ hc
  replace hc : c = bestCoded fmt xs := hc
  subst hc
  have raw := blkRaw_compress_eq_false_iff hfmt hlen
  have small := rawSize_le (fmt := fmt) hlen
  refine ⟨fun saves => ?coded, fun wastes => ?raw, compress_length_le fmt xs, fun clear => ?sixteenth, ?full⟩
  case coded =>
    exact ⟨compress_of_saves saves, blkRaw_codedBlock hfmt hlen, blkLen_codedBlock (show (bestCoded fmt xs).length < 2 ^ 16 by omega)⟩
  case raw =>
    have stored : compress fmt xs = rawBlock fmt xs := compress_of_not_saves (Nat.not_lt.mpr wastes)
    rw [stored]
    exact ⟨rfl, blkRaw_rawBlock hfmt hlen, blkLen_rawBlock hlen⟩
  case sixteenth =>
    have saves : CodingSaves fmt xs := raw.mp clear
    rw [compress_of_saves saves]
    unfold CodingSaves at saves
    omega
  case full =>
    rintro rfl full
    exact ⟨by rw [full]; rfl, raw.trans (codingSaves_full_fp16_iff full)⟩

end Sys2Proof.Machine
end

section
/-!
REQUEST_TAKE (R371 to R373): when a request is taken, what that does to the mailbox, and that a completion keeps its room in the ring.
-/

namespace Sys2Proof.Machine

/-! ### Room for a completion -/

/-- The requests and completions that take room in the completion ring: those taken, those that wait, and those not consumed (R372). -/
def State.owed (s : State) : Nat := s.mbx.taken.length + s.mbx.wait.length + s.unconsumed

/-- The device takes requests only while there is room (R372). -/
theorem State.owed_lt_of_canTake {s : State} (h : s.canTake = true) : s.owed < 255 := by
  simp only [State.canTake, Bool.and_eq_true, decide_eq_true_eq] at h
  exact h.2

theorem State.canTake_eq_false_of_le_owed {s : State} (full : 255 ≤ s.owed) : s.canTake = false :=
  Bool.eq_false_iff.mpr fun can => Nat.not_lt.mpr full (State.owed_lt_of_canTake can)

/-- MBX_CPL alone says how many completions the host has not consumed (R371). -/
theorem OnlyRegs.unconsumed {s t : State} {l : List Nat} (h : OnlyRegs s t l) (apart : oMbxCpl ∉ l) : t.unconsumed = s.unconsumed := by
  rw [State.unconsumed, State.unconsumed, h.rf oMbxCpl 15 8 apart, h.rf oMbxCpl 7 0 apart]

/-! ### What a take does -/

/-- A request refused as it is taken gets a completion that waits behind the others; the requests taken earlier stay (R373). -/
theorem State.refuse_mbx (s : State) (q : Taken) (status : Nat) :
    (s.refuse q status).mbx = { s.mbx with wait := s.mbx.wait ++ [completionOf q status 0 []] } :=
  (State.stallCheck_touches _).only .mbx (by decide)

/-- Without the right to take a request, REQUEST_TAKE does nothing (R372). -/
theorem execRequestTake_of_not_canTake {s : State} (hostOk : Bool) (h : s.canTake = false) : execRequestTake hostOk s = .next s := by
  simp only [execRequestTake, h, Bool.not_false, if_true, go]

/-- The two ways in which a request is taken: it joins the taken requests, or it completes at once (R371, R373). -/
theorem execRequestTake_of_canTake {s : State} {e : Bytes} (hostOk : Bool) (h : s.canTake = true)
    (head : e = fit 64 (SMap.get s.mbx.req (s.rf oMbxReq 15 8) [])) :
    ∃ t, execRequestTake hostOk s = .next t ∧
      ((s.takeStatus hostOk e = none ∧ t.mbx = { s.mbx with taken := s.mbx.taken ++ [s.takenOf e] }) ∨
        ∃ status, s.takeStatus hostOk e = some status ∧
          t.mbx = { s.mbx with wait := s.mbx.wait ++ [completionOf (s.takenOf e) status 0 []] }) := by
  simp only [execRequestTake, h, Bool.not_true, Bool.false_eq_true, if_false, ← head]
  cases verdict : s.takeStatus hostOk e with
  | none => exact ⟨_, rfl, .inl ⟨rfl, rfl⟩⟩
  | some status => exact ⟨_, rfl, .inr ⟨status, rfl, State.refuse_mbx _ _ status⟩⟩

theorem execRequestTake_unconsumed {s t : State} {hostOk : Bool} (h : execRequestTake hostOk s = .next t) : t.unconsumed = s.unconsumed :=
  (execRequestTake_regs hostOk s t h).unconsumed (by decide)

/-- Settles O11: each way of taking a request adds one entry to the mailbox, and MBX_CPL stays as it is. -/
theorem requestsAreTakenOnlyWhileACompletionHasRoom : Obligations.RequestsAreTakenOnlyWhileACompletionHasRoom := by
  intro s hostOk
  refine ⟨fun full => execRequestTake_of_not_canTake hostOk (State.canTake_eq_false_of_le_owed full), fun can => ?_⟩
  obtain ⟨t, run, taken⟩ := execRequestTake_of_canTake hostOk can rfl
  have room : s.mbx.taken.length + s.mbx.wait.length + s.unconsumed < 255 := State.owed_lt_of_canTake can
  have same : t.unconsumed = s.unconsumed := execRequestTake_unconsumed run
  have one : t.mbx.taken.length + t.mbx.wait.length = s.mbx.taken.length + s.mbx.wait.length + 1 := by
    rcases taken with ⟨-, mbx⟩ | ⟨status, -, mbx⟩
    · rw [mbx, List.length_append, List.length_singleton, Nat.add_right_comm]
    · rw [mbx, List.length_append, List.length_singleton, Nat.add_assoc]
  have rings : t.mbx.req = s.mbx.req ∧ t.mbx.cpl = s.mbx.cpl := by
    rcases taken with ⟨-, mbx⟩ | ⟨status, -, mbx⟩ <;> rw [mbx] <;> exact ⟨rfl, rfl⟩
  exact ⟨t, run, by omega, one, rings⟩

end Sys2Proof.Machine
end
